-- ==== Sys2Proof/Word.lean ====
section
/-! DEFINITION. The words the spec counts in (R10, R12) and the shape of a sparse table. -/

namespace Sys2Proof

/-- A byte is 8 bits (R10). -/
abbrev Byte := BitVec 8

/-- A register word is 32 bits (R10). -/
abbrev Word := BitVec 32

/-- A logical record number, 48 bits (R25). -/
abbrev Lrn := BitVec 48

/-- A table keyed by a number: strictly rising keys, and no entry equal to what an unlisted key
reads as (`Sparse.wf` in Machine/Sparse.lean). -/
abbrev Sparse (α : Type) := List (Nat × α)

end Sys2Proof
end

