-- ==== Sys2Proof/Syntax.lean ====
section
/-! DEFINITION. The commands the block takes: one constructor of `Instr` for each row of
spec/opcode_table.json, in the table's order, and the records their operands are made of.
An operand carries what the host, the tape, a sensor, an engine or a standard algorithm delivered
at that event; everything the device decides itself is in the machine (log 1). -/

namespace Sys2Proof

/-- The two ordering variants (R1, R2). -/
inductive Variant | ac | hc
  deriving DecidableEq, Repr

/-- Who makes a register access (R602, coded as AFAULT.SRC in R623). -/
inductive Requester
  | pf0 | vf (f : Fin 64) | core (h : Fin 4) | dma (n : Fin 16) | dumpEngine | vault
  deriving DecidableEq, Repr

/-- Where a host command was fetched: a PCIe queue pair of a function, or a network QP (R457). -/
inductive Src
  | pcie (fn : Fin 64) (sq : Fin 16)
  | net (qp : Fin 1024)
  deriving DecidableEq, Repr

/-- A submission entry, by its fields (R385). `cspec` is bytes 0x20 to 0x3F, byte 0x20 lowest.
The zero fields are kept so that R388 can be checked. -/
structure Sqe where
  opc   : Byte := 0
  flags : Byte := 0
  cid   : BitVec 16 := 0
  part  : Byte := 0xFF
  zero5 : BitVec 24 := 0
  daddr : BitVec 64 := 0
  dlen  : Word := 0
  zero14 : Word := 0
  lrn   : BitVec 64 := 0
  cspec : BitVec 256 := 0
  deriving DecidableEq, Repr

/-- A scatter-list entry (R386). -/
structure SglEntry where
  addr : BitVec 64
  len  : Word
  zero : Word := 0
  deriving DecidableEq, Repr

/-- What the fetch of a command delivers: the entry, and the lists its addresses name (R386, R391). -/
structure Fetch where
  sqe  : Sqe
  sgl  : List SglEntry := []
  lens : List Word := []
  deriving DecidableEq, Repr

/-- A command capsule as received (R466): its length, header fields, and the entry. -/
structure Capsule where
  len   : Nat
  ctype : Byte
  nent  : Byte
  zero2 : BitVec 16 := 0
  rkeyd : Word := 0
  rkeyl : Word := 0
  zeroC : Word := 0
  body  : Fetch
  deriving DecidableEq, Repr

/-- The result of a device read over PCIe (R438). -/
inductive CplResult
  | data (bytes : List Byte)
  | error            -- UR or CA status, or a poisoned TLP
  deriving DecidableEq, Repr

/-- An acknowledgement received on a QP (R461, R464). -/
inductive AckKind
  | ack | nakSequence | rnrNak | nakRemoteAccess | nakRemoteOp | nakInvalidRequest
  deriving DecidableEq, Repr

/-- The transport opcodes of R463, as far as a received frame is told apart by them. -/
inductive RoceOp
  | sendOnly | sendMulti | rdmaWrite | rdmaReadRequest | rdmaReadResponse | acknowledge | cnp | other
  deriving DecidableEq, Repr

/-- A received Ethernet frame (R455, R456, R464, R471). `toQp` is the local QP its BTH names. -/
structure Frame where
  roce  : Bool
  bytes : Nat
  fcsOk : Bool := true
  ce    : Bool := false
  toQp  : Option (Fin 1024) := none
  op    : RoceOp := .other
  psn   : BitVec 24 := 0
  drained : Nat := 0          -- bytes the port has taken out of its receive buffer since the last frame
  room   : Bool := true       -- the receive buffer can take the frame
  fecCorr : Nat := 0          -- FEC codewords corrected and uncorrectable since the last frame
  fecUncorr : Nat := 0
  deriving DecidableEq, Repr

/-- A wrap-plan entry (R34): band, wrap, partition and direction, the half-wrap in half-band
geometry (R98), and whether the pass writes or reads (R236). -/
structure PlanEntry where
  band  : BitVec 2
  wrap  : Fin 400
  part  : Fin 64
  rev   : Bool
  half  : Bool := false
  write : Bool := true
  deriving DecidableEq, Repr

/-- A wrap pair's role and state in the index (R108). -/
inductive WpRole | free | berm | data
  deriving DecidableEq, Repr

/-- A wrap pair table entry (R108). -/
structure WpEntry where
  pnum  : Byte := 0xFF
  role  : WpRole := .free
  half  : Bool := false
  state : BitVec 2 := 0        -- 0 unwritten, 1 written, 2 closed
  closePos : Word := 0xFFFFFFFF
  deriving DecidableEq, Repr

/-- A partition table entry (R109). -/
structure PartEntry where
  inUse   : Bool := false
  halfBand : Bool := false
  full    : Bool := false
  owner   : BitVec 64 := 0
  keyFp   : BitVec 128 := 0
  wgen    : BitVec 64 := 0
  nextDsn : Nat := 0
  eodDsn  : Option Nat := none
  eodLrn  : Nat := 0
  eodMarks : Nat := 0
  eodWrap : Nat := 0
  eodPos  : Nat := 0
  ubytes  : Nat := 0
  cbytes  : Nat := 0
  deriving DecidableEq, Repr

/-- A granule entry (R110). -/
structure Gran where
  dsn   : Nat
  lrn   : Nat
  marks : Nat
  wrap  : Nat
  pos   : Nat
  deriving DecidableEq, Repr

/-- The core of an index image (R106 to R109). -/
structure IndexCore where
  gen    : BitVec 64 := 0
  time   : Nat := 0
  cartId : BitVec 128 := 0
  writer : Word := 0
  lastP  : Byte := 0xFF
  wps    : Sparse WpEntry := []
  parts  : Sparse PartEntry := []
  deriving DecidableEq, Repr

/-- What reading one index copy gives (R115): nothing there, or a copy's image with what the decoder and the vault found of it:
its data set decoded without an uncorrectable error, the chain verifies to the Nelras root, and the instance ID in its first
certificate. -/
inductive CopyRead
  | absent
  | copy (image : List Byte) (decodes chainOk : Bool) (certId : Word)
  deriving DecidableEq, Repr

/-- A DATA data set found beyond the end of data by the tail scan (R591). -/
structure TailDs where
  dsn  : Nat
  lrnStart : Nat
  marks : Nat
  wrap : Nat
  pos  : Nat
  wgen : BitVec 64 := 0
  half : Bool := false
  decodes : Bool := true
  deriving DecidableEq, Repr

/-- What one wrap's first position gives to a recovery scan (R592): blank, or a header. -/
structure RecoveryWp where
  pair  : Fin 200
  pnum  : Byte
  half  : Bool
  owner : BitVec 64
  keyFp : BitVec 128
  deriving DecidableEq, Repr

/-- What the cartridge shows to LOAD (R589 to R592). Copy C's image stands in staging SRAM at TOP.IDXC: only what the vault
found of it is here. -/
structure LoadEnv where
  label  : Option (Nat × List Byte)      -- the half-band position whose label instance decoded, and its payload; none: unreadable
  copyA0 : CopyRead := .absent
  copyA1 : CopyRead := .absent
  copyB  : CopyRead := .absent
  copyC  : Option (Bool × Word) := none  -- present: its chain, and the certificate's instance ID
  granules : List (Fin 64 × Nat × Gran) := []    -- the granule entries that the data set headers give (R116, R592)
  tail   : List TailDs := []
  recovery : List RecoveryWp := []
  recoveryTails : List (Fin 64 × TailDs) := []
  deriving DecidableEq, Repr

/-- One channel's part of a slot: the differential voltage of its input in µV every 1/64 bit cell of its lane group's clock, from
152 bit cells before the slot's nominal start on (R75, R140, R143). The channel samples it once a bit cell. -/
structure ChanSlot where
  chan  : Fin 256
  volts : List Int := []
  deriving DecidableEq, Repr

/-- The queues between the lattice and the other domains (R286). -/
inductive LatQueue
  | sample (c : Fin 256)       -- samples of a data channel
  | clock (k : Fin 8)          -- samples of a clock channel
  | writeFeed (c : Fin 256)    -- bits
  | slotFeed (k : Fin 8)       -- bytes, basin to lattice and back
  | link (lane : Fin 16)       -- bytes
  | controlIn (i : Fin 4)      -- entries
  | controlOut (i : Fin 4)
  deriving DecidableEq, Repr

/-- What goes into a queue, or is taken out of it. -/
structure QueueFlow where
  q    : LatQueue
  take : Bool
  n    : Nat
  deriving DecidableEq, Repr

/-- What a tile's program does in a tick that others can see: a word sent on its local output in a cycle; bytes stored to its
data SRAM; the receive register read in a cycle; or a mailbox word read in a cycle, its producing tick at lattice cycle `since`. Programs are
Goroz's, in an encoding that is not published (R271). -/
inductive TileAct
  | send (t : Fin 320) (cycle : Nat) (word : BitVec 256)
  | store (t : Fin 320) (addr : Nat) (bytes : List Byte)
  | recvWord (t : Fin 320) (cycle : Nat)
  | mboxWord (t : Fin 320) (idx : Fin 128) (cycle since : Nat)
  deriving DecidableEq, Repr

/-- What the programs of a tick do: queue flows since the last tick, in order (R286), acts, and run-time faults, reasons 3 to 7 of R302. -/
structure ProgObs where
  flows : List QueueFlow := []
  acts  : List TileAct := []
  tileFaults : List (Fin 320 × Fin 5) := []
  deriving DecidableEq, Repr

/-- What one frame tick of a lane group brings (R275, R276). -/
structure TickObs where
  period : Nat := 9033         -- lattice cycles since the group's last tick
  chans : List ChanSlot := []
  prog  : ProgObs := {}
  deriving DecidableEq, Repr

/-- A servo frame record of one reader (R164): the bursts in the order in which they passed, each with the time of its first
stripe, a running count of 1/64 samples, and its stripe count; and the mean peak amplitude. -/
structure ServoRec where
  bursts : List (Nat × Nat)
  amp : Nat := 0
  deriving DecidableEq, Repr

/-- A block that a compressor chooses: how many bytes of content it holds and, where it is a compressed one, its bytes (R340). -/
inductive ZBlock
  | raw (n : Nat)
  | rle (n : Nat)
  | comp (n : Nat) (bytes : List Byte)
  deriving DecidableEq, Repr

def ZBlock.count : ZBlock → Nat
  | .raw n => n
  | .rle n => n
  | .comp n _ => n

/-- A tile table entry of a schedule image (R290). -/
structure TileEnt where
  role    : Byte := 0          -- 0 unused, 1 channel, 2 lane group, 3 codec, 4 control, 5 spare
  tickSrc : Byte := 0xFF
  unit    : BitVec 16 := 0
  code    : BitVec 16 := 0xFFFF
  route   : BitVec 16 := 0xFFFF
  init    : BitVec 16 := 0xFFFF
  len     : Word := 0
  deriving DecidableEq, Repr

/-- A route entry (R292). -/
structure RouteEnt where
  start : BitVec 20
  run   : BitVec 12
  out   : BitVec 3
  inp   : BitVec 3
  mbox  : Bool := false
  mbIdx : BitVec 7 := 0
  zero  : BitVec 18 := 0
  deriving DecidableEq, Repr

/-- A route section (R292): the owner domain of each output port, and the entries. -/
structure RouteSect where
  owner0 : Byte := 0xFF
  owner1 : Byte := 0xFF
  owner2 : Byte := 0xFF
  owner3 : Byte := 0xFF
  owner4 : Byte := 0xFF
  zero   : BitVec 56 := 0      -- its two reserved fields
  nentry : Word := 0
  ents   : List RouteEnt := []
  deriving DecidableEq, Repr

/-- A section table entry (R291), whether the CRC of its bytes holds, what a route section holds, and its
bytes. -/
structure SectEnt where
  offset : Word
  length : Word
  kind   : Byte                -- 1 code, 2 route, 3 initial data, 4 commutation
  crcOk  : Bool
  route  : RouteSect := {}
  bytes  : List Byte := []
  deriving DecidableEq, Repr

/-- A detour table entry with its patches: tile, and the section that replaces its route section (R293). -/
structure DetourEnt where
  failed  : BitVec 16
  spare   : BitVec 16
  patchOff : Nat := 0
  patches : List (BitVec 16 × BitVec 16) := []
  deriving DecidableEq, Repr

/-- A schedule image as the loader copied it (R288 to R293), whether its signature holds and its measurement (R295). `tiles` is the tile table in tile order; tiles past its end are unused. -/
structure SchedImage where
  copyOk   : Bool              -- no uncorrectable read while it was copied
  sigOk    : Bool
  meas     : BitVec 384
  magic    : Word              -- bytes of R289, the first lowest
  fmtVer   : BitVec 16
  latRev   : BitVec 16
  variant  : Byte
  keyId    : Byte
  flags    : BitVec 16 := 0
  imgLen   : Word
  sigOff   : Word
  imageId  : Word
  stateCompat : Word
  build    : Word := 0
  cf1Prof  : BitVec 16 := 1
  rdIter   : Byte
  vfyIter  : Byte
  speedCap : BitVec 16
  qtol     : BitVec 16
  lenMaxFrame : Word
  lenMaxTsv : Word
  lenMaxT25 : Word
  lenMaxT2k : Word
  delay0   : Word
  delay1   : Word
  delay2   : Word
  delay3   : Word
  delay4   : Word
  regenTicks : Byte
  verdictTicks : Byte
  exclude  : BitVec 320 := 0
  tileTabOff : Word
  secTabOff : Word
  detourOff : Word
  commut   : Word
  tiles    : List TileEnt
  sects    : List SectEnt
  detours  : List DetourEnt
  deriving DecidableEq, Repr

/-- A firmware image as read from its slot (R572): header fields, whether its signature holds, what it measures, its bytes. -/
structure FwImage where
  magic    : Word              -- bytes of R572, the first lowest
  version  : BitVec 16
  keyId    : Byte
  variants : BitVec 2
  imgLen   : Word
  sigOff   : Word
  fwVer    : BitVec 64
  svn      : Word
  entry    : Word
  sigOk    : Bool
  meas     : BitVec 384
  bytes    : List Byte := []
  deriving DecidableEq, Repr

/-- A crest image (R573): the eight words for GOV 0x100 to 0x11C, what it measures, and whether its signature holds. -/
structure CrestImage where
  magic   : Word
  version : BitVec 16
  keyId   : Byte
  sigOk   : Bool
  words   : List Word
  meas    : BitVec 384
  deriving DecidableEq, Repr

/-- An entry of the flash directory (R571). -/
structure DirEnt where
  type   : Byte
  flags  : Byte := 0
  offset : Nat
  length : Nat
  deriving DecidableEq, Repr

/-- A copy of the flash directory (R571), and whether its header CRC holds. -/
structure DirCopy where
  crcOk : Bool
  gen   : BitVec 64
  committed : Word             -- 0: slot A; 1: slot B
  ents  : List DirEnt := []
  deriving DecidableEq, Repr

/-- What the boot sequence meets (R576): its self-tests, whether the flash is discovered (R570), and the random NONCE of the
first probe challenge (R667). -/
structure BootEnv where
  romOk   : Bool
  flashOk : Bool
  challenge : List Byte := []
  deriving DecidableEq, Repr

/-- Random and signed parts of a quote (R494, R495): its identifier, the private half of its key pair, the signature and the
certificates. -/
structure QuoteObs where
  quoteId : BitVec 128
  priv    : Nat
  sig     : List Byte
  chain   : List Byte
  deriving DecidableEq, Repr

/-- What stands wrong in a word that is read: bits of an SECDED word with its check bits, or symbols of a basin chunk with the value each is
off by, and those of the same chunk in the metadata's other copy (R528, R529, R531). -/
inductive WordErrs
  | bits (n : Nat)
  | symbols (errs other : List (Fin 36 × Byte))
  deriving DecidableEq, Repr

/-- What a self-test measured: an ADC channel's offset in LSB and gain in thousandths of the reference, and whether an engine's lanes
reproduced their vector (R548). -/
structure SelfTest where
  offset : Int := 0
  gain   : Nat := 1000
  lane0  : Bool := true
  lane1  : Bool := true
  deriving DecidableEq, Repr

/-- Where a word of R545 lies, as far as its outcome depends on it. -/
inductive MemPlace
  | staging (addr : Nat)
  | tileData (t : Fin 320) (word : Nat)
  | tileInstr (t : Fin 320) (word : Nat) (standby : Bool)
  | tileRoute (t : Fin 320) (word : Nat) (standby : Bool)
  | coreMem (h : Fin 4) (addr : Nat) (dirtyLine : Bool)
  | engineBuffer (unit : BitVec 16) (word : Nat)
  | engineContext (p : Fin 64) (word : Nat)
  | basinTable (word : Nat)
  | queueTable (word : Nat)
  | zoneCache (word : Nat)
  | netBuffer (port : Fin 2) (word : Nat)
  | basin (slot : Fin 8192) (chunk : Nat) (channel : Fin 32) (zone : Bool)   -- a pseudo-channel of the slot's stack
  | mram (word : Nat)
  | evlog (word : Nat)
  | dump (word : Nat)
  | timeSlotBank
  | schedImage (standby : Bool) (word : Nat)   -- read for staging
  deriving DecidableEq, Repr

/-- Where an uncorrectable word of a software pass lies, as far as its outcome depends on it (R545). -/
inductive PassPlace
  | image (standby : Bool)
  | vault
  | journal (j : Fin 256)
  | floor (i : Fin 64)
  | chainHead (p : Fin 64)
  | keySlot (k : Fin 128)
  deriving DecidableEq, Repr

/-- What a software pass found (R537): words read, the words corrected, and the uncorrectable ones. -/
structure PassReport where
  read : Nat
  corrected : List Nat := []
  bad  : List (Nat × PassPlace) := []
  deriving DecidableEq, Repr

/-- A register write as it reaches the register interface (R602): byte offset, width and data. -/
structure RegAccess where
  offset : Nat                 -- into BAR0, VF BAR0, or from 0x4000_0000
  bytes  : Fin 9               -- 1, 2, 4 or 8
  aligned : Bool := true
  data   : BitVec 64
  more   : List Word := []     -- the words after the first 8 bytes of a longer PCIe request (R602)
  deriving DecidableEq, Repr

/-- A store of a control core that has not left its store buffer, or an AMO, LR or SC behind it (R448, R566). -/
structure CoreStore where
  addr  : Nat
  bytes : List Byte
  amo   : Bool := false
  deriving DecidableEq, Repr

/-- The control core that writes a register, and what its store buffer holds, oldest first (R448). -/
structure CoreWrite where
  hart   : Fin 4
  stores : List CoreStore := []
  deriving DecidableEq, Repr

/-- An allocation request to the pool manager (R353, R354). -/
structure BufReq where
  r     : Fin 100
  count : Nat
  owner : Byte
  spill : Bool
  deriving DecidableEq, Repr

/-- The result of a cipher pair on a group (R511). -/
structure EncObs where
  dataOk : Bool
  tagOk  : Bool
  deriving DecidableEq, Repr

/-- The result of a cipher pair on a body read back (R512). -/
structure DecObs where
  dataOk : Bool
  tagOk  : Bool
  deriving DecidableEq, Repr

/-- One LMS delta (R153). -/
inductive LmsKind | gain | offset | asym
  deriving DecidableEq, Repr

/-- One command per row of spec/opcode_table.json, in the table's order. `h` is the handle of a
fetched host command (R491). -/
inductive Instr
  -- host commands
  | openPartition (h : Nat)
  | writeRecords (h : Nat)
  | readRecords (h : Nat)
  | writeMark (h : Nat)
  | sync (h : Nat)
  | locate (h : Nat)
  | space (h : Nat) (marks : List Nat)
  | reportPosition (h : Nat) (marksBelow : Nat)
  | keyImport (h : Nat)
  | attest (h : Nat)
  | getMeter (h : Nat)
  | abort (h : Nat)
  -- admin commands
  | load (h : Nat) (env : LoadEnv)
  | unload (h : Nat)
  | partitionCreate (h : Nat)
  | partitionDelete (h : Nat)
  | polderConfig (h : Nat)
  | fwDownload (h : Nat) (image : List Byte)
  | fwActivate (h : Nat)
  | schedSelect (h : Nat)
  | getLog (h : Nat)
  | setTime (h : Nat)
  -- queues and doorbells
  | sqTailDoorbell (f : Fin 64) (q : Fin 16) (v : Word) (core : Option CoreWrite)
  | cqHeadDoorbell (f : Fin 64) (q : Fin 16) (v : Word)
  | queueCreate (f : Fin 64) (qid : Fin 16)
  | queueDelete (f : Fin 64) (qid : Fin 16)
  | qopDone (f : Fin 64) (qid : Fin 16)
  | serviceSlot (fetch : Option Fetch) (words : Nat)
  | interruptAggregationTimeout (f : Fin 64) (q : Fin 16)
  -- PCIe events
  | flr (f : Fin 64)
  | perstN
  | linkDown
  | linkUp (speed : BitVec 3) (width : BitVec 5)
  | vfEnableClear
  | vfEnableSet (numVFs : BitVec 6)
  | pcieCompletion (n : Fin 16) (res : CplResult)
  | cplTimeout (n : Fin 16)
  -- network
  | commandCapsule (qp : Fin 1024) (cap : Capsule)
  | rdmaReadResponse (qp : Fin 1024) (psn : BitVec 24) (data : List Byte)
  | acknowledge (qp : Fin 1024) (kind : AckKind) (psn : BitVec 24)
  | ackTimeout (qp : Fin 1024)
  | cnpReceived (qp : Fin 1024)
  | rateIncreaseTimer (qp : Fin 1024)
  | frameReceived (port : Fin 2) (fr : Frame)
  | pfcReceived (port : Fin 2) (pause : Bool)
  | completionCapsuleTimeout (qp : Fin 1024)
  | portLinkUp (port : Fin 2)
  | portLinkDown (port : Fin 2)
  | linkholdExpiry (port : Fin 2)
  | qpCreate (r : Requester) (qp : Fin 1024)
  | qpDestroy (r : Requester) (qp : Fin 1024)
  | qpFree (r : Requester) (qp : Fin 1024)
  -- DMA
  | dmaGo (n : Fin 16) (hostDesc : List Byte) (core : Option CoreWrite)
  | dmaStop (n : Fin 16)
  | dmaBurst (n : Fin 16) (tlp : Fin 6) (waited : Bool)
  | descriptorDone (n : Fin 16) (hostDesc : List Byte)
  | ringFlushTimeout (n : Fin 16)
  | rdptrWrite (n : Fin 16) (v : Word)
  | sluiceWrite (n : Fin 16) (v : Word)
  | windowWrite (r : Requester) (f : Fin 64) (k : Fin 32) (v c : Word)
  -- record intake, engines, pools
  | intakeWord (p : Fin 64) (tag : BitVec 3) (data : BitVec 64) (parity : Byte) (nb : BitVec 3)
  | producerStallRelease (p : Fin 64)
  | idle (p : Fin 64)
  | flush (p : Fin 64)
  | markExpired (p : Fin 64)
  | compressDone (i : Fin 32) (blocks : List ZBlock)
  | encryptDone (i : Fin 12) (res : EncObs)
  | groupPlace (p : Fin 64)
  | decryptDone (i : Fin 12) (h : Nat) (res : DecObs)
  | decompressDone (i : Fin 32) (h : Nat)
  | bufferAllocate (reqs : List BufReq)
  | bufferFree (r : Fin 100) (handle : Word)
  | pshareWrite (p : Fin 64) (v : Word)
  | quotaWrite (p : Fin 64) (v : Word)
  -- track side
  | wrapPlanPost (e : PlanEntry)
  | slotTick (k : Fin 8) (obs : TickObs)
  | dataSetBoundary
  | basinRestart
  | readResume
  | verifyVerdict (pos : Nat) (c : Fin 256) (slot : Fin 68)
  | dataSetDecode (dsn : BitVec 29)
  | syncLost (c : Fin 256)
  | wskewTrim (c : Fin 256)
  | lmsDeltaStep (c : Fin 256) (kind : LmsKind)
  -- lane groups
  | clockPositionWord (k : Fin 8) (w : Word) (periods : Nat)
  | phaseLock (k : Fin 8) (step : Int)
  | acqTimeout (k : Fin 8)
  | holdEnter (k : Fin 8)
  | holdExpire (k : Fin 8)
  | skewMeasurement (k : Fin 8) (lo hi : Int)
  | forceSrcWrite (k : Fin 8) (v : Word)
  -- servo, write gate, motion
  | servoRecord (upper lower leadUpper leadLower : Option ServoRec) (period : Nat := 9302) (prog : ProgObs := {})
  | lockLost
  | winhRelease
  | shock
  | shockNRise
  | shockHoldExpiry
  | t25Tick (aux : List (BitVec 16)) (prog : ProgObs := {})
  | t2kTick (prog : ProgObs := {})
  | feTrip (n : Fin 5)
  | turnCoastExpiry
  | wrapEnd
  | revDwellExpiry
  | moveGo
  | moveAbort
  | moveDone
  | bankSwap (n : Fin 5) (v : Word)
  | trimWrite (n : Fin 5) (reg : Fin 16) (v : Word)
  | speedPolicyWrite (fill : Bool) (v : Word)
  | wforceWrite (v : Word)
  | stop
  | crestBreach (causes : BitVec 5)
  | govRest
  | passiveBrake
  | motorUvN
  | passiveRest
  | govRelease (v c : Word)
  -- trace
  | traceArm (b : Fin 4)
  | traceDisarm (b : Fin 4)
  | traceFire (b : Fin 4)
  | traceCaptureEnd (b : Fin 4)
  -- lattice and schedules
  | latFence (v : Word)
  | tileOverrun (t : Fin 320)
  | detourActive
  | regenerationDone (dsn : Nat)
  | schedLoadGo (v : Word)
  | schedLoadCancel
  | loadDone (copyOk : Bool)
  | schedSwitchGo
  | imageSwitch
  -- vault
  | reqAttest (obs : QuoteObs)
  | reqKeyImport
  | reqPartErase
  | reqSetTime
  | reqUnloadNotice
  | quoteKeyExpiry (quoteId : BitVec 128)
  | checkpointDurable (keyFp : BitVec 128) (readBack : Bool)
  | minuteClosed
  | tsdataWrite (r : Requester) (v : Word)
  | tsSwap (r : Requester)
  | tsSwapped
  -- integrity
  | scrubRead (place : MemPlace) (errs : WordErrs)
  | repeatDecay (i : Fin 64)
  | spareRowRemap (bank : Nat) (row : Nat)
  | tileReload (t : Fin 320)
  | areaReload
  | pscrubGo
  | pscrubAbort
  | pscrubDone (rep : PassReport)
  | paritySweep (bad : List Nat)
  | fence (r : Requester) (v : Word)
  | unfence (r : Requester) (v c : Word)
  | selfTestDone (unit : BitVec 16) (t : SelfTest)
  | fenFatal (v : Word)
  | dumpGo
  | dumpClear
  | dumpWaitExpiry
  | dumpDone
  -- boot, reset, firmware
  | powerOnReset
  | sysrstNRise (env : BootEnv)
  | wdkick (v : Word)
  | watchdogWarning
  | wdog
  | coreRestart
  | recordSideRestart
  | fwready
  | flashRead
  | flashProgram
  | flashErase
  | flashDone
  | fwcommit (slotB : Bool)
  | lctrans (v : Word)
  | pfw
  | mramQuiescent
  | mtimer (h : Fin 4)
  | msipWrite (h : Fin 4) (v : Word)
  -- head write link, probe, JTAG
  | linkFault
  | align
  | time (lane : Fin 16) (tstamp : Word) (period : BitVec 24)
  | unlock (v c : Word) (nonce : List Byte)
  | bypass
  | idcode
  | samplePreload
  | extest
  | clamp
  | highz
  -- register access
  | ctlEnSet (page : Nat)
  | ctlEnClear (page : Nat) (nonce : List Byte)
  | evack (page : Nat) (v : Word)
  | snap (page : Nat)
  | cntclr (page : Nat)
  | registerWrite (r : Requester) (a : RegAccess)
  | xdomTimeout (r : Requester) (k : Fin 8) (write : Bool)
  -- later rows
  | resetDone (f : Fin 64)
  | activateBusy
  | rnrRetry (qp : Fin 1024)
  | supplyLoss
  deriving DecidableEq, Repr

end Sys2Proof
end

