-- ==== Sys2Proof/Config.lean ====
section
/-! DEFINITION. What the spec leaves open and the machine still produces: free values, with no body. -/

namespace Sys2Proof

/-- The free value number `n`: a value the spec calls undefined or does not state (log 3).
Nothing can be proved of it but that it is a number; a use narrows it to the width it needs. -/
opaque Config.freeValue : Nat → Nat

/-- What a status register shows where the spec gives its field no meaning: by the register's key and what it
depends on (log 52). -/
opaque Config.freeView : Nat → Nat → Nat

/-- Nelras's public keys in SEC1 form: the manufacturing key, and the schedule key (R289, R572, log 107). -/
opaque Config.nelrasKey : Nat → List Byte

/-- Size, in LSB, of the detector's target response to one recorded bit: R157 gives the target's shape only (log 90). -/
opaque Config.targetLevel : Nat

/-- The certificates of an index image's chain, the device's own first: its bytes are the factory's (R106, log 92). -/
opaque Config.deviceChain : List Byte

/-- A scrambler's state before the blocks sent in turn `n`: the seed and the IDLE blocks between are open (R655, R657, log 103). -/
opaque Config.scramblerState : Nat → BitVec 58

/-- ATIME of a control word that takes effect at a boundary: the boundary's TCNT, which is a matter of timing (R660, log 103). -/
opaque Config.cwTime : Nat → BitVec 24

/-- A probe signal whose member number R665 does not give (log 104). -/
opaque Config.probeSignal : Nat → Nat → Bool

end Sys2Proof
end

