-- ==== Sys2Proof/Machine/Sparse.lean ====
section
/-! DEFINITION. Sparse tables: reading, writing and the canonical form. A table lists rising keys, and
never a value equal to what an unlisted key reads as, so that equal tables are equal lists. -/

namespace Sys2Proof

/-- Read key `k`; `d` is what an unlisted key reads as. -/
def sget {α : Type} (d : α) : Sparse α → Nat → α
  | [], _ => d
  | (j, v) :: r, k => if k = j then v else if k < j then d else sget d r k

/-- Write key `k`; writing `d` removes the entry. -/
def sset {α : Type} [DecidableEq α] (d : α) : Sparse α → Nat → α → Sparse α
  | [], k, v => if v = d then [] else [(k, v)]
  | (j, w) :: r, k, v =>
    if k < j then (if v = d then (j, w) :: r else (k, v) :: (j, w) :: r)
    else if k = j then (if v = d then r else (k, v) :: r)
    else (j, w) :: sset d r k v

/-- Change the value at key `k`. -/
def smod {α : Type} [DecidableEq α] (d : α) (m : Sparse α) (k : Nat) (f : α → α) : Sparse α :=
  sset d m k (f (sget d m k))

/-- Every key of a table lies above `b`. -/
def sabove {α : Type} (b : Nat) : Sparse α → Bool
  | [] => true
  | (j, _) :: r => decide (b < j) && sabove b r

/-- The canonical form: keys rise strictly, and no value equals what its key reads as when unlisted. -/
def swf {α : Type} [DecidableEq α] (d : Nat → α) : Sparse α → Bool
  | [] => true
  | (j, v) :: r => decide (v ≠ d j) && sabove j r && swf d r

/-- Put an element into an ordered list, after those it does not come before. -/
def insertBy {α : Type} (le : α → α → Bool) (x : α) : List α → List α
  | [] => [x]
  | y :: r => if le x y then x :: y :: r else y :: insertBy le x r

/-- Sort a list; elements of one rank keep their order. -/
def isort {α : Type} (le : α → α → Bool) : List α → List α
  | [] => []
  | x :: r => insertBy le x (isort le r)

/-- `n` bytes from address `a`. -/
def readBytes (d : Byte) (m : Sparse Byte) (a : Nat) : Nat → List Byte
  | 0 => []
  | n + 1 => sget d m a :: readBytes d m (a + 1) n

/-- `n` bytes from address `a` of a table that lists none below `a`. -/
def takeCells (d : Byte) : Nat → Nat → Sparse Byte → List Byte
  | 0, _, _ => []
  | n + 1, a, [] => d :: takeCells d n (a + 1) []
  | n + 1, a, x :: xs => if x.1 = a then x.2 :: takeCells d n (a + 1) xs else d :: takeCells d n (a + 1) (x :: xs)

/-- `n` bytes from address `a`, in one walk along the table. -/
def readRange (d : Byte) (m : Sparse Byte) (a n : Nat) : List Byte := takeCells d n a (m.dropWhile (fun x => decide (x.1 < a)))

/-- Store bytes from address `a` upward. -/
def writeBytes (d : Byte) (m : Sparse Byte) (a : Nat) : List Byte → Sparse Byte
  | [] => m
  | b :: bs => writeBytes d (sset d m a b) (a + 1) bs

/-- The table of bytes that stand from address `a` upward, where an unlisted one reads 0. -/
def listCells (a : Nat) : List Byte → Sparse Byte
  | [] => []
  | b :: bs => if b = 0 then listCells (a + 1) bs else (a, b) :: listCells (a + 1) bs

/-- A little-endian number (R16). -/
def leNat : List Byte → Nat
  | [] => 0
  | b :: bs => b.toNat + 256 * leNat bs

/-- A big-endian number (R13). -/
def beNat (bs : List Byte) : Nat := leNat bs.reverse

/-- `n` bytes of a number, least significant first (R16). -/
def leBytes (v : Nat) : Nat → List Byte
  | 0 => []
  | n + 1 => BitVec.ofNat 8 v :: leBytes (v / 256) n

/-- `n` bytes of a number, most significant first (R13). -/
def beBytes (v n : Nat) : List Byte := (leBytes v n).reverse

/-- Bits [hi:lo] of a word, as a number (R12). -/
def bits {w : Nat} (x : BitVec w) (hi lo : Nat) : Nat := (x.toNat >>> lo) % 2 ^ (hi + 1 - lo)

/-- Bit `i` of a word. -/
def bit {w : Nat} (x : BitVec w) (i : Nat) : Bool := x.getLsbD i

/-- A field of `w` bits read as a two's complement number. -/
def sgn (w n : Nat) : Int := if n % 2 ^ w < 2 ^ (w - 1) then (n % 2 ^ w : Nat) else (n % 2 ^ w : Nat) - (2 ^ w : Nat)

/-- Clamp a number between two bounds. -/
def clampInt (lo hi x : Int) : Int := if x < lo then lo else if hi < x then hi else x

/-- Apply `f` along a list of numbers. -/
def foldNat {σ α : Type} (f : σ → α → σ) : σ → List α → σ
  | s, [] => s
  | s, a :: r => foldNat f (f s a) r

/-- Floor of a quotient, the divisor being positive. -/
def floorDiv (a b : Int) : Int := a / b

/-- A 1 or a 0. -/
def b2n (b : Bool) : Nat := if b then 1 else 0

end Sys2Proof
end

