-- ==== Sys2Proof/Machine/Codes.lean ====
section
/-! DEFINITION. Codes and checks the spec defines by arithmetic: CRC-32C, CRC-16 of the slot header, the
clock-word check, Galois fields, the erasure codes' bounds, and the randomiser. -/

namespace Sys2Proof

/-- One bit step of CRC-32C (RFC 3720), reflected. -/
def crc32cBit (c : Nat) : Nat := if c % 2 = 1 then (c / 2) ^^^ 0x82F63B78 else c / 2

def iter {α : Type} (f : α → α) : Nat → α → α
  | 0, a => a
  | n + 1, a => iter f n (f a)

def crc32cByte (c : Nat) (b : Byte) : Nat := iter crc32cBit 8 (c ^^^ b.toNat)

/-- `f x`, the number `x` computed first: Lean's kernel then keeps no unfinished sum along a long string. -/
def atNumber {α : Type} (x : Nat) (f : Nat → α) : α :=
  match x with
  | 0 => f 0
  | n + 1 => f (n + 1)

def crc32cFrom : List Byte → Nat → Nat
  | [], c => c
  | b :: bs, c => atNumber (crc32cByte c b) (crc32cFrom bs)

/-- CRC-32C of a byte string (R92, R339, R351, R555). -/
def crc32c (bs : List Byte) : BitVec 32 := ~~~ BitVec.ofNat 32 (crc32cFrom bs 0xFFFFFFFF)

/-! ### Checks of the tape's own words -/

/-- One step of a CRC register of `n` bits, top bit first. -/
def crcStep (n poly reg : Nat) (b : Bool) : Nat :=
  let top := decide (2 ^ (n - 1) ≤ reg % 2 ^ n)
  let r := 2 * reg % 2 ^ n
  if top != b then r ^^^ poly else r

/-- The bits of a number, most significant first. -/
def msbBits (v : Nat) : Nat → List Bool
  | 0 => []
  | n + 1 => v.testBit n :: msbBits v n

/-- CHK of a clock position word from its bits [31:3] (R63). -/
def clockChk (w : Word) : Nat := (msbBits (w.toNat / 8) 29).foldl (crcStep 3 3) 0
def clockOk (w : Word) : Bool := clockChk w = w.toNat % 8

/-- CRC of a slot header over its bits [63:16] (R79). -/
def headerCrc (h : Nat) : Nat := (msbBits (h / 2 ^ 16) 48).foldl (crcStep 16 0x1021) 0xFFFF

/-! ### The randomiser (R86) -/

def randSeed (dsn chan : Nat) : Nat :=
  let s := (dsn % 2 ^ 23 * 256 + chan) ^^^ 0x2D4B6A5C
  if s = 0 then 1 else s

/-- One step: the keystream bit and the next register. -/
def randStep (s : Nat) : Bool × Nat :=
  (s.testBit 30, (2 * s + b2n (s.testBit 30 != s.testBit 27)) % 2 ^ 31)

/-- Randomise, or restore, the bits of a channel's rows 0 to 55. -/
def randomise (s : Nat) : List Bool → List Bool
  | [] => []
  | b :: r => (b != (randStep s).1) :: randomise (randStep s).2 r

/-! ### Fields (R174, R175) -/

/-- The eight steps of a product in GF(2^8). -/
def gf8Go : Nat → Nat → Nat → Nat
  | 0, _, _ => 0
  | f + 1, x, b =>
    let x2 := if 128 ≤ x then (2 * x) ^^^ 0x11D else 2 * x
    (if b % 2 = 1 then x else 0) ^^^ gf8Go f x2 (b / 2)

def gf8Mul (a b : Nat) : Nat := gf8Go 8 a b

def gf8Pow (a : Nat) : Nat → Nat
  | 0 => 1
  | n + 1 => gf8Mul a (gf8Pow a n)

def gf16Mul (a b : Nat) : Nat :=
  let (a1, a0, b1, b0) := (a / 256, a % 256, b / 256, b % 256)
  (gf8Mul a1 b1 ^^^ gf8Mul a1 b0 ^^^ gf8Mul a0 b1) * 256 + (gf8Mul a0 b0 ^^^ gf8Mul 0x20 (gf8Mul a1 b1))

def gf16Pow (a : Nat) : Nat → Nat
  | 0 => 1
  | n + 1 => gf16Mul a (gf16Pow a n)

/-! ### C2, C3 and SUPP (R180 to R182), coefficients from the highest power down -/

/-- Multiply by (x + r). -/
def polyRoot (mul : Nat → Nat → Nat) (p : List Nat) (r : Nat) : List Nat :=
  List.zipWith (· ^^^ ·) (p ++ [0]) (0 :: p.map (mul r))

def gen2 : List Nat := (List.range 8).foldl (fun g i => polyRoot gf8Mul g (gf8Pow 2 i)) [1]
def gen3 : List Nat := (List.range 16).foldl (fun g i => polyRoot gf16Mul g (gf16Pow 0x0100 i)) [1]

/-- Shift one coefficient into a remainder modulo a monic generator. -/
def remStep (mul : Nat → Nat → Nat) (g : List Nat) (r : List Nat) (u : Nat) : List Nat :=
  List.zipWith (· ^^^ ·) (r.drop 1 ++ [0]) ((g.drop 1).map (mul (r.headD 0 ^^^ u)))

/-- Parity of the information coefficients: their polynomial, shifted past the parity, modulo the generator. -/
def c2Parity (info : List Nat) : List Nat := info.foldl (remStep gf8Mul gen2) (List.replicate 8 0)
def c3Parity (info : List Nat) : List Nat := info.foldl (remStep gf16Mul gen3) (List.replicate 16 0)

/-- Value of the C2 word at α^e: the SUPP byte of slot 64 + m is at e = 8 + m (R182). -/
def c2At (word : List Nat) (e : Nat) : Nat := word.foldl (fun acc b => gf8Mul acc (gf8Pow 2 e) ^^^ b) 0

/-! ### Basin chunks (R529, R530): symbol i is the coefficient of x^(35−i) -/

/-- The generator of the shortened RS(36,32) code (R529). -/
def gen4 : List Nat := (List.range 4).foldl (fun g i => polyRoot gf8Mul g (gf8Pow 2 i)) [1]

/-- The symbol that data lane i of a burst carries: `lane b` is its bit in beat b, beat 0 in bit 7 (R529). -/
def laneSymbol (lane : Nat → Bool) : Nat := (List.range 8).foldl (fun acc b => 2 * acc + (if lane b then 1 else 0)) 0

/-- The 36 symbols of a chunk whose data lanes carry the bits of `burst`: the check symbols 32 to 35 travel on the ECC lanes (R529). -/
def chunkEncode (burst : Nat → Nat → Bool) : List Nat :=
  let data := (List.range 32).map (fun i => laneSymbol (burst i))
  data ++ data.foldl (remStep gf8Mul gen4) (List.replicate 4 0)

/-- What the read of a protected word delivers (R528, R530). -/
inductive EccOutcome
  | clean
  | corrected (symbol : Fin 36)     -- the symbol, for the basin; ignored for SECDED
  | uncorrectable
  deriving DecidableEq, Repr

/-- The four syndromes of a chunk whose symbols are off by `errs`. -/
def chunkSyn (errs : List (Fin 36 × Byte)) : List Nat :=
  (List.range 4).map (fun j => errs.foldl (fun a x => a ^^^ gf8Mul x.2.toNat (gf8Pow (gf8Pow 2 (35 - x.1.val)) j)) 0)

/-- The one symbol whose error alone gives these syndromes. -/
def oneError (syn : List Nat) : Option (Fin 36) :=
  if syn.headD 0 = 0 then none else
  (List.finRange 36).find? (fun i => decide ((syn.dropLast.map (gf8Mul (gf8Pow 2 (35 - i.val)))) = syn.drop 1))

/-- Syndromes with the part of an erased symbol taken out (R533). -/
def eraseSyn (m : Fin 36) (syn : List Nat) : List Nat :=
  List.zipWith (fun a b => a ^^^ gf8Mul (gf8Pow 2 (35 - m.val)) b) (syn.drop 1) syn

/-- The basin decoder: one symbol in error is corrected, together with a marked one; two or three are not (R530). -/
def chunkDecode (mark : Option (Fin 36)) (errs : List (Fin 36 × Byte)) : EccOutcome :=
  let syn := chunkSyn errs
  if syn.all (· = 0) then .clean else
  match mark with
  | none => match oneError syn with | some i => .corrected i | none => .uncorrectable
  | some m =>
    let t := eraseSyn m syn
    if t.all (· = 0) then .corrected m
    else match oneError t with | some i => .corrected i | none => .uncorrectable

/-- SECDED: one wrong bit is corrected, two are detected (R528). Of more the spec states nothing: `free` chooses (log 109). -/
def secded (free n : Nat) : EccOutcome :=
  match n with
  | 0 => .clean
  | 1 => .corrected 0
  | 2 => .uncorrectable
  | _ => if free % 3 = 0 then .clean else if free % 3 = 1 then .corrected 0 else .uncorrectable

/-- C2 and C3 correct `errs` errors and `eras` erasures with `syn` syndromes (R181, R182). -/
def rsCorrects (syn errs eras : Nat) : Bool := 2 * errs + eras ≤ syn

/-! ### C1 (R176 to R179, R184 to R187) -/

/-- The base matrix of R178: the shift of each block row at block column `j`; none where the block is zero. -/
def c1Rows : List (List Nat) :=
  [[5, 42, 79, 116, 25, 62, 99, 8, 45, 82, 119, 28, 65, 102, 11, 48, 85, 122, 31, 68, 105, 14, 51, 88, 125, 34, 71, 0],
   [27, 101, 47, 121, 67, 13, 87, 33, 107, 53, 127, 73, 19, 93, 39, 113, 59, 5, 79, 25, 99, 45, 119, 65, 11, 85, 31, 64, 0],
   [65, 85, 105, 125, 17, 37, 57, 77, 97, 117, 9, 29, 49, 69, 89, 109, 1, 21, 41, 61, 81, 101, 121, 13, 33, 53, 73, 32, 96, 0]]

/-- Bits of check `r` of block row `i`. -/
def c1Check (i r : Nat) : List Nat :=
  ((c1Rows[i]?).getD []).zipIdx.map (fun x => 128 * x.2 + (r + x.1) % 128)

/-- A word satisfies every check (R177). -/
def c1Ok (c : Nat → Bool) : Bool :=
  (List.range 3).all (fun i => (List.range 128).all (fun r => ((c1Check i r).filter c).length % 2 = 0))

/-- Parity bits of 3,456 information bits (R179). -/
def c1Parity (c : Nat → Bool) : List Bool :=
  let odd := fun (i r : Nat) => ((((c1Check i r).take 27).filter c).length % 2 == 1)
  let p0 := (List.range 128).map (odd 0)
  let g := fun (p : List Bool) (k : Nat) => (p[k % 128]?).getD false
  let p1 := (List.range 128).map (fun r => odd 1 r != g p0 (r + 64))
  let p2 := (List.range 128).map (fun r => (odd 2 r != g p0 (r + 32)) != g p1 (r + 96))
  p0 ++ p1 ++ p2

/-- A decoder's values: APP by bit, and messages by check and place in it. -/
structure C1State where
  app : Sparse Int := []
  msg : Sparse Int := []
  deriving DecidableEq, Repr

/-- One check of the layered min-sum decoder (R184). -/
def c1Update (i r : Nat) (d : C1State) : C1State :=
  let ns := (c1Check i r).zipIdx
  let key := fun (j : Nat) => 4096 * (128 * i + r) + j
  let v := ns.map (fun x => (x.1, x.2, sget 0 d.app x.1 - sget 0 d.msg (key x.2)))
  v.foldl (fun d x =>
    let rest := v.filter (fun y => y.2.1 ≠ x.2.1)
    let m := min ((rest.foldl (fun m y => min m y.2.2.natAbs) 1000) - 1) 31
    let neg := (rest.filter (fun y => y.2.2 < 0)).length % 2 = 1
    let msg : Int := if neg then -(m : Int) else m
    { app := sset 0 d.app x.1 (clampInt (-127) 127 (x.2.2 + msg)), msg := sset 0 d.msg (key x.2.1) msg }) d

/-- The hard decision is 0 for an APP of 0 or more (R185). -/
def c1Hard (d : C1State) : Nat → Bool := fun n => sget 0 d.app n < 0

/-- Iterate at most `n` times: the converged values, or none (R184, R185). -/
def c1Decode : Nat → C1State → Option C1State
  | 0, d => if c1Ok (c1Hard d) then some d else none
  | n + 1, d => if c1Ok (c1Hard d) then some d
    else c1Decode n ((List.range 384).foldl (fun d k => c1Update (k / 128) (k % 128) d) d)

/-- The margin of a converged codeword (R187). -/
def c1Margin (d : C1State) : Nat := (List.range 3840).foldl (fun m n => min m (sget 0 d.app n).natAbs) 127

/-! ### Reed–Solomon decoding (R181, R182, R211) -/

/-- A Galois field's product, and its number of elements less two: the exponent of the inverse. -/
structure Gf where
  mul : Nat → Nat → Nat
  top : Nat

def gf8 : Gf := ⟨gf8Mul, 254⟩
def gf16 : Gf := ⟨gf16Mul, 65534⟩

/-- A power, by squaring: the exponent's bits from the most significant. -/
def Gf.pow (g : Gf) (a n : Nat) : Nat :=
  (msbBits n 16).foldl (fun acc b => if b then g.mul (g.mul acc acc) a else g.mul acc acc) 1
def Gf.inv (g : Gf) (a : Nat) : Nat := g.pow a g.top

/-! Polynomials as coefficients, the constant first. -/

def Gf.eval (g : Gf) (p : List Nat) (x : Nat) : Nat := p.foldr (fun c acc => c ^^^ g.mul acc x) 0
def coef (p : List Nat) (i : Nat) : Nat := (p[i]?).getD 0
/-- The first `n` coefficients of a product. -/
def Gf.prod (g : Gf) (n : Nat) (p q : List Nat) : List Nat :=
  (List.range n).map (fun i => (List.range (i + 1)).foldl (fun acc j => acc ^^^ g.mul (coef p j) (coef q (i - j))) 0)
def polyAdd (n : Nat) (p q : List Nat) : List Nat := (List.range n).map (fun i => coef p i ^^^ coef q i)
/-- Degree, 0 for a constant. -/
def polyDeg (p : List Nat) : Nat := (p.zipIdx.filter (fun x => x.1 ≠ 0)).foldl (fun d x => max d x.2) 0

/-- One step of the shortest recurrence of a sequence: locator, the one before its last growth, its length, the steps since, and
the discrepancy then. -/
def Gf.massey (g : Gf) (seq : List Nat) (n : Nat) (st : List Nat × List Nat × Nat × Nat × Nat) : List Nat × List Nat × Nat × Nat × Nat :=
  let (c, b, l, m, db) := st
  let d := (List.range (l + 1)).foldl (fun acc i => acc ^^^ g.mul (coef c i) (coef seq (n - i))) 0
  if d = 0 then (c, b, l, m + 1, db) else
  let k := g.mul d (g.inv db)
  let c' := polyAdd (seq.length + 1) c (List.replicate m 0 ++ b.map (g.mul k))
  if 2 * l ≤ n then (c', c, n + 1 - l, 1, d) else (c', b, l, m + 1, db)

/-- Errors and erasures of a word, as positions and magnitudes: `loc` gives each position's locator, `syn` the syndromes from
the power 0 up, `eras` the erased positions. None where there are more errors than the syndromes allow, or the locator has
fewer roots than its degree (R211). -/
def Gf.decode (g : Gf) (loc syn eras : List Nat) : Option (List (Nat × Nat)) :=
  let t := syn.length
  let f := eras.length
  if t < f then none else if f = 0 ∧ syn.all (· = 0) then some [] else
  let gam := eras.foldl (fun p e => g.prod (t + 1) p [1, coef loc e]) [1]
  let tail := (g.prod t syn gam).drop f
  let (sig, _, l, _, _) := (List.range tail.length).foldl (fun st n => g.massey tail n st) ([1], [1], 0, 1, 1)
  if t < 2 * l + f ∨ l ≠ polyDeg sig then none else
  let lam := g.prod (t + 1) sig gam
  let om := g.prod t syn lam
  let der := (lam.drop 1).zipIdx.map (fun x => if x.2 % 2 = 0 then x.1 else 0)
  let at_ := (List.range loc.length).filter (fun i => g.eval lam (g.inv (coef loc i)) = 0)
  if at_.length ≠ polyDeg lam ∨ !eras.all (· ∈ at_) then none else
  some (at_.map (fun i =>
    let x := g.inv (coef loc i)
    (i, g.mul (coef loc i) (g.mul (g.eval om x) (g.inv (g.eval der x))))))

/-- Correct a word. -/
def fixWord (w : List Nat) (es : List (Nat × Nat)) : List Nat :=
  w.zipIdx.map (fun x => es.foldl (fun v e => if e.1 = x.2 then v ^^^ e.2 else v) x.1)

def loc2 : List Nat := (List.range 64).map (fun k => gf8.pow 2 (63 - k))
def loc3 : List Nat := (List.range 256).map (fun c => gf16.pow 0x0100 (255 - c))

/-- A C2 word of 64 bytes with the SUPP bytes of its channel's leading slots: 8 + lead syndromes (R182, R211). -/
def c2Decode (w supp eras : List Nat) : Option (List Nat) :=
  let syn := (List.range (8 + supp.length)).map (fun i => c2At w i ^^^ (if i < 8 then 0 else coef supp (i - 8)))
  (gf8.decode loc2 syn eras).map (fixWord w)

/-- A C3 word of 256 symbols (R181). -/
def c3Decode (w eras : List Nat) : Option (List Nat) :=
  let syn := (List.range 16).map (fun i => w.foldl (fun acc u => gf16.mul acc (gf16.pow 0x0100 i) ^^^ u) 0)
  (gf16.decode loc3 syn eras).map (fixWord w)

/-! ### Sample correction (R148): z in 2^-20, y in quarters -/

/-- The corrected sample in quarters, from the sample and the zone's gain, offset and asymmetry with their deltas. A tie of the
rounding goes up (DESIGN CHOICE, log 80). -/
def correctSample (x gain offs asym : Int) : Int :=
  let g := clampInt 0 1023 gain
  let o := clampInt (-128) 127 offs
  let a := clampInt (-128) 127 asym
  let c4 := 4 * x - o
  let z := c4 * 65536 * 4 - a * c4 * c4
  clampInt (-2048) 2047 ((z * g * 4 + 2 ^ 27) / 2 ^ 28)

end Sys2Proof
end

