-- ==== Sys2Proof/Machine/Curve.lean ====
section
/-! DEFINITION. The curve P-384 of the vault's quote keys (R494, R497), and ECDSA over it (R295, R572, R573, R579). -/

namespace Sys2Proof

abbrev p384 : Nat := 2 ^ 384 - 2 ^ 128 - 2 ^ 96 + 2 ^ 32 - 1
abbrev b384 : Nat := 0xb3312fa7e23ee7e4988e056be3f82d19181d9c6efe8141120314088f5013875ac656398d8a2ed19d2a85c8edd3ec2aef
/-- The order of the base point. -/
abbrev n384 : Nat := 0xffffffffffffffffffffffffffffffffffffffffffffffffc7634d81f4372ddf581a0db248b0a77aecec196accc52973

/-- A point, `none` at infinity. -/
abbrev Point : Type := Option (Nat × Nat)

def base384 : Point :=
  some (0xaa87ca22be8b05378eb1c71ef320ad746e1d3b628ba79b9859f741e082542a385502f25dbf55296c3a545e3872760ab7,
        0x3617de4a96262c6f5d9e98bf9292dc29f8f41dbd289a147ce9da3113b5f0b8c00a60b1ce1d7e819d7a431d7c90ea0e5f)

/-- A power modulo `m`; the first argument bounds the exponent's bits. -/
def powMod (m : Nat) : Nat → Nat → Nat → Nat
  | 0, _, _ => 1
  | f + 1, x, e =>
    let r := powMod m f (x * x % m) (e / 2)
    if e % 2 = 1 then r * x % m else r

/-- The inverse modulo a prime. -/
def invMod (m x : Nat) : Nat := powMod m 384 x (m - 2)
def subMod (x y : Nat) : Nat := (x + p384 - y) % p384

/-- A point in Jacobian coordinates: (x / z², y / z³), at infinity where z is 0. -/
structure Jac where
  x : Nat
  y : Nat
  z : Nat
  deriving DecidableEq, Repr

def Jac.zero : Jac := ⟨1, 1, 0⟩

def Jac.dbl (p : Jac) : Jac :=
  let d := p.z * p.z % p384
  let g := p.y * p.y % p384
  let b := p.x * g % p384
  let a := 3 * (subMod p.x d * (p.x + d)) % p384
  let x := subMod (a * a % p384) (8 * b % p384)
  ⟨x, subMod (a * subMod (4 * b % p384) x % p384) (8 * (g * g) % p384), 2 * p.y * p.z % p384⟩

def Jac.add (p q : Jac) : Jac :=
  if p.z = 0 then q else if q.z = 0 then p else
  let pz := p.z * p.z % p384
  let qz := q.z * q.z % p384
  let u := p.x * qz % p384
  let s := p.y * (q.z * qz % p384) % p384
  let h := subMod (q.x * pz % p384) u
  let r := subMod (q.y * (p.z * pz % p384) % p384) s
  if h = 0 then (if r = 0 then p.dbl else Jac.zero) else
  let hh := h * h % p384
  let hhh := h * hh % p384
  let v := u * hh % p384
  let x := subMod (subMod (r * r % p384) hhh) (2 * v % p384)
  ⟨x, subMod (r * subMod v x % p384) (s * hhh % p384), h * p.z * q.z % p384⟩

/-- A multiple of a point; the first argument bounds the factor's bits. -/
def Jac.mul : Nat → Nat → Jac → Jac
  | 0, _, _ => Jac.zero
  | f + 1, k, p =>
    if k = 0 then Jac.zero
    else
      let r := Jac.mul f (k / 2) p.dbl
      if k % 2 = 1 then r.add p else r

def Jac.ofPoint (p : Point) : Jac :=
  match p with
  | none => Jac.zero
  | some a => ⟨a.1, a.2, 1⟩

def Jac.toPoint (p : Jac) : Point :=
  if p.z = 0 then none else
  let i := invMod p384 p.z
  some (p.x * (i * i % p384) % p384, p.y * (i * i % p384 * i % p384) % p384)

/-- A multiple of a point. -/
def mulPoint (k : Nat) (p : Point) : Point := (Jac.mul 384 k (Jac.ofPoint p)).toPoint

/-- Uncompressed SEC1 form of a point. -/
def sec1 (p : Point) : List Byte :=
  match p with
  | none => List.replicate 97 0
  | some a => 4 :: (beBytes a.1 48 ++ beBytes a.2 48)

/-- The point that 97 bytes in that form spell, where it lies on the curve (row 9 of R499). -/
def readPoint (bs : List Byte) : Option (Nat × Nat) :=
  let x := beNat ((bs.drop 1).take 48)
  let y := beNat ((bs.drop 49).take 48)
  if bs.length = 97 ∧ bs.head? = some 4 ∧ x < p384 ∧ y < p384 ∧ y * y % p384 = (subMod (x * x % p384 * x) (3 * x % p384) + b384) % p384 then
    some (x, y) else none

/-- The x-coordinate of a private key's product with a point, 48 bytes (R497). -/
def ecdh (priv : Nat) (p : Nat × Nat) : List Byte :=
  match mulPoint priv (some p) with
  | none => List.replicate 48 0
  | some a => beBytes a.1 48

/-- A signature r, s (48 bytes each) under a key in SEC1 form holds for a digest: ECDSA on P-384. -/
def ecdsaOk (key digest sig : List Byte) : Bool :=
  match readPoint key with
  | none => false
  | some q =>
    let r := beNat (sig.take 48)
    let s := beNat ((sig.drop 48).take 48)
    if r = 0 ∨ n384 ≤ r ∨ s = 0 ∨ n384 ≤ s then false else
    let w := invMod n384 s
    let a := Jac.mul 384 (beNat digest * w % n384) (Jac.ofPoint base384)
    match (a.add (Jac.mul 384 (r * w % n384) (Jac.ofPoint (some q)))).toPoint with
    | none => false
    | some x => decide (x.1 % n384 = r)

end Sys2Proof
end

