-- ==== Sys2Proof/Machine/State.lean ====
section
/-! DEFINITION. The state of the block as plain data, what stops a step, and the state after reset.
Every field names the rule that gives it. Tables are sparse lists (Machine/Sparse.lean); a value a
table does not list is the default of its record, which is also its value at reset. -/

namespace Sys2Proof.Machine

/-- Reasons a command stops the machine. The spec's own faults are events, fences and halts, which
are next states; no meaning of this model raises one of these. -/
inductive Fault
  /-- Raised by no meaning: kept so that the type is not empty. Safe. -/
  | none_
  deriving DecidableEq, Repr

/-- Reasons a command has no meaning in this model. -/
inductive Refusal
  /-- Raised only by a dispatch arm whose row has no meaning yet. Safe. -/
  | notModelled (mnemonic : String)
  deriving DecidableEq, Repr

/-! ### Registers, events, clocks and pins -/

/-- Event bits of one page: PEND, SEQ and the stamp of each bit (R599, R611). -/
structure EvPage where
  pend   : BitVec 16 := 0
  seq    : BitVec 16 := 0
  stamps : Sparse (BitVec 16) := []
  deriving DecidableEq, Repr

/-- An entry of the event log (R558). -/
structure EvEntry where
  ctr   : BitVec 64
  page  : Nat
  bit   : Nat
  coalesced : Bool
  seq   : BitVec 16
  count : Nat
  deriving DecidableEq, Repr

/-- The register space (R598, R626): words, live counters, holding registers, events, and the
pending half of a guarded pair of each page (R616). Keys are 4096 × page + offset. -/
structure RegState where
  regs   : Sparse Word := []
  cnt    : Sparse Nat := []
  hold   : Sparse Nat := []
  ev     : Sparse EvPage := []
  evlog  : List EvEntry := []
  evOver : Nat := 0
  guard  : Sparse (Option (Nat × Word)) := []
  msix   : Sparse Word := []           -- the MSI-X tables, key 4096 × function + offset (R371, R372)
  w1     : Sparse Bool := []           -- W1 words written in this boot (R583)
  deriving DecidableEq, Repr

/-- Counters of time: the 500 MHz control counter (R280), mtime (R568), device time (R520), and the
model's own counter of free values (log 3). -/
structure Clocks where
  ctr500  : BitVec 64 := 0
  mtime   : BitVec 64 := 0
  devSec  : Nat := 0
  devUs   : Nat := 0
  timeSet : Bool := false
  free    : Nat := 0
  deriving DecidableEq, Repr

/-- Who drives the PWM outputs (R249, R251, R252, R641). -/
inductive PwmMode | off | loops | governor | passive
  deriving DecidableEq, Repr

/-- Pins (R633, R634, R641, R652). A `true` input is a high level. -/
structure Pins where
  shockN   : Bool := false
  pfwN     : Bool := true
  motorUvN : Bool := true
  hwlFltN  : Bool := true
  perstN   : Bool := false
  sysrstN  : Bool := false
  supplies : Bool := true
  winh     : Bool := true
  pwm      : PwmMode := .off
  dac0     : Int := 0                  -- u of R220; the voltage of R651 follows from it
  dac1     : Int := 0
  hwlIdle  : Bool := true
  prbLow   : Bool := true
  deriving DecidableEq, Repr

/-- The voltage of ACT_DAC[n] for a signed command (R651). -/
def dacVolts (u : Int) : Rat := 9 / 10 + u * 8 / 327680

/-- The voltages of ACT_DAC[0] and ACT_DAC[1]: mid-scale is 0.9 V (R641, R651). -/
def Pins.act (p : Pins) : Rat × Rat := (dacVolts p.dac0, dacVolts p.dac1)

/-! ### Host interface -/

/-- What a function's configuration space holds of R370, as the host has set it: sizes in bytes, the kinds of tag and routing enabled, error
reporting, and D3hot in place of D0. No command of the table writes it (log 101). -/
structure PcieCfg where
  maxPayload : Nat := 128              -- at most 512
  maxRead : Nat := 512                 -- at most 4,096
  extTags : Bool := true
  tags10  : Bool := false
  ari     : Bool := false
  aer     : Bool := false
  d3hot   : Bool := false
  deriving DecidableEq, Repr

/-- A polder's settings and its function's reset record (R372, R405, R415, R479). -/
structure PolderSt where
  enabled : Bool := false
  attach  : BitVec 2 := 0
  maxq    : Nat := 16
  tag     : BitVec 64 := 0
  turn    : Nat := 0
  rstAborts : Nat := 0
  rstPart : Option (Fin 64) := none
  rstEod  : Nat := 0
  noSnoop : Bool := true               -- Enable No Snoop of the function's Device Control register (R445, log 101)
  relaxed : Bool := true               -- Enable Relaxed Ordering of the same register (R437, log 101)
  cfg     : PcieCfg := {}
  deriving DecidableEq, Repr

/-- A queue pair (R376 to R384). -/
structure QPair where
  present : Bool := false
  sqBase : BitVec 64 := 0
  cqBase : BitVec 64 := 0
  sqN    : Nat := 0
  cqN    : Nat := 0
  iv     : Nat := 0
  ien    : Bool := false
  aggr   : Nat := 0
  aggt   : Nat := 0
  sqHead : Nat := 0
  sqTail : Nat := 0
  cqTail : Nat := 0
  cqHead : Nat := 0
  phase  : Bool := true
  halted : Bool := false
  unsig  : Nat := 0
  deleting : Bool := false
  deriving DecidableEq, Repr

/-- A fetched command that has not left the block (R385, R406, R491). `fin` is its status and
RESULT once decided and not yet posted; `silent` ends it without a completion entry (R378, R414). -/
structure Cmd where
  handle : Nat
  src    : Src
  polder : Fin 64
  e      : Sqe
  sgl    : List SglEntry := []
  lens   : List Word := []
  no     : Nat
  sqhd   : Nat := 0
  rkeyd  : Word := 0
  rkeyl  : Word := 0
  started : Bool := false
  silent : Bool := false
  usedVault : Bool := false
  fw     : Bool := false       -- a READ_RECORDS passed to firmware: it needs repositioning outside the wrap plan (R36)
  lrnA   : Nat := 0            -- a write: its first LRN
  lrnZ   : Nat := 0            -- a write: the LRN after its last record; a SYNC: EODLRN at its fetch
  ubEnd  : Nat := 0            -- a write: UBYTES of its partition once all its records are placed (R111)
  wrPsn  : Option (BitVec 24) := none  -- PSN of its last RDMA WRITE (R470)
  rdReq  : Nat := 0                    -- bytes of its buffer requested by RDMA READ (R465)
  fin    : Option (BitVec 16 × BitVec 64) := none
  deriving DecidableEq, Repr

/-- A partition opening of a queue (R398, R399). -/
structure Opening where
  src    : Src
  part   : Fin 64
  writer : Bool
  read   : Nat
  deriving DecidableEq, Repr

/-- An error log entry (R420). -/
structure ErrEntry where
  time : Nat
  sqid : Nat
  cid  : BitVec 16
  status : BitVec 16
  opc  : Byte
  part : Byte
  result : BitVec 64
  lrn  : BitVec 64
  deriving DecidableEq, Repr

/-- The host command interface over PCI Express (chapter 08). -/
structure HostSt where
  linkUp : Bool := false
  linkSpeed : BitVec 3 := 0
  linkWidth : BitVec 5 := 0
  vfEnable : Bool := false
  numVFs : BitVec 6 := 0
  pf0On  : Bool := false
  flr    : List (Fin 64) := []
  pol    : Sparse PolderSt := []
  pairs  : Sparse QPair := []          -- key 16 × function + pair
  cmds   : List Cmd := []              -- in fetch order
  nextHandle : Nat := 0
  opens  : List Opening := []
  errlog : Sparse (List ErrEntry) := []
  fetchStop : Bool := false
  fwHold : Bool := true
  activate : Option (Nat × FwImage) := none   -- the FW_ACTIVATE in progress and the image committed by it (R417)
  deferred : Sparse (Option (BitVec 16 × Nat)) := []   -- by partition: status and first lost LRN
  loadCopies : List (Option (List Byte)) := []  -- the images of copies A, B, C as read at the last LOAD (R420)
  deriving DecidableEq, Repr

/-! ### DMA, memories, network, time-slot table -/

/-- DMA channel state (STAT[1:0] of R450). -/
inductive ChanSt | idle | running | halted | stopped
  deriving DecidableEq, Repr

/-- A general DMA channel (chapter 09). -/
structure DmaChan where
  st     : ChanSt := .idle
  halt   : BitVec 4 := 0
  cur    : BitVec 64 := 0
  curSp  : BitVec 3 := 0
  src    : BitVec 64 := 0
  dst    : BitVec 64 := 0
  srcSp  : BitVec 3 := 0
  dstSp  : BitVec 3 := 0
  len    : Nat := 0
  next   : BitVec 64 := 0
  nextSp : BitVec 3 := 0
  last   : Bool := false
  irq    : Bool := false
  ring   : Bool := false
  taken  : Nat := 0
  done   : Nat := 0
  rdOut  : Option Nat := none          -- length of the PCIe read in flight
  descRd : Bool := false               -- it reads the descriptor
  failAddr : BitVec 64 := 0
  failSp : BitVec 3 := 0
  failWr : Bool := false
  wrptr  : Nat := 0
  partials : List Byte := []           -- stream bytes not yet written to the ring
  deriving DecidableEq, Repr

/-- The byte memories (R317, R29, R567, R554, R570). -/
structure Mems where
  staging : Sparse Byte := []
  coreMem : Sparse Byte := []
  sysRegion : Sparse Byte := []
  dump    : Sparse Byte := []
  mramFw  : Sparse Byte := []
  flash   : Sparse Byte := []
  deriving DecidableEq, Repr

/-- The headers of a packet that a port sends: addresses, VLAN tag, DSCP and ECN, UDP ports and remote QP (R454, R455, R471). -/
structure PktHead where
  dmac  : BitVec 48
  smac  : BitVec 48
  vlan  : Option (BitVec 16)
  dip   : BitVec 128
  sip   : BitVec 128
  dscp  : BitVec 6
  ecn   : BitVec 2
  sport : BitVec 16
  dport : BitVec 16
  dqpn  : BitVec 24
  deriving DecidableEq, Repr

/-- What a packet of a QP carries (R463 to R467, R471); a request stands for its packets, and a retransmission for all from its PSN on. -/
inductive Packet
  | capsule (qp : Fin 1024) (bytes : List Byte)
  | rdmaWrite (qp : Fin 1024) (rkey : Word) (addr : BitVec 64) (bytes : List Byte)
  | rdmaRead (qp : Fin 1024) (rkey : Word) (addr : BitVec 64) (len : Nat)
  | ack (qp : Fin 1024) (psn : BitVec 24)
  | nak (qp : Fin 1024) (kind : AckKind) (arg : Nat)
  | retransmit (qp : Fin 1024) (psn : BitVec 24)
  | cnp (qp : Fin 1024)
  deriving DecidableEq, Repr

/-- An Ethernet port (R454 to R456, R473, R475). -/
structure PortSt where
  linkUp : Bool := false
  neg    : Bool := false
  held   : Bool := false
  rxFill : Nat := 0
  pauseSent : Bool := false
  holdRun : Bool := false
  offSeen : Bool := false              -- PCFG has been written 0 since the fence (R473)
  waiting : List (PktHead × Packet) := []  -- transmissions that PFC holds (R456)
  deriving DecidableEq, Repr

/-- State of a network queue pair (QPSTAT.STATE of R477). -/
inductive QpState | free | rts | draining | error
  deriving DecidableEq, Repr

/-- A completion entry's content (R387). -/
structure Cpl where
  result : BitVec 64
  sqhd   : Nat
  cid    : BitVec 16
  status : BitVec 16
  deriving DecidableEq, Repr

/-- A QP context (R457 to R472, R477). Rates are exact, in Mbit/s (log 16). -/
structure Qp where
  st     : QpState := .free
  cause  : BitVec 4 := 0
  port   : Fin 2 := 0
  pmtu   : Nat := 0
  gidIdx : Nat := 0
  polder : Fin 64 := 0
  retryMax : Nat := 0
  rnrMax : Nat := 0
  ackTo  : Nat := 0
  minRnr : Nat := 0
  qdepth : Nat := 0
  ord    : Nat := 0
  nagg   : Nat := 0
  aggt   : Nat := 0
  dqpn   : BitVec 24 := 0
  dmac   : BitVec 48 := 0
  dip    : BitVec 128 := 0
  psn    : BitVec 24 := 0              -- next PSN to send
  una    : BitVec 24 := 0              -- oldest unacknowledged PSN
  rpsn   : BitVec 24 := 0              -- expected receive PSN
  retries : Nat := 0
  rnrs   : Nat := 0
  rnrWait : Bool := false
  rc     : Rat := 0
  rt     : Rat := 0
  alpha  : Rat := 0
  n      : Nat := 0
  accepted : BitVec 16 := 0
  outst  : Nat := 0                    -- capsules received and not yet completed
  caps   : List Capsule := []          -- received, not yet fetched
  heldCpl : List Cpl := []             -- completions waiting for their capsule
  sentCpl : List (BitVec 24 × List Cpl) := []  -- capsules not yet acknowledged, by PSN
  rdReqs : List (BitVec 24 × Nat × Bool) := []  -- RDMA READ requests outstanding: next response PSN, bytes to come, record data
  rdData : List Byte := []             -- record data of READ responses in staging, in PSN order, not yet in an intake ring (R465)
  cnpLast : Option Nat := none         -- mtime of the last CNP sent
  dest   : Bool := false               -- being destroyed: free once its started commands have ended (R378, R459)
  deriving DecidableEq, Repr

/-- The network attach (chapter 10). -/
structure NetSt where
  ports : Sparse PortSt := []
  qps   : Sparse Qp := []
  qopBusy : Bool := false
  deriving DecidableEq, Repr

/-- The time-slot table (R482 to R488). Unlisted entries name polder 0. -/
structure TimeSlots where
  bank0  : Sparse Byte := []
  bank1  : Sparse Byte := []
  active : Bool := false
  swap   : Bool := false
  idx    : Nat := 4095                 -- the slot in progress
  rejectCode : Byte := 0
  deriving DecidableEq, Repr

/-! ### The vault -/

/-- A key store slot (R493). -/
structure KeySlot where
  fp     : BitVec 128
  key    : BitVec 256
  polder : Fin 64
  unloadRelease : Bool
  deriving DecidableEq, Repr

/-- A live quote key (R494), with the TAG its quote showed (R497). -/
structure QuoteKey where
  id     : BitVec 128
  polder : Fin 64
  time   : Nat
  priv   : Nat
  tag    : BitVec 64
  deriving DecidableEq, Repr

/-- A key's IV counter: next value, durable bound, and the bound being recorded (R505). -/
structure IvKey where
  fp     : BitVec 128
  c      : Nat
  b      : Nat
  recB   : Option Nat := none
  fails  : Nat := 0            -- journal slots that failed read-back in succession (R508)
  deriving DecidableEq, Repr

/-- A journal record (R506): its fingerprint is readable; `b` is none when B fails its check. -/
structure JournalRec where
  fp  : BitVec 128
  b   : Option Nat
  seq : Nat
  deriving DecidableEq, Repr

/-- A floor ring entry: G and H with the update's number, and whether it can be read (R506, R509). -/
structure FloorEnt where
  seq : Nat := 0
  g   : Nat := 0
  h   : Nat := 0
  ok  : Bool := true
  deriving DecidableEq, Repr

/-- A polder's meter counters of the current interval, in the order of R514, and its flags (R516). -/
structure Meter where
  hostIn : Nat := 0
  hostOut : Nat := 0
  tapeOut : Nat := 0
  tapeIn : Nat := 0
  tapeTime : Nat := 0
  posTime : Nat := 0
  cmds : Nat := 0
  slotsOwn : Nat := 0
  slotsUsed : Nat := 0
  fenced : Bool := false
  tableSwap : Bool := false
  deriving DecidableEq, Repr

/-- A signed meter record, by its fields (R516); the signature is the vault's. -/
structure MeterRec where
  flags  : BitVec 16
  polder : Fin 64
  tag    : BitVec 64
  minute : Nat
  counts : Meter
  tsHash : BitVec 64
  prev   : BitVec 384
  sig    : BitVec 768
  deriving DecidableEq, Repr

/-- The Adbavin vault (chapter 11) and its MRAM area. -/
structure VaultSt where
  lifecycle : BitVec 2 := 0
  lcNext  : BitVec 2 := 0              -- the state fused, in effect at the next power-on reset (R579)
  lcDone  : Bool := false              -- LCTRANS written in this boot (R583)
  devId   : Word := 0                  -- INSTANCE of R490
  keyHash : BitVec 384 := 0            -- hash of the drive-maker key, fused at provisioning (R574, R578)
  makerKey : List Byte := []           -- the drive-maker key accepted; empty for none (R574)
  svnMin  : Word := 0
  keys    : List KeySlot := []
  quotes  : List QuoteKey := []
  ivs     : List IvKey := []
  journal : Sparse (Option JournalRec) := []
  jseq    : Nat := 0
  floor   : Sparse FloorEnt := []
  fseq    : Nat := 0
  lost    : List (BitVec 128) := []
  meters  : Sparse Meter := []
  chain   : Sparse (Option (BitVec 384)) := []
  lastRec : Sparse (Option MeterRec) := []
  firstRec : Sparse Bool := []         -- a record has been formed since power-up (R516 BOOT)
  waiting : List MeterRec := []
  minute  : Nat := 0
  nextMinute : Nat := 0                -- the minute after the last one recorded in MRAM (R520)
  deriving DecidableEq, Repr

/-! ### Record side -/

/-- An item in an intake ring (R319 to R321). Ring positions count bytes since power-on. -/
structure Item where
  start  : Nat                         -- ring position of its length slot
  bytes  : List Byte := []             -- record bytes received
  bad    : List Nat := []              -- indices of bytes that failed parity
  eoi    : Bool := false               -- its last record bytes have come
  len    : Option (BitVec 64) := none  -- the filled length slot
  poison : Bool := false               -- POISON on its last word (R327)
  lenBad : Bool := false               -- a byte of its length slot failed its parity (R322)
  deriving DecidableEq, Repr

/-- A lengths-index entry (R337). -/
structure LixEntry where
  kind    : Nat
  recLen  : Nat
  fragLen : Nat
  deriving DecidableEq, Repr

/-- Where an unplaced group stands (R336, R342). -/
inductive GrpStage
  | cut | compressing (i : Fin 32) | compressed | encrypting (i : Fin 12) | confirmed
  deriving DecidableEq, Repr

/-- A record group that has not been placed (R333 to R342): the entries taken, the content, the ring
bytes it covers, and the LRN after the last record that ends in it. -/
structure Grp where
  no      : Nat
  part    : Fin 64
  firstLrn : Nat
  endLrn  : Nat
  entries : List LixEntry := []
  content : List Byte := []
  start   : Nat
  stop    : Nat
  contIn  : Bool := false              -- its first entry continues a record
  contOut : Bool := false              -- its last entry leaves a record unfinished
  stage   : GrpStage := .cut
  frame   : List Byte := []
  iv      : BitVec 96 := 0
  body    : List Byte := []
  tag     : BitVec 128 := 0
  mism    : Nat := 0                   -- mismatches on the pair in `pair`
  pair    : Option (Fin 12) := none
  noPair  : List (Fin 12) := []        -- pairs it must not use again
  prot    : Bool := true               -- rewind protection (R331)
  put     : Nat := 0                   -- bytes of header and body already in a slot
  bufs    : List Nat := []             -- its chain of pool buffers: the frame's, then the pair's output (R336, R342, R346)
  waited  : Bool := false              -- its placement has waited on quota, and has been counted (R368)
  deriving DecidableEq, Repr

/-- A record intake queue (R318 to R336). Positions count ring bytes since power-on. -/
structure Riq where
  items   : List Item := []            -- items at or after the mark, or the consumer, oldest first
  inItem  : Bool := false              -- the producer is inside the last item
  stalled : Option (BitVec 3 × BitVec 64 × Byte × BitVec 3) := none
  swallow : Bool := false              -- the rest of a flushed item is being dropped
  swReport : Bool := false             -- FLUSH_DONE follows when it has ended
  pPos    : Nat := 0                   -- producer position
  cPos    : Nat := 0                   -- consumer position
  cIn     : Bool := false              -- the consumer is inside an item
  fragOn  : Bool := false              -- the open group's last entry is still being filled
  fragLen : Nat := 0                   -- record bytes in that entry
  fragFst : Bool := false              -- it began with the record's first byte
  mark    : Option Nat := none
  opn     : Option Grp := none
  grps    : List Grp := []
  nextNo  : Nat := 0
  recut   : List Grp := []             -- groups to be cut again from the mark, with their boundaries (R332, R335)
  nextLrn : Nat := 0                   -- LRN of the next item the group builder begins
  asgLrn  : Nat := 0                   -- LRN after the records of every write that has executed
  part    : Option (Fin 64) := none    -- partition of the polder's writer binding
  newDs   : Bool := false              -- the next group begins a new data set at offset 0 (R347)
  closeReq : List Nat := []            -- LRNs at which a SYNC, UNLOAD or switch closes the open group (R334)
  idleUs  : Nat := 0                   -- IDLE as the timer took it when it last started (R328, R364)
  deriving DecidableEq, Repr

/-- A compressor, decompressor or cipher pair's work in one polder's context (R483). -/
structure Engine where
  read   : Bool := false
  busy   : Bool := false
  job    : Nat := 0                    -- the group's number, or the read's handle
  deriving DecidableEq, Repr

/-- A pool buffer's link header (R351). -/
structure Buf where
  alloc : Bool := false
  gen   : Byte := 0
  req   : Nat := 0
  pol   : Byte := 0xFF
  ok    : Bool := true                 -- CHECK, STATE and NEXT hold
  seq   : Nat := 0                     -- its place in the order of allocations, by which NEXT links an owner's buffers (log 102)
  deriving DecidableEq, Repr

/-- Where a READ_RECORDS stands on its next group (R361). -/
inductive ReadStage | find | decrypting (i : Fin 12) | decrypted | expanding (i : Fin 32)
  deriving DecidableEq, Repr

/-- A READ_RECORDS in progress (R361, R393). -/
structure ReadJob where
  h      : Nat
  part   : Fin 64
  lrn    : Nat                         -- next LRN to return
  expect : Option (Nat × BitVec 64) := none  -- LRN at which the group before ends, and its data set's WGEN (R361)
  redo   : Bool := false               -- the group at `slot` and `off` is decrypted again (R512, R513)
  bufs   : List Nat := []              -- the buffers that its group was admitted with (R361)
  stage  : ReadStage := .find
  slot   : Nat := 0                    -- basin slot and stream offset of the group
  off    : Nat := 0
  mism   : Nat := 0
  pair   : Option (Fin 12) := none
  lens   : List Word := []             -- lengths list entries returned, in order
  bytes  : Nat := 0                    -- record bytes returned
  carry  : List Byte := []             -- fragments of a record not yet complete (R362)
  frame  : List Byte := []             -- what the cipher pair decrypts
  authOk : Bool := true                -- the tag it computes is the stored one
  deriving DecidableEq, Repr

/-- The record side (chapter 07). -/
structure RecSide where
  riq    : Sparse Riq := []
  cmp    : Sparse Engine := []         -- key 64 × engine + polder, one context a polder (R483)
  dcp    : Sparse Engine := []
  cry    : Sparse Engine := []
  freeList : Sparse (List Nat) := []   -- by pool, head first
  bufs   : Sparse Buf := []            -- key 65536 × pool + index
  use    : Sparse Nat := []            -- staging bytes in use by polder (R353)
  reqFault : Sparse Nat := []          -- rejected frees by requester
  reqClosed : List Nat := []
  fenPool : List Nat := []             -- fenced pools (R352)
  bufSeq : Nat := 0                    -- allocations served since power-on
  turn   : Sparse Nat := []            -- by requester class, one more than the requester decided for last (R354)
  tailOpen : Sparse Bool := []         -- by partition: the last placed group leaves a record unfinished
  reads  : List ReadJob := []
  deriving DecidableEq, Repr

/-! ### Basin and cartridge -/

/-- State of a data slot (R31, coded as SLOTINFO of R368). -/
inductive SlotState | free | filling | full | onTape | readAhead | poisoned | retired
  deriving DecidableEq, Repr

/-- A group whose header begins in a slot (R94): stream offset, first LRN, LRN after the last record
that ends in it, and file marks it holds. -/
structure GrpRef where
  off   : Nat
  lrn   : Nat
  endLrn : Nat
  hi    : Nat := 0                     -- LRN of its last entry
  contIn : Bool := false               -- its first entry continues a record
  marks : List Nat := []               -- LRNs of the file marks it holds
  deriving DecidableEq, Repr

/-- A basin data slot (R30, R31, R357). `stream` holds the bytes placed from offset 0. -/
structure Slot where
  st     : SlotState := .free
  retire : Bool := false
  polder : Fin 64 := 0
  part   : Fin 64 := 0
  dsn    : Option Nat := none
  order  : Nat := 0                    -- place in the partition's stream, before a DSN is given
  wgen   : BitVec 64 := 0
  lrnStart : Nat := 0
  marks  : Nat := 0
  endLrn : Nat := 0                    -- LRN after the last record of the last group that ends in it, 0 none
  firstGrp : Option Nat := none
  refs   : List GrpRef := []
  stream : List Byte := []
  keyFp  : BitVec 128 := 0
  owner  : BitVec 64 := 0
  encoded : Bool := false              -- its encoding read has completed
  time   : Nat := 0                    -- device time at which the placer filled its header (R92, R344)
  verd   : Sparse (Option Bool) := []  -- verdicts of its codewords, by 256 × row + channel: whether it has passed (R201, R357)
  bad    : Bool := false               -- holds an uncorrectable error
  passed : Bool := false               -- its DSN has passed verify (R201)
  deriving DecidableEq, Repr

/-- The basin (R29 to R33, R358). -/
structure BasinSt where
  slots : Sparse Slot := []
  lastAlloc : Nat := 8159
  nextOrder : Nat := 0
  deriving DecidableEq, Repr

/-! ### Track side -/

/-- What a position of a pass carries (R81, R88, R91). -/
inductive InstKind | data | retry | closeB | closePad
  deriving DecidableEq, Repr

/-- A data set header (R92). -/
structure DsHeader where
  dsType : Byte := 1
  geom   : Byte := 0
  pnum   : Byte := 0
  dsn    : Nat := 0
  wgen   : BitVec 64 := 0
  lrnStart : Nat := 0
  marks  : Nat := 0
  firstGrp : Option Nat := none
  ngrp   : Nat := 0
  streamLen : Nat := 0
  keyFp  : BitVec 128 := 0
  owner  : BitVec 64 := 0
  time   : Nat := 0
  writer : Word := 0
  deriving DecidableEq, Repr

/-- The encoded form of a data set that the channel tiles keep (R38): its payload, from which every codeword follows. -/
structure Enc where
  part : Nat
  dsn  : Nat
  pay  : List Byte
  deriving DecidableEq, Repr

/-- What the trailing module and the C1 decoder gave for one written slot (R188): the row of R161, whether C1 converged within 4
iterations, the margin of R187, and whether the decoded codeword is the codeword sent. -/
structure SlotRead where
  row  : Nat
  conv : Bool
  margin : BitVec 7
  same : Bool
  noread : Bool := false               -- its lane group or a tile did not read it (R188)
  weak : Bool := false                 -- the margin was not above MARGIN_TH as it stood then (R217)
  deriving DecidableEq, Repr

/-- A copy of a codeword as read (R209): what its header names, or where the header comes from expectation none for a DSN not
yet known; a SUPP copy has row 64 + m. `ch` is the data channel that read it, as logical channel `at_`; `bytes` are the 432 bytes
of a converged word. -/
structure RxWord where
  dsn  : Option Nat
  row  : Nat
  chan : Nat
  ch   : Nat
  at_  : Nat
  conv : Bool
  bytes : List Nat := []
  deriving DecidableEq, Repr

/-- A failed codeword (R189): row, channel, reason. -/
structure Fail where
  row  : Nat
  chan : Nat
  reason : Nat
  deriving DecidableEq, Repr

/-- A rewrite slot in use at a position (R194): target, and the codeword it carries. -/
structure Rewrite where
  chan : Nat
  slot : Nat
  dsn  : Nat
  row  : Nat
  orig : Nat
  deriving DecidableEq, Repr

/-- A rewrite placed and standing (R194 to R196): its rewrite position, the position of the instance it comes from, and whether
it has been withdrawn, its slot then carrying SUPP. -/
structure Place where
  at_  : Nat
  src  : Nat
  rw   : Rewrite
  gone : Bool := false
  deriving DecidableEq, Repr

/-- A position written in the current pass, with its verdicts and its rewrite slots (R188 to R201). `p` is the
partition position (R110). -/
structure Inst where
  p     : Nat
  dsn   : Nat
  slot  : Nat := 0                     -- basin slot
  kind  : InstKind
  half  : Bool := false                -- half-band geometry (R99)
  abandoned : Bool := false
  dead  : Bool := false                -- its encoding read a void (R304)
  zeroed : List Nat := []              -- channels fed as zero bits (R304, R308)
  inh   : List (Nat × Nat) := []       -- lane groups and slots during which WINH was asserted (R188)
  got   : Sparse (Option SlotRead) := []  -- what was read of its slots, by 68 × channel + slot
  seen  : List Nat := []               -- slots with a verdict, as 68 × channel + slot
  fails : List Fail := []
  healed : List (Nat × Nat) := []      -- failed codewords whose rewrite has passed, row and channel
  rewrites : List Rewrite := []        -- rewrite slots fed at this position
  fedRw : Bool := false                -- its rewrite slots have been fed
  cause : Nat := 0                     -- lowest of the retry causes 3 and 5 met, 0 none
  passed : Bool := false
  deriving DecidableEq, Repr

/-- Copy A being written to its area of the housekeeping zone (R102 to R104): the area, the positions of its region taken, those
still to be written, whether the tape stands before the next of them, whether UNLOAD waits for it, the image, and the instances. Half-band position h of the
zone is position 2^32 + h (log 93). -/
structure Hk where
  area  : Bool
  off   : Nat := 0
  todo  : Nat := 2
  run   : Bool := false
  unl   : Bool := false
  image : List Byte
  insts : List Inst := []
  deriving DecidableEq, Repr

/-- The records lost with an unrecoverable data set (R213): LRNs `start` up to `stop`. `by_` is the DSN of the later data set that
gave `stop`; with none of them known the loss is open, to the end of data. -/
structure Loss where
  start : Nat
  stop  : Nat
  dsn   : Nat
  by_   : Option Nat := none
  deriving DecidableEq, Repr

/-- A label (R105). -/
structure Label where
  lclass  : BitVec 16
  posPerWrap : Nat
  cartId  : BitVec 128
  initDev : Word
  initTime : Nat
  wpCount : Nat
  deriving DecidableEq, Repr

/-- The loaded cartridge: its working index and what LOAD found (R106 to R117, R404). -/
structure Cart where
  core : IndexCore := {}
  label : Option Label := none         -- its label (R105)
  genCore : IndexCore := {}            -- the core as of its last generation (R113)
  gran : Sparse (Option Gran) := []    -- key 65536 × partition + granule
  dataP : Sparse Nat := []             -- by partition, the position after the last DATA data set known there (R110)
  genImage : List Byte := []           -- that generation's image, as copies A and B carry it (R106, R113)
  unloading : Option Nat := none       -- the UNLOAD in progress
  noticed : Bool := false              -- and the vault has had its notice (R501)
  readOnly : Bool := false
  conflict : Bool := false
  indexBad : Bool := false             -- the working copy holds an uncorrectable word (R545)
  a1Newest : Bool := false             -- the newest intact copy A is in area A1 (R104)
  aGen : BitVec 64 := 0                -- generation held by copy A
  hk : Option Hk := none               -- copy A as it is written and verified
  marks : Sparse (List Nat) := []      -- by partition, LRNs of file marks placed since LOAD
  baseLrn : Sparse Nat := []           -- by partition, EODLRN at LOAD: marks below it are counted, not listed
  lost : Sparse (List Loss) := []      -- by partition, what data sets that could not be read took with them (R213)
  tapeLrn : Sparse Nat := []           -- by partition, first LRN not on tape and verified (R396)
  syncLrn : Sparse Nat := []           -- by partition, LRN covered by a passing copy B (R408)
  cuts  : Sparse (List (BitVec 64 × Nat)) := []  -- by partition, the truncations since LOAD: the WGEN begun, and its LRN
  deriving DecidableEq, Repr

/-- Kind of a pass. -/
inductive PassKind | write | read
  deriving DecidableEq, Repr

/-- The pass in progress (R90, R91, R134, R192 to R207). -/
structure Pass where
  kind  : PassKind
  part  : Fin 64
  wrap  : Nat                          -- its first wrap
  half  : Bool                         -- half-band geometry of the wrap pair it is in (R99)
  nextP : Nat
  app   : Nat := 0                     -- append point as far as its data sets have left ONTAPE (R52, R201)
  insts : List Inst := []              -- oldest first
  places : List Place := []            -- rewrites placed, oldest first (R194)
  bounds : Nat := 0
  againQ : List Nat := []              -- DSNs written again from their ONTAPE slots (R52)
  degraded : List Nat := []
  retries : Sparse Nat := []           -- by DSN, retry instances of this pass
  retryQ : List Nat := []              -- DSNs whose retry is due, in the order of R311
  runs   : Sparse Nat := []            -- by channel, consecutive DSNs retried for it (R205)
  runDsn : Sparse Nat := []            -- by channel, one more than the last DSN so counted
  closing : Nat := 0                   -- closing positions still to be fed
  closeB : Bool := false               -- they are copy B instances
  bTries : Nat := 0                    -- copy B pairs written (R204)
  done  : Bool := false                -- its closing positions have begun
  full  : Bool := false                -- the partition has become full (R203)
  endCause : Option Nat := none        -- it ends without closing positions at the next boundary
  firstDsn : Option Nat := none
  lastDsn : Nat := 0
  cnts  : Sparse Nat := []             -- counts of this pass for its quality page (R421)
  rereads : Nat := 0                   -- attempts made on the data set being re-read (R210)
  rereadDsn : Option Nat := none
  rereading : Bool := false            -- the re-read move is in progress
  kept  : Sparse (Option (List Nat)) := []   -- its codewords resolved so far, by 256 × row + channel (R212)
  rx    : List RxWord := []            -- copies read, the last written first (R209)
  strP  : Nat := 0                     -- the HC in a full-band pair: first position of the stretch being read (R101)
  strN  : Nat := 0                     -- positions of it read by the H0 channels
  strK  : Nat := 0                     -- and by the H1 channels
  h1    : Bool := false                -- the H1 channels are reading
  strMax : Nat := 4096                 -- data sets of the stretch: a free value up to 4,096 that firmware sets (log 97)
  grpLrn : Option Nat := none          -- first LRN of the group that holds the next data set's first stream byte (R213)
  c2 : Bool := false                   -- C2, or C3, has resolved a codeword of the data set at hand, in any attempt (R218)
  c3 : Bool := false
  deriving DecidableEq, Repr

/-- A write or read quality record (R421). -/
structure Quality where
  write : Bool
  part  : Fin 64
  half  : Bool
  wrap  : Nat
  firstDsn : Option Nat
  lastDsn : Nat
  cnts  : Sparse Nat
  endCause : Nat
  degraded : List Nat
  deriving DecidableEq, Repr

/-- The track side (chapters 01, 02, 04). -/
structure TrackSt where
  plan  : List PlanEntry := []
  cur   : Option PlanEntry := none
  pass  : Option Pass := none
  passes : Nat := 0
  last  : Option Pass := none          -- the write pass that ended last: verdicts still come on its positions (R191)
  wq    : List Quality := []           -- newest first, at most 16
  rq    : List Quality := []
  waitPost : Bool := false             -- writing waits for an entry posted after the stop (R202, R207)
  noPass : Bool := false               -- no write pass starts until an image switch (R310)
  starting : Option (Fin 64 × PassKind × Nat) := none  -- the pass a running move will start, and its position
  readAt : Sparse (Option Nat) := []   -- by partition, the position a stopped read resumes at (R245)
  zoneSeg : Nat := 0                   -- segment whose row is in force (R152)
  zonePair : Option Nat := none        -- wrap pair whose table is cached (R151)
  zoneCache : Sparse Word := []        -- the cached words, by 256 × segment + element position
  heard : Sparse Nat := []             -- consistent headers by the DSN they name, of the data set being read (R160)
  syncPend : List (Fin 64) := []       -- partitions with a pending SYNC or UNLOAD (R244)
  deriving DecidableEq, Repr

/-! ### Lane groups and channels -/

/-- State of a lane group (R120). -/
inductive LgState | stopped | acquire | locked | framed | holdover | reassigned | lost
  deriving DecidableEq, Repr

/-- A lane group (chapter 03). Phases and skews are in 1/64 bit cell. -/
structure LaneGroup where
  st     : LgState := .stopped
  src    : Nat := 0                    -- 0 own stripe, 1 from k − 1, 2 from k + 1
  holdCnt : Nat := 0
  word   : Option Word := none         -- the last passing word
  prevOk : Bool := false               -- it was the word just before the next one
  bandSeen : Bool := false             -- two successive words have named the target band of the move (R121)
  ownLock : Bool := false              -- own stripe locked again, in HOLDOVER, REASSIGNED or LOST
  ownFramed : Bool := false            -- and framed again
  step   : Int := 0                    -- phase step measured at reacquisition (R129)
  tone   : Int := 0                    -- tone-index counter; the approach counts as negative (R64, R65, R125)
  toneDis : Option Nat := none         -- a passing word that disagreed with the counter (R125)
  cposOk : Bool := false
  skewLo : Int := 0
  skewHi : Int := 0
  loV    : Bool := false
  hiV    : Bool := false
  keptLo : Bool := false               -- loV held when the group left FRAMED, and k − 1 has stayed FRAMED (log 32)
  keptHi : Bool := false
  heldFence : Bool := false            -- held in LOST by a parity or forced fence (R133)
  freq   : Nat := 43750                -- output frequency in kHz
  per    : List Nat := []              -- periods of the last 5 ticks on the tone, in lattice cycles, newest first (R126)
  inh    : Bool := false               -- WINH has been asserted during the slot being written (R188)
  seq    : BitVec 16 := 0              -- tick count of its domain (R277)
  slot   : Nat := 0                    -- index of the codeword slot in progress
  deriving DecidableEq, Repr

/-- A data channel's read and write state (R138 to R162, R217). -/
structure Chan where
  rskF   : Int := 0
  rskR   : Int := 0
  wskF   : Int := 0
  wskR   : Int := 0
  errSum : Int := 0                    -- placement errors of accepted syncs
  errN   : Nat := 0
  trim   : Int := 0                    -- WSKEW move due at the next boundary
  dg     : Int := 0
  dOff   : Int := 0
  da     : Int := 0
  nG     : Nat := 0                    -- converged codewords since each delta last moved
  nO     : Nat := 0
  nA     : Nat := 0
  stG    : Int := 0                    -- sign-sign statistics of the converged codewords since each delta moved (R153)
  stO    : Int := 0
  stA    : Int := 0
  taps   : Sparse (Option Rat) := []   -- taps as loaded and adapted; unlisted ones as after power-on reset (R155, R156)
  flyRun : Nat := 0
  syncLost : Bool := false
  erase  : Bool := false               -- its remaining slots of the data set are erasures
  zone   : Word := 0x40000001
  degraded : Bool := false
  margin : BitVec 7 := 0
  reason : Nat := 0
  deriving DecidableEq, Repr

/-- Timing of the tape domains. -/
structure TimingSt where
  lgs : Sparse LaneGroup := []
  chs : Sparse Chan := []
  aa  : Nat := 1                       -- step whose anti-alias corner is in force (R145)
  old : Sparse (Option Word) := []     -- by register, the value a CST or RCH register still has on the tape side (R44, R45)
  mLgs : Sparse LaneGroup := []        -- the mirrors of the lane groups' and channels' status, as of their last ticks
  mChs : Sparse Chan := []
  deriving DecidableEq, Repr

/-! ### Motion -/

/-- A control loop's registers beside its banks (R224, R225, R248). -/
structure Loop where
  meas   : Int := 0
  sp     : Int := 0
  e      : Int := 0
  p      : Int := 0
  df     : Int := 0
  istate : Int := 0
  eprev  : Int := 0
  sat    : Int := 0
  u      : Int := 0
  ff     : Int := 0
  fe     : Nat := 0
  swapped : Bool := false              -- a bank swap takes effect at the next sample (R227)
  deriving DecidableEq, Repr

/-- The speed planner (R231 to R233): v in 2^−16 µm/s, a in 2^−16 mm/s². -/
structure Planner where
  target : Int := 0
  v      : Int := 0
  a      : Int := 0
  rev    : Bool := false               -- a reversal has not yet reached 0
  dwell  : Bool := false
  idle   : Bool := true
  deriving DecidableEq, Repr

/-- The lateral planner (R234): position in pm, v in pm/s, a in pm/s². -/
structure LatPlanner where
  target : Int := 0
  pos    : Int := 0
  v      : Int := 0
  a      : Int := 0
  moving : Bool := false
  settle : Nat := 0                    -- valid frames still needed after the move (R235)
  newBand : Bool := false              -- the move changes band and is not yet confirmed (R121)
  oldBand : BitVec 2 := 0
  band   : BitVec 2 := 0               -- band and half that the reference leads to
  half   : Bool := false
  blind  : Bool := false               -- no valid frame has come since a change of band, or of half-band, began (R235, R236)
  deriving DecidableEq, Repr

/-- A positioning move (R237). -/
structure Move where
  status : Nat := 0                    -- MOVESTAT
  cpos   : Nat := 0
  band   : BitVec 2 := 0
  track  : Nat := 0
  rev    : Bool := false
  step   : Nat := 0
  arriving : Bool := false             -- it has left the run-up point
  stopAt : Int := 0                    -- tone index of the run-up point, or of the target for rest
  polder : Option (Fin 64) := none     -- whom its time is metered to (R514)
  deriving DecidableEq, Repr

/-- Speed matching (R239 to R245). -/
structure SpeedSt where
  nreq  : Nat := 0
  nb    : Nat := 0
  k     : Nat := 0
  last  : Nat := 0                     -- boundary of the last change
  win   : List (Nat × Nat) := []       -- slots turned FULL (or freed) and the 500 MHz count per boundary, newest first, at most 65
  turned : Nat := 0                    -- of those, since the last boundary
  lastN : Sparse Nat := []             -- by partition, n_req when its last pass stopped
  firstW : Bool := true                -- the next write pass is the first since EN
  firstR : Bool := true
  lastPart : Option (Fin 64) := none
  deriving DecidableEq, Repr

/-- The stop governor (R250 to R253). `causes` bit i is GSTAT bit i + 4. -/
structure GovSt where
  active : Bool := false
  rest   : Bool := false
  passive : Bool := false
  atRest : Bool := false
  causes : BitVec 8 := 0
  ref    : Int := 0                    -- speed reference, µm/s
  locked : Bool := false               -- parity on the GOV page (R544)
  deriving DecidableEq, Repr

/-- The write gate (R246): source i is bit i − 1. -/
structure GateSt where
  src    : BitVec 7 := 0b1000001
  shockOk : Bool := false              -- SHOCK_HOLD has passed since SHOCK_N rose
  wrel   : Nat := 0                    -- consecutive frames within WREL_TH
  loss   : Nat := 0                    -- consecutive frames without a valid record
  lock   : Nat := 0                    -- consecutive valid frames since the lock was lost
  locked : Bool := false
  spdIn  : Bool := false               -- a whole data set has begun within SPDWIN
  deriving DecidableEq, Repr

/-- A servo channel's record with its bursts named (R164): times of their first stripes in 1/64 sample, stripe counts, mean peak
amplitude, and the valid flag. -/
structure ServoFrame where
  tA : Nat
  tB : Nat
  tC : Nat
  tD : Nat
  counts : Nat × Nat × Nat × Nat
  amp : Nat := 0
  valid : Bool := false
  deriving DecidableEq, Repr

/-- Measured quantities (R222, R223, R251). -/
structure MeasSt where
  speed  : Int := 0                    -- µm/s, signed
  accel  : Int := 0                    -- mm/s²
  tens   : Int := 0                    -- mN
  act    : Int := 0                    -- mA
  temp   : Int := 0                    -- 0.001 °C
  aux    : Sparse (BitVec 16) := []
  amps   : Sparse Int := []            -- reel phase currents in mA, by AUXIN input 0 to 3 (R222, R294)
  yUp    : Int := 0                    -- pm
  yLo    : Int := 0
  ym     : Int := 0
  skew   : Int := 0                    -- µrad
  skewSum : Int := 0                   -- skew angles of the valid frames since the last 2 kHz tick
  skewN  : Nat := 0
  recs   : List (Option ServoFrame) := []  -- the last frame's records: trailing upper and lower, leading upper and lower (R164)
  noFrame : Nat := 0                   -- T25 samples since the last valid servo frame
  lastUp : Option Nat := none          -- burst-A times of the last frame, where the trailing readers had a valid record of it
  lastLo : Option Nat := none
  frameT : Nat := 0                    -- duration of the latest frame completed with a valid record, in 1/64 samples (R223)
  deriving DecidableEq, Repr

/-- The motion control engine and what stands beside it (chapter 05). -/
structure MotionSt where
  loops : Sparse Loop := []
  plan  : Planner := {}
  lat   : LatPlanner := {}
  move  : Move := {}
  spd   : SpeedSt := {}
  gov   : GovSt := {}
  gate  : GateSt := {}
  meas  : MeasSt := {}
  sealed : Bool := false
  past  : Sparse Nat := []             -- T25 samples for which the crest limits 5 to 9 of R250 have been passed, from key 0
  coast : Bool := false                -- the coast after a wrap's last slot (R236)
  tone  : Int := 0                     -- tone index under the trailing module, as the MCE keeps it (log 29)
  low   : Nat := 0                     -- T25 samples in succession with the speed within 0.05 m/s of 0
  quiet : Nat := 0                     -- T25 samples in succession with every phase current below 1 %
  torA  : Int := 0                     -- reel torque commands T_A and T_B (R221)
  torB  : Int := 0
  duty  : List Nat := List.replicate 12 0      -- duties of PWM_A[0..5] and PWM_B[0..5] (R221), in 2 ns
  smpol : Word := 0x81010011           -- SMPOL as in force: a write takes effect at the next data set boundary (R262)
  seekFor : Option (Fin 64) := none    -- polder of the last LOCATE or SPACE, for whose move GO is written (R237, R514)
  deriving DecidableEq, Repr

/-- A trace buffer (R257 to R259, R266). -/
structure TraceBuf where
  armed  : Bool := false
  trig   : Bool := false
  entries : List Word := []            -- recorded and not yet taken by the DMA channel, oldest first
  kept   : Nat := 0                    -- entries recorded since arming
  post   : Nat := 0                    -- entries still to record after the trigger
  trigPos : Nat := 0
  skip   : Nat := 0                    -- samples still to skip (DECIM)
  prev   : Option Int := none
  mem    : List Word := []             -- the buffer's last 16,384 entries, newest first (R257, R554)
  deriving DecidableEq, Repr

/-! ### Lattice -/

/-- What one instruction bank and one route bank of a tile hold, with the tile table entry they were staged under (R269, R290, R298). -/
structure TileBank where
  ent    : TileEnt := {}
  code   : List Byte := []             -- instruction memory, 1,024 words of 16 bytes
  routes : Option RouteSect := none    -- route memory; none while the router is idle
  deriving DecidableEq, Repr

/-- A lattice tile (R269, R274, R302, R313, R557). `reason` is 0 unless fenced. -/
structure Tile where
  reason : Nat := 0
  slack  : Nat := 1048575
  voids  : Nat := 0
  corr   : Nat := 0
  reload : Bool := false
  tick   : BitVec 64 := 0
  bank   : Bool := false               -- which of its two banks is ACTIVE
  act    : TileBank := {}              -- the ACTIVE bank, and the standby one (R269, R296)
  stby   : TileBank := {}
  due    : Bool := false               -- the banks change places at its next tick with SWITCH (R299, R307)
  start  : Option Nat := none          -- lattice cycle of the last tick it started at (R281)
  sram   : Sparse Byte := []           -- its data SRAM, 256 KiB (R269)
  mbox   : Sparse (Option (Nat × BitVec 256)) := []   -- its mailbox's 128 words, each with the lattice cycle it came at (R269, R273)
  recv   : Option (Nat × BitVec 256) := none -- its receive register: the word of one cycle of its program (R273, R292)
  deriving DecidableEq, Repr

/-- Role, unit and program length of a tile: those of its ACTIVE bank. -/
def Tile.role (x : Tile) : Nat := x.act.ent.role.toNat
def Tile.unit (x : Tile) : Nat := x.act.ent.unit.toNat
def Tile.len (x : Tile) : Nat := x.act.ent.len.toNat

/-- The detour of a fenced tile (R307 to R310). -/
structure Detour where
  failed : Nat
  spare  : Nat
  role   : Nat
  unit   : Nat
  active : Bool
  since  : Nat := 0                    -- lattice cycle of the fence
  ready  : Bool := false               -- a boundary at least 16,384 cycles after the fence has come
  regen  : List (Nat × Nat) := []      -- data sets still to regenerate, in order: partition and DSN
  ticks  : Nat := 0                    -- master ticks since the first of them was begun
  deriving DecidableEq, Repr

/-- The schedule loader and images (R296 to R300, R314). -/
structure SchedSt where
  phase  : Nat := 0                    -- LDSTAT[2:0]
  reject : Nat := 0
  rejTile : Nat := 0                   -- LDSTAT[24:16]
  auto   : Bool := false
  go     : Bool := false
  fromSram : Bool := false             -- where STANDBY's image came from, and the address (R297, R314)
  addr   : Nat := 0
  standby : Option SchedImage := none
  running : Option SchedImage := none
  area   : Bool := false               -- which of the two areas is ACTIVE
  reload : List Bool := []             -- areas to be re-read from flash (R543)
  runSram : Bool := false              -- the same for the running image
  runAddr : Nat := 0
  cmd    : Option Nat := none          -- the SCHED_SELECT that waits
  waitRaised : Bool := false
  told   : Bool := false               -- LOAD_DONE has been raised for what STANDBY holds
  deriving DecidableEq, Repr

/-- A word on its way into the mailbox of a tile whose local port another domain owns: where it stands, and since which lattice cycle
(R282). -/
structure Flight where
  tile : Nat
  inp  : Nat
  at_  : Nat
  word : BitVec 256
  deriving DecidableEq, Repr

/-- The Zhovearo lattice (chapter 06). -/
structure LatticeSt where
  tiles  : Sparse Tile := []
  master : Option (Fin 8) := none
  detour : Option Detour := none
  sched  : SchedSt := {}
  lastFence : Nat × Nat := (0, 0)      -- tile and reason
  enc    : List Enc := []              -- the codewords kept in tile SRAM (R38)
  queues : Sparse Nat := []            -- fill of each queue of R286, by its key
  slips  : Sparse Nat := []            -- what a queue lost or lacked since the last tick of its group (R287)
  now    : Nat := 0                    -- lattice cycle of the latest event whose cycle is known
  tickAt : Sparse Nat := []            -- lattice cycle of each domain's last tick: groups 0 to 7, codec 8, control 9 to 11
  seqs   : Sparse Nat := []            -- SEQ of domains 8 to 11 (R277, R280)
  flights : List Flight := []          -- words between domains
  bound  : Bool := false               -- a data set boundary has come, and no tick of the master since
  stepChg : Bool := false
  deriving DecidableEq, Repr

/-! ### Integrity, boot, probe, link -/

/-- A repeat table entry (R539), oldest first in the table. -/
structure RepEntry where
  mem  : Nat
  addr : Nat
  count : Nat
  lane : Option (Nat × Nat) := none    -- pseudo-channel and symbol of a basin chunk's last correction
  deriving DecidableEq, Repr

/-- The dump header's content (R555). -/
structure DumpHdr where
  cause  : Nat := 0
  page   : Nat := 0xFFFF
  devTime : Nat := 0
  ctr    : BitVec 64 := 0
  auto   : Bool := false
  complete : Bool := false
  cause2 : Nat := 0
  ctr2   : BitVec 64 := 0
  deriving DecidableEq, Repr

/-- Memory integrity, fences, fatal state and dump (chapter 12). -/
structure IntegritySt where
  fences : Sparse Nat := []            -- unit code of R547 to cause of R548; tiles stand in LatticeSt
  unf    : List (BitVec 16) := []      -- units under the self-test of an unfence
  rep    : List RepEntry := []
  marks  : Sparse (Option Nat) := []   -- by pseudo-channel, the marked symbol
  laneSeen : List (Nat × Nat × Nat) := []  -- pseudo-channel, symbol, chunk corrected since the last pass began
  spares : Sparse Nat := []            -- by SRAM bank, spare rows in use
  copies : List (Nat × Nat) := []      -- bank and row being copied
  ps     : Option (Nat × Nat × Nat) := none   -- memory, start, count of a running pass
  bad    : List (Nat × Nat) := []      -- uncorrectable words by space of R425 and 8-byte word
  tests  : List Nat := []              -- ADC channels whose self-test at enable runs (R548)
  scrubSlot : Nat := 0
  scrubPass : Nat := 0
  fatal  : Option (Nat × Nat) := none  -- cause and page
  dumpSt : Nat := 0                    -- DUMPSTAT
  dumpGo : Bool := false               -- GO written before the wait expired
  dump   : DumpHdr := {}
  deriving DecidableEq, Repr

/-- A control core (R565, R568). -/
structure Hart where
  run   : Bool := false
  pc    : BitVec 64 := 0
  x     : Sparse (BitVec 64) := []
  user  : Bool := false
  pmp   : Sparse (BitVec 64) := []
  mtimecmp : BitVec 64 := 0
  mtip  : Bool := false
  msip  : Bool := false
  lint16 : Bool := false
  lint17 : Bool := false
  dcache : Sparse (Option Byte) := []  -- bytes its data cache holds and memory does not: no other core sees them (R447, R566)
  deriving DecidableEq, Repr

/-- Boot, cores, watchdog, flash and power fail (chapter 13). -/
structure TopSt where
  last   : Nat := 0
  failCode : Nat := 0
  bootSlot : Option Bool := none
  recovery : Bool := false
  defImage : Bool := false
  heldReset : Bool := true             -- device held in reset (R576 step 1)
  harts  : Sparse Hart := []
  wdKick : Nat := 0                    -- mtime of the last kick (R569)
  dir    : List DirEnt := []           -- the flash directory in use (R571)
  dirGen : BitVec 64 := 0
  dirSecond : Bool := false            -- it is the copy at 0x1_0000
  flOp   : Option (Nat × Nat × Nat × Nat) := none   -- op, flash address, staging address, length
  flStat : Nat := 0
  flCode : Nat := 0
  committed : Bool := false
  fwVer  : BitVec 64 := 0
  fwMeas : BitVec 384 := 0
  crestMeas : BitVec 384 := 0
  pf     : Bool := false               -- the power-fail state is latched (R587)
  pfGate : Bool := false
  pfQuiet : Bool := false
  deriving DecidableEq, Repr

/-- JTAG instruction in force (R669). -/
inductive Jtag | bypass | idcode | sample | extest | clamp | highz
  deriving DecidableEq, Repr

/-- The Fizia probe port and JTAG (R665 to R670). -/
structure ProbeSt where
  unlocked : Bool := false
  valid   : Bool := false
  lockedOut : Bool := false
  nonce   : List Byte := []
  attempts : Nat := 0
  fails   : Nat := 0
  words   : List Nat := []             -- RESPONSE words written since the challenge was drawn
  jtag    : Jtag := .idcode
  deriving DecidableEq, Repr

/-- The Head Write Link (R654 to R663). -/
structure LinkSt where
  tcnt   : Word := 0
  mod    : BitVec 2 := 0
  wcurNow : Nat := 0
  wcurCh : Sparse Nat := []            -- write current last sent, by channel
  wdly   : Sparse Int := []            -- write delay last sent, by channel
  gain   : BitVec 4 := 0
  rbias  : BitVec 16 := 0
  sending : Bool := false
  sent   : Nat := 0                    -- turns in which blocks were sent, on all lanes (log 103)
  last   : Sparse (List Bool) := []    -- bits of the slot before, by channel
  deriving DecidableEq, Repr

/-- What the block issues to the outside. -/
inductive Out
  | hostWrite (fn : Fin 64) (addr : BitVec 64) (bytes : List Byte) (relaxed : Bool)
  | hostRead (fn : Fin 64) (addr : BitVec 64) (len : Nat) (noSnoop : Bool)
  | msix (fn : Fin 64) (vec : Nat) (addr : BitVec 64) (data : Word)
  | completerAbort
  | coreFault (h : Fin 4) (store : Bool)
  | packet (port : Fin 2) (head : PktHead) (p : Packet)
  | pfc (port : Fin 2) (pause : Bool)
  | meter (r : MeterRec)
  | feed (part : Fin 64) (wrap : Nat) (pos : Nat) (dsn : Nat) (kind : InstKind)
  | rewrite (pos : Nat) (r : Rewrite)
  | supp (pos : Nat) (count : Nat) (retry : Bool)
  | slot (chan : Nat) (start : Int) (bits : List Bool)
  | housekeeping (pos : Nat) (dsn : Nat) (payload : List Byte)
  | copyC (image : List Byte)
  | blocks (lane : Nat) (head : BitVec 2) (payloads : List (BitVec 64)) (line : List Bool)
  | probe (outs : List Bool) (clk : Nat)
  | tdo (w : Word)
  deriving DecidableEq, Repr

/-- The whole block. -/
structure State where
  variant : Variant := .ac
  rf   : RegState := {}
  clk  : Clocks := {}
  pins : Pins := {}
  host : HostSt := {}
  dma  : Sparse DmaChan := []
  mem  : Mems := {}
  net  : NetSt := {}
  ts   : TimeSlots := {}
  vlt  : VaultSt := {}
  rcd  : RecSide := {}
  bas  : BasinSt := {}
  cart : Option Cart := none
  trk  : TrackSt := {}
  tim  : TimingSt := {}
  mot  : MotionSt := {}
  trc  : Sparse TraceBuf := []
  lat  : LatticeSt := {}
  itg  : IntegritySt := {}
  top  : TopSt := {}
  prb  : ProbeSt := {}
  hwl  : LinkSt := {}
  out  : List Out := []                -- newest first
  pending : List Instr := []           -- commands waiting, first in, first out
  deriving DecidableEq, Repr

/-- The block after power-on reset, SYSRST_N still low (R584, R641), as the AC variant (log 6). -/
def State.reset : State := {}

/-- The same for either variant (R5). -/
def State.resetOf (v : Variant) : State := { variant := v }

end Sys2Proof.Machine
end

