-- ==== Sys2Proof/Machine/Stored.lean ====
section
/-! DEFINITION. What the boot flash and staging SRAM hold: the directory (R571), firmware and crest images (R572, R573), the
drive maker's key (R574), schedule images (R288 to R295), and their checksums, measurements and signatures. -/

namespace Sys2Proof.Machine

/-- Little-endian field of `n` bytes at offset `o` (R16). -/
def leField (bs : List Byte) (o n : Nat) : Nat := leNat ((bs.drop o).take n)

/-- `n` entries of `k` bytes. -/
def chunks (k : Nat) : Nat → List Byte → List (List Byte)
  | 0, _ => []
  | n + 1, bs => bs.take k :: chunks k n (bs.drop k)

/-- Bytes of the flash; an erased one reads 0xFF (log 48). -/
def flashBytes (s : State) (a n : Nat) : List Byte := readRange 0xFF s.mem.flash a n

/-- SHA-384 as a number, its first byte the most significant. -/
def measure (bs : List Byte) : BitVec 384 := BitVec.ofNat 384 (beNat (sha384 bs))

/-- The drive maker's key is enrolled (R574). -/
def makerEnrolled (s : State) : Bool := !s.vlt.makerKey.isEmpty

/-- The key a KEYID names: one of Nelras's, or the drive maker's enrolled key (R289, R572). -/
def signer (s : State) (nelras : Nat) (keyId : Byte) : List Byte := if keyId = 0 then Config.nelrasKey nelras else s.vlt.makerKey

/-- The signature behind `n` bytes, r then s, holds over them (R295, R572, R573, R579). -/
def signedOk (key bs : List Byte) (n : Nat) : Bool := ecdsaOk key (sha384 (bs.take n)) ((bs.drop n).take 96)

/-! ### The directory (R571) -/

/-- Entry of a directory. -/
def readDirEnt (bs : List Byte) : DirEnt :=
  { type := BitVec.ofNat 8 (leField bs 0 1), flags := BitVec.ofNat 8 (leField bs 1 1), offset := leField bs 4 4, length := leField bs 8 4 }

/-- A directory copy. One whose MAGIC, VERSION or entry count is wrong is no directory (log 106). -/
def readDir (bs : List Byte) : DirCopy :=
  let n := leField bs 6 2
  { crcOk := decide (leField bs 0 4 = 0x44464B43) && decide (leField bs 4 2 = 1) && decide (n ≤ 64) &&
      decide (leField bs 0x1C 4 = (crc32c (bs.take 0x1C ++ (bs.drop 0x20).take (16 * n))).toNat),
    gen := BitVec.ofNat 64 (leField bs 8 8), committed := BitVec.ofNat 32 (leField bs 0x10 4),
    ents := (chunks 16 (min n 64) (bs.drop 0x20)).map readDirEnt }

/-- The copy at 0x0_0000, or at 0x1_0000. -/
def dirCopy (s : State) (second : Bool) : DirCopy := readDir (flashBytes s (0x10000 * b2n second) 1056)

/-- First entry of a type. -/
def dirEnt (dir : List DirEnt) (type : Byte) : Option DirEnt := dir.find? (fun e => decide (e.type = type))

/-- The key entry's 97 bytes (R574). -/
def keyEntry (s : State) (dir : List DirEnt) : List Byte :=
  match dirEnt dir 5 with
  | some e => flashBytes s e.offset 97
  | none => []

/-! ### Firmware and crest images -/

/-- A firmware image at a flash offset (R572): what its signed bytes measure, and whether the signature holds. -/
def readFw (s : State) (a : Nat) : FwImage :=
  let n := leField (flashBytes s a 128) 8 4
  let bs := flashBytes s a n
  let so := leField bs 0x0C 4
  let keyId := BitVec.ofNat 8 (leField bs 6 1)
  { magic := BitVec.ofNat 32 (leField bs 0 4), version := BitVec.ofNat 16 (leField bs 4 2), keyId := keyId,
    variants := BitVec.ofNat 2 (leField bs 7 1), imgLen := BitVec.ofNat 32 n, sigOff := BitVec.ofNat 32 so,
    fwVer := BitVec.ofNat 64 (leField bs 0x10 8), svn := BitVec.ofNat 32 (leField bs 0x18 4), entry := BitVec.ofNat 32 (leField bs 0x1C 4),
    sigOk := signedOk (signer s 0 keyId) bs so, meas := measure (bs.take so), bytes := bs }

/-- The image in firmware slot A, or B; `none` where the directory names no such slot. -/
def slotImage (s : State) (slotB : Bool) : Option FwImage := (dirEnt s.top.dir (if slotB then 2 else 1)).map (fun e => readFw s e.offset)

/-- A crest image (R573). -/
def readCrest (s : State) (a : Nat) : CrestImage :=
  let bs := flashBytes s a 160
  let keyId := BitVec.ofNat 8 (leField bs 6 1)
  { magic := BitVec.ofNat 32 (leField bs 0 4), version := BitVec.ofNat 16 (leField bs 4 2), keyId := keyId,
    sigOk := signedOk (signer s 0 keyId) bs 64,
    words := (List.range 8).map (fun i => BitVec.ofNat 32 (leField bs (0x20 + 4 * i) 4)), meas := measure (bs.take 64) }

/-- The crest image that the directory names. -/
def crestImage (s : State) : Option CrestImage := (dirEnt s.top.dir 3).map (fun e => readCrest s e.offset)

/-! ### Schedule images (R288 to R295) -/

/-- A tile table entry (R290). -/
def readTile (bs : List Byte) : TileEnt :=
  { role := BitVec.ofNat 8 (leField bs 0 1), tickSrc := BitVec.ofNat 8 (leField bs 1 1), unit := BitVec.ofNat 16 (leField bs 2 2),
    code := BitVec.ofNat 16 (leField bs 4 2), route := BitVec.ofNat 16 (leField bs 6 2), init := BitVec.ofNat 16 (leField bs 8 2),
    len := BitVec.ofNat 32 (leField bs 0xC 4) }

/-- A route entry (R292). -/
def readRouteEnt (bs : List Byte) : RouteEnt :=
  let w : BitVec 64 := BitVec.ofNat 64 (leField bs 0 8)
  { start := w.extractLsb' 0 20, run := w.extractLsb' 20 12, out := w.extractLsb' 32 3, inp := w.extractLsb' 35 3,
    mbox := w.getLsbD 38, mbIdx := w.extractLsb' 39 7, zero := w.extractLsb' 46 18 }

/-- A route section (R292): as many entries as NENTRY counts and the section has room for. -/
def readRoute (bs : List Byte) : RouteSect :=
  let own := fun (i : Nat) => BitVec.ofNat 8 (leField bs i 1)
  let n := leField bs 8 4
  { owner0 := own 0, owner1 := own 1, owner2 := own 2, owner3 := own 3, owner4 := own 4,
    zero := BitVec.ofNat 56 (leField bs 5 3 + 2 ^ 24 * leField bs 12 4), nentry := BitVec.ofNat 32 n,
    ents := (chunks 8 (min n ((bs.length - 16) / 8)) (bs.drop 16)).map readRouteEnt }

/-- A section with its table entry; its CRC is that of its bytes (R291). -/
def readSect (img : List Byte) (e : List Byte) : SectEnt :=
  let bs := (img.drop (leField e 0 4)).take (leField e 4 4)
  let kind := BitVec.ofNat 8 (leField e 8 1)
  { offset := BitVec.ofNat 32 (leField e 0 4), length := BitVec.ofNat 32 (leField e 4 4), kind := kind,
    crcOk := decide (leField e 12 4 = (crc32c bs).toNat), route := if kind = 2 then readRoute bs else {}, bytes := bs }

/-- A detour table entry with its patches (R293). -/
def readDetour (img : List Byte) (e : List Byte) : DetourEnt :=
  let at_ := leField e 8 4
  { failed := BitVec.ofNat 16 (leField e 0 2), spare := BitVec.ofNat 16 (leField e 2 2), patchOff := at_,
    patches := (chunks 4 (leField e 4 2) (img.drop at_)).map (fun p => (BitVec.ofNat 16 (leField p 0 2), BitVec.ofNat 16 (leField p 2 2))) }

/-- A schedule image from its bytes (R288 to R295); no more sections are read than 12 MiB can hold. -/
def readSched (s : State) (copyOk : Bool) (bs : List Byte) : SchedImage :=
  let f := fun (o n : Nat) => leField bs o n
  let w := fun (o : Nat) => BitVec.ofNat 32 (f o 4)
  let keyId := BitVec.ofNat 8 (f 9 1)
  { copyOk := copyOk, sigOk := signedOk (signer s 1 keyId) bs (f 0x10 4), meas := measure (bs.take (f 0x10 4)),
    magic := w 0, fmtVer := BitVec.ofNat 16 (f 4 2), latRev := BitVec.ofNat 16 (f 6 2), variant := BitVec.ofNat 8 (f 8 1), keyId := keyId,
    flags := BitVec.ofNat 16 (f 0xA 2), imgLen := w 0xC, sigOff := w 0x10, imageId := w 0x14, stateCompat := w 0x18, build := w 0x1C,
    cf1Prof := BitVec.ofNat 16 (f 0x20 2), rdIter := BitVec.ofNat 8 (f 0x22 1), vfyIter := BitVec.ofNat 8 (f 0x23 1),
    speedCap := BitVec.ofNat 16 (f 0x24 2), qtol := BitVec.ofNat 16 (f 0x26 2), lenMaxFrame := w 0x28, lenMaxTsv := w 0x2C,
    lenMaxT25 := w 0x30, lenMaxT2k := w 0x34, delay0 := w 0x38, delay1 := w 0x3C, delay2 := w 0x40, delay3 := w 0x44, delay4 := w 0x48,
    regenTicks := BitVec.ofNat 8 (f 0x4C 1), verdictTicks := BitVec.ofNat 8 (f 0x4D 1), exclude := BitVec.ofNat 320 (f 0x50 40),
    tileTabOff := w 0x78, secTabOff := w 0x7C, detourOff := w 0x84, commut := w 0x88,
    tiles := (chunks 16 320 (bs.drop (f 0x78 4))).map readTile,
    sects := (chunks 16 (min (f 0x80 4) 786433) (bs.drop (f 0x7C 4))).map (readSect bs),
    detours := (chunks 16 (f 0x4E 2) (bs.drop (f 0x84 4))).map (readDetour bs) }

/-- The bytes that a load copies into STANDBY: from the source and address of its GO, as many as IMGLEN says, at most 12 MiB
(R289, R297). -/
def loadBytes (s : State) : List Byte :=
  let c := s.lat.sched
  let get := fun (n : Nat) => if c.fromSram then readRange 0 s.mem.staging c.addr n else flashBytes s c.addr n
  get (max 256 (min (leField (get 256) 0xC 4) 12582912))

/-- A staging word of the image is known to be uncorrectable (R297, R545). -/
def loadUncorr (s : State) : Bool :=
  let c := s.lat.sched
  c.fromSram && s.itg.bad.any (fun x => decide (x.1 = 1) && decide (8 * x.2 < c.addr + (loadBytes s).length) && decide (c.addr < 8 * x.2 + 8))

/-- The image that a load copied; `copyOk` where no read of the copy was uncorrectable. -/
def loadedImage (s : State) (copyOk : Bool) : SchedImage := readSched s (copyOk && !loadUncorr s) (loadBytes s)

end Sys2Proof.Machine
end

