-- ==== Sys2Proof/Machine/RegMap.lean ====
section
/-! DEFINITION. The register map: pages (R626), the registers of each block with their access codes,
masks and reset values (the register tables of every chapter, R627), and address decoding with
aliasing (R619, R620). -/

namespace Sys2Proof.Machine

/-- The blocks of R626. -/
inductive Block
  | top | hif | mem | fen | vlt | mtr | prb | bpm | bsn | lat | sch | wlk | mce | srv | gov | trc | aux
  | net | netq | cry | qmg | riq | cmp | dcp | dma | win | cst | rch
  deriving DecidableEq, Repr

abbrev pgTOP : Nat := 0x000
abbrev pgHIF : Nat := 0x001
abbrev pgMEM : Nat := 0x002
abbrev pgFEN : Nat := 0x003
abbrev pgVLT : Nat := 0x004
abbrev pgMTR : Nat := 0x005
abbrev pgPRB : Nat := 0x006
abbrev pgBPM : Nat := 0x007
abbrev pgBSN : Nat := 0x008
abbrev pgLAT : Nat := 0x009
abbrev pgSCH : Nat := 0x00A
abbrev pgWLK : Nat := 0x00B
abbrev pgMCE : Nat := 0x00C
abbrev pgSRV : Nat := 0x00D
abbrev pgGOV : Nat := 0x00E
abbrev pgTRC : Nat := 0x00F
abbrev pgAUX : Nat := 0x010
abbrev pgNET (p : Nat) : Nat := 0x020 + p
abbrev pgQP : Nat := 0x022
abbrev pgCRY (i : Nat) : Nat := 0x030 + i
abbrev pgQMG (f : Nat) : Nat := 0x040 + f
abbrev pgRIQ (p : Nat) : Nat := 0x080 + p
abbrev pgCMP (i : Nat) : Nat := 0x0C0 + i
abbrev pgDCP (i : Nat) : Nat := 0x0E0 + i
abbrev pgDMA (n : Nat) : Nat := 0x100 + n
abbrev pgWIN (f : Nat) : Nat := 0x110 + f
abbrev pgCST (k : Nat) : Nat := 0x1F8 + k
abbrev pgRCH (c : Nat) : Nat := 0x200 + c

/-- Lane groups and data channels of a variant (R1, R2). -/
def laneGroups (v : Variant) : Nat := match v with | .ac => 8 | .hc => 4
def channels (v : Variant) : Nat := match v with | .ac => 256 | .hc => 128

/-- Block and instance of a page index; none is an unimplemented page (R620, R621, R624, R626). -/
def pageBlock (v : Variant) (i : Nat) : Option (Block × Nat) :=
  if i ≤ 0x010 then
    ([Block.top, .hif, .mem, .fen, .vlt, .mtr, .prb, .bpm, .bsn, .lat, .sch, .wlk, .mce, .srv, .gov, .trc,
      .aux][i]?).map (·, 0)
  else if 0x020 ≤ i ∧ i ≤ 0x021 then some (.net, i - 0x020)
  else if i = 0x022 then some (.netq, 2)
  else if 0x030 ≤ i ∧ i ≤ 0x03B then some (.cry, i - 0x030)
  else if 0x040 ≤ i ∧ i ≤ 0x07F then some (.qmg, i - 0x040)
  else if 0x080 ≤ i ∧ i ≤ 0x0BF then some (.riq, i - 0x080)
  else if 0x0C0 ≤ i ∧ i ≤ 0x0DF then some (.cmp, i - 0x0C0)
  else if 0x0E0 ≤ i ∧ i ≤ 0x0FF then some (.dcp, i - 0x0E0)
  else if 0x100 ≤ i ∧ i ≤ 0x10F then some (.dma, i - 0x100)
  else if 0x110 ≤ i ∧ i ≤ 0x14F then some (.win, i - 0x100)
  else if 0x1F8 ≤ i ∧ i < 0x1F8 + laneGroups v then some (.cst, i - 0x1F8)
  else if 0x200 ≤ i ∧ i < 0x200 + channels v then some (.rch, i - 0x200)
  else none

/-- Block codes of R626. -/
def blockCode : Block → Nat
  | .top => 0x01 | .hif => 0x02 | .mem => 0x03 | .fen => 0x04 | .vlt => 0x05 | .mtr => 0x06 | .prb => 0x07
  | .bpm => 0x08 | .bsn => 0x09 | .lat => 0x0A | .sch => 0x0B | .wlk => 0x0C | .mce => 0x0D | .srv => 0x0E
  | .gov => 0x0F | .trc => 0x10 | .aux => 0x11 | .net => 0x12 | .netq => 0x12 | .cry => 0x13 | .qmg => 0x14
  | .riq => 0x15 | .cmp => 0x16 | .dcp => 0x17 | .dma => 0x18 | .win => 0x18 | .cst => 0x19 | .rch => 0x1A

/-- Interrupt group of a block (R626). -/
def irqGroup : Block → Nat
  | .top => 0 | .hif => 0 | .mem => 1 | .fen => 1 | .vlt => 2 | .mtr => 2 | .prb => 2 | .bpm => 6 | .bsn => 6
  | .lat => 9 | .sch => 9 | .wlk => 12 | .mce => 13 | .srv => 13 | .gov => 14 | .trc => 15 | .aux => 13
  | .net => 8 | .netq => 8 | .cry => 5 | .qmg => 3 | .riq => 4 | .cmp => 5 | .dcp => 5 | .dma => 7 | .win => 7
  | .cst => 10 | .rch => 11

/-- The blocks of the record-side domain, which a record-side restart resets (R584, R626). -/
def recordSideBlock : Block → Bool
  | .mem | .fen | .vlt | .mtr | .bpm | .bsn | .cry | .riq | .cmp | .dcp | .dma | .win => true
  | .top | .hif | .prb | .lat | .sch | .wlk | .mce | .srv | .gov | .trc | .aux | .net | .netq | .qmg | .cst | .rch => false

/-- One row of a register table: `n` registers from `first`, `step` bytes apart, with the bits each
access code governs (R22). `hld` rows are counters; a `pair` row has its high word at the next offset. -/
structure RegRow where
  first : Nat
  n     : Nat := 1
  step  : Nat := 4
  rw    : Word := 0
  live  : Word := 0
  w1    : Word := 0
  grd   : Word := 0
  wo    : Bool := false
  hld   : Bool := false
  pair  : Bool := false
  own   : Bool := false          -- written by a row of its own in the opcode table
  resv  : Bool := false          -- a register of code RW whose bits are all reserved (R366)
  reset : Word := 0
  deriving DecidableEq, Repr

abbrev m32 : Word := 0xFFFFFFFF

/-- Rows of common shapes: RW, LIVE, WO with its own command, RO, counter. -/
def rRW (o : Nat) (m r : Word) : RegRow := { first := o, rw := m, reset := r }
def rLV (o : Nat) (m r : Word) : RegRow := { first := o, live := m, reset := r }
def rWO (o : Nat) : RegRow := { first := o, wo := true, own := true }
def rRO (o : Nat) (n : Nat := 1) : RegRow := { first := o, n := n }
def rCT (o : Nat) (n : Nat := 1) : RegRow := { first := o, n := n, hld := true }
def rCP (o : Nat) : RegRow := { first := o, hld := true, pair := true }
def rGR (o : Nat) (m : Word) (n step : Nat) : RegRow := { first := o, n := n, step := step, grd := m, own := true }

/-- A loop's configuration (R262) with its FE_TIME, FE_LIM and SETPT resets (R248, R262). -/
def loopRows (n : Nat) (feT feL sp : Word) : List RegRow :=
  let b := 0x100 + 0x80 * n
  [ { first := b, n := 4, rw := 0, live := m32, own := true },                      -- KP KI KD KF, bank A
    { first := b + 0x10, live := 0xFFFF001F, own := true },                         -- SHAPE
    { first := b + 0x14, live := m32, own := true },                                -- ILIM
    { first := b + 0x18, live := m32, reset := 0x7FFF8001, own := true },           -- OLIM
    { first := b + 0x20, n := 4, live := m32, own := true },                        -- bank B
    { first := b + 0x30, live := 0xFFFF001F, own := true },
    { first := b + 0x34, live := m32, own := true },
    { first := b + 0x38, live := m32, reset := 0x7FFF8001, own := true },
    { first := b + 0x40, live := 1, own := true },                                  -- LCFG
    { first := b + 0x44, rw := 0xFFFF, reset := feT },
    { first := b + 0x48, rw := m32, reset := feL },
    { first := b + 0x4C, live := if n = 0 ∨ n = 2 then 0 else m32, reset := sp } ]

/-- The registers of a block, beside the common ones and CNTCLR (R627). -/
def blockRows : Block → List RegRow
  | .top =>
    [ rRW 0x100 0x1FFFF 2000, rWO 0x104, rLV 0x108 m32 0, rWO 0x10C, rLV 0x110 m32 0, rLV 0x114 m32 0,
      rLV 0x118 m32 0, rWO 0x11C, rWO 0x120, rWO 0x124, rLV 0x128 0x1FFFFC0 0,
      { first := 0x130, w1 := 0x7FFFFC3, own := true },
      rRO 0x600 7, rRO 0x620, rRO 0x640, rCT 0xA00 5 ]
  | .hif => [ rRO 0x600 4, rCT 0xA00 3 ]
  | .mem =>
    [ rRW 0x100 7 7, rRW 0x104 0xFFFF 3600, rRW 0x108 0xFFFF 600, rRW 0x10C m32 0x00181004,
      rRW 0x110 0x00FF013F 0x00640100, rLV 0x114 0xF 0, rLV 0x118 m32 0, rLV 0x11C m32 0, rWO 0x120, rWO 0x124,
      rLV 0x128 0x3F 0, rRO 0x600 7, rRO 0x620 3, rRO 0x640 16, rRO 0x680 2, rCT 0xA00 10 ]
  | .fen => [ rWO 0x100, rWO 0x104, rRO 0x600 6, rRO 0x620 11, rRO 0x660 2, rCT 0xA00 3, rGR 0xE00 0xFFFF 1 4 ]
  | .vlt => [ rLV 0x100 0xFFFF00FF 0, rLV 0x104 m32 0, rLV 0x108 0xFFFF 0, rWO 0x10C, rRO 0x600 10, rCT 0xA00 8 ]
  | .mtr =>
    [ { first := 0x100, live := 0xFFC, own := false }, rWO 0x104, rWO 0x108, rRW 0x10C 0x1F 0, rLV 0x110 0x3F 0,
      rRO 0x600 5, rRO 0x700 64, rCP 0xA00, rCP 0xA08, rCP 0xA10, rCP 0xA18, rCP 0xA20, rCP 0xA28, rCP 0xA30,
      rCP 0xA38, rCP 0xA40 ]
  | .prb =>
    [ { first := 0x100, n := 16, live := 0xFFF, reset := 0xF00 }, rLV 0x140 0xF77 0, rRO 0x600, rRO 0x610 12,
      rCT 0xA00 2, { first := 0xE00, n := 23, grd := m32 },
      { first := 0xE5C, grd := m32, own := true } ]
  | .bpm =>
    [ rRW 0x100 0xFFFF 2048, rRW 0x104 0xFFFF 768, rRW 0x108 0xFFFF 256, rRW 0x10C 0xFFFF 8, rRW 0x110 0xFFFF 1,
      rRW 0x120 0xFF 16, rLV 0x124 0x3F 0, { first := 0x200, n := 64, live := 0x7FF, reset := 16, own := true },
      rRO 0x600 5, rRO 0x620 3, rRO 0x630, rRO 0x700 100, rCT 0xA00 5 ]
  | .bsn =>
    [ rLV 0x100 0x1FFF 0, { first := 0x200, n := 64, live := 0x1FFF, own := true }, rRO 0x600 3, rRO 0x620 7,
      rRO 0x700 64, rCT 0xA00 4, rCP 0xA10 ]
  | .lat => [ rRW 0x100 1 1, rWO 0x104, rLV 0x108 0x1FF 0, rRO 0x600 5, rRO 0x640 10, rCT 0xA00 5 ]
  | .sch => [ rLV 0x100 1 0, rLV 0x104 m32 0, rWO 0x108, rWO 0x10C, rRO 0x600 4, rRO 0x610 12, rRO 0x640 12, rCT 0xA00 3 ]
  | .wlk =>
    [ rRW 0x100 0xFF7 0x342, rRW 0x104 0x10F 0x108, { first := 0x120, n := 8, live := m32 },
      rRW 0x140 0x133F0F7F 0x1014042A, rRW 0x144 0xFF 64, rLV 0x148 0xFF 0, rLV 0x14C 0xFFFF 0, rLV 0x150 0xF 0,
      { first := 0x180, n := 32, live := m32 }, rRO 0x600 4, rRO 0x620 8, rRO 0x640 3, rCT 0xA00 13, rCP 0xA40,
      rCT 0xA48 3 ]
  | .mce =>
    loopRows 0 2000 50000 0 ++ loopRows 1 2000 200 800 ++ loopRows 2 1000 2000000 0 ++ loopRows 3 500 50000 0 ++
    loopRows 4 10000 500 0 ++
    [ rRW 0x380 m32 0x07D00064, rRW 0x384 m32 0x01F40032, rRW 0x388 0xFFFF 100, rRW 0x38C 0xFFFFFF 0x020D05,
      rRW 0x390 m32 2000000, rRW 0x394 0xFF 15, rRW 0x398 0x1FFFFF 0x000401F4,
      { first := 0x3A0, live := 0xF1F1F1F3, reset := 0x81010011, own := true },
      { first := 0x3A4, live := 0x1FFF1FFF, reset := 0x01000800, own := true },
      { first := 0x3A8, live := 0x0FFFFFFF, reset := 0x01004040 },
      rLV 0x3C0 0x3FFFFFF 0, rLV 0x3C4 0x1F017F 0, rWO 0x3C8,
      rRO 0x600 6, rRO 0x620 6, rRO 0x640 6, rRO 0x660 6, rRO 0x680 6, rRO 0x6A0 5, rCT 0xA00 4 ]
  | .srv =>
    [ rRW 0x100 0x0FFF0FFF 0x00500078, rRW 0x104 0x0FFF0FFF 0x00C80428,
      { first := 0x108, live := 1, own := true }, rRO 0x600 4, rCT 0xA00 9 ]
  | .gov =>
    [ { first := 0x100, w1 := 0x3FFF }, { first := 0x104, w1 := m32 }, { first := 0x108, w1 := m32 },
      { first := 0x10C, w1 := 0xFFFF }, { first := 0x110, w1 := 0xFF }, { first := 0x114, w1 := 0xFFFF },
      { first := 0x118, w1 := 0xFF }, { first := 0x11C, w1 := m32 }, rWO 0x124, rRO 0x600, rGR 0xE00 m32 1 4 ]
  | .trc =>
    [ { first := 0x100, n := 4, step := 0x20, rw := 0x00F1FF7F }, { first := 0x104, n := 4, step := 0x20, live := 0x17 },
      { first := 0x108, n := 4, step := 0x20, live := m32 },
      { first := 0x10C, n := 4, step := 0x20, rw := 0x3FFF, reset := 8192 },
      { first := 0x110, n := 4, step := 0x20, live := 3, own := true },
      { first := 0x600, n := 4, step := 0x10 }, { first := 0x604, n := 4, step := 0x10 },
      { first := 0x608, n := 4, step := 0x10 }, rCT 0xA00 4 ]
  | .aux =>
    [ rRW 0x100 0x03FFFFFF 0x00644E20, rRW 0x104 0xFFFF 0, rRW 0x108 0xFFFF 0, rRW 0x10C m32 0, rRO 0x600 8 ]
  | .net =>
    [ rRW 0x100 0x0FFF1F03 0x600, rRW 0x104 m32 0, rRW 0x108 0xFFFF 0, rRW 0x10C 0x3FFF 9216, rRW 0x110 0x3F3F 0x301A,
      rRW 0x114 0xFFFFFF03 0x000A3203, rRW 0x118 m32 0x00370032, rRW 0x11C 0xFFFF 1000,
      { first := 0x140, n := 64, rw := m32 }, rRO 0x600, rCP 0xA00, rCP 0xA08, rCT 0xA10 8 ]
  | .netq =>
    [ rLV 0x100 0x3FF 0, rLV 0x104 0x3FFFFFFF 0, rLV 0x108 0xFF1FFFFF 0, rLV 0x10C 0xFFFFFF 0, rLV 0x110 0xFFFFFF 0,
      rLV 0x114 0xFFFFFF 0, rLV 0x118 m32 0, rLV 0x11C 0xFFFF 0, { first := 0x120, n := 4, live := m32 }, rWO 0x130,
      rRO 0x600 3, rRO 0x640 32, rCT 0xA00 7 ]
  | .cry => [ rRO 0x600 2, rCT 0xA00 2, rCP 0xA08, rCT 0xA10 2 ]
  | .qmg =>
    [ { first := 0x020, n := 32, wo := true, own := true }, rWO 0x0A0, rLV 0x100 m32 0, rLV 0x104 m32 0,
      rLV 0x108 m32 0, rLV 0x10C m32 0, rLV 0x110 0x0FFF0FFF 0, rLV 0x114 0xFFFF013F 0, rLV 0x118 0xF 0,
      rRO 0x600 5, rRO 0x620 4, rCT 0xA00 3 ]
  | .riq =>
    [ rRW 0x100 0x07FF03FF 0x00100000, rRW 0x104 0x1FF 8, rRW 0x108 0x3FFF 64, rLV 0x10C 0xFFFF 200,
      rRW 0x110 0xFFFF 50, rWO 0x114, rRO 0x600 5, rCT 0xA00 2, rCP 0xA08, rCT 0xA10 6 ]
  | .cmp => [ rRW 0x100 0xF 3, rRO 0x600, rCT 0xA00, rCP 0xA04, rCP 0xA0C ]
  | .dcp => [ { first := 0x100, resv := true }, rRO 0x600, rCT 0xA00, rCP 0xA04, rCP 0xA0C, rCT 0xA14 ]
  | .dma =>
    [ rRW 0x100 0xFFFFFF7F 0x06400000, rRW 0x104 0xFFFF 4096,
      { first := 0x108, live := 0x701FF, reset := 0x60010, own := true }, rLV 0x10C m32 0, rLV 0x110 m32 0,
      rLV 0x114 7 0, rWO 0x118, { first := 0x11C, live := 0xFFFFFF, own := true }, rRO 0x600 8, rCP 0xA00,
      rCT 0xA08 3 ]
  | .win =>
    [ rGR 0xE00 0xFFFFF000 8 16, rGR 0xE04 m32 8 16, rGR 0xE08 0xFFFFFFF 8 16, rGR 0xE0C 3 8 16, rRO 0x600 3,
      rCT 0xA00 2 ]
  | .cst =>
    [ { first := 0x100, rw := 0xF3, live := 0x300, reset := 0x43, own := true }, rRW 0x104 0x1FFFFFF 0x1458555,
      rRW 0x108 0x1FFFFFF 0x1458555, rRW 0x10C 0x10F 0x104, { first := 0x140, n := 8, rw := 0xFFFFFFC0 }, rRO 0x600 4,
      rCT 0xA00 7 ]
  | .rch =>
    [ rRW 0x100 3 2, rRW 0x104 m32 0x40000001, { first := 0x108, rw := 0xFFFFF, live := 0x3000000, reset := 0x8C866 },
      rRW 0x10C 0xFFFF 0xC000, rRW 0x110 0xF 3, rRW 0x114 0xF13F 0x8128, rRW 0x118 0x3FFF 0, rRW 0x11C 0x3FFF 0,
      rLV 0x120 0x7F 12, { first := 0x140, n := 7, rw := 0xFFF }, rRW 0x15C 0xFFF 0x400,
      { first := 0x160, n := 8, rw := 0xFFF }, rRO 0x600 5, rRO 0x640 16, rCT 0xA00 19 ]

/-- Offset of the counter-clear register (R600). -/
def cntclrOff (b : Block) : Nat := if b = .qmg then 0x0A4 else 0x020

/-- All rows of a block, CNTCLR among them. -/
def rowsOf (b : Block) : List RegRow := rWO (cntclrOff b) :: blockRows b

def RegRow.has (r : RegRow) (o : Nat) : Bool :=
  if r.pair then o = r.first ∨ o = r.first + 4
  else r.first ≤ o ∧ (o - r.first) % r.step = 0 ∧ (o - r.first) / r.step < r.n

/-- The highest offset a row implements. -/
def RegRow.last (r : RegRow) : Nat := if r.pair then r.first + 4 else r.first + r.step * (r.n - 1)

/-- The row that implements an offset, if any. -/
def rowAt (b : Block) (o : Nat) : Option RegRow := (rowsOf b).find? (·.has o)

/-- The regions of R598 above the common one: first offset and end. -/
def regionOf (o : Nat) : Nat × Nat :=
  if o < 0x100 then (0x020, 0x100) else if o < 0x600 then (0x100, 0x600) else if o < 0xA00 then (0x600, 0xA00)
  else if o < 0xE00 then (0xA00, 0xE00) else if o < 0xF00 then (0xE00, 0xF00) else (0xF00, 0x1000)

/-- The smallest power of two that is at least `n`, for n up to 4,096. -/
def pow2Ge (n : Nat) : Nat :=
  ([4, 8, 16, 32, 64, 128, 256, 512, 1024, 2048].find? (n ≤ ·)).getD 4096

/-- The implemented span of the region that starts at `lo` (R619); none when it holds no register. -/
def spanOf (b : Block) (lo hi : Nat) : Option Nat :=
  let xs := ((rowsOf b).filter (fun r => lo ≤ r.first ∧ r.first < hi)).map (fun r => r.last)
  if xs.isEmpty then none else some (pow2Ge (4 + (xs.foldl max 0 - lo)))

/-- The register an aligned offset reaches: the offset after aliasing, none for a hole (R619).
An offset of the complement region answers the offset of the complement word. -/
def decodeOff (b : Block) (o : Nat) : Option Nat :=
  if o < 0x020 then some o
  else if 0xF00 ≤ o then
    match spanOf b 0xE00 0xF00 with
    | none => none
    | some p => let x := (o - 0xF00) % p
      if (rowAt b (0xE00 + x)).isSome then some (0xF00 + x) else none
  else
    let (lo, hi) := regionOf o
    match spanOf b lo hi with
    | none => none
    | some p => let o' := lo + (o - lo) % p
      if (rowAt b o').isSome then some o' else none

/-- Key of a register in the tables of `RegState`. -/
abbrev rkey (page off : Nat) : Nat := 4096 * page + off

/-- Reset value of a register word: its row's value, RING.BASE being 16 × p (R364); RSTCAUSE shows the power-on reset
(R595); zero elsewhere. -/
def regReset (key : Nat) : Word :=
  let page := key / 4096
  let off := key % 4096
  if key = 0x608 then 1 else
  match pageBlock .ac page with
  | none => 0
  | some (b, i) =>
    match rowAt b off with
    | none => 0
    | some r => if b = .riq ∧ off = 0x100 then r.reset + BitVec.ofNat 32 (16 * i) else r.reset

/-- Read the stored word of a register. -/
def rget (s : State) (page off : Nat) : Word := sget (regReset (rkey page off)) s.rf.regs (rkey page off)

/-- Store the word of a register, with no access rule applied. -/
def rset (s : State) (page off : Nat) (v : Word) : State :=
  { s with rf.regs := sset (regReset (rkey page off)) s.rf.regs (rkey page off) v }

/-- A field of a register. -/
def rfld (s : State) (page off hi lo : Nat) : Nat := bits (rget s page off) hi lo

/-- A bit of a register. -/
def rbit (s : State) (page off i : Nat) : Bool := bit (rget s page off) i

/-- CTL.EN of a page (R599). -/
def pageEn (s : State) (page : Nat) : Bool := rbit s page 0x004 0

end Sys2Proof.Machine
end

