-- ==== Sys2Proof/Machine/Ops.lean ====
section
/-! DEFINITION. Operations every family shares: events with their sequence numbers and the event log
(R599, R611 to R613, R558), counters (R172, R614), outputs, security events, free values, and the
breaking of a pending guarded pair (R617). -/

namespace Sys2Proof.Machine

/-- Answer a next state. -/
abbrev Res := Host.Outcome State Fault Refusal

/-- Issue something to the outside. -/
def emit (o : Out) (s : State) : State := { s with out := o :: s.out }

/-- The block drives its outputs: SYSRST_N is high and every rail in specification (R641). -/
def driving (s : State) : Bool := s.pins.supplies && s.pins.sysrstN

/-- Drive output pins; otherwise they keep the states of R641. -/
def drive (f : Pins → Pins) (s : State) : State := if driving s then { s with pins := f s.pins } else s

/-- Draw the next free value (log 3). -/
def freeVal (s : State) : Nat := Config.freeValue s.clk.free

/-- Count a drawn free value. -/
def freeNext (s : State) : State := { s with clk.free := s.clk.free + 1 }

/-- Add to a 32-bit saturating counter (R172). -/
def bump (page off n : Nat) (s : State) : State :=
  { s with rf.cnt := smod 0 s.rf.cnt (rkey page off) (fun c => min (c + n) 0xFFFFFFFF) }

/-- Add to a 64-bit counter. -/
def bump64 (page off n : Nat) (s : State) : State :=
  { s with rf.cnt := smod 0 s.rf.cnt (rkey page off) (fun c => min (c + n) 0xFFFFFFFFFFFFFFFF) }

/-- The events of one page. -/
def evOf (s : State) (page : Nat) : EvPage := sget {} s.rf.ev page

/-- The interrupt condition of a page (R613). -/
def irqOn (s : State) (page : Nat) : Bool := (evOf s page).pend &&& (rget s page 0x014).setWidth 16 ≠ 0

/-- Keep the stamps of pending bits within the window of R612. -/
def restamp (seq : BitVec 16) (m : Sparse (BitVec 16)) (pend : BitVec 16) : Nat → Sparse (BitVec 16)
  | 0 => m
  | b + 1 =>
    let st := sget 0 m b
    restamp seq (if pend.getLsbD b ∧ (seq - st).toNat > 32767 then sset 0 m b (seq - 32767#16) else m) pend b

/-- One setting of an event bit on its page (R611, R612). -/
def setEv (bitNo : Nat) (e : EvPage) : EvPage :=
  let seq := e.seq + 1
  let pend := e.pend ||| BitVec.ofNat 16 (2 ^ bitNo)
  { pend := pend, seq := seq, stamps := restamp seq (sset 0 e.stamps bitNo seq) pend 16 }

/-- Record a setting in the event log, newest first: coalesced into the entry of the same bit made
less than 1 ms before (500,000 counts of the 500 MHz counter), a new entry otherwise (R558). -/
def logEv (page bitNo : Nat) (seq : BitVec 16) (s : State) : State :=
  match s.rf.evlog.find? (fun e => e.page = page ∧ e.bit = bitNo) with
  | some e =>
    if s.clk.ctr500.toNat < e.ctr.toNat + 500000 then
      { s with rf.evlog := s.rf.evlog.map (fun x => if x = e then
          { x with coalesced := true, count := min (x.count + 1) 65535 } else x) }
    else logNew s
  | none => logNew s
where
  logNew (s : State) : State :=
    let ent : EvEntry := { ctr := s.clk.ctr500, page := page, bit := bitNo, coalesced := false, seq := seq, count := 1 }
    if s.rf.evlog.length < 16384 then { s with rf.evlog := ent :: s.rf.evlog }
    else bump pgMEM 0xA24 1 { s with rf.evlog := (ent :: s.rf.evlog).take 16384, rf.evOver := s.rf.evOver + 1 }

/-- A function's MSI-X write of a vector: its address and data come from the vector's table entry (R373, R439). -/
def signal (f : Fin 64) (vec : Nat) (s : State) : State :=
  let g := fun o => sget 0 s.rf.msix (4096 * f.val + 16 * vec + o)
  emit (.msix f vec (g 4 ++ g 0) (g 8)) s

/-- The polder or virtual function a QMG page belongs to signals MSI-X vector 0 when its interrupt
condition turns on (R613). -/
def msixOnRise (was : Bool) (page : Nat) (s : State) : State :=
  if 0x040 ≤ page ∧ page < 0x080 ∧ was = false ∧ irqOn s page then
    signal (Fin.ofNat 64 (page - 0x040)) 0 s
  else s

/-- Set an event bit of a page. -/
def raise (page bitNo : Nat) (s : State) : State :=
  let was := irqOn s page
  let e := setEv bitNo (evOf s page)
  msixOnRise was page (logEv page bitNo e.seq { s with rf.ev := sset {} s.rf.ev page e })

/-- A security event of any block (R491, R583, R628, R668): counted and raised on VLT. -/
def secEvent (s : State) : State := raise pgVLT 3 (bump pgVLT 0xA1C 1 s)

/-- Event bit of GUARD_FAIL on the pages that hold guarded registers (R268, R453, R564, R670). -/
def guardFailBit : Block → Option Nat
  | .gov => some 5 | .fen => some 5 | .prb => some 5 | .win => some 5 | _ => none

/-- Event bits of CFG_REJECT and CFG_WHILE_EN (R601: where a block's table defines them). -/
def cfgRejectBit : Block → Option Nat
  | .rch => some 0
  | .top | .mem | .fen | .mtr | .prb | .bpm | .bsn | .wlk | .mce | .srv | .aux | .net | .netq | .riq | .cmp
  | .dcp | .dma | .win | .cst => some 8
  | _ => none

def cfgWhileEnBit : Block → Option Nat
  | .rch => some 1
  | .top | .mem | .fen | .mtr | .vlt | .prb | .bpm | .bsn | .lat | .sch | .wlk | .mce | .srv | .aux | .net | .netq
  | .cry | .riq | .cmp | .dcp | .dma | .win | .cst => some 9
  | _ => none

/-- Event bit of CREST_RELOCK on the pages that hold W1 or RWL fields (R583). -/
def relockBit : Block → Option Nat
  | .top => some 5 | .gov => some 4 | _ => none

/-- Raise a bit that a page may not define (R601). -/
def raiseOpt (page : Nat) : Option Nat → State → State
  | some b, s => raise page b s
  | none, s => s

def blockOf (s : State) (page : Nat) : Option Block := (pageBlock s.variant page).map (·.1)

/-- A write reached a page: a guarded value pending there is discarded with GUARD_FAIL (R617). -/
def touchPage (page : Nat) (s : State) : State :=
  match sget none s.rf.guard page with
  | none => s
  | some _ =>
    let s := { s with rf.guard := sset none s.rf.guard page none }
    raiseOpt page ((blockOf s page).bind guardFailBit) s

/-- A write to an RW register while EN is 1 (R605). -/
def cfgWhileEn (page : Nat) (s : State) : State := raiseOpt page ((blockOf s page).bind cfgWhileEnBit) s

/-- Kinds of access fault (R623). -/
inductive AfKind | width | hole | xdom | unaligned | unimplemented
  deriving DecidableEq, Repr

def afCode : AfKind → Nat
  | .width => 1 | .hole => 2 | .xdom => 3 | .unaligned => 4 | .unimplemented => 5

/-- AFAULT.SRC of a requester (R623). -/
def srcCode : Requester → Nat
  | .pf0 => 0 | .vf _ => 1 | .core _ => 2 | .dma _ => 3 | .dumpEngine => 4 | .vault => 5

/-- Record an access fault and raise it on a page (R602, R623). -/
def accessFault (r : Requester) (kind : AfKind) (write : Bool) (idx off evPage : Nat) (s : State) : State :=
  let w := 4 * (off % 4096 / 4) + 4096 * (idx % 1024) + afCode kind * 2 ^ 22 + srcCode r * 2 ^ 25 + b2n write * 2 ^ 31
  raise evPage (if kind = .xdom then 15 else 14) (bump pgTOP 0xA10 1 (rset s pgTOP 0x640 (BitVec.ofNat 32 w)))

/-- Whether a requester is PF0's PCIe side, which alone may write the registers of R628. -/
def isPf0 (r : Requester) : Bool := r = .pf0

/-- Free-running device time in microseconds, for the times the logs record. -/
def nowUs (s : State) : Nat := s.clk.devSec * 1000000 + s.clk.devUs

end Sys2Proof.Machine
end

