-- ==== Sys2Proof/Machine/LinkBlocks.lean ====
section
/-! DEFINITION. The blocks of the Head Write Link's lanes (R655 to R660). -/

namespace Sys2Proof.Machine

/-- The scrambler x^58 + x^39 + 1: each bit sent is the bit given with the 39th and the 58th bit sent before it. The state holds the
bits sent, the last in bit 0 (R655). -/
def scramble : BitVec 58 → List Bool → List Bool
  | _, [] => []
  | st, b :: r =>
    let o := b ^^ st.getLsbD 38 ^^ st.getLsbD 57
    o :: scramble ((st <<< 1) ||| BitVec.ofNat 58 (b2n o)) r

/-- What a receiver in the same state takes from the scrambled bits. -/
def descramble : BitVec 58 → List Bool → List Bool
  | _, [] => []
  | st, o :: r => (o ^^ st.getLsbD 38 ^^ st.getLsbD 57) :: descramble ((st <<< 1) ||| BitVec.ofNat 58 (b2n o)) r

/-- Payload bits in the order they are sent: bit 0 first (R655). -/
def payloadBits (w : BitVec 64) : List Bool := (List.range 64).map w.getLsbD

/-- A control block: its type, then its content (R655). -/
def controlBlock (btype content : Nat) : BitVec 64 := BitVec.ofNat 64 (btype + 2 ^ 8 * content)

/-- The control blocks of R657. -/
def alignBlock (lane : Nat) (tcnt : Word) : BitVec 64 := controlBlock 0x2D (lane + 2 ^ 4 * tcnt.toNat)
def timeBlock (tstamp : Word) (period : BitVec 24) : BitVec 64 := controlBlock 0x33 (tstamp.toNat + 2 ^ 32 * period.toNat)
def cwBlock (atime : BitVec 24) (word chan value : Nat) : BitVec 64 :=
  controlBlock 0x4B (atime.toNat + 2 ^ 24 * (value % 65536) + 2 ^ 40 * (chan % 256) + 2 ^ 48 * (word % 256))

/-- Data block `b` of a lane whose channel `j` is to write `bitOf j n` as bit n (R656). -/
def dataBlock (bitOf : Nat → Nat → Bool) (b : Nat) : BitVec 64 :=
  BitVec.ofNat 64 ((List.range 64).foldr (fun n acc => b2n (bitOf (n % 16) (4 * b + n / 16)) + 2 * acc) 0)

/-- Send blocks on a lane, their sync header 0b01 for data and 0b10 for control. IDLE blocks go out wherever no other does (R657):
how many went before, and so the scrambler's state, is free (log 103). -/
def sendBlocks (lane : Nat) (head : BitVec 2) (ps : List (BitVec 64)) (s : State) : State :=
  emit (.blocks lane head ps (scramble (Config.scramblerState s.hwl.sent) (ps.flatMap payloadBits)))
    { s with hwl.sent := s.hwl.sent + 1 }

end Sys2Proof.Machine
end

