-- ==== Sys2Proof/Machine/Operands.lean ====
section
/-! DEFINITION. The operand forms of the host commands: the fields of a submission entry (R385, R390),
their ranges (R388), scatter lists (R386), and the status values of R419. -/

namespace Sys2Proof.Machine

abbrev stSUCCESS : BitVec 16 := 0x0000
abbrev stINDEX_CONFLICT : BitVec 16 := 0x0001
abbrev stFILEMARK : BitVec 16 := 0x0002
abbrev stUNSUPPORTED_RO : BitVec 16 := 0x0003
abbrev stINVALID_OPCODE : BitVec 16 := 0x0101
abbrev stINVALID_FIELD : BitVec 16 := 0x0102
abbrev stNOT_PERMITTED : BitVec 16 := 0x0103
abbrev stHOST_WINDOW : BitVec 16 := 0x0104
abbrev stSGL_INVALID : BitVec 16 := 0x0105
abbrev stLENGTH_MISMATCH : BitVec 16 := 0x0106
abbrev stBUFFER_SMALL : BitVec 16 := 0x0107
abbrev stTIME_BACKWARD : BitVec 16 := 0x0108
abbrev stIMAGE_INVALID : BitVec 16 := 0x0109
abbrev stNOT_LOADED : BitVec 16 := 0x010A
abbrev stALREADY_LOADED : BitVec 16 := 0x010B
abbrev stUNRECOVERABLE_READ : BitVec 16 := 0x0201
abbrev stGROUP_FAIL : BitVec 16 := 0x0202
abbrev stFORMAT_ERR : BitVec 16 := 0x0203
abbrev stINTAKE_POISON : BitVec 16 := 0x0204
abbrev stLOAD_FAIL : BitVec 16 := 0x0205
abbrev stNO_PARTITION : BitVec 16 := 0x0301
abbrev stNOT_OWNER : BitVec 16 := 0x0302
abbrev stEND_OF_DATA : BitVec 16 := 0x0303
abbrev stBEGIN_OF_PARTITION : BitVec 16 := 0x0304
abbrev stPARTITION_FULL : BitVec 16 := 0x0305
abbrev stLOGICAL_FULL : BitVec 16 := 0x0306
abbrev stLRN_GAP : BitVec 16 := 0x0307
abbrev stNOT_OPEN : BitVec 16 := 0x0308
abbrev stWRITER_BOUND : BitVec 16 := 0x0309
abbrev stREAD_ONLY : BitVec 16 := 0x030A
abbrev stPARTITION_OPEN : BitVec 16 := 0x030B
abbrev stWRAP_UNAVAILABLE : BitVec 16 := 0x030C
abbrev stPARTITION_EXISTS : BitVec 16 := 0x030D
abbrev stAUTH_FAIL : BitVec 16 := 0x0401
abbrev stNO_KEY : BitVec 16 := 0x0402
abbrev stKEY_REFUSED : BitVec 16 := 0x0403
abbrev stNONCE_STATE_LOST : BitVec 16 := 0x0404
abbrev stNONCE_EXHAUSTED : BitVec 16 := 0x0405
abbrev stKEY_MISMATCH : BitVec 16 := 0x0406
abbrev stQUOTA_EXCEEDED : BitVec 16 := 0x0501
abbrev stFENCED : BitVec 16 := 0x0502
abbrev stBUSY : BitVec 16 := 0x0503
abbrev stACTIVATE_BUSY : BitVec 16 := 0x0504
abbrev stABORTED : BitVec 16 := 0x0601
abbrev stABORTED_BY_RESET : BitVec 16 := 0x0602
abbrev stDEFERRED_LOST : BitVec 16 := 0x0701
abbrev stDEFERRED_FULL : BitVec 16 := 0x0702

/-- "current" in the LRN field (R385). -/
abbrev lrnCurrent : Nat := 0xFFFFFFFFFFFF

/-- `n` bytes of CSPEC from entry offset `o`, as a little-endian number. -/
def csp (e : Sqe) (o n : Nat) : Nat := (e.cspec.toNat >>> (8 * (o - 0x20))) % 2 ^ (8 * n)

/-- The named CSPEC bytes of each opcode: first offset and length (R390). -/
def cspNamed (opc : Nat) : List (Nat × Nat) :=
  match opc with
  | 0x01 => [(0x20, 1)]
  | 0x02 => [(0x20, 16)]
  | 0x03 => [(0x20, 4), (0x28, 8)]
  | 0x04 => [(0x20, 4)]
  | 0x07 => [(0x20, 5)]
  | 0x0A => [(0x20, 32)]
  | 0x0B => [(0x20, 1)]
  | 0x0C => [(0x20, 1), (0x22, 2)]
  | 0x81 => [(0x20, 1)]
  | 0x83 => [(0x20, 25), (0x39, 2)]
  | 0x85 => [(0x20, 16)]
  | 0x86 => [(0x20, 4)]
  | 0x87 => [(0x20, 1)]
  | 0x88 => [(0x20, 1), (0x24, 4)]
  | 0x89 => [(0x20, 2), (0x24, 4)]
  | 0x8A => [(0x20, 12)]
  | _ => []

/-- Unnamed CSPEC bytes are zero (R390). -/
def cspZeros (e : Sqe) : Bool :=
  (List.range 32).all fun i =>
    (cspNamed e.opc.toNat).any (fun r => r.1 ≤ 0x20 + i ∧ 0x20 + i < r.1 + r.2) || csp e (0x20 + i) 1 = 0

def isAdmin (opc : Nat) : Bool := 0x81 ≤ opc ∧ opc ≤ 0x8A
def isHostOp (opc : Nat) : Bool := 0x01 ≤ opc ∧ opc ≤ 0x0C

/-- Commands that name a partition (R390). -/
def namesPart (opc : Nat) : Bool := (0x01 ≤ opc ∧ opc ≤ 0x09) ∨ opc = 0x83 ∨ opc = 0x84

/-- Commands the control cores execute (R389); a READ_RECORDS only where it needs repositioning. -/
def byFirmware (opc : Nat) : Bool := isAdmin opc ∨ opc = 0x01 ∨ opc = 0x06 ∨ opc = 0x07 ∨ opc = 0x09 ∨ opc = 0x0A

/-- Commands with a buffer D, and whether the device reads it (R390). -/
def bufferOf (opc : Nat) : Option Bool :=
  match opc with
  | 0x02 => some true | 0x09 => some true | 0x86 => some true
  | 0x03 => some false | 0x08 => some false | 0x0A => some false | 0x0B => some false | 0x89 => some false
  | _ => none

/-- LRN of an entry, 48 bits. -/
def lrnOf (e : Sqe) : Nat := e.lrn.toNat % 2 ^ 48

/-- The command-specific values lie in the ranges of R390. -/
def cspRanges (e : Sqe) : Bool :=
  match e.opc.toNat with
  | 0x01 => csp e 0x20 1 ≤ 2
  | 0x02 => 1 ≤ csp e 0x20 4 ∧ csp e 0x20 4 ≤ 65535 ∧ (csp e 0x24 4 ≠ 0 ∨ csp e 0x28 8 % 4 = 0)
  | 0x03 => true
  | 0x04 => 1 ≤ csp e 0x20 4 ∧ csp e 0x20 4 ≤ 65535
  | 0x07 => csp e 0x20 4 ≠ 0 ∧ csp e 0x24 1 ≤ 1
  | 0x0B => csp e 0x20 1 ≤ 63
  | 0x0C => csp e 0x20 1 ≤ 15
  | 0x81 => csp e 0x20 1 ≤ 1
  | 0x83 => csp e 0x39 1 ≤ 63 ∧ csp e 0x3A 1 ≤ 1
  | 0x85 => csp e 0x20 1 ≤ 63 ∧ csp e 0x21 1 ≤ 1 ∧ csp e 0x22 1 ≤ 3 ∧ 1 ≤ csp e 0x23 1 ∧ csp e 0x23 1 ≤ 16
  | 0x86 => csp e 0x20 4 % 4096 = 0
  | 0x87 => csp e 0x20 1 ≤ 1
  | 0x88 => csp e 0x20 1 ≤ 1
  | 0x89 => 1 ≤ csp e 0x20 1 ∧ csp e 0x20 1 ≤ 6
  | 0x8A => csp e 0x28 4 < 1000000000
  | _ => true

/-- The generic field check (R385, R388). PART is 0 to 63 where the command names a partition, and 0xFF
where it names none. -/
def fieldsOk (e : Sqe) : Bool :=
  e.flags.toNat ≤ 1 && e.zero5 = 0 && e.zero14 = 0 && e.lrn.toNat < 2 ^ 48 && cspZeros e && cspRanges e &&
  (if namesPart e.opc.toNat then decide (e.part.toNat ≤ 63) else decide (e.part = 0xFF))

/-- DPTR names a scatter list (R385). -/
def usesSgl (e : Sqe) : Bool := bit e.flags 0

/-- A scatter list is well formed (R385, R386). -/
def sglOk (f : Fetch) : Bool :=
  !usesSgl f.sqe ||
  (1 ≤ f.sqe.dlen.toNat && f.sqe.dlen.toNat ≤ 4096 && f.sgl.length = f.sqe.dlen.toNat && f.sqe.daddr.toNat % 16 = 0 &&
   f.sgl.all (fun x => x.len ≠ 0 && x.zero = 0) && (f.sgl.map (·.len.toNat)).sum ≤ 0xFFFFFFFF)

/-- The pieces of the command's buffer, in order: address and length. -/
def bufPieces (e : Sqe) (sgl : List SglEntry) : List (Nat × Nat) :=
  if usesSgl e then sgl.map (fun x => (x.addr.toNat, x.len.toNat)) else [(e.daddr.toNat, e.dlen.toNat)]

/-- Length of the command's buffer (R386). -/
def bufLen (e : Sqe) (sgl : List SglEntry) : Nat := ((bufPieces e sgl).map (·.2)).sum

/-- Spread bytes over the pieces of a buffer, from an offset into it. -/
def scatter : List (Nat × Nat) → Nat → List Byte → List (Nat × List Byte)
  | [], _, _ => []
  | (a, n) :: r, off, bs =>
    if bs = [] then [] else if n ≤ off then scatter r (off - n) bs
    else (a + off, bs.take (n - off)) :: scatter r 0 (bs.drop (n - off))

/-- The 48-bit part of a result. -/
def res64 (n : Nat) : BitVec 64 := BitVec.ofNat 64 n

/-- A submission source's function, for PCIe pages. -/
def srcPolder (s : State) : Src → Fin 64
  | .pcie fn _ => fn
  | .net q => (sget {} s.net.qps q).polder

end Sys2Proof.Machine
end

