-- ==== Sys2Proof/Machine/HostOps.lean ====
section
/-! DEFINITION. Shared operations of the host side: queue pairs and their halts (R380), host windows
(R439), live commands, completion posting in fetch order (R387, R406, R384, R470), openings, and
deferred conditions (R412). -/

namespace Sys2Proof.Machine

/-! ### Fences looked at -/

def fenceCause (s : State) (code : Nat) : Nat := sget 0 s.itg.fences code
def isFenced (s : State) (code : Nat) : Bool := fenceCause s code ≠ 0
def polderFenced (s : State) (p : Nat) : Bool := isFenced s (0x1000 + p)

/-! ### Queue pairs and host windows -/

def pairKey (f : Fin 64) (q : Fin 16) : Nat := 16 * f.val + q.val
def getPair (s : State) (f : Fin 64) (q : Fin 16) : QPair := sget {} s.host.pairs (pairKey f q)
def setPair (f : Fin 64) (q : Fin 16) (p : QPair) (s : State) : State :=
  { s with host.pairs := sset {} s.host.pairs (pairKey f q) p }

def polderOf (s : State) (p : Nat) : PolderSt := sget {} s.host.pol p
def setPolder (p : Nat) (x : PolderSt) (s : State) : State := { s with host.pol := sset {} s.host.pol p x }

/-- A function is enabled (R372). -/
def fnEnabled (s : State) (f : Fin 64) : Bool :=
  if f.val = 0 then s.host.pf0On
  else s.host.vfEnable && f.val ≤ s.host.numVFs.toNat && (polderOf s f.val).enabled && bit (polderOf s f.val).attach 0

/-- Vectors of a function (R373). -/
def vectors (f : Fin 64) : Nat := if f.val = 0 then 64 else 8

/-- Window `i` of a function: base, bytes, read and write permission (R440). -/
def window (s : State) (f i : Nat) : Nat × Nat × Bool × Bool :=
  let g := fun k => rget s (pgWIN f) (0xE00 + 16 * i + 4 * k)
  ((g 0).toNat + (g 1).toNat * 2 ^ 32, (g 2).toNat * 4096, bit (g 3) 0, bit (g 3) 1)

/-- Window `i` covers the byte at `a` for the direction. -/
def winHas (s : State) (f : Nat) (wr : Bool) (a i : Nat) : Bool :=
  let w := window s f i
  decide (w.1 ≤ a) && decide (a < w.1 + w.2.1) && (if wr then w.2.2.2 else w.2.2.1)

/-- A request lies wholly inside one enabled window that permits its direction (R439). -/
def winOk (s : State) (f : Nat) (wr : Bool) (a n : Nat) : Bool :=
  (List.range 8).any fun i => winHas s f wr a i && decide (a + n ≤ (window s f i).1 + (window s f i).2.1)

/-- A range that may span adjacent windows, since requests never cross 4 KiB (R442). -/
def rangeOk (s : State) (f : Nat) (wr : Bool) (a n : Nat) : Bool := go 9 a
where
  go : Nat → Nat → Bool
    | 0, _ => false
    | fuel + 1, p =>
      if a + n ≤ p then true
      else match (List.range 8).find? (winHas s f wr p ·) with
        | none => false
        | some i => go fuel ((window s f i).1 + (window s f i).2.1)

/-- Record a request refused by R439: kind 0 channel, 1 queue fetch, 2 completion post, 3 command data (R452). -/
def winRefused (f a : Nat) (wr : Bool) (kind chan : Nat) (s : State) : State :=
  let s := rset s (pgWIN f) 0x600 (BitVec.ofNat 32 a)
  let s := rset s (pgWIN f) 0x604 (BitVec.ofNat 32 (a / 2 ^ 32))
  let s := rset s (pgWIN f) 0x608 (BitVec.ofNat 32 (b2n wr + 2 * kind + 16 * chan))
  bump (pgWIN f) 0xA00 1 s

/-- Halt a pair (R380): it fetches nothing and posts nothing more. -/
def haltPair (f : Fin 64) (q : Fin 16) (s : State) : State := setPair f q { getPair s f q with halted := true } s

/-- A queue fetch or completion post refused by the windows halts its pair with WIN_FAULT (R442). -/
def winFaultPair (f : Fin 64) (q : Fin 16) (a : Nat) (wr : Bool) (kind : Nat) (s : State) : State :=
  raise (pgWIN f.val) 0 (haltPair f q (winRefused f.val a wr kind 0 s))

/-! ### Network sending -/

def qpOf (s : State) (q : Fin 1024) : Qp := sget {} s.net.qps q.val
def setQp (q : Fin 1024) (x : Qp) (s : State) : State := { s with net.qps := sset {} s.net.qps q.val x }

def portOf (s : State) (p : Fin 2) : PortSt := sget {} s.net.ports p.val
def setPort (p : Fin 2) (x : PortSt) (s : State) : State := { s with net.ports := sset {} s.net.ports p.val x }

/-- A GID or DIP: four words, the most significant first (R475). -/
def addr128 (s : State) (page off : Nat) : BitVec 128 :=
  rget s page off ++ rget s page (off + 4) ++ rget s page (off + 8) ++ rget s page (off + 12)

/-- The headers of a QP's packet: the port's DSCP, or CNPDSCP for a CNP, ECT(0), and UDP port 4791 from 0xC000 + the QP's index (R455, R471, R475). -/
def packetHead (s : State) (q : Fin 1024) (p : Packet) : PktHead :=
  let x := qpOf s q
  let g := rget s (pgNET x.port.val)
  let cfg := g 0x100
  let cnp := match p with | .cnp _ => true | _ => false
  { dmac := x.dmac, smac := (g 0x108).setWidth 16 ++ g 0x104,
    vlan := if bit cfg 12 then some (BitVec.ofNat 16 (8192 * bits cfg 11 9 + bits cfg 27 16)) else none,
    dip := x.dip, sip := addr128 s (pgNET x.port.val) (0x140 + 16 * x.gidIdx),
    dscp := BitVec.ofNat 6 (if cnp then bits (g 0x110) 13 8 else bits (g 0x110) 5 0), ecn := 2,
    sport := BitVec.ofNat 16 (0xC000 + q.val), dport := 4791, dqpn := x.dqpn }

/-- A packet leaves a port (R475). -/
def sendPacket (k : Fin 2) (hp : PktHead × Packet) (s : State) : State := emit (.packet k hp.1 hp.2) (bump64 (pgNET k.val) 0xA08 1 s)

/-- A packet for the QP's port: a fenced port or one without its link sends nothing, and PFC holds it back (R456, R473, R474). -/
def txFrame (q : Fin 1024) (p : Packet) (s : State) : State :=
  let k := (qpOf s q).port
  let x := portOf s k
  if isFenced s (0x9000 + k.val) ∨ !x.linkUp then s
  else if x.held then setPort k { x with waiting := x.waiting ++ [(packetHead s q p, p)] } s
  else sendPacket k (packetHead s q p, p) s

/-- A completion entry (R387). -/
def cplBytes (c : Cpl) (phase : Bool) : List Byte :=
  leBytes c.result.toNat 8 ++ leBytes c.sqhd 2 ++ leBytes c.cid.toNat 2 ++ leBytes c.status.toNat 2 ++ leBytes (b2n phase) 2

/-- A completion capsule (R466); PHASE is 0 (R468). -/
def capsuleBytes (l : List Cpl) : List Byte :=
  [2, BitVec.ofNat 8 l.length] ++ List.replicate 14 0 ++ (l.map (cplBytes · false)).flatten

/-- Send the held completions of a QP in one capsule (R470). -/
def sendCapsule (q : Fin 1024) (s : State) : State :=
  let x := qpOf s q
  if x.heldCpl = [] ∨ x.st ≠ .rts then s
  else bump pgQP 0xA04 1 (txFrame q (.capsule q (capsuleBytes x.heldCpl))
    (setQp q { x with heldCpl := [], sentCpl := x.sentCpl ++ [(x.psn, x.heldCpl)], psn := x.psn + 1 } s))

/-- Hold a completion for the QP's capsule; NAGG held entries send it (R470). -/
def netPost (q : Fin 1024) (c : Cpl) (s : State) : State :=
  let x := qpOf s q
  let s := setQp q { x with heldCpl := x.heldCpl ++ [c], outst := x.outst - 1 } s
  if (x.heldCpl.length + 1) ≥ x.nagg then sendCapsule q s else s

/-- Packets up to and including `p` have been acknowledged. -/
def psnAcked (x : Qp) (p : BitVec 24) : Bool := decide ((x.una - 1 - p).toNat < 2 ^ 23)

/-- Path MTU in bytes (R464). -/
def pmtuBytes (x : Qp) : Nat := 128 * 2 ^ x.pmtu

/-- Packets that `n` bytes take. -/
def packetsOf (x : Qp) (n : Nat) : Nat := (n + pmtuBytes x - 1) / pmtuBytes x

/-- Issue one RDMA READ request of `n` bytes of record data, or of a list, under a key (R463, R465, R467). -/
def rdmaRead (q : Fin 1024) (record : Bool) (key : Word) (a n : Nat) (s : State) : State :=
  let x := qpOf s q
  txFrame q (.rdmaRead q key (BitVec.ofNat 64 a) n)
    (setQp q { x with rdReqs := x.rdReqs ++ [(x.psn, n, record)], psn := x.psn + BitVec.ofNat 24 (packetsOf x n) } s)

/-- Issue one RDMA WRITE under a key; its last packet's PSN is the command's to wait for (R463, R467, R470). -/
def rdmaWrite (q : Fin 1024) (h : Nat) (key : Word) (a : Nat) (bs : List Byte) (s : State) : State :=
  let x := qpOf s q
  if x.st ≠ .rts ∨ bs = [] then s else
  let next := x.psn + BitVec.ofNat 24 (packetsOf x bs.length)
  let s := { s with host.cmds := s.host.cmds.map (fun c => if c.handle = h then { c with wrPsn := some (next - 1) } else c) }
  txFrame q (.rdmaWrite q key (BitVec.ofNat 64 a) bs) (setQp q { x with psn := next } s)

/-! ### Live commands -/

def cmdOf (s : State) (h : Nat) : Option Cmd := s.host.cmds.find? (·.handle = h)
def modCmd (h : Nat) (f : Cmd → Cmd) (s : State) : State :=
  { s with host.cmds := s.host.cmds.map (fun c => if c.handle = h then f c else c) }
def dropCmd (h : Nat) (s : State) : State := { s with host.cmds := s.host.cmds.filter (·.handle ≠ h) }

/-- SYNC and ABORT complete out of fetch order (R406). -/
def outOfOrder (c : Cmd) : Bool := c.e.opc = 0x05 ∨ c.e.opc = 0x0C

/-- Keep the last 64 failed completions of a polder (R420). -/
def logError (s : State) (c : Cmd) (st : BitVec 16) (res : BitVec 64) : State :=
  if st.toNat < 0x0100 then s else
  let sq := match c.src with | .pcie _ q => q.val | .net _ => 0
  let ent : ErrEntry := { time := s.clk.devSec, sqid := sq, cid := c.e.cid, status := st, opc := c.e.opc,
                          part := c.e.part, result := res, lrn := c.e.lrn }
  { s with host.errlog := smod [] s.host.errlog c.polder.val (fun l => (ent :: l).take 64) }

/-- Signal the pair's vector by AGGR and AGGT (R384). -/
def signalPair (f : Fin 64) (q : Fin 16) (s : State) : State :=
  let p := getPair s f q
  if p.ien ∧ (p.aggt = 0 ∨ p.aggr + 1 ≤ p.unsig) ∧ p.unsig ≠ 0 then
    signal f p.iv (setPair f q { p with unsig := 0 } s)
  else s

/-- Post one completion on a PCIe pair (R381, R382, R387); a halted pair posts nothing (R380). -/
def postPcie (f : Fin 64) (q : Fin 16) (c : Cmd) (st : BitVec 16) (res : BitVec 64) (s : State) : State :=
  let p := getPair s f q
  if !p.present || p.halted then s else
  let a := p.cqBase.toNat + 16 * p.cqTail
  if !winOk s f.val true a 16 then winFaultPair f q a true 2 s else
  let s := emit (.hostWrite f (BitVec.ofNat 64 a) (cplBytes { result := res, sqhd := c.sqhd, cid := c.e.cid, status := st } p.phase) false) s
  let wrap := p.cqTail + 1 = p.cqN
  let s := setPair f q { p with cqTail := if wrap then 0 else p.cqTail + 1, phase := if wrap then !p.phase else p.phase,
                                unsig := p.unsig + 1 } s
  let s := if st.toNat < 0x0100 then s else bump (pgQMG f.val) 0xA04 1 s
  signalPair f q s

/-- Post a network completion: SQHD is the count of capsules accepted, PHASE 0 (R468). -/
def postNet (q : Fin 1024) (c : Cmd) (st : BitVec 16) (res : BitVec 64) (s : State) : State :=
  let x := qpOf s q
  if x.st ≠ .rts then setQp q { x with outst := x.outst - 1 } s
  else netPost q { result := res, sqhd := x.accepted.toNat, cid := c.e.cid, status := st } s

/-- QPRES (R477). -/
def qpres (q : Nat) (busy : Bool) (code : Nat) (s : State) : State :=
  rset s pgQP 0x600 (BitVec.ofNat 32 (q + 1024 * b2n busy + 65536 * code))

/-- A QP whose last started command has ended leaves DRAINING for ERROR, or becomes free with QOP_DONE where it is being destroyed;
the completions it still holds go out first (R378, R459, R462, R470). -/
def drainCheck (src : Src) (s : State) : State :=
  match src with
  | .pcie _ _ => s
  | .net q =>
    let x := qpOf s q
    if (x.st = .draining ∨ x.dest) ∧ !s.host.cmds.any (fun c => c.src = src) then
      if x.dest then
        let s := sendCapsule q s
        raise pgQP 0 (qpres q.val false 0 (setQp q {} { s with net.qopBusy := false }))
      else setQp q { x with st := .error } s
    else s

/-- One command leaves the block with its completion, or silently (R378, R414). -/
def postOne (c : Cmd) (st : BitVec 16) (res : BitVec 64) (s : State) : State :=
  let s := dropCmd c.handle s
  let s := if c.silent then s else logError (match c.src with
    | .pcie f q => postPcie f q c st res s
    | .net q => postNet q c st res s) c st res
  drainCheck c.src s

/-- The device posts no completion while a fatal error lasts (R552) or after PFW_N (R418). -/
def postStopped (s : State) : Bool := s.itg.fatal.isSome || s.top.pf

/-- The RDMA WRITEs of a command have been acknowledged (R470). -/
def wrAcked (s : State) (c : Cmd) : Bool :=
  match c.src, c.wrPsn with
  | .net q, some p => psnAcked (qpOf s q) p
  | _, _ => true

/-- Post every finished command whose turn has come: in fetch order per queue, SYNC and ABORT excepted. -/
def postScan : List Cmd → List Src → State → State
  | [], _, s => s
  | c :: r, blk, s =>
    match c.fin with
    | none => postScan r (if outOfOrder c then blk else c.src :: blk) s
    | some (st, res) =>
      if c.silent ∨ ((outOfOrder c ∨ c.src ∉ blk) ∧ wrAcked s c) then postScan r blk (postOne c st res s)
      else postScan r (if outOfOrder c then blk else c.src :: blk) s

def postReady (s : State) : State := if postStopped s then s else postScan s.host.cmds [] s

/-- Decide a command's status and RESULT once; nothing changes a decided one. -/
def decideCmd (h : Nat) (st : BitVec 16) (res : BitVec 64) (s : State) : State :=
  modCmd h (fun c => if c.fin.isNone then { c with fin := some (st, res) } else c) s

/-- A command completes: its status is decided, and completions whose turn has come are posted. -/
def finish (h : Nat) (st : BitVec 16) (res : BitVec 64) (s : State) : State := postReady (decideCmd h st res s)

/-- Complete every live command that `p` picks. -/
def finishAll (p : Cmd → Bool) (st : BitVec 16) (res : BitVec 64) (s : State) : State :=
  let dec := fun (c : Cmd) => if p c ∧ c.fin.isNone then { c with fin := some (st, res) } else c
  postReady { s with host.cmds := s.host.cmds.map dec }

/-- End the commands that `p` picks without completion entries (R378, R414). -/
def endSilently (p : Cmd → Bool) (s : State) : State :=
  { s with host.cmds := s.host.cmds.filter (fun c => !p c) }

def startCmd (h : Nat) (s : State) : State := modCmd h (fun c => { c with started := true }) s

/-! ### Partitions and openings -/

/-- The polder a partition belongs to: the one whose TAG is its OWNER (R479); the lowest on a tie. -/
def partEntry (s : State) (p : Nat) : PartEntry := match s.cart with | none => {} | some c => sget {} c.core.parts p
def setPart (p : Nat) (f : PartEntry → PartEntry) (s : State) : State :=
  match s.cart with
  | none => s
  | some c => { s with cart := some { c with core := { c.core with parts := smod {} c.core.parts p f } } }

def ownerPolder (s : State) (p : Nat) : Option (Fin 64) :=
  let e := partEntry s p
  if !e.inUse then none
  else (List.finRange 64).find? (fun q => ((polderOf s q.val).enabled ∨ q.val = 0) ∧ (polderOf s q.val).tag = e.owner)

/-- The vault holds the partition's key for the polder (R398). -/
def keyHeld (s : State) (e : PartEntry) (pol : Fin 64) : Bool :=
  e.keyFp ≠ 0 && s.vlt.keys.any (fun k => k.fp = e.keyFp ∧ k.polder = pol)

def openingOf (s : State) (src : Src) (p : Nat) : Option Opening :=
  s.host.opens.find? (fun o => o.src = src ∧ o.part.val = p)
def writerOf (s : State) (p : Nat) : Option Opening := s.host.opens.find? (fun o => o.writer ∧ o.part.val = p)
def setRead (src : Src) (p lrn : Nat) (s : State) : State :=
  let upd := fun (o : Opening) => if o.src = src ∧ o.part.val = p then { o with read := lrn } else o
  { s with host.opens := s.host.opens.map upd }

def riqOf (s : State) (p : Nat) : Riq := sget {} s.rcd.riq p
def setRiq (p : Nat) (r : Riq) (s : State) : State := { s with rcd.riq := sset {} s.rcd.riq p r }

/-- EODLRN as commands see it: past the records of every write that has executed (R392, R396). -/
def eodLrn (s : State) (p : Nat) : Nat :=
  match (List.finRange 64).find? (fun q => (riqOf s q.val).part.map (·.val) = some p) with
  | some q => (riqOf s q.val).asgLrn
  | none => (partEntry s p).eodLrn

/-- No cartridge is loaded for a command: none at all, or an UNLOAD fetched before it has begun (R404, R418). -/
def notLoaded (s : State) (c : Cmd) : Bool :=
  match s.cart with
  | none => true
  | some k => match k.unloading with | none => false | some u => decide (u < c.no)

/-- The partition checks every record command meets, in the order the statuses are reported. -/
def partCheck (s : State) (c : Cmd) : Option (BitVec 16) :=
  if notLoaded s c then some stNOT_LOADED else
  let e := partEntry s c.e.part.toNat
  if !e.inUse then some stNO_PARTITION
  else if e.owner ≠ (polderOf s c.polder.val).tag then some stNOT_OWNER
  else none

/-- … and those that need the key and an opening on the issuing queue (R389, R398). -/
def openCheck (s : State) (c : Cmd) (writer : Bool) : Option (BitVec 16) :=
  match partCheck s c with
  | some st => some st
  | none =>
    if !keyHeld s (partEntry s c.e.part.toNat) c.polder then some stNO_KEY else
    match openingOf s c.src c.e.part.toNat with
    | none => some stNOT_OPEN
    | some o => if writer ∧ !o.writer then some stNOT_OPEN else none

def readOnly (s : State) : Bool := match s.cart with | none => false | some c => c.readOnly

/-- Commands that take effect on partitions or read points (R406). -/
def touchesPart (opc : Nat) : Bool := namesPart opc || opc = 0x81 || opc = 0x82

/-- Commands of one SQ take effect in fetch order (R406): a write may follow writes through the intake
queue, a SYNC follows anything started, ABORT and commands that touch no partition wait for nothing;
everything else waits for every earlier partition command of its queue to be decided. -/
def mayExec (s : State) (c : Cmd) : Bool :=
  let isWr := fun (x : Cmd) => decide (x.e.opc = 0x02 ∨ x.e.opc = 0x04)
  let early := s.host.cmds.filter (fun x => x.src = c.src ∧ x.no < c.no ∧ x.fin.isNone ∧ !outOfOrder x ∧ touchesPart x.e.opc.toNat)
  if !touchesPart c.e.opc.toNat then true
  else if c.e.opc = 0x05 then early.all (·.started)
  else if isWr c then early.all (fun x => isWr x && x.started)
  else early = []

/-- The command is with firmware (R36). -/
def fwCmd (c : Cmd) : Bool := byFirmware c.e.opc.toNat || c.fw

/-- Firmware takes commands: it is ready, and no activation runs; in recovery mode the vault ROM does (R417, R580, R585). -/
def fwTakes (s : State) : Bool := s.top.recovery || (!s.host.fwHold && s.host.activate.isNone)

/-- Take the live, undecided, unstarted command `h` of opcode `opc` whose turn it is, and run `f` on it. Commands of the
control cores wait for FWREADY and for a running activation; in recovery mode the vault ROM takes them (R417, R580, R585).
An event for a command that is not there, or whose turn has not come, is no event of the device. -/
def onCmd (h : Nat) (opc : Byte) (s : State) (f : Cmd → State → State) : State :=
  match cmdOf s h with
  | none => s
  | some c =>
    if c.e.opc = opc ∧ c.fin.isNone ∧ !c.started ∧ mayExec s c ∧ s.itg.fatal.isNone ∧
       (!byFirmware c.e.opc.toNat ∨ fwTakes s) then f c s else s

/-- FSTAT.DEFERRED and its event (R412). -/
def raiseDeferred (part : Nat) (s : State) : State :=
  match ownerPolder s part with
  | none => s
  | some q => raise (pgQMG q.val) 3 s

/-- A command is one of a partition's. -/
def ofPart (part : Nat) (c : Cmd) : Bool := namesPart c.e.opc.toNat && c.e.part.toNat = part

/-! ### Basin slots -/

def slotOf (s : State) (i : Nat) : Slot := sget {} s.bas.slots i
def setSlot (i : Nat) (x : Slot) (s : State) : State := { s with bas.slots := sset {} s.bas.slots i x }
def modSlot (i : Nat) (f : Slot → Slot) (s : State) : State := setSlot i (f (slotOf s i)) s

/-- Slots that count against a polder's quota (R358). -/
def counts (x : Slot) : Bool := x.st ≠ .free ∧ x.st ≠ .retired
def slotsUsed (s : State) (p : Nat) : Nat := (s.bas.slots.filter (fun x => counts x.2 && x.2.polder.val = p)).length
def quotaOf (s : State) (p : Nat) : Nat := rfld s pgBSN (0x200 + 4 * p) 12 0
def retiredCount (s : State) : Nat := (s.bas.slots.filter (fun x => decide (x.2.st = .retired))).length
def quotaSum (s : State) : Nat := ((List.range 64).map (quotaOf s)).sum
def setQuota (p v : Nat) (s : State) : State := rset s pgBSN (0x200 + 4 * p) (BitVec.ofNat 32 (v % 8192))

/-- The polder whose quota a retirement cuts: the largest unused quota, else the largest quota; the
lowest number on a tie (R359). -/
def cutChoice (s : State) : Option Nat :=
  let best := fun (f : Nat → Nat) =>
    (List.range 64).foldl (fun (b : Option Nat) p => match b with
      | none => if 0 < f p then some p else none
      | some q => if f q < f p then some p else some q) none
  match best (fun p => quotaOf s p - slotsUsed s p) with
  | some p => some p
  | none => best (quotaOf s)

/-- After a retirement the quotas must still fit (R359). -/
def quotaCut (s : State) : State :=
  if quotaSum s ≤ 8160 - retiredCount s then s else
  match cutChoice s with
  | none => s
  | some p => raise pgBSN 2 (setQuota p (quotaOf s p - 1) s)

/-- A slot is retired now (R31, R359). -/
def retireNow (i : Nat) (s : State) : State :=
  quotaCut (raise pgBSN 1 (bump pgBSN 0xA08 1 (setSlot i { st := .retired } s)))

/-- A slot goes to FREE, or to RETIRED when retire-pending (R31). -/
def freeSlot (i : Nat) (s : State) : State :=
  if (slotOf s i).retire then retireNow i s else setSlot i {} s

/-- Free every slot that `p` picks. -/
def freeSlots (p : Slot → Bool) (s : State) : State :=
  foldNat (fun s i => freeSlot i s) s ((s.bas.slots.filter (fun x => p x.2)).map (·.1))

/-- Free the POISONED slots of a partition once its condition has been reported (R31, R359, R412). -/
def freePoisoned (part : Nat) (s : State) : State := freeSlots (fun x => x.st = .poisoned && x.part.val = part) s

/-- A deferred condition arises: every command of the partition in flight completes with it, EODLRN
becomes the first lost LRN, and the condition stays outstanding until one completion has carried it (R412). -/
def deferPart (part : Nat) (st : BitVec 16) (lrn : Nat) (s : State) : State :=
  let hit := s.host.cmds.any (fun c => ofPart part c && c.fin.isNone)
  let s := raiseDeferred part s
  let s := setPart part (fun e => { e with eodLrn := min e.eodLrn lrn }) s
  let upd := fun (kr : Nat × Riq) =>
    if kr.2.part.map (·.val) = some part then (kr.1, { kr.2 with nextLrn := lrn, asgLrn := lrn, newDs := true }) else kr
  let s := { s with rcd.riq := s.rcd.riq.map upd }
  if hit then freePoisoned part (finishAll (ofPart part) st (res64 lrn) s)
  else { s with host.deferred := sset none s.host.deferred part (some (st, lrn)) }

/-- The outstanding condition has been delivered. -/
def clearDeferred (part : Nat) (s : State) : State :=
  freePoisoned part { s with host.deferred := sset none s.host.deferred part none }

end Sys2Proof.Machine
end

