-- ==== Sys2Proof/Machine/RecordOps.lean ====
section
/-! DEFINITION. Shared operations of the record side: pool buffers (R349 to R356), basin slots (R31, R32,
R358, R359), flushing an intake queue (R329) and rolling a partition back (R347), and the mark (R330). -/

namespace Sys2Proof.Machine

/-! ### Buffer pools -/

def poolBytes (k : Nat) : Nat := ([512, 4096, 32768, 262144, 2097152][k]?).getD 0
def poolUsable (k : Nat) : Nat := poolBytes k - 16
def poolCount (s : State) (k : Nat) : Nat := rfld s pgBPM (0x100 + 4 * k) 15 0

/-- Where pool `k` starts in staging (R349). -/
def poolBase (s : State) (k : Nat) : Nat :=
  0x1000000 + ((List.range k).map (fun j => poolCount s j * poolBytes j)).sum

def bufKey (k i : Nat) : Nat := 65536 * k + i
def bufOf (s : State) (k i : Nat) : Buf := sget {} s.rcd.bufs (bufKey k i)
def setBuf (k i : Nat) (b : Buf) (s : State) : State := { s with rcd.bufs := sset {} s.rcd.bufs (bufKey k i) b }

/-- Link headers that a staging write covers no longer pass their check (R351, R352, log 21). -/
def smash (a k : Nat) (s : State) : State :=
  (List.range 5).foldl (fun s pool =>
    let b := poolBase s pool
    let sz := poolBytes pool
    (List.range 12).foldl (fun s j =>
      let i := (a - b) / sz + j
      let h := b + i * sz
      if b ≤ a + k ∧ i < poolCount s pool ∧ a < h + 16 ∧ h < a + k then setBuf pool i { bufOf s pool i with ok := false } s
      else s) s) s

/-- Bytes of a ring (R318). -/
def ringBytes (s : State) (p : Nat) : Nat := rfld s (pgRIQ p) 0x100 26 16 * 16384

/-- The length slot's bytes, zero while it is open (R320, R322). -/
def slotBytes (i : Item) : List Byte := leBytes ((i.len.map (·.toNat)).getD 0) 8

/-- An item as a staging write leaves it: `put` gives the new byte at an offset in the item, where the write reaches it. A byte
written anew has its parity (R317, R321). -/
def storeItem (put : Nat → Option Byte) (i : Item) : Item :=
  { i with bytes := i.bytes.zipIdx.map (fun x => (put (8 + x.2)).getD x.1), bad := i.bad.filter (fun k => (put (8 + k)).isNone),
           len := i.len.map (fun v => BitVec.ofNat 64 (leNat ((leBytes v.toNat 8).zipIdx.map (fun x => (put x.2).getD x.1)))) }

/-- A staging write changes the items of the rings that it reaches (R318, R425). -/
def ringStore (a : Nat) (bs : List Byte) (s : State) : State :=
  (List.range 64).foldl (fun s p =>
    let r := riqOf s p
    if !pageEn s (pgRIQ p) ∨ r.items = [] then s else
    let base := rfld s (pgRIQ p) 0x100 9 0 * 16384
    let put := fun (i : Item) (d : Nat) =>
      let x := base + (i.start + d) % ringBytes s p
      if a ≤ x then bs[x - a]? else none
    setRiq p { r with items := r.items.map (fun i => storeItem (put i) i) } s) s

/-- Bytes written to staging, by whatever agent: link headers and items that they reach follow. -/
def stagingWrite (a : Nat) (bs : List Byte) (s : State) : State :=
  ringStore a bs (smash a bs.length { s with mem.staging := writeBytes 0 s.mem.staging a bs })

/-! ### Stores of a control core (R448, R565 to R567) -/

/-- What a core address reaches: the access has one region to itself. -/
inductive CoreArea | cached | uncached | staging | sysRegion | dump | mram | own | none_
  deriving DecidableEq, Repr

/-- The map of R567; registers and the timer block have rows of their own, and the flash window is read only. -/
def coreArea (a k : Nat) : CoreArea :=
  let within := fun (lo hi : Nat) => decide (lo ≤ a) && decide (a + k ≤ hi)
  if within 0x80000000 0x80800000 then .cached
  else if within 0x90000000 0x90800000 then .uncached
  else if within 0x10000000 0x12000000 then .staging
  else if within 0x20000000 0x2C000000 then .sysRegion
  else if within 0x30000000 0x30200000 then .dump
  else if within 0x31000000 0x31200000 then .mram
  else if within 0x40000000 0x42000000 || within 0x02000000 0x02010000 then .own
  else .none_

/-- A core's store reaches memory; in cached core memory it stays in that core's data cache. An AMO, LR or SC there, and a store outside
the map, raise the store/AMO access fault (R566, R567). -/
def coreStore (h : Fin 4) (x : CoreStore) (s : State) : State :=
  let n := x.bytes.length
  match coreArea x.addr n with
  | .cached => if x.amo then emit (.coreFault h true) s else
      let t := sget {} s.top.harts h.val
      let d := x.bytes.zipIdx.foldl (fun m y => sset none m (x.addr - 0x80000000 + y.2) (some y.1)) t.dcache
      { s with top.harts := sset {} s.top.harts h.val { t with dcache := d } }
  | .uncached => { s with mem.coreMem := writeBytes 0 s.mem.coreMem (x.addr - 0x90000000) x.bytes }
  | .staging => stagingWrite (x.addr - 0x10000000) x.bytes s
  | .sysRegion => { s with mem.sysRegion := writeBytes 0 s.mem.sysRegion (x.addr - 0x20000000) x.bytes }
  | .dump => { s with mem.dump := writeBytes 0 s.mem.dump (x.addr - 0x30000000) x.bytes }
  | .mram => { s with mem.mramFw := writeBytes 0 s.mem.mramFw (x.addr - 0x31000000) x.bytes }
  | .own => s
  | .none_ => emit (.coreFault h true) s

/-- The store buffer of the core that writes a GO or a doorbell is drained; its cache is not written back, and no other core's stores
are (R448). -/
def drainStores (core : Option CoreWrite) (s : State) : State :=
  match core with
  | some w => w.stores.foldl (fun s x => coreStore w.hart x s) s
  | none => s

/-- A handle (R350). -/
def handleOf (k i : Nat) (gen : Byte) : Word := BitVec.ofNat 32 (gen.toNat + 256 * i + 2 ^ 24 * k)

/-- Staging use of a polder in bytes (R353). -/
def stagingUse (s : State) (p : Nat) : Nat := sget 0 s.rcd.use p
def addUse (p : Nat) (n : Nat) (s : State) : State := { s with rcd.use := smod 0 s.rcd.use p (· + n) }
def subUse (p : Nat) (n : Nat) (s : State) : State := { s with rcd.use := smod 0 s.rcd.use p (· - n) }

/-- A buffer returns to the head of its list with the next generation (R352, R355); frees to a fenced
pool are accepted and the buffer is not reused. -/
def giveBack (k i : Nat) (s : State) : State :=
  let b := bufOf s k i
  let s := setBuf k i { b with alloc := false, gen := b.gen + 1, req := 0, pol := 0xFF } s
  let s := if b.pol = 0xFF then s else subUse b.pol.toNat (poolBytes k) s
  if k ∈ s.rcd.fenPool then s else { s with rcd.freeList := smod [] s.rcd.freeList k (i :: ·) }

/-- A buffer that its holder may still give back: it is allocated, and its requester's access is open (R356). -/
def returnable (s : State) (kb : Nat) : Bool :=
  let b := sget {} s.rcd.bufs kb
  b.alloc && !decide (b.req ∈ s.rcd.reqClosed)

/-- Give back the buffers of a chain. -/
def freeBufs (l : List Nat) (s : State) : State :=
  foldNat (fun s kb => if returnable s kb then giveBack (kb / 65536) (kb % 65536) s else s) s l

/-- Free every buffer that requesters `rq` hold for polder `p`. -/
def freeFor (p : Nat) (rq : Nat → Bool) (s : State) : State :=
  freeBufs ((s.rcd.bufs.filter (fun x => x.2.alloc && x.2.pol.toNat = p && rq x.2.req)).map (·.1)) s

/-- Compressors, cipher pairs and the placer: the requesters of write groups (R354). -/
def writeReq (r : Nat) : Bool := r ≤ 31 || (64 ≤ r && r ≤ 75) || r = 97

/-! ### Retirement and allocation of slots -/

/-- A slot is chosen for retirement (R359). -/
def chooseRetire (i : Nat) (s : State) : State :=
  let x := slotOf s i
  if x.st = .retired ∨ x.retire then s
  else if x.st = .free then retireNow i (bump pgMEM 0xA14 1 s)
  else setSlot i { x with retire := true } (bump pgMEM 0xA14 1 s)

/-- The next FREE slot, round robin after the one last allocated (R358). -/
def findFree (s : State) : Option Nat :=
  ((List.range 8160).map (fun k => (s.bas.lastAlloc + 1 + k) % 8160)).find? (fun i => (slotOf s i).st = .free)

/-- Allocate a slot for a polder under its quota (R32, R346, R358). -/
def allocSlot (p : Fin 64) (x : Slot) (s : State) : Option (Nat × State) :=
  if quotaOf s p.val ≤ slotsUsed s p.val then none else
  match findFree s with
  | none => none
  | some i =>
    some (i, bump pgBSN 0xA00 1 (setSlot i { x with polder := p, order := s.bas.nextOrder }
      { s with bas.lastAlloc := i, bas.nextOrder := s.bas.nextOrder + 1 }))

/-- Slots of a partition in a state, oldest first. -/
def slotsIn (s : State) (part : Nat) (st : SlotState) : List (Nat × Slot) :=
  isort (fun a b => a.2.order ≤ b.2.order) (s.bas.slots.filter (fun x => x.2.st = st ∧ x.2.part.val = part))

/-- FULL slots of a partition. -/
def fullCount (s : State) (part : Nat) : Nat := (slotsIn s part .full).length

/-- Note a slot that turned FULL, for the rate of R240. -/
def noteFull (s : State) (part : Nat) : State :=
  match s.trk.pass with
  | some p => if p.part.val = part ∧ p.kind = .write then { s with mot.spd.turned := s.mot.spd.turned + 1 } else s
  | none => s

/-- A FILLING slot becomes FULL: the placer fills its header, with the time (R92, R344). -/
def fillFull (part i : Nat) (s : State) : State :=
  noteFull (modSlot i (fun x => { x with st := .full, time := s.clk.devSec }) s) part

/-- FILLING slots of a partition become FULL as they stand (R344, R95). -/
def closeFilling (part : Nat) (s : State) : State := foldNat (fun s i => fillFull part i s) s ((slotsIn s part .filling).map (·.1))

/-! ### Allocation (R352 to R354) -/

/-- A fence is counted and recorded (R563). -/
def noteFence (code cause : Nat) (s : State) : State :=
  raise pgFEN 0 (bump pgFEN 0xA00 1 (rset s pgFEN 0x660 (BitVec.ofNat 32 (code + 65536 * cause))))

/-- Mark a unit fenced, count it and record it (R548, R563). -/
def markFence (code cause : Nat) (s : State) : State :=
  noteFence code cause { s with itg.fences := sset 0 s.itg.fences code cause }

/-- A polder's PSHARE in bytes (R353, R367). -/
def pshareBytes (s : State) (p : Nat) : Nat := rfld s pgBPM (0x200 + 4 * p) 10 0 * 16384

/-- The pool manager's fence of a pool (R352). -/
def fencePool (k : Nat) (s : State) : State :=
  if k ∈ s.rcd.fenPool then s
  else raise pgBPM 2 (markFence (0xA000 + k) 10 { s with rcd.fenPool := k :: s.rcd.fenPool })

/-- The smallest pool whose usable bytes hold a count. -/
def poolFor (n : Nat) : Option Nat := (List.range 5).find? (fun k => n ≤ poolUsable k)

/-- Pop a pool's head for a requester, after the checks of R352. -/
def takeBuf (k r : Nat) (owner : Byte) (s : State) : Option (Nat × State) :=
  if k ∈ s.rcd.fenPool then none else
  match sget [] s.rcd.freeList k with
  | [] => none
  | i :: rest =>
    let b := bufOf s k i
    if !b.ok then none else
    let s := { s with rcd.freeList := sset [] s.rcd.freeList k rest, rcd.bufSeq := s.rcd.bufSeq + 1 }
    let s := setBuf k i { b with alloc := true, req := r, pol := owner, seq := s.rcd.bufSeq } s
    let s := if owner = 0xFF then s else addUse owner.toNat (poolBytes k) s
    some (bufKey k i, bump pgBPM 0xA00 1 s)

/-- A broken head that requester `r` meets fences its pool (R352, R367). -/
def checkHead (k r : Nat) (s : State) : State :=
  match sget [] s.rcd.freeList k with
  | i :: _ => if k ∉ s.rcd.fenPool ∧ !(bufOf s k i).ok then fencePool k (rset s pgBPM 0x628 (BitVec.ofNat 32 (0x300 + r))) else s
  | [] => s

/-- One allocation: from the sized pool, by spill one step up, or EMPTY; the share of the owner comes first (R353). -/
def allocOne (r count : Nat) (owner : Byte) (spill : Bool) (s : State) : Option Nat × State :=
  if !pageEn s pgBPM ∨ r ∈ s.rcd.reqClosed then (none, s) else
  match poolFor count with
  | none => (none, bump pgBPM 0xA08 1 s)
  | some k =>
    let tooBig := fun k => owner.toNat < 64 ∧ pshareBytes s owner.toNat < stagingUse s owner.toNat + poolBytes k
    let s := checkHead k r s
    match (if tooBig k then none else takeBuf k r owner s) with
    | some (kb, s) => (some kb, s)
    | none =>
      let s := if spill ∧ k < 4 ∧ !tooBig k then checkHead (k + 1) r s else s
      match (if spill ∧ k < 4 ∧ !tooBig k ∧ !tooBig (k + 1) then takeBuf (k + 1) r owner s else none) with
      | some (kb, s) => (some kb, bump pgBPM 0xA04 1 s)
      | none => (none, bump pgBPM 0xA08 1 s)

/-- Class of a requester (R354). -/
def reqClass (r : Nat) : Nat :=
  if r = 97 ∨ (64 ≤ r ∧ r ≤ 75) then 0 else if r ≤ 63 then 1 else if 92 ≤ r ∧ r ≤ 95 then 3 else 2

/-- Place of a requester among those of one cycle: its class, and in the class the round robin, which begins behind the requester
decided for last (R354). -/
def turnKey (s : State) (r : Nat) : Nat := 100 * reqClass r + (r + 100 - sget 0 s.rcd.turn (reqClass r)) % 100

/-- A request is decided; one that is served ends its requester's turn (R354). -/
def allocTurn (x : BufReq) (s : State) : Option Nat × State :=
  match allocOne x.r.val x.count x.owner x.spill s with
  | (some kb, s) => (some kb, { s with rcd.turn := sset 0 s.rcd.turn (reqClass x.r.val) ((x.r.val + 1) % 100) })
  | (none, s) => (none, s)

/-! ### Buffer chains of the engines -/

/-- The requests of a chain for `n` bytes: pieces that pool 2 holds, and what is left (DESIGN CHOICE, log 111). -/
def chainSizes (n : Nat) : List Nat := List.replicate (n / poolUsable 2) (poolUsable 2) ++ (if n % poolUsable 2 = 0 then [] else [n % poolUsable 2])

/-- Staging bytes of a chain for `n` bytes. -/
def chainCost (n : Nat) : Nat := ((chainSizes n).map (fun m => poolBytes ((poolFor m).getD 4))).sum

/-- A chain for `n` bytes, taken in one step within the polder's share, or none (R346, R353, R361). -/
def allocChain (r p n : Nat) (s : State) : Option (List Nat) × State :=
  if pshareBytes s p < stagingUse s p + chainCost n then (none, s) else
  (chainSizes n).foldl (fun x m => match x with
    | (none, s) => (none, s)
    | (some l, s) => match allocOne r m (BitVec.ofNat 8 p) true s with
      | (some kb, s) => (some (l ++ [kb]), s)
      | (none, s) => (none, freeBufs l s)) (some [], s)

/-- The part of a chain that `n` bytes need, and the rest. -/
def chainCut : Nat → List Nat → List Nat × List Nat
  | _, [] => ([], [])
  | n, kb :: r => if n = 0 then ([], kb :: r) else
    let x := chainCut (n - poolUsable (kb / 65536)) r
    (kb :: x.1, x.2)

/-! ### Rollback and flush -/

/-- File marks below an LRN of a partition, as far as the device holds them since LOAD; a free value where
they lie on tape from before (log 17). -/
def marksBelow (s : State) (part lrn : Nat) : Nat × State :=
  match s.cart with
  | none => (0, s)
  | some c =>
    let e := sget {} c.core.parts part
    let known := sget [] c.marks part
    if sget 0 c.baseLrn part ≤ lrn then (e.eodMarks - (known.filter (fun m => lrn ≤ m)).length, s)
    else (freeVal s % (e.eodMarks + 1), freeNext s)

/-- Losses as far as they lie below an LRN at which the partition is truncated; what is written there from DSN `d` on does not move
their ends again. -/
def cutLosses (l d : Nat) (xs : List Loss) : List Loss :=
  (xs.map (fun x => if l < x.stop then { x with stop := l, by_ := x.by_.orElse (fun _ => some d) } else x)).filter (fun x => x.start < x.stop)

/-- Truncate a partition at L: its next data set begins at offset 0 under the next WGEN (R347). -/
def truncatePart (part l : Nat) (s : State) : State :=
  let (m, s) := marksBelow s part l
  let s := setPart part (fun e => { e with wgen := e.wgen + 1, eodLrn := l, eodMarks := m }) s
  let s := match s.cart with
    | none => s
    | some c => { s with cart := some { c with marks := smod [] c.marks part (·.filter (· < l)),
                                               lost := smod [] c.lost part (cutLosses l (partEntry s part).nextDsn),
                                               cuts := smod [] c.cuts part (· ++ [((partEntry s part).wgen, l)]),
                                               tapeLrn := smod 0 c.tapeLrn part (min · l),
                                               syncLrn := smod 0 c.syncLrn part (min · l) } }
  let capLrn := fun (kx : Nat × Slot) => if kx.2.part.val = part ∧ l < kx.2.endLrn then (kx.1, { kx.2 with endLrn := l }) else kx
  closeFilling part { s with rcd.tailOpen := sset false s.rcd.tailOpen part false, bas.slots := s.bas.slots.map capLrn }

/-- Bytes of a group's header and body that already lie in FILLING slots are taken back; `true` when some
already lie in a slot that has become FULL. -/
def takeBack (part : Nat) (put : Nat) (s : State) : Bool × State :=
  match slotsIn s part .filling with
  | (i, x) :: _ => if put ≤ x.stream.length then
      (false, setSlot i { x with stream := x.stream.take (x.stream.length - put),
                                 refs := x.refs.filter (fun r => r.off < x.stream.length - put) } s)
    else (true, setSlot i { x with stream := [], refs := [] } s)
  | [] => (decide (0 < put), s)

/-- Every unplaced group of a polder goes, its engines' work with it, and its buffers are freed. -/
def dropGroups (p : Nat) (s : State) : State :=
  let r := riqOf s p
  let mine := fun (x : Nat × Engine) => !decide (x.1 % 64 = p)
  let s := { s with rcd.cmp := s.rcd.cmp.filter mine,
                    rcd.cry := s.rcd.cry.filter (fun x => mine x || x.2.read) }
  freeFor p writeReq (setRiq p { r with opn := none, grps := [], recut := [], mark := none, fragOn := false } s)

/-- Roll polder `p`'s partition back to LRN L (R347). Commands are left to the caller. -/
def rollback (p part l : Nat) (s : State) : State :=
  let put := ((riqOf s p).grps.map (·.put)).sum
  let s := dropGroups p s
  let e := partEntry s part
  let (deep, s) := takeBack part put s
  let cut := decide (l < e.eodLrn) || (decide (l = e.eodLrn) && sget false s.rcd.tailOpen part) || deep
  let s := if cut then truncatePart part l s else s
  let r := riqOf s p
  setRiq p { r with nextLrn := l, asgLrn := l, newDs := r.newDs || cut } s

/-- Where a rollback of the partition goes: the LRN after the last completed write (R347). -/
def rollPoint (s : State) (p part : Nat) : Nat :=
  match s.host.cmds.find? (fun c => (c.e.opc = 0x02 ∨ c.e.opc = 0x04) ∧ c.started ∧ c.fin.isNone ∧
      c.e.part.toNat = part ∧ c.polder.val = p) with
  | some c => c.lrnA
  | none => eodLrn s part

/-- Started writes of a partition with a record at or above L. -/
def writesFrom (part l : Nat) (c : Cmd) : Bool :=
  (c.e.opc = 0x02 ∨ c.e.opc = 0x04) && c.started && c.e.part.toNat = part && decide (l < c.lrnZ)

/-- The producer is inside an item, a stalled word counted: the flush releases its stall (R319, R363). -/
def midItem (r : Riq) : Bool :=
  let tag := r.stalled.map (fun x => x.1.toNat)
  (r.inItem || r.swallow || decide (tag = some 1)) && !decide (tag = some 3)

/-- The queue is emptied: pointers and mark move to the producer's next item boundary, and the rest of a started item is swallowed. A
FLUSH_DONE that waits for the item being swallowed is still due (R329). -/
def emptyRiq (p : Nat) (report : Bool) (s : State) : State :=
  let s := dropGroups p s
  let r := riqOf s p
  let pos := (r.pPos + 63) / 64 * 64
  let r := { r with items := [], pPos := pos, cPos := pos, cIn := false, mark := none, opn := none,
                    fragOn := false, stalled := none, inItem := midItem r, swallow := midItem r,
                    swReport := report || (r.swallow && r.swReport), closeReq := [] }
  setRiq p r s

/-- Flush polder `p`'s queue: `report` raises FLUSH_DONE; the partition rolls back and commands with a record
at or above the roll point complete, those `holds` picks with `st`, the others ABORTED (R329, R347, R348). -/
def flushRiq (p : Nat) (report : Bool) (holds : Cmd → Bool) (st : BitVec 16) (s : State) : State :=
  let s := bump (pgRIQ p) 0xA24 1 s
  let part := (riqOf s p).part
  let l := match part with | some q => rollPoint s p q.val | none => 0
  let s := match part with | some q => rollback p q.val l s | none => s
  let busy := midItem (riqOf s p)
  let s := emptyRiq p report s
  let s := if report ∧ !busy then raise (pgRIQ p) 0 s else s
  match part with
  | none => s
  | some q =>
    finishAll (writesFrom q.val l) stABORTED 0 (finishAll (fun c => writesFrom q.val l c && holds c) st 0 s)

/-- A group fails (R332, R348): the queue is flushed without FLUSH_DONE, and commands with a record in the group, of LRNs `first`
to `last`, get the status. -/
def failGroup (p : Nat) (first last : Nat) (st : BitVec 16) (s : State) : State :=
  flushRiq p false (fun c => decide (c.lrnA ≤ last) && decide (first < c.lrnZ)) st s

/-- LRN of a group's last entry. -/
def Grp.hi (g : Grp) : Nat := if g.contOut then g.endLrn else g.endLrn - 1

/-- A cut group fails (R332, R508, R510, R513). -/
def failGrp (p : Nat) (g : Grp) (st : BitVec 16) (s : State) : State := failGroup p g.firstLrn g.hi st s

/-! ### The rewind mark -/

/-- The mark stands at the start of the oldest group that is open or cut and not yet confirmed (R330);
groups without rewind protection no longer hold it (R331). -/
def markPos (r : Riq) : Option Nat :=
  match r.grps.find? (fun g => g.stage ≠ .confirmed ∧ g.prot) with
  | some g => some g.start
  | none => r.opn.map (·.start)

/-- Move the mark after a group was cut or confirmed, and let go of the items before it. -/
def moveMark (r : Riq) : Riq :=
  let m := markPos r
  let low := m.getD r.cPos
  { r with mark := m, items := r.items.filter (fun i => low < i.start + 8 + i.bytes.length ∨ r.cPos ≤ i.start ∨ i.len.isNone) }

/-- Occupancy in ring bytes (R326). -/
def occupancy (r : Riq) : Nat := r.pPos - (r.mark.getD r.cPos)

end Sys2Proof.Machine
end

