-- ==== Sys2Proof/Machine/VaultOps.lean ====
section
/-! DEFINITION. Shared operations of the vault: meters (R514), device time, the key store (R493, R501), quote
keys (R494), the floor ring and journal (R505 to R510), and meter records (R515 to R518). -/

namespace Sys2Proof.Machine

/-! ### Meters -/

def meterOf (s : State) (p : Nat) : Meter := sget {} s.vlt.meters p
def polderOn (s : State) (p : Nat) : Bool := (polderOf s p).enabled || p = 0

/-- Add to an enabled polder's counters (R514). -/
def meter (p : Nat) (f : Meter → Meter) (s : State) : State :=
  if polderOn s p then { s with vlt.meters := smod {} s.vlt.meters p f } else s

/-- Meter a partition's polder. -/
def meterPart (part : Nat) (f : Meter → Meter) (s : State) : State :=
  match ownerPolder s part with | some q => meter q.val f s | none => s

/-- Count commands that leave the block (CMDS of R514). -/
def meterCmds (before : List Cmd) (s : State) : State :=
  (before.filter (fun c => !s.host.cmds.any (·.handle = c.handle))).foldl
    (fun s c => meter c.polder.val (fun m => { m with cmds := m.cmds + 1 }) s) s

/-- Run an operation and meter the commands it completed or ended. -/
def metered (f : State → State) (s : State) : State := meterCmds s.host.cmds (f s)

/-! ### Keys -/

/-- The lifecycle state in which keys are imported and used and meter records formed (R492). -/
def deployed (s : State) : Bool := s.vlt.lifecycle = 2

/-- Zeroise the key slots that `p` picks (R501). -/
def zeroise (p : KeySlot → Bool) (s : State) : State :=
  let n := (s.vlt.keys.filter p).length
  bump pgVLT 0xA0C n { s with vlt.keys := s.vlt.keys.filter (fun k => !p k) }

/-- Discard quote keys (R494). -/
def dropQuotes (p : QuoteKey → Bool) (s : State) : State :=
  { s with vlt.quotes := s.vlt.quotes.filter (fun q => !p q) }

/-- The key that the store holds for a polder under a fingerprint (R493). -/
def heldKey (s : State) (fp : BitVec 128) (p : Fin 64) : Option (List Byte) :=
  (s.vlt.keys.find? (fun k => k.fp = fp ∧ k.polder = p)).map (fun k => beBytes k.key.toNat 32)

/-- The additional data of a group: its header to 0x1F, then KEYFP and OWNER of its partition (R503). -/
def groupAad (s : State) (part : Nat) (header : List Byte) : List Byte :=
  header.take 0x20 ++ beBytes (partEntry s part).keyFp.toNat 16 ++ beBytes (partEntry s part).owner.toNat 8

/-! ### IV counters -/

abbrev blk : Nat := 2 ^ 20

/-- The newest readable floor entry (R506); none when no entry can be read (R509). -/
def floorCur (s : State) : Option FloorEnt :=
  (List.range 64).foldl (fun best i =>
    let e := sget {} s.vlt.floor i
    if !e.ok then best else match best with
      | none => some e
      | some b => if b.seq ≤ e.seq then some e else best) none

/-- Each update of the floor goes to two entries of the ring (R506). -/
def floorWrite (g h : Nat) (s : State) : State :=
  let q := s.vlt.fseq + 1
  let e : FloorEnt := { seq := q, g := g, h := h }
  { s with vlt.fseq := q, vlt.floor := sset {} (sset {} s.vlt.floor (2 * q % 64) e) ((2 * q + 1) % 64) e }

/-- The newest readable journal record of a fingerprint (R507). -/
def newestRec (s : State) (fp : BitVec 128) : Option JournalRec :=
  s.vlt.journal.foldl (fun best x => match x.2 with
    | none => best
    | some r => if r.fp ≠ fp then best else match best with
      | none => some r
      | some b => if b.seq ≤ r.seq then some r else best) none

/-- A key's start value (R507). -/
def ivStart (s : State) (fp : BitVec 128) : Nat :=
  let g := ((floorCur s).map (·.g)).getD 0
  match (newestRec s fp).bind (·.b) with | some b => max g b | none => g

def ivOf (s : State) (fp : BitVec 128) : Option IvKey := s.vlt.ivs.find? (·.fp = fp)
def setIv (k : IvKey) (s : State) : State :=
  { s with vlt.ivs := k :: s.vlt.ivs.filter (fun x => x.fp ≠ k.fp) }

/-- The key is in the lost list, or its newest record names it but cannot give its bound (R508). -/
def keyLost (s : State) (fp : BitVec 128) : Bool :=
  decide (fp ∈ s.vlt.lost) || (match newestRec s fp with | some r => r.b.isNone | none => false)

/-- First use is refused while no floor entry can be read (R509). -/
def nsDeg (s : State) : Bool := (floorCur s).isNone

/-- Enter a fingerprint in the lost list (R508). -/
def loseKey (fp : BitVec 128) (s : State) : State :=
  let h := ((floorCur s).map (·.h)).getD 0
  let s := floorWrite h h s
  let l := s.vlt.lost.filter (· ≠ fp) ++ [fp]
  raise pgVLT 1 { s with vlt.lost := if 32 < l.length then l.drop 1 else l, vlt.ivs := s.vlt.ivs.filter (·.fp ≠ fp) }

/-- The largest bound a reservation may take (R510). -/
abbrev ivTop : Nat := 2 ^ 64 - blk

/-- A key's counter can take no further block (R510). -/
def ivFull (s : State) (fp : BitVec 128) : Bool :=
  match ivOf s fp with
  | some k => decide (k.b ≤ k.c ∧ k.recB.isNone ∧ ivTop < k.b + blk)
  | none => decide (ivTop < ivStart s fp + blk)

/-- What asking for an IV answers (R504, R505). -/
inductive IvAnswer | value (iv : BitVec 96) | wait | lost | exhausted | noKey
  deriving DecidableEq, Repr

/-- Take the next counter value of a key for polder `p` (R504, R505, R507 to R510). -/
def takeIv (fp : BitVec 128) (p : Fin 64) (s : State) : IvAnswer × State :=
  if !deployed s ∨ !s.vlt.keys.any (fun k => k.fp = fp ∧ k.polder = p) then (.noKey, s)
  else if keyLost s fp then (.lost, if fp ∈ s.vlt.lost then s else loseKey fp s)
  else if ivFull s fp then (.exhausted, s)
  else match ivOf s fp with
  | none =>
    if nsDeg s then (.lost, s)
    else let c := ivStart s fp
      (.wait, setIv { fp := fp, c := c, b := c, recB := some (c + blk) } s)
  | some k =>
    if k.b ≤ k.c then (.wait, s)
    else
      let c := k.c + 1
      let want := c = k.b - 2 ^ 19 ∧ k.recB.isNone ∧ k.b + blk ≤ ivTop
      (.value (BitVec.ofNat 96 (s.vlt.devId.toNat * 2 ^ 64 + k.c)),
       setIv { k with c := c, recB := if want then some (k.b + blk) else k.recB } s)

/-- Write one journal record, saving the overwritten slot's bound in the floor first (R506). -/
def journalWrite (fp : BitVec 128) (b : Option Nat) (top : Nat) (s : State) : State :=
  let j := s.vlt.jseq % 256
  let f := (floorCur s).getD {}
  let g := match sget none s.vlt.journal j with
    | none => f.g
    | some r => match r.b with | some x => max f.g x | none => f.h
  let s := floorWrite g (max f.h top) s
  bump pgVLT 0xA10 1 { s with vlt.journal := sset none s.vlt.journal j (some { fp := fp, b := b, seq := s.vlt.jseq }),
                              vlt.jseq := s.vlt.jseq + 1 }

/-! ### Meter records -/

/-- FLAGS of a record (R516). -/
def recFlags (chainStart step fenced swap unset boot : Bool) : BitVec 16 :=
  BitVec.ofNat 16 (b2n chainStart + 2 * b2n step + 4 * b2n fenced + 8 * b2n swap + 16 * b2n unset + 32 * b2n boot)

/-- The nine counters of a meter, in the order of R514. -/
def Meter.nine (m : Meter) : List Nat :=
  [m.hostIn, m.hostOut, m.tapeOut, m.tapeIn, m.tapeTime, m.posTime, m.cmds, m.slotsOwn, m.slotsUsed]

/-- The 256 bytes of a meter record (R516). -/
def MeterRec.bytes (r : MeterRec) (inst : Word) : List Byte :=
  [0x43, 0x4B, 0x4D, 0x52] ++ leBytes 1 2 ++ leBytes r.flags.toNat 2 ++ leBytes inst.toNat 4 ++
  [BitVec.ofNat 8 r.polder.val, 0, 0, 0] ++ leBytes r.tag.toNat 8 ++ leBytes r.minute 8 ++
  (r.counts.nine.map (fun n => leBytes n 8)).flatten ++ leBytes r.tsHash.toNat 8 ++ beBytes r.prev.toNat 48 ++
  beBytes r.sig.toNat 96

/-- Entry `i` of the active bank (R482). -/
def tsEntry (s : State) (i : Nat) : Byte := sget 0 (if s.ts.active then s.ts.bank1 else s.ts.bank0) i

/-- TSHASH: the first eight bytes of the active table's digest, as the registers hold them (R516, R524). -/
def tsHash (s : State) : BitVec 64 := BitVec.ofNat 64 (leNat ((sha384 ((List.range 4096).map (tsEntry s))).take 8))

/-- Form one polder's record at the close of a minute; SIG is the vault's: a free value (R515 to R518, log 18). -/
def closePolder (minute : Nat) (step : Bool) (p : Fin 64) (s : State) : State :=
  if !polderOn s p.val then s else
  let m := meterOf s p.val
  let prev := sget none s.vlt.chain p.val
  let fen := m.fenced || (sget 0 s.itg.fences (0x1000 + p.val) ≠ 0)
  let r : MeterRec := { flags := recFlags prev.isNone step fen m.tableSwap (!s.clk.timeSet) (!sget false s.vlt.firstRec p.val),
                        polder := p, tag := (polderOf s p.val).tag, minute := minute, counts := m,
                        tsHash := tsHash s, prev := prev.getD 0,
                        sig := BitVec.ofNat 768 (freeVal s) }
  let s := freeNext s
  let s := { s with vlt.chain := sset none s.vlt.chain p.val (some (BitVec.ofNat 384 (beNat (sha384 (r.bytes s.vlt.devId))))),
                    vlt.lastRec := sset none s.vlt.lastRec p.val (some r),
                    vlt.firstRec := sset false s.vlt.firstRec p.val true }
  let s := bump pgVLT 0xA14 1 s
  if s.vlt.waiting.length < 256 then { s with vlt.waiting := s.vlt.waiting ++ [r] }
  else raise pgVLT 2 (bump pgVLT 0xA18 1 { s with vlt.waiting := s.vlt.waiting.drop 1 ++ [r] })

/-- Close the interval for every enabled polder; every polder's counters start again at zero. -/
def closeMinute (step : Bool) (s : State) : State :=
  let s := if deployed s then (List.finRange 64).foldl (fun s p => closePolder s.vlt.minute step p s) s else s
  { s with vlt.meters := [] }

end Sys2Proof.Machine
end

