-- ==== Sys2Proof/Machine/Flags.lean ====
section
/-! DEFINITION. Flag computations shared by the families: the guarded write of R616 and R617. -/

namespace Sys2Proof.Machine

/-! ### Guarded writes -/

/-- GUARD_FAIL on a page. -/
def guardFail (page : Nat) (s : State) : State := raiseOpt page ((blockOf s page).bind guardFailBit) s

/-- A guarded value and its complement written one after the other. A pair already pending is broken by the
value write, which then starts no new one, so that the complement fails too; a complement that does not match
fails (R616, R617). Where the pair holds, the register takes the value and `f` acts on it. -/
def guardedWrite (page : Nat) (v c : Word) (f : State → State) (s : State) : State :=
  match sget none s.rf.guard page with
  | some _ => guardFail page (touchPage page s)
  | none => if c = ~~~v then f s else guardFail page s

/-! ### Writes to registers -/

/-- A write to the faulting word of a page clears FAULT (R618). -/
def parClear (page off : Nat) (s : State) : State :=
  if rbit s page 0x018 0 ∧ rfld s page 0x018 11 2 = off / 4 then rset s page 0x018 (rget s page 0x018 &&& ~~~1#32) else s

/-- A write to a CST or RCH register goes to its mirror: the tape side keeps the value it has until the group's next tick (R44,
R45). -/
def holdOld (page off : Nat) (s : State) : State :=
  if page < 0x1F8 ∨ 0x300 ≤ page ∨ (sget none s.tim.old (rkey page off)).isSome then s
  else { s with tim.old := sset none s.tim.old (rkey page off) (some (rget s page off)) }

/-- A write under the access codes RW and LIVE (R605, R606): while EN is 1 the LIVE fields take the value and an RW
field keeps its own, which is flagged; in a register of both codes only where the written value differs. -/
def putReg (page off : Nat) (row : RegRow) (v : Word) (s : State) : State :=
  let old := rget s page off
  let can := if pageEn s page then row.live else row.live ||| row.rw
  let s := if can = 0 then s else holdOld page off s
  let s := parClear page off (rset s page off ((old &&& ~~~can) ||| (v &&& can)))
  if pageEn s page ∧ (row.rw ≠ 0 ∨ row.resv) ∧ (row.live = 0 ∨ (v ^^^ old) &&& row.rw ≠ 0) then cfgWhileEn page s else s

/-- The row of a register of a page. -/
def rowOf (s : State) (page off : Nat) : RegRow := ((blockOf s page).bind (fun b => rowAt b off)).getD { first := off }

/-- A register's own row writes it: the write reaches the page, then acts under the access codes. -/
def ownWrite (page off : Nat) (v : Word) (s : State) : State :=
  let s := touchPage page s
  putReg page off (rowOf s page off) v s

end Sys2Proof.Machine
end

