-- ==== Sys2Proof/Machine/Aes.lean ====
section
/-! DEFINITION. AES-256, its key wrap and its Galois counter mode, the standards of R497 and R503 (FIPS 197, RFC 3394, RFC 5649,
NIST SP 800-38D). -/

namespace Sys2Proof

/-- Rows of the substitution table, the first entry of a row highest. -/
def sboxRows : List (BitVec 128) :=
  [0x637c777bf26b6fc53001672bfed7ab76#128, 0xca82c97dfa5947f0add4a2af9ca472c0#128, 0xb7fd9326363ff7cc34a5e5f171d83115#128,
   0x04c723c31896059a071280e2eb27b275#128, 0x09832c1a1b6e5aa0523bd6b329e32f84#128, 0x53d100ed20fcb15b6acbbe394a4c58cf#128,
   0xd0efaafb434d338545f9027f503c9fa8#128, 0x51a3408f929d38f5bcb6da2110fff3d2#128, 0xcd0c13ec5f974417c4a77e3d645d1973#128,
   0x60814fdc222a908846eeb814de5e0bdb#128, 0xe0323a0a4906245cc2d3ac629195e479#128, 0xe7c8376d8dd54ea96c56f4ea657aae08#128,
   0xba78252e1ca6b4c6e8dd741f4bbd8b8a#128, 0x703eb5664803f60e613557b986c11d9e#128, 0xe1f8981169d98e949b1e87e9ce5528df#128,
   0x8ca1890dbfe6426841992d0fb054bb16#128]

/-- Rows of the inverse table. -/
def invSboxRows : List (BitVec 128) :=
  [0x52096ad53036a538bf40a39e81f3d7fb#128, 0x7ce339829b2fff87348e4344c4dee9cb#128, 0x547b9432a6c2233dee4c950b42fac34e#128,
   0x082ea16628d924b2765ba2496d8bd125#128, 0x72f8f66486689816d4a45ccc5d65b692#128, 0x6c704850fdedb9da5e154657a78d9d84#128,
   0x90d8ab008cbcd30af7e45805b8b34506#128, 0xd02c1e8fca3f0f02c1afbd0301138a6b#128, 0x3a9111414f67dcea97f2cfcef0b4e673#128,
   0x96ac7422e7ad3585e2f937e81c75df6e#128, 0x47f11a711d29c5896fb7620eaa18be1b#128, 0xfc563e4bc6d279209adbc0fe78cd5af4#128,
   0x1fdda8338807c731b11210592780ec5f#128, 0x60517fa919b54a0d2de57a9f93c99cef#128, 0xa0e03b4dae2af5b0c8ebbb3c83539961#128,
   0x172b047eba77d626e169146355210c7d#128]

def tableAt (rows : List (BitVec 128)) (x : Byte) : Byte :=
  ((rows[x.toNat / 16]?).getD 0 >>> (8 * (15 - x.toNat % 16))).setWidth 8

def subByte (x : Byte) : Byte := tableAt sboxRows x
def invSubByte (x : Byte) : Byte := tableAt invSboxRows x

def xorBytes (a b : List Byte) : List Byte := List.zipWith (· ^^^ ·) a b

/-- Rows of the 4 × 4 state, held column by column, turn left by their number; and back. -/
def shiftRows : List Byte → List Byte
  | [a0, a1, a2, a3, b0, b1, b2, b3, c0, c1, c2, c3, d0, d1, d2, d3] =>
    [a0, b1, c2, d3, b0, c1, d2, a3, c0, d1, a2, b3, d0, a1, b2, c3]
  | x => x
def invShiftRows : List Byte → List Byte
  | [a0, b1, c2, d3, b0, c1, d2, a3, c0, d1, a2, b3, d0, a1, b2, c3] =>
    [a0, a1, a2, a3, b0, b1, b2, b3, c0, c1, c2, c3, d0, d1, d2, d3]
  | x => x

/-- Multiplication by x in the field of FIPS 197. -/
def xtime (x : Byte) : Byte := (x <<< 1) ^^^ (if x.getLsbD 7 then 0x1B else 0)

/-- Each column times the polynomial of FIPS 197. -/
def mixCols : List Byte → List Byte
  | a :: b :: c :: d :: r =>
    (xtime a ^^^ xtime b ^^^ b ^^^ c ^^^ d) :: (a ^^^ xtime b ^^^ xtime c ^^^ c ^^^ d) ::
    (a ^^^ b ^^^ xtime c ^^^ xtime d ^^^ d) :: (xtime a ^^^ a ^^^ b ^^^ c ^^^ xtime d) :: mixCols r
  | x => x

/-- The inverse polynomial is the polynomial times one of two terms. -/
def preMix : List Byte → List Byte
  | a :: b :: c :: d :: r =>
    let u := xtime (xtime (a ^^^ c))
    let v := xtime (xtime (b ^^^ d))
    (a ^^^ u) :: (b ^^^ v) :: (c ^^^ u) :: (d ^^^ v) :: preMix r
  | x => x
def invMixCols (x : List Byte) : List Byte := mixCols (preMix x)

/-- The next word of the key schedule: the words so far, newest first, and the round constant. -/
def keyWord (i : Nat) (rcon : Byte) (ws : List (List Byte)) : List (List Byte) :=
  let t := (ws.head?).getD []
  let t := if i % 8 = 0 then
      match t with
      | [a, b, c, d] => [subByte b ^^^ rcon, subByte c, subByte d, subByte a]
      | x => x
    else if i % 8 = 4 then t.map subByte else t
  xorBytes ((ws[7]?).getD []) t :: ws

def keyWords : Nat → Nat → Byte → List (List Byte) → List (List Byte)
  | 0, _, _, ws => ws
  | n + 1, i, rcon, ws => keyWords n (i + 1) (if i % 8 = 0 then xtime rcon else rcon) (keyWord i rcon ws)

def chunks (k : Nat) : Nat → List Byte → List (List Byte)
  | 0, _ => []
  | n + 1, bs => bs.take k :: chunks k n (bs.drop k)

/-- The 15 round keys of a 32-byte key. -/
def roundKeys (key : List Byte) : List (List Byte) :=
  chunks 16 15 (keyWords 52 8 1 (chunks 4 8 key).reverse).reverse.flatten

/-- The rounds after the first key; the last one mixes no columns. -/
def encRounds : List (List Byte) → List Byte → List Byte
  | [], b => b
  | [k], b => xorBytes (shiftRows (b.map subByte)) k
  | k :: ks, b => encRounds ks (xorBytes (mixCols (shiftRows (b.map subByte))) k)
def decRounds : List (List Byte) → List Byte → List Byte
  | [], b => b
  | [k], b => (invShiftRows (xorBytes b k)).map invSubByte
  | k :: ks, b => (invShiftRows (invMixCols (xorBytes (decRounds ks b) k))).map invSubByte

/-- AES on a 16-byte block, under round keys. -/
def aesEnc (ks : List (List Byte)) (b : List Byte) : List Byte := encRounds ks.tail (xorBytes b ((ks.head?).getD []))
def aesDec (ks : List (List Byte)) (b : List Byte) : List Byte := xorBytes (decRounds ks.tail b) ((ks.head?).getD [])

/-! ### Key wrap -/

/-- One step of the wrap: the register and the parts, the part to be wrapped next first. -/
def wrapStep (ks : List (List Byte)) (t : Nat) (x : List Byte × List (List Byte)) : List Byte × List (List Byte) :=
  match x.2 with
  | [] => x
  | r :: rs => let b := aesEnc ks (x.1 ++ r); (xorBytes (b.take 8) (beBytes t 8), rs ++ [b.drop 8])
def unwrapStep (ks : List (List Byte)) (t : Nat) (x : List Byte × List (List Byte)) : List Byte × List (List Byte) :=
  match x.2.getLast? with
  | none => x
  | some r => let b := aesDec ks (xorBytes x.1 (beBytes t 8) ++ r); (b.take 8, b.drop 8 :: x.2.dropLast)

/-- Steps 1 to `n`, and back. -/
def wrapSteps (ks : List (List Byte)) : Nat → List Byte × List (List Byte) → List Byte × List (List Byte)
  | 0, x => x
  | n + 1, x => wrapStep ks (n + 1) (wrapSteps ks n x)
def unwrapSteps (ks : List (List Byte)) : Nat → List Byte × List (List Byte) → List Byte × List (List Byte)
  | 0, x => x
  | n + 1, x => unwrapSteps ks n (unwrapStep ks (n + 1) x)

/-- The initial value: RFC 3394's for KWALG 1, RFC 5649's for 32 bytes for KWALG 2 (R497). -/
def wrapInit (kwalg : Nat) : List Byte :=
  if kwalg = 1 then List.replicate 8 0xA6 else [0xA6, 0x59, 0x59, 0xA6, 0, 0, 0, 32]

/-- The wrap of a 32-byte key. -/
def keyWrap (kwalg : Nat) (kek key : List Byte) : List Byte :=
  let x := wrapSteps (roundKeys kek) 24 (wrapInit kwalg, chunks 8 4 key)
  x.1 ++ x.2.flatten

/-- The unwrapped key, where the integrity check passes. -/
def keyUnwrap (kwalg : Nat) (kek w : List Byte) : Option (List Byte) :=
  let x := unwrapSteps (roundKeys kek) 24 (w.take 8, chunks 8 4 (w.drop 8))
  if x.1 = wrapInit kwalg then some x.2.flatten else none

/-! ### Galois counter mode -/

/-- Multiplication in the field of GCM, the factor's bits from its first on. -/
def ghashMul : Nat → BitVec 128 → BitVec 128 → BitVec 128 → BitVec 128
  | 0, _, _, z => z
  | n + 1, x, v, z =>
    ghashMul n (x <<< 1) ((v >>> 1) ^^^ (if v.getLsbD 0 then 0xE1000000000000000000000000000000#128 else 0))
      (if x.getLsbD 127 then z ^^^ v else z)

def ghashFrom (h : BitVec 128) : Nat → BitVec 128 → List Byte → BitVec 128
  | 0, y, _ => y
  | n + 1, y, bs =>
    let b := bs.take 16
    let x := beNat (b ++ List.replicate (16 - b.length) 0)
    ghashFrom h n (ghashMul 128 (y ^^^ BitVec.ofNat 128 x) h 0) (bs.drop 16)

def pad16 (bs : List Byte) : List Byte := bs ++ List.replicate ((16 - bs.length % 16) % 16) 0

/-- The hash over associated data and ciphertext. -/
def ghash (h : BitVec 128) (aad c : List Byte) : BitVec 128 :=
  let m := pad16 aad ++ pad16 c ++ beBytes (8 * aad.length) 8 ++ beBytes (8 * c.length) 8
  ghashFrom h (m.length / 16) 0 m

/-- Counter mode from block counter `j`; a body is under 2^32 blocks. -/
def ctrMode (ks : List (List Byte)) (iv : List Byte) : Nat → Nat → List Byte → List Byte
  | 0, _, _ => []
  | n + 1, j, bs => xorBytes (bs.take 16) (aesEnc ks (iv ++ beBytes j 4)) ++ ctrMode ks iv n (j + 1) (bs.drop 16)

/-- Encrypt, or decrypt: the mode is its own inverse. -/
def gcmCrypt (key iv bs : List Byte) : List Byte := ctrMode (roundKeys key) iv ((bs.length + 15) / 16) 2 bs

/-- The tag of a ciphertext. -/
def gcmTag (key iv aad c : List Byte) : BitVec 128 :=
  let ks := roundKeys key
  ghash (BitVec.ofNat 128 (beNat (aesEnc ks (List.replicate 16 0)))) aad c ^^^ BitVec.ofNat 128 (beNat (aesEnc ks (iv ++ beBytes 1 4)))

end Sys2Proof
end

