-- ==== Sys2Proof/Machine/ZstdCode.lean ====
section
/-! DEFINITION. The compressed blocks of a Zstandard frame (R341, RFC 8878): FSE and Huffman tables, the literals and sequences
sections, and what the sequences make. `none` stands for what does not conform. -/

namespace Sys2Proof

/-! ### Bits -/

/-- `n` bits of a little-endian bit stream from bit `pos` on, read forward. -/
def zBits (x pos n : Nat) : Nat := x / 2 ^ pos % 2 ^ n

/-- A stream that is read backward: its bits, and how many of them are left. -/
structure BackBits where
  bits : Nat
  left : Nat
  deriving DecidableEq, Repr

/-- A backward stream begins below the highest bit that is set in its last byte. -/
def backStart (bs : List Byte) : Option BackBits :=
  let x := leNat bs
  if x < 256 ^ (bs.length - 1) ∨ bs = [] then none else some { bits := x, left := Nat.log2 x }

/-- The next `n` bits; those below the stream's start read as zero. -/
def BackBits.peek (b : BackBits) (n : Nat) : Nat := if n ≤ b.left then zBits b.bits (b.left - n) n else b.bits % 2 ^ b.left * 2 ^ (n - b.left)

/-- Take `n` bits that are there. -/
def BackBits.take (b : BackBits) (n : Nat) : Option (Nat × BackBits) := if n ≤ b.left then some (b.peek n, { b with left := b.left - n }) else none

/-! ### FSE -/

/-- An entry of an FSE table: its symbol, the bits to read for the next state, and the base they are added to. -/
structure FseEnt where
  sym  : Nat
  nb   : Nat
  base : Nat
  deriving DecidableEq, Repr

/-- An FSE table with its accuracy; RLE mode is one entry of accuracy 0. -/
structure Fse where
  log  : Nat
  ents : List FseEnt
  deriving DecidableEq, Repr

/-- A run of zero probabilities: fields of 2 bits, up to one below 3. -/
def zeroRuns (x : Nat) : Nat → Nat → Nat × Nat
  | 0, pos => (0, pos)
  | f + 1, pos =>
    let n := zBits x pos 2
    if n < 3 then (n, pos + 2) else let (m, p) := zeroRuns x f (pos + 2); (3 + m, p)

/-- The probabilities of a table description; −1 stands for less than one. `rem` counts what is left to give out. -/
def readProbs (x : Nat) : Nat → Nat → Nat → List Int → Option (List Int × Nat)
  | 0, _, _, _ => none
  | f + 1, rem, pos, acc =>
    if rem = 0 then some (acc, pos) else
    let n := Nat.log2 (rem + 1) + 1
    let v := zBits x pos n
    let spare := 2 ^ n - 2 - rem
    let (v, pos) := if v % 2 ^ (n - 1) < spare then (v % 2 ^ (n - 1), pos + n - 1)
      else (if 2 ^ (n - 1) ≤ v then v - spare else v, pos + n)
    let p : Int := (v : Int) - 1
    if rem < p.natAbs then none
    else if p = 0 then let (z, pos) := zeroRuns x 100 pos; readProbs x f rem pos (acc ++ 0 :: List.replicate z 0)
    else readProbs x f (rem - p.natAbs) pos (acc ++ [p])

/-- Places for the symbols of a table, in turn by the step of RFC 8878; those below `high` only. -/
def spread (size high : Nat) : Nat → List Nat → Nat → Sparse Nat → Sparse Nat
  | 0, _, _, m => m
  | _ + 1, [], _, m => m
  | f + 1, s :: r, pos, m =>
    if high ≤ pos then spread size high f (s :: r) ((pos + size / 2 + size / 8 + 3) % size) m
    else spread size high f r ((pos + size / 2 + size / 8 + 3) % size) (sset 0 m pos s)

/-- The entries of a table, given the symbol of each state and how often each symbol has come. -/
def fseEnts (log : Nat) : List Nat → Sparse Nat → List FseEnt
  | [], _ => []
  | s :: r, seen =>
    let x := sget 0 seen s
    let nb := log - Nat.log2 x
    ⟨s, nb, x * 2 ^ nb - 2 ^ log⟩ :: fseEnts log r (sset 0 seen s (x + 1))

/-- The table of a distribution. -/
def fseTable (log : Nat) (probs : List Int) : Fse :=
  let size := 2 ^ log
  let syms := probs.zipIdx
  let less := (syms.filter (fun x => x.1 = -1)).map (·.2)
  let high := size - less.length
  let many := syms.flatMap (fun x => if 0 < x.1 then List.replicate x.1.toNat x.2 else [])
  let m := spread size high (2 * size) many 0 []
  let place := (List.range high).map (sget 0 m) ++ less.reverse
  let seen := syms.foldl (fun m x => sset 0 m x.2 x.1.natAbs) []
  { log := log, ents := fseEnts log place seen }

/-- A table description at the start of a list of bytes, with symbols and accuracy up to the given ones, and how many bytes it takes. -/
def readFse (maxLog maxSym : Nat) (bs : List Byte) : Option (Fse × Nat) :=
  let x := leNat (bs.take 256)
  let log := 5 + zBits x 0 4
  if maxLog < log then none else
  match readProbs x 300 (2 ^ log) 4 [] with
  | some (probs, pos) =>
    let used := (pos + 7) / 8
    if maxSym + 1 < probs.length ∨ bs.length < used then none else some (fseTable log probs, used)
  | none => none

def Fse.at_ (t : Fse) (state : Nat) : FseEnt := (t.ents[state]?).getD ⟨0, 0, 0⟩

/-! ### Huffman coding of literals -/

/-- Weights from two interleaved FSE states: a symbol of one, then of the other, until the stream has ended. -/
def readWeights (t : Fse) : Nat → Nat → Nat → BackBits → List Nat → Option (List Nat)
  | 0, _, _, _, _ => none
  | f + 1, a, b, s, acc =>
    let e := t.at_ a
    let acc := acc ++ [e.sym]
    match s.take e.nb with
    | some (v, s) => readWeights t f b (e.base + v) s acc
    | none => some (acc ++ [(t.at_ b).sym])

/-- A Huffman table: how many bits its longest code has, and symbol and code length by what the next bits read. -/
structure Huff where
  bits  : Nat
  codes : List (Nat × Nat)
  deriving DecidableEq, Repr

/-- The table of the weights given, the last symbol's following from them. -/
def huffTable (ws : List Nat) : Option Huff :=
  let sum := (ws.map (fun w => if w = 0 then 0 else 2 ^ (w - 1))).sum
  if sum = 0 then none else
  let n := Nat.log2 sum + 1
  let rest := 2 ^ n - sum
  if 11 < n ∨ 255 < ws.length ∨ 2 ^ Nat.log2 rest ≠ rest then none else
  let all := (ws ++ [Nat.log2 rest + 1]).zipIdx
  let of := fun (w : Nat) => (all.filter (·.1 = w)).flatMap (fun x => List.replicate (2 ^ (w - 1)) (x.2, n + 1 - w))
  some { bits := n, codes := (List.range n).flatMap (fun k => of (k + 1)) }

/-- A Huffman table description and how many bytes it takes. -/
def readHuff (bs : List Byte) : Option (Huff × Nat) :=
  match bs with
  | [] => none
  | h :: r =>
    if 128 ≤ h.toNat then
      let n := h.toNat - 127
      let by_ := (n + 1) / 2
      if r.length < by_ then none else
      ((huffTable (((r.take by_).flatMap (fun b => [b.toNat / 16, b.toNat % 16])).take n)).map (·, 1 + by_))
    else
      let c := r.take h.toNat
      if c.length < h.toNat then none else
      match readFse 6 255 c with
      | none => none
      | some (t, used) =>
        match backStart (c.drop used) with
        | none => none
        | some s => match s.take t.log with
          | none => none
          | some (a, s) => match s.take t.log with
            | none => none
            | some (b, s) => match readWeights t 256 a b s [] with
              | some ws => (huffTable ws).map (·, 1 + h.toNat)
              | none => none

/-- The symbols of one stream, which ends with its last code. -/
def huffSyms (t : Huff) : Nat → BackBits → Option (List Byte)
  | 0, s => if s.left = 0 then some [] else none
  | n + 1, s =>
    let e := (t.codes[s.peek t.bits]?).getD (0, 0)
    match s.take e.2 with
    | some (_, s) => (huffSyms t n s).map (BitVec.ofNat 8 e.1 :: ·)
    | none => none

def huffStream (t : Huff) (n : Nat) (bs : List Byte) : Option (List Byte) := (backStart bs).bind (huffSyms t n)

/-! ### Literals -/

/-- What a frame carries from one compressed block to the next. -/
structure ZCtx where
  huff : Option Huff := none
  ll   : Option Fse := none
  off  : Option Fse := none
  ml   : Option Fse := none
  reps : List Nat := [1, 4, 8]
  deriving DecidableEq, Repr

/-- Four streams of literals: the first three of one length, the rest in the last; their sizes stand in front. -/
def huffFour (t : Huff) (n : Nat) (bs : List Byte) : Option (List Byte) :=
  let size := fun (k : Nat) => leNat ((bs.drop (2 * k)).take 2)
  let body := bs.drop 6
  let q := (n + 3) / 4
  if bs.length < 6 ∨ body.length < size 0 + size 1 + size 2 ∨ n < 3 * q then none else
  match huffStream t q (body.take (size 0)), huffStream t q ((body.drop (size 0)).take (size 1)),
    huffStream t q ((body.drop (size 0 + size 1)).take (size 2)), huffStream t (n - 3 * q) (body.drop (size 0 + size 1 + size 2)) with
  | some a, some b, some c, some d => some (a ++ b ++ c ++ d)
  | _, _, _, _ => none

/-- The literals section: the literals, the Huffman table in force, and what follows. -/
def readLiterals (most : Nat) (ctx : ZCtx) (bs : List Byte) : Option (List Byte × ZCtx × List Byte) :=
  let x := leNat (bs.take 5)
  let kind := x % 4
  let sf := x / 4 % 4
  if bs = [] then none
  else if kind < 2 then
    let (n, hd) := if sf % 2 = 0 then (zBits x 3 5, 1) else if sf = 1 then (zBits x 4 12, 2) else (zBits x 4 20, 3)
    let r := bs.drop hd
    if bs.length < hd ∨ most < n then none
    else if kind = 0 then (if r.length < n then none else some (r.take n, ctx, r.drop n))
    else match r with
      | b :: r => some (List.replicate n b, ctx, r)
      | [] => none
  else
    let (w, hd) := if sf < 2 then (10, 3) else if sf = 2 then (14, 4) else (18, 5)
    let n := zBits x 4 w
    let size := zBits x (4 + w) w
    let body := (bs.drop hd).take size
    if bs.length < hd + size ∨ most < n then none else
    let table := if kind = 2 then readHuff body else ctx.huff.map (·, 0)
    match table with
    | none => none
    | some (t, used) =>
      let lits := if sf = 0 then huffStream t n (body.drop used) else huffFour t n (body.drop used)
      lits.map (·, { ctx with huff := some t }, bs.drop (hd + size))

/-! ### Sequences -/

/-- The predefined distributions. -/
def llProbs : List Int := [4, 3, 2, 2, 2, 2, 2, 2, 2, 2, 2, 2, 2, 1, 1, 1, 2, 2, 2, 2, 2, 2, 2, 2, 2, 3, 2, 1, 1, 1, 1, 1, -1, -1, -1, -1]
def mlProbs : List Int := [1, 4, 3, 2, 2, 2, 2, 2, 2] ++ List.replicate 37 1 ++ List.replicate 7 (-1)
def offProbs : List Int := [1, 1, 1, 1, 1, 1, 2, 2, 2] ++ List.replicate 15 1 ++ List.replicate 5 (-1)

/-- Base and extra bits of a literals length code. -/
def llCode (c : Nat) : Nat × Nat :=
  if c < 16 then (c, 0)
  else (([(16, 1), (18, 1), (20, 1), (22, 1), (24, 2), (28, 2), (32, 3), (40, 3), (48, 4)] : List (Nat × Nat))[c - 16]?).getD (2 ^ (c - 19), c - 19)

/-- Base and extra bits of a match length code. -/
def mlCode (c : Nat) : Nat × Nat :=
  if c < 32 then (c + 3, 0)
  else (([(35, 1), (37, 1), (39, 1), (41, 1), (43, 2), (47, 2), (51, 3), (59, 3), (67, 4), (83, 4), (99, 5)] : List (Nat × Nat))[c - 32]?).getD
    (2 ^ (c - 36) + 3, c - 36)

/-- The table of a mode: predefined, RLE, described here, or repeated; and how many bytes it takes. -/
def modeTable (mode maxLog maxSym defLog : Nat) (def_ : List Int) (old : Option Fse) (bs : List Byte) : Option (Fse × Nat) :=
  match mode with
  | 0 => some (fseTable defLog def_, 0)
  | 1 => match bs with
    | b :: _ => if maxSym < b.toNat then none else some ({ log := 0, ents := [⟨b.toNat, 0, 0⟩] }, 1)
    | [] => none
  | 2 => readFse maxLog maxSym bs
  | _ => old.map (·, 0)

/-- A sequence: literals to copy, then a match. -/
structure ZSeq where
  ll  : Nat
  ml  : Nat
  off : Nat
  deriving DecidableEq, Repr

/-- The next state of a table. -/
def nextState (t : Fse) (st : Nat) (s : BackBits) : Option (Nat × BackBits) := (s.take (t.at_ st).nb).map (fun x => ((t.at_ st).base + x.1, x.2))

/-- The extra bits of a sequence, the offset's first. -/
def seqValues (l o m : Nat) (s : BackBits) : Option (ZSeq × BackBits) :=
  match s.take o with
  | none => none
  | some (vo, s) => match s.take (mlCode m).2 with
    | none => none
    | some (vm, s) => (s.take (llCode l).2).map (fun x => (⟨(llCode l).1 + x.1, (mlCode m).1 + vm, 2 ^ o + vo⟩, x.2))

/-- `n` sequences from the states; the stream ends with the last one's bits. -/
def readSeqs (tl to_ tm : Fse) : Nat → Nat → Nat → Nat → BackBits → Option (List ZSeq)
  | 0, _, _, _, s => if s.left = 0 then some [] else none
  | n + 1, l, o, m, s =>
    match seqValues (tl.at_ l).sym (to_.at_ o).sym (tm.at_ m).sym s with
    | none => none
    | some (q, s) =>
      if n = 0 then (if s.left = 0 then some [q] else none) else
      match nextState tl l s with
      | none => none
      | some (l, s) => match nextState tm m s with
        | none => none
        | some (m, s) => match nextState to_ o s with
          | none => none
          | some (o, s) => (readSeqs tl to_ tm n l o m s).map (q :: ·)

/-- How many sequences a block has, and how many bytes say so. -/
def seqCount (bs : List Byte) : Nat × Nat :=
  let b := fun (i : Nat) => ((bs[i]?).map (·.toNat)).getD 0
  if b 0 < 128 then (b 0, 1) else if b 0 < 255 then (256 * (b 0 - 128) + b 1, 2) else (b 1 + 256 * b 2 + 0x7F00, 3)

/-- The sequences section. -/
def readSection (ctx : ZCtx) (bs : List Byte) : Option (List ZSeq × ZCtx) :=
  let (n, hd) := seqCount bs
  if bs = [] ∨ bs.length < hd then none
  else if n = 0 then (if bs.length = hd then some ([], ctx) else none) else
  match bs.drop hd with
  | [] => none
  | mode :: r =>
    let m := mode.toNat
    if m % 4 ≠ 0 then none else
    match modeTable (m / 64) 9 35 6 llProbs ctx.ll r with
    | none => none
    | some (tl, u) => match modeTable (m / 16 % 4) 8 31 5 offProbs ctx.off (r.drop u) with
      | none => none
      | some (to_, v) => match modeTable (m / 4 % 4) 9 52 6 mlProbs ctx.ml (r.drop (u + v)) with
        | none => none
        | some (tm, w) => match (backStart (r.drop (u + v + w))).bind (·.take tl.log) with
          | none => none
          | some (l, s) => match s.take to_.log with
            | none => none
            | some (o, s) => match s.take tm.log with
              | none => none
              | some (k, s) => (readSeqs tl to_ tm n l o k s).map (·, { ctx with ll := some tl, off := some to_, ml := some tm })

/-! ### What the sequences make -/

/-- The offset that an offset value names, with the last three offsets (RFC 8878). -/
def useOffset (v ll : Nat) (reps : List Nat) : Nat × List Nat :=
  let r := fun (i : Nat) => (reps[i]?).getD 0
  let k := if 3 < v then 4 else if ll = 0 then v else v - 1
  match k with
  | 0 => (r 0, reps)
  | 1 => (r 1, [r 1, r 0, r 2])
  | 2 => (r 2, [r 2, r 0, r 1])
  | 3 => (r 0 - 1, [r 0 - 1, r 0, r 1])
  | _ => (v - 3, [v - 3, r 0, r 1])

/-- Copy `n` bytes from `off` back; the newest byte stands first. -/
def copyBack (off : Nat) : Nat → List Byte → List Byte
  | 0, out => out
  | n + 1, out => copyBack off n (((out[off - 1]?).getD 0) :: out)

/-- Literals and matches in turn, then the literals left over; no match reaches behind the window or the frame's start. -/
def runSeqs (window : Nat) : List ZSeq → List Nat → List Byte → List Byte → Option (List Byte × List Nat)
  | [], reps, lits, out => some (lits.reverse ++ out, reps)
  | q :: qs, reps, lits, out =>
    let (off, reps) := useOffset q.off q.ll reps
    let out := (lits.take q.ll).reverse ++ out
    if lits.length < q.ll ∨ off = 0 ∨ window < off ∨ out.length < off then none
    else runSeqs window qs reps (lits.drop q.ll) (copyBack off q.ml out)

/-- A compressed block, whose content goes behind `out` (newest byte first); at most `most` bytes of it. -/
def zDecode (window most : Nat) (ctx : ZCtx) (bs out : List Byte) : Option (List Byte × ZCtx) :=
  match readLiterals most ctx bs with
  | none => none
  | some (lits, ctx, r) => match readSection ctx r with
    | none => none
    | some (qs, ctx) =>
      if most < lits.length + (qs.map (·.ml)).sum then none else
      (runSeqs window qs ctx.reps lits out).map (fun x => (x.1, { ctx with reps := x.2 }))

end Sys2Proof
end

