-- ==== Sys2Proof/Machine/Zstd.lean ====
section
/-! DEFINITION. Zstandard frames as R340 and R341 have them (RFC 8878): the frame, its blocks and the XXH64 content checksum. -/

namespace Sys2Proof

/-! ### XXH64 (R340) -/

abbrev X64 : Type := BitVec 64

def xp1 : X64 := 0x9E3779B185EBCA87
def xp2 : X64 := 0xC2B2AE3D27D4EB4F
def xp3 : X64 := 0x165667B19E3779F9
def xp4 : X64 := 0x85EBCA77C2B2AE63
def xp5 : X64 := 0x27D4EB2F165667C5

def rotl (x : X64) (n : Nat) : X64 := (x <<< n) ||| (x >>> (64 - n))
def xRound (acc x : X64) : X64 := rotl (acc + x * xp2) 31 * xp1
def xMerge (h v : X64) : X64 := (h ^^^ xRound 0 v) * xp1 + xp4
def lane64 (bs : List Byte) (i n : Nat) : X64 := BitVec.ofNat 64 (leNat ((bs.drop i).take n))

/-- Stripes of 32 bytes into the four lanes. -/
def xStripes : Nat → X64 × X64 × X64 × X64 → List Byte → X64 × X64 × X64 × X64
  | 0, v, _ => v
  | n + 1, (a, b, c, d), bs =>
    xStripes n (xRound a (lane64 bs 0 8), xRound b (lane64 bs 8 8), xRound c (lane64 bs 16 8), xRound d (lane64 bs 24 8)) (bs.drop 32)

/-- What is left behind the stripes: words of 8 bytes, one of 4, single bytes. -/
def xTail : Nat → X64 → List Byte → X64
  | 0, h, _ => h
  | n + 1, h, bs =>
    if 8 ≤ bs.length then xTail n (rotl (h ^^^ xRound 0 (lane64 bs 0 8)) 27 * xp1 + xp4) (bs.drop 8)
    else if 4 ≤ bs.length then xTail n (rotl (h ^^^ lane64 bs 0 4 * xp1) 23 * xp2 + xp3) (bs.drop 4)
    else match bs with
      | [] => h
      | b :: r => xTail n (rotl (h ^^^ b.setWidth 64 * xp5) 11 * xp1) r

/-- XXH64 with seed 0. -/
def xxh64 (bs : List Byte) : X64 :=
  let n := bs.length / 32
  let (a, b, c, d) := xStripes n (xp1 + xp2, xp2, 0, 0 - xp1) bs
  let h := if n = 0 then xp5
    else xMerge (xMerge (xMerge (xMerge (rotl a 1 + rotl b 7 + rotl c 12 + rotl d 18) a) b) c) d
  let h := xTail 32 (h + BitVec.ofNat 64 bs.length) (bs.drop (32 * n))
  let h := (h ^^^ (h >>> 33)) * xp2
  let h := (h ^^^ (h >>> 29)) * xp3
  h ^^^ (h >>> 32)

/-- The four bytes of the content checksum (R340). -/
def zCheck (content : List Byte) : List Byte := leBytes (xxh64 content).toNat 4

/-! ### Writing a frame (R340) -/

/-- The most content of a block: 128 KiB. -/
abbrev zBlockMax : Nat := 131072

/-- A block: its header of 3 bytes and what follows it. -/
def zBlock (last : Bool) (kind size : Nat) (bs : List Byte) : List Byte := leBytes (b2n last + 2 * kind + 8 * size) 3 ++ bs

/-- Content in raw blocks; an empty one if there is none. -/
def zRaw : Nat → List Byte → List Byte
  | 0, c => zBlock true 0 c.length c
  | n + 1, c =>
    if c.length ≤ zBlockMax then zBlock true 0 c.length c
    else zBlock false 0 zBlockMax (c.take zBlockMax) ++ zRaw n (c.drop zBlockMax)

/-- The window of a compressor's frames: 4 MiB (R340). -/
abbrev zWriteWindow : Nat := 4194304

/-- Content in the blocks that a compressor chose; what they leave goes out raw. A repeated byte is one, and a compressed block stands for
its content, only where it is so; else the content goes out raw. `done` is what stands before, newest byte first. -/
def zBlocks : List ZBlock → ZCtx → List Byte → List Byte → List Byte
  | [], _, _, c => zRaw (c.length / zBlockMax) c
  | b :: bs, ctx, done, c =>
    let n := min (min b.count zBlockMax) c.length
    if n = 0 then zBlocks bs ctx done c else
    let last := decide (n = c.length)
    let out := (c.take n).reverse ++ done
    let raw := (zBlock last 0 n (c.take n), ctx)
    let (blk, ctx) := match b with
      | .raw _ => raw
      | .rle _ => if (c.take n).all (fun x => decide (some x = c.head?)) then (zBlock last 1 n (c.take 1), ctx) else raw
      | .comp _ bytes => match zDecode zWriteWindow zBlockMax ctx bytes done with
        | some (made, ctx') => if made = out ∧ bytes.length ≤ zBlockMax then (zBlock last 2 bytes.length bytes, ctx') else raw
        | none => raw
    if last then blk else blk ++ zBlocks bs ctx out (c.drop n)

/-- The frame of a content (R340). -/
def zFrame (content : List Byte) (blocks : List ZBlock) : List Byte :=
  [0x28, 0xB5, 0x2F, 0xFD, 0x04, 0x60] ++ zBlocks blocks {} [] content ++ zCheck content

/-! ### Reading a frame (R341) -/

/-- The blocks of a frame: their content behind `out`, newest byte first, and what stands behind the last. `most` is the frame's block
limit. -/
def zUnblock (window most : Nat) : Nat → ZCtx → List Byte → List Byte → Option (List Byte × List Byte)
  | 0, _, _, _ => none
  | f + 1, ctx, bs, out =>
    let h := leNat (bs.take 3)
    let size := h / 8
    let rest := bs.drop 3
    let step := fun (out : List Byte) (used : Nat) (ctx : ZCtx) =>
      if h % 2 = 1 then some (out, rest.drop used) else zUnblock window most f ctx (rest.drop used) out
    if bs.length < 3 ∨ most < size then none
    else if h / 2 % 4 = 0 then (if rest.length < size then none else step ((rest.take size).reverse ++ out) size ctx)
    else if h / 2 % 4 = 1 then (match rest with | [] => none | b :: _ => step (List.replicate size b ++ out) 1 ctx)
    else if h / 2 % 4 = 2 then
      match if rest.length < size then none else zDecode window most ctx (rest.take size) out with
      | some (out, ctx) => step out size ctx
      | none => none
    else none

/-- The window that a window descriptor gives (RFC 8878). -/
def zWindow (b : Byte) : Nat := 2 ^ (10 + b.toNat / 8) + 2 ^ (10 + b.toNat / 8) / 8 * (b.toNat % 8)

/-- The content of a frame of `ulen` bytes of content; none where R341 rejects it. -/
def zRead (ulen : Nat) (frame : List Byte) : Option (List Byte) :=
  let d := leNat ((frame.drop 4).take 1)
  let single := d / 32 % 2 = 1
  let widB := if single then 0 else 1
  let didB := ([0, 1, 2, 4][d % 4]?).getD 0
  let fcsB := if d / 64 = 0 then (if single then 1 else 0) else 2 ^ (d / 64)
  let head := 5 + widB + didB + fcsB
  let fcs := leNat ((frame.drop (5 + widB + didB)).take fcsB) + (if d / 64 = 1 then 256 else 0)
  let window := if single then fcs else zWindow (BitVec.ofNat 8 (leNat ((frame.drop 5).take 1)))
  if frame.length < head ∨ leNat (frame.take 4) ≠ 0xFD2FB528 ∨ d / 8 % 2 = 1 ∨ d / 4 % 2 = 0 ∨
      leNat ((frame.drop (5 + widB)).take didB) ≠ 0 ∨ 8388608 < window ∨ (0 < fcsB ∧ fcs ≠ ulen) then none else
  match zUnblock window (min window zBlockMax) frame.length {} (frame.drop head) [] with
  | none => none
  | some (made, rest) => let content := made.reverse; if rest = zCheck content ∧ content.length = ulen then some content else none

end Sys2Proof
end

