-- ==== Sys2Proof/Machine/RecordFlow.lean ====
section
/-! DEFINITION. The flow of records: taking words and cutting groups (R322 to R336), the group header
(R339), starting engines in a polder's service slot (R483, R485), placement (R342 to R346), the rewind
(R332), and the read-back path (R361, R362, R393, R394). -/

namespace Sys2Proof.Machine

/-! ### Cutting groups -/

/-- GRPMAX × 16 KiB (R333). -/
def grpLimit (s : State) (p : Nat) : Nat := rfld s (pgRIQ p) 0x104 8 0 * 16384

/-- The size of a group under R333; `extra` entries are being filled. -/
def grpSize (g : Grp) (extra : Nat) : Nat := g.content.length + 8 * (g.entries.length + extra)

/-- The length a started write gives the record of an LRN (R337 RECLEN). -/
def recLenOf (s : State) (part lrn : Nat) : Nat :=
  match s.host.cmds.find? (fun c => c.e.opc = 0x02 ∧ c.started ∧ c.e.part.toNat = part ∧ c.lrnA ≤ lrn ∧ lrn < c.lrnZ) with
  | none => 0
  | some c => if csp c.e 0x24 4 ≠ 0 then csp c.e 0x24 4 else ((c.lens[lrn - c.lrnA]?).map (·.toNat)).getD 0

/-- The entry being filled is finished: KIND from where it began and whether the record ends (R337). -/
def closeEntry (r : Riq) (recLen : Nat) (last : Bool) : Riq :=
  match r.opn with
  | none => r
  | some g =>
    let kind := if r.fragFst then (if last then 0 else 2) else (if last then 4 else 3)
    let g := { g with entries := g.entries ++ [{ kind := kind, recLen := recLen, fragLen := r.fragLen }],
                      endLrn := if last then r.nextLrn else g.endLrn, contOut := !last }
    { r with opn := some g, fragOn := false, fragLen := 0, fragFst := false }

/-- Cut the open group (R334): a record still unfinished is split. A group cut again after a rewind keeps
its number and its pair history. -/
def cutOpen (recLen : Nat) (r : Riq) : Riq :=
  let r := if r.fragOn then closeEntry r recLen false else r
  match r.opn with
  | none => r
  | some g =>
    let g := match r.recut with
      | o :: _ => { g with no := o.no, mism := o.mism, pair := o.pair, noPair := o.noPair, prot := o.prot }
      | [] => g
    moveMark { r with opn := none, grps := r.grps ++ [g], recut := r.recut.drop 1,
                      nextNo := if r.recut = [] then r.nextNo + 1 else r.nextNo }

/-- Open a group at a ring position, for the current LRN. -/
def openGrp (r : Riq) (part : Fin 64) (pos : Nat) (first : Bool) : Riq :=
  match r.opn with
  | some _ => r
  | none =>
    let g : Grp := { no := r.nextNo, part := part, firstLrn := r.nextLrn - 1, endLrn := r.nextLrn - 1, start := pos,
                     stop := pos, contIn := !first }
    moveMark { r with opn := some g }

/-- Feed record bytes of the item in hand into the open group, splitting where a group closes. `first`
says that the record's first byte is still to come, `last` that `bs` ends the record; `pos` is the ring
position of the first byte. -/
def feed (limit recLen : Nat) (part : Fin 64) (start : Nat) : Nat → Riq → List Byte → Bool → Bool → Nat → Riq
  | 0, r, _, _, _, _ => r
  | f + 1, r, bs, first, last, pos =>
    let r := openGrp r part (if first then start else pos) first
    match r.opn with
    | none => r
    | some g =>
      let room := limit - grpSize g 0 - 8
      if !r.fragOn ∧ (room = 0 ∧ bs ≠ [] ∨ limit < grpSize g 1) ∧ g.entries ≠ [] then
        feed limit recLen part start f (cutOpen recLen r) bs first last pos
      else
        let r := if r.fragOn then r else { r with fragOn := true, fragLen := 0, fragFst := first }
        let upTo := match r.recut with | o :: _ => min room (o.stop - pos) | [] => room
        let n := min upTo bs.length
        let g := { g with content := g.content ++ bs.take n, stop := pos + n }
        let r := { r with opn := some g, fragLen := r.fragLen + n }
        let done := n = bs.length
        let r := if done ∧ last then closeEntry r recLen true else r
        let full := match r.opn with
          | none => false
          | some g => limit ≤ grpSize g (b2n r.fragOn) || 65535 ≤ g.entries.length ||
              (match r.recut with | o :: _ => decide (o.stop ≤ pos + n) | [] => false)
        let r := if full then cutOpen recLen r else r
        if done then r else feed limit recLen part start f r (bs.drop n) false last (pos + n)

/-- The item at the consumer. -/
def curItem (r : Riq) : Option Item :=
  if r.cIn then (r.items.filter (fun i => i.start < r.cPos)).getLast? else r.items.find? (fun i => i.start = r.cPos)

/-- The next consumer word: item, record bytes from and to, whether it is the LAST word, POISON (R322 to R325);
none when no word is readable. -/
def nextWord (weir : Nat) (r : Riq) : Option (Item × Nat × Nat × Bool × Bool) :=
  match curItem r with
  | none => none
  | some i =>
    let off := r.cPos - i.start
    let lo := off - 8
    let hi := 64 * (off / 64 + 1) - 8
    let n := i.bytes.length
    let ended := i.len.isSome
    let holdsLast := (i.eoi || ended) && decide (n ≤ hi)
    let firstOk := r.cIn || ended || (decide (0 < weir) && decide (weir * 64 ≤ n))
    let ready := firstOk && (if holdsLast then ended else decide (hi ≤ n))
    if !ready then none
    else some (i, lo, min hi n, holdsLast, i.bad.any (fun b => decide (lo ≤ b) && decide (b < hi)) || (holdsLast && i.poison) ||
      (i.lenBad && ended && (!r.cIn || holdsLast)))

/-- A consumer word with its tag (R322). -/
structure RiqWord where
  valid  : Bool := false
  soi    : Bool := false
  last   : Bool := false
  nb     : BitVec 6 := 0               -- valid bytes, 0 for 64
  open_  : Bool := false
  poison : Bool := false
  midItem : Bool := false
  data   : List Byte := []             -- the valid bytes, the length slot with SOI
  lenCopy : BitVec 64 := 0
  deriving DecidableEq, Repr

/-- What a consumer read brings; it never waits (R322 to R325). -/
def readWord (weir : Nat) (r : Riq) : RiqWord :=
  match nextWord weir r with
  | none => { midItem := r.cIn }
  | some (i, lo, hi, last, poison) =>
    let soi := !r.cIn
    let data := (if soi then slotBytes i else []) ++ (i.bytes.drop lo).take (hi - lo)
    { valid := true, soi := soi, last := last, nb := BitVec.ofNat 6 data.length, open_ := soi && i.len.isNone, poison := poison,
      data := data, lenCopy := if last then i.len.getD 0 else 0 }

/-- Whether a filled length slot is a file mark (R320). -/
def isMark (v : BitVec 64) : Bool := bit v 28

/-- The group builder takes one word of polder `p`'s queue, if one is readable. -/
def takeWord (p : Nat) (s : State) : State :=
  let r := riqOf s p
  let w := readWord (rfld s (pgRIQ p) 0x108 13 0) r
  match r.part, nextWord (rfld s (pgRIQ p) 0x108 13 0) r with
  | some part, some (i, lo, hi, last, _) =>
    let first := w.soi
    let r := if first then { r with nextLrn := r.nextLrn + 1 } else r
    let lrn := r.nextLrn - 1
    if w.poison then
      let g0 := (r.opn.map (·.firstLrn)).getD lrn
      failGroup p g0 lrn stINTAKE_POISON (raise (pgRIQ p) 3 (bump (pgRIQ p) 0xA1C 1 (setRiq p r s)))
    else
      let recLen := match i.len with | some v => bits v 24 0 | none => recLenOf s part.val lrn
      let bs := if first then w.data.drop 8 else w.data
      let mk := match i.len with | some v => isMark v | none => false
      let r := feed (grpLimit s p) recLen part i.start 4 r bs first last (i.start + 8 + lo)
      let r := if mk then markEntry r else r
      let r := { r with idleUs := rfld s (pgRIQ p) 0x10C 15 0, cIn := !last, cPos := if last then i.start + (8 + i.bytes.length + 63) / 64 * 64 else i.start + 8 + hi }
      let r := if !r.cIn ∧ r.closeReq.any (· ≤ r.nextLrn) then
        cutOpen recLen { r with closeReq := r.closeReq.filter (r.nextLrn < ·) } else r
      let r := if last then moveMark r else r
      setRiq p r (if last then bump (pgRIQ p) 0xA04 1 s else s)
  | _, _ => s
where
  /-- The entry just closed was a file mark: KIND 1, no bytes (R337). -/
  markEntry (r : Riq) : Riq :=
    let fix := fun (g : Grp) => { g with entries := g.entries.dropLast ++ [{ kind := 1, recLen := 0, fragLen := 0 }] }
    match r.opn with
    | some g => if g.entries ≠ [] then { r with opn := some (fix g) } else { r with grps := fixLast fix r.grps }
    | none => { r with grps := fixLast fix r.grps }
  fixLast (f : Grp → Grp) : List Grp → List Grp
    | [] => []
    | [g] => [f g]
    | g :: t => g :: fixLast f t

/-- A SYNC, UNLOAD or switch closes the polder's open group once every earlier item, those below LRN `z`, has been taken (R334). -/
def requestClose (p z : Nat) (s : State) : State :=
  let r := riqOf s p
  if z ≤ r.nextLrn ∧ !r.cIn then setRiq p (cutOpen 0 r) s
  else if z ∈ r.closeReq then s else setRiq p { r with closeReq := r.closeReq ++ [z] } s

/-! ### Group header and content -/

/-- A lengths-index entry as stored (R337). -/
def lixBytes (e : LixEntry) : List Byte := beBytes (e.kind * 2 ^ 60 + e.recLen * 2 ^ 32 + e.fragLen) 8

/-- The uncompressed content of a group (R337). -/
def groupContent (g : Grp) : List Byte := g.content ++ (g.entries.map lixBytes).flatten

/-- File-mark LRNs of a group. -/
def grpMarks (g : Grp) : List Nat := go g.firstLrn g.entries
where
  go : Nat → List LixEntry → List Nat
    | _, [] => []
    | l, e :: r => (if e.kind = 1 then [l] else []) ++ go (if e.kind = 2 ∨ e.kind = 3 then l else l + 1) r

/-- The 64-byte group header (R339). -/
def groupHeader (g : Grp) : List Byte :=
  let flags := b2n g.contIn + 2 * b2n g.contOut + 4 * b2n (g.entries.any (·.kind = 1))
  let h := beBytes 0x43463147 4 ++ [1, BitVec.ofNat 8 flags, 0, 0] ++ beBytes g.firstLrn 6 ++ [0, 0] ++
    beBytes g.entries.length 4 ++ beBytes (g.content.length + 8 * g.entries.length) 4 ++ beBytes g.frame.length 4 ++
    beBytes g.content.length 4 ++ beBytes g.iv.toNat 12 ++ beBytes g.tag.toNat 16
  h ++ beBytes (crc32c h).toNat 4

/-! ### Engines in a service slot -/

def engKey (i p : Nat) : Nat := 64 * i + p
def idleEng (m : Sparse Engine) (i p : Nat) : Bool := !(sget {} m (engKey i p)).busy

/-- The longest frame that a compressor makes of `n` content bytes (R340). -/
def frameMax (n : Nat) : Nat := n + 10 + 3 * ((n + 131071) / 131072)

/-- Compressors start on the polder's cut groups, the oldest first, lowest engine first, while their output buffers can be allocated
within its share (R336, R346). -/
def startCompress (p : Nat) (s : State) : State := (List.finRange 32).foldl (fun s i =>
  let r := riqOf s p
  if isFenced s (0x3000 + i.val) ∨ !idleEng s.rcd.cmp i.val p ∨ !pageEn s (pgCMP i.val) then s else
  if 32 ≤ (r.grps.filter (fun g => match g.stage with | .compressing _ => true | _ => false)).length then s else
  match r.grps.find? (·.stage = .cut) with
  | none => s
  | some g =>
    match allocChain i.val p (frameMax (groupContent g).length) s with
    | (none, s) => s
    | (some l, s) =>
      let on := fun (x : Grp) => if x.no = g.no then { x with stage := .compressing i, bufs := l } else x
      setRiq p { r with grps := r.grps.map on } { s with rcd.cmp := sset {} s.rcd.cmp (engKey i.val p) { busy := true, job := g.no } }) s

/-- A group's key cannot give it an IV: the group fails with the key's status (R508, R510). -/
def ivFail (p : Nat) (g : Grp) (st : BitVec 16) (s : State) : State := failGrp p g st s

/-- A group on cipher pair `i` under an IV: its body and tag, which stay unreleased until it is confirmed (R503, R511). -/
def sealGroup (s : State) (p : Fin 64) (i : Fin 12) (iv : BitVec 96) (g : Grp) : Grp :=
  let key := (heldKey s (partEntry s g.part.val).keyFp p).getD []
  let ivb := beBytes iv.toNat 12
  let body := gcmCrypt key ivb g.frame
  { g with stage := .encrypting i, iv := iv, pair := some i, body := body,
           tag := gcmTag key ivb (groupAad s g.part.val (groupHeader g)) body }

/-- Each pair starts at most one compressed group of the owner (R485), taking a fresh IV (R504). Its output goes into a chain of its
own, and the frame's chain is freed as the pair consumes it (R342, R346; DESIGN CHOICE, log 111). -/
def startEncrypt (p : Fin 64) (s : State) : State := (List.finRange 12).foldl (fun s i =>
  let r := riqOf s p.val
  if isFenced s (0x5000 + i.val) ∨ !idleEng s.rcd.cry i.val p.val ∨ !pageEn s (pgCRY i.val) then s else
  match r.grps.find? (fun g => g.stage = .compressed ∧ (g.pair = none ∨ g.pair = some i) ∧ i ∉ g.noPair) with
  | none => s
  | some g =>
    match takeIv (partEntry s g.part.val).keyFp p s with
    | (.value iv, s') =>
      match allocChain (64 + i.val) p.val g.frame.length (freeBufs g.bufs s') with
      | (none, _) => s
      | (some l, s) =>
        let r := riqOf s p.val
        let on := fun (x : Grp) => if x.no = g.no then { sealGroup s p i iv x with bufs := l } else x
        setRiq p.val { r with grps := r.grps.map on }
          { s with rcd.cry := sset {} s.rcd.cry (engKey i.val p.val) { busy := true, job := g.no } }
    | (.wait, s) => s
    | (.lost, s) => ivFail p.val g stNONCE_STATE_LOST s
    | (.exhausted, s) => ivFail p.val g stNONCE_EXHAUSTED s
    | (.noKey, s) => ivFail p.val g stNO_KEY s) s

/-- Every cipher pair is fenced: commands that need one complete FENCED (R513). -/
def allPairsFenced (s : State) : Bool := (List.range 12).all (fun i => isFenced s (0x5000 + i))

/-! ### Placement -/

abbrev streamArea : Nat := 5805568

/-- A group's bytes as they enter the stream. -/
def groupBytes (g : Grp) : List Byte := groupHeader g ++ g.body

def roundUp16 (n : Nat) : Nat := (n + 15) / 16 * 16

/-- The partition's current FILLING slot. -/
def curFilling (s : State) (part : Nat) : Option (Nat × Slot) := (slotsIn s part .filling).getLast?

/-- Allocate a FILLING slot for a group (R345, R346, R92). -/
def newFilling (p : Fin 64) (g : Grp) (s : State) : Option State :=
  let part := g.part.val
  if 2 ≤ (slotsIn s part .filling).length then none else
  let e := partEntry s part
  (allocSlot p { st := .filling, part := g.part, wgen := e.wgen, lrnStart := g.firstLrn, marks := e.eodMarks,
                 keyFp := e.keyFp, owner := e.owner } s).map (·.2)

/-- Put what is left of a group into the current slot, opening further slots as they fill. `true` when the
whole group is placed. -/
def putGroup (p : Fin 64) : Nat → Grp → State → Bool × Grp × State
  | 0, g, s => (false, g, s)
  | f + 1, g, s =>
    let part := g.part.val
    let all := groupBytes g
    match curFilling s part with
    | none => match newFilling p g s with
      | none => (false, g, s)
      | some s => putGroup p f g s
    | some (i, x) =>
      if g.put = 0 then
        let off := roundUp16 x.stream.length
        if streamArea < off + 64 then putGroup p f g (fillFull part i s)
        else
          let n := min all.length (streamArea - off)
          let ref : GrpRef := ⟨off, g.firstLrn, g.endLrn, g.hi, g.contIn, grpMarks g⟩
          let stream := x.stream ++ List.replicate (off - x.stream.length) 0 ++ all.take n
          let s := setSlot i { x with stream := stream, refs := x.refs ++ [ref], firstGrp := x.firstGrp.orElse (fun _ => some off), endLrn := if n = all.length then g.endLrn else x.endLrn } s
          let s := if off + n = streamArea then fillFull part i s else s
          if n = all.length then (true, { g with put := n }, s) else putGroup p f { g with put := n } s
      else
        let n := min (all.length - g.put) (streamArea - x.stream.length)
        let s := setSlot i { x with stream := x.stream ++ (all.drop g.put).take n, endLrn := if g.put + n = all.length then g.endLrn else x.endLrn } s
        let s := if x.stream.length + n = streamArea then fillFull part i s else s
        if g.put + n = all.length then (true, { g with put := all.length }, s)
        else putGroup p f { g with put := g.put + n } s

/-- Writes of a partition all of whose records are in the basin complete (R343, R407). -/
def completeWrites (part : Nat) (s : State) : State :=
  let upTo := (partEntry s part).eodLrn
  let done := fun (c : Cmd) =>
    if (c.e.opc = 0x02 ∨ c.e.opc = 0x04) ∧ c.started ∧ c.e.part.toNat = part ∧ c.lrnZ ≤ upTo ∧ c.fin.isNone then
      { c with fin := some (stSUCCESS, res64 c.lrnZ) } else c
  metered postReady { s with host.cmds := s.host.cmds.map done }

/-- Bookkeeping once a group is placed. -/
def groupPlaced (p : Fin 64) (g : Grp) (s : State) : State :=
  let part := g.part.val
  let len := (groupBytes g).length
  let marks := grpMarks g
  let s := bump64 pgBSN 0xA10 len (bump pgBSN 0xA0C 1 s)
  let s := setPart part (fun e => { e with eodLrn := g.endLrn, eodMarks := e.eodMarks + marks.length,
                                           ubytes := e.ubytes + g.content.length, cbytes := e.cbytes + len }) s
  let s := match s.cart with
    | none => s
    | some c => { s with cart := some { c with marks := smod [] c.marks part (· ++ marks) } }
  let s := freeBufs g.bufs { s with rcd.tailOpen := sset false s.rcd.tailOpen part g.contOut }
  let r := riqOf s p.val
  let s := setRiq p.val (moveMark { r with grps := r.grps.filter (·.no ≠ g.no), newDs := false }) s
  completeWrites part s

/-- LRNs at which a SYNC of the partition, or an UNLOAD, makes its FILLING slots FULL. -/
def closePoints (s : State) (p part : Nat) : List Nat :=
  (s.host.cmds.filter (fun c => c.started ∧ c.fin.isNone ∧ (c.e.opc = 0x82 ∨ (c.e.opc = 0x05 ∧ c.e.part.toNat = part)))).map
    (fun c => if c.e.opc = 0x82 then (riqOf s p).asgLrn else c.lrnZ)

/-- The FILLING slots of a partition become FULL once every group before a SYNC or UNLOAD is placed: those hold what lies before it
(R344). None is left with a part of a group. -/
def closeIfDrained (p : Nat) (part : Nat) (s : State) : State :=
  let due := fun (z : Nat) => decide (z ≤ (partEntry s part).eodLrn) && (slotsIn s part .filling).any (fun x => decide (x.2.lrnStart < z))
  if (closePoints s p part).any due ∧ !sget false s.rcd.tailOpen part ∧ (riqOf s p).grps.all (·.put = 0) then closeFilling part s else s

/-! ### Rewind -/

/-- The consumer returns to the mark and the groups from there are cut again, `g` with its pair history set by `f`; their output is
discarded with its buffers (R332). -/
def rewind (p : Nat) (no : Nat) (f : Grp → Grp) (s : State) : State :=
  let r := riqOf s p
  let at_ := r.mark.getD r.cPos
  let redo := (r.grps.filter (fun g => at_ ≤ g.start)).map (fun g => if g.no = no then f g else g)
  match redo with
  | [] => s
  | g0 :: _ =>
    let busy := fun (x : Nat × Engine) => !decide (x.1 % 64 = p ∧ !x.2.read ∧ (redo.any (·.no = x.2.job)))
    let s := freeBufs (redo.map (·.bufs)).flatten { s with rcd.cmp := s.rcd.cmp.filter busy, rcd.cry := s.rcd.cry.filter busy }
    let r := { r with grps := r.grps.filter (fun g => g.start < at_), recut := redo, opn := none, fragOn := false,
                      cPos := at_, cIn := g0.contIn, nextLrn := if g0.contIn then g0.firstLrn + 1 else g0.firstLrn }
    raise (pgRIQ p) 5 (bump (pgRIQ p) 0xA14 1 (setRiq p r s))

/-! ### Reading back -/

def jobOf (s : State) (h : Nat) : Option ReadJob := s.rcd.reads.find? (·.h = h)
def setJob (j : ReadJob) (s : State) : State :=
  { s with rcd.reads := s.rcd.reads.map (fun x => if x.h = j.h then j else x) }
def dropJob (h : Nat) (s : State) : State := { s with rcd.reads := s.rcd.reads.filter (·.h ≠ h) }

/-- Slots a partition's records may be read from (R42, R410). -/
def readable (x : Slot) : Bool := x.st = .filling || x.st = .full || x.st = .onTape || x.st = .readAhead

/-- Readable slots of a partition in the order of its stream: those read from tape by DSN, then those being written. -/
def readSlots (s : State) (part : Nat) : List (Nat × Slot) :=
  let mine := s.bas.slots.filter (fun x => readable x.2 && x.2.part.val = part)
  isort (fun a b => a.2.dsn.getD 0 ≤ b.2.dsn.getD 0) (mine.filter (·.2.st = .readAhead)) ++
  isort (fun a b => a.2.order ≤ b.2.order) (mine.filter (·.2.st ≠ .readAhead))

/-- The newest group in which the record of an LRN begins: slot and reference. -/
def findGroup (s : State) (part lrn : Nat) : Option (Nat × GrpRef) :=
  (readSlots s part).foldl (fun best x =>
    match (x.2.refs.filter (fun r => r.lrn ≤ lrn ∧ lrn ≤ r.hi ∧ !(r.contIn ∧ r.lrn = lrn))).getLast? with
    | some r => some (x.1, r)
    | none => best) none

/-- The group that follows one in the stream. -/
def nextGroup (s : State) (part slot off : Nat) : Option (Nat × GrpRef) :=
  match (readSlots s part).dropWhile (·.1 ≠ slot) with
  | [] => none
  | x :: rest =>
    match x.2.refs.find? (fun r => off < r.off) with
    | some r => some (x.1, r)
    | none => (rest.find? (fun y => y.2.refs ≠ [])).bind (fun y => y.2.refs.head?.map (y.1, ·))

/-- A group's stream bytes from its header on, through the slots that follow. -/
def groupStream (s : State) (part slot off : Nat) : List Byte :=
  let xs := readSlots s part
  match xs.dropWhile (·.1 ≠ slot) with
  | [] => []
  | x :: rest => x.2.stream.drop off ++ (rest.map (fun y => y.2.stream)).flatten

/-- A field of a group header. -/
def ghField (bs : List Byte) (o n : Nat) : Nat := beNat ((bs.drop o).take n)

/-- GHCRC, GMAGIC and GVER hold (R361). -/
def headerOk (bs : List Byte) : Bool :=
  decide (64 ≤ bs.length) && ghField bs 0 4 = 0x43463147 && ghField bs 4 1 = 1 &&
  decide (ghField bs 0x3C 4 = (crc32c (bs.take 0x3C)).toNat)

/-- Send bytes to pieces of a command's memory at an offset, over the network under a key (R393, R463, R467). -/
def deliverKey (key : Word) (c : Cmd) (pieces : List (Nat × Nat)) (off : Nat) (bs : List Byte) (s : State) : State :=
  (scatter pieces off bs).foldl (fun s ab =>
    match c.src with
    | .pcie f _ => emit (.hostWrite f (res64 ab.1) ab.2 false) s
    | .net q => rdmaWrite q c.handle key ab.1 ab.2 s) s

/-- Send bytes to a command's buffer. -/
def deliverAt (c : Cmd) (pieces : List (Nat × Nat)) (off : Nat) (bs : List Byte) (s : State) : State :=
  deliverKey c.rkeyd c pieces off bs s

/-- End a READ_RECORDS: its lengths list is written, the read point moves past the last entry returned, its
buffers are freed (R393, R394). -/
def endRead (j : ReadJob) (st : BitVec 16) (res : BitVec 64) (s : State) : State :=
  match cmdOf s j.h with
  | none => dropJob j.h s
  | some c =>
    let s := deliverKey c.rkeyl c [(csp c.e 0x28 8, 4 * csp c.e 0x20 4)] 0 ((j.lens.map (fun w => leBytes w.toNat 4)).flatten) s
    let s := if j.lens = [] then s else setRead c.src j.part.val j.lrn s
    metered (finish j.h st res) (dropJob j.h (freeBufs j.bufs s))

/-- RESULT of a READ_RECORDS (R390). -/
def readResult (j : ReadJob) : BitVec 64 := res64 (j.lens.length + j.bytes * 2 ^ 32)

/-- Is the read over before its next group (R393, R394)? -/
def readOver (s : State) (c : Cmd) (j : ReadJob) : Option (BitVec 16) :=
  if csp c.e 0x20 4 ≤ j.lens.length then some stSUCCESS
  else if eodLrn s j.part.val ≤ j.lrn then some (if j.lens = [] then stEND_OF_DATA else stSUCCESS)
  else none

/-- Records lost to an unrecoverable data set (R213). -/
def lrnLost (s : State) (part lrn : Nat) : Bool :=
  match s.cart with
  | none => false
  | some c => (sget [] c.lost part).any (fun x => x.start ≤ lrn ∧ lrn < x.stop)

/-- A job whose pair decrypts the group that `bs` begins with: its frame, and whether the tag computed is the stored one
(R503, R512). -/
def openGroup (s : State) (p : Fin 64) (j : ReadJob) (bs : List Byte) : ReadJob :=
  let key := (heldKey s (partEntry s j.part.val).keyFp p).getD []
  let iv := (bs.drop 0x20).take 12
  let body := (bs.drop 64).take (ghField bs 0x18 4)
  { j with frame := gcmCrypt key iv body,
           authOk := decide (gcmTag key iv (groupAad s j.part.val bs) body = BitVec.ofNat 128 (ghField bs 0x2C 16)) }

/-- The lowest decompressor that can take a group of the polder. -/
def freeDcp (s : State) (p : Fin 64) : Option (Fin 32) :=
  (List.finRange 32).find? (fun i => !isFenced s (0x4000 + i.val) && idleEng s.rcd.dcp i.val p.val && pageEn s (pgDCP i.val))

/-- A group of `n` content bytes is admitted to a decompressor: its buffers are taken in one step, or it keeps those it has (R361). -/
def admitGroup (s : State) (p : Fin 64) (j : ReadJob) (n : Nat) : Option (List Nat) × State :=
  if j.bufs ≠ [] then (some j.bufs, s) else
  match freeDcp s p with
  | none => (none, s)
  | some i => allocChain (32 + i.val) p.val n s

/-- A read that stands at `find` looks for its group: it ends, waits for the tape, or takes a cipher pair. Records still in the
slots that are being written come from there; lost ones have no other copy (R42, R213). -/
def readFind (p : Fin 64) (j : ReadJob) (s : State) : State :=
  match cmdOf s j.h with
  | none => dropJob j.h s
  | some c =>
    match readOver s c j with
    | some st => endRead j st (readResult j) s
    | none =>
      let at_ := if j.redo then ((slotOf s j.slot).refs.find? (·.off = j.off)).map (j.slot, ·)
        else if j.carry = [] then findGroup s j.part.val j.lrn else nextGroup s j.part.val j.slot j.off
      let onTapeOnly : Bool := match at_ with | some (i, _) => decide ((slotOf s i).st = .readAhead) | none => true
      if onTapeOnly && lrnLost s j.part.val j.lrn then endRead j stUNRECOVERABLE_READ (readResult j) s else
      match at_ with
      | none => s
      | some (slot, r) =>
        let bs := groupStream s j.part.val slot r.off
        if bs.length < 64 then s
        else if !headerOk bs then endRead j stFORMAT_ERR (readResult j) s
        else if bs.length < 64 + ghField bs 0x18 4 then s
        else if (heldKey s (partEntry s j.part.val).keyFp p).isNone then endRead j stNO_KEY (readResult j) s
        else if allPairsFenced s then endRead j stFENCED (readResult j) s
        else match (List.finRange 12).find? (fun i => !isFenced s (0x5000 + i.val) && idleEng s.rcd.cry i.val p.val &&
            pageEn s (pgCRY i.val) && (j.pair = none || j.pair = some i)) with
          | none => s
          | some i => match admitGroup s p j (ghField bs 0x14 4) with
            | (none, s) => s
            | (some l, s) =>
              let s := setJob (openGroup s p { j with stage := .decrypting i, slot := slot, off := r.off, pair := some i, redo := false,
                                                      bufs := l } bs) s
              { s with rcd.cry := sset {} s.rcd.cry (engKey i.val p.val) { busy := true, read := true, job := j.h } }

/-- A decrypted group takes a free decompressor (R361). -/
def readExpand (p : Fin 64) (j : ReadJob) (s : State) : State :=
  match freeDcp s p with
  | none => s
  | some i =>
    let s := setJob { j with stage := .expanding i } s
    { s with rcd.dcp := sset {} s.rcd.dcp (engKey i.val p.val) { busy := true, read := true, job := j.h } }

/-- Move the owner's reads on in its slot. -/
def readsAdvance (p : Fin 64) (s : State) : State :=
  s.rcd.reads.foldl (fun s j => match cmdOf s j.h with
    | none => dropJob j.h s
    | some c => if c.polder ≠ p then s else match jobOf s j.h with
      | none => s
      | some j => match j.stage with
        | .find => readFind p j s
        | .decrypted => readExpand p j s
        | _ => s) s

/-- Parse the lengths index of an expanded group. -/
def parseLix : Nat → List Byte → List LixEntry
  | 0, _ => []
  | n + 1, bs =>
    let v := beNat (bs.take 8)
    { kind := v / 2 ^ 60, recLen := v / 2 ^ 32 % 2 ^ 25, fragLen := v % 2 ^ 32 } :: parseLix n (bs.drop 8)

/-- Hand the records of an expanded group over (R361 to R363, R393): entries from LRN `l` on, bytes `bs`. The
answer tells whether the command has ended, and with what. -/
def handOver (s : State) (c : Cmd) (cap slot off : Nat) : Nat → List LixEntry → List Byte → ReadJob → List Byte →
    ReadJob × List Byte × Option (BitVec 16 × BitVec 64)
  | _, [], _, j, out => (j, out, none)
  | l, e :: es, bs, j, out =>
    let frag := bs.take e.fragLen
    let rest := bs.drop e.fragLen
    let l' := if e.kind = 2 ∨ e.kind = 3 then l else l + 1
    let own := (findGroup s j.part.val l).map (fun x => (x.1, x.2.off)) = some (slot, off) ∨ e.kind = 3 ∨ e.kind = 4
    if l < j.lrn then handOver s c cap slot off l' es rest j out
    else match readOver s c { j with lrn := l } with
      | some st => (j, out, some (st, readResult j))
      | none =>
        if !own then (j, out, none)
        else if e.kind = 1 then
          let j := { j with lens := j.lens ++ [0x80000000#32], lrn := l + 1 }
          (j, out, some (stFILEMARK, readResult j))
        else if e.kind = 2 ∨ e.kind = 3 then
          handOver s c cap slot off l' es rest { j with carry := j.carry ++ frag, lrn := l } out
        else
          let rec_ := j.carry ++ frag
          if cap < j.bytes + rec_.length then
            if j.lens = [] then (j, out, some (stBUFFER_SMALL, res64 (rec_.length * 2 ^ 32)))
            else (j, out, some (stSUCCESS, readResult j))
          else handOver s c cap slot off l' es rest
            { j with carry := [], lens := j.lens ++ [BitVec.ofNat 32 rec_.length], bytes := j.bytes + rec_.length, lrn := l + 1 }
            (out ++ rec_)

/-- Checks of the lengths index (R361 step 5). `expect` is the LRN at which the group before ends, and whether both lie in one WGEN:
where they do not, a truncation may have cut the group before short (R347). -/
def lixOk (hdr : List Byte) (content : List Byte) (expect : Option (Nat × Bool)) : Bool :=
  let n := ghField hdr 0x10 4
  let lo := ghField hdr 0x1C 4
  let es := parseLix n (content.drop lo)
  decide (content.length = ghField hdr 0x14 4) && decide (content.length = lo + 8 * n) &&
  es.all (fun e => decide (e.kind ≤ 4)) && decide ((es.map (·.fragLen)).sum = lo) &&
  (match expect with | some (l, same) => decide (if same then ghField hdr 8 6 = l else ghField hdr 8 6 ≤ l) | none => true)

end Sys2Proof.Machine
end

