-- ==== Sys2Proof/Machine/Record.lean ====
section
/-! DEFINITION. The record side's commands (chapters 07 and 11): intake, idle, flush, mark expiry,
compressors, cipher pairs, decompressors, placement, pools, staging shares and quotas. -/

namespace Sys2Proof.Machine

/-! ### Intake -/

/-- Bytes of a producer word in order, and the indices whose parity is wrong (R319). -/
def wordBytes (d : BitVec 64) : List Byte := leBytes d.toNat 8
def evenParity (b : Byte) : Bool := ((List.range 8).filter (b.getLsbD ·)).length % 2 = 1
def badParity (d : BitVec 64) (par : Byte) : List Nat :=
  (List.range 8).filter (fun k => ((wordBytes d)[k]?.map evenParity).getD false ≠ par.getLsbD k)

/-- LENERR (R327): the filled length slot against the record bytes delivered. -/
def lenErr (v : BitVec 64) (n : Nat) : Bool :=
  let len := bits v 24 0
  (len ≠ n ∧ !isMark v) || (len = 0 ∧ !isMark v) || (isMark v ∧ (n ≠ 0 ∨ len ≠ 0)) || decide (16777216 < len)

/-- The ring position a producer word would reach. -/
def producerEnd (r : Riq) (tag : BitVec 3) (nb : BitVec 3) : Nat :=
  match tag.toNat with
  | 0 => r.pPos + 8
  | 1 => r.pPos + 8
  | 2 => r.pPos + (if nb = 0 then 8 else nb.toNat)
  | _ => (r.pPos + 63) / 64 * 64

/-- The record bytes that a producer word carries (R319). -/
def recordBytes (tag : BitVec 3) (nb : BitVec 3) : Nat :=
  if tag = 2 ∧ nb ≠ 0 then nb.toNat else if tag = 0 ∨ tag = 2 then 8 else 0

/-- Write a producer word that fits (R319, R321, R324, R327). -/
def putWord (p : Nat) (tag : BitVec 3) (data : BitVec 64) (par : Byte) (nb : BitVec 3) (s : State) : State :=
  let r := riqOf s p
  match tag.toNat with
  | 1 =>
    if r.inItem then s else
    setRiq p { r with items := r.items ++ [{ start := r.pPos }], inItem := true, pPos := r.pPos + 8 } s
  | 3 =>
    match r.items.getLast?, r.inItem with
    | some i, true =>
      let bad := lenErr data i.bytes.length
      let i := { i with len := some data, poison := bad, lenBad := badParity data par ≠ [] }
      let s := setRiq p { r with items := r.items.dropLast ++ [i], inItem := false, pPos := (r.pPos + 63) / 64 * 64 } s
      let s := bump (pgRIQ p) 0xA00 1 s
      if bad then raise (pgRIQ p) 4 s else s
    | _, _ => s
  | 0 | 2 =>
    match r.items.getLast?, r.inItem with
    | some i, true =>
      let n := if tag = 2 ∧ nb ≠ 0 then nb.toNat else 8
      let at_ := i.bytes.length
      let bad := ((badParity data par).filter (· < n)).map (· + at_)
      let i := { i with bytes := i.bytes ++ (wordBytes data).take n, bad := i.bad ++ bad, eoi := i.eoi || tag = 2 }
      let s := setRiq p { r with items := r.items.dropLast ++ [i], pPos := r.pPos + n } s
      meter p (fun m => { m with hostIn := m.hostIn + n }) (bump64 (pgRIQ p) 0xA08 n s)
    | _, _ => s
  | _ => s

/-- The queue engine moves `n` bytes of a network write's record data from where its READ responses stand into the intake ring (R465). -/
def takeRead (p : Fin 64) (n : Nat) (s : State) : State :=
  if n = 0 then s else match s.host.cmds.find? (fun c => c.polder = p && c.started && c.fin.isNone && c.e.opc = 0x02) with
  | some c => match c.src with
    | .net q => setQp q { qpOf s q with rdData := (qpOf s q).rdData.drop n } s
    | .pcie _ _ => s
  | none => s

/-- INTAKE_WORD: a reserved tag is dropped with LENERR, a flushed item is swallowed to its LENFILL (R329), a word
that would pass the ring's depth stalls (R326), any other is written. -/
def intakeWord (p : Fin 64) (tag : BitVec 3) (data : BitVec 64) (par : Byte) (nb : BitVec 3) (s : State) : State :=
  let r := riqOf s p.val
  if !pageEn s (pgRIQ p.val) ∨ r.stalled.isSome then s
  else if 4 ≤ tag.toNat then raise (pgRIQ p.val) 4 s
  else if r.swallow then
    if tag = 3 then
      let s := setRiq p.val { r with swallow := false, inItem := false, swReport := false } s
      if r.swReport then raise (pgRIQ p.val) 0 s else s
    else s
  else if ringBytes s p.val < producerEnd r tag nb - r.mark.getD r.cPos then
    bump (pgRIQ p.val) 0xA10 1 (setRiq p.val { r with stalled := some (tag, data, par, nb) } s)
  else putWord p.val tag data par nb (takeRead p (recordBytes tag nb) s)

def execIntakeWord (p : Fin 64) (tag : BitVec 3) (data : BitVec 64) (par : Byte) (nb : BitVec 3) (s : State) : Res :=
  .next (intakeWord p tag data par nb s)

/-- The stalled word completes its handshake once there is space (R326). -/
def producerStallRelease (p : Fin 64) (s : State) : State :=
  let r := riqOf s p.val
  match r.stalled with
  | none => s
  | some (tag, data, par, nb) =>
    if producerEnd r tag nb - r.mark.getD r.cPos ≤ ringBytes s p.val then
      putWord p.val tag data par nb (setRiq p.val { r with stalled := none } (takeRead p (recordBytes tag nb) s))
    else s

def execProducerStallRelease (p : Fin 64) (s : State) : Res := .next (producerStallRelease p s)

/-- IDLE: the open group is closed at the last byte taken; one that is cut again after a rewind keeps its boundary as first cut (R328,
R334, R335, R363). The timer goes by the value it took when it last started (R364). -/
def idle (p : Fin 64) (s : State) : State :=
  let r := riqOf s p.val
  if occupancy r = 0 ∨ r.opn.isNone ∨ r.idleUs = 0 then s
  else
    let recLen := match r.part with | some q => recLenOf s q.val (r.nextLrn - 1) | none => 0
    raise (pgRIQ p.val) 2 (bump (pgRIQ p.val) 0xA20 1 (setRiq p.val (if r.recut = [] then cutOpen recLen r else r) s))

def execIdle (p : Fin 64) (s : State) : Res := .next (idle p s)

/-- FLUSH: the queue is emptied and the owning command completes ABORTED (R329). -/
def flush (p : Fin 64) (s : State) : State := flushRiq p.val true (fun _ => false) stABORTED (touchPage (pgRIQ p.val) s)

def execFlush (p : Fin 64) (s : State) : Res := .next (flush p s)

/-- Whose service slot it is: the entry of the active bank at the slot index (R482). -/
def slotOwner (s : State) : Option (Fin 64) :=
  let e := (tsEntry s s.ts.idx).toNat
  if e < 64 then some (Fin.ofNat 64 e) else none

/-- A group is being compressed or encrypted. -/
def GrpStage.working : GrpStage → Bool
  | .compressing _ | .encrypting _ => true
  | .cut | .compressed | .confirmed => false

/-- MARK_EXPIRED: the marked group loses its rewind protection and the mark moves on (R331). Its hold timer counts, and so expires, only
while the group is being compressed or encrypted in its own polder's service slots (R484). -/
def markExpired (p : Fin 64) (s : State) : State :=
  let r := riqOf s p.val
  match r.grps.find? (fun g => g.stage ≠ .confirmed ∧ g.prot) with
  | none => s
  | some g =>
    if !g.stage.working ∨ slotOwner s ≠ some p then s else
    let drop := fun (x : Grp) => if x.no = g.no then { x with prot := false } else x
    raise (pgRIQ p.val) 1 (bump (pgRIQ p.val) 0xA18 1 (setRiq p.val (moveMark { r with grps := r.grps.map drop }) s))

def execMarkExpired (p : Fin 64) (s : State) : Res := .next (markExpired p s)

/-! ### Compressors and cipher pairs -/

/-- A group of the owner changes. -/
def modGrp (p no : Nat) (f : Grp → Grp) (s : State) : State :=
  let r := riqOf s p
  setRiq p { r with grps := r.grps.map (fun g => if g.no = no then f g else g) } s

/-- COMPRESS_DONE: the frame of the owner's group on compressor `i`, in the blocks it chose; the buffers that it does not fill are
freed (R336, R340, R366). -/
def compressDone (i : Fin 32) (blocks : List ZBlock) (s : State) : State :=
  match slotOwner s with
  | none => s
  | some p =>
    match (riqOf s p.val).grps.find? (·.stage = .compressing i) with
    | none => s
    | some g =>
      let frame := zFrame (groupContent g) blocks
      let s := { s with rcd.cmp := sset {} s.rcd.cmp (engKey i.val p.val) {} }
      let s := bump64 (pgCMP i.val) 0xA0C frame.length (bump64 (pgCMP i.val) 0xA04 (groupContent g).length (bump (pgCMP i.val) 0xA00 1 s))
      let (kept, rest) := chainCut frame.length g.bufs
      modGrp p.val g.no (fun g => { g with stage := .compressed, frame := frame, bufs := kept }) (freeBufs rest s)

def execCompressDone (i : Fin 32) (blocks : List ZBlock) (s : State) : Res := .next (compressDone i blocks s)

/-- LASTMIS of a pair (R523). -/
def lastMis (i p : Nat) (dec : Bool) (kind : Nat) (s : State) : State :=
  rset s (pgCRY i) 0x604 (BitVec.ofNat 32 (p + 256 * b2n dec + 512 * kind))

/-- A fenced pair's groups restart on other pairs: writes from their own mark, reads from staging; no mismatch
is counted (R513). -/
def fencePair (i : Fin 12) (cause : Nat) (s : State) : State :=
  let s := raise (pgCRY i.val) 1 (markFence (0x5000 + i.val) cause s)
  let s := (List.range 64).foldl (fun s p =>
    match (riqOf s p).grps.find? (·.stage = .encrypting i) with
    | none => s
    | some g => if g.prot then rewind p g.no (fun g => { g with pair := none, noPair := i :: g.noPair, mism := 0 }) s
        else failGrp p g stGROUP_FAIL s) s
  let off := fun (g : Grp) => if g.pair = some i then { g with pair := none, mism := 0 } else g
  let s := { s with rcd.riq := s.rcd.riq.map (fun (x : Nat × Riq) => (x.1, { x.2 with grps := x.2.grps.map off, recut := x.2.recut.map off })) }
  let again := fun (j : ReadJob) =>
    if j.stage = .decrypting i then { j with stage := .find, pair := none, mism := 0, redo := true }
    else if j.pair = some i then { j with pair := none, mism := 0 } else j
  let s := { s with rcd.reads := s.rcd.reads.map again, rcd.cry := s.rcd.cry.filter (fun x => x.1 / 64 ≠ i.val) }
  if allPairsFenced s then
    s.rcd.reads.foldl (fun s j => endRead j stFENCED (readResult j) s) s
  else s

/-- ENCRYPT_DONE: the compare passes and the group is confirmed, or a mismatch rewinds it, fails it without
rewind protection, or at the second one fences the pair (R332, R511). -/
def encryptDone (i : Fin 12) (res : EncObs) (s : State) : State :=
  match slotOwner s with
  | none => s
  | some p =>
    match (riqOf s p.val).grps.find? (·.stage = .encrypting i) with
    | none => s
    | some g =>
      let s := { s with rcd.cry := sset {} s.rcd.cry (engKey i.val p.val) {} }
      if res.dataOk ∧ res.tagOk then
        let s := bump64 (pgCRY i.val) 0xA08 g.body.length (bump (pgCRY i.val) 0xA00 1 s)
        let s := modGrp p.val g.no (fun g => { g with stage := .confirmed, mism := 0 }) s
        setRiq p.val (moveMark (riqOf s p.val)) s
      else
        let s := raise (pgCRY i.val) 0 (bump (pgCRY i.val) 0xA10 1 (lastMis i.val p.val false (if res.dataOk then 2 else 1) s))
        if !g.prot then failGrp p.val g stGROUP_FAIL s
        else if 1 ≤ g.mism then
          let s := rewind p.val g.no (fun g => { g with pair := none, noPair := i :: g.noPair, mism := 0 }) s
          fencePair i 3 s
        else rewind p.val g.no (fun g => { g with pair := some i, mism := 1 }) s

def execEncryptDone (i : Fin 12) (res : EncObs) (s : State) : Res := .next (encryptDone i res s)

/-- GROUP_PLACE: the polder's oldest group, once confirmed, is placed (R336, R342 to R346). -/
def groupPlace (p : Fin 64) (s : State) : State :=
  match (riqOf s p.val).grps with
  | g :: _ =>
    if g.stage ≠ .confirmed then s
    else
      let s := if (riqOf s p.val).newDs ∧ g.put = 0 then closeFilling g.part.val s else s
      match putGroup p 6 g s with
      | (true, g, s) => closeIfDrained p.val g.part.val (groupPlaced p g s)
      | (false, g', s) =>
        let full := decide (quotaOf s p.val ≤ slotsUsed s p.val)
        let s := if full ∧ !g'.waited then bump pgBSN 0xA04 1 s else s
        let r := riqOf s p.val
        modGrp p.val g.no (fun _ => { g' with waited := g'.waited || full }) (setRiq p.val { r with newDs := r.newDs && g'.put = 0 } s)
  | [] => s

def execGroupPlace (p : Fin 64) (s : State) : Res := .next (groupPlace p s)

/-- DECRYPT_DONE: lanes are compared, then the stored tag (R512, R361). -/
def decryptDone (i : Fin 12) (h : Nat) (res : DecObs) (s : State) : State :=
  match jobOf s h, cmdOf s h with
  | some j, some c =>
    if j.stage ≠ .decrypting i then s else
    let p := c.polder
    let s := { s with rcd.cry := sset {} s.rcd.cry (engKey i.val p.val) {} }
    let len := ghField (groupStream s j.part.val j.slot j.off) 0x18 4
    if !(res.dataOk ∧ res.tagOk) then
      let s := raise (pgCRY i.val) 0 (bump (pgCRY i.val) 0xA10 1 (lastMis i.val p.val true (if res.dataOk then 2 else 1) s))
      if 1 ≤ j.mism then fencePair i 3 (setJob { j with stage := .find, mism := 0, pair := none, redo := true } s)
      else setJob { j with stage := .find, mism := 1, pair := some i, redo := true } s
    else
      let s := bump64 (pgCRY i.val) 0xA08 len (bump (pgCRY i.val) 0xA04 1 s)
      if !j.authOk then endRead j stAUTH_FAIL (readResult j) (raise (pgCRY i.val) 2 (bump (pgCRY i.val) 0xA14 1 s))
      else setJob { j with stage := .decrypted, mism := 0, pair := none } s
  | _, _ => s

def execDecryptDone (i : Fin 12) (h : Nat) (res : DecObs) (s : State) : Res := .next (decryptDone i h res s)

/-- The group that continues into a data set, where the data set that holds its header is in a slot as well: the last to begin before
it (R94, R95). -/
def carriedIn (s : State) (part : Nat) (x : Slot) : Option GrpRef :=
  if x.firstGrp = some 0 then none
  else ((readSlots s part).takeWhile (fun y => decide (y.2 ≠ x))).foldl (fun b y => y.2.refs.getLast?.or b) none

/-- Free the READAHEAD slots of a partition that no longer hold anything undelivered ahead of the read points of
its openings (R360); the freed slots count for the rate of R245. -/
def releaseRead (part : Nat) (s : State) : State :=
  let low := s.host.opens.filter (·.part.val = part) |>.map (·.read)
  let keep := fun (x : Slot) => low.any (fun l => (x.refs ++ (carriedIn s part x).toList).any (fun r => l ≤ r.hi))
  let gone := fun (x : Slot) => x.st = .readAhead && x.part.val = part && !keep x
  let n := (s.bas.slots.filter (fun x => gone x.2)).length
  let reading : Bool := match s.trk.pass with | some p => decide (p.kind = .read) && decide (p.part.val = part) | none => false
  freeSlots gone (if reading then { s with mot.spd.turned := s.mot.spd.turned + n } else s)

/-- DECOMPRESS_DONE: the frame is read; one that R341 rejects ends the read; then the lengths
index is checked and the requested records are handed over (R41, R361, R362). -/
def decompressDone (i : Fin 32) (h : Nat) (s : State) : State :=
  match jobOf s h, cmdOf s h with
  | some j, some c =>
    if j.stage ≠ .expanding i then s else
    let s := { s with rcd.dcp := sset {} s.rcd.dcp (engKey i.val c.polder.val) {} }
    let hdr := groupStream s j.part.val j.slot j.off
    match zRead (ghField hdr 0x14 4) j.frame with
    | none => endRead j stFORMAT_ERR (readResult j) (raise (pgDCP i.val) 0 (bump (pgDCP i.val) 0xA14 1 s))
    | some bs =>
      let s := bump64 (pgDCP i.val) 0xA0C bs.length (bump64 (pgDCP i.val) 0xA04 (ghField hdr 0x18 4) (bump (pgDCP i.val) 0xA00 1 s))
      let gen := (slotOf s j.slot).wgen
      if !lixOk hdr bs (j.expect.map (fun x => (x.1, decide (x.2 = gen)))) then endRead j stFORMAT_ERR (readResult j) s else
      let n := ghField hdr 0x10 4
      let lo := ghField hdr 0x1C 4
      let es := parseLix n (bs.drop lo)
      let (j', out, stop) := handOver s c (bufLen c.e c.sgl) j.slot j.off (ghField hdr 8 6) es (bs.take lo) j []
      let s := deliverAt c (bufPieces c.e c.sgl) j.bytes out s
      let s := meter c.polder.val (fun m => { m with hostOut := m.hostOut + out.length }) s
      let hi := ghField hdr 8 6 + (es.filter (fun e => e.kind = 0 ∨ e.kind = 1 ∨ e.kind = 4)).length
      let s := setJob { j' with stage := .find, expect := some (hi, gen), frame := [], bufs := [] } (freeBufs j.bufs s)
      let s := match stop with
        | some (st, res) => endRead { j' with bufs := [] } st res s
        | none => readFind c.polder { j' with stage := .find, expect := some (hi, gen), frame := [], bufs := [] } s
      releaseRead j.part.val s
  | _, _ => s

def execDecompressDone (i : Fin 32) (h : Nat) (s : State) : Res := .next (decompressDone i h s)

/-! ### Pools, shares and quotas -/

/-- BUFFER_ALLOCATE: the requests of one cycle, in the order in which they are decided (R353, R354). -/
def bufferAllocate (reqs : List BufReq) (s : State) : State :=
  (isort (fun a b => turnKey s a.r.val ≤ turnKey s b.r.val) reqs).foldl (fun s x => (allocTurn x s).2) s

def execBufferAllocate (reqs : List BufReq) (s : State) : Res := .next (bufferAllocate reqs s)

/-- The sum of PSHARE with one entry replaced (R367). -/
def pshareSum (s : State) (p v : Nat) : Nat :=
  ((List.range 64).map (fun q => if q = p then v else rfld s pgBPM (0x200 + 4 * q) 10 0)).sum

/-- PSHARE_WRITE: refused with SHARE_REJECT while EN is 1 when the sum would pass 1,024 (R367). -/
def pshareWrite (p : Fin 64) (v : Word) (s : State) : State :=
  let s := touchPage pgBPM s
  let x := bits v 10 0
  if pageEn s pgBPM ∧ 1024 < pshareSum s p.val x then raise pgBPM 4 s
  else rset s pgBPM (0x200 + 4 * p.val) (BitVec.ofNat 32 x)

def execPshareWrite (p : Fin 64) (v : Word) (s : State) : Res := .next (pshareWrite p v s)

/-- The quotas with one entry replaced still fit (R32, R368). -/
def quotaFits (s : State) (p v : Nat) : Bool :=
  decide (((List.range 64).map (fun q => if q = p then v else quotaOf s q)).sum ≤ 8160 - retiredCount s)

/-- QUOTA_WRITE: refused with QUOTA_REJECT while EN is 1 when the sum would not fit (R368). -/
def quotaWrite (p : Fin 64) (v : Word) (s : State) : State :=
  let s := touchPage pgBSN s
  let x := bits v 12 0
  if pageEn s pgBSN ∧ !quotaFits s p.val x then raise pgBSN 0 s else setQuota p.val x s

def execQuotaWrite (p : Fin 64) (v : Word) (s : State) : Res := .next (quotaWrite p v s)

end Sys2Proof.Machine
end

