-- ==== Sys2Proof/Machine/Queue.lean ====
section
/-! DEFINITION. Queues and doorbells (R376 to R384), the time-slot table (R482 to R488), and the fetch of a
command in its polder's service slot with the checks every command meets (R382, R383, R386 to R390, R412,
R549, R467, R469). -/

namespace Sys2Proof.Machine

/-! ### Doorbells -/

/-- An invalid doorbell value halts the pair (R380). -/
def dbInvalid (f : Fin 64) (q : Fin 16) (s : State) : State :=
  raise (pgQMG f.val) 2 (bump (pgQMG f.val) 0xA08 1 (haltPair f q s))

/-- SQ_TAIL_DOORBELL (R379, R380); ignored for a pair that does not exist (R414). A core's store buffer is drained first (R448). -/
def sqTailDoorbell (f : Fin 64) (q : Fin 16) (v : Word) (core : Option CoreWrite) (s : State) : State :=
  let s := touchPage (pgQMG f.val) (drainStores core s)
  let p := getPair s f q
  let t := bits v 11 0
  if !p.present ∨ p.halted then s
  else if p.sqN ≤ t then dbInvalid f q s
  else setPair f q { p with sqTail := t } s

def execSqTailDoorbell (f : Fin 64) (q : Fin 16) (v : Word) (core : Option CoreWrite) (s : State) : Res :=
  .next (sqTailDoorbell f q v core s)

/-- Entries posted and not yet released. -/
def cqHeld (p : QPair) : Nat := (p.cqTail + p.cqN - p.cqHead) % p.cqN

/-- CQ_HEAD_DOORBELL (R380): a value past what has been posted halts the pair too. -/
def cqHeadDoorbell (f : Fin 64) (q : Fin 16) (v : Word) (s : State) : State :=
  let s := touchPage (pgQMG f.val) s
  let p := getPair s f q
  let h := bits v 11 0
  if !p.present ∨ p.halted then s
  else if p.cqN ≤ h ∨ cqHeld p < (h + p.cqN - p.cqHead) % p.cqN then dbInvalid f q s
  else setPair f q { p with cqHead := h } s

def execCqHeadDoorbell (f : Fin 64) (q : Fin 16) (v : Word) (s : State) : Res := .next (cqHeadDoorbell f q v s)

/-! ### Creating and deleting pairs -/

/-- QRES (R422). -/
def qres (f : Fin 64) (qid : Nat) (busy : Bool) (code : Nat) (s : State) : State :=
  rset s (pgQMG f.val) 0x604 (BitVec.ofNat 32 (qid + 16 * b2n busy + 256 * code))

def qopReject (f : Fin 64) (qid code : Nat) (busy : Bool) (s : State) : State := raise (pgQMG f.val) 1 (qres f qid busy code s)

/-- The staging registers of a pair (R422). -/
def stagedPair (s : State) (f : Fin 64) : QPair :=
  let g := rget s (pgQMG f.val)
  { present := true,
    sqBase := (g 0x104) ++ (g 0x100), cqBase := (g 0x10C) ++ (g 0x108),
    sqN := bits (g 0x110) 11 0 + 1, cqN := bits (g 0x110) 27 16 + 1, iv := bits (g 0x114) 5 0, ien := bit (g 0x114) 8,
    aggr := bits (g 0x114) 23 16, aggt := bits (g 0x114) 31 24 }

/-- The first QRES code that refuses a creation (R377). -/
def createCode (s : State) (f : Fin 64) (qid : Fin 16) (x : QPair) : Option Nat :=
  if (getPair s f qid).present then some 0x01
  else if (polderOf s f.val).maxq ≤ qid.val then some 0x02
  else if x.sqN < 2 ∨ x.cqN < 2 ∨ x.cqN < x.sqN then some 0x03
  else if x.sqBase.toNat % 4096 ≠ 0 ∨ x.cqBase.toNat % 4096 ≠ 0 then some 0x04
  else if !winOk s f.val false x.sqBase.toNat (64 * x.sqN) ∨ !winOk s f.val true x.cqBase.toNat (16 * x.cqN) then some 0x05
  else if vectors f ≤ x.iv then some 0x06
  else if !fnEnabled s f then some 0x07
  else none

/-- QUEUE_CREATE (R376, R377). -/
def queueCreate (f : Fin 64) (qid : Fin 16) (s : State) : State :=
  let s := touchPage (pgQMG f.val) s
  if rbit s (pgQMG f.val) 0x604 4 then qopReject f (rfld s (pgQMG f.val) 0x604 3 0) 0x08 true s
  else
    let x := stagedPair s f
    match createCode s f qid x with
    | some code => qopReject f qid.val code false s
    | none => raise (pgQMG f.val) 0 (qres f qid.val false 0 (setPair f qid x s))

def execQueueCreate (f : Fin 64) (qid : Fin 16) (s : State) : Res := .next (queueCreate f qid s)

/-- The openings a queue holds end; a writer binding is released by R347 (R378, R401). -/
def releaseQueue (src : Src) (pol : Nat) (s : State) : State :=
  let writes := s.host.opens.any (fun o => o.src = src ∧ o.writer)
  let s := if writes then flushRiq pol false (fun _ => false) stABORTED s else s
  let s := if writes then setRiq pol { riqOf s pol with part := none } s else s
  { s with host.opens := s.host.opens.filter (fun o => o.src ≠ src) }

/-- QUEUE_DELETE (R378): fetching stops, unstarted commands go without completion entries. -/
def queueDelete (f : Fin 64) (qid : Fin 16) (s : State) : State :=
  let s := touchPage (pgQMG f.val) s
  if rbit s (pgQMG f.val) 0x604 4 then qopReject f (rfld s (pgQMG f.val) 0x604 3 0) 0x08 true s
  else
    let p := getPair s f qid
    if !p.present then qopReject f qid.val 0x01 false s
    else
      let src : Src := .pcie f qid
      let s := setPair f qid { p with deleting := true } (qres f qid.val true 0 s)
      let s := metered (endSilently (fun c => c.src = src ∧ !c.started ∧ c.fin.isNone)) s
      metered (releaseQueue src f.val) s

def execQueueDelete (f : Fin 64) (qid : Fin 16) (s : State) : Res := .next (queueDelete f qid s)

/-- QOP_DONE (R378): every started command of the pair has completed. -/
def qopDone (f : Fin 64) (qid : Fin 16) (s : State) : State :=
  if (getPair s f qid).deleting ∧ !s.host.cmds.any (fun c => c.src = .pcie f qid) then
    raise (pgQMG f.val) 0 (qres f qid.val false 0 (setPair f qid {} s))
  else s

def execQopDone (f : Fin 64) (qid : Fin 16) (s : State) : Res := .next (qopDone f qid s)

/-- INTERRUPT_AGGREGATION_TIMEOUT (R384). -/
def interruptAggregationTimeout (f : Fin 64) (q : Fin 16) (s : State) : State :=
  let p := getPair s f q
  if p.present ∧ p.ien ∧ p.unsig ≠ 0 then signal f p.iv (setPair f q { p with unsig := 0 } s) else s

def execInterruptAggregationTimeout (f : Fin 64) (q : Fin 16) (s : State) : Res := .next (interruptAggregationTimeout f q s)

/-! ### The time-slot table -/

/-- The pending bank becomes active (R486). -/
def tsApply (s : State) : State :=
  if !s.ts.swap then s else
  let s := { s with ts.active := !s.ts.active, ts.swap := false }
  let note := fun (m : Sparse Meter) p => smod {} m p (fun x => { x with tableSwap := true })
  let s := { s with vlt.meters := (List.range 64).foldl note s.vlt.meters }
  raise pgMTR 0 (rset s pgMTR 0x100 0)

/-- TS_SWAPPED: at the end of a period's last slot (R486). -/
def tsSwapped (s : State) : State := if s.ts.idx = 4095 then tsApply s else s

def execTsSwapped (s : State) : Res := .next (tsSwapped s)

/-- A write of the table through any path but PF0's BAR0 (R487). -/
def tsDenied (s : State) : State := secEvent (raise pgMTR 2 s)

/-- TS_REJECT with its code (R486). -/
def tsReject (code : Nat) (s : State) : State := raise pgMTR 1 { s with ts.rejectCode := BitVec.ofNat 8 code }

/-- TSDATA_WRITE: four entries of the inactive bank, from TSIDX, which advances (R486, R487, R524). -/
def tsdataWrite (r : Requester) (v : Word) (s : State) : State :=
  if !isPf0 r then tsDenied s else
  let s := touchPage pgMTR s
  if s.ts.swap then tsReject 2 s else
  let i := bits (rget s pgMTR 0x100) 11 2 * 4
  let put := fun (m : Sparse Byte) k => sset 0 m (i + k) (BitVec.ofNat 8 (bits v (8 * k + 7) (8 * k)))
  let fill := fun m => put (put (put (put m 0) 1) 2) 3
  let s := if s.ts.active then { s with ts.bank0 := fill s.ts.bank0 } else { s with ts.bank1 := fill s.ts.bank1 }
  rset s pgMTR 0x100 (BitVec.ofNat 32 ((i + 4) % 4096))

def execTsdataWrite (r : Requester) (v : Word) (s : State) : Res := .next (tsdataWrite r v s)

/-- TS_SWAP: the inactive bank is checked and the swap is scheduled (R486). -/
def tsSwap (r : Requester) (s : State) : State :=
  if !isPf0 r then tsDenied s else
  let s := touchPage pgMTR s
  if s.ts.swap then s else
  let bank := if s.ts.active then s.ts.bank0 else s.ts.bank1
  if bank.all (fun x => x.2.toNat < 64 || x.2 = 0xFF) then { s with ts.swap := true } else tsReject 1 s

def execTsSwap (r : Requester) (s : State) : Res := .next (tsSwap r s)

/-! ### Fetching -/

/-- Statuses a command meets at its fetch, in order; the third is HOST_WINDOW's first refused address. -/
def winCheck (s : State) (c : Cmd) : Option Nat :=
  match c.src with
  | .net _ => none
  | .pcie f _ =>
    let e := c.e
    let bad := fun (wr : Bool) (ps : List (Nat × Nat)) => (ps.find? (fun ab => ab.2 ≠ 0 ∧ !rangeOk s f.val wr ab.1 ab.2)).map (·.1)
    let list := if usesSgl e then bad false [(e.daddr.toNat, 16 * e.dlen.toNat)] else none
    let buf := (bufferOf e.opc.toNat).bind (fun rd => bad (!rd) (bufPieces e c.sgl))
    let lens := if e.opc = 0x02 ∧ csp e 0x24 4 = 0 then bad false [(csp e 0x28 8, 4 * csp e 0x20 4)]
      else if e.opc = 0x03 then bad true [(csp e 0x28 8, 4 * csp e 0x20 4)] else none
    list.orElse (fun _ => buf.orElse (fun _ => lens))

/-- An admin opcode outside PF0 SQ 0; LOGID 0x01 of GET_LOG is accepted anywhere (R389, R420, R469). -/
def notPermitted (c : Cmd) : Bool :=
  isAdmin c.e.opc.toNat && c.src ≠ .pcie 0 0 && !(c.e.opc = 0x89 ∧ csp c.e 0x20 1 = 1)

/-- The commands that the vault ROM executes in recovery mode (R580). -/
def inRecovery (c : Cmd) : Bool := c.e.opc = 0x86 || (c.e.opc = 0x87 && csp c.e 0x20 1 = 1)

/-- ABORT over the network carries SQID 0 (R469). -/
def netAbortBad (c : Cmd) : Bool := match c.src with | .net _ => c.e.opc = 0x0C ∧ csp c.e 0x20 1 ≠ 0 | .pcie _ _ => false

/-- GET_METER: a function other than PF0 may name only its own polder (R519). -/
def meterForeign (c : Cmd) : Bool :=
  c.e.opc = 0x0B ∧ c.polder ≠ 0 ∧ csp c.e 0x20 1 ≠ c.polder.val

/-- The checks every fetched command meets (R388, R389, R386, R412, R549). -/
def fetchChecks (c : Cmd) (f : Fetch) (headerOk : Bool) (s : State) : State :=
  let end_ := fun st (s : State) => metered (finish c.handle st 0) s
  if polderFenced s c.polder.val then end_ stFENCED s
  else if !headerOk then end_ stINVALID_FIELD s
  else if !isHostOp c.e.opc.toNat ∧ !isAdmin c.e.opc.toNat then end_ stINVALID_OPCODE s
  else if notPermitted c ∨ (s.top.recovery ∧ !inRecovery c) then end_ stNOT_PERMITTED s
  else if !fieldsOk c.e ∨ netAbortBad c ∨ meterForeign c then end_ stINVALID_FIELD s
  else if !sglOk f then end_ stSGL_INVALID s
  else match winCheck s c with
  | some a => end_ stHOST_WINDOW (winRefused c.polder.val a (bufferOf c.e.opc.toNat = some false) 3 0 s)
  | none =>
    if namesPart c.e.opc.toNat ∧ (partEntry s c.e.part.toNat).inUse ∧
       (partEntry s c.e.part.toNat).owner = (polderOf s c.polder.val).tag then
      match sget none s.host.deferred c.e.part.toNat with
      | some (st, lrn) => clearDeferred c.e.part.toNat (metered (finish c.handle st (res64 lrn)) s)
      | none => s
    else s

/-- A fetched command enters the block under a new handle (R491). -/
def takeCommand (src : Src) (polder : Fin 64) (f : Fetch) (sqhd : Nat) (rkeyd rkeyl : Word) (headerOk : Bool) (s : State) : State :=
  let h := s.host.nextHandle
  let c : Cmd := { handle := h, src := src, polder := polder, e := f.sqe, sgl := f.sgl, lens := f.lens, no := h,
                   sqhd := sqhd, rkeyd := rkeyd, rkeyl := rkeyl }
  fetchChecks c f headerOk { s with host.cmds := s.host.cmds ++ [c], host.nextHandle := h + 1 }

/-- A capsule's command is fetched; its header must hold (R466). -/
def takeCapsule (q : Fin 1024) (p : Fin 64) (cap : Capsule) (s : State) : State :=
  takeCommand (.net q) p cap.body 0 cap.rkeyd cap.rkeyl (cap.ctype = 1 ∧ cap.nent = 1 ∧ cap.zero2 = 0 ∧ cap.zeroC = 0) s

/-- The room limit of R382: entries posted and not released, and commands fetched and not completed, stay
below the CQ's entry count minus 1. -/
def cqRoom (s : State) (f : Fin 64) (q : Fin 16) (p : QPair) : Bool :=
  decide (cqHeld p + (s.host.cmds.filter (fun c => c.src = .pcie f q)).length < p.cqN - 1)

/-- Pair `q` of a function has an entry it may fetch now (R379 to R382). -/
def pairReady (s : State) (f : Fin 64) (q : Fin 16) : Bool :=
  let p := getPair s f q
  p.present && !p.halted && !p.deleting && decide (p.sqHead ≠ p.sqTail) && fnEnabled s f && cqRoom s f q p

/-- QP `i` of a polder has a capsule to fetch (R457); of one that is being destroyed none is fetched (R378). -/
def qpReady (p : Fin 64) (x : Qp) : Bool := x.st = .rts && !x.dest && x.polder = p && x.caps ≠ []

/-- A polder's turn: the first ready source at or after its turn mark, SQs before QPs (R383, R457). -/
def pickSource (s : State) (p : Fin 64) : Option (Nat × Src) :=
  let sqs := (List.finRange 16).filterMap (fun q => if pairReady s p q then some (q.val, Src.pcie p q) else none)
  let qps := s.net.qps.filterMap (fun x => if qpReady p x.2 then some (16 + x.1, Src.net (Fin.ofNat 1024 x.1)) else none)
  let all := sqs ++ qps
  match all.find? (fun x => (polderOf s p.val).turn ≤ x.1) with
  | some x => some x
  | none => all.head?

/-- Fetching is stopped: FW_ACTIVATE, a fatal error, or power fail (R417, R552, R587). -/
def fetchHalted (s : State) : Bool := s.host.fetchStop || s.itg.fatal.isSome || s.top.pf

/-- One fetch for the slot's owner; an entry is read snooped unless the function has set Enable No Snoop (R379). -/
def fetchOne (p : Fin 64) (fetch : Option Fetch) (s : State) : State :=
  if fetchHalted s then s else
  match pickSource s p with
  | none => s
  | some (pos, .pcie f q) =>
    let x := getPair s f q
    let a := x.sqBase.toNat + 64 * x.sqHead
    let s := setPolder p.val { polderOf s p.val with turn := (pos + 1) % 1040 } s
    if !winOk s f.val false a 64 then winFaultPair f q a false 1 s
    else match fetch with
    | none => s
    | some fe =>
      let head := if x.sqHead + 1 = x.sqN then 0 else x.sqHead + 1
      let s := emit (.hostRead f (BitVec.ofNat 64 a) 64 (polderOf s p.val).noSnoop) s
      takeCommand (.pcie f q) p fe head 0 0 true (bump (pgQMG f.val) 0xA00 1 (setPair f q { x with sqHead := head } s))
  | some (pos, .net q) =>
    let s := setPolder p.val { polderOf s p.val with turn := (pos + 1) % 1040 } s
    let x := qpOf s q
    match x.caps with
    | [] => s
    | cap :: rest =>
      takeCapsule q p cap (setQp q { x with caps := rest } s)

/-- Take `n` consumer words of the polder's queue. -/
def takeWords (p : Nat) : Nat → State → State
  | 0, s => s
  | n + 1, s => takeWords p n (takeWord p s)

/-- What a network command reads of the host in order: its scatter list, its lengths list and its record data, each with its key
(R463, R467). -/
def readPieces (c : Cmd) : List ((Bool × Word) × Nat × Nat) :=
  let list := if usesSgl c.e then [((false, c.rkeyd), c.e.daddr.toNat, 16 * c.e.dlen.toNat)] else []
  let lens := if c.e.opc = 0x02 ∧ csp c.e 0x24 4 = 0 then [((false, c.rkeyl), csp c.e 0x28 8, 4 * csp c.e 0x20 4)] else []
  let data := if c.e.opc = 0x02 then (bufPieces c.e c.sgl).map (fun x => ((true, c.rkeyd), x)) else []
  list ++ lens ++ data

/-- The piece that an offset falls into: its tag, its address there, and the bytes left of it. -/
def pieceAt {α : Type} : List (α × Nat × Nat) → Nat → Option (α × Nat × Nat)
  | [], _ => none
  | (t, a, n) :: r, off => if n ≤ off then pieceAt r (off - n) else some (t, a + off, n - off)

/-- A network command requests the next piece of what it reads, 64 KiB at most, while its QP has fewer than ORD requests
outstanding (R465). -/
def issueRead (h : Nat) (q : Fin 1024) (s : State) : State :=
  match cmdOf s h with
  | none => s
  | some c =>
    if (qpOf s q).ord ≤ (qpOf s q).rdReqs.length then s else
    match pieceAt (readPieces c) c.rdReq with
    | none => s
    | some ((record, key), a, left) =>
      let m := min 65536 left
      rdmaRead q record key a m (modCmd h (fun c => { c with rdReq := c.rdReq + m }) s)

/-- The owner's started network commands request their lists and record data (R463, R465). A stall of its intake queue holds that fetch back (R326). -/
def issueReads (p : Fin 64) (s : State) : State := if (riqOf s p.val).stalled.isSome then s else s.host.cmds.foldl (fun s c =>
  match c.src with
  | .pcie _ _ => s
  | .net q =>
    if c.polder ≠ p ∨ c.fin.isSome ∨ !c.started ∨ c.silent ∨ (qpOf s q).st ≠ .rts then s
    else (List.range (qpOf s q).ord).foldl (fun s _ => issueRead c.handle q s) s) s

/-- A sliced engine has work for the owner (SLOTS_USED of R514). -/
def slotUsed (p : Fin 64) (fetched : Bool) (words : Nat) (s : State) : Bool :=
  fetched || decide (0 < words) || (s.rcd.cmp ++ s.rcd.cry ++ s.rcd.dcp).any (fun x => x.2.busy && x.1 % 64 = p.val)

/-- The owner's work in its slot. -/
def ownerSlot (p : Fin 64) (fetch : Option Fetch) (words : Nat) (s : State) : State :=
  let n := s.host.nextHandle
  let s := meter p.val (fun m => { m with slotsOwn := m.slotsOwn + 1 }) s
  let s := fetchOne p fetch s
  let fetched := s.host.nextHandle ≠ n
  let s := if polderFenced s p.val then s
    else readsAdvance p (issueReads p <| startEncrypt p (startCompress p.val (takeWords p.val words s)))
  if slotUsed p fetched words s then meter p.val (fun m => { m with slotsUsed := m.slotsUsed + 1 }) s else s

/-- The four harts begin on a firmware image (R576 step 6). -/
def bootFirmware (img : FwImage) (s : State) : State :=
  let hart := fun (i : Nat) =>
    ({ run := true, pc := 0x80000000#64 + img.entry.setWidth 64, x := sset 0 [] 10 (BitVec.ofNat 64 i) } : Hart)
  { s with mem.coreMem := writeBytes 0 [] 0 img.bytes, top.fwVer := img.fwVer, top.fwMeas := img.meas,
           top.harts := (List.range 4).foldl (fun m i => sset {} m i (hart i)) [],
           itg.bad := s.itg.bad.filter (·.1 ≠ 2) }

/-- FW_ACTIVATE goes on once no other command of the control cores is running: the cores switch to the committed image,
fetching resumes and the command completes (R417), which ends every quote key (R494). -/
def activateCheck (s : State) : State :=
  match s.host.activate with
  | none => s
  | some (h, img) =>
    if s.host.cmds.any (fun c => fwCmd c && c.started && c.fin.isNone && c.handle ≠ h) then s else
    let s := bump pgTOP 0xA00 1 (bootFirmware img { s with host.activate := none, host.fetchStop := false })
    let s := rset s pgTOP 0x608 (rget s pgTOP 0x608 ||| 4)
    metered (finish h stSUCCESS img.fwVer) (dropQuotes (fun _ => true) s)

/-- SERVICE_SLOT (R482, R483): the next slot begins, at a period's start under the pending table; an activation that has
waited for the cores' commands goes on. -/
def serviceSlot (fetch : Option Fetch) (words : Nat) (s : State) : State :=
  let s := if s.ts.idx = 4095 then tsApply s else s
  let s := activateCheck { s with ts.idx := (s.ts.idx + 1) % 4096 }
  match slotOwner s with
  | none => s
  | some p => ownerSlot p fetch words s

def execServiceSlot (fetch : Option Fetch) (words : Nat) (s : State) : Res := .next (serviceSlot fetch words s)

end Sys2Proof.Machine
end

