-- ==== Sys2Proof/Machine/Network.lean ====
section
/-! DEFINITION. The network attach (chapter 10): queue pairs, capsules, acknowledgements and retries, congestion
control, ports, PFC and link hold. -/

namespace Sys2Proof.Machine

/-! ### Errors of a QP -/

/-- A live QP enters ERROR for a cause: unstarted commands are discarded, started ones run to their end without a
completion, and a writer binding is released (R461, R462). -/
def qpError (q : Fin 1024) (cause : Nat) (s : State) : State :=
  let x := qpOf s q
  if x.st ≠ .rts then s else
  let src : Src := .net q
  let s := setQp q { x with st := .draining, cause := BitVec.ofNat 4 cause, caps := [], heldCpl := [], rdReqs := [], rdData := [], rnrWait := false } s
  let s := raise pgQP 2 (bump pgQP 0xA18 1 s)
  let s := metered (endSilently (fun c => c.src = src ∧ !c.started ∧ c.fin.isNone)) s
  let s := { s with host.cmds := s.host.cmds.map (fun c => if c.src = src then { c with silent := true } else c) }
  drainCheck src (metered (fun s => postReady (releaseQueue src x.polder.val s)) s)

/-- A NAK leaves for the remote QP. -/
def sendNak (q : Fin 1024) (k : AckKind) (arg : Nat) (s : State) : State := txFrame q (.nak q k arg) s

/-- Go-back-N from the oldest unacknowledged PSN (R464). -/
def goBack (q : Fin 1024) (s : State) : State :=
  bump pgQP 0xA08 1 (txFrame q (.retransmit q (qpOf s q).una) s)

/-- Everything up to and including PSN `p` has been acknowledged (R464, R470). -/
def retire (q : Fin 1024) (p : BitVec 24) (s : State) : State :=
  let x := qpOf s q
  if 2 ^ 23 ≤ (p - x.una).toNat ∨ (x.psn - x.una).toNat ≤ (p - x.una).toNat then s
  else
    let x := { x with una := p + 1, retries := 0, rnrs := 0 }
    let s := setQp q { x with sentCpl := x.sentCpl.filter (fun e => !psnAcked x e.1) } s
    metered postReady s

/-! ### Capsules and responses -/

/-- COMMAND_CAPSULE (R466, R468); an ABORT is fetched when it is received (R474). A QP in ERROR, or one being destroyed, drops it. -/
def commandCapsule (q : Fin 1024) (cap : Capsule) (s : State) : State :=
  let x := qpOf s q
  if x.st ≠ .rts ∨ x.dest then s
  else if cap.len ≠ 80 then qpError q 5 s
  else if x.qdepth ≤ x.outst then bump pgQP 0xA0C 1 (sendNak q .rnrNak x.minRnr s)
  else
    let now := cap.body.sqe.opc = 0x0C ∧ !fetchHalted s
    let y := { x with caps := if now then x.caps else x.caps ++ [cap], accepted := x.accepted + 1, outst := x.outst + 1,
                      rpsn := x.rpsn + 1 }
    let s := bump pgQP 0xA00 1 (txFrame q (.ack q x.rpsn) (setQp q y s))
    if now then takeCapsule q x.polder cap s else s

def execCommandCapsule (q : Fin 1024) (cap : Capsule) (s : State) : Res := .next (commandCapsule q cap s)

/-- RDMA_READ_RESPONSE: data in PSN order goes to staging, record data to wait for its intake ring; any other response is left to
the retry (R465). -/
def rdmaReadResponse (q : Fin 1024) (psn : BitVec 24) (data : List Byte) (s : State) : State :=
  let x := qpOf s q
  match x.rdReqs with
  | [] => s
  | (p, left, record) :: rest =>
    if x.st ≠ .rts ∨ psn ≠ p ∨ left < data.length then s else
    let left' := left - data.length
    let s := setQp q { x with rdReqs := if left' = 0 then rest else (p + 1, left', record) :: rest,
                              rdData := if record then x.rdData ++ data else x.rdData } s
    retire q psn s

def execRdmaReadResponse (q : Fin 1024) (psn : BitVec 24) (data : List Byte) (s : State) : Res :=
  .next (rdmaReadResponse q psn data s)

/-- ACKNOWLEDGE (R464, R461). A NAK also acknowledges every packet before its PSN. -/
def acknowledge (q : Fin 1024) (kind : AckKind) (psn : BitVec 24) (s : State) : State :=
  let x := qpOf s q
  if x.st ≠ .rts then s else
  match kind with
  | .ack => retire q psn s
  | .nakSequence => goBack q (retire q (psn - 1) s)
  | .rnrNak =>
    let s := bump pgQP 0xA10 1 (retire q (psn - 1) s)
    setQp q { qpOf s q with rnrWait := true } s
  | .nakRemoteAccess => qpError q 3 s
  | .nakRemoteOp => qpError q 3 s
  | .nakInvalidRequest => qpError q 4 s

def execAcknowledge (q : Fin 1024) (kind : AckKind) (psn : BitVec 24) (s : State) : Res := .next (acknowledge q kind psn s)

/-- ACK_TIMEOUT (R464, R461 cause 1). -/
def ackTimeout (q : Fin 1024) (s : State) : State :=
  let x := qpOf s q
  if x.st ≠ .rts ∨ x.una = x.psn then s
  else if x.retryMax ≤ x.retries then qpError q 1 s
  else goBack q (setQp q { x with retries := x.retries + 1 } s)

def execAckTimeout (q : Fin 1024) (s : State) : Res := .next (ackTimeout q s)

/-- RNR_RETRY: the wait after an RNR NAK ends (R461 cause 2). -/
def rnrRetry (q : Fin 1024) (s : State) : State :=
  let x := qpOf s q
  if x.st ≠ .rts ∨ !x.rnrWait then s
  else if x.rnrMax ≠ 7 ∧ x.rnrMax ≤ x.rnrs then qpError q 2 s
  else goBack q (setQp q { x with rnrs := x.rnrs + 1, rnrWait := false } s)

def execRnrRetry (q : Fin 1024) (s : State) : Res := .next (rnrRetry q s)

/-- COMPLETION_CAPSULE_TIMEOUT (R470). -/
def completionCapsuleTimeout (q : Fin 1024) (s : State) : State := sendCapsule q s

def execCompletionCapsuleTimeout (q : Fin 1024) (s : State) : Res := .next (completionCapsuleTimeout q s)

/-! ### Congestion control (R472) -/

/-- Line rate in Mbit/s. -/
abbrev lineRate : Rat := 100000

/-- RMIN and RAI of a port, in Mbit/s. -/
def rmin (s : State) (p : Nat) : Rat := 100 * (rfld s (pgNET p) 0x114 31 16 : Nat)
def rai (s : State) (p : Nat) : Rat := (rfld s (pgNET p) 0x118 15 0 : Nat)

/-- CNP_RECEIVED: ignored outside RTS. -/
def cnpReceived (q : Fin 1024) (s : State) : State :=
  let x := qpOf s q
  let s := if x.st = .free then s else bump (pgNET x.port.val) 0xA20 1 s
  if x.st ≠ .rts ∨ !rbit s (pgNET x.port.val) 0x114 0 then s
  else setQp q { x with rt := x.rc, rc := max (x.rc * (1 - x.alpha / 2)) (rmin s x.port.val),
                        alpha := x.alpha * 255 / 256 + 1 / 256, n := 0 } s

def execCnpReceived (q : Fin 1024) (s : State) : Res := .next (cnpReceived q s)

/-- RATE_INCREASE_TIMER. -/
def rateIncreaseTimer (q : Fin 1024) (s : State) : State :=
  let x := qpOf s q
  if x.st ≠ .rts ∨ !rbit s (pgNET x.port.val) 0x114 0 then s
  else
    let rt := if 5 < x.n + 1 then min (x.rt + rai s x.port.val) lineRate else x.rt
    setQp q { x with alpha := x.alpha * 255 / 256, n := x.n + 1, rt := rt, rc := (x.rc + rt) / 2 } s

def execRateIncreaseTimer (q : Fin 1024) (s : State) : Res := .next (rateIncreaseTimer q s)

/-! ### Ports -/

def portFenced (s : State) (p : Fin 2) : Bool := isFenced s (0x9000 + p.val)
def pfcOn (s : State) (p : Fin 2) : Bool := rbit s (pgNET p.val) 0x100 8

/-- A port is fenced: it sends nothing and its QPs enter ERROR with cause 6 (R473). -/
def fencePort (p : Fin 2) (cause : Nat) (s : State) : State :=
  let s := raise (pgNET p.val) 2 (markFence (0x9000 + p.val) cause s)
  let s := setPort p { portOf s p with holdRun := false, offSeen := false, waiting := [] } s
  s.net.qps.foldl (fun s x => if x.2.port = p ∧ x.2.st = .rts then qpError (Fin.ofNat 1024 x.1) 6 s else s) s

/-- A PFC frame leaves a port (R456, R475). -/
def sendPfc (p : Fin 2) (pause : Bool) (s : State) : State := emit (.pfc p pause) (bump64 (pgNET p.val) 0xA08 1 s)

/-- The receive buffer's fill drives PFC (R456). -/
def pfcDrive (p : Fin 2) (s : State) : State :=
  let x := portOf s p
  if !pfcOn s p then s
  else if 196608 < x.rxFill ∧ !x.pauseSent then sendPfc p true (setPort p { x with pauseSent := true } s)
  else if x.rxFill < 131072 ∧ x.pauseSent then sendPfc p false (setPort p { x with pauseSent := false } s)
  else s

/-- A CE mark causes at most one CNP a QP in CNPGAP µs (R471); mtime counts at 25 MHz. -/
def ceMark (q : Fin 1024) (s : State) : State :=
  let x := qpOf s q
  let p := x.port.val
  let due : Bool := match x.cnpLast with
    | none => true
    | some t => decide (t + 25 * rfld s (pgNET p) 0x114 15 8 ≤ s.clk.mtime.toNat)
  if x.st = .rts ∧ rbit s (pgNET p) 0x114 1 ∧ due then
    bump (pgNET p) 0xA24 1 (txFrame q (.cnp q) (setQp q { x with cnpLast := some s.clk.mtime.toNat } s))
  else s

/-- The transport checks of a received packet (R463, R464): a request out of sequence is answered with a NAK, an
opcode the device does not accept with the NAK of R463 and an error. -/
def transport (q : Fin 1024) (op : RoceOp) (psn : BitVec 24) (s : State) : State :=
  let x := qpOf s q
  if x.st ≠ .rts then s else
  match op with
  | .rdmaReadResponse => s
  | .acknowledge => s
  | .cnp => s
  | .sendOnly => seq x s
  | .sendMulti => if psn ≠ x.rpsn then seq x s else qpError q 5 (sendNak q .nakInvalidRequest 0 s)
  | .rdmaWrite => if psn ≠ x.rpsn then seq x s else qpError q 5 (sendNak q .nakRemoteAccess 0 s)
  | .rdmaReadRequest => if psn ≠ x.rpsn then seq x s else qpError q 5 (sendNak q .nakRemoteAccess 0 s)
  | .other => if psn ≠ x.rpsn then seq x s else qpError q 5 (sendNak q .nakInvalidRequest 0 s)
where
  seq (x : Qp) (s : State) : State :=
    if psn = x.rpsn then s else bump pgQP 0xA14 1 (sendNak q .nakSequence x.rpsn.toNat s)

/-- FRAME_RECEIVED (R455, R456, R464, R471). -/
def frameReceived (p : Fin 2) (fr : Frame) (s : State) : State :=
  let pg := pgNET p.val
  if !pageEn s pg ∨ portFenced s p then s else
  let s := bump pg 0xA14 fr.fecCorr (bump pg 0xA18 fr.fecUncorr (bump64 pg 0xA00 1 s))
  let s := setPort p { portOf s p with rxFill := (portOf s p).rxFill - fr.drained } s
  if !fr.fcsOk then pfcDrive p (bump pg 0xA10 1 s)
  else if !fr.roce ∨ rfld s pg 0x10C 13 0 < fr.bytes ∨ (!pfcOn s p ∧ !fr.room) then pfcDrive p (bump pg 0xA2C 1 s)
  else
    let s := pfcDrive p (setPort p { portOf s p with rxFill := (portOf s p).rxFill + fr.bytes } s)
    let s := if fr.ce then bump pg 0xA1C 1 s else s
    match fr.toQp with
    | none => s
    | some q =>
      if (qpOf s q).port ≠ p then s else
      transport q fr.op fr.psn (if fr.ce then ceMark q s else s)

def execFrameReceived (p : Fin 2) (fr : Frame) (s : State) : Res := .next (frameReceived p fr s)

/-- Transmissions that a port has held leave in order. -/
def releasePort (p : Fin 2) (s : State) : State :=
  (portOf s p).waiting.foldl (fun s hp => sendPacket p hp s) (setPort p { portOf s p with held := false, waiting := [] } s)

/-- PFC_RECEIVED: with PFCEN = 1 it holds the port's transmissions, or lets those held go (R456). -/
def pfcReceived (p : Fin 2) (pause : Bool) (s : State) : State :=
  if !pageEn s (pgNET p.val) ∨ portFenced s p then s else
  let s := bump (pgNET p.val) 0xA28 1 (bump64 (pgNET p.val) 0xA00 1 s)
  if !pfcOn s p then s
  else if pause then setPort p { portOf s p with held := true } s
  else releasePort p s

def execPfcReceived (p : Fin 2) (pause : Bool) (s : State) : Res := .next (pfcReceived p pause s)

/-- PORT_LINK_UP (R475, R478). -/
def portLinkUp (p : Fin 2) (s : State) : State :=
  raise (pgNET p.val) 0 (setPort p { portOf s p with linkUp := true, neg := rfld s (pgNET p.val) 0x100 1 0 = 1, holdRun := false } s)

def execPortLinkUp (p : Fin 2) (s : State) : Res := .next (portLinkUp p s)

/-- PORT_LINK_DOWN: the LINKHOLD timer starts (R473). -/
def portLinkDown (p : Fin 2) (s : State) : State :=
  raise (pgNET p.val) 1 (setPort p { portOf s p with linkUp := false, neg := false, held := false, waiting := [], holdRun := true } s)

def execPortLinkDown (p : Fin 2) (s : State) : Res := .next (portLinkDown p s)

/-- LINKHOLD_EXPIRY (R473). -/
def linkholdExpiry (p : Fin 2) (s : State) : State :=
  if (portOf s p).holdRun ∧ !(portOf s p).linkUp then fencePort p 7 s else s

def execLinkholdExpiry (p : Fin 2) (s : State) : Res := .next (linkholdExpiry p s)

/-! ### Creating and destroying QPs (R459, R460) -/

/-- An IPv4 address in ::ffff:0:0/96 form. -/
def isV4 (a : BitVec 128) : Bool := a.toNat / 2 ^ 32 = 0xFFFF

/-- The context the staging registers describe (R477). -/
def stagedQp (s : State) : Qp :=
  let c1 := rget s pgQP 0x104
  let c2 := rget s pgQP 0x108
  { st := .rts, port := Fin.ofNat 2 (bits c1 0 0), pmtu := bits c1 3 1, gidIdx := bits c1 7 4,
    polder := Fin.ofNat 64 (bits c1 13 8), retryMax := bits c1 16 14, rnrMax := bits c1 19 17, ackTo := bits c1 24 20,
    minRnr := bits c1 29 25, qdepth := bits c2 11 0 + 1, ord := bits c2 16 12, nagg := bits c2 20 17,
    aggt := bits c2 31 24, dqpn := (rget s pgQP 0x10C).setWidth 24,
    dmac := (rget s pgQP 0x11C).setWidth 16 ++ rget s pgQP 0x118, dip := addr128 s pgQP 0x120,
    psn := (rget s pgQP 0x110).setWidth 24, una := (rget s pgQP 0x110).setWidth 24,
    rpsn := (rget s pgQP 0x114).setWidth 24, rc := lineRate, rt := lineRate, alpha := 1 }

/-- The polder is enabled with network attach. -/
def netPolder (s : State) (p : Nat) : Bool := (polderOf s p).enabled && bit (polderOf s p).attach 1

/-- The first code of R460 that applies. -/
def qpCode (s : State) (q : Fin 1024) (x : Qp) : Option Nat :=
  let gid := addr128 s (pgNET x.port.val) (0x140 + 16 * x.gidIdx)
  if (qpOf s q).st ≠ .free then some 1
  else if !netPolder s x.polder.val then some 2
  else if x.pmtu < 3 ∨ 5 < x.pmtu then some 3
  else if x.qdepth < 2 then some 4
  else if x.ord = 0 ∨ 16 < x.ord then some 5
  else if gid = 0 ∨ isV4 gid ≠ isV4 x.dip then some 6
  else if !pageEn s (pgNET x.port.val) ∨ rfld s (pgNET x.port.val) 0x100 1 0 = 0 ∨ portFenced s x.port then some 7
  else if s.net.qopBusy then some 8
  else if x.nagg = 0 ∨ 8 < x.nagg then some 9
  else none

/-- A write of the QP registers from elsewhere than PF0 (R459). -/
def qpDenied (s : State) : State := secEvent (raise pgQP 3 s)

def qpReject (q code : Nat) (s : State) : State :=
  raise pgQP 1 (qpres (if s.net.qopBusy then rfld s pgQP 0x600 9 0 else q) s.net.qopBusy code s)

/-- QP_CREATE (R460, R461). -/
def qpCreate (r : Requester) (q : Fin 1024) (s : State) : State :=
  if !isPf0 r then qpDenied s else
  let s := touchPage pgQP s
  match qpCode s q (stagedQp s) with
  | some code => qpReject q.val code s
  | none => raise pgQP 0 (qpres q.val false 0 (setQp q (stagedQp s) s))

def execQpCreate (r : Requester) (q : Fin 1024) (s : State) : Res := .next (qpCreate r q s)

/-- QP_DESTROY (R459, R378): fetching stops, unstarted commands go, the started ones complete, and then the QP is free; one in ERROR
is free at once. -/
def qpDestroy (r : Requester) (q : Fin 1024) (s : State) : State :=
  if !isPf0 r then qpDenied s else
  let s := touchPage pgQP s
  let x := qpOf s q
  if s.net.qopBusy then qpReject q.val 8 s
  else if x.st = .free then qpReject q.val 1 s
  else
    let src : Src := .net q
    let s := { qpres q.val true 0 s with net.qopBusy := true }
    let s := setQp q { x with dest := true, caps := [] } s
    let s := metered (endSilently (fun c => c.src = src ∧ !c.started ∧ c.fin.isNone)) s
    drainCheck src (metered (fun s => postReady (releaseQueue src x.polder.val s)) s)

def execQpDestroy (r : Requester) (q : Fin 1024) (s : State) : Res := .next (qpDestroy r q s)

/-- QP_FREE: a QP in ERROR returns to free (R462). -/
def qpFree (r : Requester) (q : Fin 1024) (s : State) : State :=
  if !isPf0 r then qpDenied s else
  let s := touchPage pgQP s
  if s.net.qopBusy then qpReject q.val 8 s
  else if (qpOf s q).st ≠ .error then qpReject q.val 1 s
  else raise pgQP 0 (qpres q.val false 0 (setQp q {} s))

def execQpFree (r : Requester) (q : Fin 1024) (s : State) : Res := .next (qpFree r q s)

end Sys2Proof.Machine
end

