-- ==== Sys2Proof/Machine/Modem.lean ====
section
/-! DEFINITION. The tape's bits: what a codeword slot records (R76 to R88, R179 to R183), and what a channel makes of its
samples (R143, R148, R155 to R161, R184 to R187). -/

namespace Sys2Proof

/-! ### Bits and bytes -/

/-- A number from its bits, the most significant first. -/
def bitsVal (bs : List Bool) : Nat := bs.foldl (fun a b => 2 * a + b2n b) 0

/-- The bits of bytes: the first byte first, bit 7 of each first (R14, R84). -/
def byteBits (bs : List Nat) : List Bool := (bs.map (fun b => msbBits b 8)).flatten

/-- Bytes of bits. -/
def bitBytes : Nat → List Bool → List Nat
  | 0, _ => []
  | n + 1, bs => bitsVal (bs.take 8) :: bitBytes n (bs.drop 8)

/-! ### Encoding a data set (R83 to R86, R179 to R183) -/

/-- The randomiser before row `k` of a channel (R86). -/
def rowKey (dsn k c : Nat) : Nat := iter (fun s => (randStep s).2) (3456 * k) (randSeed dsn c)

/-- Bytes 0 to 431 of row `k` of channel `c` below 240, randomised: `pay` is the payload, with zero fill after it (R83, R86). -/
def dataRow (pay : List Byte) (dsn k c : Nat) : List Nat :=
  let at_ := 103680 * k + 432 * c
  let plain := (List.range 432).map (fun j => ((pay[at_ + j]?).getD 0).toNat)
  bitBytes 432 (randomise (rowKey dsn k c) (byteBits plain))

/-- Row `k` of channel `c` below 240, C2 parity rows among them (R180). -/
def chanRow (pay : List Byte) (dsn k c : Nat) : List Nat :=
  if k < 56 then dataRow pay dsn k c
  else
    let rows := (List.range 56).map (fun r => dataRow pay dsn r c)
    (List.range 432).map (fun j => coef (c2Parity (rows.map (fun r => coef r j))) (k - 56))

/-- Row `k` of any channel: channels 240 to 255 hold C3 parity (R181). -/
def codeRow (pay : List Byte) (dsn k c : Nat) : List Nat :=
  if c < 240 then chanRow pay dsn k c
  else
    let rows := (List.range 240).map (fun x => chanRow pay dsn k x)
    ((List.range 216).map (fun j =>
      let u := coef (c3Parity (rows.map (fun r => 256 * coef r (2 * j) + coef r (2 * j + 1)))) (c - 240)
      [u / 256, u % 256])).flatten

/-- The SUPP bytes of slot 64 + `m` of a channel (R182). -/
def suppRow (pay : List Byte) (dsn m c : Nat) : List Nat :=
  let rows := (List.range 64).map (fun r => codeRow pay dsn r c)
  (List.range 432).map (fun j => c2At (rows.map (fun r => coef r j)) (8 + m))

/-- The C1 codeword of 432 bytes (R84, R179). -/
def c1Word (bs : List Nat) : List Bool :=
  let info := byteBits bs
  info ++ c1Parity (fun n => (info[n]?).getD false)

/-- The codeword of a row, or of a SUPP slot for rows 64 to 67. -/
def codeword (pay : List Byte) (dsn k c : Nat) : List Bool :=
  c1Word (if k < 64 then codeRow pay dsn k c else suppRow pay dsn (k - 64) c)

/-- The sync mark (R77). -/
def syncMark : Nat := 0x3C5EA691F20B

/-- The type of an instance's own slot (R81): `retry` for a retry instance (R88). -/
def slotType (slot chan : Nat) (retry : Bool) : Nat :=
  (if 64 ≤ slot then 3 else if 56 ≤ slot then 1 else if chan < 240 then 0 else 2) + 8 * b2n retry

/-- A slot header (R78, R79). -/
def slotHeader (dsn slot chan type : Nat) : Nat :=
  let h := dsn % 2 ^ 29 * 2 ^ 35 + slot * 2 ^ 28 + chan * 2 ^ 20 + type * 2 ^ 16
  h + headerCrc h

/-- The bits of a codeword slot (R76). -/
def slotBits (header : Nat) (word : List Bool) : List Bool := msbBits syncMark 48 ++ msbBits header 64 ++ word

/-! ### Samples -/

/-- The ADC code of a differential voltage in µV, under AFE.FS (R143). -/
def adcCode (fs : Nat) (v : Int) : Int := clampInt (-128) 127 (v * 256 / ((([250, 350, 500, 700][fs]?).getD 500 : Nat) * 1000))

/-- Channel settings of the equaliser and the detector (R155 to R157, R170, R171). -/
structure EqCfg where
  t1 : Int
  t2 : Int
  llrScale : Nat
  mu : Nat
  leak : Nat
  adapt : Bool
  deriving DecidableEq, Repr

/-- Level of a recorded bit: 0 is positive, as a positive LLR favours it (log 90). -/
def level (b : Bool) : Rat := if b then -1 else 1

/-- The target response to a bit and the two before it, in LSB. The spec gives the target's shape and not its size: that is
the free value `Config.targetLevel` (R157, log 90). -/
def response (c : EqCfg) (b b1 b2 : Bool) : Rat :=
  (Config.targetLevel : Rat) * (level b + c.t1 / 64 * level b1 + c.t2 / 64 * level b2)

/-- Squared error of an equalised sample against the response. -/
def cost (c : EqCfg) (z : Rat) (b b1 b2 : Bool) : Rat := (z - response c b b1 b2) * (z - response c b b1 b2)

/-! The detector's four states are the last two bits: index 2 × the last + the one before. -/

def stMetric (m : List Rat) (b1 b2 : Bool) : Rat := (m[2 * b2n b1 + b2n b2]?).getD 0
def fwdStep (c : EqCfg) (al : List Rat) (z : Rat) : List Rat :=
  [(false, false), (false, true), (true, false), (true, true)].map (fun s =>
    min (stMetric al s.2 false + cost c z s.1 s.2 false) (stMetric al s.2 true + cost c z s.1 s.2 true))
def bwdStep (c : EqCfg) (z : Rat) (be : List Rat) : List Rat :=
  [(false, false), (false, true), (true, false), (true, true)].map (fun s =>
    min (stMetric be false s.1 + cost c z false s.1 s.2) (stMetric be true s.1 + cost c z true s.1 s.2))

/-- The backward metrics before each sample of a window, and after the last. -/
def bwdAll (c : EqCfg) : List Rat → List Rat → List (List Rat)
  | [], be => [be]
  | z :: r, be =>
    let rest := bwdAll c r be
    bwdStep c z (rest.headD []) :: rest

/-- The best metric of the paths on which a sample's bit is `b`. -/
def bestOf (c : EqCfg) (al be : List Rat) (z : Rat) (b : Bool) : Rat :=
  let m := fun (b1 b2 : Bool) => stMetric al b1 b2 + cost c z b b1 b2 + stMetric be b b1
  min (min (m false false) (m false true)) (min (m true false) (m true true))

/-- An LLR: the metric difference scaled by 2^−LLRSCALE, rounded and limited to ±31 (R157). Which way a tie is rounded the spec does
not say: up (DESIGN CHOICE, log 113). -/
def llrOf (c : EqCfg) (al be : List Rat) (z : Rat) : Int :=
  clampInt (-31) 31 ((bestOf c al be z true - bestOf c al be z false) / 2 ^ c.llrScale + 1 / 2).floor

/-- A window's LLRs, and the forward metrics after it. -/
def windowLlrs (c : EqCfg) : List Rat → List Rat → List (List Rat) → List Int × List Rat
  | al, z :: r, be :: bs =>
    let rest := windowLlrs c (fwdStep c al z) r bs
    (llrOf c al be z :: rest.1, rest.2)
  | al, _, _ => ([], al)

/-- The detector over equalised samples: windows of 64 bits, whose backward metrics begin 32 bits past them (R157, log 90).
`n` bounds the windows. -/
def detectFrom (c : EqCfg) : Nat → List Rat → List Rat → List Int
  | 0, _, _ => []
  | n + 1, al, zs =>
    if zs = [] then [] else
    let w := zs.take 64
    let be := (bwdAll c ((zs.drop 64).take 32) [0, 0, 0, 0]).headD []
    let (ls, al') := windowLlrs c al w ((bwdAll c w be).drop 1)
    ls ++ detectFrom c n al' (zs.drop 64)

def detect (c : EqCfg) (zs : List Rat) : List Int := detectFrom c (zs.length / 64 + 1) [0, 0, 0, 0] zs

/-- A tap as the filter and EQTAP have it: 12 bits, 10 of them fractional. The adapted value is kept exactly beside it and rounded
down: how an update is rounded the spec does not say (R155, R170; DESIGN CHOICE, log 113). -/
def tapBits (t : Rat) : Int := (t * 1024).floor

/-- A tap within its 12 bits, 10 of them fractional (R155, R156). -/
def tapLimit (t : Rat) : Rat := max (-2) (min (2047 / 1024) t)

/-- Corrected sample `i`, in LSB; 0 past either end of what was taken. -/
def sampleAt (ys : List Int) (i : Int) : Rat := if i < 0 then 0 else (((ys[i.toNat]?).getD 0 : Int) : Rat) / 4

/-- The equaliser's output at bit `n` of a slot, whose sample is `ys[n + 8]`: tap 7 is the cursor (R155). -/
def firAt (taps : List Rat) (ys : List Int) (n : Nat) : Rat :=
  (taps.zipIdx.map (fun x => (tapBits x.1 : Rat) / 1024 * sampleAt ys ((n : Int) + 15 - x.2))).foldl (· + ·) 0

/-- The equaliser at one bit, the outputs so far newest first: a tap moves once every 4 bits, against the response to the
hard decisions of 24 bits before, with leakage (R156). -/
def eqStep (c : EqCfg) (ys : List Int) (st : List Rat × List Rat) (n : Nat) : List Rat × List Rat :=
  let (taps, zs) := st
  let zs := firAt taps ys n :: zs
  if !c.adapt ∨ n % 4 ≠ 3 ∨ n < 26 then (taps, zs) else
  let ls := detect c zs.reverse
  let d := fun (m : Nat) => decide ((ls[m]?).getD 0 < 0)
  let m := n - 24
  let err := (zs[24]?).getD 0 - response c (d m) (d (m - 1)) (d (m - 2))
  let upd := fun (x : Rat × Nat) =>
    tapLimit (x.1 - x.1 / 2 ^ (c.leak + 16) - err * sampleAt ys ((m : Int) + 15 - x.2) / 2 ^ c.mu)
  (taps.zipIdx.map upd, zs)

/-- Equalise a slot's samples: the taps after it, and its outputs. The samples reach 8 bits past the outputs on either
side. -/
def equalise (c : EqCfg) (taps : List Rat) (ys : List Int) : List Rat × List Rat :=
  let (t, zs) := (List.range (ys.length - 16)).foldl (eqStep c ys) (taps, [])
  (t, zs.reverse)

/-! ### Sync and framing (R159) -/

/-- A peak of the sync correlation with the header read there: `d` in whole bits from the prediction, `e` in 1/64 bit cell. -/
structure Peak where
  d   : Int
  e   : Int
  hdr : Nat
  deriving DecidableEq, Repr

def Peak.dsn (k : Peak) : Nat := k.hdr / 2 ^ 35 % 2 ^ 29
def Peak.slot (k : Peak) : Nat := k.hdr / 2 ^ 28 % 128
def Peak.chan (k : Peak) : Nat := k.hdr / 2 ^ 20 % 256
def Peak.type (k : Peak) : Nat := k.hdr / 2 ^ 16 % 16
def Peak.crcOk (k : Peak) : Bool := decide (headerCrc k.hdr = k.hdr % 2 ^ 16)

/-- The peaks within ±16 bits of the prediction: the LLRs begin 16 bits before it, and a negative one is a 1. The spec does
not say how `e` is refined from the soft values: its fraction, within half a bit, is a free value (R159, log 90). -/
def peaksOf (th : Nat) (llrs : List Int) (free : Nat) : List Peak :=
  let hard := llrs.map (fun l => decide (l < 0))
  let one := fun (i : Nat) =>
    let got := ((List.zip ((hard.drop i).take 48) (msbBits syncMark 48)).filter (fun x => x.1 = x.2)).length
    if got < th then none else
    let d := (i : Int) - 16
    some { d := d, e := 64 * d - 32 + (Config.freeValue (free + i) % 65 : Nat), hdr := bitsVal ((hard.drop (i + 48)).take 64) }
  if hard = [] then [] else (List.range 33).filterMap one

/-- The soft values of the codeword framed at offset `d`. -/
def codeLlrs (llrs : List Int) (d : Int) : List Int := (llrs.drop ((d + 16).toNat + 112)).take 3840

/-! ### C1 on soft values (R184 to R187) -/

/-- What the decoder begins with (R184). -/
def c1Start (llrs : List Int) : C1State := { app := (llrs.zipIdx.filter (fun x => x.1 ≠ 0)).map (fun x => (x.2, x.1)) }

/-- A converged word's bits. -/
def c1Bits (d : C1State) : List Bool := (List.range 3840).map (c1Hard d)

/-- Statistics of one codeword for gain, offset and asymmetry: the signs of the error against the response to the corrected
bits, so that a positive sum asks for a higher delta. A higher gain moves the output away from 0, a higher offset or asymmetry moves
it down (R148, R153, log 91). -/
def lmsStats (c : EqCfg) (zs : List Rat) (word : List Bool) : Int × Int × Int :=
  let sg := fun (r : Rat) => if 0 < r then (1 : Int) else if r < 0 then -1 else 0
  let b := fun (i : Nat) => (word[i]?).getD false
  let terms := (List.range (min word.length zs.length)).map (fun i =>
    let r := response c (b i) (if i = 0 then false else b (i - 1)) (if i < 2 then false else b (i - 2))
    let e := (zs[i]?).getD 0 - r
    (-(sg e * sg r), sg e))
  let g := (terms.map (·.1)).foldl (· + ·) 0
  let o := (terms.map (·.2)).foldl (· + ·) 0
  (g, o, o)

end Sys2Proof
end

