-- ==== Sys2Proof/Machine/DMA.lean ====
section
/-! DEFINITION. The general DMA channels and the host windows (chapter 09). -/

namespace Sys2Proof.Machine

def dmaOf (s : State) (n : Nat) : DmaChan := sget {} s.dma n
def setDma (n : Nat) (c : DmaChan) (s : State) : State := { s with dma := sset {} s.dma n c }

/-- CFG.FUNC of a channel. -/
def dmaFunc (s : State) (n : Nat) : Fin 64 := Fin.ofNat 64 (rfld s (pgDMA n) 0x100 5 0)

/-- A channel's host reads go out with No Snoop where CFG.NS is 1 and its function has set Enable No Snoop (R445). -/
def dmaNoSnoop (s : State) (n : Nat) : Bool := rbit s (pgDMA n) 0x100 14 && (sget {} s.host.pol (dmaFunc s n).val).noSnoop

/-- A descriptor's data writes to the host carry Relaxed Ordering where CFG.RO is 1 and the function has set Enable Relaxed
Ordering (R437). -/
def dmaRelaxed (s : State) (n : Nat) : Bool := rbit s (pgDMA n) 0x100 15 && (sget {} s.host.pol (dmaFunc s n).val).relaxed

/-- Set an event bit of a channel; with CFG.IEN it signals vector IV of its function too (R436). -/
def dmaEvent (n b : Nat) (s : State) : State :=
  let s := raise (pgDMA n) b s
  if rbit s (pgDMA n) 0x100 6 then signal (dmaFunc s n) (rfld s (pgDMA n) 0x100 13 8) s else s

/-! ### Spaces (R425) -/

/-- An on-chip access of `k` bytes at `a` lies inside its space. -/
def spaceOk (sp : BitVec 3) (a k : Nat) : Bool :=
  match sp.toNat with
  | 1 => decide (a + k ≤ 0x2000000)
  | 2 => decide (0x80000000 ≤ a) && decide (a + k ≤ 0x80800000)
  | 3 => decide (a + k ≤ 0xC000000)
  | 4 => decide (a + k ≤ 0x200000)
  | _ => false

/-- The queue in use whose ring lies over a staging address (R318). -/
def ringAt (s : State) (a : Nat) : Option Nat :=
  (List.range 64).find? (fun p =>
    let b := rfld s (pgRIQ p) 0x100 9 0 * 16384
    pageEn s (pgRIQ p) && decide (b ≤ a) && decide (a < b + ringBytes s p))

/-- The item and offset in it that a ring byte lies at. -/
def ringItem (s : State) (p a : Nat) : Option (Item × Nat) :=
  let n := ringBytes s p
  let o := a - rfld s (pgRIQ p) 0x100 9 0 * 16384
  (riqOf s p).items.findSome? fun i =>
    let d := (o + n - i.start % n) % n
    if d < 8 + i.bytes.length then some (i, d) else none

/-- A byte of the item that a ring holds at a staging address: its length slot, then its record bytes (R320, R321). An unfilled length
slot reads zero, as its consumer word has it (R322, log 20). -/
def ringByte (s : State) (a : Nat) : Option Byte :=
  (ringAt s a).bind (fun p => (ringItem s p a).bind (fun x => (slotBytes x.1 ++ x.1.bytes)[x.2]?))

/-- Of the buffers that an owner holds, the one allocated next after place `q`: a requester's buffers for one polder are a chain in the
order of their allocation (R336, R342, R351, log 102). -/
def chainNext (s : State) (b : Buf) : Option Nat :=
  (s.rcd.bufs.foldl (fun (best : Option (Nat × Nat)) x =>
    if x.2.alloc ∧ x.2.req = b.req ∧ x.2.pol = b.pol ∧ b.seq < x.2.seq ∧ best.all (fun y => decide (x.2.seq < y.2)) then some (x.1, x.2.seq)
    else best) none).map (·.1)

/-- NEXT of a buffer's link header: of a free buffer the next on its pool's list, of an allocated one the next of its owner's chain, null
at the end (R351). -/
def linkNext (s : State) (pool i : Nat) : Nat :=
  let l := sget [] s.rcd.freeList pool
  let b := bufOf s pool i
  match (if b.alloc then chainNext s b else l[(l.idxOf i) + 1]?.map (bufKey pool)) with
  | some kb => (handleOf (kb / 65536) (kb % 65536) (sget {} s.rcd.bufs kb).gen).toNat
  | none => 0xFFFFFFFF

/-- The link header of a pool buffer, of requester 0 and no polder while it is free (R351, R352). -/
def linkHeader (s : State) (pool i : Nat) : List Byte :=
  let b := bufOf s pool i
  let body := leBytes (linkNext s pool i) 4 ++ leBytes (b.req + 256 * b.pol.toNat) 4 ++ leBytes (if b.alloc then 0x3C3C else 0x0F0F) 2 ++ [b.gen, 0]
  body ++ leBytes (crc32c (body ++ leBytes (poolBase s pool + i * poolBytes pool) 4)).toNat 4

/-- The byte that a link header holds at a staging address, where one stands there unharmed (R349, R351). -/
def linkByte (s : State) (a : Nat) : Option Byte :=
  if !pageEn s pgBPM ∨ a < 0x1000000 then none else
  ((List.range 5).find? (fun k => decide (poolBase s k ≤ a) && decide (a < poolBase s k + poolCount s k * poolBytes k))).bind (fun k =>
    let o := a - poolBase s k
    let i := o / poolBytes k
    if (bufOf s k i).ok ∧ o % poolBytes k < 16 then (linkHeader s k i)[o % poolBytes k]? else none)

/-- A staging byte whose content the spec does not give: one of a ring in use behind or between its items, or one behind the link
header of a pool buffer that an engine holds. A read of it is free (log 20). -/
def stagingFree (s : State) (a : Nat) : Bool :=
  ((ringAt s a).isSome && (ringByte s a).isNone) ||
  s.rcd.bufs.any (fun x =>
    let b := poolBase s (x.1 / 65536) + x.1 % 65536 * poolBytes (x.1 / 65536)
    x.2.alloc && !decide (76 ≤ x.2.req ∧ x.2.req ≤ 95) && decide (b + 16 ≤ a) && decide (a < b + poolBytes (x.1 / 65536)))

/-- Staging bytes as they are read: items where a ring holds them, link headers where the pool manager keeps them, free values where the
spec gives none. -/
def stagingRead (s : State) (a k : Nat) : List Byte :=
  let free := leBytes (freeVal s) k
  (readBytes 0 s.mem.staging a k).zipIdx.map (fun x =>
    if stagingFree s (a + x.2) then (free[x.2]?).getD 0 else ((linkByte s (a + x.2)).or (ringByte s (a + x.2))).getD x.1)

/-- Read `k` on-chip bytes. -/
def spaceRead (sp : BitVec 3) (a k : Nat) (s : State) : List Byte × State :=
  match sp.toNat with
  | 1 => (stagingRead s a k, if (List.range k).any (fun j => stagingFree s (a + j)) then freeNext s else s)
  | 2 => (readBytes 0 s.mem.coreMem (a - 0x80000000) k, s)
  | 3 => (readBytes 0 s.mem.sysRegion a k, s)
  | _ => (readBytes 0 s.mem.dump a k, s)

/-- Write on-chip bytes; a word wholly written is whole again. -/
def spaceWrite (sp : BitVec 3) (a : Nat) (bs : List Byte) (s : State) : State :=
  let whole := fun (x : Nat × Nat) => decide (x.1 = sp.toNat) && decide (a ≤ 8 * x.2) && decide (8 * x.2 + 8 ≤ a + bs.length)
  let s := { s with itg.bad := s.itg.bad.filter (fun x => !whole x) }
  match sp.toNat with
  | 1 => stagingWrite a bs s
  | 2 => { s with mem.coreMem := writeBytes 0 s.mem.coreMem (a - 0x80000000) bs }
  | 3 => { s with mem.sysRegion := writeBytes 0 s.mem.sysRegion a bs }
  | _ => s

/-- End of an on-chip space that a channel may write. -/
def spaceEnd (sp : BitVec 3) : Nat := match sp.toNat with | 1 => 0x2000000 | 2 => 0x80800000 | 3 => 0xC000000 | _ => 0

/-- The bytes of a chain's descriptor that are not written are undefined at an on-chip destination (R438). -/
def dmaSpoil (n : Nat) (s : State) : State :=
  let c := dmaOf s n
  let a := c.dst.toNat + c.done
  let k := min (c.len - c.done) (spaceEnd c.dstSp - a)
  if c.ring ∨ k = 0 ∨ !spaceOk c.dstSp a k then s else freeNext (spaceWrite c.dstSp a (leBytes (freeVal s) k) s)

/-- A channel halts at a fault: it records it, raises HALT, and is fenced unless the cause is FUNC_RESET;
the rest of its descriptor is undefined at the destination (R438). -/
def dmaHalt (n code addr : Nat) (sp : BitVec 3) (wr : Bool) (s : State) : State :=
  let s := dmaSpoil n s
  let c := { dmaOf s n with st := .halted, halt := BitVec.ofNat 4 code, failAddr := BitVec.ofNat 64 addr,
                            failSp := sp, failWr := wr, rdOut := none, descRd := false }
  let s := dmaEvent n 3 (bump (pgDMA n) 0xA0C 1 (setDma n c s))
  if code = 8 then s else markFence (0x2000 + n) 5 s

/-- An on-chip read touches an uncorrectable word (R545). -/
def badRead (s : State) (sp : BitVec 3) (a k : Nat) : Bool :=
  s.itg.bad.any (fun x => decide (x.1 = sp.toNat) && decide (8 * x.2 < a + k) && decide (a < 8 * x.2 + 8))

/-- The fault code an access meets: BUS_ERR or SRC_UNCORR on chip, WINDOW at the host (R438, R439, R545); none when it may
go. -/
def accessCode (s : State) (n : Nat) (sp : BitVec 3) (wr : Bool) (a k : Nat) : Option Nat :=
  if sp = 0 then (if winOk s (dmaFunc s n).val wr a k then none else some 6)
  else if !spaceOk sp a k then some 4
  else if !wr && badRead s sp a k then some 5 else none

/-- Halt with a fault code met at `a`; a window refusal is recorded on the window page too (R452). -/
def accessHalt (n code a : Nat) (sp : BitVec 3) (wr : Bool) (s : State) : State :=
  dmaHalt n code a sp wr (if code = 6 then winRefused (dmaFunc s n).val a wr 0 n s else s)

/-! ### Descriptors (R427 to R432) -/

/-- A descriptor's fields. -/
structure Desc where
  src  : Nat
  dst  : Nat
  len  : Nat
  ctrl : Nat
  next : Nat
  deriving DecidableEq, Repr

def parseDesc (bs : List Byte) : Desc :=
  { src := leNat (bs.take 8), dst := leNat ((bs.drop 8).take 8), len := leNat ((bs.drop 0x10).take 4),
    ctrl := leNat ((bs.drop 0x14).take 4), next := leNat ((bs.drop 0x18).take 8) }

def Desc.srcSp (d : Desc) : Nat := d.ctrl % 8
def Desc.dstSp (d : Desc) : Nat := d.ctrl / 8 % 8
def Desc.nextSp (d : Desc) : Nat := d.ctrl / 64 % 8
def Desc.last (d : Desc) : Bool := d.ctrl / 512 % 2 = 1
def Desc.irq (d : Desc) : Bool := d.ctrl / 1024 % 2 = 1

/-- The descriptor may run (R431, R432). -/
def descOk (ring : Bool) (d : Desc) : Bool :=
  decide (d.ctrl < 2 ^ 11) && decide (d.dstSp ≤ 3) && decide (d.nextSp ≤ 2) && decide (1 ≤ d.len) &&
  decide (d.len ≤ 16777216) &&
  (if ring then d.srcSp = 5 && d.last && d.dst % 4096 = 0 && d.len % 4096 = 0
   else decide (d.srcSp ≤ 4) && (d.last || d.next % 32 = 0))

/-- The descriptor in hand has been read: it is checked and begun. -/
def beginDesc (n : Nat) (bs : List Byte) (s : State) : State :=
  let c := dmaOf s n
  let d := parseDesc bs
  if !descOk c.ring d then dmaHalt n 7 c.cur.toNat c.curSp false s
  else setDma n { c with src := BitVec.ofNat 64 d.src, dst := BitVec.ofNat 64 d.dst, srcSp := BitVec.ofNat 3 d.srcSp,
                         dstSp := BitVec.ofNat 3 d.dstSp, len := d.len, next := BitVec.ofNat 64 d.next,
                         nextSp := BitVec.ofNat 3 d.nextSp, last := d.last, irq := d.irq, rdOut := none, descRd := false } s

/-- Take the descriptor at `a` (R428 to R431). `hostDesc` is what a read of host memory brought, empty while
its completion is outstanding. -/
def takeDesc (n : Nat) (a : Nat) (sp : BitVec 3) (hostDesc : List Byte) (s : State) : State :=
  let c := dmaOf s n
  if rfld s (pgDMA n) 0x104 15 0 < c.taken + 1 then dmaHalt n 1 a sp false s
  else
    let s := setDma n { c with taken := c.taken + 1, cur := BitVec.ofNat 64 a, curSp := sp, done := 0, len := 0 } s
    if 3 ≤ sp.toNat then dmaHalt n 7 a sp false s else
    match accessCode s n sp false a 32 with
    | some code => accessHalt n code a sp false s
    | none =>
      if a % 32 ≠ 0 then dmaHalt n 7 a sp false s
      else if sp ≠ 0 then
        let (bs, s) := spaceRead sp a 32 s
        beginDesc n bs s
      else
        let s := emit (.hostRead (dmaFunc s n) (BitVec.ofNat 64 a) 32 (dmaNoSnoop s n)) s
        if hostDesc.length = 32 then beginDesc n hostDesc s
        else setDma n { dmaOf s n with rdOut := some 32, descRd := true } s

/-! ### Commands -/

/-- GO is refused (R428, R438). -/
def goBusy (s : State) (n : Nat) : Bool :=
  let c := dmaOf s n
  c.st = .running || isFenced s (0x2000 + n) || (c.st = .halted && (c.halt ≠ 8 || !fnEnabled s (dmaFunc s n))) ||
  !pageEn s (pgDMA n)

/-- DMA_GO (R428); a core's store buffer is drained first (R448). -/
def dmaGo (n : Fin 16) (hostDesc : List Byte) (core : Option CoreWrite) (s : State) : State :=
  let s := touchPage (pgDMA n.val) (drainStores core s)
  if goBusy s n.val then raise (pgDMA n.val) 6 s
  else
    let s := setDma n.val { st := .running, ring := rbit s (pgDMA n.val) 0x100 16 } s
    takeDesc n.val (rget s (pgDMA n.val) 0x110 ++ rget s (pgDMA n.val) 0x10C).toNat
      (BitVec.ofNat 3 (rfld s (pgDMA n.val) 0x114 2 0)) hostDesc s

def execDmaGo (n : Fin 16) (hostDesc : List Byte) (core : Option CoreWrite) (s : State) : Res := .next (dmaGo n hostDesc core s)

/-- Largest bytes of a burst (R443). -/
def burstMax (s : State) (n : Nat) : Nat := 64 * 2 ^ rfld s (pgDMA n) 0x108 18 16

/-- Bytes that a transfer of a channel moved are counted. -/
def moved (n k : Nat) (s : State) : State :=
  setDma n { dmaOf s n with done := (dmaOf s n).done + k } (bump64 (pgDMA n) 0xA00 k s)

/-- Write bytes at the descriptor's destination and count them (R428, R437). -/
def dmaPut (n : Nat) (bs : List Byte) (s : State) : State :=
  let c := dmaOf s n
  let a := c.dst.toNat + c.done
  match accessCode s n c.dstSp true a bs.length with
  | some code => accessHalt n code a c.dstSp true s
  | none =>
    moved n bs.length (if c.dstSp = 0 then emit (.hostWrite (dmaFunc s n) (BitVec.ofNat 64 a) bs (dmaRelaxed s n)) s
                       else spaceWrite c.dstSp a bs s)

/-- Bytes of a burst that PCIe allows: `tlp`, and for a write to the host no more than the 512 B payload supported (R370, R443). -/
def hostBurst (src dst : BitVec 3) (tlp : Nat) : Nat :=
  if dst = 0 then min tlp 512 else if src = 0 then tlp else 4096

/-- A chain's next burst (R443, R439, R438): of two faults on one burst the lower code is recorded (R449). -/
def chainBurst (n tlp : Nat) (s : State) : State :=
  let c := dmaOf s n
  let sa := c.src.toNat + c.done
  let da := c.dst.toNat + c.done
  let host := hostBurst c.srcSp c.dstSp tlp
  let k := min (min (burstMax s n) host) (min (c.len - c.done) (min (4096 - sa % 4096) (4096 - da % 4096)))
  if c.rdOut.isSome ∨ k = 0 then s else
  match accessCode s n c.srcSp false sa k, accessCode s n c.dstSp true da k with
  | some x, some y => if x ≤ y then accessHalt n x sa c.srcSp false s else accessHalt n y da c.dstSp true s
  | some x, none => accessHalt n x sa c.srcSp false s
  | none, some y => accessHalt n y da c.dstSp true s
  | none, none =>
    if c.srcSp = 0 then setDma n { c with rdOut := some k } (emit (.hostRead (dmaFunc s n) (BitVec.ofNat 64 sa) k (dmaNoSnoop s n)) s)
    else
      let (bs, s) := spaceRead c.srcSp sa k s
      dmaPut n bs s

/-! ### Rings (R432 to R435) -/

/-- The armed trace buffer that channel `n` carries: the lowest that names it (R435). -/
def traceOf (s : State) (n : Nat) : Option Nat :=
  (List.range 4).find? (fun b => (sget {} s.trc b).armed && rfld s pgTRC (0x100 + 0x20 * b) 23 20 = n)

/-- Take stream bytes from the channel's client until `want` are in hand (R435, R518). -/
def pull (n : Nat) (want : Nat) (s : State) : State :=
  let c := dmaOf s n
  if want ≤ c.partials.length then s else
  match rfld s (pgDMA n) 0x100 19 17 with
  | 1 => match traceOf s n with
    | none => s
    | some b =>
      let t := sget {} s.trc b
      let k := (want - c.partials.length + 3) / 4
      let bs := ((t.entries.take k).map (fun (w : Word) => leBytes w.toNat 4)).flatten
      setDma n { c with partials := c.partials ++ bs } { s with trc := sset {} s.trc b { t with entries := t.entries.drop k } }
  | 2 =>
    if rfld s pgMTR 0x10C 4 0 ≠ n + 16 then s else
    let k := (want - c.partials.length + 255) / 256
    let bs := ((s.vlt.waiting.take k).map (fun r => r.bytes s.vlt.devId)).flatten
    let s := (s.vlt.waiting.take k).foldl (fun s r => emit (.meter r) s) s
    setDma n { c with partials := c.partials ++ bs } { s with vlt.waiting := s.vlt.waiting.drop k }
  | _ => s

/-- Ring bytes that may be written now (R433). -/
def ringFree (s : State) (n : Nat) : Nat :=
  let c := dmaOf s n
  let used := (c.wrptr + c.len - rfld s (pgDMA n) 0x11C 23 0 % c.len) % c.len
  c.len - 64 - used

/-- Write `k` bytes of the stream at the ring's write offset (R433, R434). -/
def ringPut (n k : Nat) (s : State) : State :=
  let c := dmaOf s n
  let a := c.dst.toNat + c.wrptr
  let bs := c.partials.take k
  match accessCode s n c.dstSp true a bs.length with
  | some code => accessHalt n code a c.dstSp true s
  | none =>
    let s := if c.dstSp = 0 then emit (.hostWrite (dmaFunc s n) (BitVec.ofNat 64 a) bs (dmaRelaxed s n)) s else spaceWrite c.dstSp a bs s
    let w := c.wrptr + bs.length
    let s := moved n bs.length s
    let s := setDma n { dmaOf s n with partials := c.partials.drop k, wrptr := if w = c.len then 0 else w } s
    let s := if c.wrptr < c.len / 2 ∧ c.len / 2 ≤ w then dmaEvent n 1 s else s
    if w = c.len then dmaEvent n 2 s else s

/-- Bytes a ring burst may take at most. -/
def ringMax (s : State) (n tlp : Nat) : Nat :=
  let c := dmaOf s n
  min (min (burstMax s n) (hostBurst 1 c.dstSp tlp)) (min (c.len - c.wrptr) (4096 - (c.dst.toNat + c.wrptr) % 4096))

/-- A ring's next burst: at least 64 B, or up to the boundary it may not cross (R433, R434). -/
def ringBurst (n tlp : Nat) (s : State) : State :=
  let m := ringMax s n tlp
  if ringFree s n < min m 64 ∨ (dmaOf s n).len = 0 then s else
  let s := pull n m s
  let k := min m (min (ringFree s n) (dmaOf s n).partials.length)
  if 64 ≤ k ∨ (k = m ∧ 0 < k) then ringPut n k s else s

/-- DMA_BURST: the next burst of a running channel whose SHARE is not 0 (R443, R444). `tlp` gives the function's
payload or read limit, 128 × 2^tlp bytes, and `waited` whether the sluice delayed the burst. -/
def dmaBurst (n : Fin 16) (tlp : Fin 6) (waited : Bool) (s : State) : State :=
  let c := dmaOf s n.val
  if c.st ≠ .running ∨ rfld s (pgDMA n.val) 0x108 8 0 = 0 then s else
  let s := if waited then bump (pgDMA n.val) 0xA10 1 s else s
  if c.ring then ringBurst n.val (128 * 2 ^ tlp.val) s else chainBurst n.val (128 * 2 ^ tlp.val) s

def execDmaBurst (n : Fin 16) (tlp : Fin 6) (waited : Bool) (s : State) : Res := .next (dmaBurst n tlp waited s)

/-- RING_FLUSH_TIMEOUT: a partial burst is written (R434). -/
def ringFlushTimeout (n : Fin 16) (s : State) : State :=
  let c := dmaOf s n.val
  if c.st ≠ .running ∨ !c.ring ∨ c.len = 0 then s else
  let s := pull n.val 63 s
  let k := min (ringMax s n.val 4096) (min (ringFree s n.val) (dmaOf s n.val).partials.length)
  if k = 0 then s else ringPut n.val k s

def execRingFlushTimeout (n : Fin 16) (s : State) : Res := .next (ringFlushTimeout n s)

/-- Write what a ring has accepted, burst by burst, as far as its free space goes (R433, R449). -/
def ringDrain (n : Nat) : Nat → State → State
  | 0, s => s
  | f + 1, s =>
    let c := dmaOf s n
    let k := min (ringMax s n 4096) (min (ringFree s n) c.partials.length)
    if c.st ≠ .running ∨ k = 0 then s else ringDrain n f (ringPut n k s)

/-- DMA_STOP: bytes a ring has accepted are written, the channel stops and raises STOPPED (R436, R449). -/
def dmaStop (n : Fin 16) (s : State) : State :=
  let s := touchPage (pgDMA n.val) s
  if (dmaOf s n.val).st ≠ .running then s else
  let s := if (dmaOf s n.val).ring ∧ (dmaOf s n.val).len ≠ 0 then ringDrain n.val (dmaOf s n.val).partials.length s else s
  if (dmaOf s n.val).st ≠ .running then s
  else dmaEvent n.val 4 (setDma n.val { dmaOf s n.val with st := .stopped, rdOut := none, descRd := false, partials := [] } s)

def execDmaStop (n : Fin 16) (s : State) : Res := .next (dmaStop n s)

/-- DESCRIPTOR_DONE: all destination writes of a chain's descriptor have been accepted; the chain ends or goes on
(R428 to R430, R436). -/
def descriptorDone (n : Fin 16) (hostDesc : List Byte) (s : State) : State :=
  let c := dmaOf s n.val
  if c.st ≠ .running ∨ c.ring ∨ c.rdOut.isSome ∨ c.len = 0 ∨ c.done ≠ c.len then s else
  let s := bump (pgDMA n.val) 0xA08 1 s
  let s := if c.last then setDma n.val { c with st := .idle } s else s
  let s := if c.irq ∨ c.last then dmaEvent n.val 0 s else s
  if c.last then s else takeDesc n.val c.next.toNat c.nextSp hostDesc s

def execDescriptorDone (n : Fin 16) (hostDesc : List Byte) (s : State) : Res := .next (descriptorDone n hostDesc s)

/-- First byte of the read in flight and its space. -/
def readAddr (c : DmaChan) : Nat × BitVec 3 :=
  if c.descRd then (c.cur.toNat, c.curSp) else (c.src.toNat + c.done, c.srcSp)

/-- PCIE_COMPLETION: data goes to its destination, an error halts the channel (R438). -/
def pcieCompletion (n : Fin 16) (res : CplResult) (s : State) : State :=
  let c := dmaOf s n.val
  match c.rdOut, res with
  | none, _ => s
  | some _, .error => dmaHalt n.val 3 (readAddr c).1 (readAddr c).2 false s
  | some k, .data bs =>
    if c.descRd then (if bs.length = 32 then beginDesc n.val bs s else s)
    else
      let bs := bs.take k
      let left := k - bs.length
      dmaPut n.val bs (setDma n.val { c with rdOut := if left = 0 then none else some left } s)

def execPcieCompletion (n : Fin 16) (res : CplResult) (s : State) : Res := .next (pcieCompletion n res s)

/-- CPL_TIMEOUT of the channel's read (R438). -/
def cplTimeout (n : Fin 16) (s : State) : State :=
  let c := dmaOf s n.val
  match c.rdOut with
  | none => s
  | some _ => dmaHalt n.val 2 (readAddr c).1 (readAddr c).2 false (bump pgHIF 0xA00 1 s)

def execCplTimeout (n : Fin 16) (s : State) : Res := .next (cplTimeout n s)

/-- RDPTR_WRITE: the offset consumed, effective at once (R433). -/
def rdptrWrite (n : Fin 16) (v : Word) (s : State) : State :=
  rset (touchPage (pgDMA n.val) s) (pgDMA n.val) 0x11C (v &&& 0xFFFFFF)

def execRdptrWrite (n : Fin 16) (v : Word) (s : State) : Res := .next (rdptrWrite n v s)

/-- The sum of SHARE over enabled channels, with channel `n` at `x`. -/
def shareSum (s : State) (n x : Nat) : Nat :=
  ((List.range 16).map (fun m => if !pageEn s (pgDMA m) then 0 else if m = n then x else rfld s (pgDMA m) 0x108 8 0)).sum

/-- SLUICE_WRITE: taken whole, or refused with SHARE_REJECT (R444). -/
def sluiceWrite (n : Fin 16) (v : Word) (s : State) : State :=
  let s := touchPage (pgDMA n.val) s
  if pageEn s (pgDMA n.val) ∧ 256 < shareSum s n.val (bits v 8 0) then raise (pgDMA n.val) 5 s
  else rset s (pgDMA n.val) 0x108 (v &&& 0x701FF)

def execSluiceWrite (n : Fin 16) (v : Word) (s : State) : Res := .next (sluiceWrite n v s)

/-- The bits of guarded word `k` of a window page (R452). -/
def winMask (k : Nat) : Word :=
  match k % 4 with | 0 => 0xFFFFF000 | 1 => 0xFFFFFFFF | 2 => 0x0FFFFFFF | _ => 3

/-- A write of a window page from elsewhere than PF0 (R441). -/
def winDenied (f : Nat) (s : State) : State := secEvent (raise (pgWIN f) 1 (bump (pgWIN f) 0xA04 1 s))

/-- WINDOW_WRITE: the value word and its complement (R440 to R442). -/
def windowWrite (r : Requester) (f : Fin 64) (k : Fin 32) (v c : Word) (s : State) : State :=
  if !isPf0 r then winDenied f.val (winDenied f.val s)
  else guardedWrite (pgWIN f.val) v c (fun s => rset s (pgWIN f.val) (0xE00 + 4 * k.val) (v &&& winMask k.val)) s

def execWindowWrite (r : Requester) (f : Fin 64) (k : Fin 32) (v c : Word) (s : State) : Res :=
  .next (windowWrite r f k v c s)

end Sys2Proof.Machine
end

