-- ==== Sys2Proof/Machine/Format.lean ====
section
/-! DEFINITION. The bytes of the tape format: data set headers (R92, R93), the label (R105) and index images (R106 to R110),
laid out and read back. Everything is big-endian (R13). -/

namespace Sys2Proof.Machine

/-- Field of `n` bytes at offset `o`. -/
def beField (bs : List Byte) (o n : Nat) : Nat := beNat ((bs.drop o).take n)

/-! ### Data set headers (R92) -/

def dsMagic : Nat := 0x43463144

/-- Bytes 0x000 to 0x1FB of a data set header. -/
def dsHeaderBody (h : DsHeader) : List Byte :=
  beBytes dsMagic 4 ++ [h.dsType, h.geom, h.pnum, 0] ++ beBytes h.dsn 4 ++ beBytes 0 4 ++ beBytes h.wgen.toNat 8 ++
  beBytes h.lrnStart 6 ++ beBytes h.marks 6 ++ beBytes (h.firstGrp.getD 0xFFFFFFFF) 4 ++ beBytes h.ngrp 2 ++ beBytes 0 2 ++
  beBytes h.streamLen 4 ++ beBytes h.keyFp.toNat 16 ++ beBytes h.owner.toNat 8 ++ beBytes h.time 8 ++ beBytes h.writer.toNat 4 ++
  List.replicate 424 0

/-- The 512 bytes of a data set header. -/
def dsHeaderBytes (h : DsHeader) : List Byte :=
  let b := dsHeaderBody h
  b ++ beBytes (crc32c b).toNat 4

/-- A data set header read back; none where MAGIC or HCRC does not hold. -/
def readDsHeader (bs : List Byte) : Option DsHeader :=
  let b := bs.take 508
  if beField bs 0 4 ≠ dsMagic ∨ beField bs 508 4 ≠ (crc32c b).toNat ∨ bs.length < 512 then none else
  let fg := beField bs 0x24 4
  some { dsType := BitVec.ofNat 8 (beField bs 4 1), geom := BitVec.ofNat 8 (beField bs 5 1), pnum := BitVec.ofNat 8 (beField bs 6 1),
         dsn := beField bs 8 4, wgen := BitVec.ofNat 64 (beField bs 0x10 8), lrnStart := beField bs 0x18 6,
         marks := beField bs 0x1E 6, firstGrp := if fg = 0xFFFFFFFF then none else some fg, ngrp := beField bs 0x28 2,
         streamLen := beField bs 0x2C 4, keyFp := BitVec.ofNat 128 (beField bs 0x30 16), owner := BitVec.ofNat 64 (beField bs 0x40 8),
         time := beField bs 0x48 8, writer := BitVec.ofNat 32 (beField bs 0x50 4) }

/-! ### The label (R105) -/

def labelMagic : Nat := 0x4346314C4142454C

/-- DSN of the label instance at a half-band position of the housekeeping zone; none outside the label's region (R102). -/
def labelDsn (h : Nat) : Option Nat := if 1240 ≤ h ∧ h < 1248 then some (0xFFFFFF00 + (h - 1240)) else none

/-- The header of a LABEL data set at position `h`: half-band, of no partition, with that position's DSN (R92, R93, R102). -/
def labelHeaderOk (h : Nat) (bs : List Byte) : Bool :=
  match readDsHeader bs, labelDsn h with
  | some d, some n => decide (d.dsType = 3) && decide (d.geom = 1) && decide (d.pnum = 0xFF) && decide (d.dsn = n)
  | _, _ => false

/-- The label that the payload of a data set at position `h` holds; none where its header, MAGIC or VERSION does not hold, or a label
of the layout's class gives other positions or wrap pairs (R102, R105). -/
def readLabel (x : Nat × List Byte) : Option Label :=
  let bs := x.2.drop 512
  let lc := beField bs 0x0A 2
  if !labelHeaderOk x.1 x.2 then none else
  if beField bs 0 8 ≠ labelMagic ∨ beField bs 8 2 ≠ 1 ∨ (lc = 1 ∧ (beField bs 0x0C 4 ≠ 434128 ∨ beField bs 0x30 2 ≠ 200)) then none
  else some { lclass := BitVec.ofNat 16 lc, posPerWrap := beField bs 0x0C 4, cartId := BitVec.ofNat 128 (beField bs 0x10 16),
              initDev := BitVec.ofNat 32 (beField bs 0x20 4), initTime := beField bs 0x28 8, wpCount := beField bs 0x30 2 }

/-- The stream area of a label begins with these bytes; the rest of it is zero (R105). -/
def labelBytes (l : Label) : List Byte :=
  beBytes labelMagic 8 ++ beBytes 1 2 ++ beBytes l.lclass.toNat 2 ++ beBytes l.posPerWrap 4 ++ beBytes l.cartId.toNat 16 ++
  beBytes l.initDev.toNat 4 ++ beBytes 0 4 ++ beBytes l.initTime 8 ++ beBytes l.wpCount 2

/-! ### Index images (R106 to R110) -/

def indexMagic : Nat := 0x434631494E444558

/-- Wrap pairs a partition owns. -/
def wpCount (core : IndexCore) (part : Nat) : Nat := (core.wps.filter (fun x => x.2.role = .data ∧ x.2.pnum.toNat = part)).length

/-- An index header (R107). -/
def indexHeader (core : IndexCore) : List Byte :=
  beBytes indexMagic 8 ++ beBytes 1 2 ++ beBytes (core.parts.filter (·.2.inUse)).length 2 ++ beBytes 0 4 ++
  beBytes core.gen.toNat 8 ++ beBytes core.time 8 ++ beBytes core.writer.toNat 4 ++ [core.lastP] ++ beBytes 0 3 ++
  beBytes core.cartId.toNat 16 ++ beBytes 0 8

def roleCode : WpRole → Byte
  | .free => 0
  | .berm => 1
  | .data => 2

/-- A wrap pair table entry (R108). -/
def wpBytes (e : WpEntry) : List Byte :=
  [e.pnum, roleCode e.role, BitVec.ofNat 8 (b2n e.half), BitVec.ofNat 8 e.state.toNat] ++ beBytes e.closePos.toNat 4

/-- Entries from granule `k` on: a granule without one of its own has the next, which is the first data set after its start. -/
def granFill : Nat → List (Nat × Gran) → List Gran
  | _, [] => []
  | k, (n, g) :: r => List.replicate (n + 1 - k) g ++ granFill (n + 1) r

/-- Granule entries of a partition, by granule (R110). -/
def granOf (gran : Sparse (Option Gran)) (part : Nat) : List Gran :=
  granFill 0 (gran.filterMap (fun x => if x.1 / 65536 = part then x.2.map (fun g => (x.1 % 65536, g)) else none))

/-- A partition table entry; the entries of unused partitions are zero (R109). -/
def partBytes (core : IndexCore) (gran : Sparse (Option Gran)) (p : Nat) : List Byte :=
  let e := sget {} core.parts p
  if !e.inUse then List.replicate 128 0 else
  let first := ((List.range p).map (fun q => (granOf gran q).length)).sum
  [BitVec.ofNat 8 p, BitVec.ofNat 8 (b2n e.inUse + 2 * b2n e.halfBand + 4 * b2n e.full)] ++ beBytes (wpCount core p) 2 ++ beBytes 0 4 ++
  beBytes e.owner.toNat 8 ++ beBytes e.keyFp.toNat 16 ++ beBytes e.wgen.toNat 8 ++ beBytes e.nextDsn 4 ++
  beBytes (e.eodDsn.getD 0xFFFFFFFF) 4 ++ beBytes e.eodLrn 6 ++ beBytes e.eodMarks 6 ++ beBytes e.eodWrap 2 ++ beBytes 0 2 ++
  beBytes e.eodPos 4 ++ beBytes first 4 ++ beBytes (granOf gran p).length 4 ++ beBytes 0 4 ++ beBytes e.ubytes 8 ++ beBytes e.cbytes 8 ++
  List.replicate 32 0

/-- A granule table entry (R110). -/
def granBytes (g : Gran) : List Byte :=
  beBytes g.dsn 4 ++ beBytes g.lrn 6 ++ beBytes g.marks 6 ++ beBytes g.wrap 2 ++ beBytes g.pos 4 ++ beBytes 0 2

/-- The granule table: the entries of the partitions in order. -/
def granTable (gran : Sparse (Option Gran)) : List Byte :=
  (List.range 64).flatMap (fun p => (granOf gran p).flatMap granBytes)

/-- The core with the granule digest: bytes 0x0000 to 0x26AF of an image. -/
def coreBytes (core : IndexCore) (gran : Sparse (Option Gran)) : List Byte :=
  indexHeader core ++ (List.range 200).flatMap (fun w => wpBytes (sget {} core.wps w)) ++
  (List.range 64).flatMap (fun p => partBytes core gran p) ++ sha384 (granTable gran)

/-- An index image up to its granule table: the core, its digest, signature and chain. Copy C is that (R106, R113). -/
def imageHead (core : IndexCore) (gran : Sparse (Option Gran)) (sig chain : List Byte) : List Byte :=
  let c := coreBytes core gran
  c ++ sha384 c ++ sig ++ beBytes chain.length 4 ++ chain

/-- Copies A and B go on with the granule table, from the next multiple of 16 (R106). -/
def withTable (head : List Byte) (gran : Sparse (Option Gran)) : List Byte :=
  head ++ List.replicate ((16 - head.length % 16) % 16) 0 ++ granTable gran

/-- A wrap pair table entry read back. -/
def readWp (bs : List Byte) : WpEntry :=
  { pnum := BitVec.ofNat 8 (beField bs 0 1), role := if beField bs 1 1 = 2 then .data else if beField bs 1 1 = 1 then .berm else .free,
    half := decide (beField bs 2 1 = 1), state := BitVec.ofNat 2 (beField bs 3 1), closePos := BitVec.ofNat 32 (beField bs 4 4) }

/-- A partition table entry read back. -/
def readPart (bs : List Byte) : PartEntry :=
  let fl := beField bs 1 1
  let ed := beField bs 0x2C 4
  if fl % 2 = 0 then {} else
  { inUse := true, halfBand := fl.testBit 1, full := fl.testBit 2, owner := BitVec.ofNat 64 (beField bs 8 8),
    keyFp := BitVec.ofNat 128 (beField bs 0x10 16), wgen := BitVec.ofNat 64 (beField bs 0x20 8), nextDsn := beField bs 0x28 4,
    eodDsn := if ed = 0xFFFFFFFF then none else some ed, eodLrn := beField bs 0x30 6, eodMarks := beField bs 0x36 6,
    eodWrap := beField bs 0x3C 2, eodPos := beField bs 0x40 4, ubytes := beField bs 0x50 8, cbytes := beField bs 0x58 8 }

/-- The table whose key `k` holds `f k`, for the keys below `n`. -/
def tableOf {α : Type} [DecidableEq α] (d : α) (n : Nat) (f : Nat → α) : Sparse α :=
  ((List.range n).map (fun k => (k, f k))).filter (fun x => x.2 ≠ d)

/-- The core of an image. -/
def readCore (img : List Byte) : IndexCore :=
  { gen := BitVec.ofNat 64 (beField img 0x10 8), time := beField img 0x18 8, writer := BitVec.ofNat 32 (beField img 0x20 4),
    lastP := BitVec.ofNat 8 (beField img 0x24 1), cartId := BitVec.ofNat 128 (beField img 0x28 16),
    wps := tableOf {} 200 (fun w => readWp ((img.drop (0x40 + 8 * w)).take 8)),
    parts := tableOf {} 64 (fun p => readPart ((img.drop (0x680 + 128 * p)).take 128)) }

/-- Bytes of an image's core, trailer and chain. -/
def headLen (img : List Byte) : Nat := 0x2744 + beField img 0x2740 4

/-- Where an image's granule table begins: the next multiple of 16. -/
def tableAt (img : List Byte) : Nat := (headLen img + 15) / 16 * 16

/-- Granule entries of an image's table, as the partition entries name them. -/
def readGran (img : List Byte) : Sparse (Option Gran) :=
  let tab := img.drop (tableAt img)
  (List.range 64).flatMap (fun p =>
    let e := img.drop (0x680 + 128 * p)
    (List.range (beField e 0x48 4)).map (fun g =>
      let b := tab.drop (24 * (beField e 0x44 4 + g))
      (65536 * p + g, some ⟨beField b 0 4, beField b 4 6, beField b 10 6, beField b 16 2, beField b 18 4⟩)))

/-- The granule table of an image. -/
def imageTable (img : List Byte) : List Byte :=
  (img.drop (tableAt img)).take (24 * ((List.range 64).map (fun p => beField (img.drop (0x680 + 128 * p)) 0x48 4)).sum)

/-- What follows a pattern's first place in a list. -/
def findAfter (pat : List Byte) : List Byte → List Byte
  | [] => []
  | b :: r => if pat.isPrefixOf (b :: r) then (b :: r).drop pat.length else findAfter pat r

/-- The public key of the first certificate of a chain, in SEC1 form: what follows the first SubjectPublicKeyInfo on P-384, by its
curve identifier and the head of its bit string (PRESUMED, RFC 5480; log 119). -/
def chainKey (chain : List Byte) : List Byte := (findAfter [0x2B, 0x81, 0x04, 0x00, 0x22, 0x03, 0x62, 0x00] chain).take 97

/-- The signature of an image verifies under the public key of its first certificate (R106, R115). -/
def imageSigned (img : List Byte) : Bool :=
  ecdsaOk (chainKey ((img.drop 0x2744).take (beField img 0x2740 4))) (sha384 (img.take 0x26B0)) ((img.drop 0x26E0).take 96)

/-- The tests of R115 on an image's bytes: its digest, its signature and, in copies A and B, the granule digest. That an image with another
MAGIC or VERSION (R107) or a chain above the length of R106 is not intact is the model's choice (DESIGN CHOICE, log 119). -/
def imageWhole (img : List Byte) (table : Bool) : Bool :=
  decide (beField img 0 8 = indexMagic) && decide (beField img 8 2 = 1) && decide (beField img 0x2740 4 ≤ 6144) &&
  decide ((img.drop 0x26B0).take 48 = sha384 (img.take 0x26B0)) && imageSigned img &&
  (!table || decide ((img.drop 0x2680).take 48 = sha384 (imageTable img)))

end Sys2Proof.Machine
end

