-- ==== Sys2Proof/Machine/Geometry.lean ====
section
/-! DEFINITION. The tape's geometry (R67 to R74, R97 to R100, R110). -/

namespace Sys2Proof.Machine

/-- Data set positions of a wrap, of a half-wrap, and of a wrap pair (R73, R97, R98). -/
abbrev wrapLen : Nat := 434128
abbrev halfLen : Nat := 217064
abbrev pairLen : Nat := 868256

/-- Data band, place in the band, wrap pair, direction and track position of a wrap (R68). -/
def wrapBand (w : Nat) : Nat := w / 100
def wrapPair (w : Nat) : Nat := 50 * (w / 100) + w % 100 / 2
def wrapRev (w : Nat) : Bool := w % 2 = 1
def wrapTrack (w : Nat) : Nat := if wrapRev w then 99 - w % 100 / 2 else w % 100 / 2
/-- A wrap pair's wrap in a direction (R68). -/
def pairWrap (wp : Nat) (rev : Bool) : Nat := 100 * (wp / 50) + 2 * (wp % 50) + b2n rev

/-- Tone index of the start of the data area, and of a position's first bit (R73, R74, R97). -/
abbrev tiStart : Nat := 416667648
abbrev posTones : Nat := 33592
def posTone (rev halfBand : Bool) (p : Nat) : Nat :=
  let n := if halfBand then 2 * posTones else posTones
  let last := if halfBand then halfLen else wrapLen
  if rev then tiStart + n * (last - p) else tiStart + n * p

def wpOf (s : State) (wp : Nat) : WpEntry := match s.cart with | none => {} | some c => sget {} c.core.wps wp
def setWp (wp : Nat) (f : WpEntry → WpEntry) (s : State) : State :=
  match s.cart with
  | none => s
  | some c => { s with cart := some { c with core := { c.core with wps := smod {} c.core.wps wp f } } }

/-- Wrap pairs of a partition, rising (R71). -/
def partWpsIn (core : IndexCore) (part : Nat) : List Nat :=
  (core.wps.filter (fun x => x.2.role = .data ∧ x.2.pnum.toNat = part)).map (·.1)
def partWps (s : State) (part : Nat) : List Nat := match s.cart with | none => [] | some c => partWpsIn c.core part

/-- The geometry a wrap pair is written in: fixed once written, else half-band on the HC and in a partition flagged
so (R99). -/
def wpHalf (s : State) (wp : Nat) : Bool :=
  let e := wpOf s wp
  if e.state ≠ 0 then e.half else decide (s.variant = .hc) || (partEntry s e.pnum.toNat).halfBand

/-- A partition position from a wrap pair's index in the partition, a wrap and a position in it (R110). In half-band
geometry the positions of H1 count on from H0's 217,064 (log 28). -/
def ppos (half : Bool) (k : Nat) (w pos : Nat) : Nat :=
  k * pairLen + (if half then (2 * (pos / halfLen) + b2n (wrapRev w)) * halfLen + pos % halfLen
    else b2n (wrapRev w) * wrapLen + pos)

/-- Wrap and position in it of offset `o` into a wrap pair. -/
def wrapAt (half : Bool) (wp o : Nat) : Nat × Nat :=
  if half then
    let r := o / halfLen
    (pairWrap wp (r % 2 = 1), o % halfLen + (r / 2) * halfLen)
  else (pairWrap wp (wrapLen ≤ o), o % wrapLen)

/-- The partition position of a wrap and position, when the partition owns it. -/
def pposOf (s : State) (part w pos : Nat) : Option Nat :=
  ((partWps s part).idxOf? (wrapPair w)).map (fun k => ppos (wpHalf s (wrapPair w)) k w pos)

/-- Wrap and position of partition position P; none past the partition's end. -/
def pposAt (s : State) (part p : Nat) : Option (Nat × Nat) :=
  (partWps s part)[p / pairLen]?.map (fun wp => wrapAt (wpHalf s wp) wp (p % pairLen))

/-- Positions of a partition. -/
def partLen (s : State) (part : Nat) : Nat := (partWps s part).length * pairLen

end Sys2Proof.Machine
end

