-- ==== Sys2Proof/Machine/HostCmds.lean ====
section
/-! DEFINITION. The host commands 0x01 to 0x0C (R389 to R401, R408, R413, R519), as they execute once fetched. The
vault's part of KEY_IMPORT and ATTEST is in Machine/Vault.lean. -/

namespace Sys2Proof.Machine

/-- The command completes with a status and RESULT. -/
def done (h : Nat) (st : BitVec 16) (res : Nat) (s : State) : State := metered (finish h st (res64 res)) s

/-! ### OPEN_PARTITION -/

/-- Another SQ holds a write binding that MODE 1 would break (R400). -/
def writerBound (s : State) (c : Cmd) : Bool :=
  s.host.opens.any (fun o => o.writer && o.src ≠ c.src && (o.part.val = c.e.part.toNat || srcPolder s o.src = c.polder))

/-- FILLING slots of the polder's other partitions become FULL at a partition switch (R344). -/
def switchClose (pol : Fin 64) (part : Nat) (s : State) : State :=
  foldNat (fun s p => closeFilling p s) s
    (((s.bas.slots.filter (fun x => x.2.st = .filling ∧ x.2.polder = pol ∧ x.2.part.val ≠ part)).map (·.2.part.val)).eraseDups)

/-- Writes of a partition that have started and not completed. -/
def busyWrites (s : State) (part : Nat) : List Cmd :=
  s.host.cmds.filter (fun c => (c.e.opc = 0x02 ∨ c.e.opc = 0x04) ∧ c.started ∧ c.fin.isNone ∧ c.e.part.toNat = part)

/-- A partition switch waits: records of the partition that the polder's queue is bound to are not all placed (R334, R344). -/
def switchWaits (s : State) (pol : Fin 64) (part : Nat) : Bool :=
  match (riqOf s pol.val).part with
  | some q => decide (q.val ≠ part) && decide (busyWrites s q.val ≠ [])
  | none => false

/-- Bind the issuing queue as the partition's writer (R399, R400, R334, R344). -/
def bindWriter (c : Cmd) (part : Fin 64) (s : State) : State :=
  let p := c.polder.val
  let s := if (riqOf s p).part = some part then s else
    let s := switchClose c.polder part.val s
    let e := (partEntry s part.val).eodLrn
    setRiq p { riqOf s p with part := some part, nextLrn := e, asgLrn := e } s
  let upd := fun (o : Opening) => if o.src = c.src then { o with writer := decide (o.part = part) } else o
  { s with host.opens := s.host.opens.map upd }

/-- The issuing queue's opening ends, with any writer binding it holds (R399, R401). -/
def closeOpening (c : Cmd) (part : Fin 64) (s : State) : State :=
  let w := s.host.opens.any (fun o => o.src = c.src ∧ o.part = part ∧ o.writer)
  let s := if w then setRiq c.polder.val { riqOf s c.polder.val with part := none } s else s
  releaseRead part.val { s with host.opens := s.host.opens.filter (fun o => !(o.src = c.src ∧ o.part = part)) }

/-- RESULT of OPEN_PARTITION (R390). -/
def openResult (s : State) (part : Nat) : Nat :=
  eodLrn s part + b2n (partEntry s part).full * 2 ^ 48 + b2n (readOnly s) * 2 ^ 49

/-- OPEN_PARTITION (R398 to R400). A switch of the writer binding closes the open group, and waits until what was written before it is
placed (R334, R344; DEDUCED, log 112). -/
def openPartition (h : Nat) (s : State) : State :=
  onCmd h 0x01 s fun c s =>
    let part : Fin 64 := Fin.ofNat 64 c.e.part.toNat
    let mode := csp c.e 0x20 1
    match partCheck s c with
    | some st => done h st 0 s
    | none =>
      if mode = 2 then
        if (openingOf s c.src part.val).isNone then done h stNOT_OPEN 0 s
        else
          let s := closeOpening c part s
          done h stSUCCESS (openResult s part.val) s
      else if !keyHeld s (partEntry s part.val) c.polder then done h stNO_KEY 0 s
      else if mode = 1 ∧ writerBound s c then done h stWRITER_BOUND 0 s
      else if mode = 1 ∧ switchWaits s c.polder part.val then requestClose c.polder.val (riqOf s c.polder.val).asgLrn s
      else
        let old := openingOf s c.src part.val
        let o : Opening := { src := c.src, part := part, writer := (old.map (·.writer)).getD false, read := 0 }
        let s := { s with host.opens := s.host.opens.filter (fun o => !(o.src = c.src ∧ o.part = part)) ++ [o] }
        let s := if mode = 1 then bindWriter c part s else s
        done h stSUCCESS (openResult s part.val) s

def execOpenPartition (h : Nat) (s : State) : Res := .next (openPartition h s)

/-! ### WRITE_RECORDS and WRITE_MARK -/

/-- The lengths of a WRITE_RECORDS hold (R391). -/
def lengthsOk (c : Cmd) : Bool :=
  let n := csp c.e 0x20 4
  let fix := csp c.e 0x24 4
  let total := bufLen c.e c.sgl
  if fix ≠ 0 then decide (fix ≤ 16777216) && decide (n * fix = total)
  else decide (c.lens.length = n) && c.lens.all (fun w => decide (1 ≤ w.toNat) && decide (w.toNat ≤ 16777216)) &&
    decide ((c.lens.map (·.toNat)).sum = total)

/-- UBYTES of a partition once every started write of it is placed. -/
def ubytesPlanned (s : State) (part : Nat) : Nat :=
  (busyWrites s part).foldl (fun m c => max m c.ubEnd) (partEntry s part).ubytes

/-- UBYTES of every partition, with what started writes still add (R111, R392). -/
def ubytesSum (s : State) : Nat :=
  match s.cart with | none => 0 | some c => (c.core.parts.map (fun x => ubytesPlanned s x.1)).sum

/-- A write of `n` entries and `bytes` record bytes executes (R392). -/
def writeCmd (c : Cmd) (n bytes : Nat) (s : State) : State :=
  let part := c.e.part.toNat
  let p := c.polder.val
  let eod := eodLrn s part
  let lrn := if lrnOf c.e = lrnCurrent then eod else lrnOf c.e
  if eod < lrn then done c.handle stLRN_GAP 0 s
  else if 2 ^ 52 < ubytesSum s + bytes then done c.handle stLOGICAL_FULL 0 s
  else if (partEntry s part).full then done c.handle stPARTITION_FULL 0 s
  else if allPairsFenced s then done c.handle stFENCED 0 s
  else if lrn < eod ∧ busyWrites s part ≠ [] then s
  else
    let s := if lrn < eod then
        let s := truncatePart part lrn s
        setRiq p { riqOf s p with nextLrn := lrn, newDs := true } s
      else s
    let s := setRiq p { riqOf s p with asgLrn := lrn + n } s
    let ub := ubytesPlanned s part + bytes
    modCmd c.handle (fun c => { c with started := true, lrnA := lrn, lrnZ := lrn + n, ubEnd := ub }) s

/-- WRITE_RECORDS (R391, R392). -/
def writeRecords (h : Nat) (s : State) : State :=
  onCmd h 0x02 s fun c s =>
    match openCheck s c true with
    | some st => done h st 0 s
    | none =>
      if readOnly s then done h stREAD_ONLY 0 s
      else if !lengthsOk c then done h stLENGTH_MISMATCH 0 s
      else writeCmd c (csp c.e 0x20 4) (bufLen c.e c.sgl) s

def execWriteRecords (h : Nat) (s : State) : Res := .next (writeRecords h s)

/-- WRITE_MARK (R392). -/
def writeMark (h : Nat) (s : State) : State :=
  onCmd h 0x04 s fun c s =>
    match openCheck s c true with
    | some st => done h st 0 s
    | none => if readOnly s then done h stREAD_ONLY 0 s else writeCmd c (csp c.e 0x20 4) 0 s

def execWriteMark (h : Nat) (s : State) : Res := .next (writeMark h s)

/-! ### READ_RECORDS -/

/-- Partition positions between which the data set with a record lies, by the granule table: from the last entry at or below the record
to the next entry, or to the end of data (R110). -/
def recordSpan (s : State) (part lrn : Nat) : Option (Nat × Nat) :=
  match s.cart with
  | none => none
  | some c =>
    let g := granOf c.gran part
    let at_ := fun (x : Gran) => pposOf s part x.wrap x.pos
    let e := partEntry s part
    (((g.filter (fun x => decide (x.lrn ≤ lrn))).getLast?).bind at_).map (fun a =>
      (a, (((g.find? (fun x => decide (lrn < x.lrn))).bind at_).orElse (fun _ => pposOf s part e.eodWrap e.eodPos)).getD a))

/-- A plan entry reads a part of the tape on which the record lies. Where the granule table does not place the record, any entry that
reads the partition may (DESIGN CHOICE, log 118). -/
def entryHolds (s : State) (part lrn : Nat) (e : PlanEntry) : Bool :=
  let half := wpHalf s (wrapPair e.wrap.val)
  let len := if half then halfLen else wrapLen
  !e.write && decide (e.part.val = part) &&
  (match recordSpan s part lrn, pposOf s part e.wrap.val (if half && e.half then halfLen else 0) with
   | some (a, z), some p => decide (p ≤ z) && decide (a < p + len)
   | _, _ => true)

/-- The record is neither in the basin nor ahead on the wrap plan: the read needs repositioning outside the plan (R36). -/
def readMoves (s : State) (part lrn : Nat) : Bool :=
  decide (lrn < eodLrn s part) && (findGroup s part lrn).isNone && !s.trk.cur.any (entryHolds s part lrn) &&
  !s.trk.plan.any (entryHolds s part lrn)

/-- READ_RECORDS starts (R393), passed to firmware where it needs repositioning (R36); SERVICE_SLOT, DECRYPT_DONE and DECOMPRESS_DONE carry it on. -/
def readRecords (h : Nat) (s : State) : State :=
  onCmd h 0x03 s fun c s =>
    match openCheck s c false with
    | some st => done h st 0 s
    | none =>
      let here := ((openingOf s c.src c.e.part.toNat).map (·.read)).getD 0
      let lrn := if lrnOf c.e = lrnCurrent then here else lrnOf c.e
      let j : ReadJob := { h := h, part := Fin.ofNat 64 c.e.part.toNat, lrn := lrn }
      let move := readMoves s c.e.part.toNat lrn
      if move ∧ !fwTakes s then s else
      let s := modCmd h (fun c => { c with fw := move }) s
      startCmd h { s with rcd.reads := s.rcd.reads ++ [j] }

def execReadRecords (h : Nat) (s : State) : Res := .next (readRecords h s)

/-! ### SYNC -/

def tapeLrnOf (s : State) (part : Nat) : Nat := match s.cart with | none => 0 | some c => sget 0 c.tapeLrn part
def syncLrnOf (s : State) (part : Nat) : Nat := match s.cart with | none => 0 | some c => sget 0 c.syncLrn part

/-- The LRN up to which a SYNC covers its partition: past every write fetched before it (R408). -/
def syncPoint (s : State) (c : Cmd) : Nat :=
  match (busyWrites s c.e.part.toNat).find? (fun w => c.no < w.no) with
  | some w => w.lrnA
  | none => eodLrn s c.e.part.toNat

/-- SYNCs of a partition whose records are on tape, verified and covered by a copy B complete (R408). -/
def syncsDone (part : Nat) (s : State) : State :=
  let ready := fun (c : Cmd) => decide (c.e.opc = 0x05) && c.started && c.e.part.toNat = part && decide (c.lrnZ ≤ syncLrnOf s part)
  let s := metered (finishAll ready stSUCCESS (res64 (tapeLrnOf s part))) s
  if s.host.cmds.any (fun c => c.e.opc = 0x05 ∧ c.started ∧ c.fin.isNone ∧ c.e.part.toNat = part) then s
  else { s with trk.syncPend := s.trk.syncPend.filter (·.val ≠ part) }

/-- SYNC (R408): it closes the open group, and the FILLING slots once all is placed (R334, R344). -/
def sync (h : Nat) (s : State) : State :=
  onCmd h 0x05 s fun c s =>
    let part := c.e.part.toNat
    match openCheck s c false with
    | some st => done h st 0 s
    | none =>
      if s.host.cmds.any (fun w => (w.e.opc = 0x02 ∨ w.e.opc = 0x04) ∧ w.no < c.no ∧ !w.started ∧ w.fin.isNone ∧ ofPart part w) then s
      else
        let z := syncPoint s c
        let s := modCmd h (fun c => { c with started := true, lrnZ := z }) s
        let s := if z ≤ syncLrnOf s part then s else
          { s with trk.syncPend := s.trk.syncPend.filter (·.val ≠ part) ++ [Fin.ofNat 64 part] }
        let s := if (riqOf s c.polder.val).part.map (·.val) = some part then requestClose c.polder.val z s else s
        syncsDone part (closeIfDrained c.polder.val part s)

def execSync (h : Nat) (s : State) : Res := .next (sync h s)

/-! ### LOCATE, SPACE, REPORT_POSITION -/

/-- The READAHEAD slots of a partition hold an LRN. -/
def aheadHolds (s : State) (part l : Nat) : Bool :=
  let refs := ((s.bas.slots.filter (fun x => x.2.st = .readAhead ∧ x.2.part.val = part)).map (·.2.refs)).flatten
  refs.any (·.lrn ≤ l) && refs.any (l ≤ ·.hi)

/-- The read point moves (R390); outside what is held, READAHEAD slots go and reading starts anew (R360). -/
def moveRead (c : Cmd) (lrn : Nat) (s : State) : State :=
  let part := c.e.part.toNat
  let s := setRead c.src part lrn { s with mot.seekFor := some c.polder }
  if s.host.opens.any (fun o => o.part.val = part && aheadHolds s part o.read) then releaseRead part s
  else freeSlots (fun x => x.st = .readAhead && x.part.val = part) { s with trk.readAt := sset none s.trk.readAt part none }

/-- LOCATE (R390). A target beyond EODLRN is taken as EODLRN with END_OF_DATA (log 27). -/
def locate (h : Nat) (s : State) : State :=
  onCmd h 0x06 s fun c s =>
    match openCheck s c false with
    | some st => done h st 0 s
    | none =>
      let eod := eodLrn s c.e.part.toNat
      let t := if lrnOf c.e = lrnCurrent then eod else lrnOf c.e
      if eod < t then done h stEND_OF_DATA eod (moveRead c eod s) else done h stSUCCESS t (moveRead c t s)

def execLocate (h : Nat) (s : State) : Res := .next (locate h s)

/-- Where SPACE ends from `rp`, with the file marks in rising order: read point, units, status (R395). -/
def spaceTo (marks : List Nat) (eod rp : Nat) (count : Int) (unit : Nat) : Nat × Nat × BitVec 16 :=
  let k := count.natAbs
  let fwd := marks.filter (fun m => rp ≤ m ∧ m < eod)
  let back := (marks.filter (· < rp)).reverse
  if unit = 0 then
    if 0 < count then
      match fwd.head? with
      | some m => if m < rp + k then (m + 1, m + 1 - rp, stFILEMARK) else (rp + k, k, stSUCCESS)
      | none => if eod < rp + k then (eod, eod - rp, stEND_OF_DATA) else (rp + k, k, stSUCCESS)
    else
      match back.head? with
      | some m => if rp ≤ m + k then (m + 1, rp - (m + 1), stFILEMARK) else (rp - k, k, stSUCCESS)
      | none => if rp < k then (0, rp, stBEGIN_OF_PARTITION) else (rp - k, k, stSUCCESS)
  else if 0 < count then
    match fwd[k - 1]? with
    | some m => (m + 1, k, stSUCCESS)
    | none => (eod, fwd.length, stEND_OF_DATA)
  else
    match back[k - 1]? with
    | some m => (m, k, stSUCCESS)
    | none => (0, back.length, stBEGIN_OF_PARTITION)

/-- The file marks of a partition in rising order: those placed since LOAD, and `tape` for those from before. -/
def allMarks (s : State) (part : Nat) (tape : List Nat) : List Nat :=
  match s.cart with
  | none => []
  | some c => isort (fun a b => a ≤ b) (tape.filter (· < sget 0 c.baseLrn part)) ++ sget [] c.marks part

/-- SPACE (R395). `marks` are the LRNs of the file marks on tape from before LOAD. -/
def space (h : Nat) (marks : List Nat) (s : State) : State :=
  onCmd h 0x07 s fun c s =>
    match openCheck s c false with
    | some st => done h st 0 s
    | none =>
      let part := c.e.part.toNat
      let rp := ((openingOf s c.src part).map (·.read)).getD 0
      let (t, n, st) := spaceTo (allMarks s part marks) (eodLrn s part) rp (sgn 32 (csp c.e 0x20 4)) (csp c.e 0x24 1)
      done h st n (moveRead c t s)

def execSpace (h : Nat) (marks : List Nat) (s : State) : Res := .next (space h marks s)

/-- Wrap, position and DSN under the head, when the pass in progress is the partition's. -/
def underHead (s : State) (part : Nat) : Option (Nat × Nat × Option Nat) :=
  match s.trk.pass with
  | none => none
  | some p => if p.part.val ≠ part then none else
    let at_ := fun (x : Nat) => (pposAt s part x).getD (p.wrap, 0)
    match p.insts.getLast? with
    | some i => some ((at_ i.p).1, (at_ i.p).2, some i.dsn)
    | none => some ((at_ p.nextP).1, (at_ p.nextP).2, none)

/-- The 64-byte position record (R396); POS and DSN are free where the head shows none (log 3). -/
def positionRecord (s : State) (part rp marks : Nat) : List Byte :=
  let e := partEntry s part
  let eod := eodLrn s part
  let flags := b2n (decide (rp = 0)) + 2 * b2n (decide (rp = eod)) + 4 * b2n (readOnly s) + 8 * b2n e.full +
    16 * b2n (writerOf s part).isSome
  let (w, pos, dsn) := match underHead s part with
    | some (w, p, some d) => (w, p, d)
    | some (w, p, none) => (w, p, freeVal s)
    | none => (0xFFFF, freeVal s, freeVal { s with clk.free := s.clk.free + 1 })
  [BitVec.ofNat 8 part, BitVec.ofNat 8 flags] ++ List.replicate 6 0 ++ leBytes rp 8 ++ leBytes marks 8 ++ leBytes eod 8 ++
  leBytes e.eodMarks 8 ++ leBytes (tapeLrnOf s part) 8 ++ leBytes w 2 ++ [0, 0] ++ leBytes pos 4 ++ leBytes dsn 4 ++
  List.replicate 4 0

/-- REPORT_POSITION (R396). `tapeMarks` is the count of file marks on tape below a read point from before LOAD. -/
def reportPosition (h : Nat) (tapeMarks : Nat) (s : State) : State :=
  onCmd h 0x08 s fun c s =>
    match openCheck s c false with
    | some st => done h st 0 s
    | none =>
      let part := c.e.part.toNat
      let rp := ((openingOf s c.src part).map (·.read)).getD 0
      if bufLen c.e c.sgl < 64 then done h stBUFFER_SMALL 0 s
      else
        let base := match s.cart with | none => 0 | some x => sget 0 x.baseLrn part
        let m := if base ≤ rp then (marksBelow s part rp).1 else tapeMarks
        let s' := deliverAt c (bufPieces c.e c.sgl) 0 (positionRecord s part rp m) (freeNext (freeNext s))
        done h stSUCCESS rp s'

def execReportPosition (h : Nat) (tapeMarks : Nat) (s : State) : Res := .next (reportPosition h tapeMarks s)

/-! ### KEY_IMPORT, ATTEST, GET_METER -/

/-- KEY_IMPORT: rows 1 to 4 of R499; then it is with firmware, for the vault's request REQ_KEY_IMPORT. -/
def keyImport (h : Nat) (s : State) : State :=
  onCmd h 0x09 s fun c s =>
    match partCheck s c with
    | some st => done h st 0 s
    | none => if usesSgl c.e ∨ c.e.dlen ≠ 192 then done h stINVALID_FIELD 0 s else startCmd h s

def execKeyImport (h : Nat) (s : State) : Res := .next (keyImport h s)

/-- ATTEST: it is with firmware, for the vault's request REQ_ATTEST (R494). -/
def attest (h : Nat) (s : State) : State := onCmd h 0x0A s fun _ s => startCmd h s

def execAttest (h : Nat) (s : State) : Res := .next (attest h s)

/-- The meter snapshot (R519). -/
def meterSnapshot (s : State) (p : Nat) : List Byte :=
  (match sget none s.vlt.lastRec p with | some r => r.bytes s.vlt.devId | none => List.replicate 256 0) ++
  leBytes s.vlt.minute 8 ++ ((meterOf s p).nine.map (fun n => leBytes n 8)).flatten

/-- GET_METER (R519). -/
def getMeter (h : Nat) (s : State) : State :=
  onCmd h 0x0B s fun c s =>
    if bufLen c.e c.sgl < 336 then done h stBUFFER_SMALL 0 s
    else done h stSUCCESS 336 (deliverAt c (bufPieces c.e c.sgl) 0 (meterSnapshot s (csp c.e 0x20 1)) (startCmd h s))

def execGetMeter (h : Nat) (s : State) : Res := .next (getMeter h s)

/-! ### Motion that a command ends -/

/-- SPEED_MAX of the crest, in mm/s (R265). -/
def speedMax (s : State) : Nat := rfld s pgGOV 0x100 13 0

/-- The MCE acts: enabled, not fenced, and the governor not active (R249). -/
def mceOn (s : State) : Bool := pageEn s pgMCE && !isFenced s 0xC000 && !s.mot.gov.active

/-- Set the planner's target in µm/s (R231, R232, R261). -/
def planTo (target : Int) (s : State) : State :=
  let cap : Int := 1000 * (speedMax s : Nat)
  let t := clampInt (-cap) cap target
  let p := s.mot.plan
  let p := if p.idle then { p with v := s.mot.meas.speed * 65536, a := 0 } else p
  let opp := (decide (t < 0) && decide (0 < p.v)) || (decide (0 < t) && decide (p.v < 0))
  { s with mot.plan := { p with target := t, rev := opp, idle := false } }

/-- The running move ends aborted (R262). -/
def abortMove (s : State) : State :=
  if s.mot.move.status = 1 then { s with mot.move.status := 3, trk.starting := none } else s

/-- The running move is given up, and the tape comes to rest (R413, R552). -/
def restMove (s : State) : State :=
  let s := abortMove s
  if mceOn s then planTo 0 s else s

/-! ### ABORT -/

/-- A read stops: its engines' work and its buffers go, the read point stays (R413). -/
def killRead (h : Nat) (s : State) : State :=
  let mine := fun (x : Nat × Engine) => !(x.2.read && decide (x.2.job = h))
  let held := ((jobOf s h).map (·.bufs)).getD []
  freeBufs held (dropJob h { s with rcd.cry := s.rcd.cry.filter mine, rcd.dcp := s.rcd.dcp.filter mine })

/-- The queue ABORT names (R397, R469). -/
def abortSrc (c : Cmd) : Src :=
  match c.src with
  | .pcie f _ => .pcie f (Fin.ofNat 16 (csp c.e 0x20 1))
  | .net q => .net q

/-- A started write is stopped: the queue is flushed, the partition rolled back, and its later commands complete
ABORTED (R413). -/
def abortWrite (t : Cmd) (s : State) : State :=
  let s := metered (flushRiq t.polder.val true (fun c => c.handle = t.handle) stABORTED) s
  metered (finishAll (fun c => ofPart t.e.part.toNat c && decide (t.no ≤ c.no)) stABORTED 0) s

/-- A started LOCATE or SPACE ends: the motion ends at rest, and the read point is undefined until the next LOCATE (R413). -/
def abortSeek (t : Cmd) (s : State) : State :=
  done t.handle stABORTED 0 (freeNext (setRead t.src t.e.part.toNat (freeVal s % 2 ^ 48) (restMove s)))

/-- ABORT (R397, R413). -/
def abort (h : Nat) (s : State) : State :=
  onCmd h 0x0C s fun c s =>
    match s.host.cmds.find? (fun t => t.src = abortSrc c ∧ t.e.cid.toNat = csp c.e 0x22 2 ∧ t.fin.isNone ∧ t.handle ≠ h ∧ !t.silent) with
    | none => done h stSUCCESS 4 s
    | some t =>
      if !t.started then done h stSUCCESS 1 (done t.handle stABORTED 0 s)
      else match t.e.opc.toNat with
      | 0x02 => done h stSUCCESS 2 (abortWrite t s)
      | 0x04 => done h stSUCCESS 2 (abortWrite t s)
      | 0x03 => done h stSUCCESS 2 (done t.handle stABORTED 0 (killRead t.handle s))
      | 0x06 => done h stSUCCESS 2 (abortSeek t s)
      | 0x07 => done h stSUCCESS 2 (abortSeek t s)
      | 0x05 => done h stSUCCESS 2 (syncsDone t.e.part.toNat (done t.handle stABORTED 0 s))
      | _ => done h stSUCCESS 8 s

def execAbort (h : Nat) (s : State) : Res := .next (abort h s)

end Sys2Proof.Machine
end

