-- ==== Sys2Proof/Machine/Volume.lean ====
section
/-! DEFINITION. The volume index and its generations (R106 to
R117), and what LOAD makes of the cartridge (R589 to R593). -/

namespace Sys2Proof.Machine

/-! ### Generations -/

/-- A change of the core's content makes a new generation, and copy C is written (R113, R593); none is written from a
working copy that holds an uncorrectable word (R545). `f` changes what the copies of the generation say beside the working
core; the signature's bytes are the vault's, and free (log 92). -/
def newGenAs (f : IndexCore → IndexCore) (s : State) : State :=
  match s.cart with
  | none => s
  | some c =>
    if c.indexBad then s else
    let core := { c.core with gen := c.core.gen + 1, time := s.clk.devSec, writer := s.vlt.devId }
    let head := imageHead (f core) c.gran (leBytes (freeVal s) 96) Config.deviceChain
    let s := freeNext { s with cart := some { c with core := core, genCore := f core, genImage := withTable head c.gran } }
    emit (.copyC head) s

def newGen (s : State) : State := newGenAs id s

/-- Copy A of the current generation is to be written to the area that does not hold the newest intact one: two instances
(R102, R104). -/
def writeCopyA (unl : Bool) (s : State) : State :=
  match s.cart with
  | none => s
  | some c =>
    if c.indexBad then s else
    { s with cart := some { c with hk := some { area := !c.a1Newest, unl := unl, image := c.genImage } } }

/-- Every codeword of a data set has its verdict (R82, R191). -/
def allSeen (i : Inst) : Bool := decide ((i.seen.filter (· % 68 < 64)).length = 64 * 256)

/-- Copy A is written, and verified as far as its region allows (R103). Where all eight positions of its region have failed, the copy counts
as settled, and UNLOAD goes on without it (DESIGN CHOICE, log 120). -/
def Hk.settled (h : Hk) : Bool := decide (h.todo = 0) && (decide (h.off = 8) || h.insts.all (fun i => i.fails ≠ [] || allSeen i))

/-- A settled copy counts as the newest copy A where one of its instances has passed (R104). -/
def hkSettle (s : State) : State :=
  match s.cart with
  | none => s
  | some c =>
    match c.hk with
    | none => s
    | some h =>
      if h.settled ∧ h.insts.any (fun i => i.fails = [] && allSeen i) then
        { s with cart := some { c with a1Newest := h.area, aGen := c.genCore.gen } }
      else s

/-- Partitions in use. -/
def pcount (core : IndexCore) : Nat := (core.parts.filter (·.2.inUse)).length

/-! ### Berms -/

/-- A wrap pair that carries another partition's data. -/
def foreign (core : IndexCore) (part wp : Nat) : Bool :=
  let e := sget {} core.wps wp
  decide (e.role = .data) && decide (e.pnum.toNat ≠ part)

/-- The wrap pairs on one side of `wp` in its band, nearest first. -/
def bandSide (wp : Nat) (up : Bool) : List Nat :=
  if up then (List.range 50).filterMap (fun k => if wp % 50 < k then some (wp / 50 * 50 + k) else none)
  else ((List.range 50).filterMap (fun k => if k < wp % 50 then some (wp / 50 * 50 + k) else none)).reverse

/-- What R72 needs on one side of a pair of the partition: `some none` nothing, `some b` pair `b` as a berm, none
where no free pair is left. The berm is the free pair nearest the partition (R402). -/
def bermOn (core : IndexCore) (part wp : Nat) (up : Bool) : Option (Option Nat) :=
  let near := (bandSide wp up).takeWhile (fun x => !foreign core part x)
  let stop := near.length = (bandSide wp up).length
  let own := near.any (fun x => decide ((sget {} core.wps x).role = .data))
  if stop ∨ own ∨ near.any (fun x => decide ((sget {} core.wps x).role = .berm)) then some none
  else match near.head? with
    | none => none
    | some b => some (some b)

/-- Mark the berms a partition needs; none where R72 cannot hold. -/
def addBerms (part : Nat) (core : IndexCore) : List (Nat × Bool) → Option IndexCore
  | [] => some core
  | (wp, up) :: r =>
    match bermOn core part wp up with
    | none => none
    | some none => addBerms part core r
    | some (some b) => addBerms part { core with wps := sset {} core.wps b { role := .berm } } r

/-- A berm is needed while the nearest data pairs on its two sides belong to different partitions (R72). -/
def bermNeeded (core : IndexCore) (b : Nat) : Bool :=
  let side := fun (up : Bool) => ((bandSide b up).find? (fun x => decide ((sget {} core.wps x).role = .data))).map
    (fun x => (sget {} core.wps x).pnum)
  match side true, side false with
  | some p, some q => decide (p ≠ q)
  | _, _ => false

/-- Free the berms that are no longer needed (R403). -/
def freeBerms (core : IndexCore) : IndexCore :=
  { core with wps := core.wps.filter (fun x => x.2.role ≠ .berm || bermNeeded core x.1) }

/-! ### LOAD -/

/-- The end of data as a partition position (R109). -/
def eodP (s : State) (part : Nat) : Nat :=
  let e := partEntry s part
  (pposOf s part e.eodWrap e.eodPos).getD 0

/-- A DATA data set found on the tape is the entry of its granule, where no lower DSN is (R110, R591). -/
def foundGran (part p : Nat) (g : Gran) (s : State) : State :=
  match s.cart with
  | none => s
  | some c =>
    let k := 65536 * part + p / 4096
    if (sget none c.gran k).any (fun x => decide (x.dsn ≤ g.dsn)) then s
    else { s with cart := some { c with gran := sset none c.gran k (some g) } }

/-- The core of an intact copy (R115); `table` for copies A and B, which carry their granule table. -/
def copyCore (table : Bool) : CopyRead → Option IndexCore
  | .absent => none
  | .copy img decodes chainOk certId =>
    let core := readCore img
    if decodes ∧ chainOk ∧ core.writer = certId ∧ imageWhole img table then some core else none

/-- Bytes of copy C's image, in staging SRAM (R112, R589). -/
abbrev copyCLen : Nat := 16384

/-- Copy C: the image that firmware has placed at TOP.IDXC (R589). -/
def copyCRead (s : State) (env : LoadEnv) : CopyRead :=
  match env.copyC with
  | none => .absent
  | some (chainOk, certId) => .copy (readBytes 0 s.mem.staging (64 * bits (rget s pgTOP 0x128) 24 6) copyCLen) true chainOk certId

def newestA (env : LoadEnv) : CopyRead :=
  match copyCore true env.copyA0, copyCore true env.copyA1 with
  | some a, some b => if a.gen.toNat < b.gen.toNat then env.copyA1 else env.copyA0
  | some _, none => env.copyA0
  | none, some _ => env.copyA1
  | none, none => if env.copyA0 = .absent then env.copyA1 else env.copyA0

/-- What LOAD has read: copy A, the newer intact one of its two areas, copy B and copy C (R104, R589). -/
structure Copies where
  a : CopyRead
  b : CopyRead
  c : CopyRead

def copiesOf (s : State) (env : LoadEnv) : Copies := ⟨newestA env, env.copyB, copyCRead s env⟩

/-- An intact copy: its image, and whether that has a granule table. -/
structure Whole where
  table : Bool
  img   : List Byte
  deriving DecidableEq, Repr

/-- An intact copy's image (R115). -/
def wholeOf (table : Bool) (c : CopyRead) : Option Whole :=
  match c with
  | .absent => none
  | .copy img .. => if (copyCore table c).isSome then some ⟨table, img⟩ else none

/-- Intact copies in the order A, B, C (R115). -/
def intactCopies (x : Copies) : List Whole := [wholeOf true x.a, wholeOf true x.b, wholeOf false x.c].filterMap id

/-- GEN of a copy. -/
def Whole.gen (w : Whole) : Nat := (readCore w.img).gen.toNat

/-- Copies that share the highest GEN (R116). -/
def topCopies (x : Copies) : List Whole :=
  let xs := intactCopies x
  let g := xs.foldl (fun m c => max m c.gen) 0
  xs.filter (fun c => c.gen = g)

/-- Two copies' cores differ: bytes 0x0000 to 0x26AF of their images (R106, R116). -/
def coresDiffer (a b : Whole) : Bool := decide (a.img.take 0x26B0 ≠ b.img.take 0x26B0)

/-- The copy whose entry a partition is read with: of higher EODDSN, and the first in the order A, B, C where they are equal
(R117; the tie is a DESIGN CHOICE, log 78). -/
def pickCopy (xs : List Whole) (p : Nat) : Option Whole :=
  let rank := fun (w : Whole) => ((sget {} (readCore w.img).parts p).eodDsn.map (· + 1)).getD 0
  match xs with
  | [] => none
  | c :: r => some (r.foldl (fun b d => if rank b < rank d then d else b) c)

/-- Under INDEX_CONFLICT each partition takes the entry with the higher EODDSN (R117). The header and the wrap pair table are those of the first
conflicting copy in the order A, B, C (DESIGN CHOICE, log 78). -/
def conflictCore (xs : List Whole) : IndexCore :=
  let best := fun (p : Nat) => (pickCopy xs p).elim {} (fun w => sget {} (readCore w.img).parts p)
  { (xs.head?.elim {} (fun w => readCore w.img)) with parts := (List.range 64).foldl (fun m p => sset {} m p (best p)) [] }

/-- The unbroken run of DATA data sets beyond the end of data, up to the first that does not decode (R591). -/
def tailRun : Nat → List TailDs → List TailDs
  | _, [] => []
  | k, t :: r => if !t.decodes then [] else if t.dsn = k then t :: tailRun (k + 1) r else []

/-- The tail scan's new end of data for a partition (R591). `gained` counts the data sets past the index's EOD. -/
def tailApply (part : Nat) (run : List TailDs) (core : IndexCore) : IndexCore :=
  match run.getLast? with
  | none => core
  | some t =>
    let f := fun (e : PartEntry) =>
      { e with eodLrn := t.lrnStart, eodMarks := t.marks, eodDsn := if t.dsn = 0 then none else some (t.dsn - 1),
               eodWrap := t.wrap, eodPos := t.pos, wgen := (if e.wgen.toNat < t.wgen.toNat then t.wgen else e.wgen) + 1,
               nextDsn := max e.nextDsn (t.dsn + 1), cbytes := e.cbytes + 5805568 * (run.length - 1) }
    let wps := core.wps.map (fun x =>
      if x.2.role = .data ∧ x.2.pnum.toNat = part ∧ x.2.state = 0 ∧ x.1 ≤ wrapPair t.wrap then
        (x.1, { x.2 with state := 1, half := t.half }) else x)
    { core with parts := smod {} core.parts part f, wps := wps }

/-- Where the tail scan begins: the DSN after the arbitrated EOD. -/
def eodNext (core : IndexCore) (part : Nat) : Nat := ((sget {} core.parts part).eodDsn.map (· + 1)).getD 0

/-- The index rebuilt by the recovery scan (R592). -/
def recoverCore (cartId : BitVec 128) (env : LoadEnv) : IndexCore :=
  let put := fun (core : IndexCore) (r : RecoveryWp) =>
    let e := sget {} core.parts r.pnum.toNat
    { core with
      wps := sset {} core.wps r.pair.val { pnum := r.pnum, role := .data, half := r.half, state := 1 },
      parts := sset {} core.parts r.pnum.toNat { e with inUse := true, owner := r.owner, keyFp := r.keyFp } }
  let core := env.recovery.foldl put { cartId := cartId }
  let blank := (List.range 200).filter (fun b => decide ((sget {} core.wps b).role = .free) && bermNeeded core b)
  let core := { core with wps := blank.foldl (fun m b => sset {} m b { role := .berm }) core.wps }
  let tail := fun (core : IndexCore) (x : Fin 64 × TailDs) =>
    let core := tailApply x.1.val [x.2] core
    let upd := fun (e : PartEntry) => { e with cbytes := 5805568 * x.2.dsn, ubytes := 5805568 * x.2.dsn }
    { core with parts := smod {} core.parts x.1.val upd }
  env.recoveryTails.foldl tail core

/-- A copy is present but not intact (R115). -/
def copyBad (table : Bool) (c : CopyRead) : Bool := decide (c ≠ .absent) && (copyCore table c).isNone

/-- RESULT of LOAD (R390). -/
def loadResult (core : IndexCore) (ro rebuilt : Bool) (x : Copies) : Nat :=
  pcount core + 256 * b2n ro + 512 * b2n rebuilt + 1024 * b2n (copyBad true x.a) + 2048 * b2n (copyBad true x.b) +
  4096 * b2n (copyBad false x.c) + 65536 * (core.gen.toNat % 2 ^ 48)

/-- A partition's granule entries: those of the copy its entry is from, where that has a table, else those that the data set headers give
(R116, R117). -/
def granFrom (xs : List Whole) (env : LoadEnv) (p : Nat) : Sparse (Option Gran) :=
  match pickCopy xs p with
  | some ⟨true, img⟩ => (readGran img).filter (fun x => x.1 / 65536 = p)
  | _ => (env.granules.filter (fun x => x.1.val = p)).foldl (fun m x => sset none m (65536 * p + x.2.1 % 65536) (some x.2.2)) []

/-- The granule table at LOAD. -/
def loadGran (xs : List Whole) (env : LoadEnv) : Sparse (Option Gran) := (List.range 64).flatMap (granFrom xs env)

/-- The copies in use carry no granule table, and the one that the data set headers give has another digest than their core: the core changes,
which makes a new generation (R113; DEDUCED, log 119). -/
def tableLost (xs : List Whole) (gran : Sparse (Option Gran)) : Bool :=
  match xs with
  | [] => false
  | c :: _ => xs.all (fun w => !w.table) && decide ((c.img.drop 0x2680).take 48 ≠ sha384 (granTable gran))

/-- The image of the generation in use, as copies A and B carry it (R113). -/
def topImage (xs : List Whole) (gran : Sparse (Option Gran)) : List Byte :=
  match (xs.find? (·.table)).orElse (fun _ => xs.head?) with
  | none => []
  | some w => if w.table then w.img.take (tableAt w.img) ++ imageTable w.img else withTable (w.img.take (headLen w.img)) gran

/-- The image of a copy, as GET_LOG offers it (R116, R420). -/
def copyImage : CopyRead → Option (List Byte)
  | .absent => none
  | .copy img .. => some img

/-- The cartridge as it stands after the index has been chosen. Where neither area holds an intact copy A, or both hold the same
GEN, area A0 counts as the newest, so the next copy A goes to A1 (DESIGN CHOICE, log 79). -/
def mountCart (core : IndexCore) (label : Label) (env : LoadEnv) (x : Copies) (ro conflict : Bool) : Cart :=
  let eods := core.parts.foldl (fun m x => sset 0 m x.1 x.2.eodLrn) []
  let g : CopyRead → Nat := fun c => match copyCore true c with | some x => x.gen.toNat + 1 | none => 0
  let gran := loadGran (topCopies x) env
  { core := core, label := some label, genCore := core, gran := gran, genImage := topImage (topCopies x) gran, readOnly := ro, conflict := conflict,
    a1Newest := decide (g env.copyA0 < g env.copyA1),
    aGen := ((copyCore true x.a).map IndexCore.gen).getD 0, baseLrn := eods, tapeLrn := eods, syncLrn := eods }

/-- Each partition's known DATA ends at its end of data (R109, R110). -/
def mountEnds (s : State) : State :=
  match s.cart with
  | none => s
  | some c => { s with cart := some { c with dataP := c.core.parts.foldl (fun m x => sset 0 m x.1 (eodP s x.1)) [] } }

/-- The DATA data sets that the tail scan gained are entries of their granules (R110, R591). -/
def tailGran (part : Nat) (run : List TailDs) (s : State) : State :=
  run.dropLast.foldl (fun s t => match pposOf s part t.wrap t.pos with
    | some p => foundGran part p ⟨t.dsn, t.lrnStart, t.marks, t.wrap, t.pos⟩ s
    | none => s) s

/-- Read the index, arbitrate, scan the tail and mount (R589 to R593): the new state and RESULT. -/
def mount (label : Label) (ro : Bool) (env : LoadEnv) (s : State) : BitVec 16 × Nat × State :=
  let x := copiesOf s env
  let tops := topCopies x
  let conflict := tops.any (fun c => tops.any (coresDiffer c))
  let ro := ro || label.lclass ≠ 1 || conflict
  let rebuilt := tops = []
  let base := if rebuilt then recoverCore label.cartId env else if conflict then conflictCore tops else tops.head?.elim {} (fun w => readCore w.img)
  let p := base.lastP.toNat
  let run := if rebuilt ∨ conflict ∨ 64 ≤ p then [] else tailRun (eodNext base p) env.tail
  let core := tailApply p run base
  let cart := mountCart core label env x ro conflict
  let s := mountEnds (tailGran p run { s with cart := some cart, host.loadCopies := [x.a, x.b, x.c].map copyImage })
  let fresh := (decide (rebuilt ∨ run ≠ []) || tableLost tops cart.gran) && !ro
  let s := if fresh then newGen s else s
  let now := ((s.cart.map (·.core)).getD {})
  let aGen := (copyCore true x.a).map IndexCore.gen
  let s := if !ro ∧ (fresh ∨ aGen ≠ some now.gen) then writeCopyA false s else s
  let st := if label.lclass ≠ 1 then stUNSUPPORTED_RO else if conflict then stINDEX_CONFLICT else stSUCCESS
  (st, loadResult now ro rebuilt x, s)

end Sys2Proof.Machine
end

