-- ==== Sys2Proof/Machine/Vault.lean ====
section
/-! DEFINITION. The vault's mailbox (R491, R522): quotes (R494, R495), key import (R496 to R500), erasure (R501 to
R503), device time (R520); IV counter checkpoints (R505 to R508) and the close of a minute (R515). -/

namespace Sys2Proof.Machine

/-! ### The mailbox -/

/-- The live command a request's handle names, when its opcode matches and it has not been used (R491). A command
that has not been passed to firmware has no handle there yet. -/
def reqCmd (s : State) (opc : Byte) : Option Cmd :=
  s.host.cmds.find? (fun c => c.handle % 65536 = rfld s pgVLT 0x100 31 16 ∧ c.fin.isNone ∧ c.started ∧ !c.usedVault ∧ c.e.opc = opc)

/-- The answer of a request: status, reason, bytes written and RESULT, and REQ_DONE (R522, R526). -/
def respond (st : BitVec 16) (reason len : Nat) (res : Nat) (s : State) : State :=
  let s := rset s pgVLT 0x600 (BitVec.ofNat 32 (st.toNat + 65536 * reason))
  let s := rset s pgVLT 0x604 (BitVec.ofNat 32 len)
  let s := rset (rset s pgVLT 0x608 (BitVec.ofNat 32 res)) pgVLT 0x60C (BitVec.ofNat 32 (res / 2 ^ 32))
  raise pgVLT 0 s

/-- REQGO with operation `op` in REQOP: the request runs on its command, or is refused as a security event (R491). -/
def vaultReq (op : Nat) (opc : Byte) (f : Cmd → State → State) (s : State) : State :=
  let s := touchPage pgVLT s
  if rfld s pgVLT 0x100 7 0 ≠ op then s else
  match reqCmd s opc with
  | none => secEvent s
  | some c => f c (modCmd c.handle (fun c => { c with usedVault := true }) s)

/-- Answer the request and complete its command. -/
def answer (c : Cmd) (st : BitVec 16) (reason len res : Nat) (s : State) : State :=
  done c.handle st res (respond st reason len res s)

/-! ### Attestation -/

/-- A quote (R495); its random parts and its signature are given. -/
def quoteBytes (s : State) (c : Cmd) (obs : QuoteObs) : List Byte :=
  let run := s.lat.sched.running
  [0x43, 0x4B, 0x51, 0x54] ++ leBytes 1 2 ++ [BitVec.ofNat 8 s.vlt.lifecycle.toNat, if s.variant = .ac then 0 else 1] ++
  leBytes s.vlt.devId.toNat 4 ++ [BitVec.ofNat 8 c.polder.val, BitVec.ofNat 8 (b2n s.clk.timeSet), 0, 0] ++
  leBytes (polderOf s c.polder.val).tag.toNat 8 ++ leBytes s.clk.devSec 8 ++ leBytes c.e.cspec.toNat 32 ++
  beBytes obs.quoteId.toNat 16 ++ beBytes s.top.fwMeas.toNat 48 ++ beBytes ((run.map SchedImage.meas).getD 0).toNat 48 ++
  beBytes s.top.crestMeas.toNat 48 ++ sec1 (mulPoint obs.priv base384) ++ [0, 0, 0] ++ leBytes s.top.fwVer.toNat 8 ++
  leBytes ((run.map SchedImage.imageId).getD 0).toNat 4 ++ obs.sig ++ List.replicate 64 0 ++ leBytes obs.chain.length 4 ++ obs.chain

/-- Quote keys of a polder, oldest first, the oldest of four dropped for a fifth (R494). -/
def addQuote (p : Fin 64) (obs : QuoteObs) (s : State) : State :=
  let s := dropQuotes (fun q => decide (q.time + 600 ≤ s.clk.devSec)) s
  let mine := s.vlt.quotes.filter (·.polder = p)
  let old := if 4 ≤ mine.length then mine.head? else none
  { s with vlt.quotes := (s.vlt.quotes.filter (fun q => some q ≠ old)) ++ [⟨obs.quoteId, p, s.clk.devSec, obs.priv, (polderOf s p.val).tag⟩] }

/-- REQ_ATTEST (R494, R495). -/
def reqAttest (obs : QuoteObs) (s : State) : State :=
  vaultReq 1 0x0A (fun c s =>
    let bs := quoteBytes s c obs
    if bufLen c.e c.sgl < bs.length then answer c stBUFFER_SMALL 0 0 0 s
    else
      let s := bump pgVLT 0xA00 1 (addQuote c.polder obs s)
      let s := spaceWrite 1 (rget s pgVLT 0x104).toNat bs s
      answer c stSUCCESS 0 bs.length bs.length (deliverAt c (bufPieces c.e c.sgl) 0 bs s)) s

def execReqAttest (obs : QuoteObs) (s : State) : Res := .next (reqAttest obs s)

/-- QUOTE_KEY_EXPIRY: 600 s of device time after the quote (R494). -/
def quoteKeyExpiry (id : BitVec 128) (s : State) : State :=
  dropQuotes (fun q => decide (q.id = id) && decide (q.time + 600 ≤ s.clk.devSec)) s

def execQuoteKeyExpiry (id : BitVec 128) (s : State) : Res := .next (quoteKeyExpiry id s)

/-! ### Key import -/

/-- The wrapped-key blob (R496). -/
structure KeyBlob where
  magic   : Nat
  version : Nat
  flags   : Nat                -- bit 0: UNLOAD_RELEASE
  polder  : Nat
  part    : Nat
  kwalg   : Nat
  zeroB   : Nat
  quoteId : BitVec 128
  keyFp   : BitVec 128
  tpub    : List Byte
  zero91  : Nat
  wrapped : List Byte
  deriving DecidableEq, Repr

/-- The blob in 192 bytes: little-endian, but for its cryptographic values (R496, R17). -/
def readBlob (bs : List Byte) : KeyBlob :=
  let le := fun (o n : Nat) => leNat ((bs.drop o).take n)
  { magic := le 0 4, version := le 4 2, flags := le 6 2, polder := le 8 1, part := le 9 1, kwalg := le 0xA 1, zeroB := le 0xB 5,
    quoteId := BitVec.ofNat 128 (beField bs 0x10 16), keyFp := BitVec.ofNat 128 (beField bs 0x20 16),
    tpub := (bs.drop 0x30).take 97, zero91 := le 0x91 7, wrapped := (bs.drop 0x98).take 40 }

/-- The blob in the request's buffer (R522). -/
def requestBlob (s : State) : KeyBlob × State :=
  let x := spaceRead 1 (rget s pgVLT 0x104).toNat 192 s
  (readBlob x.1, x.2)

/-- MAGIC, VERSION, KWALG, FLAGS and the zero fields of a blob (R496). -/
def blobForm (b : KeyBlob) : Bool :=
  decide (b.magic = 0x4B574B43) && decide (b.version = 1) && decide (b.kwalg = 1 ∨ b.kwalg = 2) &&
  decide (b.flags ≤ 1) && decide (b.zeroB = 0) && decide (b.zero91 = 0)

/-- A quote key that polder `p` holds under an ID, within 600 s of its quote (R494). -/
def liveQuote (s : State) (p : Fin 64) (id : BitVec 128) (q : QuoteKey) : Bool :=
  decide (q.id = id) && decide (q.polder = p) && decide (s.clk.devSec < q.time + 600)

/-- Rows 1 to 8 of R499: status and reason of the first that applies. -/
def importEarly (s : State) (c : Cmd) (b : KeyBlob) : Option (BitVec 16 × Nat) :=
  match partCheck s c with
  | some st => some (st, 0)
  | none =>
    if usesSgl c.e ∨ c.e.dlen ≠ 192 then some (stINVALID_FIELD, 0)
    else if !deployed s then some (stKEY_REFUSED, 3)
    else if !blobForm b then some (stKEY_REFUSED, 1)
    else if b.polder ≠ c.polder.val ∨ b.part ≠ c.e.part.toNat then some (stKEY_REFUSED, 2)
    else if !s.vlt.quotes.any (liveQuote s c.polder b.quoteId) then some (stKEY_REFUSED, 4)
    else none

/-- The fingerprint is another partition's on the cartridge. -/
def fpElsewhere (s : State) (part : Nat) (fp : BitVec 128) : Bool :=
  match s.cart with
  | none => false
  | some c => c.core.parts.any (fun x => x.1 ≠ part && x.2.inUse && x.2.keyFp = fp)

/-- The fingerprint of a key (R498). -/
def keyPrint (key : List Byte) : BitVec 128 :=
  BitVec.ofNat 128 (beNat ((sha384 ([0x43, 0x46, 0x31, 0x2D, 0x4B, 0x45, 0x59, 0x46, 0x50] ++ key)).take 16))

/-- The key-encryption key of a quote key, a tenant's point and a binding (R497). -/
def blobKek (s : State) (q : QuoteKey) (b : KeyBlob) (pt : Nat × Nat) : List Byte :=
  hkdf384 (beBytes b.quoteId.toNat 16) (ecdh q.priv pt)
    ([0x43, 0x4B, 0x37, 0x32, 0x36, 0x34, 0x2D, 0x4B, 0x57, 0x31] ++ beBytes s.vlt.devId.toNat 4 ++ beBytes b.polder 1 ++
      beBytes b.part 1 ++ leBytes q.tag.toNat 8) 32

/-- Rows 9 to 11 of R499 under the quote key: the reason of a refusal, or the key. -/
def unwrapBlob (s : State) (q : QuoteKey) (b : KeyBlob) : Nat ⊕ List Byte :=
  match readPoint b.tpub with
  | none => .inl 5
  | some pt =>
    match keyUnwrap b.kwalg (blobKek s q b pt) b.wrapped with
    | none => .inl 6
    | some key => if b.keyFp ≠ keyPrint key then .inl 7 else .inr key

/-- Those rows under the quote key that the blob names. -/
def importKey (s : State) (c : Cmd) (b : KeyBlob) : Nat ⊕ List Byte :=
  match s.vlt.quotes.find? (liveQuote s c.polder b.quoteId) with
  | none => .inl 4
  | some q => unwrapBlob s q b

/-- Rows 12 to 17 of R499. -/
def importLate (s : State) (c : Cmd) (b : KeyBlob) : Option (BitVec 16 × Nat) :=
  let e := partEntry s c.e.part.toNat
  let held := s.vlt.keys.any (fun k => k.fp = b.keyFp ∧ k.polder = c.polder)
  if e.keyFp ≠ 0 ∧ e.keyFp ≠ b.keyFp then some (stKEY_MISMATCH, 0)
  else if e.keyFp = 0 ∧ readOnly s then some (stREAD_ONLY, 0)
  else if e.keyFp = 0 ∧ fpElsewhere s c.e.part.toNat b.keyFp then some (stKEY_REFUSED, 8)
  else if keyLost s b.keyFp ∨ nsDeg s then some (stNONCE_STATE_LOST, 0)
  else if ivFull s b.keyFp then some (stNONCE_EXHAUSTED, 0)
  else if !held ∧ 128 ≤ s.vlt.keys.length then some (stKEY_REFUSED, 9)
  else none

/-- A refused import (R499): RESULT[15:8] holds the reason. -/
def importRefused (c : Cmd) (x : BitVec 16 × Nat) (s : State) : State :=
  answer c x.1 x.2 0 (256 * x.2) (bump pgVLT 0xA08 1 s)

/-- The key goes into a slot of the store (R493, R500). A key stored anew starts its counter by R507 (R505). -/
def storeKey (c : Cmd) (b : KeyBlob) (key : List Byte) (s : State) : State :=
  if s.vlt.keys.any (fun k => k.fp = b.keyFp ∧ k.polder = c.polder) then s else
  let s := if s.vlt.keys.any (·.fp = b.keyFp) then s else { s with vlt.ivs := s.vlt.ivs.filter (·.fp ≠ b.keyFp) }
  { s with vlt.keys := s.vlt.keys ++ [⟨b.keyFp, BitVec.ofNat 256 (beNat key), c.polder, decide (b.flags = 1)⟩] }

/-- A key whose newest record names it and cannot give its bound is put in the lost list when an import meets it (R508). -/
def noteLost (fp : BitVec 128) (s : State) : State := if keyLost s fp ∧ fp ∉ s.vlt.lost then loseKey fp s else s

/-- An import that passes R499: the key is stored, and an unkeyed partition takes its fingerprint under a new generation
(R500). -/
def importDone (c : Cmd) (b : KeyBlob) (key : List Byte) (s : State) : State :=
  let fresh := (partEntry s c.e.part.toNat).keyFp = 0
  let s := bump pgVLT 0xA04 1 (storeKey c b key s)
  let s := if fresh then newGen (setPart c.e.part.toNat (fun e => { e with keyFp := b.keyFp }) s) else s
  answer c stSUCCESS 0 0 (b2n fresh) s

/-- REQ_KEY_IMPORT (R499, R500). -/
def reqKeyImport (s : State) : State :=
  vaultReq 2 0x09 (fun c s =>
    let (b, s) := requestBlob s
    match importEarly s c b with
    | some x => importRefused c x s
    | none =>
      let key := importKey s c b
      let s := dropQuotes (fun q => decide (q.id = b.quoteId) && decide (q.polder = c.polder)) s
      match key with
      | .inl reason => importRefused c (stKEY_REFUSED, reason) s
      | .inr key =>
        match importLate s c b with
        | some x => importRefused c x (if x.1 = stNONCE_STATE_LOST then noteLost b.keyFp s else s)
        | none => importDone c b key s) s

def execReqKeyImport (s : State) : Res := .next (reqKeyImport s)

/-! ### Deleting a partition -/

/-- Steps 2 to 4 of R403: slots, wrap pairs, berms and the entry go, under a new generation. Wrap-plan entries that wait for the partition
go too: the spec does not say what becomes of them (R672; DESIGN CHOICE, log 116). -/
def erasePart (part : Nat) (s : State) : State :=
  let s := freeSlots (fun x => x.part.val = part) s
  let s := { s with host.deferred := sset none s.host.deferred part none,
                    rcd.tailOpen := sset false s.rcd.tailOpen part false,
                    trk.readAt := sset none s.trk.readAt part none,
                    trk.syncPend := s.trk.syncPend.filter (·.val ≠ part),
                    trk.plan := s.trk.plan.filter (fun e => e.part.val ≠ part),
                    mot.spd.lastN := sset 0 s.mot.spd.lastN part 0 }
  let s := match s.trk.pass with
    | some p => if p.part.val = part then { s with trk.pass := some { p with endCause := some 0, retryQ := [] } } else s
    | none => s
  match s.cart with
  | none => s
  | some c =>
    let mine := fun (x : Nat × WpEntry) => decide (x.2.role = WpRole.data ∧ x.2.pnum.toNat = part)
    let core := { c.core with wps := c.core.wps.filter (fun x => !mine x), parts := sset {} c.core.parts part {},
                              lastP := if c.core.lastP.toNat = part then 0xFF else c.core.lastP }
    let cut := fun (m : Sparse Nat) => sset 0 m part 0
    newGen { s with cart := some { c with core := freeBerms core, marks := sset [] c.marks part [],
                                          baseLrn := cut c.baseLrn, tapeLrn := cut c.tapeLrn, syncLrn := cut c.syncLrn,
                                          lost := sset [] c.lost part [], cuts := sset [] c.cuts part [],
                                          gran := c.gran.filter (fun x => x.1 / 65536 ≠ part), dataP := cut c.dataP },
                    lat.enc := s.lat.enc.filter (fun e => decide (e.part ≠ part)) }

/-- REQ_PART_ERASE: the crypto-erase of PARTITION_DELETE, which then takes its remaining steps (R403, R501, R502). -/
def reqPartErase (s : State) : State :=
  vaultReq 3 0x84 (fun c s =>
    let part := c.e.part.toNat
    let fp := (partEntry s part).keyFp
    let s := if fp = 0 then s else zeroise (fun k => decide (k.fp = fp) && decide (some k.polder = ownerPolder s part)) s
    let s := erasePart part s
    let gen := match s.cart with | none => 0 | some k => k.core.gen.toNat
    answer c stSUCCESS 0 0 gen s) s

def execReqPartErase (s : State) : Res := .next (reqPartErase s)

/-! ### Time -/

/-- Device time in nanoseconds. -/
def nowNs (s : State) : Nat := s.clk.devSec * 1000000000 + s.clk.devUs * 1000

/-- Device time steps forward: the interval closes with TIME_STEP, and the next begins at the new time (R520). -/
def stepTime (sec nano : Nat) (s : State) : State :=
  let s := closeMinute true s
  { s with clk.devSec := sec, clk.devUs := nano / 1000, clk.timeSet := true, vlt.nextMinute := s.vlt.minute + 1,
           vlt.minute := sec / 60 }

/-- A minute that has ended closes, once the power has not failed (R515, R587). -/
def minuteEnd (s : State) : State :=
  if s.clk.devSec < 60 * (s.vlt.minute + 1) ∨ s.top.pf then s else
  let s := closeMinute false s
  raise pgMTR 3 { s with vlt.nextMinute := s.vlt.minute + 1, vlt.minute := s.vlt.minute + 1 }

/-- REQ_SET_TIME (R520); a minute that is due to close does so first (R521). -/
def reqSetTime (s : State) : State :=
  vaultReq 4 0x8A (fun c s =>
    let s := minuteEnd s
    let sec := csp c.e 0x20 8
    let nano := csp c.e 0x28 4
    let t := sec * 1000000000 + nano
    if t < nowNs s then answer c stTIME_BACKWARD 0 0 0 s
    else if t = nowNs s then answer c stSUCCESS 0 0 0 { s with clk.timeSet := true }
    else answer c stSUCCESS 0 0 0 (stepTime sec nano s)) s

def execReqSetTime (s : State) : Res := .next (reqSetTime s)

/-- MINUTE_CLOSED: device time has reached the end of the minute (R515). After a power failure the vault begins no MRAM
write (R587). -/
def minuteClosed (s : State) : State := minuteEnd s

def execMinuteClosed (s : State) : Res := .next (minuteClosed s)

/-! ### Checkpoints -/

/-- CHECKPOINT_DURABLE: the bound being recorded is durable, or its slot failed read-back; four failures in succession
lose the key (R505, R506, R508). A slot that failed read-back holds no readable record. -/
def checkpointDurable (fp : BitVec 128) (readBack : Bool) (s : State) : State :=
  match ivOf s fp with
  | none => s
  | some k =>
    match k.recB with
    | none => s
    | some b =>
      if s.top.pfQuiet then s
      else if readBack then setIv { k with b := b, recB := none, fails := 0 } (journalWrite fp (some b) b s)
      else
        let s := journalWrite 0 none b s
        if 3 ≤ k.fails then loseKey fp s else setIv { k with fails := k.fails + 1 } s

def execCheckpointDurable (fp : BitVec 128) (readBack : Bool) (s : State) : Res := .next (checkpointDurable fp readBack s)

/-! ### UNLOAD -/

/-- Slots that still hold data for the tape. -/
def toTape (x : Slot) : Bool := x.st = .filling || x.st = .full || x.st = .onTape

/-- Nothing is left to write or to finish before UNLOAD `h` completes (R418). -/
def drained (h : Nat) (s : State) : Bool :=
  !s.host.cmds.any (fun c => touchesPart c.e.opc.toNat ∧ c.no < h ∧ c.fin.isNone) && !s.bas.slots.any (fun x => toTape x.2) &&
  s.trk.pass.isNone && s.rcd.riq.all (fun x => x.2.part.isNone || (decide (x.2.grps = []) && x.2.opn.isNone))

/-- The cartridge leaves: openings, bindings, read-ahead and what was kept for its partitions go (R401). Entries that still wait in
the wrap plan go with it: the spec does not say what becomes of them (R672; DESIGN CHOICE, log 116). A POISONED slot stays until its
partition's deferred error is reported (R31; DEDUCED, log 117). -/
def dismount (s : State) : State :=
  let unbind := fun (x : Nat × Riq) => (x.1, { x.2 with part := none })
  freeSlots (fun x => x.st = .readAhead)
    { s with cart := none, host.opens := [], lat.enc := [], trk.last := none, rcd.riq := s.rcd.riq.map unbind, rcd.tailOpen := [],
             trk.plan := [], trk.cur := none, trk.syncPend := [], trk.readAt := [], mot.spd.lastN := [] }

/-- Copy A stands in the housekeeping zone for UNLOAD: `none` where it must still be begun. -/
def copyADone (c : Cart) : Option Bool :=
  if c.readOnly ∨ c.indexBad then some true else (c.hk.filter (·.unl)).map (·.settled)

/-- UNLOAD writes copy A once all else is written and the vault has had its notice, and completes once that copy is settled
(R103, R593). -/
def unloadCheck (s : State) : State :=
  match s.cart with
  | none => s
  | some c =>
    match c.unloading with
    | none => s
    | some h =>
      if !c.noticed ∨ !drained h s then s else
      match copyADone c with
      | none => writeCopyA true (if c.core = c.genCore then s else newGen s)
      | some false => s
      | some true => done h stSUCCESS c.core.gen.toNat (dismount s)

/-- REQ_UNLOAD_NOTICE: the slots flagged UNLOAD_RELEASE are zeroised (R501). -/
def reqUnloadNotice (s : State) : State :=
  vaultReq 5 0x82 (fun _ s =>
    let s := zeroise (·.unloadRelease) s
    let s := match s.cart with | none => s | some c => { s with cart := some { c with noticed := true } }
    unloadCheck (respond stSUCCESS 0 0 0 s)) s

def execReqUnloadNotice (s : State) : Res := .next (reqUnloadNotice s)

end Sys2Proof.Machine
end

