-- ==== Sys2Proof/Machine/MotionOps.lean ====
section
/-! DEFINITION. Shared operations of motion control: trace (R257 to R259), the write gate (R246), the control law
(R224 to R227), the planners (R231 to R234) and the targets of moves (R237). -/

namespace Sys2Proof.Machine

/-- The speed of step `n` in µm/s (R233, R237). -/
abbrev stepSpeed (n : Nat) : Int := 525000 * n

/-- The crest is sealed (R265). -/
def crestSealed (s : State) : Bool := s.mot.sealed
/-- 0.525 × n m/s does not exceed the crest SPEED_MAX. -/
def stepOk (s : State) (n : Nat) : Bool := decide (525 * n ≤ speedMax s)

/-! ### Trace -/

def trcOf (s : State) (b : Nat) : TraceBuf := sget {} s.trc b
def setTrc (b : Nat) (t : TraceBuf) (s : State) : State := { s with trc := sset {} s.trc b t }
def loopOf (s : State) (n : Nat) : Loop := sget {} s.mot.loops n
def setLoop (n : Nat) (l : Loop) (s : State) : State := { s with mot.loops := sset {} s.mot.loops n l }

/-- Target coordinate of track t in pm (R59, R223). -/
abbrev trackY (t : Nat) : Int := 88000000 + 100000 * t

/-- The track the lateral loops aim at: of a positioning move, else of the wrap-plan entry in force (R234). -/
def trackNow (s : State) : Nat :=
  if s.mot.move.status = 1 then s.mot.move.track
  else match s.trk.cur with | some e => wrapTrack e.wrap.val | none => s.mot.move.track

/-- Value of a traced node (R257). -/
def nodeVal (s : State) (loop node : Nat) : Int :=
  let l := loopOf s loop
  match node with
  | 0 => l.e
  | 1 => l.p / 65536
  | 2 => l.istate / 65536
  | 3 => l.df / 65536
  | 4 => l.u
  | 5 => l.meas
  | 6 => l.sp
  | 7 => s.mot.meas.yUp - trackY (trackNow s)
  | 8 => s.mot.meas.yLo - trackY (trackNow s)
  | 9 => (s.clk.ctr500.toNat % 2 ^ 32 : Nat)
  | 10 => if loop = 0 then s.mot.plan.a / 65536 else if loop = 2 then s.mot.lat.a / 1000000 else 0
  | _ => 0

/-- A buffer's trigger fires: 16,384 − PRE further entries follow (R258). -/
def traceTrig (b : Nat) (s : State) : State :=
  let t := trcOf s b
  if !t.armed ∨ t.trig then s
  else raise pgTRC b (setTrc b { t with trig := true, trigPos := t.kept % 16384,
                                        post := 16384 - rfld s pgTRC (0x10C + 0x20 * b) 13 0 } s)

/-- An event that some buffers trigger on: SRC 3 to 7 of R259. -/
def traceEvent (src : Nat) (s : State) : State :=
  (List.range 4).foldl (fun s b => if rfld s pgTRC (0x104 + 0x20 * b) 2 0 = src then traceTrig b s else s) s

/-- The traced node meets LEVEL (SRC 1 and 2 of R259). -/
def levelMet (src : Nat) (falling : Bool) (level v : Int) (prev : Option Int) : Bool :=
  if src = 2 then (if falling then v ≤ level else level ≤ v)
  else if src = 1 then
    match prev with
    | none => false
    | some p => if falling then decide (level < p) && decide (v ≤ level) else decide (p < level) && decide (level ≤ v)
  else false

/-- Record one entry; an entry not taken is lost when it would be overwritten (R258). -/
def traceRecord (b : Nat) (v : Int) (s : State) : State :=
  let t := trcOf s b
  let oneShot := !rbit s pgTRC (0x100 + 0x20 * b) 16
  if t.trig ∧ oneShot ∧ t.post = 0 then s else
  let lost := decide (16384 ≤ t.entries.length)
  let kept := if lost then t.entries.drop 1 else t.entries
  let s := setTrc b { t with entries := kept ++ [BitVec.ofInt 32 v], kept := t.kept + 1,
                             mem := (BitVec.ofInt 32 v :: t.mem).take 16384,
                             post := if t.trig then t.post - 1 else t.post } s
  if lost then raise pgTRC (4 + b) (bump pgTRC (0xA00 + 4 * b) 1 s) else s

/-- One sample of a loop as its trace buffers see it (R257). -/
def traceSample (loop : Nat) (s : State) : State :=
  (List.range 4).foldl (fun s b =>
    let cfg := rget s pgTRC (0x100 + 0x20 * b)
    let t := trcOf s b
    if !t.armed ∨ bits cfg 2 0 ≠ loop then s
    else if t.skip ≠ 0 then setTrc b { t with skip := t.skip - 1 } s
    else
      let v := nodeVal s loop (bits cfg 6 3)
      let trg := rget s pgTRC (0x104 + 0x20 * b)
      let level := (rget s pgTRC (0x108 + 0x20 * b)).toInt
      let met := levelMet (bits trg 2 0) (bit trg 4) level v t.prev
      let s := setTrc b { t with skip := bits cfg 15 8, prev := some v } s
      traceRecord b v (if met then traceTrig b s else s)) s

/-! ### The write gate -/

/-- Source i of R246 holds or is released; the slots being written while WINH is asserted are noted (R188). -/
def setGate (i : Nat) (on : Bool) (s : State) : State :=
  let g := s.mot.gate
  let m : BitVec 7 := BitVec.ofNat 7 (2 ^ (i - 1))
  let was := bit g.src (i - 1)
  if was = on then s else
  let src := if on then g.src ||| m else g.src &&& ~~~m
  let s := drive (fun p => { p with winh := decide (src ≠ 0) }) { s with mot.gate.src := src }
  if !on then s else
  let s := { s with tim.lgs := s.tim.lgs.map (fun x => (x.1, { x.2 with inh := true })) }
  let s := bump pgSRV (0xA00 + 4 * (i - 1)) 1 s
  if g.src = 0 then traceEvent 4 (raise pgSRV 0 s) else s

/-! ### The control law -/

/-- Round a quotient by a power of two to the nearest, halves up (log 30). -/
def rdiv (x : Int) (d : Int) : Int := (x + d / 2) / d

/-- Configuration base of a loop, and its active bank (R227, R262). -/
def loopBase (n : Nat) : Nat := 0x100 + 0x80 * n
def bankBase (s : State) (n : Nat) : Nat := loopBase n + (if rbit s pgMCE (loopBase n + 0x40) 0 then 0x20 else 0)

/-- Whether a value fits the 48 bits of `df` (R225). -/
def fits48 (x : Int) : Bool := decide (-2 ^ 47 ≤ x) && decide (x < 2 ^ 47)

/-- Run one sample of loop `n` (R224, R225, R227, R248). A `df` outside its 48 bits is a free value: the spec states none (DESIGN CHOICE,
log 121). -/
def runLoop (n : Nat) (sp meas ff : Int) (s : State) : State :=
  let b := bankBase s n
  let r := fun o => (rget s pgMCE (b + o)).toInt
  let lim := fun o hi lo => sgn 16 (rfld s pgMCE (b + o) hi lo)
  let esh := rfld s pgMCE (b + 0x10) 4 0
  let dpole := rfld s pgMCE (b + 0x10) 31 16
  let ilo := lim 0x14 15 0 * 65536
  let ihi := lim 0x14 31 16 * 65536
  let olo := lim 0x18 15 0
  let ohi := lim 0x18 31 16
  let l := loopOf s n
  let ist := if l.swapped then clampInt ilo ihi l.istate else l.istate
  let e := (sp - meas) / 2 ^ esh
  let p := rdiv (r 0 * e) 256
  let grow := !(decide (0 < l.sat) && decide (0 < e)) && !(decide (l.sat < 0) && decide (e < 0))
  let ist := clampInt ilo ihi (if grow then ist + rdiv (r 4 * e) 256 else ist)
  let d := rdiv (r 8 * (e - l.eprev)) 256
  let exact := if dpole = 0 then d else l.df + rdiv ((d - l.df) * dpole) 65536
  let df := if fits48 exact then exact else sgn 48 (freeVal s)
  let near := decide ((sp - meas).natAbs ≤ (rget s pgMCE (loopBase n + 0x48)).toNat)
  let f := rdiv (r 12 * ff) 256
  let v := rdiv (p + ist + df + f) 65536
  let sat := if ohi < v then 1 else if v < olo then -1 else 0
  traceSample n (setLoop n { l with meas := meas, sp := sp, e := e, p := p, df := df, istate := ist, eprev := e, sat := sat,
                                    u := clampInt olo ohi v, ff := ff, swapped := false, fe := if near then 0 else l.fe }
    (if fits48 exact then s else freeNext s))

/-- SETPT of loops 1, 3 and 4 (R230). -/
def setPt (s : State) (n : Nat) : Int := (rget s pgMCE (loopBase n + 0x4C)).toInt

/-! ### The speed planner -/

/-- Limits of the planner, never beyond the crest (R233, R255): AMAX in 2^−16 mm/s², JMAX in m/s³. -/
def planAmax (s : State) : Int :=
  (min (rfld s pgMCE 0x380 15 0) (rfld s pgGOV 0x104 15 0) : Nat) * 100 * 65536
def planJmax (s : State) : Int := (rfld s pgMCE 0x380 31 16 : Nat)

/-- One 40 µs step of R233's recurrence for a reference `v` with acceleration `a` toward `goal`, under an acceleration limit and a jerk of
`dj` a step; `jj` is 2 × JMAX in the units that make a × |a| ÷ jj a speed, and `per` one second ÷ T in those of a and v. Divisions
truncate toward zero. -/
def rampStep (goal v a am dj jj per : Int) : Int × Int :=
  let dir : Int := if v < goal then 1 else -1
  let vstop := if jj = 0 then v else v + (a * a.natAbs).tdiv jj
  let a := clampInt (-am) am (if 0 < (goal - vstop) * dir then a + dir * dj else a - dir * dj)
  (v + a.tdiv per, a)

/-- One 40 µs step of the speed planner (R233). -/
def planStep (s : State) : State :=
  let p := s.mot.plan
  if p.idle ∨ p.dwell then s else
  let j := planJmax s
  let am := planAmax s
  let goal := if p.rev then 0 else p.target * 65536
  let dj := (j * 65536 * 40).tdiv 1000
  let (v, a) := rampStep goal p.v p.a am dj (2 * j * 65536) 25
  let near := decide ((goal - v).natAbs * 1000 ≤ (j * 65536 * 16 / 10).natAbs) && decide (a.natAbs ≤ dj.natAbs)
  if near then
    let q := { p with v := goal, a := 0, rev := false, dwell := p.rev, idle := !p.rev }
    let s := { s with mot.plan := q }
    if p.rev then bump pgMCE 0xA04 1 s else s
  else { s with mot.plan := { p with v := v, a := a } }

/-- The speed reference in µm/s, and the planner acceleration in mm/s². -/
def planV (s : State) : Int := s.mot.plan.v / 65536
def planA (s : State) : Int := s.mot.plan.a / 65536

/-! ### The lateral planner -/

/-- How far the head goes for another band, or for the other half-band on an HC, whose head spans half a band, in pm: the pitches of
R55 and R57 (R98, R119, R236; DEDUCED, log 122). -/
def latShift (s : State) (band : BitVec 2) (half : Bool) : Int :=
  2842000000 * ((band.toNat : Int) - s.mot.lat.band.toNat) +
  (if s.variant = .hc then 1328000000 * ((b2n half : Int) - b2n s.mot.lat.half) else 0)

/-- Start the lateral move to a track of a band and half-band (R234): from the measured position where the planner is idle (R231), counted from
the servo bands that the head goes to. -/
def latTo (track : Nat) (band : BitVec 2) (half : Bool) (s : State) : State :=
  let l := s.mot.lat
  let shift := latShift s band half
  if trackY track = l.target ∧ shift = 0 then s
  else
    let l := if l.moving then l else { l with pos := (loopOf s 2).meas, v := 0, a := 0 }
    let unseen := fun (x : Nat × LaneGroup) => (x.1, { x.2 with bandSeen := false })
    let other := decide (band ≠ l.band)
    { s with mot.lat := { l with target := trackY track, pos := l.pos - shift, moving := true, newBand := l.newBand || other,
                                 oldBand := if !other ∨ (l.newBand ∧ l.moving) then l.oldBand else l.band, band := band, half := half,
                                 blind := l.blind || decide (shift ≠ 0) },
             tim.lgs := if other then s.tim.lgs.map unseen else s.tim.lgs }

/-- One 40 µs step of the lateral planner: R233's recurrence, with position in pm, v in pm/s and a in pm/s². What the spec does not say, the
speed it plans to, is VMAX2 toward the target until the stopping distance is reached, and then 0 (DESIGN CHOICE, log 31). -/
def latStep (s : State) : State :=
  let l := s.mot.lat
  if !l.moving then s else
  let am : Int := (rfld s pgMCE 0x384 15 0 : Nat) * 100000000000
  let jm : Int := (rfld s pgMCE 0x384 31 16 : Nat) * 10000000000000
  let vm : Int := (rfld s pgMCE 0x388 15 0 : Nat) * 1000000000
  let toward : Int := if l.pos < l.target then 1 else -1
  let rest := if am = 0 ∨ jm = 0 then 0 else (l.v * l.v.natAbs).tdiv (2 * am) + (l.v * am).tdiv (2 * jm)
  let goal := if 0 < (l.target - (l.pos + rest)) * toward then toward * vm else 0
  let dj := (jm * 40).tdiv 1000000
  let (v, a) := rampStep goal l.v l.a am dj (2 * jm) 25000
  let near := decide ((goal - v).natAbs * 1000000000000 ≤ (jm * 1600).natAbs) && decide (a.natAbs ≤ dj.natAbs)
  let (v, a) := if near then (goal, 0) else (clampInt (-vm) vm v, a)
  let pos := l.pos + (v * 40).tdiv 1000000
  if (l.target - pos) * toward ≤ 0 ∨ (near ∧ goal = 0) then
    { s with mot.lat := { l with pos := l.target, v := 0, a := 0, moving := false, settle := rfld s pgSRV 0x104 3 0 } }
  else { s with mot.lat := { l with pos := pos, v := v, a := a } }

/-- The lateral reference is moving, or frames are still to settle (R235). -/
def latHeld (s : State) : Bool := s.mot.lat.moving || decide (s.mot.lat.settle ≠ 0)

/-! ### Moves -/

/-- The highest step that SMPOL.STEP_MAX and the crest allow (R237, R240). -/
def topStep (s : State) : Nat :=
  ((List.range 17).filter (fun n => decide (n ≤ bits s.mot.smpol 16 12) && stepOk s n)).foldl max 0

/-- Distance in µm to stop from, or reach, a speed in µm/s under RAMP0 (R233): v² ÷ 2A + vA ÷ 2J. -/
def rampLen (s : State) (v : Int) : Int :=
  let am := planAmax s / 65536
  let j := planJmax s
  if am = 0 ∨ j = 0 then 0 else v * v / (2 * am * 1000) + v * am / (2 * j * 1000)

/-- Tone index of a CPOS, the approach taken as negative (R64, R65). -/
def cposTone (c : Nat) : Int := 2048 * (if c < 0xFFC000 then (c : Int) else (c : Int) - 2 ^ 24)

/-- The tape travels in reverse, as the loop-0 measured value shows. -/
def travelRev (s : State) : Bool := decide (s.mot.meas.speed < 0)

/-- The known direction of travel: the planner's, or at rest the last measured one (R164, R223, log 105). -/
def refRev (s : State) : Bool := if s.mot.plan.v = 0 then travelRev s else decide (s.mot.plan.v < 0)

/-- Copy A is being written in the housekeeping zone, and the tape stands there (R102). -/
def hkOn (s : State) : Bool := match s.cart.bind (·.hk) with | some h => h.run | none => false

/-- The band of the wrap-plan entry in force, or of a running move's target (R121); band 0 in the housekeeping zone (R102). With no
entry and no move it is the band of the last move (DESIGN CHOICE, log 83). -/
def bandNow (s : State) : BitVec 2 :=
  if s.mot.move.status = 1 then s.mot.move.band
  else if hkOn s then 0
  else match s.trk.cur with | some e => e.band | none => s.mot.move.band

/-- Half of the band that an HC head stands on, or a running move leads to: of a full-band pair it reads the channels of one half at a
time (R101); of the housekeeping zone H0 (R102). -/
def headHalf (s : State) : Bool :=
  let plan := match s.trk.cur with | some e => e.half | none => false
  if s.mot.move.status = 1 then s.mot.lat.half
  else if hkOn s then false
  else match s.trk.pass with
  | some p => if p.kind = .read ∧ !p.half then p.h1 else plan
  | none => plan

/-- The half-band that the entry in force, or the stage of the pass under it, lies in. -/
def planHalf (s : State) : Bool :=
  match s.trk.pass, s.trk.cur with
  | some p, some e => if p.kind = .read ∧ !p.half then p.h1 else e.half
  | none, some e => e.half
  | _, none => false

/-- 1 mm in tone periods (R60, R237). -/
abbrev mmTones : Int := 10416

/-- The planner is sent along a running move: to its stopping point, at the highest step (R237). -/
def moveAlong (s : State) : State :=
  let away := s.mot.move.stopAt - s.mot.tone
  planTo (if away.natAbs ≤ 10 then 0 else if 0 < away then stepSpeed (topStep s) else -stepSpeed (topStep s)) s

/-- Begin a positioning move, or re-target a running one (R237, R261). -/
def startMove (cpos : Nat) (band : BitVec 2) (half : Bool) (track : Nat) (rev : Bool) (step : Nat) (polder : Option (Fin 64))
    (s : State) : State :=
  let goal := cposTone cpos
  let run := max ((rfld s pgMCE 0x398 15 0 : Nat) * 1000 : Int) (rampLen s (stepSpeed step) + 100000)
  let tones := run * 1000 / 96
  let stop := if step = 0 then goal else if rev then goal + tones else goal - tones
  let m : Move := { status := 1, cpos := cpos, band := band, track := track, rev := rev, step := step, arriving := false,
                    stopAt := stop, polder := polder }
  moveAlong { latTo track band half s with mot.move := m, mot.coast := false }

/-- Distance in µm to stop from a speed under RAMP0, where it still grows by an acceleration, in µm/s and mm/s², which must fall to 0
first (R233). -/
def stopLen (s : State) (v a : Int) : Int :=
  let j := planJmax s
  if j = 0 ∨ a ≤ 0 then rampLen s v
  else v * a / (j * 1000) + a * a * a / (3 * j * j * 1000) + rampLen s (v + a * a / (2 * j))

/-- The move's own course at a T25 sample: it slows for its stopping point, leaves the run-up point toward the target at the arrival
step, and at rest away from the target is sent again (R237). -/
def moveStep (s : State) : State :=
  let m := s.mot.move
  if m.status ≠ 1 ∨ m.arriving then s else
  let away := m.stopAt - s.mot.tone
  let p := s.mot.plan
  let toward : Int := if 0 < p.target then 1 else -1
  if p.idle ∧ p.v = 0 then
    if m.step ≠ 0 then planTo (if m.rev then -stepSpeed m.step else stepSpeed m.step) { s with mot.move.arriving := true }
    else if mmTones < away.natAbs then moveAlong s
    else s
  else if p.target ≠ 0 ∧ ((away.natAbs : Int) * 96 / 1000 ≤ stopLen s (planV s).natAbs (toward * planA s) ∨
      (decide (0 < away) ≠ decide (0 < p.target))) then planTo 0 s
  else s

/-- The target of a running move is under the trailing module, or has passed it on arrival (R237). -/
def moveThere (s : State) : Bool :=
  let m := s.mot.move
  let away := cposTone m.cpos - s.mot.tone
  if m.step = 0 then s.mot.plan.idle && decide (s.mot.plan.v = 0) && decide (away.natAbs ≤ mmTones)
  else m.arriving && (if m.rev then decide (0 ≤ away) else decide (away ≤ 0))

end Sys2Proof.Machine
end

