-- ==== Sys2Proof/Machine/TrackOps.lean ====
section
/-! DEFINITION. Shared operations of the track side: what a channel can do (R188, R304), speed matching (R239 to
R245), the feeding of data sets (R90, R91, R134), rewrite placement and retry (R192 to R206), the release of basin
slots (R201), and the end of a pass (R52). -/

namespace Sys2Proof.Machine

/-! ### Channels and lane groups -/

def lgOf (s : State) (k : Nat) : LaneGroup := sget {} s.tim.lgs k
def setLg (k : Nat) (g : LaneGroup) (s : State) : State := { s with tim.lgs := sset {} s.tim.lgs k g }
def chOf (s : State) (c : Nat) : Chan := sget {} s.tim.chs c
def setCh (c : Nat) (x : Chan) (s : State) : State := { s with tim.chs := sset {} s.tim.chs c x }

/-- A CST or RCH register as the tape side has it (R44, R45). -/
def tapeReg (s : State) (page off : Nat) : Word := (sget none s.tim.old (rkey page off)).getD (rget s page off)
def tapeFld (s : State) (page off hi lo : Nat) : Nat := bits (tapeReg s page off) hi lo
def tapeBit (s : State) (page off i : Nat) : Bool := bit (tapeReg s page off) i

/-- A tap of a channel: as loaded or adapted, else as after power-on reset (R155). -/
def tapAt (s : State) (c i : Nat) : Rat := (sget none (chOf s c).taps i).getD (if i = 7 then 1 else 0)

/-- A channel's taps are loaded with the default taps that `eqdef` reads (R147, R155, R170). -/
def loadTaps (eqdef : Nat → Nat) (ch : Chan) : Chan :=
  { ch with taps := (List.range 16).foldl (fun m i => sset none m i (some ((sgn 12 (eqdef i) : Int) / 1024 : Rat))) [] }

/-- Reading and writing are permitted (R120). -/
def LgState.usable : LgState → Bool
  | .framed | .holdover | .reassigned => true
  | _ => false

/-- A fenced tile holds a role and unit, and no detour has taken its place (R303, R307). -/
def unitDead (s : State) (role unit : Nat) : Bool :=
  s.lat.tiles.any (fun x => decide (x.2.role = role) && decide (x.2.unit = unit) && decide (x.2.reason ≠ 0)) &&
  !(match s.lat.detour with
    | some d => d.active && decide (d.role = role) && decide (d.unit = unit) && decide ((sget {} s.lat.tiles d.spare).reason = 0)
    | none => false)

/-- Half of the band at a partition position, in half-band geometry (R98). -/
def halfAt (p : Nat) : Nat := p % pairLen / halfLen / 2

/-- The element position, and so the data channel, of a logical channel (R97, R119). -/
def physChan (s : State) (half : Bool) (p c : Nat) : Nat :=
  if s.variant = .hc then c % 128 else if half then c % 128 + 128 * halfAt p else c

/-- A data channel's tile or its lane group's tile is fenced (R304). -/
def chanDead (s : State) (c : Nat) : Bool := unitDead s 1 c || unitDead s 2 (c / 32)
def codecDead (s : State) : Bool := (List.range 16).any (unitDead s 3)
/-- The lane group of a data channel is FRAMED, HOLDOVER or REASSIGNED. -/
def chanUsable (s : State) (c : Nat) : Bool := (lgOf s (c / 32)).st.usable
def allLgUsable (s : State) : Bool := (List.range (laneGroups s.variant)).all (fun k => (lgOf s k).st.usable)

/-! ### Speed matching -/

def quotaPart (s : State) (part : Nat) : Nat := match ownerPolder s part with | some q => quotaOf s q.val | none => 0
/-- The fill of R33. -/
def fillOf (s : State) (part : Nat) (kind : PassKind) : Nat :=
  (slotsIn s part (match kind with | .write => .full | .read => .readAhead)).length

def smMode (s : State) : Nat := bits s.mot.smpol 1 0
def stepMin (s : State) : Nat := bits s.mot.smpol 8 4
def smFixed (s : State) : Nat := bits s.mot.smpol 24 20
def smFloor (s : State) : Nat := rfld s pgMCE 0x3A8 7 0
def startFill (s : State) : Nat := rfld s pgMCE 0x3A8 19 8
def smDwell (s : State) : Nat := rfld s pgMCE 0x3A8 27 20
/-- TARGETe and HYSTe (R240). -/
def targetE (s : State) (part : Nat) : Nat := min (rfld s pgMCE 0x3A4 12 0) (quotaPart s part / 2)
def hystE (s : State) (part : Nat) : Nat := min (rfld s pgMCE 0x3A4 28 16) (targetE s part / 4)
def nMax (s : State) (part : Nat) : Nat :=
  if smFloor s = 0 then topStep s else min (topStep s) (quotaPart s part / (2 * smFloor s))
/-- Limit a step to STEP_MIN to n_max, or to STEP_MIN alone (R240, R242). -/
def limStep (s : State) (part n : Nat) : Nat :=
  if nMax s part < stepMin s then stepMin s else max (stepMin s) (min n (nMax s part))

/-- The step a pass starts at (R242). -/
def startStep (s : State) (part : Nat) (kind : PassKind) : Nat :=
  if smMode s = 0 then smFixed s else
  let m := s.mot.spd
  let first := (match kind with | .write => m.firstW | .read => m.firstR) || decide (m.lastPart.map (·.val) ≠ some part)
  let n := if !first then sget 0 m.lastN part else match kind with
    | .read => nMax s part
    | .write => if smFloor s = 0 then nMax s part else min (nMax s part) (fillOf s part .write / smFloor s)
  limStep s part n

/-- A pass's starting step goes into force. A switch of partition makes the next passes of both kinds first ones again (R242). Before any
change in a pass, its start counts as the last change for DWELL (R243; DESIGN CHOICE, log 123). -/
def armSpeed (part : Fin 64) (kind : PassKind) (s : State) : State :=
  let n := startStep s part.val kind
  let m := if s.mot.spd.lastPart = some part then s.mot.spd else { s.mot.spd with firstW := true, firstR := true }
  let m := { m with nreq := n, nb := n, k := 0, last := 0, win := [(0, s.clk.ctr500.toNat)], turned := 0, lastPart := some part }
  { s with mot.spd := match kind with | .write => { m with firstW := false } | .read => { m with firstR := false } }

/-- n_b of R241, from the slots turned over the window's boundaries. -/
def baseStep (s : State) (half : Bool) : Nat :=
  let w := s.mot.spd.win
  let cnt := ((w.take (w.length - 1)).map (·.1)).sum
  let t := match w.getLast? with | some x => s.clk.ctr500.toNat - x.2 | none => 0
  let d1 := if half then 8140 else 16280
  let rm := bits s.mot.smpol 31 28
  let ok := fun n => decide (d1 * n * t ≤ (100 - rm) * cnt * 500000000)
  max (stepMin s) (((List.range 17).filter ok).foldl max 0)

/-- The requested step moves, and the tape follows it (R47, R145). -/
def setStep (n : Nat) (s : State) : State :=
  if n = s.mot.spd.nreq then s else
  let s := { s with mot.spd.nreq := n, tim.aa := n, lat.stepChg := true }
  let s := traceEvent 7 (bump pgMCE 0xA08 1 s)
  let rev := match s.trk.cur with | some e => e.rev | none => false
  if s.mot.move.status = 1 then s else planTo (if rev then -stepSpeed n else stepSpeed n) s

/-- One step from `n` toward `t` (R47). -/
def oneStep (n t : Nat) : Nat := if n < t then n + 1 else if t < n then n - 1 else n

/-- Hysteresis offset after rules 2 and 3 of R243, turned round for reading (R245). -/
def hystStep (s : State) (part : Nat) (kind : PassKind) (b : Nat) : Nat :=
  let m := s.mot.spd
  let f := fillOf s part kind
  let low := decide (f < targetE s part - hystE s part)
  let high := decide (targetE s part + hystE s part < f)
  let (down, up) := match kind with | .write => (low, high) | .read => (high, low)
  if b - m.last < smDwell s then m.k
  else if down ∧ 0 < m.k then m.k - 1 else if up ∧ m.nreq < nMax s part then m.k + 1 else m.k

/-- Speed matching at a data set boundary, the pass's `b`th (R239 to R245). -/
def speedBoundary (part : Nat) (kind : PassKind) (half : Bool) (b : Nat) (s : State) : State :=
  let m := s.mot.spd
  let s := { s with mot.spd := { m with win := ((m.turned, s.clk.ctr500.toNat) :: m.win).take 65, turned := 0 } }
  if smMode s = 0 then setStep (oneStep m.nreq (smFixed s)) s else
  let m := s.mot.spd
  let nb := if b < 8 then m.nb else baseStep s half
  let floorHit := decide (kind = .write) && decide (fillOf s part kind < smFloor s * m.nreq)
  let k0 := if b = 8 then m.nreq - nb else m.k
  if floorHit then
    let n := oneStep m.nreq (limStep s part (m.nreq - 1))
    let changed := decide (n ≠ m.nreq) || decide (n - nb ≠ m.k)
    setStep n { s with mot.spd := { m with nb := nb, k := n - nb, last := if changed then b else m.last } }
  else
    let s := { s with mot.spd := { m with nb := nb, k := k0 } }
    let k := if b ≤ 8 then k0 else hystStep s part kind b
    let want := limStep s part (nb + k)
    let n := if b < 8 then m.nreq else oneStep m.nreq want
    let changed := decide (n ≠ m.nreq) || decide (k ≠ m.k)
    setStep n { s with mot.spd := { m with nb := nb, k := k, last := if changed then b else m.last } }

/-! ### The pass -/

def modPass (f : Pass → Pass) (s : State) : State := { s with trk.pass := s.trk.pass.map f }
/-- Count for the quality page of the pass (R421). -/
def passCount (key n : Nat) (s : State) : State := modPass (fun p => { p with cnts := smod 0 p.cnts key (· + n) }) s
def chanKey (c k : Nat) : Nat := 16 + 8 * c + k
/-- A WLK counter that the quality page repeats. -/
def wlkCount (off key : Nat) (s : State) : State := passCount key 1 (bump pgWLK off 1 s)

/-- Runs of positions: a wrap, or a half-wrap. -/
def runLen (half : Bool) : Nat := if half then halfLen else wrapLen
/-- Two partition positions of one wrap or half-wrap. -/
def sameRun (half : Bool) (p q : Nat) : Bool := decide (p / runLen half = q / runLen half)

/-- The append point goes to partition position P (R91, R109). -/
def setAppend (part p : Nat) (s : State) : State :=
  match pposAt s part p with
  | some (w, x) => setPart part (fun e => { e with eodWrap := w, eodPos := x }) s
  | none => match (partWps s part).getLast? with
    | some wp => setPart part (fun e => { e with eodWrap := pairWrap wp true, eodPos := wrapLen }) s
    | none => s

/-- The end of data lies in a wrap pair that this variant cannot go on in: a written full-band pair, on the HC (R100). -/
def mustClose (s : State) (part : Nat) : Option Nat :=
  if s.variant = .ac then none else
  ((partWps s part)[eodP s part / pairLen]?).filter (fun wp => let e := wpOf s wp; e.state ≠ 0 && !e.half)

/-- The append point as a partition position: the HC goes on in the next pair (R91, R100). -/
def appendP (s : State) (part : Nat) : Nat :=
  if (mustClose s part).isSome then (eodP s part / pairLen + 1) * pairLen else eodP s part

/-- The HC closes a full-band pair at its end of data, as it begins to append in the next (R100, R108). -/
def closeFullBand (part : Nat) (s : State) : State :=
  match mustClose s part with
  | none => s
  | some wp =>
    let p := eodP s part
    setAppend part (appendP s part) (setWp wp (fun e => { e with state := 2, closePos := BitVec.ofNat 32 p }) s)

/-- The position after `p` that is in use: past the unused remainder of a closed pair (R100). -/
def skipClosed (s : State) (part p : Nat) : Nat :=
  match (partWps s part)[p / pairLen]? with
  | some wp => let e := wpOf s wp; if e.state = 2 ∧ e.closePos.toNat ≤ p then (p / pairLen + 1) * pairLen else p
  | none => p

/-- Why a pass ended, with its counts, as its quality page (R421). -/
def recordQuality (p : Pass) (cause : Nat) (s : State) : State :=
  let q : Quality := { write := decide (p.kind = .write), part := p.part, half := p.half, wrap := p.wrap, firstDsn := p.firstDsn,
                       lastDsn := p.lastDsn, cnts := p.cnts, endCause := cause, degraded := p.degraded }
  match p.kind with
  | .write => { s with trk.wq := (q :: s.trk.wq).take 16 }
  | .read => { s with trk.rq := (q :: s.trk.rq).take 16 }

/-- The pass is over: its quality page is made, its channels are no longer degraded, and the gate closes. -/
def closePass (p : Pass) (cause : Nat) (s : State) : State :=
  let s := recordQuality p cause s
  let clear := fun (x : Nat × Chan) => (x.1, { x.2 with degraded := false })
  let s := { s with trk.pass := none, trk.last := if p.kind = .write then some p else s.trk.last,
                    trk.passes := s.trk.passes + 1, tim.chs := s.tim.chs.map clear, hwl.sending := false,
                    mot.spd.lastN := sset 0 s.mot.spd.lastN p.part.val s.mot.spd.nreq,
                    trk.readAt := if p.kind = .read then sset none s.trk.readAt p.part.val (some p.nextP) else s.trk.readAt }
  setGate 7 true s

/-- The append point of a pass that ends out of order: after the highest DSN up to which every DSN has passed (R52). -/
def backAppend (p : Pass) (s : State) : State :=
  if p.kind ≠ .write ∨ !p.done then s else
  let part := p.part.val
  let low := ((slotsIn s part .onTape).filterMap (·.2.dsn)).min?
  let s := setAppend part p.app s
  match low with
  | some d => setPart part (fun e => { e with eodDsn := if d = 0 then none else e.eodDsn.map (min (d - 1)) }) s
  | none => s

/-- A pass ends without closing positions (R52): every ONTAPE data set of it is written again. -/
def endPass (cause : Nat) (s : State) : State :=
  match s.trk.pass with
  | none => s
  | some p =>
    let again := fun (x : Nat × Slot) => if x.2.st = .onTape ∧ x.2.part = p.part then (x.1, { x.2 with passed := false }) else x
    let s := match p.kind with
      | .write => backAppend p { s with bas.slots := s.bas.slots.map again }
      | .read => s
    let waits := decide (cause ∈ [2, 3, 4, 9]) || (decide (cause = 7) && decide (p.kind = .write))
    let s := closePass p cause { s with trk.waitPost := s.trk.waitPost || waits, trk.noPass := s.trk.noPass || cause = 7 }
    if s.mot.gov.active then s else planTo 0 s

/-- A pass is to end at the next boundary (R133, R202, R310, R552, R662). An end already due stands. -/
def requestEnd (cause : Nat) (s : State) : State :=
  modPass (fun p => if p.endCause.isNone ∧ p.kind = .write then { p with endCause := some cause } else p) s

/-! ### Release of slots -/

/-- A data set's slot leaves ONTAPE: its records are on tape and verified (R201, R514). -/
def releaseSlot (part i : Nat) (s : State) : State :=
  let x := slotOf s i
  let s := meterPart part (fun m => { m with tapeOut := m.tapeOut + x.stream.length }) s
  let s := match s.cart with
    | none => s
    | some c => { s with cart := some { c with tapeLrn := smod 0 c.tapeLrn part (max x.endLrn) } }
  let s := setPart part (fun e => { e with eodDsn := maxDsn e.eodDsn x.dsn }) s
  let s := match s.trk.pass with
    | some p =>
      match (p.insts.filter (fun y => some y.dsn = x.dsn && y.passed)).getLast? with
      | some y => modPass (fun p => { p with app := max p.app (y.p + 1) }) (setAppend part (max (y.p + 1) (eodP s part)) s)
      | none => s
    | none => s
  freeSlot i s
where
  maxDsn : Option Nat → Option Nat → Option Nat
    | some a, some b => some (max a b)
    | a, b => b.orElse (fun _ => a)

/-- Slots leave ONTAPE in DSN order (R201). -/
def releaseSlots (part : Nat) : Nat → State → State
  | 0, s => s
  | n + 1, s =>
    let low := (slotsIn s part .onTape).foldl (fun (b : Option (Nat × Slot)) x => match b with
      | none => some x
      | some y => if x.2.dsn.getD 0 < y.2.dsn.getD 0 then some x else some y) none
    match low with
    | some (i, x) => if x.passed then releaseSlots part n (releaseSlot part i s) else s
    | none => s

/-! ### Deferred loss -/

/-- A partition loses its records from LRN `l`: its waiting slots are discarded, and what stood in its intake queue
goes with them (R51, R203, R412, R546). -/
def loseFrom (part : Nat) (st : BitVec 16) (l : Nat) (gone : Slot → Bool) (s : State) : State :=
  let s := freeSlots (fun x => decide (x.part.val = part) && gone x) s
  let s := match (List.finRange 64).find? (fun q => (riqOf s q.val).part.map (·.val) = some part) with
    | some q => emptyRiq q.val false s
    | none => s
  metered (deferPart part st l) (truncatePart part l s)

/-! ### Rewrite placement -/

/-- DSN of the `j`th fresh data set from now. -/
def freshDsn (s : State) (p : Pass) (j : Nat) : Nat :=
  match p.againQ[j]? with
  | some d => d
  | none => (partEntry s p.part.val).nextDsn + (j - p.againQ.length)

/-- The instance lies in one of the last two positions of its wrap (R90). -/
def atWrapEnd (i : Inst) : Bool := !sameRun i.half i.p (i.p + 2)

/-- Retries that the next position may carry: a data set that failed in the last two positions of a wrap waits for the next
wrap (R90, R200). -/
def retryDue (p : Pass) : List Nat :=
  p.retryQ.filter (fun d => !p.insts.any (fun i => i.dsn = d && atWrapEnd i && sameRun i.half i.p p.nextP))

/-- DSN at a position of the pass, and whether it holds or will hold a retry instance (R192, R200). -/
def planAt (s : State) (p : Pass) (q : Nat) : Option (Nat × Bool) :=
  if q < p.nextP then (p.insts.find? (·.p = q)).map (fun i => (i.dsn, decide (i.kind = .retry)))
  else
    let j := q - p.nextP
    match (retryDue p)[j]? with
    | some d => some (d, true)
    | none => some (freshDsn s p (j - (retryDue p).length), false)

/-- The rewrite position of an instance; none where R192 gives it none. -/
def rewriteAt (s : State) (p : Pass) (i : Inst) : Option Nat :=
  let ok := fun q =>
    if !sameRun i.half i.p q then none else
    match planAt s p q with
    | some (d, false) => if i.dsn ≤ d ∧ d ≤ i.dsn + 2 then some q else none
    | _ => none
  match planAt s p (i.p + 2) with
  | some (_, true) => ok (i.p + 3)
  | _ => ok (i.p + 2)

/-- Failures of an instance that need curing: not on a degraded channel, and not passed in a rewrite slot. -/
def liveFails (p : Pass) (i : Inst) : List Fail :=
  i.fails.filter (fun f => f.chan ∉ p.degraded ∧ (f.row, f.chan) ∉ i.healed)

/-- The failed codewords of an instance in the order of R194. -/
def placeOrder (p : Pass) (i : Inst) : List Fail :=
  isort (fun a b => a.row < b.row || (a.row = b.row && a.chan ≤ b.chan)) (liveFails p i)

/-- Free rewrite slots of a channel at a rewrite position, in the order in which they are taken (R194): a slot whose codeword was
withdrawn carries SUPP, and is not taken again (R196). -/
def freeSlotsRw (p : Pass) (at_ c : Nat) : List Nat :=
  [67, 66, 65, 64].filter (fun k => !p.places.any (fun x => x.at_ = at_ && x.rw.chan = c && x.rw.slot = k))
def freeRw (p : Pass) (at_ c : Nat) : Nat := (freeSlotsRw p at_ c).length

/-- A target channel of R194, among those that may take a rewrite, or the original channel. -/
def rwTarget (s : State) (p : Pass) (half : Bool) (at_ orig : Nat) : Option Nat :=
  let may := fun c => c ≠ orig && !decide (c ∈ p.degraded) && chanUsable s (physChan s half at_ c) &&
    !chanDead s (physChan s half at_ c) && decide (0 < freeRw p at_ c)
  let best := ((List.range 256).filter may).foldl (fun (b : Option Nat) c => match b with
    | none => some c
    | some d =>
      let fc := freeRw p at_ c
      let fd := freeRw p at_ d
      if fd < fc ∨ (fd = fc ∧ (c + 256 - orig) % 256 < (d + 256 - orig) % 256) then some c else some d) none
  match best with
  | some c => some c
  | none => if 0 < freeRw p at_ orig then some orig else none

/-- Place the failed codewords of an instance in order, at `at_`; `false` where one finds no slot (R194, R196). -/
def placeFails (s : State) (at_ : Nat) (i : Inst) : List Fail → Pass → Bool × Pass
  | [], p => (true, p)
  | f :: r, p =>
    match rwTarget s p i.half at_ f.chan with
    | none => (false, p)
    | some c =>
      let x : Place := { at_ := at_, src := i.p, rw := ⟨c, (freeSlotsRw p at_ c).headD 64, i.dsn, f.row, f.chan⟩ }
      placeFails s at_ i r { p with places := p.places ++ [x] }

/-- The placements of an instance are open until they are fed: they are made anew, in order, with every verdict (R194, R195). -/
def openPlaces (i : Inst) (p : Pass) : Pass := { p with places := p.places.filter (fun x => x.gone || decide (x.src ≠ i.p)) }

/-- Instances that may be rewritten (R193). -/
def rewritable (i : Inst) : Bool := i.kind = .data && !i.abandoned

/-- Placements leave a position that is no longer their instance's rewrite position: a retry has moved it (R192, R200). -/
def settlePlaces (s : State) (p : Pass) : Pass :=
  let stands := fun (x : Place) => p.insts.any (fun i => i.p = x.src && decide (rewriteAt s p i = some x.at_))
  { p with places := p.places.filter stands }

/-- Withdraw placements that have not been fed: their slots carry SUPP (R195, R196, R206). -/
def withdraw (f : Place → Bool) (p : Pass) : Pass :=
  { p with places := p.places.map (fun x => if f x then { x with gone := true } else x) }

/-! ### Retry -/

/-- Failures per channel that count for R197. -/
def chanFails (p : Pass) (i : Inst) (c : Nat) : Nat :=
  if c ∈ p.degraded then 0 else (i.fails.filter (·.chan = c)).length

/-- Those that also count for R205: a fenced tile's NOREAD failures do not (R305). -/
def chanFails205 (i : Inst) (c : Nat) : Nat :=
  (i.fails.filter (fun f => f.chan = c ∧ !(f.reason = 2 ∧ (c ∈ i.zeroed ∨ i.dead)))).length

/-- Channels with more than 4 failures (R197). -/
def failedChans (p : Pass) (i : Inst) : List Nat := ((i.fails.map (·.chan)).eraseDups).filter (fun c => 4 < chanFails p i c)

/-- The rewrite slots of a position have been fed. -/
def fedAt (p : Pass) (q : Nat) : Option Inst := p.insts.find? (fun y => y.p = q && y.fedRw)

/-- Place what can be placed of an instance's failures; the cause of R199 that is left, if any. -/
def placeOrCause (s : State) (p : Pass) (i : Inst) : Pass × Option Nat :=
  let live := liveFails p i
  if i.kind = .retry then (p, if live = [] then none else some 4)
  else if i.cause = 3 then (p, some 3)
  else if live = [] then (p, none)
  else if atWrapEnd i then (p, some 6)
  else match rewriteAt s p i with
  | none => (p, some 5)
  | some q =>
    match fedAt p q with
    | some y => (p, if live.all (fun f => y.rewrites.any (fun r => r.dsn = i.dsn ∧ r.row = f.row ∧ r.orig = f.chan)) then none else some 5)
    | none => match placeFails s q i (placeOrder p i) (openPlaces i p) with
      | (true, p) => (p, none)
      | (false, p) => (p, some 2)

/-- The cause that a retry is recorded with: one caused only by NOREAD failures of a fenced tile counts as cause 1 (R305). -/
def retryCause (p : Pass) (i : Inst) (c : Nat) : Nat :=
  let live := liveFails p i
  if c ≠ 3 ∧ live ≠ [] ∧ live.all (fun f => f.reason = 2 && (decide (f.chan ∈ i.zeroed) || i.dead)) then 1 else c

/-- Channels whose retry of this instance degrades them instead (R205). -/
def degrades (s : State) (p : Pass) (i : Inst) (c : Nat) : Bool :=
  let n := rfld s pgWLK 0x100 2 0
  let run := if sget 0 p.runDsn c = i.dsn ∧ i.dsn ≠ 0 then sget 0 p.runs c else 0
  decide (n ≠ 0) && decide (n ≤ run + 1) && decide (4 < chanFails205 i c)

/-- A channel becomes degraded for the rest of the pass: its codewords placed for rewrite are withdrawn, and those placed on it
lose their slots (R195, R206). -/
def degradeChan (i : Inst) (c : Nat) (s : State) : State :=
  match s.trk.pass with
  | none => s
  | some _ =>
    let ph := physChan s i.half i.p c
    let s := modPass (fun p => withdraw (fun x => decide (x.rw.chan = c) || decide (x.rw.orig = c)) { p with degraded := p.degraded ++ [c] }) s
    raise pgWLK 1 (raise (pgRCH ph) 2 (setCh ph { chOf s ph with degraded := true } s))

/-- Counter of a retry cause (R218), with its place in the quality header (R421). -/
def retryCounter (cause : Nat) : Nat × Nat :=
  match cause with | 1 => (0xA08, 2) | 2 => (0xA0C, 3) | 3 => (0xA10, 4) | _ => (0xA14, 5)

/-- An instance is retried, or RETRY_LIMIT ends the pass (R199, R200, R202). -/
def retryInst (i : Inst) (cause : Nat) (chans : List Nat) (s : State) : State :=
  match s.trk.pass with
  | none => s
  | some p =>
    let n := sget 0 p.retries i.dsn + 1
    if rfld s pgWLK 0x100 11 8 < n then raise pgWLK 3 (requestEnd 2 s) else
    let counted := chans.filter (fun c => 4 < chanFails205 i c)
    let run := fun (m : Sparse Nat × Sparse Nat) c =>
      let k := if sget 0 m.2 c = i.dsn ∧ i.dsn ≠ 0 then sget 0 m.1 c + 1 else 1
      (sset 0 m.1 c k, sset 0 m.2 c (i.dsn + 1))
    let (runs, runDsn) := counted.foldl run (p.runs, p.runDsn)
    let ab := fun (y : Inst) => if y.dsn = i.dsn then { y with abandoned := true } else y
    let gone := fun (x : Place) => decide (x.rw.dsn = i.dsn)
    let s := modPass (fun p => withdraw gone { p with insts := p.insts.map ab, retries := sset 0 p.retries i.dsn n,
                                                      retryQ := p.retryQ ++ [i.dsn], runs := runs, runDsn := runDsn }) s
    let (off, key) := retryCounter cause
    raise pgWLK 0 (wlkCount off key (rset s pgWLK 0x604 (BitVec.ofNat 32 (i.dsn % 2 ^ 29 + cause * 2 ^ 29))))

/-- Decide on one instance (R197, R199, R205, R207): degrade first, then retry if a cause remains. -/
def judgeInst (dsn pos : Nat) (s : State) : State :=
  match s.trk.pass with
  | none => s
  | some p =>
    match p.insts.find? (fun i => i.p = pos ∧ i.dsn = dsn) with
    | none => s
    | some i =>
      if i.abandoned ∨ i.passed ∨ p.endCause.isSome ∨ !(i.kind = .data ∨ i.kind = .retry) then s else
      let over5 := if i.kind = .data then failedChans p i else []
      let deg := over5.filter (degrades s p i)
      let room := rfld s pgWLK 0x100 7 4 - p.degraded.length
      if room < deg.length then raise pgWLK 2 (requestEnd 3 ((deg.take room).foldl (fun s c => degradeChan i c s) s)) else
      let s := deg.foldl (fun s c => degradeChan i c s) s
      match s.trk.pass with
      | none => s
      | some p =>
        let rest := over5.filter (· ∉ deg)
        if rest ≠ [] then retryInst i 1 rest s
        else
          let (q, cause) := placeOrCause s p i
          let s := modPass (fun _ => q) s
          match cause with
          | some c => retryInst i (retryCause p i c) [] s
          | none => s

/-- All codewords that count have a passing verdict, in place or rewritten (R201). -/
def instOk (p : Pass) (i : Inst) : Bool :=
  decide ((i.seen.filter (fun k => k % 68 < 64 ∧ k / 68 ∉ p.degraded)).length = 64 * (256 - p.degraded.length)) &&
  decide (liveFails p i = [])

/-- Note the data sets that have passed, and release their slots (R201). -/
def notePassed (s : State) : State :=
  match s.trk.pass with
  | none => s
  | some p =>
    let mark := fun (i : Inst) => if (i.kind = .data ∨ i.kind = .retry) ∧ !i.abandoned ∧ instOk p i then { i with passed := true } else i
    let insts := p.insts.map mark
    let good := (insts.filter (·.passed)).map (·.dsn)
    let upd := fun (x : Nat × Slot) =>
      if x.2.st = .onTape ∧ x.2.part = p.part ∧ x.2.dsn.any (fun d => decide (d ∈ good)) = true then
        (x.1, { x.2 with passed := true }) else x
    let s := modPass (fun p => { p with insts := insts }) { s with bas.slots := s.bas.slots.map upd }
    releaseSlots p.part.val 8160 s

/-- Decide on every instance, in DSN order (R311), then note what has passed. -/
def judge (s : State) : State :=
  match s.trk.pass with
  | none => s
  | some p =>
    let order := isort (fun a b => a.1 ≤ b.1) (p.insts.map (fun i => (i.dsn, i.p)))
    let s := modPass (settlePlaces s) s
    notePassed (order.foldl (fun s x => judgeInst x.1 x.2 s) s)

/-! ### The end in order, and copy B -/

/-- Copy B instances of the pass. -/
def copyBs (p : Pass) : List Inst := p.insts.filter (·.kind = .closeB)

/-- The last pair of copy B instances: both decided bad, or one good (R204). Failures on degraded channels do not count, as for
a data set (R191, R201; DESIGN CHOICE, log 81). -/
def copyBState (p : Pass) : Option Bool :=
  let pair := (copyBs p).reverse.take 2
  if pair.any (fun i => allSeen i && decide (liveFails p i = [])) then some true
  else if pair.length = 2 ∧ pair.all (fun i => decide (liveFails p i ≠ [])) then some false else none

/-- The pass has ended in order: copy B covers what is on tape, and SYNCs it covers complete (R408). -/
def finishPass (p : Pass) (s : State) : State :=
  let part := p.part.val
  let s := closePass p 0 s
  let s := if s.mot.gov.active then s else planTo 0 s
  if !p.closeB then s else
  let s := match s.cart with
    | none => s
    | some c => { s with cart := some { c with syncLrn := sset 0 c.syncLrn part (sget 0 c.tapeLrn part) } }
  syncsDone part s

/-! ### Encoding -/

/-- The header of a data set that is being encoded (R92, R344): its slot's fields, with the DSN and the geometry. -/
def slotHdr (s : State) (x : Slot) (dsn : Nat) (half : Bool) : DsHeader :=
  { dsType := 1, geom := BitVec.ofNat 8 (b2n half), pnum := BitVec.ofNat 8 x.part.val, dsn := dsn, wgen := x.wgen,
    lrnStart := x.lrnStart, marks := x.marks, firstGrp := x.firstGrp, ngrp := x.refs.length, streamLen := x.stream.length,
    keyFp := x.keyFp, owner := x.owner, time := x.time, writer := s.vlt.devId }

/-- The header of a closing position: INDEX or PAD (R93). Its LRNSTART and MARKS are those at which the next append begins
(DEDUCED from R591, log 94). -/
def closeHdr (s : State) (part : Nat) (dsType : Byte) (dsn len : Nat) (half : Bool) : DsHeader :=
  let e := partEntry s part
  { dsType := dsType, geom := BitVec.ofNat 8 (b2n half), pnum := BitVec.ofNat 8 part, dsn := dsn, wgen := e.wgen,
    lrnStart := e.eodLrn, marks := e.eodMarks, streamLen := len, keyFp := e.keyFp, owner := e.owner, time := s.clk.devSec,
    writer := s.vlt.devId }

/-- What a position of the pass records: its header and its stream; a PAD has STREAMLEN 0 (R83, R93, R95). -/
def payloadOf (s : State) (part : Nat) (i : Inst) : List Byte :=
  match i.kind with
  | .data => let x := slotOf s i.slot; dsHeaderBytes (slotHdr s x i.dsn i.half) ++ x.stream
  | .retry => let x := slotOf s i.slot; dsHeaderBytes (slotHdr s x i.dsn i.half) ++ x.stream
  | .closePad => dsHeaderBytes (closeHdr s part 4 i.dsn 0 i.half)
  | .closeB =>
    let img := (s.cart.map (·.genImage)).getD []
    dsHeaderBytes (closeHdr s part 2 i.dsn img.length i.half) ++ img

/-- The codewords of a data set as tile SRAM holds them (R38). -/
def encOf (s : State) (part dsn : Nat) : Option Enc := s.lat.enc.find? (fun e => e.part = part ∧ e.dsn = dsn)

/-- Encode what a position records. Every instance of a DSN has identical codewords (R88): one that is still held stands. What
belongs to no instance of the pass and no ONTAPE slot is let go. -/
def encode (part : Nat) (i : Inst) (s : State) : State :=
  if (encOf s part i.dsn).isSome then s else
  let held := fun (e : Enc) => (match s.trk.pass with | some p => decide (p.part.val = e.part) && p.insts.any (·.dsn = e.dsn) | none => false) ||
    (slotsIn s e.part .onTape).any (fun x => decide (x.2.dsn = some e.dsn)) || (decide (e.part = 255) && (s.cart.bind (·.hk)).isSome)
  { s with lat.enc := s.lat.enc.filter held ++ [⟨part, i.dsn, payloadOf s part i⟩] }

/-! ### Feeding -/

/-- Channels whose codewords of a data set fed now are written as zero bits: their tile or their lane group's tile is
fenced without an active detour, or the detour has not regenerated the data set yet (R304, R308). -/
def zeroedOf (s : State) (part : Nat) (half : Bool) (q dsn : Nat) : List Nat :=
  if s.lat.tiles.all (·.2.reason = 0) then [] else
  let due := fun (c : Nat) => match s.lat.detour with
    | some d => d.active && decide (d.role = 1) && decide (d.unit = c) && decide ((part, dsn) ∈ d.regen)
    | none => false
  (List.range 256).filter (fun c => chanDead s (physChan s half q c) || due (physChan s half q c))

/-- A granule's entry names the first DATA DSN at or after its start, where its authoritative instance lies (R89, R110). One without
an entry is entered where no DATA data set lies between its start and this one; else its entry is not known yet (R116). -/
def noteGran (part p : Nat) (g : Gran) (s : State) : State :=
  match s.cart with
  | none => s
  | some c =>
    let past := sget 0 c.dataP part
    let one := fun (m : Sparse (Option Gran)) (k : Nat) => match sget none m (65536 * part + k) with
      | some old => if old.dsn < g.dsn then m else sset none m (65536 * part + k) (some g)
      | none => if past ≤ 4096 * k then sset none m (65536 * part + k) (some g) else m
    { s with cart := some { c with gran := (List.range (p / 4096 + 1)).foldl one c.gran, dataP := smod 0 c.dataP part (max (p + 1)) } }

/-- What a partition's granule table says of positions from `p` on goes: they are about to be written (R52, R110). -/
def cutGran (part p : Nat) (s : State) : State :=
  match s.cart with
  | none => s
  | some c =>
    let gone := fun (x : Nat × Option Gran) => decide (x.1 / 65536 = part) &&
      x.2.any (fun g => (pposOf s part g.wrap g.pos).any (fun q => decide (p ≤ q)))
    { s with cart := some { c with gran := c.gran.filter (fun x => !gone x), dataP := smod 0 c.dataP part (min p) } }

/-- The granules of a data set that is fed, where it is one of DATA. -/
def granFed (part : Nat) (i : Inst) (s : State) : State :=
  let x := slotOf s i.slot
  match pposAt s part i.p with
  | some (w, q) => if i.kind = .data ∨ i.kind = .retry then noteGran part i.p ⟨i.dsn, x.lrnStart, x.marks, w, q⟩ s else s
  | none => s

/-- Geometry of the wrap pair a partition position lies in (R99). -/
def halfOf (s : State) (part p : Nat) : Bool := match (partWps s part)[p / pairLen]? with | some wp => wpHalf s wp | none => false

/-- Append an instance at the next position, and issue it. -/
def feedInst (i : Inst) (s : State) : State :=
  match s.trk.pass with
  | none => s
  | some p =>
    let part := p.part.val
    let wp := ((partWps s part)[i.p / pairLen]?).getD 0
    let half := halfOf s part i.p
    let s := if (wpOf s wp).state = 0 then setWp wp (fun e => { e with state := 1, half := half }) s else s
    let s := match s.cart with
      | some c => { s with cart := some { c with core := { c.core with lastP := BitVec.ofNat 8 part } } }
      | none => s
    let at_ := (pposAt s part i.p).getD (0, 0)
    let i := { i with half := half, zeroed := zeroedOf s part half i.p i.dsn, dead := i.dead }
    let far := fun (y : Inst) => !(y.p + 64 < i.p && (y.abandoned || y.passed || y.kind = .closePad))
    let s := modPass (fun p => { p with insts := p.insts.filter far ++ [i], nextP := i.p + 1, half := halfOf s part (i.p + 1),
                                        lastDsn := i.dsn, firstDsn := p.firstDsn.orElse (fun _ => some i.dsn) }) s
    let s := if i.kind = .data ∨ i.kind = .retry then setSlot i.slot { slotOf s i.slot with verd := [] } s else s
    let s := granFed part i (encode part i s)
    let s := wlkCount 0xA00 0 s
    let s := if i.kind = .retry then wlkCount 0xA04 1 s else s
    let s := emit (.feed p.part at_.1 at_.2 i.dsn i.kind) { s with hwl.sending := true }
    setGate 7 (rbit s pgSRV 0x108 0) s

/-- A DSN is issued. -/
def takeDsn (part : Nat) (s : State) : Nat × State :=
  let d := (partEntry s part).nextDsn
  (d, setPart part (fun e => { e with nextDsn := d + 1 }) s)

/-- The index goes into a new generation for a pair of copy B instances. Its NEXTDSN counts the pair's own DSNs, so that none is
issued twice after a LOAD (R87, R113; DEDUCED, log 95). -/
def copyBGen (part : Nat) (s : State) : State :=
  newGenAs (fun core => { core with parts := smod {} core.parts part (fun e => { e with nextDsn := e.nextDsn + 2 }) }) s

/-- The closing positions begin at the next position: the next append begins there, the end of data lies before it, and the
partition is the one most recently written (R91, R107, R109, R113). -/
def beginClosing (closeB : Bool) (s : State) : State :=
  match s.trk.pass with
  | none => s
  | some p =>
    let part := p.part.val
    let s := setAppend part p.nextP s
    let top := ((slotsIn s part .onTape).filterMap (·.2.dsn)).max?
    let s := setPart part (fun e => { e with eodDsn := releaseSlot.maxDsn e.eodDsn top }) s
    let s := match s.cart with
      | some c => { s with cart := some { c with core := { c.core with lastP := BitVec.ofNat 8 part } } }
      | none => s
    let s := if closeB then copyBGen part s else s
    modPass (fun p => { p with done := true, closing := 2, closeB := closeB, bTries := if closeB then 1 else 0 }) s

/-- A loss ends the partition: its instances that have not passed are abandoned, and no retry is due. -/
def stopData (p : Pass) : Pass :=
  { p with retryQ := [], againQ := [], full := true, insts := p.insts.map (fun i => if i.passed then i else { i with abandoned := true }),
           places := [] }

/-- The partition becomes full (R203): what has not passed is lost, and copy B is written, in the reserved positions where
`jump`. -/
def partFull (jump : Bool) (s : State) : State :=
  match s.trk.pass with
  | none => s
  | some p =>
    let part := p.part.val
    let l := tapeLrnOf s part
    let s := loseFrom part stDEFERRED_FULL l (fun x => x.st = .full || x.st = .filling || x.st = .onTape) s
    let s := raise pgWLK 6 (setPart part (fun e => { e with full := true }) s)
    let s := modPass stopData s
    let q := if jump then max p.nextP (partLen s part - 6) else p.nextP
    let s := modPass (fun p => { p with nextP := q, half := halfOf s part q }) s
    beginClosing true s

/-- The data of a pass has come to the reserved positions and no retry is due: what has been fed may still pass, what waits
cannot be written, and copy B closes the partition (R114, R203; DEDUCED, log 96). -/
def partEnd (s : State) : State :=
  match s.trk.pass with
  | none => s
  | some p =>
    let part := p.part.val
    let l := ((slotsIn s part .onTape).map (·.2.endLrn)).foldl max (tapeLrnOf s part)
    let s := if (slotsIn s part .full) = [] ∧ (slotsIn s part .filling) = [] then s
      else loseFrom part stDEFERRED_FULL l (fun x => x.st = .full || x.st = .filling) s
    beginClosing true (raise pgWLK 6 (setPart part (fun e => { e with full := true }) s))

/-- DSNs are left for a pair of closing positions: data stays below 0xFFFF_FEFA, and copy B that closes a full partition goes up to
0xFFFF_FEFF (R87). -/
def dsnsLeft (s : State) (part : Nat) : Bool := decide ((partEntry s part).nextDsn ≤ 0xFFFFFEFE)

/-- Feed one closing position. A DSN beyond the limit of R87 fills the partition, and goes to its copy B (R203). Where the DSNs kept
for that are used up, copy B has failed (R87, R204; DEDUCED, log 115). -/
def feedClosing (dead : Bool) (s : State) : State :=
  match s.trk.pass with
  | none => s
  | some p =>
    let s := if 0xFFFFFEF9 < (partEntry s p.part.val).nextDsn ∧ !p.full then partFull false s else s
    match s.trk.pass with
    | none => s
    | some p =>
      if 0xFFFFFEFF < (partEntry s p.part.val).nextDsn then raise pgWLK 5 (requestEnd 4 s) else
      let (d, s) := takeDsn p.part.val s
      let s := feedInst { p := p.nextP, dsn := d, kind := if p.closeB then .closeB else .closePad, dead := dead } s
      modPass (fun p => { p with closing := p.closing - 1 }) s

/-- A pass whose closing positions are written, their rewrite slots included, ends once its data and its copy B have passed; a copy B pair that
fails is written again at most twice, under a new generation (R91, R204). -/
def settlePass (s : State) : State :=
  match s.trk.pass with
  | none => s
  | some p =>
    let open_ := p.insts.any (fun i => (i.kind = .data ∨ i.kind = .retry) ∧ !i.abandoned ∧ !i.passed)
    let fed := p.insts.getLast?.any (·.fedRw)
    if p.kind ≠ .write ∨ !p.done ∨ p.closing ≠ 0 ∨ p.retryQ ≠ [] ∨ open_ ∨ p.endCause.isSome then s
    else if !p.closeB ∧ !fed then s
    else if !p.closeB then finishPass p s
    else match copyBState p with
    | some true => finishPass p s
    | some false =>
      if 3 ≤ p.bTries ∨ partLen s p.part.val < p.nextP + 2 ∨ !dsnsLeft s p.part.val then raise pgWLK 5 (requestEnd 4 s)
      else modPass (fun p => { p with closing := 2, bTries := p.bTries + 1 }) (copyBGen p.part.val s)
    | none => s

/-- Data never occupies the last six positions of a partition (R114). -/
def inReserve (s : State) (p : Pass) : Bool := decide (partLen s p.part.val ≤ p.nextP + 6)

/-- The basin slot that carries a DSN. -/
def slotOfDsn (s : State) (part dsn : Nat) : Option (Nat × Slot) := (slotsIn s part .onTape).find? (·.2.dsn = some dsn)

/-- A slot holding an uncorrectable error must be encoded: it is POISONED and what follows it is discarded. The pass
ends in order when it reaches that point (R546, R53). -/
def poisonSlot (i : Nat) (s : State) : State :=
  let x := slotOf s i
  let part := x.part.val
  let later := fun (y : Slot) => (y.st = .full || y.st = .filling) && decide (x.order < y.order)
  let s := loseFrom part stDEFERRED_LOST x.lrnStart later (setSlot i { x with st := .poisoned } s)
  let live := fun (q : Pass) =>
    if q.part.val ≠ part then q else
    { q with againQ := q.againQ.filter (fun d => (slotOfDsn s part d).isSome),
             retryQ := q.retryQ.filter (fun d => (slotOfDsn s part d).isSome) }
  modPass live s

/-- The closing positions begin: where a pair does not fit before the reserved positions any more, which PADs never take, and in a
full partition, copy B closes it (R87, R114, R203). -/
def reclose (closeB : Bool) (s : State) : State :=
  match s.trk.pass with
  | none => s
  | some p => beginClosing (closeB || p.full || decide (partLen s p.part.val < p.nextP + 8)) s

/-- Feed a retry instance; the DSN's slot must be encoded again where a fence has taken its codewords (R88, R53, R304). After
closing positions the pass closes anew behind it. -/
def feedRetry (d : Nat) (s : State) : State :=
  match s.trk.pass with
  | none => s
  | some p =>
    let src := p.insts.filter (·.dsn = d)
    let anew := src.all (fun i => i.dead || i.zeroed ≠ [])
    let off := modPass (fun p => { p with retryQ := p.retryQ.erase d })
    match slotOfDsn s p.part.val d with
    | none => off s
    | some (i, x) =>
      if anew ∧ x.bad then feedClosing (codecDead s) (beginClosing false (poisonSlot i s)) else
      let inst : Inst := { p := p.nextP, dsn := d, slot := i, kind := .retry, dead := anew && codecDead s }
      let s := feedInst inst (off s)
      if p.done then reclose p.closeB s else s

/-- Feed the next fresh data set: one written again, or the oldest FULL slot. `false` when there is none. -/
def feedFresh (dead : Bool) (s : State) : Bool × State :=
  match s.trk.pass with
  | none => (false, s)
  | some p =>
    let part := p.part.val
    match p.againQ with
    | d :: _ =>
      let s := modPass (fun p => { p with againQ := p.againQ.drop 1 }) s
      match slotOfDsn s part d with
      | none => (true, s)
      | some (i, x) =>
        if x.bad then (false, poisonSlot i s)
        else (true, feedInst { p := p.nextP, dsn := d, slot := i, kind := .data, dead := dead } s)
    | [] =>
      match slotsIn s part .full with
      | [] => (false, s)
      | (i, x) :: _ =>
        if 0xFFFFFEF9 < (partEntry s part).nextDsn then (true, feedClosing dead (partFull false s)) else
        if x.bad ∧ !x.encoded then (false, poisonSlot i s) else
        let (d, s) := takeDsn part s
        let s := setSlot i { x with st := .onTape, dsn := some d, encoded := true } s
        (true, feedInst { p := p.nextP, dsn := d, slot := i, kind := .data, dead := dead } s)

/-- The next fresh data set is read for encoding one data set ahead (R36 step 7, R183). -/
def encodeAhead (s : State) : State :=
  match s.trk.pass with
  | none => s
  | some p => if p.kind = .read ∨ p.againQ ≠ [] then s else
    match slotsIn s p.part.val .full with
    | (i, x) :: _ => setSlot i { x with encoded := true } s
    | [] => s

/-- LRN up to which every record is in a slot that has been fed. -/
def fedLrn (s : State) (part : Nat) : Nat := ((slotsIn s part .onTape).map (·.2.endLrn)).foldl max (tapeLrnOf s part)

/-- A SYNC or UNLOAD ends the pass here: the data set that holds its last record has been fed (R408). -/
def syncHere (s : State) (part : Nat) : Bool :=
  (part ∈ s.trk.syncPend.map (·.val)) &&
  (s.host.cmds.any (fun c => c.e.opc = 0x05 ∧ c.started ∧ c.fin.isNone ∧ c.e.part.toNat = part ∧ c.lrnZ ≤ fedLrn s part) ||
   ((s.cart.bind (·.unloading)).isSome && decide (slotsIn s part .full = []) && decide (slotsIn s part .filling = [])))

/-- The position belongs to the wrap, or half-wrap, of the entry in force. -/
def inEntry (s : State) (p : Pass) : Bool :=
  match s.trk.cur, pposAt s p.part.val p.nextP with
  | some e, some (w, x) => decide (e.wrap.val = w) && (!p.half || decide (e.half = decide (halfLen ≤ x)))
  | _, _ => false

/-- The pass closes here (R91). -/
def closeHere (dead closeB : Bool) (s : State) : State := feedClosing dead (reclose closeB s)

/-- What a write pass feeds at a data set boundary (R90, R91, R134, R200, R244). `dead` tells that the encoding of the
data set fed now read a void. -/
def feedNext (dead : Bool) (s : State) : State :=
  match s.trk.pass with
  | none => s
  | some p =>
    match p.endCause with
    | some c => endPass c s
    | none =>
      if !inEntry s p then s
      else if !allLgUsable s then endPass 5 s
      else match retryDue p with
      | d :: _ => if inReserve s p ∧ !p.full then feedClosing dead (partFull true s) else feedRetry d s
      | [] =>
        if p.done then (if p.closing ≠ 0 then feedClosing dead s else s)
        else if p.againQ = [] ∧ syncHere s p.part.val then closeHere dead true s
        else if inReserve s p then feedClosing dead (partEnd s)
        else
          let (fed, s) := feedFresh dead s
          if fed then s
          else raise pgMCE 3 (bump pgMCE 0xA0C 1 (closeHere dead false s))

/-! ### The start of a pass -/

/-- Channels that DEGMASK marks (R205, R214): in half-band geometry too, its bits number logical channels (DESIGN CHOICE, log 82). -/
def degMask (s : State) : List Nat := (List.range 256).filter (fun c => rbit s pgWLK (0x120 + 4 * (c / 32)) (c % 32))

/-- The pass reads by stretches (R101). -/
def stretched (s : State) (p : Pass) : Bool := decide (s.variant = .hc) && decide (p.kind = .read) && !p.half

/-- The pass begins as its first position arrives (R207, R242). -/
def beginPass (part : Fin 64) (kind : PassKind) (p0 : Nat) (s : State) : State :=
  let s := if kind = .write then cutGran part.val p0 (closeFullBand part.val s) else s
  let half := halfOf s part.val p0
  let w := (pposAt s part.val p0).getD (0, 0)
  let again := isort (fun a b => a ≤ b) ((slotsIn s part.val .onTape).filterMap (·.2.dsn))
  let deg := if kind = .write then degMask s else []
  let p : Pass := { kind := kind, part := part, wrap := w.1, half := half, nextP := p0, app := p0, strP := p0, degraded := deg,
                    againQ := if kind = .write then again else [], full := decide (kind = .write) && (partEntry s part.val).full,
                    strMax := 1 + freeVal s % 4096 }
  let s := if stretched s p then freeNext s else s
  if kind = .write ∧ rfld s pgWLK 0x100 7 4 < deg.length then
    planTo 0 (raise pgWLK 2 (recordQuality { p with degraded := [] } 3 { s with trk.waitPost := true, trk.last := none }))
  else
    let one := fun (s : State) (c : Nat) =>
      let ph := physChan s half p0 c
      raise pgWLK 1 (raise (pgRCH ph) 2 (setCh ph { chOf s ph with degraded := true } s))
    { deg.foldl one s with trk.pass := some p }

/-- The lowest and highest entries of the plan that a partition position can go on under. -/
def entryFits (s : State) (e : PlanEntry) (part : Fin 64) (kind : PassKind) (p : Nat) : Bool :=
  decide (e.part = part) && decide (e.write = decide (kind = .write)) &&
  (match pposAt s part.val p with
   | some (w, x) => decide (e.wrap.val = w) &&
      (!wpHalf s (wrapPair w) || decide (e.half = decide (halfLen ≤ x)))
   | none => false)

/-- Take the plan entry under which a position is written or read: the one in force, or the next (R34). -/
def takeEntry (part : Fin 64) (kind : PassKind) (p : Nat) (s : State) : Option State :=
  if (s.trk.cur.map (fun e => entryFits s e part kind p)).getD false then some s
  else match s.trk.plan with
  | e :: r => if entryFits s e part kind p then some { s with trk.plan := r, trk.cur := some e } else none
  | [] => none

/-- The words of system-region bytes `base` to `base + 4 n − 1`, by word number from `at_` on (R150, R151). -/
def regionWords (s : State) (base n at_ : Nat) (m : Sparse Word) : Sparse Word :=
  (s.mem.sysRegion.filter (fun x => base ≤ x.1 && x.1 < base + 4 * n)).foldl (fun m x =>
    let o := x.1 - base
    smod 0 m (at_ + o / 4) (· ||| BitVec.ofNat 32 (x.2.toNat * 2 ^ (8 * (o % 4))))) m

/-- The zone table of the entry's wrap pair comes into the cache (R151). The segment in force is entered anew. -/
def loadZones (s : State) : State :=
  match s.trk.cur with
  | none => s
  | some e =>
    let w := wrapPair e.wrap.val
    { s with trk.zonePair := some w, trk.zoneSeg := 32, trk.zoneCache := regionWords s (32768 * w) 8192 0 [] }

/-- A segment's row is fetched again (R151). -/
def fetchRow (g : Nat) (s : State) : State :=
  match s.trk.zonePair with
  | none => s
  | some w =>
    let rest := s.trk.zoneCache.filter (fun x => x.1 / 256 ≠ g)
    { s with trk.zoneCache := regionWords s (32768 * w + 1024 * g) 256 (256 * g) rest }

/-- CPOS of a position, in its direction of travel (R73, R74). -/
def posCpos (rev half : Bool) (x : Nat) : Nat := posTone rev half (x % runLen half) / 2048

/-- A positioning move to a position, from which a pass is to start (R244, R245). -/
def seekPass (part : Fin 64) (kind : PassKind) (p : Nat) (metered_ : Bool) (s : State) : State :=
  if s.trk.pass.isSome ∨ !mceOn s ∨ s.trk.noPass ∧ kind = .write then s else
  match takeEntry part kind p s with
  | none => s
  | some t =>
    let s := if t.trk.cur = s.trk.cur then t else loadZones t
    match s.trk.cur, pposAt s part.val p with
    | some e, some (w, x) =>
      let half := wpHalf s (wrapPair w)
      let s := armSpeed part kind s
      let s := startMove (posCpos e.rev half x) e.band (planHalf s) (wrapTrack w) e.rev s.mot.spd.nreq
        (if metered_ then ownerPolder s part.val else none) s
      { s with trk.starting := some (part, kind, p), trk.waitPost := false }
    | _, _ => s

/-! ### The HC in a full-band pair (R101) -/

/-- The tape is at partition position `x`, where a stage of the stretch ends: it goes back for the H1 channels of the stretch, or to
the next stretch. A stretch that ends with its wrap needs no move. -/
def stretchTurn (x : Nat) (s : State) : State :=
  match s.trk.pass, s.trk.cur with
  | some p, some e =>
    let q := if p.h1 then { p with h1 := false, strP := p.strP + p.strN, strN := 0, strK := 0, strMax := 1 + freeVal s % 4096 }
      else { p with h1 := true, strN := x - p.strP, strK := 0 }
    let s := { (if p.h1 then freeNext s else s) with trk.pass := some q, trk.zoneSeg := 32 }
    match pposAt s p.part.val q.strP with
    | some (w, y) => if w ≠ e.wrap.val then s
      else startMove (posCpos e.rev false y) e.band (planHalf s) (wrapTrack w) e.rev s.mot.spd.nreq none s
    | none => s
  | _, _ => s

/-- The stretch as the tape reaches partition position `x`. -/
def stretchStep (x : Nat) (s : State) : State :=
  match s.trk.pass with
  | none => s
  | some p =>
    if p.h1 then
      let s := modPass (fun p => { p with strK := min p.strN (x - p.strP) }) s
      if p.strN ≤ x - p.strP then stretchTurn x s else s
    else if p.strMax ≤ x - p.strP ∨ appendP s p.part.val ≤ x then stretchTurn (min x (p.strP + p.strMax)) s
    else s

/-- The wrap has ended under a stretch: its stage ends too. -/
def stretchEnd (s : State) : State :=
  match s.trk.pass, s.trk.cur with
  | some p, some e =>
    if stretched s p ∧ (pposAt s p.part.val p.strP).any (fun y => decide (y.1 = e.wrap.val)) then
      let s := modPass (fun p => if p.h1 then { p with strK := p.strN } else p) s
      stretchTurn ((p.strP / wrapLen + 1) * wrapLen) s
    else s
  | _, _ => s

/-! ### Verdicts (R188 to R191) -/

/-- Positions of the housekeeping zone, as VERIFY_VERDICT names them (log 93). -/
abbrev hkBase : Nat := 2 ^ 32

/-- The write pass whose positions stand under the head: the one in progress, else the one that ended last (R191). -/
def wpass (s : State) : Option Pass :=
  match s.trk.pass with
  | some p => if p.kind = .write then some p else none
  | none => s.trk.last

/-- A data channel that writes and reads a logical channel of an instance (R97, R119). -/
def instChan (s : State) (i : Inst) (c : Nat) : Nat := if hkBase ≤ i.p then c % 128 else physChan s i.half i.p c

/-- Change the instance at a position: of the pass, of the pass that ended last, or of the housekeeping zone. -/
def modInst (p : Nat) (f : Inst → Inst) (s : State) : State :=
  let one := fun (i : Inst) => if i.p = p then f i else i
  if hkBase ≤ p then
    { s with cart := s.cart.map (fun c => { c with hk := c.hk.map (fun h => { h with insts := h.insts.map one }) }) }
  else match s.trk.pass with
  | some q => if q.kind = .write then modPass (fun q => { q with insts := q.insts.map one }) s else s
  | none => { s with trk.last := s.trk.last.map (fun q => { q with insts := q.insts.map one }) }

/-- A verdict on slot `slot` of channel `c` is entered with its instance: a row of the data set, or a rewrite slot. -/
def enterVerdict (i : Inst) (c slot reason : Nat) (p : Pass) : Pass :=
  let seen := fun (y : Inst) => if y.p = i.p then { y with seen := y.seen ++ [68 * c + slot] } else y
  let p := { p with insts := p.insts.map seen }
  if slot < 64 then
    if reason = 0 then p else
    let bad := fun (y : Inst) => if y.p = i.p then { y with fails := y.fails ++ [⟨slot, c, reason⟩] } else y
    { p with insts := p.insts.map bad }
  else match i.rewrites.find? (fun r => r.chan = c ∧ r.slot = slot) with
    | none => p
    | some r =>
      let upd := fun (y : Inst) =>
        if y.dsn ≠ r.dsn ∨ y.kind ≠ .data ∨ y.abandoned then y
        else if reason = 0 then { y with healed := y.healed ++ [(r.row, r.orig)] }
        else { y with cause := if y.cause = 0 then 3 else min y.cause 3 }
      { p with insts := p.insts.map upd }

/-- A verdict is counted, and VFYSTAT shows it. A codeword that did not converge has no M: what VFYSTAT shows then is a free value
(R187, R217; log 89). -/
def noteVerdict (ph r : Nat) (m : Option (BitVec 7)) (s : State) : State :=
  let ch := chOf s ph
  let shown := m.getD (BitVec.ofNat 7 (freeVal s))
  let s := setCh ph { ch with margin := shown, reason := if r = 0 then ch.reason else r } (if m.isSome then s else freeNext s)
  bump (pgRCH ph) (0xA20 + 4 * r) 1 s

/-- A verdict on a written position of an ended pass is counted, with that pass's counts (R191, R421). -/
def lateVerdict (c r : Nat) (s : State) : State :=
  match s.trk.wq with
  | q :: rest => { s with trk.wq := { q with cnts := smod 0 q.cnts (chanKey c r) (· + 1) } :: rest }
  | [] => s

/-- A slot has its verdict: it is noted once. -/
def markSeen (c slot r : Nat) (i : Inst) : Inst :=
  { i with seen := i.seen ++ [68 * c + slot], fails := if r = 0 ∨ 64 ≤ slot then i.fails else i.fails ++ [⟨slot, c, r⟩] }

/-- The basin slot of an instance keeps the verdict on one of its codewords; a rewrite that passes stands for the codeword (R201,
R357). -/
def keepVerdict (i : Inst) (c slot r : Nat) (s : State) : State :=
  let keep := fun (n k : Nat) (ok : Bool) (s : State) => setSlot n { slotOf s n with verd := sset none (slotOf s n).verd k (some ok) } s
  if i.kind ≠ .data ∧ i.kind ≠ .retry then s
  else if slot < 64 then keep i.slot (256 * slot + c) (decide (r = 0)) s
  else match i.rewrites.find? (fun w => w.chan = c ∧ w.slot = slot) with
  | some w => match s.trk.pass.bind (fun p => p.insts.find? (fun y => y.dsn = w.dsn ∧ y.kind = .data)) with
    | some y => if r = 0 then keep y.slot (256 * w.row + w.orig) true s else s
    | none => s
  | none => s

/-- A verdict in the housekeeping zone: an instance that fails is retried at the next position of its region, as far as that reaches
(R103); UNLOAD may wait for the copy. -/
def hkVerdict (i : Inst) (c slot r : Nat) (s : State) : State :=
  let first := decide (r ≠ 0) && decide (slot < 64) && decide (i.fails = [])
  let again := fun (h : Hk) => if first ∧ h.off + h.todo < 8 then { h with todo := h.todo + 1 } else h
  let s := modInst i.p (markSeen c slot r) s
  unloadCheck (hkSettle { s with cart := s.cart.map (fun x => { x with hk := x.hk.map again }) })

/-- The written instance at a position: of the housekeeping zone, of the write pass in progress, or of the one that ended last. -/
def instAt (s : State) (pos : Nat) : Option Inst :=
  if hkBase ≤ pos then (s.cart.bind (·.hk)).bind (fun h => h.insts.find? (·.p = pos))
  else (wpass s).bind (fun p => p.insts.find? (·.p = pos))

/-- A verdict is issued on slot `slot` of logical channel `c` of an instance: counted, and entered (R188 to R191). What follows from it
is decided afterwards. -/
def issueVerdict (i : Inst) (c slot r : Nat) (m : Option (BitVec 7)) (s : State) : State :=
  let s := keepVerdict i c slot r (noteVerdict (instChan s i c) r m s)
  if hkBase ≤ i.p then hkVerdict i c slot r s
  else if s.trk.pass.isNone then lateVerdict c r (modInst i.p (markSeen c slot r) s)
  else modPass (enterVerdict i c slot r) (passCount (chanKey c r) 1 s)

end Sys2Proof.Machine
end

