-- ==== Sys2Proof/Machine/FenceOps.lean ====
section
/-! DEFINITION. Shared operations of containment: the stop governor (R249 to R252), the transitions of lane groups
(R121, R133), the fences of R548 and R549, and the fatal state (R552). -/

namespace Sys2Proof.Machine

/-! ### The stop governor -/

/-- The tape leaves the MCE: planners idle, the move and the pass end (R249, R251, R261). -/
def mceStops (endCause : Nat) (s : State) : State :=
  let s := abortMove s
  let s := { s with mot.plan := {}, mot.lat := { s.mot.lat with v := 0, a := 0, moving := false, blind := false }, mot.coast := false,
                    trk.starting := none }
  endPass endCause s

/-- The stop governor is entered on a cause, its bit of R250; or the cause is added to it (R249 to R252). -/
def govEnter (cause : Nat) (s : State) : State :=
  let g := s.mot.gov
  let fresh := !bit g.causes (cause - 4)
  let s := { s with mot.gov.causes := g.causes ||| BitVec.ofNat 8 (2 ^ (cause - 4)) }
  let s := if fresh ∧ 5 ≤ cause ∧ cause ≤ 9 then raise pgGOV 2 s else s
  if g.active then s else
  let s := raise pgGOV 0 s
  let brake := !s.mot.sealed || !s.pins.motorUvN
  let s := { s with mot.gov := { s.mot.gov with active := true, rest := false, atRest := false, passive := brake,
                                                ref := s.mot.meas.speed } }
  let s := drive (fun p => { p with pwm := if brake then .passive else .governor }) s
  let s := if brake then raise pgGOV 6 s else s
  let s := if isFenced s 0xC000 then s else markFence 0xC000 9 s
  traceEvent 5 (setGate 4 true (mceStops (if cause = 10 then 6 else 1) s))

/-- The MCE is fenced by something other than a cause of R250's own table. -/
def fenceMce (s : State) : State := govEnter 4 s

/-- The governor turns to passive braking (R252). -/
def brakePassive (s : State) : State :=
  if !s.mot.gov.active ∨ s.mot.gov.passive then s
  else raise pgGOV 6 (drive (fun p => { p with pwm := .passive }) { s with mot.gov.passive := true })

/-! ### Lane groups -/

/-- A lane group leaves FRAMED: the offsets measured against it, and its own, lose their valid bits; its own stay
usable while their neighbour stays FRAMED (R130, R132, log 32). -/
def skewInvalid (k : Nat) (s : State) : State :=
  let g := lgOf s k
  let s := setLg k { g with loV := false, hiV := false, keptLo := g.loV, keptHi := g.hiV } s
  let s := if k = 0 then s else setLg (k - 1) { lgOf s (k - 1) with hiV := false, keptHi := false } s
  if k + 1 < laneGroups s.variant then setLg (k + 1) { lgOf s (k + 1) with loV := false, keptLo := false } s else s

/-- A lane group changes state: exits and entries are counted, events raised (R121, R127, R130, R172). -/
def lgChange (k : Nat) (to_ : LgState) (s : State) : State :=
  let g := lgOf s k
  let leaves := (g.st = .framed ∨ g.st = .reassigned) ∧ to_ ≠ g.st
  let s := if leaves then bump (pgCST k) 0xA00 1 s else s
  let s := if g.st = .framed ∧ to_ ≠ .framed then skewInvalid k s else s
  let s := setLg k { lgOf s k with st := to_, holdCnt := 0, toneDis := none, prevOk := false } s
  let s := if to_ = .framed ∧ fenceCause s (0x8000 + k) = 8 then { s with itg.fences := sset 0 s.itg.fences (0x8000 + k) 0 } else s
  let s := if to_ = .holdover then bump (pgCST k) 0xA04 1 s else s
  let s := if to_ = .reassigned then raise (pgCST k) 2 (bump (pgCST k) 0xA0C 1 s) else s
  if to_ = .lost then raise (pgCST k) 3 s else s

/-- Groups reassigned to a source that has left FRAMED go to HOLDOVER (R121). -/
def sourceLeft (k : Nat) (s : State) : State :=
  (List.range (laneGroups s.variant)).foldl (fun s j =>
    let g := lgOf s j
    if g.st = .reassigned ∧ ((g.src = 1 ∧ j = k + 1) ∨ (g.src = 2 ∧ j + 1 = k)) then
      setLg j { lgOf (lgChange j .holdover s) j with src := 0, ownLock := false, ownFramed := false } (lgChange j .holdover s)
    else s) s

/-- A lane group moves, and what it clocks follows. -/
def lgGo (k : Nat) (to_ : LgState) (s : State) : State :=
  let was := (lgOf s k).st
  let s := lgChange k to_ s
  if was = .framed ∧ to_ ≠ .framed then sourceLeft k s else s

/-- A lane group is LOST: it is fenced, and writing ends at the next boundary (R133). -/
def lgLose (k cause : Nat) (s : State) : State :=
  let held := cause ≠ 8
  let s := if (lgOf s k).st = .lost then s else lgGo k .lost s
  let s := setLg k { lgOf s k with heldFence := held, src := 0, ownLock := false, ownFramed := false } s
  requestEnd 5 (markFence (0x8000 + k) cause s)

/-! ### Commands that leave with their polder -/

/-- Firmware's own record of commands that have ended. -/
def tidyCmds (s : State) : State :=
  let live := fun (h : Nat) => s.host.cmds.any (fun c => c.handle = h ∧ c.fin.isNone)
  let liveNo := fun (n : Nat) => s.host.cmds.any (fun c => c.no = n ∧ c.fin.isNone ∧ c.e.opc = 0x82)
  let s := match s.cart with
    | none => s
    | some c => match c.unloading with
      | none => s
      | some n => if liveNo n then s else { s with cart := some { c with unloading := none, noticed := false } }
  let s := match s.lat.sched.cmd with
    | none => s
    | some h => if live h then s else { s with lat.sched.cmd := none }
  let syncs := fun (q : Fin 64) => s.host.cmds.any (fun c => c.e.opc = 0x05 ∧ c.started ∧ c.fin.isNone ∧ c.e.part.toNat = q.val)
  let unl := match s.cart with | some c => c.unloading.isSome | none => false
  { s with trk.syncPend := s.trk.syncPend.filter (fun q => unl || syncs q) }

/-- Read jobs of a polder end with the work and buffers they hold. -/
def killReads (p : Nat) (s : State) : State :=
  s.rcd.reads.foldl (fun s j => match cmdOf s j.h with
    | some c => if c.polder.val = p then killRead j.h s else s
    | none => dropJob j.h s) s

/-- The FILLING slots of a polder become FULL as they stand (R95). -/
def polderFull (p : Nat) (s : State) : State :=
  foldNat (fun s q => closeFilling q s) s
    (((s.bas.slots.filter (fun x => x.2.st = .filling ∧ x.2.polder.val = p)).map (·.2.part.val)).eraseDups)

/-! ### Fences -/

/-- A polder is fenced (R549). -/
def fencePolder (p cause : Nat) (s : State) : State :=
  if polderFenced s p then s else
  let s := raise pgFEN 3 (markFence (0x1000 + p) cause s)
  let s := { s with vlt.meters := smod {} s.vlt.meters p (fun m => { m with fenced := true }) }
  let started := s.host.cmds.any (fun c => (c.e.opc = 0x02 ∨ c.e.opc = 0x04) ∧ c.started ∧ c.fin.isNone ∧ c.polder.val = p)
  let s := if started then metered (flushRiq p true (fun _ => true) stFENCED) s else s
  let s := killReads p s
  let s := metered (finishAll (fun c => decide (c.polder.val = p)) stFENCED 0) s
  polderFull p (tidyCmds s)

/-- A fenced compressor's groups go to other engines, from the rewind mark (R548). -/
def fenceCmp (i cause : Nat) (s : State) : State :=
  if isFenced s (0x3000 + i) then s else
  let s := markFence (0x3000 + i) cause s
  let s := (List.range 64).foldl (fun s p =>
    match (riqOf s p).grps.find? (fun g => match g.stage with | .compressing j => decide (j.val = i) | _ => false) with
    | none => s
    | some g => if g.prot then rewind p g.no (fun g => g) s else failGrp p g stGROUP_FAIL s) s
  { s with rcd.cmp := s.rcd.cmp.filter (fun x => x.1 / 64 ≠ i) }

/-- A fenced decompressor's groups are expanded again from staging (R548). -/
def fenceDcp (i cause : Nat) (s : State) : State :=
  if isFenced s (0x4000 + i) then s else
  let s := markFence (0x4000 + i) cause s
  let again := fun (j : ReadJob) => match j.stage with
    | .expanding k => if k.val = i then { j with stage := .decrypted } else j
    | _ => j
  { s with rcd.reads := s.rcd.reads.map again, rcd.dcp := s.rcd.dcp.filter (fun x => x.1 / 64 ≠ i) }

/-- A cipher pair, when it is not fenced already. -/
def fenceCry (i cause : Nat) (s : State) : State :=
  if isFenced s (0x5000 + i) then s else fencePair (Fin.ofNat 12 i) cause s

/-- A DMA channel is fenced by what stands in its page (R544): it goes idle as at a halt with cause 5 of R548. -/
def fenceDma (n cause : Nat) (s : State) : State :=
  if isFenced s (0x2000 + n) then s else
  markFence (0x2000 + n) cause (setDma n { dmaOf s n with st := .stopped, rdOut := none, descRd := false } s)

/-- An ADC channel is fenced (R548): its samples read as zero. -/
def fenceAdc (n cause : Nat) (s : State) : State := if isFenced s (0x7000 + n) then s else markFence (0x7000 + n) cause s

def fenceNet (p cause : Nat) (s : State) : State :=
  if isFenced s (0x9000 + p) then s else fencePort (Fin.ofNat 2 p) cause s

/-! ### Frees to the pool manager -/

/-- The requester's own domain is fenced, where it is one (R354, R356, R547). -/
def fenceReq (r cause : Nat) (s : State) : State :=
  if r ≤ 31 then fenceCmp r cause s else if r ≤ 63 then fenceDcp (r - 32) cause s else if r ≤ 75 then fenceCry (r - 64) cause s
  else if r ≤ 91 then fenceDma (r - 76) cause s else if 98 ≤ r then fenceNet (r - 98) cause s else s

/-- A requester's fault count reaches TH: its access is closed, and a requester that is a fence domain is fenced
as well (R356). -/
def reqFault (r : Nat) (handle : Word) (kind : Nat) (s : State) : State :=
  let s := rset (rset s pgBPM 0x624 handle) pgBPM 0x628 (BitVec.ofNat 32 (r + 256 * kind))
  let s := bump pgBPM (if kind = 1 then 0xA0C else 0xA10) 1 (raise pgBPM (kind - 1) s)
  let s := { s with rcd.reqFault := smod 0 s.rcd.reqFault r (fun n => min (n + 1) 255) }
  if rfld s pgBPM 0x120 7 0 ≤ sget 0 s.rcd.reqFault r ∧ r ∉ s.rcd.reqClosed then
    let s := markFence (0xB000 + r) 4 { s with rcd.reqClosed := r :: s.rcd.reqClosed }
    raise pgBPM 3 (fenceReq r 4 s)
  else s

/-- BUFFER_FREE: a double free, a foreign free, or the buffer goes back (R355). -/
def bufferFree (r : Fin 100) (handle : Word) (s : State) : State :=
  if !pageEn s pgBPM ∨ r.val ∈ s.rcd.reqClosed then s else
  let k := bits handle 26 24
  let i := bits handle 23 8
  let b := bufOf s k i
  if 5 ≤ k ∨ poolCount s k ≤ i ∨ b.gen ≠ handle.setWidth 8 ∨ !b.alloc then reqFault r.val handle 1 s
  else if b.req ≠ r.val then reqFault r.val handle 2 s
  else giveBack k i s

def execBufferFree (r : Fin 100) (handle : Word) (s : State) : Res := .next (bufferFree r handle s)

/-! ### Fatal errors -/

/-- A later fatal error goes into the header of a held dump, whose HCRC follows (R553, R555). -/
def patchDump (cause : Nat) (s : State) : State :=
  if s.itg.dumpSt < 2 then s else
  let fl := sget 0 s.mem.dump 6 ||| 8
  let m := writeBytes 0 (writeBytes 0 s.mem.dump 6 [fl]) 0x2C [BitVec.ofNat 8 cause]
  let m := writeBytes 0 m 0x30 (leBytes s.clk.ctr500.toNat 8)
  { s with mem.dump := writeBytes 0 m 0xFFC (leBytes (crc32c (readBytes 0 m 0 0xFFC)).toNat 4) }

/-- A fatal error (R551 to R553, R555, R560). -/
def fatal (cause page : Nat) (s : State) : State :=
  let later := s.itg.fatal.isSome || s.itg.dumpSt ≠ 0
  let s := if later then patchDump cause { s with itg.dump.cause2 := cause, itg.dump.ctr2 := s.clk.ctr500 }
    else { s with itg.dumpGo := false,
                  itg.dump := { cause := cause, page := page, devTime := s.clk.devSec, ctr := s.clk.ctr500 } }
  let s := raise pgMEM 10 { s with itg.fatal := some (cause, page) }
  let s := if rbit s pgMEM 0x110 8 then signal 0 (rfld s pgMEM 0x110 5 0) s else s
  let s := modPass (fun p => { p with endCause := some 10 }) s
  let s := abortMove s
  if mceOn s ∧ s.trk.pass.isNone then planTo 0 s else s

end Sys2Proof.Machine
end

