-- ==== Sys2Proof/Machine/Image.lean ====
section
/-! DEFINITION. Schedule images (R283, R284, R288 to R293, R297): the table, section and detour layout, tile roles, program
lengths, route windows and link ownership, in the image as it is and with a tile detoured. -/

namespace Sys2Proof.Machine

/-! ### Tables -/

/-- The tile table entry of a tile (R290). -/
def imgTile (img : SchedImage) (t : Nat) : TileEnt := (img.tiles[t]?).getD {}

/-- A tile an image allocates: ROLE 1 to 4. -/
def tileAllocated (e : TileEnt) : Bool := decide (1 ≤ e.role.toNat) && decide (e.role.toNat ≤ 4)

/-- A tile the image never uses (EXCLUDE of R289). -/
def excluded (img : SchedImage) (t : Nat) : Bool := img.exclude.getLsbD t

/-- The allocated tiles in order. -/
def allocatedTiles (img : SchedImage) : List Nat := (img.tiles.zipIdx.filter (fun x => tileAllocated x.1)).map (·.2)

/-- Offset and length of the header, the tables and the sections (R288). -/
def imgRegions (img : SchedImage) : List (Nat × Nat) :=
  [(0, 256), (img.tileTabOff.toNat, 5120), (img.secTabOff.toNat, 16 * img.sects.length),
   (img.detourOff.toNat, 16 * img.detours.length)] ++ img.sects.map (fun x => (x.offset.toNat, x.length.toNat))

/-- Two regions share a byte. -/
def regionsMeet (x y : Nat × Nat) : Bool :=
  decide (0 < x.2) && decide (0 < y.2) && decide (x.1 < y.1 + y.2) && decide (y.1 < x.1 + x.2)

/-- No two regions of a list share a byte. -/
def apart : List (Nat × Nat) → Bool
  | [] => true
  | x :: xs => xs.all (fun y => !regionsMeet x y) && apart xs

/-- Check 0x04 of R297: the lengths, and every table and section aligned, within the image and apart from the others (R288). A
detour's patches count with its table: within the image, their place else free (R293, log 106). -/
def imgBounds (img : SchedImage) : Bool :=
  decide (img.imgLen.toNat ≤ 12 * 1048576) && decide (img.sigOff.toNat + 96 = img.imgLen.toNat) &&
  (imgRegions img).all (fun x => decide (x.1 % 64 = 0) && decide (x.1 + x.2 ≤ img.sigOff.toNat)) && apart (imgRegions img) &&
  img.detours.all (fun d => decide (d.patchOff + 4 * d.patches.length ≤ img.sigOff.toNat))

/-! ### Tiles -/

/-- How many tiles of the table hold a unit of a role. -/
def holders (img : SchedImage) (role unit : Nat) : Nat :=
  (img.tiles.filter (fun e => decide (e.role.toNat = role) && decide (e.unit.toNat = unit))).length

/-- Check 0x08 of R297: each unit of the variant is held by exactly one tile, and EXCLUDE tiles are unused. -/
def imgRoles (v : Variant) (img : SchedImage) : Bool :=
  (List.range (channels v)).all (fun u => holders img 1 u = 1) && (List.range (laneGroups v)).all (fun u => holders img 2 u = 1) &&
  (List.range 16).all (fun u => holders img 3 u = 1) && (List.range 4).all (fun u => holders img 4 u = 1) &&
  img.tiles.zipIdx.all (fun x => !excluded img x.2 || decide (x.1.role.toNat = 0))

/-- The domain whose ticks start a tile's programs: lane group 0 to 7, the codec domain 8, or control 9 to 11; `none` for a tile
without programs (R275, R278, R280). -/
def entDomain (e : TileEnt) : Option Nat :=
  match e.role.toNat with
  | 1 => some (e.unit.toNat / 32)
  | 2 => some e.unit.toNat
  | 3 => some 8
  | 4 => if 9 ≤ e.tickSrc.toNat ∧ e.tickSrc.toNat ≤ 11 then some e.tickSrc.toNat else none
  | _ => none

/-! ### Budgets -/

/-- LENMAX and budget of a tick kind, by TICKSRC (R49, R283, R289, R290). R297 names no check of TICKSRC against ROLE: TICKSRC alone says which
LENMAX binds, so that a value that names no domain binds none (DESIGN CHOICE, log 127). -/
def kindMax (img : SchedImage) (src : Byte) : Option (Nat × Nat) :=
  let k := src.toNat
  if k ≤ 8 then some (img.lenMaxFrame.toNat, 8402)
  else if k = 9 then some (img.lenMaxTsv.toNat, 8859)
  else if k = 10 then some (img.lenMaxT25.toNat, 60952)
  else if k = 11 then some (img.lenMaxT2k.toNat, 761904)
  else none

/-- DELAY of a loop (R289). -/
def loopDelay (img : SchedImage) (n : Nat) : Word :=
  match n with | 0 => img.delay0 | 1 => img.delay1 | 2 => img.delay2 | 3 => img.delay3 | _ => img.delay4

/-- Length of control tile i's program; 0 where no tile holds it. -/
def controlLen (img : SchedImage) (i : Nat) : Nat :=
  ((img.tiles.find? (fun e => decide (e.role.toNat = 4) && decide (e.unit.toNat = i))).map (·.len.toNat)).getD 0

/-- Check 0x0B of R297: no program longer than its LENMAX, no LENMAX above its budget, no DELAY above the length of its loop's
control program (R283, R284; loops by control tile as R274 has them, log 74). -/
def imgBudgets (img : SchedImage) : Bool :=
  img.tiles.all (fun e => (kindMax img e.tickSrc).all (fun m => decide (e.len.toNat ≤ m.1))) &&
  [8, 9, 10, 11].all (fun k => (kindMax img (BitVec.ofNat 8 k)).all (fun m => decide (m.1 ≤ m.2))) &&
  [(0, 0), (1, 0), (2, 1), (3, 2), (4, 3)].all (fun x => decide ((loopDelay img x.1).toNat ≤ controlLen img x.2))

/-! ### Routes -/

/-- Owner domain of an output port (R292). -/
def routeOwner (r : RouteSect) (port : Nat) : Byte :=
  match port with | 0 => r.owner0 | 1 => r.owner1 | 2 => r.owner2 | 3 => r.owner3 | _ => r.owner4

/-- A route entry is well formed and within its owner's window (R292). -/
def routeEntOk (img : SchedImage) (r : RouteSect) (e : RouteEnt) : Bool :=
  decide (1 ≤ e.run.toNat) && decide (e.out.toNat ≤ 4) && decide (e.inp.toNat ≤ 4) && !(e.out = 4 && e.inp = 4) && decide (e.zero = 0) &&
  match kindMax img (routeOwner r e.out.toNat) with
  | some m => decide (e.start.toNat + e.run.toNat ≤ m.1)
  | none => false

/-- Entries sorted by OUT and START, none meeting the next on its port (R284, R292). -/
def routeSorted : List RouteEnt → Bool
  | e :: f :: es =>
    (decide (e.out.toNat < f.out.toNat) || (decide (e.out = f.out) && decide (e.start.toNat + e.run.toNat ≤ f.start.toNat))) &&
    routeSorted (f :: es)
  | _ => true

/-- The route section of a section index; `none` for one that is no route section. -/
def routeSect (img : SchedImage) (i : Nat) : Option RouteSect :=
  match img.sects[i]? with
  | some x => if x.kind = 2 then some x.route else none
  | none => none

/-- A tile's ROUTE names a route section, or none (R290). -/
def routeNamed (img : SchedImage) (i : BitVec 16) : Bool := decide (i.toNat = 0xFFFF) || (routeSect img i.toNat).isSome

/-- Check 0x0C of R297. A tile that names another kind of section as its routes counts as malformed (log 74). -/
def imgRoutes (img : SchedImage) : Bool :=
  img.sects.all (fun x => x.kind ≠ 2 ||
    (decide (x.route.zero = 0) && decide (x.route.nentry.toNat = x.route.ents.length) && decide (x.route.ents.length ≤ 2048) &&
      x.route.ents.all (routeEntOk img x.route) && routeSorted x.route.ents)) &&
  img.tiles.all (fun e => routeNamed img e.route)

/-- The tile on the far side of a port (R269, R270): north is the row before, east the column after (log 73). -/
def neighbour (t port : Nat) : Option Nat :=
  match port with
  | 0 => if t < 16 then none else some (t - 16)
  | 1 => if t % 16 = 15 then none else some (t + 1)
  | 2 => if t < 304 then some (t + 16) else none
  | 3 => if t % 16 = 0 then none else some (t - 1)
  | _ => none

/-- The route section of a tile's router; `none` while the router is idle. -/
def tileRoute (img : SchedImage) (e : TileEnt) : Option RouteSect :=
  if e.route.toNat = 0xFFFF then none else routeSect img e.route.toNat

/-- Owner domain of what comes in at a port: the tile's own program at the local port, the neighbour's output port that drives
the link elsewhere (R284). -/
def inputOwner (img : SchedImage) (t port : Nat) : Option Byte :=
  if port = 4 then some (imgTile img t).tickSrc
  else match neighbour t port with
    | some n => (tileRoute img (imgTile img n)).map (fun r => routeOwner r ((port + 2) % 4))
    | none => none

/-- Check 0x0D of R297: an entry takes its input from its own domain, but for a mailbox write (R284). -/
def imgOwners (img : SchedImage) : Bool :=
  img.tiles.zipIdx.all (fun x => match tileRoute img x.1 with
    | none => true
    | some r => r.ents.all (fun e => (decide (e.out = 4) && e.mbox) ||
        decide (inputOwner img x.2 e.inp.toNat = some (routeOwner r e.out.toNat))))

/-- What an image puts into a bank of a tile (R290, R291, R298): at most 1,024 instruction words. -/
def bankOf (img : SchedImage) (t : Nat) : TileBank :=
  let e := imgTile img t
  let code := match img.sects[e.code.toNat]? with
    | some x => if e.code.toNat ≠ 0xFFFF ∧ x.kind = 1 then x.bytes.take 16384 else []
    | none => []
  { ent := e, code := code, routes := tileRoute img e }

/-! ### Detours -/

/-- The detoured configuration of a detour (R293): the spare takes the failed tile's entry but for its router, and the patched
tiles their replacement route sections. The failed tile runs nothing. -/
def detoured (img : SchedImage) (d : DetourEnt) : SchedImage :=
  let f := imgTile img d.failed.toNat
  let sp := imgTile img d.spare.toNat
  let ts := (img.tiles.set d.spare.toNat { f with route := sp.route }).set d.failed.toNat { f with role := 0, len := 0 }
  let patch := fun (ts : List TileEnt) (p : BitVec 16 × BitVec 16) =>
    match ts[p.1.toNat]? with
    | some e => ts.set p.1.toNat { e with route := p.2 }
    | none => ts
  { img with tiles := d.patches.foldl patch ts }

/-- The detour of a tile. -/
def detourOf (img : SchedImage) (t : Nat) : Option DetourEnt := img.detours.find? (fun d => d.failed.toNat = t)

/-- The tiles whose routes a detour patches. -/
def patchedTiles (d : DetourEnt) : List Nat := d.patches.map (·.1.toNat)

/-- Check 0x0E of R297. The detoured configuration has the programs and sections of the image itself, so that 0x0B holds of it
and 0x0C is left for the patches; 0x0D is checked anew. -/
def imgDetours (img : SchedImage) : Bool :=
  (allocatedTiles img).all (fun t => match detourOf img t with
    | none => false
    | some d => decide ((imgTile img d.spare.toNat).role.toNat = 5) && !excluded img d.spare.toNat &&
        d.patches.all (fun p => routeNamed img p.2) && imgOwners (detoured img d))

/-! ### Initial data and commutation (R291, R294) -/

/-- Bytes of the initial-data section that a tile names, loaded from SRAM address 0. -/
def initData (img : SchedImage) (e : TileEnt) : List Byte :=
  if e.init.toNat = 0xFFFF then [] else match img.sects[e.init.toNat]? with
  | some x => if x.kind = 3 then x.bytes.take 262144 else []
  | none => []

/-- The commutation parameters of one reel (R294): pole pairs, mΩ, µH, 0.01 mV·s/rad, mA. -/
structure Commut where
  poles : Nat
  rph   : Nat
  lph   : Nat
  ke    : Nat
  imax  : Nat
  deriving DecidableEq, Repr

/-- Bytes of an image's commutation section. -/
def commutBytes (img : SchedImage) : List Byte :=
  match img.sects[img.commut.toNat]? with
  | some x => if x.kind = 4 then x.bytes else []
  | none => []

/-- The commutation parameters of reel A, or of reel B. -/
def commutOf (img : SchedImage) (reelB : Bool) : Commut :=
  let b := commutBytes img
  let f := fun (o n : Nat) => leNat ((b.drop (o + n * b2n reelB)).take n)
  { poles := f 0 1, rph := f 2 2, lph := f 6 2, ke := f 10 2, imax := f 14 2 }

/-- mA per 1,024 LSB of the phase current inputs (R294). -/
def commutScale (img : SchedImage) : Nat := leNat (((commutBytes img).drop 0x12).take 2)

/-! ### Queues (R286) -/

/-- Key of a queue in the lattice's state. -/
def queueKey : LatQueue → Nat
  | .sample c => c.val
  | .clock k => 256 + k.val
  | .writeFeed c => 512 + c.val
  | .slotFeed k => 768 + k.val
  | .link l => 784 + l.val
  | .controlIn i => 800 + i.val
  | .controlOut i => 804 + i.val

/-- Depth of a queue. -/
def queueDepth : LatQueue → Nat
  | .sample _ => 8192
  | .clock _ => 8192
  | .writeFeed _ => 8192
  | .slotFeed _ => 262144
  | .link _ => 4096
  | .controlIn _ => 64
  | .controlOut _ => 64

/-- A queue's fill after a flow, and how much of it was lost or missing (R287): what does not fit is lost. -/
def flowStep (f : QueueFlow) (fill : Nat) : Nat × Nat :=
  if f.take then (fill - f.n, f.n - fill) else (min (queueDepth f.q) (fill + f.n), fill + f.n - queueDepth f.q)

end Sys2Proof.Machine
end

