-- ==== Sys2Proof/Machine/TileOps.lean ====
section
/-! DEFINITION. The lattice's tiles: the banks and their switch (R296 to R300), fences and detours (R302 to R311), domain ticks
(R275 to R281), and what the programs of a tick do (R272, R273, R282, R286, R287). -/

namespace Sys2Proof.Machine

def tileOf (s : State) (t : Nat) : Tile := sget {} s.lat.tiles t
def setTile (t : Nat) (x : Tile) (s : State) : State := { s with lat.tiles := sset {} s.lat.tiles t x }

/-! ### Banks -/

/-- A tile's banks change places; a reload of the bank that was ACTIVE is dropped (R299, R542). -/
def swapBanks (x : Tile) : Tile := { x with act := x.stby, stby := x.act, bank := !x.bank, due := false, reload := false }

/-- Write a tile's standby bank. Banks that still wait for their tick change places first. -/
def stageBank (t : Nat) (b : TileBank) (s : State) : State :=
  let x := tileOf s t
  setTile t { (if x.due then swapBanks x else x) with stby := b } s

/-- An image is staged into the standby banks of every tile (R298). -/
def stageBanks (img : SchedImage) (s : State) : State := (List.range 320).foldl (fun s t => stageBank t (bankOf img t) s) s

/-- The banks of these tiles change places with their next tick that carries SWITCH; those of a fenced tile, or of one that no tick
reaches, at once (R299, R303, R307; DESIGN CHOICE, log 125). -/
def markDue (ts : List Nat) (s : State) : State :=
  ts.foldl (fun s t =>
    let x := tileOf s t
    if x.reason ≠ 0 ∨ ((entDomain x.act.ent).isNone ∧ (entDomain x.stby.ent).isNone) then setTile t (swapBanks x) s
    else setTile t { x with due := true } s) s

/-! ### Staging and requests -/

/-- RESULT of SCHED_SELECT (R390). -/
def schedResult (img : SchedImage) (waiting : Bool) : Nat := 256 * b2n waiting + 2 ^ 32 * img.imageId.toNat

/-- The image that SCHED_SELECT asked for is in use, or its switch waits (R299, R300): the command completes. -/
def schedComplete (img : SchedImage) (waiting : Bool) (s : State) : State :=
  match s.lat.sched.cmd with
  | none => s
  | some h => done h stSUCCESS (schedResult img waiting) { s with lat.sched.cmd := none }

/-- STATECOMPAT of an image equals that of the running one (R299); without a running image there is nothing to keep. -/
def compatible (s : State) (img : SchedImage) : Bool := s.lat.sched.running.any (fun r => decide (r.stateCompat = img.stateCompat))

/-- The switch of the image in STANDBY is requested. Once that is staged, and where STATECOMPAT differs from the running image's, it
waits (R299, R300). -/
def requestSwitch (s : State) : State :=
  let s := { s with lat.sched.go := true }
  match s.lat.sched.standby with
  | none => s
  | some img =>
    if s.lat.sched.phase ≠ 4 ∨ s.lat.sched.running.isNone ∨ compatible s img then s
    else
      let t := { s with lat.sched := { s.lat.sched with phase := 5, waitRaised := true } }
      if s.lat.sched.waitRaised then t else schedComplete img true (raise pgSCH 3 t)

/-- A detour is staged and does not run yet (R310). -/
def detourPending (s : State) : Bool := s.lat.detour.any (fun d => !d.active)

/-- The checked image in STANDBY is staged, after a detour that is pending; LOAD_DONE follows once (R298, R311). -/
def stageImage (s : State) : State :=
  match s.lat.sched.standby with
  | none => s
  | some img =>
    if detourPending s then { s with lat.sched.phase := 3 } else
    let told := s.lat.sched.told
    let s := stageBanks img { s with lat.sched := { s.lat.sched with phase := 4, told := true } }
    let s := if told then s else raise pgSCH 0 s
    if s.lat.sched.go then requestSwitch s else s

/-- The image that the loader holds is refused (R297): its command, if any, ends with the code. LDSTAT names the tile
concerned, the fenced one of check 0x0F; where a check of the tables found it the spec does not say which, so it is free (log 51). -/
def rejectLoad (code tile : Nat) (s : State) : State :=
  let h := s.lat.sched.cmd
  let table := code = 0x08 ∨ (0x0B ≤ code ∧ code ≤ 0x0E)
  let s := { s with lat.sched.rejTile := if table then freeVal s % 512 else if code = 0x0F then tile else 0 }
  let s := if table then freeNext s else s
  let s := { s with lat.sched := { s.lat.sched with phase := 6, reject := code, standby := none, cmd := none, go := false,
                                                    waitRaised := false } }
  let s := raise pgSCH 1 (bump pgSCH 0xA04 1 s)
  match h with
  | some h => done h stIMAGE_INVALID code s
  | none => s

/-! ### Fences -/

/-- Every fed codeword that these data channels carry of an instance, and that has no verdict yet, fails NOREAD (R304). -/
def failInst (chans : List Nat) (i : Inst) (s : State) : State :=
  let cs := (List.range 256).filter (fun c => decide (instChan s i c ∈ chans))
  let keys := (cs.flatMap (fun c => (List.range (if i.fedRw then 68 else 64)).map (68 * c + ·))).filter (· ∉ i.seen)
  let one := fun (s : State) (k : Nat) => match instAt s i.p with
    | some y => issueVerdict y (k / 68) (k % 68) 2 none s
    | none => s
  modInst i.p (fun y => { y with zeroed := (y.zeroed ++ cs).eraseDups }) (keys.foldl one s)

/-- The instances that may still take verdicts: of the write pass in progress, else of the one that ended last, and of the housekeeping
zone (R191). -/
def openInsts (s : State) : List Inst :=
  (match s.trk.pass with
    | some p => if p.kind = .write then p.insts else []
    | none => (s.trk.last.map (·.insts)).getD []) ++ ((s.cart.bind (·.hk)).map (·.insts)).getD []

/-- Every codeword of these data channels still without a verdict fails NOREAD; then retries are decided (R304, R311). -/
def failUnverified (chans : List Nat) (s : State) : State :=
  if chans = [] then s else judge ((openInsts s).foldl (fun s i => failInst chans i s) s)

/-- No detour for a fenced tile (R310): writing ends, and no write pass starts; for a role other than a channel's reading ends too. -/
def noDetour (role : Nat) (s : State) : State :=
  let s := raise pgLAT 2 (bump pgLAT 0xA10 1 s)
  let s := requestEnd 7 { s with trk.noPass := true }
  let s := match s.trk.starting with
    | some (_, .write, _) => restMove { s with trk.starting := none }
    | _ => s
  if role = 1 then s
  else modPass (fun p => if p.kind = .read ∧ p.endCause.isNone then { p with endCause := some 7 } else p) s

/-- The detour of a fenced tile is staged into its spare and the patched routers, and the spare's SRAM loaded from the failed tile's
initial data; or there is none (R307, R309, R310). -/
def stageDetour (t : Nat) (s : State) : State :=
  let x := tileOf s t
  match s.lat.sched.running, s.lat.sched.running.bind (fun im => detourOf im t) with
  | some im, some e =>
    let sp := e.spare.toNat
    if s.lat.detour.isSome ∨ !rbit s pgLAT 0x100 0 ∨ (tileOf s sp).reason ≠ 0 then noDetour x.role s
    else
      let conf := detoured im e
      let s := (sp :: patchedTiles e).foldl (fun s u => stageBank u (bankOf conf u) s) s
      setTile sp { tileOf s sp with sram := writeBytes 0 [] 0 (initData im (imgTile im t)), mbox := [], recv := none }
        { s with lat.detour := some { failed := t, spare := sp, role := x.role, unit := x.unit, active := false, since := s.lat.now } }
  | _, _ => noDetour x.role s

/-- A fence meets a staged or staging image (R311): it is refused where it uses the tile, else staged again once no detour is pending. -/
def restageImage (t : Nat) (s : State) : State :=
  if s.lat.sched.phase < 3 ∨ 5 < s.lat.sched.phase then s else
  if s.lat.sched.standby.any (fun im => tileAllocated (imgTile im t)) then rejectLoad 0x0F t s
  else if detourPending s ∨ s.lat.sched.phase = 3 then stageImage s else s

/-- A tile is fenced: its mailbox and SRAM content are lost (R302 to R311). -/
def fenceTile (t reason : Nat) (s : State) : State :=
  let x := tileOf s t
  if x.reason ≠ 0 then s else
  let s := setTile t { x with reason := reason, sram := [], mbox := [], recv := none } s
  let s := raise pgLAT 0 (bump pgLAT 0xA00 1 { s with lat.lastFence := (t, reason) })
  let s := noteFence (0x6000 + t) (if reason = 8 then 6 else 11) s
  let s := failUnverified (if x.role = 1 then [x.unit] else if x.role = 2 then (List.range 32).map (32 * x.unit + ·) else []) s
  let s := if 1 ≤ x.role ∧ x.role ≤ 4 then stageDetour t s
    else match s.lat.detour with
      | some d => if d.spare = t then noDetour d.role { s with lat.detour := none } else s
      | none => s
  let s := if x.role = 4 then fenceMce s else s
  restageImage t s

/-! ### Detours -/

/-- Data sets of a partition that stand ONTAPE, in DSN order. -/
def onTapeDsns (s : State) (part : Nat) : List Nat := isort (fun a b => a ≤ b) ((slotsIn s part .onTape).filterMap (·.2.dsn))

/-- ONTAPE data sets whose codewords a channel tile's detour regenerates: those placed at future positions, in position order, then the
others, in DSN order (R308). -/
def regenList (s : State) : List (Nat × Nat) :=
  let list := fun (p : Pass) (ahead : List Nat) =>
    (ahead ++ (onTapeDsns s p.part.val).filter (· ∉ ahead)).map (fun (d : Nat) => (p.part.val, d))
  match s.trk.pass, s.trk.last with
  | some p, _ => if p.kind = .write then list p (p.retryQ ++ p.againQ.filter (· ∉ p.retryQ)) else []
  | none, some p => list p []
  | none, none => []

/-- The spare takes the failed tile's role and the patched routers their routes, at their next ticks with SWITCH; a channel tile's
codewords are regenerated, and an image that waited is staged (R307, R308, R311). -/
def activateDetour (d : Detour) (s : State) : State :=
  let regen := if d.role = 1 then regenList s else []
  let patched := ((s.lat.sched.running.bind (fun im => detourOf im d.failed)).map patchedTiles).getD []
  let s := markDue (d.spare :: patched.filter (· ≠ d.spare)) { s with lat.detour := some { d with active := true, regen := regen, ticks := 0 } }
  let s := raise pgLAT 1 (bump pgLAT 0xA04 1 s)
  if s.lat.sched.phase = 3 then stageImage s else s

/-- The data set at the head of the regeneration is whole; those that have left ONTAPE need none. -/
def regenNext (s : State) : State :=
  let next := fun (d : Detour) => { d with regen := d.regen.tail.filter (fun (x : Nat × Nat) => decide (x.2 ∈ onTapeDsns s x.1)), ticks := 0 }
  { s with lat.detour := s.lat.detour.map next }

/-- A tick of the master while a detour regenerates: a data set takes at most REGEN_TICKS of them (R308). -/
def regenTick (s : State) : State :=
  match s.lat.detour with
  | none => s
  | some d =>
    if !d.active ∨ d.regen = [] then s else
    let s := { s with lat.detour := some { d with ticks := d.ticks + 1 } }
    if s.lat.sched.running.any (fun im => decide (im.regenTicks.toNat ≤ d.ticks + 1)) then regenNext s else s

/-! ### Words on the mesh -/

/-- Owner domain of a tile's output port under its ACTIVE route bank (R292). -/
def portOwner (s : State) (t port : Nat) : Nat := (((tileOf s t).act.routes.map (fun r => routeOwner r port)).getD 0xFF).toNat

/-- The route entries of a tile's ACTIVE bank that carry what stands at an input port, in a cycle of domain `d`, on its output ports
(R272, R282, R292). A router fenced for its routes sends void on every port (R303). -/
def routesAt (s : State) (d t inp cyc : Nat) : List RouteEnt :=
  let x := tileOf s t
  if x.reason = 5 then [] else
  ((x.act.routes.map (·.ents)).getD []).filter (fun e => decide (e.inp.toNat = inp) && decide (e.start.toNat ≤ cyc) &&
    decide (cyc < e.start.toNat + e.run.toNat) && decide (portOwner s t e.out.toNat = d))

/-- The lattice cycle that a cycle of a domain's programs is (R281). -/
def latCycle (s : State) (d cyc : Nat) : Nat := sget 0 s.lat.tickAt d + cyc

/-- The local port takes a word: into the mailbox, each cycle of a run the next word of it, or into the receive register (R292). -/
def landWord (d t cyc : Nat) (e : RouteEnt) (w : BitVec 256) (s : State) : State :=
  let x := tileOf s t
  if x.reason ≠ 0 then s
  else if e.mbox then
    setTile t { x with mbox := sset none x.mbox ((e.mbIdx.toNat + (cyc - e.start.toNat)) % 128) (some (latCycle s d cyc, w)) } s
  else setTile t { x with recv := some (cyc, w) } s

/-- A word at an input port may go into a mailbox whose local port another domain owns (R282, R284). -/
def crosses (s : State) (d t inp : Nat) : Bool :=
  decide (portOwner s t 4 ≠ d) && ((tileOf s t).act.routes.any (fun r => r.ents.any (fun e => e.out = 4 && e.mbox && decide (e.inp.toNat = inp))))

/-- A word at a router's input port, in a cycle of domain `d`, goes out on the ports whose entries name it, and crosses one router per
cycle; one bound for another domain's mailbox stands there until that domain's cycle (R272, R282). `n` bounds the cycles left. -/
def moveWord (d : Nat) (w : BitVec 256) : Nat → Nat → Nat → Nat → State → State
  | 0, _, _, _, s => s
  | n + 1, t, inp, cyc, s =>
    let s := if crosses s d t inp then { s with lat.flights := s.lat.flights ++ [⟨t, inp, latCycle s d cyc, w⟩] } else s
    (routesAt s d t inp cyc).foldl (fun s e =>
      if e.out.toNat = 4 then landWord d t cyc e w s
      else match neighbour t e.out.toNat with
        | some u => moveWord d w n u ((e.out.toNat + 2) % 4) (cyc + 1) s
        | none => s) s

/-- Words from other domains that have come to a domain's mailboxes before a lattice cycle: those that one of its entries names in that
cycle are written, the others are lost (R272, R282). -/
def landFlights (d upto : Nat) (s : State) : State :=
  let due := fun (f : Flight) => decide (portOwner s f.tile 4 = d) && decide (f.at_ < upto)
  let base := latCycle s d 0
  let land := fun (s : State) (f : Flight) => if f.at_ < base then s else
    ((routesAt s d f.tile f.inp (f.at_ - base)).filter (fun e => e.out = 4 && e.mbox)).foldl (fun s e => landWord d f.tile (f.at_ - base) e f.word s) s
  (s.lat.flights.filter due).foldl land { s with lat.flights := s.lat.flights.filter (fun f => !due f) }

/-! ### Ticks -/

/-- A tile takes part in a domain's ticks, with either of its banks. -/
def joins (d : Nat) (x : Tile) : Bool := decide (entDomain x.act.ent = some d) || (x.due && decide (entDomain x.stby.ent = some d))

/-- Banks of the domain wait for a tick with SWITCH (R277, R299, R307). -/
def switchDue (s : State) (d : Nat) : Bool := s.lat.tiles.any (fun x => x.2.due && joins d x.2)

/-- A tile at a tick: banks that are due change places where the tick switches; then the tick word is delivered, the idle cycles since
END are noted, and the program starts with no word received (R273, R277, R281, R299, R313). -/
def tileTick (d at_ : Nat) (switch : Bool) (word : BitVec 64) (x : Tile) : Tile :=
  if !joins d x then x else
  let idle := match x.start with | some c => min x.slack (at_ - (c + x.len)) | none => x.slack
  let x := if switch && x.due then swapBanks x else x
  if x.reason ≠ 0 ∨ entDomain x.act.ent ≠ some d then x else { x with tick := word, slack := idle, start := some at_, recv := none }

/-- A tile's program has not ended by a lattice cycle (R302). -/
def stillRuns (at_ : Nat) (x : Tile) : Bool := x.start.any (fun c => decide (at_ < c + x.len))

/-- A tick reaches the tiles of its domain at a lattice cycle. One whose program has not ended is fenced, in tile order; a fenced one
ignores it (R275, R281, R302, R310, R311). -/
def startDomain (d at_ : Nat) (switch : Bool) (word : BitVec 64) (s : State) : State :=
  let s := landFlights d at_ s
  let early := s.lat.tiles.filter (fun x => joins d x.2 && decide (x.2.reason = 0) && stillRuns at_ x.2)
  let s := { s with lat.tickAt := sset 0 s.lat.tickAt d at_, lat.now := max s.lat.now at_ }
  let s := early.foldl (fun s x => fenceTile x.1 2 s) s
  { s with lat.tiles := (s.lat.tiles.map (fun x => (x.1, tileTick d at_ switch word x.2))).filter (fun x => x.2 ≠ {}) }

/-- What a program does in a tick of the domains `ds`, with the tiles that have read a void word (R272, R273). A fenced tile sends void
words and executes nothing (R303). -/
def runAct (ds : List Nat) (r : List Nat × State) (a : TileAct) : List Nat × State :=
  let s := r.2
  let runs := fun (t : Nat) => match entDomain (tileOf s t).act.ent with
    | some d => if (tileOf s t).reason = 0 ∧ d ∈ ds then some d else none
    | none => none
  match a with
  | .send t cyc w => match runs t.val with
    | some d => (r.1, moveWord d w (761904 - cyc) t.val 4 cyc s)
    | none => r
  | .store t addr bs =>
    let x := tileOf s t.val
    if (runs t.val).isNone || decide (262144 < addr + bs.length) then r
    else (r.1, setTile t.val { x with sram := writeBytes 0 x.sram addr bs } s)
  | .recvWord t cyc =>
    let came := (tileOf s t.val).recv.any (fun w => decide (w.1 = cyc))
    if (runs t.val).isNone || came then r else (t.val :: r.1, s)
  | .mboxWord t idx cyc since => match runs t.val with
    | some d =>
      let s := landFlights d (latCycle s d cyc) s
      match sget none (tileOf s t.val).mbox idx.val with
      | some m => (if m.1 < since then t.val :: r.1 else r.1, s)
      | none => (t.val :: r.1, s)
    | none => r

/-- A queue takes or gives; one that overflows or underflows raises QUEUE_SLIP, is counted, and keeps what was lost or missing (R286,
R287). -/
def queueFlow (f : QueueFlow) (s : State) : State :=
  let (fill, lost) := flowStep f (sget 0 s.lat.queues (queueKey f.q))
  let s := { s with lat.queues := sset 0 s.lat.queues (queueKey f.q) fill }
  if lost = 0 then s else raise pgLAT 3 (bump pgLAT 0xA08 1 { s with lat.slips := smod 0 s.lat.slips (queueKey f.q) (· + lost) })

/-- What the programs of a tick do (R272, R273, R286), and their run-time faults, in tile order (R302, R310). -/
def runProgs (ds : List Nat) (prog : ProgObs) (s : State) : State :=
  let s := prog.flows.foldl (fun s f => queueFlow f s) s
  let (vs, s) := prog.acts.foldl (runAct ds) ([], s)
  let vs := vs.eraseDups
  let s := bump pgLAT 0xA0C vs.length s
  let s := vs.foldl (fun s t => setTile t { tileOf s t with voids := (tileOf s t).voids + 1 } s) s
  (isort (fun a b => a.1.val ≤ b.1.val) prog.tileFaults).foldl (fun s x => fenceTile x.1.val (x.2.val + 3) s) s

/-- A control tick of a kind, 9 to 11, `period` lattice cycles after the last (R280): SEQ, the kind and the control counter are
delivered, and the control tiles' programs run. -/
def controlTick (kind period : Nat) (prog : ProgObs) (s : State) : State :=
  let seq := sget 0 s.lat.seqs kind + 1
  let word := BitVec.ofNat 64 (seq % 65536 + 65536 * kind + 2 ^ 32 * (s.clk.ctr500.toNat % 2 ^ 32))
  runProgs [kind] prog (startDomain kind (latCycle s kind period) true word { s with lat.seqs := sset 0 s.lat.seqs kind seq })

end Sys2Proof.Machine
end

