-- ==== Sys2Proof/Machine/Timing.lean ====
section
/-! DEFINITION. Clock-stripe timing and the read channel (chapter 03): the lane groups' rows (R121 to R133, R168) and
the channels' rows (R138, R141, R153, R159 to R162), and the frame tick (R275 to R287). -/

namespace Sys2Proof.Machine

/-! ### Clock position words -/

/-- The stripe a lane group's clock input reads (R118, R119). -/
def stripeOf (s : State) (k : Nat) : Nat :=
  match s.variant with
  | .ac => k
  | .hc => k + 4 * b2n (headHalf s)

def wBand (w : Word) : BitVec 2 := BitVec.ofNat 2 (bits w 7 6)
def wStripe (w : Word) : Nat := bits w 5 3
def wCpos (w : Word) : Nat := bits w 31 8

/-- A word names the band and stripe expected of lane group `k`; while a change of band is not confirmed, the band
being left is expected as well (R121). -/
def expectedWord (s : State) (k : Nat) (w : Word) : Bool :=
  decide (wStripe w = stripeOf s k) &&
  (decide (wBand w = bandNow s) || (s.mot.lat.newBand && !(lgOf s k).bandSeen && decide (wBand w = s.mot.lat.oldBand)))

/-- Two successive words carry consecutive positions, in the direction of travel. -/
def consecutive (s : State) (a b : Word) : Bool :=
  if travelRev s then decide ((wCpos b + 1) % 2 ^ 24 = wCpos a) else decide ((wCpos a + 1) % 2 ^ 24 = wCpos b)

/-- The change of band is over once every lane group has seen the new one. -/
def bandSettled (s : State) : State :=
  if s.mot.lat.newBand ∧ (List.range (laneGroups s.variant)).all (fun k => (lgOf s k).bandSeen) then { s with mot.lat.newBand := false }
  else s

/-- The own stripe of a lane group that runs without it is framed again (R121, R129): a step of more than 8 bit cells
loses a group in HOLDOVER. -/
def ownFramed (k : Nat) (s : State) : State :=
  let g := lgOf s k
  if g.st = .holdover ∧ 512 < g.step.natAbs then lgLose k 8 s else setLg k { g with ownFramed := true } s

/-- The frequency of R122, in kHz: 520.833 tone periods a servo frame of 50 µm, eight bit cells each. -/
def presetFreq (s : State) : Nat := s.mot.meas.speed.natAbs / 12

/-- STRIPE_ID: back to ACQUIRE (R121, R122); a pass ends as for LOST (R134, R166). -/
def stripeId (k : Nat) (s : State) : State :=
  let s := lgGo k .acquire s
  requestEnd 5 (raise (pgCST k) 4 (bump (pgCST k) 0xA18 1 (setLg k { lgOf s k with freq := presetFreq s } s)))

/-- A passing word against the tone-index counter (R125). -/
def counterCheck (k : Nat) (w : Word) (s : State) : State :=
  let g := lgOf s k
  if (wCpos w : Int) = g.tone / 2048 % 2 ^ 24 then setLg k { g with toneDis := none } s
  else
    let s := bump (pgCST k) 0xA14 1 s
    let agrees := match g.toneDis with
      | some c => if travelRev s then decide ((wCpos w + 1) % 2 ^ 24 = c) else decide ((c + 1) % 2 ^ 24 = wCpos w)
      | none => false
    if agrees then setLg k { g with tone := cposTone (wCpos w), toneDis := none } s
    else setLg k { g with toneDis := some (wCpos w) } s

/-- What a passing word does, `two` telling that it follows another passing word (R121, R125). -/
def passingWord (k : Nat) (w : Word) (s : State) : State :=
  let g := lgOf s k
  let prev := if g.prevOk then g.word else none
  let named := match prev with
    | some v => decide (wBand v = wBand w) && decide (wStripe v = wStripe w)
    | none => false
  let good := expectedWord s k w && named && (match prev with | some v => consecutive s v w | none => false)
  let bad := !expectedWord s k w && (match prev with | some v => !expectedWord s k v | none => false)
  let seen := g.bandSeen || (named && decide (wBand w = bandNow s))
  let s := bandSettled (setLg k { g with word := some w, prevOk := true, bandSeen := seen } s)
  match g.st with
  | .locked => if good then setLg k { lgOf (lgGo k .framed s) k with tone := cposTone (wCpos w), word := some w, prevOk := true } (lgGo k .framed s)
      else if bad then stripeId k s else s
  | .framed => if bad then stripeId k s else counterCheck k w s
  | .holdover => counterCheck k w (if good ∧ g.ownLock then ownFramed k s else s)
  | .reassigned => counterCheck k w (if good ∧ g.ownLock then ownFramed k s else s)
  | .lost => if good ∧ g.ownLock then ownFramed k s else s
  | _ => s

/-- CLOCK_POSITION_WORD: the word begins `periods` tone periods after the point the counter stands at, and the counter follows
them, up in forward travel and down in reverse (R62, R63, R121, R125). A fenced clock channel reads no word (R548). -/
def clockPositionWord (k : Fin 8) (w : Word) (periods : Nat) (s : State) : State :=
  let g := lgOf s k.val
  if laneGroups s.variant ≤ k.val ∨ g.st = .stopped ∨ g.st = .acquire ∨ isFenced s (0x7100 + k.val) then s else
  let g := { g with tone := if travelRev s then g.tone - periods else g.tone + periods }
  if !clockOk w then
    let s := setLg k.val { g with prevOk := false } s
    if g.st = .locked ∨ g.st = .framed then bump (pgCST k.val) 0xA10 1 s else s
  else passingWord k.val w (setLg k.val g s)

def execClockPositionWord (k : Fin 8) (w : Word) (periods : Nat) (s : State) : Res :=
  .next (clockPositionWord k w periods s)

/-! ### Lock, holdover, reassignment -/

/-- PHASE_LOCK: ACQUIRE becomes LOCKED; a group that runs without its stripe notes the lock and the step measured
(R121, R129). The tone of a fenced clock channel is disqualified (R548). -/
def phaseLock (k : Fin 8) (step : Int) (s : State) : State :=
  let g := lgOf s k.val
  if isFenced s (0x7100 + k.val) then s else
  match g.st with
  | .acquire => lgGo k.val .locked s
  | .holdover => setLg k.val { g with ownLock := true, ownFramed := false, step := step, prevOk := false } s
  | .reassigned => setLg k.val { g with ownLock := true, ownFramed := false, step := step, prevOk := false } s
  | .lost => setLg k.val { g with ownLock := true, ownFramed := false, step := step, prevOk := false } s
  | _ => s

def execPhaseLock (k : Fin 8) (step : Int) (s : State) : Res := .next (phaseLock k step s)

/-- ACQ_TIMEOUT: the group stays in ACQUIRE (R121). -/
def acqTimeout (k : Fin 8) (s : State) : State := if (lgOf s k.val).st = .acquire then raise (pgCST k.val) 5 s else s

def execAcqTimeout (k : Fin 8) (s : State) : Res := .next (acqTimeout k s)

/-- HOLD_ENTER: FRAMED becomes HOLDOVER; otherwise the own stripe is lost again (R121, R127). -/
def holdEnter (k : Fin 8) (s : State) : State :=
  let g := lgOf s k.val
  if g.st = .framed then
    let s := lgGo k.val .holdover s
    raise (pgCST k.val) 0 (setLg k.val { lgOf s k.val with ownLock := false, ownFramed := false, step := 0 } s)
  else setLg k.val { g with ownLock := false, ownFramed := false } s

def execHoldEnter (k : Fin 8) (s : State) : Res := .next (holdEnter k s)

/-- A neighbour qualifies as the source of lane group `k` (R130, R132, log 32): src 1 is k − 1, 2 is k + 1. -/
def qualifies (s : State) (k src : Nat) : Bool :=
  let g := lgOf s k
  let out := decide (g.st ≠ .framed)
  if src = 1 then decide (k ≠ 0) && decide ((lgOf s (k - 1)).st = .framed) && (g.loV || (out && g.keptLo))
  else if src = 2 then decide (k + 1 < laneGroups s.variant) && decide ((lgOf s (k + 1)).st = .framed) && (g.hiV || (out && g.keptHi))
  else false

/-- A lane group takes its neighbour as its source (R131). -/
def reassign (k src : Nat) (s : State) : State :=
  let framed := decide ((lgOf s k).st = .framed)
  let s := lgGo k .reassigned s
  setLg k { lgOf s k with src := src, ownLock := framed || (lgOf s k).ownLock, ownFramed := framed || (lgOf s k).ownFramed } s

/-- HOLD_EXPIRE: HOLDCNT has reached 64 (R121, R127, R132, R133). -/
def holdExpire (k : Fin 8) (s : State) : State :=
  let g := lgOf s k.val
  if g.st ≠ .holdover ∨ g.holdCnt < 64 then s else
  let s := raise (pgCST k.val) 1 s
  let auto := tapeBit s (pgCST k.val) 0x100 0
  if auto ∧ qualifies s k.val 1 then reassign k.val 1 s
  else if auto ∧ qualifies s k.val 2 then reassign k.val 2 s
  else lgLose k.val 8 s

def execHoldExpire (k : Fin 8) (s : State) : Res := .next (holdExpire k s)

/-- SKEW_MEASUREMENT against each neighbour, of groups that are both FRAMED (R130). -/
def skewMeasurement (k : Fin 8) (lo hi : Int) (s : State) : State :=
  let g := lgOf s k.val
  if g.st ≠ .framed ∨ laneGroups s.variant ≤ k.val then s else
  let lim := clampInt (-2048) 2047
  let isLo := k.val ≠ 0 ∧ (lgOf s (k.val - 1)).st = .framed
  let isHi := k.val + 1 < laneGroups s.variant ∧ (lgOf s (k.val + 1)).st = .framed
  let g := if isLo then { g with skewLo := lim lo, loV := true } else g
  let g := if isHi then { g with skewHi := lim hi, hiV := true } else g
  setLg k.val g s

def execSkewMeasurement (k : Fin 8) (lo hi : Int) (s : State) : Res := .next (skewMeasurement k lo hi s)

/-- A FORCE_SRC value names no source of lane group `k` (R169). -/
def forceBad (s : State) (k v : Nat) : Bool :=
  v = 3 || (v = 1 && k = 0) || (v = 2 && laneGroups s.variant ≤ k + 1)

/-- FORCE_SRC_WRITE: a write of LGCFG. FORCE_SRC takes effect at the next boundary; a value that names no neighbour is
ignored with FORCE_INVALID (R168, R169, R606). -/
def forceSrcWrite (k : Fin 8) (v : Word) (s : State) : State :=
  let pg := pgCST k.val
  if laneGroups s.variant ≤ k.val then s else
  if forceBad s k.val (bits v 9 8) then
    let keep := (v &&& ~~~0x300#32) ||| (rget s pg 0x100 &&& 0x300#32)
    raise pg 7 (ownWrite pg 0x100 keep s)
  else ownWrite pg 0x100 v s

def execForceSrcWrite (k : Fin 8) (v : Word) (s : State) : Res := .next (forceSrcWrite k v s)

/-- What a lane group does at a data set boundary (R121, R127, R129, R131 to R133): the first fitting row. -/
def lgBoundary (k : Nat) (s : State) : State :=
  let s := if (lgOf s k).st = .holdover then
      bump (pgCST k) 0xA08 1 (setLg k { lgOf s k with holdCnt := min ((lgOf s k).holdCnt + 1) 64 } s) else s
  let g := lgOf s k
  let f := tapeFld s (pgCST k) 0x100 9 8
  let forced := qualifies s k f
  match g.st with
  | .holdover =>
    if forced then reassign k f s
    else if g.ownFramed then setLg k { lgOf (lgGo k .framed s) k with src := 0 } (lgGo k .framed s) else s
  | .framed => if forced then reassign k f s else s
  | .lost =>
    if g.heldFence then s
    else if forced then reassign k f s
    else if g.ownFramed then setLg k { lgOf (lgGo k .framed s) k with src := 0 } (lgGo k .framed s) else s
  | .reassigned =>
    if f = 0 ∧ g.ownFramed then setLg k { lgOf (lgGo k .framed s) k with src := 0 } (lgGo k .framed s)
    else if f ≠ g.src ∧ forced then raise (pgCST k) 2 (setLg k { g with src := f } s)
    else s
  | _ => s

/-- The speed shown by the servo frames crosses 0.5145 m/s (R121): STOPPED below it, ACQUIRE at or above it, with the
frequency preset of R122. -/
def stopDetect (s : State) : State :=
  let v := s.mot.meas.speed.natAbs
  let s := if v < 514500 then { s with tim.aa := 1 } else s
  (List.range (laneGroups s.variant)).foldl (fun s k =>
    let g := lgOf s k
    if v < 514500 then
      if g.st = .stopped then s
      else if g.heldFence then setLg k { g with freq := 43750 } s
      else
        let s := lgGo k .stopped s
        setLg k { lgOf s k with freq := 43750, cposOk := false, src := 0 } s
    else if g.st = .stopped then
      let s := lgGo k .acquire s
      setLg k { lgOf s k with freq := presetFreq s } s
    else s) s

/-! ### Data channels -/

/-- SYNC_LOST: FLY_LIM flywheel slots in succession have not converged (R162); with FLY_LIM 0 it still takes one (DESIGN CHOICE, log
84). -/
def syncLost (c : Fin 256) (s : State) : State :=
  let ch := chOf s c.val
  let lim := tapeFld s (pgRCH c.val) 0x114 15 12
  if channels s.variant ≤ c.val ∨ ch.syncLost ∨ ch.flyRun < lim ∨ ch.flyRun = 0 then s else
  let s := setCh c.val { ch with syncLost := true, erase := true } s
  let s := match s.trk.pass with
    | some p => if p.kind = .read then passCount (chanKey c.val 3) 1 s else s
    | none => s
  raise (pgCST (c.val / 32)) 6 (bump (pgRCH c.val) 0xA1C 1 s)

def execSyncLost (c : Fin 256) (s : State) : Res := .next (syncLost c s)

/-- WSKEW_TRIM: after 64 accepted syncs of verify, a mean error of more than 2 bit cells moves WSKEW toward it by
1 bit cell, the smaller of the two, at the next boundary (R138). -/
def wskewTrim (c : Fin 256) (s : State) : State :=
  let ch := chOf s c.val
  if ch.errN < 64 then s else
  let on := tapeBit s (pgCST (c.val / 32)) 0x10C 8
  let move : Int := if on ∧ 128 * ch.errN < ch.errSum.natAbs then (if 0 < ch.errSum then 64 else -64) else 0
  setCh c.val { ch with errSum := 0, errN := 0, trim := ch.trim + move } s

def execWskewTrim (c : Fin 256) (s : State) : Res := .next (wskewTrim c s)

/-- The zone word a channel works with: its own when VALID, else the default (R147). -/
def zoneUsed (s : State) (c : Nat) : Word :=
  let z := (chOf s c).zone
  if bit z 0 then z else tapeReg s (pgRCH c) 0x104

/-- A read pass runs. -/
def reading (s : State) : Bool := match s.trk.pass with | some p => decide (p.kind = .read) | none => false

/-- The zone's ERASE is in force: it counts while reading, and is ignored during verify (R147). -/
def zoneErase (s : State) (c : Nat) : Bool := bit (zoneUsed s c) 1 && reading s

/-- A re-read with alteration is running (R154, R212). -/
def altOn (s : State) : Bool := match s.trk.pass with | some p => p.rereading | none => false

/-- The alteration of the re-read in progress: CST.ALT[attempt] (R154, R210); 0 without one. -/
def altWord (s : State) (c : Nat) : Word :=
  match s.trk.pass with
  | some p => if p.rereading then tapeReg s (pgCST (c / 32)) (0x140 + 4 * ((p.rereads - 1) % 8)) else 0
  | none => 0

/-- Gain, offset and asymmetry of the zone word with the channel's deltas and the alteration (R148). -/
def zoneParts (s : State) (c : Nat) : Int × Int × Int :=
  let z := zoneUsed s c
  let a := altWord s c
  let ch := chOf s c
  ((bits z 31 22 : Nat) + ch.dg + sgn 10 (bits a 31 22), sgn 8 (bits z 21 14) + ch.dOff + sgn 8 (bits a 21 14),
   sgn 8 (bits z 13 6) + ch.da + sgn 8 (bits a 13 6))

/-- Either flag of RCH.ADAPT holds both taps and deltas (R158, R171). -/
def frozen (s : State) (c : Nat) : Bool := tapeBit s (pgRCH c) 0x108 24 || tapeBit s (pgRCH c) 0x108 25

/-- LMS deltas may move on this channel (R158). -/
def lmsOn (s : State) (c : Nat) : Bool :=
  !(chOf s c).syncLost && decide ((lgOf s (c / 32)).st ≠ .holdover) && !altOn s && !bit (zoneUsed s c) 2 && !zoneErase s c &&
  !frozen s c

/-- Equaliser taps may adapt on this channel (R158). -/
def eqOn (s : State) (c : Nat) : Bool := !(chOf s c).syncLost && !altOn s && !zoneErase s c && !frozen s c

/-- LMS_DELTA_STEP: after 2^MU converged codewords a delta moves one unit in the direction its statistics show, within its limits
(R153). Statistics of 0 show none, and the delta stays (DESIGN CHOICE, log 91). -/
def lmsDeltaStep (c : Fin 256) (kind : LmsKind) (s : State) : State :=
  let ch := chOf s c.val
  let mu := fun hi lo => 2 ^ tapeFld s (pgRCH c.val) 0x108 hi lo
  let mv := fun (x lim st : Int) => clampInt (-lim) lim (if 0 < st then x + 1 else if st < 0 then x - 1 else x)
  if !lmsOn s c.val then s else
  match kind with
  | .gain => if ch.nG < mu 3 0 then s else setCh c.val { ch with dg := mv ch.dg 64 ch.stG, nG := 0, stG := 0 } s
  | .offset => if ch.nO < mu 7 4 then s else setCh c.val { ch with dOff := mv ch.dOff 32 ch.stO, nO := 0, stO := 0 } s
  | .asym => if ch.nA < mu 11 8 then s else setCh c.val { ch with da := mv ch.da 32 ch.stA, nA := 0, stA := 0 } s

def execLmsDeltaStep (c : Fin 256) (kind : LmsKind) (s : State) : Res := .next (lmsDeltaStep c kind s)

/-! ### Sync detection -/

/-- The slot of a wrap that begins at a tone index, or lies there, in its direction (R73 to R75): position and slot. -/
def slotAt (rev : Bool) (tone : Int) : Option (Nat × Nat) :=
  if tone < tiStart then none else
  let u := (tone - tiStart).toNat
  if rev then
    let n := (u + posTones - 1) / posTones
    if n = 0 ∨ wrapLen < n then none else some (wrapLen - n, (posTones * n - u) / 494)
  else if wrapLen ≤ u / posTones then none else some (u / posTones, u % posTones / 494)

/-- The position of a wrap under a tone index, in its direction (R73, R74). -/
def toneAt (rev : Bool) (tone : Int) : Option Nat := (slotAt rev tone).map (·.1)

/-- Where the positions over a tone index are counted from: the data area's start, and before it the housekeeping zone's (R73, R102). -/
def gridBase (tone : Int) : Int := if tone < tiStart then 0 else tiStart

/-- Index of the slot that begins at a tone index, along the whole tape (R75, R102). -/
def slotIndex (rev : Bool) (tone : Int) : Nat :=
  let m := ((tone - gridBase tone) % posTones).toNat
  (if rev then (posTones - m) % posTones else m) / 494

/-- The last nominal slot start at or below a tone index, and the first at or above one (R75, R102). -/
def gridDown (tone : Int) : Int := gridBase tone + 494 * ((tone - gridBase tone) / 494)
def gridUp (tone : Int) : Int :=
  let up := gridBase tone + 494 * (-((gridBase tone - tone) / 494))
  if tone < tiStart then min tiStart up else up

/-- The next nominal start of a slot after a tone index, in the direction of travel (R75, R275). -/
def nextStart (rev : Bool) (tone : Int) : Int := if rev then gridDown (tone - 1) else gridUp (tone + 1)

/-- A place in the data set at hand: the instance, the half of a half-band position, and the slot. `hk` tells the housekeeping
zone. -/
structure Spot where
  inst : Inst
  sub  : Nat
  slot : Nat
  hk   : Bool

/-- The written position at a tone index (R73, R97, R102). -/
def spotAt (s : State) (rev : Bool) (tone : Int) : Option Spot :=
  let at_ := tone.toNat
  match (s.cart.bind (·.hk)).bind (fun h => if rev ∨ tone < 0 then none else h.insts.find? (·.p = hkBase + at_ / 67184)) with
  | some i => if tone < tiStart then some ⟨i, at_ % 67184 / posTones, at_ % posTones / 494, true⟩ else none
  | none =>
    match wpass s, s.trk.cur, slotAt rev tone with
    | some p, some e, some (x, sl) =>
      let half := wpHalf s (wrapPair e.wrap.val)
      let pos := if half then x / 2 + b2n e.half * halfLen else x
      (p.insts.find? (fun i => pposAt s p.part.val i.p = some (e.wrap.val, pos))).map (fun i =>
        ⟨i, if half then x % 2 else 0, sl, false⟩)
    | _, _, _ => none

/-- The logical channel that a data channel records or reads at a spot (R97, R119). -/
def Spot.chan (s : State) (a : Spot) (c : Nat) : Option Nat :=
  if !a.hk ∧ !a.inst.half then (if s.variant = .ac then some c else none) else
  let h := if a.hk then 0 else halfAt a.inst.p
  if s.variant = .hc ∨ c / 128 = h then some (c % 128 + 128 * a.sub) else none

/-- The partition that owns a spot's codewords in tile SRAM: 255 names the housekeeping zone. -/
def Spot.part (s : State) (a : Spot) : Nat := if a.hk then 255 else match wpass s with | some p => p.part.val | none => 0

/-- The rewrite that a slot of a spot carries on a logical channel (R194). -/
def Spot.rewrite (a : Spot) (l : Nat) : Option Rewrite := a.inst.rewrites.find? (fun r => r.chan = l ∧ r.slot = a.slot)

def payHeld (s : State) (part dsn : Nat) : List Byte := ((encOf s part dsn).map (·.pay)).getD []

/-- The codeword sent in a slot (R80, R182, R183, R188). -/
def sentWord (s : State) (a : Spot) (l : Nat) : List Bool :=
  match a.rewrite l with
  | some r => codeword (payHeld s (a.part s) r.dsn) r.dsn r.row r.orig
  | none => codeword (payHeld s (a.part s) a.inst.dsn) a.inst.dsn a.slot l

/-- The bits of a slot as it is written (R76 to R81); zero bits where a fence has taken the channel's codewords (R304, R308). -/
def sentBits (s : State) (a : Spot) (l : Nat) : List Bool :=
  if l ∈ a.inst.zeroed ∨ a.inst.dead then List.replicate 3952 false else
  let hdr := match a.rewrite l with
    | some r => slotHeader r.dsn r.row r.orig 4
    | none => slotHeader a.inst.dsn a.slot l (slotType a.slot l (decide (a.inst.kind = .retry)))
  slotBits hdr (sentWord s a l)

/-- The DSN that most consistent headers have named; of two named equally often the lowest (R160; DESIGN CHOICE, log 85). -/
def heardDsn (s : State) : Option Nat :=
  (s.trk.heard.foldl (fun (b : Option (Nat × Nat)) y => match b with
    | some z => if z.2 < y.2 then some y else b
    | none => some y) none).map (·.1)

/-- What a channel finds under the trailing module: the logical channel, the slot, the DSN expected, and during verify the spot
(R97, R119, R160). -/
structure Under where
  l    : Nat
  slot : Nat
  dsn  : Option Nat
  spot : Option Spot

/-- The slot under the trailing module, where a pass runs there. The HC reads a full-band pair's channels by halves (R101). -/
def underTrailing (s : State) (rev : Bool) (tone : Int) (c : Nat) : Option Under :=
  if reading s then
    match s.trk.pass, s.trk.cur, slotAt rev tone with
    | some p, some e, some (x, sl) =>
      let half := wpHalf s (wrapPair e.wrap.val)
      if half then (if s.variant = .hc ∨ c / 128 = b2n e.half then some ⟨c % 128 + 128 * (x % 2), sl, heardDsn s, none⟩ else none)
      else some ⟨if s.variant = .hc then c % 128 + 128 * b2n p.h1 else c, sl, heardDsn s, none⟩
    | _, _, _ => none
  else match spotAt s rev tone with
  | some a => (a.chan s c).map (fun l => ⟨l, a.slot, some a.inst.dsn, some a⟩)
  | none => none

/-- A header is consistent with slot `sl`, logical channel `l` and the data set's DSN (R81, R160). -/
def headerFits (sl l : Nat) (dsn : Option Nat) (k : Peak) : Bool :=
  let ty := k.type
  let base := ty % 8
  let same := fun (d : Nat) => decide (k.dsn = d % 2 ^ 29)
  let isDs := match dsn with | some d => same d | none => true
  let own := decide (k.slot = sl) && decide (k.chan = l) && isDs
  let near := match dsn with
    | some d => same d || same (d + 2 ^ 29 - 1) || same (d + 2 ^ 29 - 2)
    | none => true
  k.crcOk &&
  (if sl < 64 then
    own && decide (ty = base ∨ ty = 8 + base) && decide (base = (if 56 ≤ sl then 1 else if l < 240 then 0 else 2))
  else (own && decide (ty = 3 ∨ ty = 0xB)) || (decide (ty = 4) && decide (k.slot < 64) && near))

/-- The peak with the smallest |d| among those that fit, the earlier on a tie (R161). -/
def nearest (ps : List Peak) : Option Peak :=
  ps.foldl (fun (b : Option Peak) k => match b with
    | none => some k
    | some j => if k.d.natAbs < j.d.natAbs ∨ (k.d.natAbs = j.d.natAbs ∧ k.d < j.d) then some k else b) none

/-- The row of R161 that frames a slot, and the peak it is framed at. Of several peaks that would do for row 2 the one with the
smallest |d| is taken, the earlier on a tie, as row 1 has it (DESIGN CHOICE, log 86). -/
def frameRow (wide : Bool) (sl l : Nat) (dsn : Option Nat) (ps : List Peak) : Nat × Option Peak :=
  let ps := ps.filter (fun k => k.d.natAbs ≤ 16)
  let good := ps.filter (headerFits sl l dsn)
  match nearest (good.filter (·.d.natAbs ≤ 8)), nearest (good.filter (fun k => 9 ≤ k.d.natAbs)) with
  | some k, _ => (1, some k)
  | none, some k => if wide then (2, some k) else (3, none)
  | none, none => (if ps = [] then 4 else 3, none)

/-- The skew a row-1 sync moves: the read skew while reading (R141), the placement error during verify (R138). -/
def skewStep (s : State) (c : Nat) (rev : Bool) (e : Int) (ch : Chan) : Chan :=
  if !reading s then (if ch.errN < 64 then { ch with errSum := ch.errSum + e, errN := ch.errN + 1 } else ch)
  else
    let d := clampInt (-4) 4 (rdiv e (2 ^ tapeFld s (pgCST (c / 32)) 0x10C 3 0))
    let lim := clampInt (-8192) 8191
    if rev then { ch with rskR := lim (ch.rskR + d) } else { ch with rskF := lim (ch.rskF + d) }

/-! ### A channel's slot -/

/-- Read skew of a channel in a direction of travel: whole bit cells of delay, and the phase rotator's fraction in 1/64 bit cell
(R140). -/
def readSkew (s : State) (rev : Bool) (c : Nat) : Int := if rev then (chOf s c).rskR else (chOf s c).rskF
def bitDelay (k : Int) : Int := k / 64
def rotator (k : Int) : Int := k % 64

/-- The predicted start of a slot, in 1/64 bit cells along its travel from 152 bit cells before its nominal start: the nominal point
plus the read skew (R75, R140). -/
def predictedStart (k : Int) : Int := 64 * (152 + bitDelay k) + rotator k

/-- `n` of a slot's samples or bits in a row are zero: where they lie the spec does not say, so their place is free (R287; log 125). -/
def zeroRun {α : Type} (z : α) (n place : Nat) (xs : List α) : List α :=
  let at_ := place % (xs.length - n + 1)
  xs.take at_ ++ List.replicate (min n xs.length) z ++ xs.drop (at_ + n)

/-- What the sample queue of a channel lost or lacked is delivered as zero (R287). -/
def slipSamples (s : State) (c : Nat) (codes : List Int) : List Int :=
  match sget 0 s.lat.slips (queueKey (.sample (Fin.ofNat 256 c))) with
  | 0 => codes
  | n => zeroRun 0 n (Config.freeValue (s.clk.free + 33)) codes

/-- Bits that are missing on their way to a write element are written as zero: those its write-feed queue lacked, and a free share of
what the slot-feed queue of its group or the link queue of its lane lacked (R286, R287; log 125). -/
def slipBits (s : State) (c : Nat) (bits : List Bool) : List Bool :=
  let own := sget 0 s.lat.slips (queueKey (.writeFeed (Fin.ofNat 256 c)))
  let shared := 8 * (sget 0 s.lat.slips (768 + c / 32) + sget 0 s.lat.slips (784 + c / 16))
  if own + shared = 0 then bits
  else zeroRun false (own + Config.freeValue (s.clk.free + 2 * c) % (shared + 1)) (Config.freeValue (s.clk.free + 2 * c + 1)) bits

/-- A channel's samples of a slot: one a bit cell at the lane group's clock phase plus the rotator's fraction, from 24 bit cells before
the predicted start on (R140, R161). -/
def slotSamples (k : Int) (volts : List Int) : List Int :=
  (List.range (volts.length / 64)).filterMap (fun n => volts[(predictedStart k + 64 * (n - 24 : Int)).toNat]?)

/-- ADC codes of a channel's samples; a fenced ADC channel's are zero (R143, R548). -/
def adcCodes (s : State) (c : Nat) (volts : List Int) : List Int :=
  if isFenced s (0x7000 + c) then volts.map (fun _ => 0) else volts.map (adcCode (tapeFld s (pgRCH c) 0x100 1 0))

/-- Equaliser and detector settings of a channel (R156, R157, R170, R171). -/
def eqCfg (s : State) (c : Nat) (adapt : Bool) : EqCfg :=
  let pg := pgRCH c
  { t1 := sgn 8 (tapeFld s pg 0x10C 7 0), t2 := sgn 8 (tapeFld s pg 0x10C 15 8), llrScale := tapeFld s pg 0x110 3 0,
    mu := tapeFld s pg 0x108 16 12, leak := tapeFld s pg 0x108 19 17, adapt := adapt }

/-- The taps in force: as loaded or adapted, else as after power-on reset (R155). -/
def tapList (s : State) (c : Nat) : List Rat := (List.range 16).map (tapAt s c)

/-- What a channel makes of a slot's samples: taps after it, equaliser outputs, and LLRs (R148, R155 to R157). -/
def channelOut (s : State) (c : Nat) (adapt : Bool) (codes : List Int) : List Rat × List Rat × List Int :=
  let (g, o, a) := zoneParts s c
  let cfg := eqCfg s c adapt
  let (taps, zs) := equalise cfg (tapList s c) (codes.map (fun x => correctSample x g o a))
  (taps, zs, detect cfg zs)

/-- Iterations of C1 (R186): 4 during verify, the running image's count while reading. -/
def c1Iters (s : State) : Nat :=
  if reading s then ((s.lat.sched.running.map (·.rdIter.toNat)).getD 10) else 4

/-- A channel's slot as framed and decoded (R159 to R162, R184 to R187). -/
structure Heard where
  row  : Nat
  peak : Option Peak
  word : Option C1State
  taps : List Rat
  zs   : List Rat

/-- Frame and decode a slot. One taken at the flywheel position holds its taps (R158). Nothing converges on the samples of a fenced
ADC channel (R548). -/
def hearSlot (s : State) (c : Nat) (u : Under) (codes : List Int) : Heard :=
  let first := channelOut s c (eqOn s c) codes
  let pg := pgRCH c
  let (row, pk) := frameRow (tapeBit s pg 0x114 8) u.slot u.l u.dsn (peaksOf (tapeFld s pg 0x114 5 0) first.2.2 s.clk.free)
  let (taps, zs, llrs) := if 3 ≤ row then channelOut s c false codes else first
  let soft := codeLlrs llrs ((pk.map Peak.d).getD 0)
  { row := row, peak := pk, taps := taps, zs := zs,
    word := if soft.length < 3840 ∨ isFenced s (0x7000 + c) then none else c1Decode (c1Iters s) (c1Start soft) }

/-- The slot is an erasure: the rest of a data set in which the channel has lost its sync, and what it hears before its next row-1
slot (R162). -/
def slotErased (s : State) (c : Nat) (h : Heard) : Bool := (chOf s c).erase || ((chOf s c).syncLost && decide (h.row ≠ 1))

/-- A copy of a codeword as reading keeps it: its header from tape, or from expectation. In a rewrite slot the expected header names
the slot itself, so that what converges there stands as its SUPP codeword. Copies in a zone flagged ERASE and those of a channel in
SYNC_LOST do not count as converged, nor those of a channel or lane group whose tile is fenced (R161, R209, R304; DEDUCED, log 87). -/
def rxOf (s : State) (c : Nat) (u : Under) (h : Heard) : Option RxWord :=
  let ok := h.word.isSome && !zoneErase s c && !slotErased s c h && !chanDead s c
  let bytes := match h.word with | some d => if ok then bitBytes 432 (c1Bits d) else [] | none => []
  match h.peak with
  | some k =>
    let row := if k.type = 4 then k.slot else u.slot
    some { dsn := some k.dsn, row := row, chan := k.chan, ch := c, at_ := u.l, conv := ok, bytes := bytes }
  | none => some { dsn := u.dsn, row := u.slot, chan := u.l, ch := c, at_ := u.l, conv := ok, bytes := bytes }

/-- What verify keeps of a slot (R188). An erasure counts as not converged (R162; DEDUCED, log 87). MARGIN_TH is that of the channel
as the codeword is read (R217). -/
def readOf (s : State) (a : Spot) (c l : Nat) (h : Heard) : SlotRead :=
  let m := match h.word with | some d => c1Margin d | none => 0
  { noread := chanDead s c, row := h.row, conv := h.word.isSome && !slotErased s c h, margin := BitVec.ofNat 7 m,
    weak := decide (m ≤ tapeFld s (pgRCH c) 0x120 6 0),
    same := match h.word with | some d => decide (c1Bits d = sentWord s a l) | none => false }

/-- The channel's own registers after a slot: skew, adaptation, and the run of flywheel slots (R138, R141, R153, R156, R158, R162). -/
def chanAfter (s : State) (c : Nat) (rev : Bool) (h : Heard) : Chan :=
  let ch := chOf s c
  let fly := decide (3 ≤ h.row)
  let ch := match h.peak with | some k => if h.row = 1 then skewStep s c rev k.e ch else ch | none => ch
  let ch := match h.word with
    | some d => if lmsOn s c ∧ !fly then
        let at_ := (128 + (h.peak.map Peak.d).getD 0).toNat
        let (g, o, a) := lmsStats (eqCfg s c false) (h.zs.drop at_) (c1Bits d)
        { ch with nG := ch.nG + 1, nO := ch.nO + 1, nA := ch.nA + 1, stG := ch.stG + g, stO := ch.stO + o, stA := ch.stA + a }
      else ch
    | none => ch
  let ch := { ch with flyRun := if fly ∧ h.word.isNone then ch.flyRun + 1 else 0, syncLost := ch.syncLost && h.row ≠ 1 }
  if eqOn s c ∧ !fly then
    { ch with taps := h.taps.zipIdx.foldl (fun m x => sset none m x.2 (some x.1)) [] }
  else ch

/-- A slot's clips, whatever stands under the channel (R146). The samples around the slot's own belong to its neighbours. -/
def countClips (c : Nat) (codes : List Int) (s : State) : State :=
  bump (pgRCH c) 0xA18 (((codes.drop 24).take 3952).filter (fun x => x = -128 ∨ x = 127)).length s

/-- Clips of an idle tick's samples (R146, R276). -/
def idleClips (rev : Bool) (x : ChanSlot) (s : State) : State :=
  let c := x.chan.val
  countClips c (adcCodes s c (slotSamples (readSkew s rev c) x.volts)) s

/-- One channel's slot: converted, corrected, equalised, detected, framed and decoded, then counted and kept (R143 to R162, R184 to
R187, R209). -/
def chanSlot (rev : Bool) (tone : Int) (x : ChanSlot) (s : State) : State :=
  let c := x.chan.val
  let codes := slipSamples s c (adcCodes s c (slotSamples (readSkew s rev c) x.volts))
  let s := countClips c codes s
  match underTrailing s rev tone c with
  | none => s
  | some u =>
    let h := hearSlot s c u codes
    let ch := chanAfter s c rev h
    let rx := rxOf s c u h
    let s := bump (pgRCH c) (0xA00 + 4 * h.row) 1 (bump (pgRCH c) 0xA00 1 s)
    let s := setCh c ch { s with clk.free := s.clk.free + 34 }
    let s := if 3 ≤ h.row ∧ h.word.isSome then bump (pgRCH c) 0xA14 1 (if reading s then passCount (chanKey u.l 2) 1 s else s) else s
    match u.spot with
    | some a => modInst a.inst.p (fun i => { i with got := sset none i.got (68 * u.l + u.slot) (some (readOf s a c u.l h)) }) s
    | none =>
      let s := match h.peak with | some k => { s with trk.heard := smod 0 s.trk.heard k.dsn (· + 1) } | none => s
      match rx with
      | some w => modPass (fun p => { p with rx := w :: p.rx }) s
      | none => s

/-! ### The frame tick -/

/-- The tick word (R277), for a domain with this SEQ, whose banks switch or not. -/
def tickWord (s : State) (k seq : Nat) (switch rev idle : Bool) (pos : Nat) : BitVec 64 :=
  let g := lgOf s k
  let dsb := decide (g.slot = 0)
  BitVec.ofNat 64 (seq % 65536 + 2 ^ 16 * g.slot + 2 ^ 23 * b2n dsb + 2 ^ 24 * b2n idle + 2 ^ 25 * b2n rev +
    2 ^ 26 * b2n (decide (g.st = .holdover)) + 2 ^ 27 * b2n (decide (g.st = .reassigned)) +
    2 ^ 28 * b2n (dsb && s.lat.stepChg) + 2 ^ 29 * b2n (dsb && switch) + 2 ^ 32 * pos)

/-- A lane group's tick reaches its tiles, and the codec tiles where the group is the master: its ticks are theirs, under a SEQ of their
own (R275, R277, R278). A data set boundary is over with the master's tick. -/
def tickDomains (k : Nat) (rev idle : Bool) (pos : Nat) (obs : TickObs) (s : State) : State :=
  let master := decide (s.lat.master.map (·.val) = some k)
  let at_ := latCycle s k obs.period
  let dsb := decide ((lgOf s k).slot = 0)
  let s := startDomain k at_ dsb (tickWord s k (lgOf s k).seq.toNat (switchDue s k) rev idle pos) s
  if !master then runProgs [k] obs.prog s else
  let seq := sget 0 s.lat.seqs 8 + 1
  let s := startDomain 8 at_ dsb (tickWord s k seq (switchDue s 8) rev idle pos) { s with lat.seqs := sset 0 s.lat.seqs 8 seq }
  let s := runProgs [k, 8] obs.prog s
  regenTick { s with lat.bound := false }

/-- The rewrites of position `q` become final as its rewrite slots are fed (R195), once every instance has been decided on; an instance that
finds no slot is retried (R196, R199). They are counted here, so that a withdrawn one is not (R218; DESIGN CHOICE, log 88). -/
def finalRewrites (q : Nat) (s : State) : State :=
  match s.trk.pass.bind (fun p => p.insts.find? (·.p = q)) with
  | none => s
  | some i =>
    if reading s ∨ i.fedRw then s else
    let s := judge s
    match s.trk.pass with
    | none => s
    | some p =>
      let rs := (p.places.filter (fun x => x.at_ = i.p ∧ !x.gone)).map (·.rw)
      let upd := fun (y : Inst) => if y.p = i.p then { y with fedRw := true, rewrites := rs } else y
      let s := modPass (fun p => { p with insts := p.insts.map upd, places := p.places.filter (·.at_ ≠ i.p) }) s
      let one := fun (s : State) (r : Rewrite) =>
        let s := bump (pgRCH (physChan s i.half i.p r.orig)) 0xA3C 1 (passCount (chanKey r.orig 7) 1 s)
        emit (.rewrite i.p r) (bump (pgRCH (physChan s i.half i.p r.chan)) 0xA40 1 s)
      let s := rs.foldl one s
      let s := passCount 6 rs.length (bump pgWLK 0xA18 rs.length s)
      let supp := 1024 - rs.length
      emit (.supp i.p supp (decide (i.kind = .retry))) (passCount 7 supp (bump pgWLK 0xA1C supp s))

/-- The skew of a reassigned group's output against its source's (R131). -/
def srcSkew (g : LaneGroup) : Int := if g.st = .reassigned then (if g.src = 1 then g.skewLo else g.skewHi) else 0

/-- The slot that the write elements of a lane group begin with a tick: its nominal start on the write-element tone index, and how
far off it is, in 1/64 bit cell (R75, R135). -/
def writeStart (s : State) (k : Nat) (rev : Bool) (tone : Int) : Int × Int :=
  if rev then
    let w := 512 * tone - tapeFld s (pgCST k) 0x108 24 0
    let at_ := gridDown (w / 512)
    (at_, w - 512 * at_)
  else
    let w := 512 * tone + tapeFld s (pgCST k) 0x104 24 0
    let at_ := gridUp (-(-w / 512))
    (at_, 512 * at_ - w)

/-- WSKEW of a channel in a direction of travel, in 1/64 bit cell. -/
def writeSkew (s : State) (rev : Bool) (c : Nat) : Int := if rev then (chOf s c).wskR else (chOf s c).wskF

/-- The bit of a channel for cell `x` of a tick: its stream stands off by the whole cells of its write skew, after 128 cells of
latency, so that the first of them are the slot's before (R656, R660). -/
def cellBit (s : State) (rev : Bool) (bits : Nat → List Bool) (c x : Nat) : Bool :=
  let n : Int := x - 128 - writeSkew s rev c / 64
  if 0 ≤ n then ((bits c)[n.toNat]?).getD false else ((sget [] s.hwl.last c)[(3952 + n).toNat]?).getD false

/-- The data blocks of a lane for a tick (R654, R656). -/
def sendData (rev : Bool) (lane : Nat) (bits : Nat → List Bool) (s : State) : State :=
  sendBlocks lane 1 ((List.range 988).map (dataBlock (fun j n => cellBit s rev bits (16 * lane + j) n))) s

/-- The channels of a lane group send their slots: each begins at its nominal point plus the channel's write skew, in 1/64 bit cell
from the tick of the group's own output, or of its source's for a reassigned group (R76, R131, R135, R136). -/
def sendSlots (k : Nat) (rev : Bool) (tone : Int) (s : State) : State :=
  if !s.hwl.sending then s else
  let (start, off) := writeStart s k rev tone
  match spotAt s rev start with
  | none => s
  | some a =>
    let one := fun (s : State) (c : Nat) => match a.chan s c with
      | some l => emit (.slot c (off + srcSkew (lgOf s k) + writeSkew s rev c) (slipBits s c (sentBits s a l))) s
      | none => s
    let s := ((List.range 32).map (fun j => 32 * k + j)).foldl one s
    let bits := fun c => match a.chan s c with | some l => slipBits s c (sentBits s a l) | none => List.replicate 3952 false
    let s := sendData rev (2 * k + 1) bits (sendData rev (2 * k) bits s)
    { bump64 pgWLK 0xA40 1976 s with hwl.last := ((List.range 32).map (fun j => 32 * k + j)).foldl (fun m c => sset [] m c (bits c)) s.hwl.last }

/-- The position whose rewrite slots the write elements have reached (R195). -/
def rewritesDue (s : State) (k : Nat) (rev : Bool) (tone : Int) : Option Nat :=
  match spotAt s rev (writeStart s k rev tone).1 with
  | some a => if !a.hk && decide (64 ≤ a.slot) then some a.inst.p else none
  | none => none

/-- WINH stood asserted during the slot that a lane group has just ended writing (R188). -/
def markInh (k : Nat) (rev : Bool) (tone : Int) (s : State) : State :=
  let g := lgOf s k
  let s := if !g.inh then s else match spotAt s rev (writeStart s k rev tone).1 with
    | some a => modInst a.inst.p (fun i => { i with inh := i.inh ++ [(k, 68 * a.sub + a.slot)] }) s
    | none => s
  setLg k { lgOf s k with inh := s.pins.winh } s

/-- Mean output frequency in kHz of ticks of these periods: 3,952 bit cells each, at 1.6 GHz. A frequency that is no whole number of
kHz is rounded down, as is a mean of several: the spec gives FREQ in kHz and no rounding (R126, R167; DESIGN CHOICE, log 113). -/
def meanFreq (ps : List Nat) : Nat := 3952 * 1600000 * ps.length / ps.sum

/-- The mean over the last 2,048 tone periods, four ticks and 72 periods of the fifth (R126). -/
def frozenFreq (g : LaneGroup) : Nat :=
  match g.per with
  | [p1, p2, p3, p4, p5] => 2048 * 8 * 1600000 * 494 / (494 * (p1 + p2 + p3 + p4) + 72 * p5)
  | ps => if ps.sum = 0 then g.freq else meanFreq ps

/-- Source of a reassigned group (R131). -/
def srcOf (g : LaneGroup) (k : Nat) : Nat := if g.src = 1 then k - 1 else k + 1

/-- The output frequency of a lane group at a tick, whole kHz rounded down (R120, R126, R131; log 113). -/
def tickFreq (s : State) (k period : Nat) : Nat :=
  let g := lgOf s k
  let others := ((List.range (laneGroups s.variant)).filter (fun j => j ≠ k ∧ (lgOf s j).st = .framed)).map (fun j => (lgOf s j).freq)
  match g.st with
  | .acquire => meanFreq [period]
  | .locked => meanFreq [period]
  | .framed => meanFreq [period]
  | .holdover => if tapeBit s (pgCST k) 0x100 1 ∧ others ≠ [] then others.sum / others.length else frozenFreq g
  | .reassigned => (lgOf s (srcOf g k)).freq
  | _ => g.freq

/-- Start of the slot that a tone index lies in, in the direction of travel. -/
def slotStart (rev : Bool) (tone : Int) : Int := if rev then gridUp tone else gridDown tone

/-- The tone index at a tick: the next nominal slot start. A reassigned group has its source's: the start of the slot that the source
stands in, or of the next where the group's tick comes before its source's or the slot is the group's own already (R75, R131, R275). -/
def tickTone (s : State) (k : Nat) (rev : Bool) : Int :=
  let g := lgOf s k
  if g.st ≠ .reassigned then nextStart rev g.tone else
  let at_ := slotStart rev (lgOf s (srcOf g k)).tone
  if at_ = g.tone ∨ srcSkew g < 0 then nextStart rev at_ else at_

/-- A lane group at its tick (R120, R126, R275 to R277). -/
def tickGroup (k : Nat) (rev : Bool) (period : Nat) (s : State) : LaneGroup :=
  let g := lgOf s k
  let idle := !g.st.usable
  let tone := if idle then g.tone else tickTone s k rev
  let onTone := decide (g.st = .locked) || decide (g.st = .framed) || decide (g.st = .reassigned)
  { g with seq := g.seq + 1, slot := if idle then (g.slot + 1) % 68 else slotIndex rev tone, tone := tone, cposOk := !idle,
           freq := tickFreq s k period, per := if onTone then (period :: g.per).take 5 else g.per }

/-- Writes that came through the mirrors of a lane group reach it; RSKEW reloads the tracked skew (R44, R142). -/
def mirrorIn (k : Nat) (s : State) : State :=
  let mine := fun (x : Nat × Option Word) => let pg := x.1 / 4096; decide (pg = pgCST k) || (decide (0x200 ≤ pg) && decide ((pg - 0x200) / 32 = k))
  let load := fun (s : State) (x : Nat × Option Word) =>
    let c := x.1 / 4096 - 0x200
    let v := sgn 14 (rfld s (x.1 / 4096) (x.1 % 4096) 13 0)
    if x.1 / 4096 < 0x200 then s
    else if x.1 % 4096 = 0x118 then setCh c { chOf s c with rskF := v } s
    else if x.1 % 4096 = 0x11C then setCh c { chOf s c with rskR := v } s else s
  let due := s.tim.old.filter mine
  due.foldl load { s with tim.old := s.tim.old.filter (fun x => !mine x) }

/-- The mirrors of a lane group and its channels take the tape side's status, once a slot (R45). -/
def mirrorOut (k : Nat) (s : State) : State :=
  let chs := ((List.range 32).map (fun j => 32 * k + j)).foldl (fun m c => sset {} m c (chOf s c)) s.tim.mChs
  { s with tim.mLgs := sset {} s.tim.mLgs k (lgOf s k), tim.mChs := chs }

/-- What the queues of a lane group's channels lost has been delivered or written as zero (R287). -/
def slipsOver (k : Nat) (s : State) : State :=
  let mine := fun (q : Nat) => (q < 256 && decide (q / 32 = k)) || (512 ≤ q && q < 768 && decide ((q - 512) / 32 = k)) ||
    decide (q = 768 + k) || decide (q = 784 + 2 * k) || decide (q = 785 + 2 * k)
  { s with lat.slips := s.lat.slips.filter (fun x => !mine x.1) }

/-- The channels of a lane group in what a tick brings. -/
def ofGroup (k : Nat) (obs : TickObs) : List ChanSlot := obs.chans.filter (fun x => x.chan.val / 32 = k)

/-- The write elements of the master group have left the last position fed: the write gate closes at that data set boundary (R236,
R246). -/
def endWriting (k : Nat) (rev : Bool) (was tone : Int) (s : State) : State :=
  let at_ := fun (t : Int) => spotAt s rev (writeStart s k rev t).1
  if s.hwl.sending ∧ s.lat.master.map (·.val) = some k ∧ (at_ was).isSome ∧ (at_ tone).isNone then
    setGate 7 true { s with hwl.sending := false }
  else s

/-- What a tick with tape under it does: the slot just written is over, the slots its channels read are framed, and the next is
written (R75, R188, R195, R275). -/
def tickTape (k : Fin 8) (rev : Bool) (was : Int) (obs : TickObs) (s : State) : State :=
  let tone := (lgOf s k.val).tone
  let s := markInh k.val rev was s
  let s := (ofGroup k.val obs).foldl (fun s x => chanSlot rev tone x s) s
  let s := match rewritesDue s k.val rev tone with | some q => finalRewrites q s | none => s
  sendSlots k.val rev tone (endWriting k.val rev was tone s)

/-- SLOT_TICK: a frame tick of lane group `k` (R275 to R277), at the next nominal slot start on its tone; an idle tick moves no tape
data (R276). -/
def slotTick (k : Fin 8) (obs : TickObs) (s : State) : State :=
  if laneGroups s.variant ≤ k.val then s else
  let s := mirrorIn k.val s
  let was := (lgOf s k.val).tone
  let idle := !(lgOf s k.val).st.usable
  let rev := travelRev s
  let s := setLg k.val (tickGroup k.val rev obs.period s) s
  let half := match s.trk.cur with | some e => wpHalf s (wrapPair e.wrap.val) | none => false
  let pos := if idle then 0xFFFFFFFF else match toneAt rev (lgOf s k.val).tone with
    | some x => if half then x / 2 else x
    | none => 0xFFFFFFFF
  let s := tickDomains k.val rev idle pos obs s
  mirrorOut k.val <| slipsOver k.val (if idle then (ofGroup k.val obs).foldl (fun s x => idleClips rev x s) s else tickTape k rev was obs s)

def execSlotTick (k : Fin 8) (obs : TickObs) (s : State) : Res := .next (slotTick k obs s)

end Sys2Proof.Machine
end

