-- ==== Sys2Proof/Machine/Motion.lean ====
section
/-! DEFINITION. Servo, write gate, motion, governor and trace commands (chapter 05). -/

namespace Sys2Proof.Machine

/-! ### Control words of the Head Write Link -/

/-- Words that take effect at a data set boundary or a data set's first bit (R660). -/
def atBoundary (word : Nat) : Bool := word = 1 || word = 2 || word = 5

/-- ATIME of a word: on receipt, or the boundary's (R660). -/
def cwTime (word : Nat) (s : State) : BitVec 24 := if atBoundary word then Config.cwTime s.hwl.sent else 0xFFFFFF

/-- Send a control word on a lane (R657, R660, R663). The link runs while WLK is enabled. -/
def sendCw (lane word chan value : Nat) (s : State) : State :=
  if !pageEn s pgWLK then s else
  let last : Word := BitVec.ofNat 32 (word + 2 ^ 8 * chan + 2 ^ 16 * (value % 65536))
  sendBlocks lane 2 [cwBlock (cwTime word s) word chan value] (bump pgWLK 0xA48 1 (rset s pgWLK 0x648 last))

/-- A control word of one channel, which CHAN names within its lane (R654, R660). -/
def sendChan (word c value : Nat) (s : State) : State := sendCw (c / 16) word (c % 16) value s

/-- A control word without a channel, on lane 0 (R660). Its CHAN is not stated: 0xFF is taken (log 49). -/
def sendAll (word value : Nat) (s : State) : State := sendCw 0 word 0xFF value s

/-- The read module that trails in a direction: 1, or 2 for read module 3 (R163, R660). -/
def moduleFor (s : State) (rev : Bool) : Nat :=
  match rfld s pgWLK 0x140 25 24 with
  | 0 => if rev then 2 else 1
  | m => m

/-- MODSEL goes out when the module changes (R660). -/
def selectModule (rev : Bool) (s : State) : State :=
  let m := moduleFor s rev
  if s.hwl.mod.toNat = m then s else sendAll 0x04 m { s with hwl.mod := BitVec.ofNat 2 m }

/-! ### Servo records -/

/-- A record with its bursts labelled by their order and counts in the direction of travel: A, B, C and D forward, D, C, B and A in
reverse; valid only with counts 4, 4, 3 and 3, and here with an interval A to C that is not 0 (R164; DESIGN CHOICE, log 124). -/
def labelled (rev : Bool) (r : ServoRec) : ServoFrame :=
  let bs := if rev then r.bursts.reverse else r.bursts
  let b := fun (i : Nat) => (bs[i]?).getD (0, 0)
  { tA := (b 0).1, tB := (b 1).1, tC := (b 2).1, tD := (b 3).1, counts := ((b 0).2, (b 1).2, (b 2).2, (b 3).2), amp := r.amp,
    valid := decide (bs.map (·.2) = [4, 4, 3, 3]) && decide ((b 0).1 ≠ (b 2).1) }

/-- y of a frame in pm (R59): 1 ÷ (2 tan 6°) is 4.757182227111293. -/
def servoY (r : ServoFrame) : Int :=
  let tab := (r.tB : Int) - r.tA
  let tac := (r.tC : Int) - r.tA
  let k : Int := 4757182227111293
  93000000 + (if 0 < tac then rdiv ((125 * tac - 250 * tab) * k) (tac * 10000000000)
    else rdiv ((250 * tab - 125 * tac) * k) (-tac * 10000000000))

/-- Servo ADC of a reader: read module 1 trails in forward travel, module 3 in reverse (R163). -/
def servoAdc (rev lead upper : Bool) : Nat := 264 + 2 * b2n (rev != lead) + b2n upper

/-- The record of a reader as its servo channel delivers it: not valid of a fenced ADC (R163, R164, R548). -/
def servoKept (s : State) (lead upper : Bool) (r : Option ServoRec) : Option ServoFrame :=
  r.map (fun r => let f := labelled (refRev s) r
    { f with valid := f.valid && !isFenced s (0x7000 + servoAdc (travelRev s) lead upper) })

/-- The valid frame of a trailing reader. -/
def servoUse (s : State) (upper : Bool) (r : Option ServoRec) : Option ServoFrame := (servoKept s false upper r).filter (·.valid)

/-- Frames without a valid record, and valid frames in a row (R246 source 3). -/
def servoLock (ok : Bool) (s : State) : State :=
  let g := s.mot.gate
  if !ok then { s with mot.gate := { g with loss := g.loss + 1, lock := 0, wrel := 0 } }
  else
    let s := { s with mot.gate := { g with loss := 0, lock := g.lock + 1 }, mot.meas.noFrame := 0, mot.lat.blind := false }
    if rfld s pgSRV 0x104 3 0 ≤ g.lock + 1 then setGate 3 false { s with mot.gate.locked := true } else s

/-- The PES comparator (R246 source 2, R247). -/
def pesCompare (ys : List Int) (both : Bool) (s : State) : State :=
  let yt := trackY (trackNow s)
  let past := fun (n : Nat) (y : Int) => decide (100 * n < (y - yt).natAbs)
  let th := rfld s pgSRV 0x100 11 0
  let rel := rfld s pgSRV 0x100 27 16
  let s := if ys.any (past th) then setGate 2 true s else s
  let near := both && !ys.any (past rel)
  { s with mot.gate.wrel := if near then s.mot.gate.wrel + 1 else 0 }

/-- The lateral loops take a sample (R220, R223, R224, R230). -/
def lateralLoops (s : State) : State :=
  if !mceOn s then s else
  let y := s.mot.meas.ym
  let u3 := (loopOf s 3).u
  let m2 := y - rdiv ((rget s pgMCE 0x390).toNat * u3) 32768
  let s := runLoop 2 s.mot.lat.pos m2 (s.mot.lat.a / 1000000) s
  let s := runLoop 3 (setPt s 3) (y - trackY (trackNow s)) (setPt s 3) s
  drive (fun p => { p with dac0 := (loopOf s 2).u, dac1 := (loopOf s 3).u }) s

/-- While no frame is valid in a change of band, LOOP[2] acts through KF and its held integrator alone, here at each T25 sample (R235, R236; the
rate is a DESIGN CHOICE, log 122). -/
def blindSample (s : State) : State :=
  if !s.mot.lat.blind ∨ !mceOn s then s else
  let b := bankBase s 2
  let l := loopOf s 2
  let ff := s.mot.lat.a / 1000000
  let v := rdiv (l.istate + rdiv ((rget s pgMCE (b + 12)).toInt * ff) 256) 65536
  let olo := sgn 16 (rfld s pgMCE (b + 0x18) 15 0)
  let ohi := sgn 16 (rfld s pgMCE (b + 0x18) 31 16)
  let u := clampInt olo ohi v
  drive (fun p => { p with dac0 := u }) (setLoop 2 { l with sp := s.mot.lat.pos, u := u, ff := ff,
                                                            sat := if ohi < v then 1 else if v < olo then -1 else 0 } s)

/-- The duration of the frame that this one completes: from burst A to burst A of one reader that has a valid record of both
(R223). -/
def frameTime (u l : Option ServoFrame) (s : State) : State :=
  let m := s.mot.meas
  let from_ := fun (was : Option Nat) (f : Option ServoFrame) => match was, f with
    | some a, some f => some ((f.tA : Int) - a).natAbs
    | _, _ => none
  let t := (from_ m.lastUp u).orElse (fun _ => from_ m.lastLo l)
  { s with mot.meas := { m with lastUp := u.map ServoFrame.tA, lastLo := l.map ServoFrame.tA, frameT := t.getD m.frameT } }

/-- SERVO_RECORD: the records of a frame from the readers of the trailing and the leading module (R59, R121, R164, R223, R235,
R246). All four are delivered; position is taken from the trailing module (R223). -/
def servoRecord (upper lower leadUpper leadLower : Option ServoRec) (period : Nat) (prog : ProgObs) (s : State) : State :=
  let recs := [servoKept s false true upper, servoKept s false false lower, servoKept s true true leadUpper, servoKept s true false leadLower]
  let u := servoUse s true upper
  let l := servoUse s false lower
  let ok := (recs.filter (fun r => r.any (·.valid))).length
  let good := b2n u.isSome + b2n l.isSome
  let s := bump pgSRV 0xA20 (4 - ok) (bump pgSRV 0xA1C ok { s with mot.meas.recs := recs })
  let s := frameTime u l (servoLock (decide (0 < good)) s)
  let s := stopDetect s
  let s := if upper.isSome ∨ lower.isSome then controlTick 9 period prog s else s
  match u, l with
  | none, none => s
  | some a, none =>
    let y := servoY a
    let s := { s with mot.meas := { s.mot.meas with yUp := y, ym := y } }
    settle (lateralLoops (pesCompare [y] false s))
  | none, some b =>
    let y := servoY b
    let s := { s with mot.meas := { s.mot.meas with yLo := y, ym := y } }
    settle (lateralLoops (pesCompare [y] false s))
  | some a, some b =>
    let yu := servoY a
    let yl := servoY b
    let m := s.mot.meas
    let sk := rdiv (((a.tA : Int) - b.tA) * m.speed) 45472000
    let s := { s with mot.meas := { m with yUp := yu, yLo := yl, ym := rdiv (yu + yl) 2, skewSum := m.skewSum + sk,
                                           skewN := m.skewN + 1 } }
    settle (lateralLoops (pesCompare [yu, yl] true s))
where
  settle (s : State) : State :=
    if s.mot.lat.moving then s else { s with mot.lat.settle := s.mot.lat.settle - 1 }

def execServoRecord (upper lower leadUpper leadLower : Option ServoRec) (period : Nat) (prog : ProgObs) (s : State) : Res :=
  .next (servoRecord upper lower leadUpper leadLower period prog s)

/-- LOCK_LOST: LOSS_N frames in a row without a valid record (R246 source 3). -/
def lockLost (s : State) : State :=
  if s.mot.gate.loss < rfld s pgSRV 0x104 7 4 ∨ bit s.mot.gate.src 2 then s
  else raise pgSRV 1 (setGate 3 true { s with mot.gate.locked := false, mot.gate.lock := 0 })

def execLockLost (s : State) : Res := .next (lockLost s)

/-! ### The write gate -/

/-- WINH_RELEASE: the slot boundary that sources 1 and 2 wait for (R246). -/
def winhRelease (s : State) : State :=
  let passes := (List.range (laneGroups s.variant)).any (fun k =>
    decide ((lgOf s k).st = .framed) || decide ((lgOf s k).st = .reassigned))
  if !passes then s else
  let s := if s.mot.gate.shockOk then setGate 1 false s else s
  if rfld s pgSRV 0x104 11 8 ≤ s.mot.gate.wrel then setGate 2 false s else s

def execWinhRelease (s : State) : Res := .next (winhRelease s)

/-- SHOCK: SHOCK_N falls (R46, R246 source 1, R653). -/
def shock (s : State) : State := raise pgSRV 2 (setGate 1 true { s with pins.shockN := false, mot.gate.shockOk := false })

def execShock (s : State) : Res := .next (shock s)

/-- SHOCK_N_RISE: SHOCK_HOLD begins to run (R246). -/
def shockNRise (s : State) : State := { s with pins.shockN := true }

def execShockNRise (s : State) : Res := .next (shockNRise s)

/-- SHOCK_HOLD_EXPIRY: source 1 may be released at the next slot boundary (R246). -/
def shockHoldExpiry (s : State) : State := if s.pins.shockN then { s with mot.gate.shockOk := true } else s

def execShockHoldExpiry (s : State) : Res := .next (shockHoldExpiry s)

/-- WFORCE_WRITE: FORCE asserts source 7; 0 frees it while the track side writes a pass (R246, R264). -/
def wforceWrite (v : Word) (s : State) : State :=
  let s := ownWrite pgSRV 0x108 v s
  setGate 7 (rbit s pgSRV 0x108 0 || !s.hwl.sending) s

def execWforceWrite (v : Word) (s : State) : Res := .next (wforceWrite v s)

/-! ### The 25 kHz and 2 kHz ticks -/

/-- Time goes on by 40 µs (R280, R520, R568). -/
def tickClocks (s : State) : State :=
  let us := s.clk.devUs + 40
  { s with clk.ctr500 := s.clk.ctr500 + 20000, clk.mtime := s.clk.mtime + 1000,
           clk.devSec := s.clk.devSec + us / 1000000, clk.devUs := us % 1000000 }

/-- The measured speed at a T25 sample: 50 µm by the duration of the latest frame, or by the time since it once that has reached
4 ms, signed by the direction of travel (R223). -/
def measuredSpeed (s : State) : Int :=
  let m := s.mot.meas
  if m.frameT = 0 then m.speed else
  let v : Int := if 100 ≤ m.noFrame + 1 then 1250000 / (m.noFrame + 1 : Nat) else 800000000000 / (m.frameT : Nat)
  if refRev s then -v else v

/-- The tone index under the trailing module, as the MCE keeps it: the master lane group's while it has one, else moved on by the measured
speed (R125; DESIGN CHOICE, log 29). -/
def toneHeld (s : State) (v : Int) : Int :=
  match s.lat.master with
  | some k => let g := lgOf s k.val
    if g.st.usable then g.tone else s.mot.tone + v / 2400
  | none => s.mot.tone + v / 2400

/-- The AUX samples and what is measured with them (R222, R223, R267). -/
def sampleAux (aux : List (BitVec 16)) (s : State) : State :=
  let at_ := fun (i : Nat) => (aux[i]?).getD 0
  let code := fun (i : Nat) => ((at_ i).toNat : Int)
  let keep := (List.range 8).foldl (fun m i => sset 0 m i (at_ i)) []
  let m := s.mot.meas
  let v := measuredSpeed s
  let tens := rdiv (code 4 * rfld s pgAUX 0x104 15 0) 1024
  let act := rdiv (code 5 * rfld s pgAUX 0x108 15 0) 1024
  let temp := code 7 * rfld s pgAUX 0x10C 15 0 + 100 * sgn 16 (rfld s pgAUX 0x10C 31 16)
  let iscale := (s.lat.sched.running.map commutScale).getD 0
  let amps := (List.range 4).foldl (fun m i => sset 0 m i (rdiv (code i * iscale) 1024)) []
  let quiet := [0, 1, 2, 3].all (fun i => decide (code i < 656))
  let near := decide (v.natAbs ≤ 50000)
  let s := { s with mot.meas := { m with aux := keep, speed := v, accel := 25 * (v - m.speed), tens := tens, act := act, temp := temp, amps := amps,
                                         noFrame := m.noFrame + 1 } }
  { s with mot.low := if near then s.mot.low + 1 else 0, mot.quiet := if quiet then s.mot.quiet + 1 else 0,
           mot.tone := toneHeld s v }

/-- The following-error timers count 10 µs intervals (R235, R248). -/
def feTimers (s : State) : State :=
  if !mceOn s then s else
  (List.range 5).foldl (fun s n =>
    let l := loopOf s n
    let far := decide ((rget s pgMCE (loopBase n + 0x48)).toNat < (l.sp - l.meas).natAbs)
    let held := (n = 2 || n = 3) && latHeld s
    setLoop n { l with fe := if far && !held then min (l.fe + 4) 65535 else 0 } s) s

/-- Sources 5 and 6 of the write gate (R246). -/
def gateCompare (s : State) : State :=
  let t : Int := 1000 * (rfld s pgGOV 0x118 7 0 : Nat)
  let s := if t < s.mot.meas.temp then (if bit s.mot.gate.src 4 then s else raise pgSRV 3 (setGate 5 true s))
    else if s.mot.meas.temp < t - 2000 then setGate 5 false s else s
  let r := planV s
  let dev := decide (rfld s pgMCE 0x394 7 0 * r.natAbs < 1000 * (s.mot.meas.speed - r).natAbs)
  if !dev then s else
  let s := { s with mot.gate.spdIn := false }
  let writing := s.hwl.sending && (match s.trk.pass with | some p => decide (p.kind = .write) | none => false)
  if writing ∧ !bit s.mot.gate.src 5 then raise pgMCE 4 (setGate 6 true s) else s

/-- The time of passes and moves is metered (R514). -/
def meterTape (s : State) : State :=
  let m := s.mot.move
  match (if m.status = 1 then m.polder else none), s.trk.pass with
  | some q, _ => meter q.val (fun x => { x with posTime := x.posTime + 40 }) s
  | none, some p => meterPart p.part.val (fun x => { x with tapeTime := x.tapeTime + 40 }) s
  | none, none => s

/-- The governor's reference falls by STOP_DECEL toward 0 (R251). -/
def govStep (s : State) : State :=
  let g := s.mot.gov
  if !g.active ∨ g.passive then s else
  let d : Int := 4 * (rfld s pgGOV 0x104 31 16 : Nat)
  { s with mot.gov.ref := if 0 < g.ref then max 0 (g.ref - d) else min 0 (g.ref + d) }

/-- First half-band position and first DSN of the area that copy A is being written to (R102). -/
def hkArea (h : Hk) : Nat × Nat := if h.area then (3720, 0xFFFFFF20) else (2480, 0xFFFFFF10)

/-- The tape is sent to the next position of copy A's area, once nothing else moves it: on H0 of band 0, at track position 50,
forward (R102). The step is the policy's fixed one (DESIGN CHOICE, log 93). -/
def hkSeek (s : State) : State :=
  match s.cart.bind (·.hk) with
  | none => s
  | some h =>
    if h.todo = 0 ∨ h.run ∨ s.trk.pass.isSome ∨ s.trk.starting.isSome ∨ s.mot.move.status = 1 ∨ s.mot.coast ∨ !mceOn s then s else
    startMove (67184 * ((hkArea h).1 + h.off) / 2048) 0 false 50 false (smFixed s) none s

/-- The reel torque commands, each in its own reel's pulling sense (R221). Halves round down (log 30). -/
def reelTorque (sigma delta : Int) (s : State) : State := { s with mot.torA := (delta - sigma) / 2, mot.torB := (delta + sigma) / 2 }

/-- The control tiles, or the governor through the same logic, commutate each motor: the duties of its six PWM outputs come of the torque
commands, the phase currents and the image's commutation parameters by a law that the spec does not give: free values up to the period
(R221, R251, R267; DESIGN CHOICE, log 121). -/
def commutate (s : State) : State :=
  if s.pins.pwm ≠ .loops ∧ s.pins.pwm ≠ .governor then s else
  let period := rfld s pgAUX 0x100 15 0
  { s with mot.duty := (List.range 12).map (fun i => Config.freeValue (s.clk.free + i) % (period + 1)), clk.free := s.clk.free + 12 }

/-- The governor's laws (R251, R265): products to the nearest output LSB, limited to full scale (log 30). -/
def govTorque (s : State) : State :=
  let g := s.mot.gov
  if !g.active ∨ g.passive then s else
  let full := clampInt (-32767) 32767
  let sigma := full (rdiv ((rfld s pgGOV 0x11C 15 0 : Nat) * (g.ref - s.mot.meas.speed)) 256000)
  let mid2 : Int := (rfld s pgGOV 0x108 15 0 + rfld s pgGOV 0x108 31 16 : Nat)
  reelTorque sigma (full (rdiv ((rfld s pgGOV 0x11C 31 16 : Nat) * (mid2 - 2 * s.mot.meas.tens)) 512)) s

/-- The crest limits of causes 5 to 9 are passed at present (R250). -/
def crestPassed (s : State) : List Bool :=
  let m := s.mot.meas
  [decide (1000 * rfld s pgGOV 0x100 13 0 < m.speed.natAbs), decide (125 * rfld s pgGOV 0x104 15 0 < m.accel.natAbs),
   decide (m.tens < (rfld s pgGOV 0x108 15 0 : Nat)) || decide ((rfld s pgGOV 0x108 31 16 : Nat) < m.tens),
   decide ((rfld s pgGOV 0x114 15 0 : Nat) < m.act), decide (1000 * (rfld s pgGOV 0x118 7 0 : Nat) < m.temp)]

/-- T25 samples for which each must be passed (R250, R265). -/
def crestTimes (s : State) : List Nat := [1, 250, 25 * rfld s pgGOV 0x10C 15 0, 25, 25000]

/-- The times for which the crest limits have been passed. -/
def crestWatch (s : State) : State :=
  let step := fun (m : Sparse Nat) (x : Bool × Nat) => sset 0 m x.2 (if x.1 then sget 0 m x.2 + 1 else 0)
  { s with mot.past := (crestPassed s).zipIdx.foldl step s.mot.past }

/-- Crest limit 5 + i has been passed for its time. -/
def crestHeld (s : State) (i : Nat) : Bool := decide (max 1 ((crestTimes s)[i]?.getD 0) ≤ sget 0 s.mot.past i)

/-- T25_TICK: `aux` holds the eight samples (R221 to R224, R233, R246, R248, R250, R251). -/
def t25Tick (aux : List (BitVec 16)) (prog : ProgObs) (s : State) : State :=
  let s := controlTick 10 64000 prog (govStep (crestWatch (sampleAux aux (tickClocks s))))
  let s := if mceOn s then
      let s := blindSample (moveStep (latStep (planStep s)))
      let s := runLoop 0 (planV s) s.mot.meas.speed (planA s) s
      let s := runLoop 1 (setPt s 1) s.mot.meas.tens (setPt s 1) s
      reelTorque (loopOf s 0).u (loopOf s 1).u s
    else govTorque s
  hkSeek (unloadCheck (meterTape (stopDetect (gateCompare (feTimers (commutate s))))))

def execT25Tick (aux : List (BitVec 16)) (prog : ProgObs) (s : State) : Res := .next (t25Tick aux prog s)

/-- T2K_TICK: the skew loop (R220, R223), whose output goes out as SKEW (R660). A window without a valid frame of both
readers leaves the measured value as it was. -/
def t2kTick (prog : ProgObs) (s : State) : State :=
  let s := controlTick 11 800000 prog s
  let m := s.mot.meas
  let sk := if m.skewN = 0 then m.skew else rdiv m.skewSum m.skewN
  let s := { s with mot.meas := { m with skew := sk, skewSum := 0, skewN := 0 } }
  if !mceOn s then s else
  let s := runLoop 4 (setPt s 4) sk (setPt s 4) s
  sendAll 0x06 ((BitVec.ofInt 16 (loopOf s 4).u).toNat) s

def execT2kTick (prog : ProgObs) (s : State) : Res := .next (t2kTick prog s)

/-- FE_TRIP: a following-error timer has reached FE_TIME (R248, R249, R250). A trip that comes together with another entry of the governor counts too
(R261); one that FESTAT records already does not. -/
def feTrip (n : Fin 5) (s : State) : State :=
  let l := loopOf s n.val
  let st := rget s pgMCE 0x6AC
  if !pageEn s pgMCE ∨ (!mceOn s ∧ bit st 8 ∧ bits st 2 0 = n.val) ∨ l.fe = 0 ∨ l.fe + 3 < rfld s pgMCE (loopBase n.val + 0x44) 15 0 then s else
  govEnter 4 (traceEvent 3 (raise pgMCE 0 (bump pgMCE 0xA00 1 (rset s pgMCE 0x6AC (BitVec.ofNat 32 (n.val + 256))))))

def execFeTrip (n : Fin 5) (s : State) : Res := .next (feTrip n s)

/-! ### Wrap ends and turnarounds -/

/-- A plan entry is the next wrap, or half-wrap, of the same band (R69, R98). -/
def nextWrap (s : State) (a b : PlanEntry) : Bool :=
  let half := wpHalf s (wrapPair a.wrap.val)
  decide (a.wrap.val / 100 = b.wrap.val / 100) &&
  (if !half then decide (b.wrap.val = a.wrap.val + 1)
   else if !a.rev then decide (b.wrap.val = a.wrap.val + 1) && decide (b.half = a.half)
   else if !a.half then decide (b.wrap.val + 1 = a.wrap.val) && b.half
   else decide (b.wrap.val = a.wrap.val + 1) && !b.half)

/-- Partition position at which an entry's wrap or half-wrap begins. -/
def entryStart (s : State) (e : PlanEntry) : Option Nat :=
  pposOf s e.part.val e.wrap.val (if wpHalf s (wrapPair e.wrap.val) && e.half then halfLen else 0)

/-- The pass cannot go on under an entry: it names another partition, or the other kind (R236). -/
def breaksPass (p : Pass) (e : PlanEntry) : Bool := decide (e.part ≠ p.part) || decide (e.write ≠ decide (p.kind = .write))

/-- WRAP_END: the coast begins; a pass the next entry breaks ends with ENDCAUSE 8 (R35, R236). -/
def wrapEnd (s : State) : State :=
  match s.trk.pass with
  | none => s
  | some p =>
    if s.mot.coast ∨ !mceOn s ∨ s.mot.move.status = 1 ∨ (p.kind = .write ∧ inEntry s p) then s else
    let plan := s.mot.plan
    let s := stretchEnd s
    if s.mot.move.status = 1 then s else
    let breaks := match s.trk.plan with | e :: _ => breaksPass p e | [] => false
    let s := setGate 7 true { s with hwl.sending := false }
    let s := if breaks then endPass 8 s else s
    { s with mot.plan := plan, mot.coast := true }

def execWrapEnd (s : State) : Res := .next (wrapEnd s)

/-- Where a pass under an entry starts: the append point, or where reading stopped or the entry begins (R52, R245). -/
def passStart (s : State) (e : PlanEntry) : Option Nat :=
  if e.write then some (appendP s e.part.val)
  else match sget none s.trk.readAt e.part.val with
  | some p => if entryFits s e e.part .read p then some p else entryStart s e
  | none => entryStart s e

/-- A write pass has cause to start: START_FILL is reached, or a SYNC or UNLOAD waits (R244). A full partition whose DSNs are used up
takes no copy B any more (R87; DEDUCED, log 115). -/
def writeDue (s : State) (part : Fin 64) : Bool :=
  let e := partEntry s part.val
  (decide (startFill s ≤ fillOf s part.val .write) && decide (0 < fillOf s part.val .write) || decide (part ∈ s.trk.syncPend)) &&
  !(e.full && !dsnsLeft s part.val)

/-- The reversal of R236: the lateral move starts with the deceleration. -/
def turnAround (e : PlanEntry) (r : List PlanEntry) (s : State) : State :=
  let n := s.mot.spd.nreq
  let s := loadZones { s with trk.plan := r, trk.cur := some e }
  let s := latTo (wrapTrack e.wrap.val) e.band (planHalf s) s
  planTo (if e.rev then -stepSpeed n else stepSpeed n) s

/-- A positioning move to partition position `p` of the entry that now goes into force (R236). -/
def entryMove (e : PlanEntry) (r : List PlanEntry) (p step : Nat) (s : State) : State :=
  let s := loadZones { s with trk.plan := r, trk.cur := some e }
  match pposAt s e.part.val p with
  | some (w, x) => startMove (posCpos e.rev (wpHalf s (wrapPair w)) x) e.band (planHalf s) (wrapTrack w) e.rev step none s
  | none => s

/-- TURN_COAST_EXPIRY: the turnaround, a positioning move, or the stop (R236). Where an entry to write starts no pass yet, the move leaves the
tape at rest at the entry's first position, from which BASIN_RESTART goes on (DESIGN CHOICE, log 122). -/
def turnCoastExpiry (s : State) : State :=
  if !s.mot.coast ∨ !mceOn s then s else
  let s := { s with mot.coast := false }
  match s.trk.plan with
  | [] => planTo 0 s
  | e :: r =>
    let follows := match s.trk.cur with | some c => nextWrap s c e | none => false
    match s.trk.pass with
    | some _ =>
      if follows then turnAround e r s else
      let half := wpHalf s (wrapPair e.wrap.val)
      let s := loadZones { s with trk.plan := r, trk.cur := some e }
      startMove (posCpos e.rev half 0) e.band (planHalf s) (wrapTrack e.wrap.val) e.rev s.mot.spd.nreq none s
    | none =>
      let kind : PassKind := if e.write then .write else .read
      match passStart s e with
      | none => planTo 0 s
      | some p =>
        if e.write ∧ s.trk.noPass then planTo 0 s
        else if e.write ∧ !writeDue s e.part then entryMove e r p 0 s
        else if follows ∧ entryStart s e = some p then
          let s := turnAround e r (armSpeed e.part kind s)
          { s with trk.starting := some (e.part, kind, p) }
        else seekPass e.part kind p true (planTo 0 s)

def execTurnCoastExpiry (s : State) : Res := .next (turnCoastExpiry s)

/-- REV_DWELL_EXPIRY: the planner goes on to its target (R232, R261), and the preamplifier has the other module (R236). -/
def revDwellExpiry (s : State) : State :=
  let p := s.mot.plan
  if !p.dwell then s else
  selectModule (decide (p.target < 0)) { s with mot.plan := { p with dwell := false, idle := decide (p.target = 0) } }

def execRevDwellExpiry (s : State) : Res := .next (revDwellExpiry s)

/-! ### Positioning moves -/

/-- MOVETRK cannot be followed (R263). -/
def moveRejected (s : State) : Bool :=
  decide (99 < rfld s pgMCE 0x3C4 6 0) || decide (16 < rfld s pgMCE 0x3C4 20 16) || !stepOk s (rfld s pgMCE 0x3C4 20 16)

/-- MOVE_GO (R237, R261, R263). A move GO starts is metered to the polder whose LOCATE or SPACE came last, if none has
been started for it (R514). -/
def moveGo (s : State) : State :=
  let s := touchPage pgMCE s
  if moveRejected s then raise pgMCE 5 s
  else if !mceOn s then s else
  let t := rget s pgMCE 0x3C0
  let k := rget s pgMCE 0x3C4
  let q := s.mot.seekFor
  startMove (bits t 23 0) (BitVec.ofNat 2 (bits t 25 24)) (headHalf s) (bits k 6 0) (bit k 8) (bits k 20 16) q
    { s with mot.seekFor := none, trk.starting := none }

def execMoveGo (s : State) : Res := .next (moveGo s)

/-- MOVE_ABORT: the tape is brought to rest (R262). -/
def moveAbort (s : State) : State :=
  let s := touchPage pgMCE s
  if s.mot.move.status ≠ 1 then s else planTo 0 (abortMove s)

def execMoveAbort (s : State) : Res := .next (moveAbort s)

/-- The move leads to the next position of copy A's area (R102). -/
def hkThere (s : State) (h : Hk) : Bool :=
  decide (h.todo ≠ 0) && decide (s.mot.move.track = 50) && decide (s.mot.move.band = 0) &&
  decide (s.mot.move.cpos = 67184 * ((hkArea h).1 + h.off) / 2048)

/-- The tape has come to copy A's area (R102). -/
def hkReady (s : State) : State :=
  let there := fun (h : Hk) => if hkThere s h then { h with run := true } else h
  { s with cart := s.cart.map (fun c => { c with hk := c.hk.map there }) }

/-- MOVE_DONE: the target is reached, and a pass that the move was made for begins (R237, R242, R244). -/
def moveDone (s : State) : State :=
  if s.mot.move.status ≠ 1 ∨ !moveThere s then s else
  let s := raise pgMCE 2 { s with mot.move.status := 2 }
  match s.trk.starting with
  | some (part, kind, p) => beginPass part kind p { s with trk.starting := none }
  | none => hkReady s

def execMoveDone (s : State) : Res := .next (moveDone s)

/-! ### Loop registers and speed policy -/

/-- BANK_SWAP: a write of LCFG, whose BSEL counts from the next sample on (R227, R259). -/
def bankSwap (n : Fin 5) (v : Word) (s : State) : State :=
  let was := rbit s pgMCE (loopBase n.val + 0x40) 0
  let s := ownWrite pgMCE (loopBase n.val + 0x40) v s
  if rbit s pgMCE (loopBase n.val + 0x40) 0 = was then s else
  let s := setLoop n.val { loopOf s n.val with swapped := true } s
  (List.range 4).foldl (fun s b =>
    if rfld s pgTRC (0x104 + 0x20 * b) 2 0 = 6 ∧ rfld s pgTRC (0x100 + 0x20 * b) 2 0 = n.val then traceTrig b s else s) s

def execBankSwap (n : Fin 5) (v : Word) (s : State) : Res := .next (bankSwap n v s)

/-- A bank's limits are in disorder: ILO > IHI or OLO ≥ OHI (R229, R263). -/
def bankBad (s : State) (b : Nat) : Bool :=
  let lim := fun o hi lo => sgn 16 (rfld s pgMCE (b + o) hi lo)
  decide (lim 0x14 31 16 < lim 0x14 15 0) || decide (lim 0x18 31 16 ≤ lim 0x18 15 0)

/-- TRIM_WRITE: registers 0 to 6 are bank A's, 8 to 14 bank B's, at 4 × reg (R228, R229, R262). -/
def trimWrite (n : Fin 5) (reg : Fin 16) (v : Word) (s : State) : State :=
  if reg.val % 8 = 7 then s else
  let off := loopBase n.val + 4 * reg.val
  let t := ownWrite pgMCE off v s
  if pageEn s pgMCE ∧ bankBad t (loopBase n.val + 0x20 * (reg.val / 8)) then raise pgMCE 1 (touchPage pgMCE s) else t

def execTrimWrite (n : Fin 5) (reg : Fin 16) (v : Word) (s : State) : Res := .next (trimWrite n reg v s)

/-- The rule code of R263 that an SMPOL value breaks, if any. -/
def smpolBad (s : State) (w : Word) : Option Nat :=
  let mn := bits w 8 4
  let mx := bits w 16 12
  let fx := bits w 24 20
  if mn = 0 ∨ 16 < mx ∨ mx < mn ∨ !stepOk s mn then some 0x03
  else if 2 ≤ bits w 1 0 then some 0x08
  else if fx = 0 ∨ 16 < fx ∨ !stepOk s fx then some 0x09
  else none

/-- HYST ≥ TARGET (R263 rule 0x04). -/
def smfillBad (w : Word) : Bool := decide (bits w 12 0 ≤ bits w 28 16)

/-- SPEED_POLICY_WRITE: SMPOL, or SMFILL when `fill` (R263). -/
def speedPolicyWrite (fill : Bool) (v : Word) (s : State) : State :=
  let bad := if fill then smfillBad v else (smpolBad s v).isSome
  if pageEn s pgMCE ∧ bad then raise pgMCE 1 (touchPage pgMCE s)
  else ownWrite pgMCE (if fill then 0x3A4 else 0x3A0) v s

def execSpeedPolicyWrite (fill : Bool) (v : Word) (s : State) : Res := .next (speedPolicyWrite fill v s)

/-! ### The stop governor -/

/-- STOP: GOV.STOP is written (R250). -/
def stop (s : State) : State := govEnter 11 (touchPage pgGOV s)

def execStop (s : State) : Res := .next (stop s)

/-- CREST_BREACH: bit i of `causes` is cause 5 + i of R250, which enters the governor once its limit has been passed for its time. -/
def crestBreach (causes : BitVec 5) (s : State) : State :=
  (List.range 5).foldl (fun s i => if bit causes i && crestHeld s i then govEnter (5 + i) s else s) s

def execCrestBreach (causes : BitVec 5) (s : State) : Res := .next (crestBreach causes s)

/-- GOV_REST: the speed has stayed within 0.05 m/s of 0 for 20 ms (R251). -/
def govRest (s : State) : State :=
  let g := s.mot.gov
  if !g.active ∨ g.passive ∨ g.rest ∨ s.mot.low < 500 then s
  else raise pgGOV 1 { s with mot.gov.rest := true, mot.gov.atRest := true }

def execGovRest (s : State) : Res := .next (govRest s)

/-- PASSIVE_BRAKE: no valid servo frame for 10 ms while the measured speed is not 0 (R252). -/
def passiveBrake (s : State) : State :=
  if s.mot.meas.noFrame < 250 ∨ s.mot.meas.speed = 0 then s else brakePassive s

def execPassiveBrake (s : State) : Res := .next (passiveBrake s)

/-- MOTOR_UV_N: the motor supply falls below its threshold (R252). -/
def motorUvN (s : State) : State := brakePassive { s with pins.motorUvN := false }

def execMotorUvN (s : State) : Res := .next (motorUvN s)

/-- PASSIVE_REST: every phase current has stayed below 1 % for 100 ms (R252). -/
def passiveRest (s : State) : State :=
  let g := s.mot.gov
  if !g.active ∨ !g.passive ∨ s.mot.quiet < 2500 then s else { s with mot.gov.atRest := true }

def execPassiveRest (s : State) : Res := .next (passiveRest s)

/-- A cause of R250 holds at present, without its duration (R253). -/
def causePresent (s : State) : Bool :=
  (crestPassed s).any id || s.top.pf

/-- The conditions of R253. -/
def mayRelease (s : State) : Bool :=
  let g := s.mot.gov
  g.active && (g.rest || g.passive) && g.atRest && !pageEn s pgMCE && !causePresent s

/-- GOV_RELEASE: the guarded write of RELEASE (R253, R616). -/
def govRelease (v c : Word) (s : State) : State :=
  guardedWrite pgGOV v c (fun s =>
    if v ≠ 1 ∨ !mayRelease s then guardFail pgGOV s
    else setGate 4 false (drive (fun p => { p with pwm := .off }) { s with mot.gov := { locked := s.mot.gov.locked } })) s

def execGovRelease (v c : Word) (s : State) : Res := .next (govRelease v c s)

/-! ### Trace -/

/-- CTL.ARM as read. -/
def setArm (b : Nat) (on : Bool) (s : State) : State := rset s pgTRC (0x110 + 0x20 * b) (if on then 1 else 0)

/-- TRACE_ARM (R258). Entries recorded before and not yet taken stay for the DMA channel. -/
def traceArm (b : Fin 4) (s : State) : State :=
  let s := setArm b.val true (touchPage pgTRC s)
  let t := trcOf s b.val
  if t.armed then s else setTrc b.val { armed := true, entries := t.entries, mem := t.mem } s

def execTraceArm (b : Fin 4) (s : State) : Res := .next (traceArm b s)

/-- TRACE_DISARM (R258). -/
def traceDisarm (b : Fin 4) (s : State) : State :=
  let s := setArm b.val false (touchPage pgTRC s)
  setTrc b.val { trcOf s b.val with armed := false } s

def execTraceDisarm (b : Fin 4) (s : State) : Res := .next (traceDisarm b s)

/-- TRACE_FIRE: the software trigger, where SRC is 0 (R259). -/
def traceFire (b : Fin 4) (s : State) : State :=
  let s := touchPage pgTRC s
  if rfld s pgTRC (0x104 + 0x20 * b.val) 2 0 = 0 then traceTrig b.val s else s

def execTraceFire (b : Fin 4) (s : State) : Res := .next (traceFire b s)

/-- TRACE_CAPTURE_END: a one-shot buffer stops once its entries after the trigger are recorded (R258). -/
def traceCaptureEnd (b : Fin 4) (s : State) : State :=
  let t := trcOf s b.val
  if !t.armed ∨ !t.trig ∨ t.post ≠ 0 ∨ rbit s pgTRC (0x100 + 0x20 * b.val) 16 then s
  else setArm b.val false (setTrc b.val { t with armed := false } s)

def execTraceCaptureEnd (b : Fin 4) (s : State) : Res := .next (traceCaptureEnd b s)

end Sys2Proof.Machine
end

