-- ==== Sys2Proof/Machine/Track.lean ====
section
/-! DEFINITION. Track-side commands: the wrap plan (R34, R35, R672), the data set boundary (R166, R278), the restarts of
R244 and R245, verify verdicts (R188 to R207) and the decoding of data sets (R209 to R213). -/

namespace Sys2Proof.Machine

/-! ### What takes effect at a boundary -/

/-- The write current of a channel before the crest clamp (R661). -/
def wcurOf (s : State) (c : Nat) : Nat :=
  let t := sgn 4 (bits (rget s pgWLK (0x180 + 4 * (c / 8))) (4 * (c % 8) + 3) (4 * (c % 8)))
  (clampInt 0 255 (rfld s pgWLK 0x148 7 0 + 2 * t)).toNat

/-- WCUR and WDLY of one channel, where they differ from what was sent last (R255, R660). -/
def linkChan (rev : Bool) (c : Nat) (s : State) : State :=
  let mx := rfld s pgGOV 0x110 7 0
  let want := wcurOf s c
  let eff := min want mx
  let s := if sget 0 s.hwl.wcurCh c = eff then s else
    let s := sendChan 0x01 c eff { s with hwl.wcurCh := sset 0 s.hwl.wcurCh c eff }
    if mx < want then raise pgGOV 3 (bump pgWLK 0xA50 1 s) else s
  let ch := chOf s c
  let d := (if rev then ch.wskR else ch.wskF) % 64
  if sget 0 s.hwl.wdly c = d then s else sendChan 0x02 c d.toNat { s with hwl.wdly := sset 0 s.hwl.wdly c d }

/-- Control words effective at a data set boundary (R660). -/
def linkBoundary (rev : Bool) (s : State) : State :=
  if !pageEn s pgWLK then s else
  let s := { s with hwl.wcurNow := min (rfld s pgWLK 0x148 7 0) (rfld s pgGOV 0x110 7 0) }
  let s := (List.range (channels s.variant)).foldl (fun s c => linkChan rev c s) s
  let g := BitVec.ofNat 4 (rfld s pgWLK 0x150 3 0)
  if s.hwl.gain = g then s else sendAll 0x05 g.toNat { s with hwl.gain := g }

/-- Segment of a position's first bit (R149, R152). -/
def segAt (rev half : Bool) (x : Nat) : Nat :=
  min 31 ((posTone rev half x - b2n rev - tiStart) / (2048 * 222524))

/-- A channel enters a zone (R147, R152): the word of its element position. -/
def enterZone (s : State) (g c : Nat) (ch : Chan) : Chan :=
  let z := sget 0 s.trk.zoneCache (256 * g + c + (if s.variant = .hc then 128 * b2n (headHalf s) else 0))
  let used := if bit z 0 then z else tapeReg s (pgRCH c) 0x104
  let ch := if bit used 4 then ch else { ch with dg := 0, dOff := 0, da := 0, nG := 0, nO := 0, nA := 0, stG := 0, stO := 0, stA := 0 }
  let ch := { ch with zone := z }
  if bit used 3 then loadTaps (fun i => tapeFld s (pgRCH c) (0x140 + 4 * i) 11 0) ch else ch

/-- The zone words at a boundary: a row is fetched eight data sets ahead, and applies from the first data set beyond the
segment boundary (R151, R152). -/
def zoneBoundary (s : State) : State :=
  match s.trk.cur, s.lat.master with
  | some e, some k =>
    let half := wpHalf s (wrapPair e.wrap.val)
    match toneAt e.rev (lgOf s k.val).tone with
    | none => s
    | some y =>
      let x := if half then y / 2 else y
      let g := segAt e.rev half x
      let ahead := segAt e.rev half (x + 8)
      let s := if ahead = segAt e.rev half (x + 7) ∨ runLen half ≤ x + 8 then s else fetchRow ahead s
      if s.trk.zoneSeg = g then s
      else (List.range (channels s.variant)).foldl (fun s c => setCh c (enterZone s g c (chOf s c)) s) { s with trk.zoneSeg := g }
  | _, _ => s

/-- The WSKEW trims due, except where a phase step of the lane group and the trim would move a slot start by more than 8
bit cells (R138, R166). `stepped` lists the groups whose phase stepped at this boundary. Placement errors and a trim that is due are
not kept by direction: the trim moves the WSKEW of the direction in force at the boundary, whichever they were measured in (DESIGN
CHOICE, log 113). -/
def trimBoundary (rev : Bool) (stepped : List Nat) (s : State) : State :=
  let one := fun (x : Nat × Chan) =>
    let st := if x.1 / 32 ∈ stepped then (lgOf s (x.1 / 32)).step else 0
    if x.2.trim = 0 ∨ 512 < (st + x.2.trim).natAbs then x
    else if rev then (x.1, { x.2 with wskR := x.2.wskR + x.2.trim, trim := 0 })
    else (x.1, { x.2 with wskF := x.2.wskF + x.2.trim, trim := 0 })
  { s with tim.chs := s.tim.chs.map one }

/-- The master: the lowest lane group FRAMED or REASSIGNED, else as it was (R278). -/
def chooseMaster (s : State) : State :=
  match (List.finRange 8).find? (fun k => decide (k.val < laneGroups s.variant) &&
      (decide ((lgOf s k.val).st = .framed) || decide ((lgOf s k.val).st = .reassigned))) with
  | some k => { s with lat.master := some k }
  | none => s

/-- Source 6 of the write gate is released after a whole data set within SPDWIN (R246). -/
def speedGate (s : State) : State :=
  let s := if s.mot.gate.spdIn then setGate 6 false s else s
  let r := planV s
  let dev := decide (rfld s pgMCE 0x394 7 0 * r.natAbs < 1000 * (s.mot.meas.speed - r).natAbs)
  { s with mot.gate.spdIn := !dev }

/-- A read pass stops where it stands; a move takes it up again (R245). -/
def stopRead (s : State) : State :=
  match s.trk.pass with
  | none => s
  | some p =>
    let s := closePass p 0 s
    if s.mot.gov.active then s else planTo 0 s

/-- Of data set positions `n` tone periods long, counted in the direction of travel from tone index `from_` on: the one whose first
slot the write elements come to next on the master's tone (R73, R97, R102, R135). -/
def writeIndex (s : State) (rev : Bool) (from_ n : Int) : Option Int :=
  s.lat.master.map (fun k =>
    let u := (writeStart s k.val rev (lgOf s k.val).tone).1 - from_
    Int.neg ((if rev then u else Int.neg u) / n))

/-- How far the write elements are past a partition position of the entry in force: 0 where they come to it next, negative before
that. -/
def writeLag (s : State) (part p : Nat) : Option Int :=
  match s.trk.cur, pposAt s part p with
  | some e, some (w, x) =>
    let half := wpHalf s (wrapPair w)
    let n : Int := if half then 2 * posTones else posTones
    (writeIndex s e.rev (posTone e.rev half 0) n).map (· - (x % runLen half : Nat))
  | _, _ => none

/-- The pass has something to feed at its next position. -/
def feeds (p : Pass) : Bool := !p.done || decide (p.closing ≠ 0) || decide (retryDue p ≠ [])

/-- The next position of a write pass is fed as the write elements come to it. Where they have passed it, the pass ends: no blank
position is left between written ones (R134; DEDUCED, log 114). -/
def feedHere (dead : Bool) (s : State) : State :=
  match s.trk.pass with
  | none => s
  | some p =>
    match writeLag s p.part.val p.nextP with
    | none => s
    | some d => if d < 0 ∨ !feeds p ∨ !inEntry s p then s else if d = 0 then feedNext dead s else endPass 5 s

/-- What a boundary of a write pass does. -/
def writeBoundary (dead : Bool) (s : State) : State :=
  let s := settlePass s
  match s.trk.pass with
  | none => s
  | some p =>
    let s := modPass (fun p => { p with bounds := p.bounds + 1 }) s
    let s := if inEntry s p then speedBoundary p.part.val .write p.half (p.bounds + 1) s else s
    let s := feedHere dead s
    match s.trk.pass with
    | none => s
    | some q => if q.nextP = p.nextP then s else encodeAhead s

/-- A retry decided after the closing positions have been fed takes the next position, where the write elements have not come to it
yet (R200). -/
def lateRetry (s : State) : State :=
  match s.trk.pass with
  | none => s
  | some p => if p.kind = .write ∧ p.done ∧ p.closing = 0 ∧ p.endCause.isNone ∧ writeLag s p.part.val p.nextP = some 0 ∧ retryDue p ≠ []
    then feedNext (codecDead s) s else s

/-- Partition position of the data set that begins under the master's tone; past the wrap's last it is the next wrap's first
(R73, R97, R110). -/
def boundaryP (s : State) (p : Pass) : Option Nat :=
  match s.trk.cur, s.lat.master with
  | some e, some k => (toneAt e.rev (lgOf s k.val).tone).bind (fun y =>
      pposOf s p.part.val e.wrap.val (if p.half then y / 2 + b2n e.half * halfLen else y))
  | _, _ => none

/-- What a boundary of a read pass does (R101, R245). -/
def readBoundary (p : Pass) (s : State) : State :=
  if quotaPart s p.part.val ≤ fillOf s p.part.val .read then stopRead s
  else
    let s := modPass (fun p => { p with bounds := p.bounds + 1 }) s
    let s := speedBoundary p.part.val .read p.half (p.bounds + 1) s
    if !stretched s p then s else match boundaryP s p with
    | some x => stretchStep x s
    | none => s

/-! ### Copy A in the housekeeping zone (R102, R103) -/

/-- The housekeeping data set at position `off` of an area: an INDEX data set in half-band geometry, with the area's DSN, PNUM 0xFF
and no partition's fields. From the third position on it is a retry (log 93). -/
def hkInst (h : Hk) : Inst :=
  { p := hkBase + (hkArea h).1 + h.off, dsn := (hkArea h).2 + h.off, kind := if 2 ≤ h.off then .retry else .closeB, half := true,
    fedRw := true }

def hkPayload (s : State) (h : Hk) : List Byte :=
  dsHeaderBytes { dsType := 2, geom := 1, pnum := 0xFF, dsn := (hkArea h).2 + h.off, streamLen := h.image.length, time := s.clk.devSec,
                  writer := s.vlt.devId } ++ h.image

/-- The tape leaves the housekeeping zone: the write gate closes and the tape comes to rest. -/
def hkLeave (s : State) : State :=
  let off := fun (c : Cart) => { c with hk := c.hk.map (fun h => { h with run := false }) }
  planTo 0 (setGate 7 true { s with cart := s.cart.map off, hwl.sending := false })

/-- The next position of copy A's area is fed as the write elements come to it, while every lane group may write (R133, R134);
otherwise the tape comes round again. It stays until the last position fed is written. -/
def hkFeed (s : State) : State :=
  match s.cart.bind (·.hk) with
  | none => s
  | some h =>
    let coming := decide (s.mot.move.status = 1) && s.mot.move.arriving && hkThere s h
    if s.trk.pass.isSome ∨ (!h.run ∧ !coming) ∨ (s.mot.move.status = 1 ∧ !coming) then s
    else if h.todo = 0 then (if s.hwl.sending then s else hkLeave s)
    else if !allLgUsable s then (if h.run then hkLeave s else s)
    else match (writeIndex s false 0 67184).map (fun (x : Int) => x - ((hkArea h).1 + h.off : Nat)) with
    | none => s
    | some d =>
      if d < 0 then s else if 0 < d then hkLeave s else
      let i := { hkInst h with zeroed := zeroedOf s 255 true 0 (hkInst h).dsn, dead := codecDead s }
      let pay := hkPayload s h
      let fed := { h with off := h.off + 1, todo := h.todo - 1, run := true, insts := h.insts ++ [i] }
      let s := { s with cart := s.cart.map (fun c => { c with hk := some fed }), hwl.sending := true,
                        lat.enc := s.lat.enc.filter (fun e => e.part ≠ 255 ∨ e.dsn ≠ i.dsn) ++ [⟨255, i.dsn, pay⟩] }
      let s := bump pgWLK 0xA1C 1024 (bump pgWLK 0xA00 1 s)
      let s := emit (.housekeeping ((hkArea h).1 + h.off) i.dsn pay) (if i.kind = .retry then bump pgWLK 0xA04 1 s else s)
      setGate 7 (rbit s pgSRV 0x108 0) s

/-- The tape is away from where a pass goes on: it coasts, or a positioning move lasts. A write pass begins while the move arrives:
the write elements run ahead of the trailing module, under which the target passes as the move ends (R135, R237). -/
def away (s : State) (kind : PassKind) : Bool :=
  s.mot.coast || (decide (s.mot.move.status = 1) && !(decide (kind = .write) && s.mot.move.arriving))

/-- A pass that is to start begins at this boundary: a write pass as the write elements come to its first position. -/
def beginsNow (s : State) (part : Fin 64) (kind : PassKind) (p : Nat) : Bool :=
  !away s kind && (decide (kind = .read) || (writeLag s part.val p).any (fun d => decide (0 ≤ d)))

/-- The step whose anti-alias corner a data set runs with: the pass's, of the pass that begins with it, or of copy A's writing (R145). -/
def aaStep (s : State) : Nat :=
  match s.trk.pass, s.trk.starting with
  | some _, _ => s.mot.spd.nreq
  | none, some (part, kind, p) => if beginsNow s part kind p then s.mot.spd.nreq else s.tim.aa
  | none, none => if hkOn s then s.mot.move.step else s.tim.aa

/-- The pass at a boundary: it ends where that is due, begins, or goes on. -/
def passBoundary (dead : Bool) (s : State) : State :=
  let s := match s.trk.pass, s.trk.starting with
    | none, some (part, kind, p) =>
      if beginsNow s part kind p ∧ !(s.trk.noPass ∧ kind = PassKind.write) then beginPass part kind p { s with trk.starting := none } else s
    | _, _ => s
  match s.trk.pass with
  | none => s
  | some p =>
    match p.endCause with
    | some c => endPass c s
    | none => if away s p.kind then s else match p.kind with
      | .write => writeBoundary dead s
      | .read => readBoundary p s

/-- The data set just read is over: copies framed before its DSN was known are of the DSN most of its headers name (R160). -/
def nameCopies (s : State) : State :=
  let name := fun (w : RxWord) => match w.dsn with
    | some _ => some w
    | none => (heardDsn s).map (fun d => { w with dsn := some d })
  let s := modPass (fun p => { p with rx := p.rx.filterMap name }) s
  { s with trk.heard := [] }

/-- Lattice cycle of a data set boundary: one tick after the master's last (R275, R278). -/
def boundaryCycle (s : State) : Nat :=
  match s.lat.master with
  | some k => sget 0 s.lat.tickAt k.val + (lgOf s k.val).per.headD 0
  | none => s.lat.now

/-- DATA_SET_BOUNDARY: the master DSB tick (R166, R278). What meets there applies in this order: lane-group sources,
zone word, WSKEW trim; then the power-fail latch (R587), or the pass. A pass runs with the anti-alias corner of its step (R145). -/
def dataSetBoundary (s : State) : State :=
  let s := nameCopies { s with lat.stepChg := false, lat.bound := true, mot.smpol := rget s pgMCE 0x3A0,
                               tim.aa := aaStep s }
  let held := (List.range (laneGroups s.variant)).filter (fun k => decide ((lgOf s k).st = .holdover))
  let s := (List.range (laneGroups s.variant)).foldl (fun s k => lgBoundary k s) s
  let stepped := held.filter (fun k => decide ((lgOf s k).st = .framed))
  let rev := match s.trk.cur with | some e => e.rev | none => travelRev s
  let s := trimBoundary rev stepped (zoneBoundary (chooseMaster s))
  let unerase := fun (x : Nat × Chan) => (x.1, { x.2 with erase := false })
  let s := { s with tim.chs := s.tim.chs.map unerase,
                    lat.detour := s.lat.detour.map (fun d => { d with ready := d.ready || decide (d.since + 16384 ≤ boundaryCycle s) }) }
  let s := speedGate (linkBoundary rev s)
  if s.top.pf ∧ !s.top.pfGate then govEnter 10 { s with top.pfGate := true }
  else unloadCheck (hkFeed (passBoundary (codecDead s) s))

def execDataSetBoundary (s : State) : Res := .next (dataSetBoundary s)

/-! ### The wrap plan and restarts -/

/-- A restart is possible: no pass, no move, and writing does not wait for a post (R202, R207, R310). -/
def mayStart (s : State) : Bool :=
  s.trk.pass.isNone && s.trk.starting.isNone && mceOn s && decide (s.mot.move.status ≠ 1) && !s.mot.coast

/-- The entry under which the next pass would start: the one in force while it still fits, else the next. -/
def startEntry (s : State) (write : Bool) : Option (PlanEntry × Nat) :=
  let fits := fun (e : PlanEntry) => if e.write ≠ write then none else
    match passStart s e with
    | some p => if entryFits s e e.part (if e.write then .write else .read) p then some (e, p) else none
    | none => none
  (s.trk.cur.bind fits).orElse (fun _ => s.trk.plan.head?.bind fits)

/-- The planner holds the tape at rest: a stop is completed before a restart (R261). -/
def planRests (s : State) : Bool := s.mot.plan.idle && decide (s.mot.plan.v = 0)

/-- BASIN_RESTART: writing resumes at the append point (R244, R261). -/
def basinRestart (s : State) : State :=
  if !mayStart s ∨ !planRests s ∨ s.trk.waitPost ∨ s.trk.noPass then s else
  match startEntry s true with
  | some (e, p) => if writeDue s e.part then seekPass e.part .write p true s else s
  | none => s

def execBasinRestart (s : State) : Res := .next (basinRestart s)

/-- READ_RESUME: the fill has fallen to TARGETe (R245). -/
def readResume (s : State) : State :=
  if !mayStart s then s else
  match startEntry s false with
  | some (e, p) =>
    if (sget none s.trk.readAt e.part.val).isSome ∧ fillOf s e.part.val .read ≤ targetE s e.part.val then
      seekPass e.part .read p true s
    else s
  | none => s

def execReadResume (s : State) : Res := .next (readResume s)

/-- A pass that waits at the end of the plan goes on under a new entry, as at the end of a coast (R35, R236). -/
def resumePlan (s : State) : State :=
  match s.trk.pass, s.trk.plan with
  | some p, e :: _ =>
    if s.mot.coast ∨ !mceOn s ∨ s.mot.move.status = 1 ∨ inEntry s p then s
    else turnCoastExpiry { (if breaksPass p e then endPass 8 s else s) with mot.coast := true }
  | _, _ => s

/-- WRAP_PLAN_POST (R34, R35, R672). An entry whose direction is not its wrap's is taken as it stands: R672 names no such refusal
(DESIGN CHOICE, log 98). The 8 entries that the queue holds are those that wait; the spec does not say whether the one in force counts
among them, and here it stands apart (DESIGN CHOICE, log 116). -/
def wrapPlanPost (e : PlanEntry) (s : State) : State :=
  let w := wpOf s (wrapPair e.wrap.val)
  if 8 ≤ s.trk.plan.length then raise pgWLK 10 s
  else if s.cart.isNone ∨ w.role ≠ .data ∨ w.pnum.toNat ≠ e.part.val then raise pgWLK 11 s
  else
    let renews := s.trk.waitPost && decide (s.trk.plan = []) && e.write && entryFits s e e.part .write (appendP s e.part.val)
    let s := if renews then loadZones { s with trk.cur := some e } else { s with trk.plan := s.trk.plan ++ [e] }
    let s := { s with trk.waitPost := false }
    if s.trk.pass.isSome then resumePlan s
    else if e.write then basinRestart s
    else if !mayStart s then s
    else match startEntry s false with
      | some (f, p) => seekPass f.part .read p true s
      | none => s

def execWrapPlanPost (e : PlanEntry) (s : State) : Res := .next (wrapPlanPost e s)

/-! ### Verify -/

/-- The verdict on a slot (R188, R189): its reason code, 0 when the codeword passes, and the margin where there is one. None while
nothing has been read of the slot. -/
def verdictOf (s : State) (i : Inst) (c slot : Nat) : Option (Nat × Option (BitVec 7)) :=
  let ph := instChan s i c
  let sub := if i.half then c / 128 else 0
  let got := sget none i.got (68 * c + slot)
  let m := got.bind (fun g => if g.conv then some g.margin else none)
  if (ph / 32, 68 * sub + slot) ∈ i.inh then some (1, m)
  else if !chanUsable s ph ∨ chanDead s ph ∨ c ∈ i.zeroed ∨ i.dead then some (2, m)
  else got.map (fun g =>
    (if g.noread then 2 else if 3 ≤ g.row then 3 else if !g.conv then 4 else if !g.same then 5
     else if g.weak then 6 else 0, m))

/-- VERIFY_VERDICT on a slot of the instance at partition position `pos` (R110), of logical channel `c`: every written slot gets one
verdict (R188 to R191). -/
def verifyVerdict (pos : Nat) (c : Fin 256) (slot : Fin 68) (s : State) : State :=
  match instAt s pos with
  | none => s
  | some i =>
    if 68 * c.val + slot.val ∈ i.seen then s else
    match verdictOf s i c.val slot.val with
    | none => s
    | some (r, m) =>
      let t := issueVerdict i c.val slot.val r m s
      if hkBase ≤ pos ∨ s.trk.pass.isNone then t else lateRetry (settlePass (judge t))

def execVerifyVerdict (pos : Nat) (c : Fin 256) (slot : Fin 68) (s : State) : Res := .next (verifyVerdict pos c slot s)

/-! ### Decoding on read -/

/-- The codewords of a data set that are resolved, by 256 × row + channel: their 432 bytes (R210). -/
abbrev Words := Sparse (Option (List Nat))

def wordAt (w : Words) (k c : Nat) : Option (List Nat) := sget none w (256 * k + c)

/-- Copies of a codeword, or of a SUPP slot, the last written first (R209). A header names the low 29 bits of the DSN. -/
def copiesAt (rx : List RxWord) (dsn k c : Nat) : List RxWord :=
  rx.filter (fun w => w.dsn.any (fun d => decide (d % 2 ^ 29 = dsn)) && decide (w.row = k) && decide (w.chan = c))

/-- The copies that are tried: up to the first that converges (R210). -/
def triedOf : List RxWord → List RxWord
  | [] => []
  | w :: r => if w.conv then [w] else w :: triedOf r

/-- The copies that an attempt tries of the codewords not yet resolved (R210). -/
def attempt (rx : List RxWord) (dsn : Nat) (w : Words) : List RxWord :=
  ((List.range 16384).filter (fun n => (sget none w n).isNone)).flatMap (fun n => triedOf (copiesAt rx dsn (n / 256) (n % 256)))

/-- What converged is resolved (R210, R212). -/
def resolve (ts : List RxWord) (w : Words) : Words :=
  (ts.filter (·.conv)).foldl (fun m x => sset none m (256 * x.row + x.chan) (some x.bytes)) w

/-- The copies of a channel's SUPP codewords that are tried: in turn, up to the first that does not converge (R210). -/
def suppTried (use : Bool) (rx : List RxWord) (dsn : Nat) : List RxWord :=
  if !use then [] else
  (List.range 256).flatMap (fun c =>
    let tried := (List.range 4).map (fun m => triedOf (copiesAt rx dsn (64 + m) c))
    ((tried.takeWhile (·.any (·.conv))).flatten) ++ ((tried.dropWhile (·.any (·.conv))).headD []))

/-- The leading SUPP slots of a channel that converged: `lead` of them (R210); none where USE_SUPP is 0 (R211). -/
def leadSupp (use : Bool) (rx : List RxWord) (dsn c : Nat) : List (List Nat) :=
  if !use then [] else
  (((List.range 4).map (fun m => (copiesAt rx dsn (64 + m) c).find? (·.conv))).takeWhile (·.isSome)).filterMap
    (fun x => x.map RxWord.bytes)

/-- C2 along a channel: its rows are resolved where every byte position decodes (R210, R211). -/
def c2Chan (supp : Nat → List (List Nat)) (w : Words) (c : Nat) : Words :=
  let rows := (List.range 64).map (fun k => wordAt w k c)
  let eras := (List.range 64).filter (fun k => (wordAt w k c).isNone)
  if eras = [] then w else
  let cols := (List.range 432).map (fun j => c2Decode (rows.map (fun r => coef (r.getD []) j)) ((supp c).map (fun x => coef x j)) eras)
  if cols.any (·.isNone) then w else
  (List.range 64).foldl (fun m k => sset none m (256 * k + c) (some (cols.map (fun x => coef (x.getD []) k)))) w

/-- C3 across a row: its channels are resolved where every symbol position decodes. -/
def c3Row (w : Words) (k : Nat) : Words :=
  let cells := (List.range 256).map (fun c => wordAt w k c)
  let eras := (List.range 256).filter (fun c => (wordAt w k c).isNone)
  if eras = [] then w else
  let syms := (List.range 216).map (fun j =>
    c3Decode (cells.map (fun r => 256 * coef (r.getD []) (2 * j) + coef (r.getD []) (2 * j + 1))) eras)
  if syms.any (·.isNone) then w else
  let bytes := fun (c : Nat) => syms.flatMap (fun x => [coef (x.getD []) c / 256, coef (x.getD []) c % 256])
  (List.range 256).foldl (fun m c => sset none m (256 * k + c) (some (bytes c))) w

/-- The outer decoding of an attempt: twice C2 over the channels, then C3 over the rows (R210); and whether C2 and C3 resolved anything,
be it a parity row or a parity channel only: a data set in which they did counts as needing them (R218; DESIGN CHOICE, log 113). -/
def outerDecode (supp : Nat → List (List Nat)) (w : Words) : Words × Bool × Bool :=
  let c2 := fun (w : Words) => (List.range 256).foldl (c2Chan supp) w
  let c3 := fun (w : Words) => (List.range 64).foldl c3Row w
  let grew := fun (x y : Words) => decide (x.length < y.length)
  let a := c2 w
  let b := c3 a
  let c := c2 b
  let d := c3 c
  (d, grew w a || grew b c, grew a b || grew c d)

/-- The data rows of the data channels are all resolved (R210). -/
def dataWhole (w : Words) : Bool :=
  (List.range 56).all (fun k => (List.range 240).all (fun c => (wordAt w k c).isSome))

/-- The derandomised payload: header and stream area (R83, R86, R210). -/
def payloadRead (dsn : Nat) (w : Words) : List Byte :=
  (List.range 56).flatMap (fun k => (List.range 240).flatMap (fun c =>
    (bitBytes 432 (randomise (rowKey dsn k c) (byteBits ((wordAt w k c).getD [])))).map (BitVec.ofNat 8)))

/-- Groups whose headers begin in a stream, from offset `off` on (R92, R94, R339). An LRN at or above `cut` has been
truncated away. -/
def parseRefs (bs : List Byte) (cut : Option Nat) : Nat → Nat → List GrpRef
  | 0, _ => []
  | n + 1, off =>
    let h := (bs.drop off).take 64
    if h.length < 64 then [] else
    let l := ghField h 8 6
    let k := ghField h 0x10 4
    let fl := ghField h 5 1
    let hi := l + k - 1
    let end_ := if fl / 2 % 2 = 1 then hi else hi + 1
    let rest := parseRefs bs cut n ((off + 64 + ghField h 0x18 4 + 15) / 16 * 16)
    match cut with
    | none => { off := off, lrn := l, endLrn := end_, hi := hi, contIn := decide (fl % 2 = 1) } :: rest
    | some z => if z ≤ l then rest
      else { off := off, lrn := l, endLrn := min end_ z, hi := min hi (z - 1), contIn := decide (fl % 2 = 1) } :: rest

/-- The LRN from which a data set of an earlier WGEN has been truncated since LOAD. -/
def cutFor (s : State) (part : Nat) (wgen : BitVec 64) : Option Nat :=
  match s.cart with
  | none => none
  | some c => (((sget [] c.cuts part).filter (fun x => decide (wgen.toNat < x.1.toNat))).map (·.2)).min?

/-- A decoded data set goes into a READAHEAD slot (R31, R210, R360, R514); `none` when no slot can be had. One that is no
DATA data set of the partition takes none, nor does one that a basin slot still holds from writing. Of several instances the last in
write order stands (R89). -/
def placeRead (p : Pass) (h : DsHeader) (stream : List Byte) (s : State) : Option State :=
  let part := p.part.val
  let mine := fun (x : Nat × Slot) => decide (x.2.part.val = part) && decide (x.2.dsn = some h.dsn) && decide (x.2.st ≠ .free)
  if h.dsType ≠ 1 ∨ h.pnum.toNat ≠ part then some s else
  match ownerPolder s part with
  | none => some s
  | some q =>
    let refs := match h.firstGrp with
      | some o => parseRefs stream (cutFor s part h.wgen) h.ngrp o
      | none => []
    let x : Slot := { st := .readAhead, polder := q, part := p.part, dsn := some h.dsn, wgen := h.wgen, lrnStart := h.lrnStart,
                      marks := h.marks, endLrn := (refs.map (·.endLrn)).foldl max 0, firstGrp := h.firstGrp, refs := refs,
                      stream := stream, keyFp := h.keyFp, owner := h.owner, encoded := true }
    let in_ := meter q.val (fun m => { m with tapeIn := m.tapeIn + stream.length })
    match s.bas.slots.find? mine with
    | some (i, y) => some (if y.st = .readAhead then in_ (setSlot i { x with retire := y.retire, order := y.order } s) else s)
    | none => (allocSlot q x s).map (fun y => in_ y.2)

/-- C1 results are counted by the channel that read the copy (R218, R421). -/
def countC1 (ts : List RxWord) (s : State) : State :=
  ts.foldl (fun s w =>
    let k := b2n (!w.conv)
    bump (pgRCH w.ch) (0xA44 + 4 * k) 1 (passCount (chanKey w.at_ k) 1 s)) s

/-- First LRN of the group that holds the byte after a decoded data set's stream (R92, R94, R213). -/
def nextGrpLrn (h : DsHeader) (stream : List Byte) : Nat :=
  let refs := match h.firstGrp with | some o => parseRefs stream none h.ngrp o | none => []
  match refs.getLast? with
  | none => h.lrnStart
  | some g => if h.streamLen < g.off + 64 + ghField ((stream.drop g.off).take 64) 0x18 4 then g.lrn else g.endLrn

/-- Change the losses of a partition. -/
def modLost (part : Nat) (f : List Loss → List Loss) (s : State) : State :=
  { s with cart := s.cart.map (fun c => { c with lost := smod [] c.lost part f }) }

/-- A decoded DATA data set that names a FIRSTGRP ends the losses before it, where none nearer has; what it holds itself is not lost
(R213). -/
def endLoss (part : Nat) (h : DsHeader) (s : State) : State :=
  let ends := fun (x : Loss) => if h.firstGrp.isSome ∧ x.dsn < h.dsn ∧ x.by_.all (fun d => decide (h.dsn < d)) = true
    then { x with stop := h.lrnStart, by_ := some h.dsn } else x
  if h.dsType ≠ 1 then s else modLost part (fun l => (l.filter (fun x => decide (x.dsn ≠ h.dsn))).map ends) s

/-- A granule without an entry is entered as its data set is read: an index rebuilt by a scan has none (R110, R592). -/
def learnGran (part : Nat) (h : DsHeader) (p : Nat) (s : State) : State :=
  match pposAt s part p with
  | some (w, x) => if h.dsType ≠ 1 then s else foundGran part p ⟨h.dsn, h.lrnStart, h.marks, w, x⟩ s
  | none => s

/-- The pass goes on to the next position in use; it stops at the end of data (R100, R245). Copies of data sets gone by are let go. -/
def nextRead (dsn : Nat) (s : State) : State :=
  let ahead := fun (w : RxWord) => w.dsn.all (fun d =>
    let k := (d + 2 ^ 29 - dsn % 2 ^ 29) % 2 ^ 29
    decide (k ≠ 0) && decide (k < 2 ^ 28))
  let upd := fun (p : Pass) =>
    let q := skipClosed s p.part.val (p.nextP + 1)
    { p with nextP := q, half := halfOf s p.part.val q, lastDsn := dsn, firstDsn := p.firstDsn.orElse (fun _ => some dsn),
             rereads := 0, rereadDsn := none, rereading := false, kept := [], c2 := false, c3 := false, rx := p.rx.filter ahead }
  let s := modPass upd s
  match s.trk.pass with
  | some p => if appendP s p.part.val ≤ p.nextP then stopRead s else s
  | none => s

/-- A re-read of the data set at the next position (R154, R210, R212, R237, R238). -/
def startReread (p : Pass) (dsn n : Nat) (w : Words) (c2 c3 : Bool) (s : State) : State :=
  let s := passCount 3 1 (bump pgWLK 0xA2C 1 s)
  let s := modPass (fun p => { p with rereads := n + 1, rereadDsn := some dsn, rereading := true, kept := w, c2 := c2, c3 := c3, rx := [],
                                      strP := p.nextP, strN := 0, strK := 0, h1 := false }) s
  match s.trk.cur, pposAt s p.part.val p.nextP with
  | some e, some (w, x) =>
    let step := rfld s pgMCE 0x398 20 16
    let s := startMove (posCpos e.rev p.half x) e.band (planHalf s) (wrapTrack w) e.rev step (ownerPolder s p.part.val) s
    { s with mot.spd.nreq := step }
  | _, _ => s

/-- The whole DSN of which a header names the low 29 bits: the highest that the partition has issued (DEDUCED, log 99). -/
def wholeDsn (s : State) (part dsn : Nat) : Nat :=
  let top := (partEntry s part).nextDsn - 1
  if top < dsn then dsn else top - (top - dsn) % 2 ^ 29

/-- The losses of a partition that no later data set has ended yet, below a DSN. -/
def openLosses (s : State) (part dsn : Nat) : List Loss :=
  match s.cart with
  | none => []
  | some c => (sget [] c.lost part).filter (fun x => x.by_.isNone && decide (x.dsn < dsn))

/-- Where a loss begins: at the group that holds the data set's first stream byte, which lies in a loss before it while that is
open. Where the pass has decoded nothing before it, at the last granule entry below it (DESIGN CHOICE, log 99). -/
def lossStart (s : State) (p : Pass) (dsn : Nat) : Nat :=
  match ((openLosses s p.part.val dsn).getLast?.map Loss.start).orElse (fun _ => p.grpLrn) with
  | some l => l
  | none => match s.cart with
    | none => 0
    | some c => ((granOf c.gran p.part.val).filter (fun g => decide (g.dsn ≤ dsn))).foldl (fun m g => max m g.lrn) 0

/-- The nearest later DATA data set, naming a FIRSTGRP, that the basin holds decoded. -/
def laterRead (s : State) (part dsn : Nat) : Option Slot :=
  ((slotsIn s part .readAhead).map (·.2)).foldl (fun (b : Option Slot) x =>
    if x.firstGrp.isNone ∨ !x.dsn.any (fun d => decide (dsn < d)) then b else
    match b with
    | some y => if x.dsn.getD 0 < y.dsn.getD 0 then some x else b
    | none => some x) none

/-- A data set is unrecoverable (R213). The loss stands open until a later data set ends it. -/
def unrecoverable (p : Pass) (dsn : Nat) (s : State) : State :=
  let part := p.part.val
  let s := passCount 4 1 (bump pgWLK 0xA30 1 (rset s pgWLK 0x608 (BitVec.ofNat 32 dsn)))
  let s := raise pgWLK 4 (rset s pgWLK 0x60C (BitVec.ofNat 32 part))
  let x : Loss := match laterRead s part dsn with
    | some y => ⟨lossStart s p dsn, y.lrnStart, dsn, y.dsn⟩
    | none => ⟨lossStart s p dsn, eodLrn s part, dsn, none⟩
  modLost part (fun l => l.filter (fun y => decide (y.dsn ≠ dsn)) ++ [x]) s

/-- A decoded data set is delivered (R210, R213). -/
def deliver (p : Pass) (h : DsHeader) (stream : List Byte) (c2 c3 : Bool) (s : State) : State :=
  match placeRead p h stream s with
  | none => stopRead s
  | some s =>
    let s := passCount 0 1 (bump pgWLK 0xA20 1 s)
    let s := if c2 then passCount 1 1 (bump pgWLK 0xA24 1 s) else s
    let s := if c3 then passCount 2 1 (bump pgWLK 0xA28 1 s) else s
    let s := learnGran p.part.val h p.nextP (endLoss p.part.val h s)
    let s := if h.dsType = 1 then modPass (fun p => { p with grpLrn := some (nextGrpLrn h stream) }) s else s
    nextRead h.dsn s

/-- The copies of the data set at the next position can be decoded: its re-read has come to its place, and of a stretch its H1
channels have been read too (R101, R212). While a codec tile is fenced without a detour they wait (R304). -/
def decodable (s : State) (p : Pass) : Bool :=
  decide (p.kind = .read) && !(p.rereading && decide (s.mot.move.status = 1)) && inEntry s p && !codecDead s &&
  (!stretched s p || decide (p.nextP < p.strP + p.strK))

/-- DATA_SET_DECODE: one attempt at the data set at the read pass's next position, whose headers name `dsn` (R209 to R213). While a data
set is re-read, those that follow it are held (R212). A data set whose header does not hold its CRC is unrecoverable (DESIGN CHOICE, log 99). -/
def dataSetDecode (dsn : BitVec 29) (s : State) : State :=
  match s.trk.pass with
  | none => s
  | some p =>
    if !decodable s p then s else
    let d := dsn.toNat
    if p.rereading ∧ p.rereadDsn ≠ some d then s else
    let use := rbit s pgWLK 0x104 8
    let n := p.rereads
    let ts := attempt p.rx d p.kept
    let s := countC1 (ts ++ suppTried use p.rx d) s
    let (w, c2, c3) := outerDecode (leadSupp use p.rx d) (resolve ts p.kept)
    let (c2, c3) := (c2 || p.c2, c3 || p.c3)
    if !dataWhole w then
      if n < rfld s pgWLK 0x104 3 0 then startReread p d n w c2 c3 s
      else nextRead (wholeDsn s p.part.val d) (unrecoverable p (wholeDsn s p.part.val d) s)
    else
      let pay := payloadRead d w
      match readDsHeader pay with
      | some h => deliver p h ((pay.drop 512).take h.streamLen) c2 c3 s
      | none => nextRead (wholeDsn s p.part.val d) (unrecoverable p (wholeDsn s p.part.val d) s)

def execDataSetDecode (dsn : BitVec 29) (s : State) : Res := .next (dataSetDecode dsn s)

end Sys2Proof.Machine
end

