-- ==== Sys2Proof/Machine/Lattice.lean ====
section
/-! DEFINITION. The lattice's fences and detours (R302 to R311) and the loading and switching of schedule images (R296 to
R301). -/

namespace Sys2Proof.Machine

/-! ### Fences and detours -/

/-- LAT_FENCE: a write of LAT.FENCE (R302 reason 8, R313). -/
def latFence (v : Word) (s : State) : State :=
  let s := touchPage pgLAT s
  if !bit v 15 ∨ 320 ≤ bits v 8 0 then s else fenceTile (bits v 8 0) 8 s

def execLatFence (v : Word) (s : State) : Res := .next (latFence v s)

/-- TILE_OVERRUN: an allocated tile reaches LEN without END (R302 reason 1). -/
def tileOverrun (t : Fin 320) (s : State) : State :=
  let x := tileOf s t.val
  if x.role = 0 ∨ 5 ≤ x.role then s
  else fenceTile t.val 1 { s with lat.now := max s.lat.now ((x.start.getD 0) + x.len) }

def execTileOverrun (t : Fin 320) (s : State) : Res := .next (tileOverrun t s)

/-- DETOUR_ACTIVE: a staged detour goes into use at a data set boundary (R307, R308), after any reload of the area it is
staged from (R545). -/
def detourActive (s : State) : State :=
  match s.lat.detour with
  | none => s
  | some d =>
    if d.active ∨ !d.ready ∨ d.role = 4 ∨ !s.lat.bound ∨ s.lat.sched.area ∈ s.lat.sched.reload then s else activateDetour d s

def execDetourActive (s : State) : Res := .next (detourActive s)

/-- REGENERATION_DONE: the data set at the head of the list is whole again (R308). -/
def regenerationDone (dsn : Nat) (s : State) : State :=
  match s.lat.detour with
  | some d => if d.active ∧ d.regen.head?.map (·.2) = some dsn then regenNext s else s
  | none => s

def execRegenerationDone (dsn : Nat) (s : State) : Res := .next (regenerationDone dsn s)

/-! ### Loading -/

/-- A load begins; what STANDBY held is discarded (R297). -/
def startLoad (sram auto : Bool) (addr : Nat) (s : State) : State :=
  bump pgSCH 0xA00 1 { s with lat.sched := { s.lat.sched with phase := 1, reject := 0, rejTile := 0, auto := auto, go := false, fromSram := sram,
                                                              addr := addr, standby := none, waitRaised := false, told := false } }

/-- SCHED_LOAD_GO: a write of LDCTL with GO, while the loader is enabled (R297, R314, R315). -/
def schedLoadGo (v : Word) (s : State) : State :=
  let s := touchPage pgSCH s
  if !bit v 0 ∨ !pageEn s pgSCH then s else startLoad (rbit s pgSCH 0x100 0) (bit v 1) (rfld s pgSCH 0x104 31 0) s

def execSchedLoadGo (v : Word) (s : State) : Res := .next (schedLoadGo v s)

/-- SCHED_LOAD_CANCEL: STANDBY is discarded (R314). A SCHED_SELECT that waited for it ends IMAGE_INVALID (log 45). -/
def schedLoadCancel (s : State) : State :=
  let s := touchPage pgSCH s
  let h := s.lat.sched.cmd
  let s := { s with lat.sched := { s.lat.sched with phase := 0, go := false, standby := none, cmd := none, waitRaised := false } }
  match h with
  | some h => done h stIMAGE_INVALID 0 s
  | none => s

def execSchedLoadCancel (s : State) : Res := .next (schedLoadCancel s)

/-- The fenced tiles that an image allocates, in order. -/
def fencedUses (s : State) (img : SchedImage) : List Nat := (allocatedTiles img).filter (fun t => decide ((tileOf s t).reason ≠ 0))

/-- VARIANT of R289. -/
def variantCode (v : Variant) : Byte := match v with | .ac => 0 | .hc => 1

/-- The first check of R297 that an image fails. -/
def imageCheck (s : State) (img : SchedImage) : Option Nat :=
  if !img.copyOk then some 0x01
  else if img.magic ≠ 0x49535A47 ∨ img.fmtVer ≠ 1 ∨ img.latRev ≠ 1 then some 0x02
  else if img.variant ≠ variantCode s.variant then some 0x03
  else if !imgBounds img then some 0x04
  else if 1 < img.keyId.toNat ∨ (img.keyId = 1 ∧ !makerEnrolled s) then some 0x05
  else if !img.sigOk then some 0x06
  else if !img.sects.all (·.crcOk) then some 0x07
  else if !imgRoles s.variant img then some 0x08
  else if img.vfyIter ≠ 4 ∨ img.rdIter.toNat < 4 ∨ 16 < img.rdIter.toNat ∨ img.verdictTicks = 0 ∨ 3 < img.verdictTicks.toNat then some 0x09
  else if img.speedCap.toNat < speedMax s ∨ img.qtol.toNat < 200 ∨ img.regenTicks = 0 ∨ 32 < img.regenTicks.toNat then some 0x0A
  else if !imgBudgets img then some 0x0B
  else if !imgRoutes img then some 0x0C
  else if !imgOwners img then some 0x0D
  else if !imgDetours img then some 0x0E
  else if fencedUses s img ≠ [] then some 0x0F
  else if !crestSealed s then some 0x10
  else none

/-- LOAD_DONE: the load's checks and its staging end (R297, R298, R299); with AUTOSWITCH the switch is requested. -/
def loadDone (copyOk : Bool) (s : State) : State :=
  if s.lat.sched.phase ≠ 1 then s else
  let img := loadedImage s copyOk
  match imageCheck s img with
  | some code => rejectLoad code ((fencedUses s img).headD 0) s
  | none => stageImage { s with lat.sched := { s.lat.sched with standby := some img, go := s.lat.sched.auto } }

def execLoadDone (copyOk : Bool) (s : State) : Res := .next (loadDone copyOk s)

/-- SCHED_SWITCH_GO: a write of SWCTL with GO (R299). -/
def schedSwitchGo (s : State) : State :=
  let s := touchPage pgSCH s
  if s.lat.sched.phase = 3 ∨ s.lat.sched.phase = 4 then requestSwitch s else s

def execSchedSwitchGo (s : State) : Res := .next (schedSwitchGo s)

/-- Every tile starts from its initial data (R300, R301). -/
def applyInit (img : SchedImage) (s : State) : State :=
  (allocatedTiles img).foldl (fun s t =>
    setTile t { tileOf s t with sram := writeBytes 0 [] 0 (initData img (imgTile img t)), mbox := [], recv := none } s) s

/-- Every tile's banks change places at once. -/
def swapAll (s : State) : State :=
  (List.range 320).foldl (fun s t => setTile t { swapBanks (tileOf s t) with start := none } s) s

/-- An image comes into use: ACTIVE and STANDBY change places, and each tile's banks with its next tick that switches (R299, R494). Tile
SRAM carries over, unless the layouts differ or no image was running: then the tiles start from their initial data (R299 to R301). -/
def switchTo (img : SchedImage) (s : State) : State :=
  let c := s.lat.sched
  let s := if compatible s img then markDue (List.range 320) s else applyInit img (swapAll s)
  let s := { s with lat.sched := { c with running := some img, standby := c.running, area := !c.area, fromSram := c.runSram, addr := c.runAddr,
                                          runSram := c.fromSram, runAddr := c.addr, phase := 0,
                                          go := false, waitRaised := false },
                    lat.detour := none, trk.noPass := false }
  schedComplete img false (dropQuotes (fun _ => true) (raise pgSCH 2 (bump pgSCH 0xA08 1 s)))

/-- The track side is idle, the MCE is disabled and the tape rests (R300). -/
def trackIdle (s : State) : Bool := s.trk.pass.isNone && !pageEn s pgMCE && decide (s.mot.meas.speed = 0)

/-- IMAGE_SWITCH: at a data set boundary; with another STATECOMPAT when the track side is idle; with no image running at once (R299,
R300, R301, R311). -/
def imageSwitch (s : State) : State :=
  match s.lat.sched.standby with
  | none => s
  | some img =>
    let c := s.lat.sched
    let may := c.running.isNone || (if compatible s img then s.lat.bound else trackIdle s)
    if !c.go ∨ !(c.phase = 4 ∨ c.phase = 5) ∨ s.top.pfGate ∨ !may then s else switchTo img s

def execImageSwitch (s : State) : Res := .next (imageSwitch s)

end Sys2Proof.Machine
end

