-- ==== Sys2Proof/Machine/Integrity.lean ====
section
/-! DEFINITION. Memory integrity and containment (R527 to R553, R560): what a protected word's read brings, the repeat
table and its actions, software passes, the parity sweep, fences and their release. A word's address in the repeat
table is the model's own numbering where the spec gives none (log 46). -/

namespace Sys2Proof.Machine

/-! ### Where a word lies -/

/-- Memory ID of R527 and word address of a place (log 46). A tile's banks are told apart by area, not by use. -/
def placeWord (s : State) : MemPlace → Nat × Nat
  | .staging a => (1, a / 8)
  | .tileData t w => (2, 32768 * t.val + w)
  | .tileInstr t w sb => (3, bankWord s t.val w sb)
  | .tileRoute t w sb => (4, bankWord s t.val w sb)
  | .coreMem _ a _ => (5, a / 8)
  | .engineBuffer u w => (6, 2 ^ 20 * u.toNat + w)
  | .engineContext p w => (6, 2 ^ 36 + 2 ^ 20 * p.val + w)
  | .basinTable w => (6, 2 ^ 37 + w)
  | .queueTable w => (6, 2 ^ 38 + w)
  | .zoneCache w => (6, 2 ^ 39 + w)
  | .netBuffer p w => (7, 2 ^ 20 * p.val + w)
  | .basin sl ch _ _ => (8, 196608 * sl.val + ch)
  | .mram w => (12, w)
  | .evlog w => (13, w)
  | .dump w => (13, 32768 + w)
  | .timeSlotBank => (6, 2 ^ 40)
  | .schedImage sb w => (9, 1572864 * b2n (s.lat.sched.area != sb) + w)
where
  bankWord (s : State) (t w : Nat) (standby : Bool) : Nat :=
    2 ^ 20 * t + 2 ^ 19 * b2n ((tileOf s t).bank != standby) + w

/-- Pseudo-channel of a basin slot's chunk: 32 to a stack, and slots 4,096 to a stack (R357, R533; the numbering is PRESUMED, log 128). -/
def pseudoChannel (slot : Fin 8192) (channel : Fin 32) : Nat := 32 * (slot.val / 4096) + channel.val

/-- The enable that the scrubber's reads of a memory stand under (R561); schedule-image memory is read for staging. -/
def scrubOn (s : State) (mem : Nat) : Bool :=
  if mem = 9 then true else rbit s pgMEM 0x100 (if mem = 8 then 0 else if mem = 12 then 2 else 1)

/-! ### The repeat table -/

/-- A copy of a row into a spare row begins, unless its bank has none left (R541). -/
def rowRepair (mem addr : Nat) (s : State) : State :=
  let bank := 2 ^ 28 * mem + addr / 4096
  let row := addr % 4096 / 8
  if (bank, row) ∈ s.itg.copies then s
  else if 2 ≤ sget 0 s.itg.spares bank then raise pgMEM 3 s
  else { s with itg.spares := smod 0 s.itg.spares bank (· + 1), itg.copies := s.itg.copies ++ [(bank, row)] }

/-- A tile's failing bank is to be restaged, while it is the ACTIVE one (R542). -/
def needTileReload (standby : Bool) (t : Nat) (s : State) : State :=
  if standby then s else setTile t { tileOf s t with reload := true } s

/-- The area of the schedule-image memory is to be read again from flash (R543). -/
def needAreaReload (standby : Bool) (s : State) : State :=
  let c := s.lat.sched
  let a := c.area != standby
  if (if standby then c.fromSram else c.runSram) then raise pgMEM 7 s
  else if a ∈ c.reload then s else { s with lat.sched.reload := c.reload ++ [a] }

/-- REPEAT_ACTION on a word (R540). -/
def repeatAct (mem addr : Nat) (place : Option MemPlace) (s : State) : State :=
  let s := raise pgMEM 2 s
  match mem with
  | 8 => if addr / 196608 < 8160 then chooseRetire (addr / 196608) s else raise pgMEM 1 s
  | 3 => match place with | some (.tileInstr t _ sb) => needTileReload sb t.val s | _ => s
  | 4 => match place with | some (.tileRoute t _ sb) => needTileReload sb t.val s | _ => s
  | 9 => needAreaReload (s.lat.sched.area == decide (addr < 1572864)) s
  | 10 => s
  | 11 => s
  | 12 => s
  | _ => rowRepair mem addr s

/-- The entry that gives way: the lowest count, the oldest on a tie (R539). -/
def lowest (l : List RepEntry) : Option RepEntry :=
  l.foldl (fun b e => match b with | none => some e | some x => if e.count < x.count then some e else b) none

/-- Count a correction of a word in the repeat table; at TH it acts (R539, R540). -/
def noteRepeat (mem addr : Nat) (place : Option MemPlace) (s : State) : State :=
  let th := rfld s pgMEM 0x10C 7 0
  let s := match s.itg.rep.find? (fun e => e.mem = mem ∧ e.addr = addr) with
    | some _ =>
      let upd := fun (e : RepEntry) => if e.mem = mem ∧ e.addr = addr then { e with count := e.count + 1 } else e
      { s with itg.rep := s.itg.rep.map upd }
    | none =>
      let s := if s.itg.rep.length < 64 then s else
        match lowest s.itg.rep with
        | none => s
        | some e => bump pgMEM 0xA1C 1 { s with itg.rep := s.itg.rep.filter (· ≠ e) }
      let e : RepEntry := { mem := mem, addr := addr, count := 1 }
      { s with itg.rep := s.itg.rep ++ [e] }
  if s.itg.rep.any (fun e => decide (e.mem = mem) && decide (e.addr = addr) && decide (th ≤ e.count)) then
    repeatAct mem addr place { s with itg.rep := s.itg.rep.filter (fun e => !(decide (e.mem = mem) && decide (e.addr = addr))) }
  else s

/-! ### Corrected words -/

/-- A lane is marked: the entries held for its chunks are freed (R533). -/
def markLane (pc sym : Nat) (s : State) : State :=
  raise pgMEM 4 { s with itg.marks := sset none s.itg.marks pc (some sym),
                         itg.rep := s.itg.rep.filter (fun e => decide (e.lane ≠ some (pc, sym))) }

/-- A chunk's entry notes the lane of its correction, whose mark frees it (R533). -/
def noteLane (chunk pc sym : Nat) (s : State) : State :=
  { s with itg.rep := s.itg.rep.map (fun e => if e.mem = 8 ∧ e.addr = chunk then { e with lane := some (pc, sym) } else e) }

/-- A corrected basin chunk: lane counting, then the repeat table (R530, R533). -/
def basinCorrected (pc sym chunk : Nat) (s : State) : State :=
  let s := raise pgMEM 0 (bump pgMEM 0xA00 1 s)
  let mark := sget none s.itg.marks pc
  if mark = some sym then s else
  let fresh := (pc, sym, chunk) ∉ s.itg.laneSeen
  let s := if fresh then { s with itg.laneSeen := s.itg.laneSeen ++ [(pc, sym, chunk)] } else s
  let n := (s.itg.laneSeen.filter (fun x => x.1 = pc ∧ x.2.1 = sym)).length
  let th := rfld s pgMEM 0x10C 15 8
  if mark.isNone ∧ th ≤ n then markLane pc sym s
  else noteLane chunk pc sym (noteRepeat 8 chunk none (if mark.isSome ∧ fresh ∧ n = th then raise pgMEM 5 s else s))

/-- A corrected word (R528, R533, R539, R557). -/
def wordCorrected (place : MemPlace) (sym : Nat) (s : State) : State :=
  let (mem, addr) := placeWord s place
  match place with
  | .basin sl _ ch _ => basinCorrected (pseudoChannel sl ch) sym addr s
  | _ =>
    let tile := match place with
      | .tileData t _ => some t.val
      | .tileInstr t _ _ => some t.val
      | .tileRoute t _ _ => some t.val
      | _ => none
    let s := match tile with | some t => setTile t { tileOf s t with corr := (tileOf s t).corr + 1 } s | none => s
    noteRepeat mem addr (some place) (raise pgMEM 0 (bump pgMEM 0xA08 1 s))

/-! ### Uncorrectable words -/

/-- Note an on-chip word that cannot be read (R545); reading it halts a DMA channel. -/
def badWord (sp word : Nat) (s : State) : State :=
  if (sp, word) ∈ s.itg.bad then s else { s with itg.bad := s.itg.bad ++ [(sp, word)] }

/-- An intake ring word turns bad: the consumer word that holds it is POISON (R322, R545). -/
def ringUncorr (p a : Nat) (s : State) : State :=
  match ringItem s p a with
  | none => s
  | some (i, d) =>
    let hit := if i.bytes = [] then { i with poison := true }
      else { i with bad := i.bad ++ (if d < 8 then [0] else (List.range 8).map (fun k => d / 8 * 8 - 8 + k)) }
    let r := riqOf s p
    setRiq p { r with items := r.items.map (fun x => if x = i then hit else x) } s

/-- A pool buffer turns bad: the confirmed, unplaced group that it stages fails; a read's group is processed again from its basin
slot (R545). -/
def bufferUncorr (kb : Nat) (s : State) : State :=
  let p := (sget {} s.rcd.bufs kb).pol.toNat
  match (riqOf s p).grps.find? (fun g => decide (g.stage = .confirmed) && decide (kb ∈ g.bufs)) with
  | some g => failGrp p g stGROUP_FAIL s
  | none =>
    let hs := (s.rcd.reads.filter (fun j => decide (kb ∈ j.bufs))).map (·.h)
    let again := fun (j : ReadJob) => if j.h ∈ hs then { j with stage := .find, redo := true, frame := [] } else j
    let idle := fun (x : Nat × Engine) => !(x.2.read && decide (x.2.job ∈ hs))
    { s with rcd.reads := s.rcd.reads.map again, rcd.cry := s.rcd.cry.filter idle, rcd.dcp := s.rcd.dcp.filter idle }

/-- The pool buffer over a staging address. -/
def bufferAt (s : State) (a : Nat) : Option Nat :=
  (List.range 5).findSome? fun k =>
    let b := poolBase s k
    let i := (a - b) / poolBytes k
    if b ≤ a ∧ i < poolCount s k ∧ (bufOf s k i).alloc then some (bufKey k i) else none

/-- An uncorrectable staging word, by what holds the address (R545). -/
def stagingUncorr (a : Nat) (s : State) : State :=
  match ringAt s a, bufferAt s a with
  | some p, _ => ringUncorr p a s
  | none, some b => bufferUncorr b (badWord 1 (a / 8) s)
  | none, none => badWord 1 (a / 8) s

/-- An uncorrectable chunk of a basin slot, payload or both metadata copies, by the slot's state (R31, R545, R546). -/
def slotUncorr (i : Nat) (s : State) : State :=
  let x := slotOf s i
  match x.st with
  | .filling => poisonSlot i s
  | .full => if x.encoded then setSlot i { x with bad := true } s else poisonSlot i s
  | .onTape => setSlot i { x with bad := true } s
  | .readAhead => freeSlot i s
  | _ => s

/-- An uncorrectable chunk of the system region: a zone word reads as not valid, so that DEFZONE is used; the index
working copy gives no generation any more (R545). -/
def sysUncorr (a : Nat) (zone : Bool) (s : State) : State :=
  let s := (List.range 4).foldl (fun s k => badWord 3 (a / 8 + k) s) s
  if zone then { s with mem.sysRegion := writeBytes 0 s.mem.sysRegion a (List.replicate 32 0) }
  else { s with cart := s.cart.map (fun c => { c with indexBad := true }) }

/-- A fence of an engine by its unit code, when its buffer turns bad (R545, R547). -/
def engineUncorr (u : Nat) (s : State) : State :=
  let n := u % 4096
  if u / 4096 = 3 ∧ n < 32 then fenceCmp n 2 s
  else if u / 4096 = 4 ∧ n < 32 then fenceDcp n 2 s
  else if u / 4096 = 5 ∧ n < 12 then fenceCry n 2 s else s

/-- A local interrupt 16 of a control core: its dirty line was lost (R545). -/
def lineLost (h : Fin 4) (s : State) : State :=
  { s with top.harts := smod {} s.top.harts h.val (fun x => { x with lint16 := true }) }

/-- What an uncorrectable word has as its outcome (R545). -/
def uncorrOutcome (place : MemPlace) (s : State) : State :=
  match place with
  | .staging a => stagingUncorr a s
  | .tileData t _ => fenceTile t.val 7 s
  | .tileInstr t _ standby => if standby then s else fenceTile t.val 6 s
  | .tileRoute t _ standby => if standby then s else fenceTile t.val 5 s
  | .coreMem h a dirty => if dirty then lineLost h s else badWord 2 (a / 8) s
  | .engineBuffer u _ => engineUncorr u.toNat s
  | .engineContext p _ => fencePolder p.val 2 s
  | .basinTable _ => fatal 2 0xFFFF s
  | .queueTable _ => fatal 3 0xFFFF s
  | .zoneCache w => fetchRow (w / 128) s
  | .netBuffer p _ => fenceNet p.val 7 s
  | .basin sl ch _ zone =>
    if sl.val < 8160 then slotUncorr sl.val s else sysUncorr (6291456 * (sl.val - 8160) + 32 * ch) zone s
  | .mram _ => s
  | .evlog w =>
    let i := w / 2
    let n := s.rf.evlog.length
    if i < n then { s with rf.evlog := s.rf.evlog.take (n - 1 - i) ++
      [zeroHalf (w % 2 = 1) ((s.rf.evlog.drop (n - 1 - i)).headD ⟨0, 0, 0, false, 0, 0⟩)] ++ s.rf.evlog.drop (n - i) } else s
  | .dump w => { s with mem.dump := writeBytes 0 s.mem.dump (8 * w) (List.replicate 8 0) }
  | .timeSlotBank => fatal 4 0xFFFF s
  | .schedImage standby _ => imageUncorr standby s
where
  /-- One of the two words of an event log entry is zeroed (R558). -/
  zeroHalf (second : Bool) (e : EvEntry) : EvEntry :=
    if second then ⟨e.ctr, 0, 0, false, 0, 0⟩ else { e with ctr := 0 }
  /-- Schedule-image memory read for staging: the ACTIVE area is read again from flash, a staged image is lost. -/
  imageUncorr (standby : Bool) (s : State) : State :=
    if !standby then needAreaReload false s
    else if 1 ≤ s.lat.sched.phase ∧ s.lat.sched.phase ≤ 5 then rejectLoad 1 0 s else { s with lat.sched.standby := none }

/-- An uncorrectable word is counted and has its outcome (R528, R530, R545). -/
def wordUncorrectable (place : MemPlace) (s : State) : State :=
  let c := match place with | .basin _ _ _ _ => 0xA04 | _ => 0xA0C
  uncorrOutcome place (raise pgMEM 1 (bump pgMEM c 1 s))

/-! ### Scrubbing -/

/-- The basin pass moves on; at a lower slot than the last a new pass has begun (R532, R533, R561). -/
def scrubMove (place : MemPlace) (s : State) : State :=
  match place with
  | .basin sl _ _ _ =>
    if sl.val < s.itg.scrubSlot then
      { s with itg.scrubSlot := sl.val, itg.scrubPass := (s.itg.scrubPass + 1) % 65536, itg.laneSeen := [] }
    else { s with itg.scrubSlot := sl.val }
  | _ => s

/-- A chunk of a slot's metadata, which stands in two copies (R357, R531). -/
def inMeta (place : MemPlace) : Bool :=
  match place with | .basin sl ch _ _ => decide (sl.val < 8160) && decide (181440 ≤ ch) | _ => false

/-- What the read of a word delivers (R528, R530, R533). Metadata is uncorrectable only in both copies: one is corrected from the other, at
no symbol of its own (R531, log 109). -/
def readOutcome (s : State) (place : MemPlace) (errs : WordErrs) : EccOutcome :=
  match place, errs with
  | .basin sl _ ch _, .symbols e o =>
    let mark := (sget none s.itg.marks (pseudoChannel sl ch)).map (Fin.ofNat 36)
    let mine := chunkDecode mark e
    if inMeta place ∧ mine = .uncorrectable ∧ chunkDecode mark o ≠ .uncorrectable then .clean else mine
  | _, .bits n => secded (freeVal s) n
  | _, .symbols e _ => secded (freeVal s) e.length

/-- SCRUB_READ: a word of a protected memory is read (R532, R533, R545). -/
def scrubRead (place : MemPlace) (errs : WordErrs) (s : State) : State :=
  if !scrubOn s (placeWord s place).1 then s else
  let s := scrubMove place s
  match readOutcome s place errs with
  | .clean => s
  | .corrected sym => wordCorrected place sym.val s
  | .uncorrectable => wordUncorrectable place s

def execScrubRead (place : MemPlace) (errs : WordErrs) (s : State) : Res := .next (scrubRead place errs s)

/-- REPEAT_DECAY: an entry without a correction for DECAY hours is freed; DECAY 0 keeps it (R539). -/
def repeatDecay (i : Fin 64) (s : State) : State :=
  if rfld s pgMEM 0x10C 31 16 = 0 then s else { s with itg.rep := s.itg.rep.eraseIdx i.val }

def execRepeatDecay (i : Fin 64) (s : State) : Res := .next (repeatDecay i s)

/-- SPARE_ROW_REMAP: the copy of a row is done and the address remaps (R541). -/
def spareRowRemap (bank row : Nat) (s : State) : State :=
  if (bank, row) ∉ s.itg.copies then s
  else bump pgMEM 0xA10 1 { s with itg.copies := s.itg.copies.filter (· ≠ (bank, row)) }

def execSpareRowRemap (bank row : Nat) (s : State) : Res := .next (spareRowRemap bank row s)

/-- TILE_RELOAD: the failing bank, staged anew into the standby bank, switches in at the tile's next SWITCH tick, unless an image is
staged, a detour is pending or a switch waits (R542, R560). -/
def tileReload (t : Fin 320) (s : State) : State :=
  let x := tileOf s t.val
  let ph := s.lat.sched.phase
  if !x.reload ∨ x.due ∨ (3 ≤ ph ∧ ph ≤ 5) ∨ detourPending s then s
  else bump pgMEM 0xA18 1 (markDue [t.val] (setTile t.val { x with reload := false, stby := x.act } s))

def execTileReload (t : Fin 320) (s : State) : Res := .next (tileReload t s)

/-- An area's image read again from the flash offset of its load measures what the area's does; one loaded from staging SRAM
is not read again (R543). -/
def areaReadsBack (s : State) (area : Bool) : Bool :=
  let c := s.lat.sched
  let act := area == c.area
  match if act then c.running else c.standby with
  | none => true
  | some img => !(if act then c.runSram else c.fromSram) &&
      decide (measure (flashBytes s (if act then c.runAddr else c.addr) img.sigOff.toNat) = img.meas)

/-- AREA_RELOAD: the image of the area that waits longest has been read from flash (R543). -/
def areaReload (s : State) : State :=
  match s.lat.sched.reload with
  | [] => s
  | a :: r =>
    let u := { s with lat.sched.reload := r }
    if areaReadsBack s a then bump pgMEM 0xA18 1 u else raise pgMEM 7 u

def execAreaReload (s : State) : Res := .next (areaReload s)

/-! ### Software passes -/

/-- PSSTAT (R561). -/
def setPsStat (st mem : Nat) (s : State) : State := rset s pgMEM 0x604 (BitVec.ofNat 32 (st + 16 * mem))

/-- Words that a pass covers, clipped to the memory where the spec gives its size (R536, R537). -/
def passCovers (mem start count : Nat) : Nat := if mem = 9 then min count (3145728 - start) else count

/-- PSCRUB_GO (R536). A refused GO leaves a running pass as it is. -/
def pscrubGo (s : State) : State :=
  let s := touchPage pgMEM s
  let mem := rfld s pgMEM 0x114 3 0
  match s.itg.ps with
  | some (m, _, _) => setPsStat 3 m s
  | none =>
    if mem < 9 ∨ 11 < mem then setPsStat 3 mem s
    else setPsStat 1 mem { s with itg.ps := some (mem, rfld s pgMEM 0x118 31 0, rfld s pgMEM 0x11C 31 0) }

def execPscrubGo (s : State) : Res := .next (pscrubGo s)

/-- PSCRUB_ABORT: a running pass stops (R561). -/
def pscrubAbort (s : State) : State :=
  let s := touchPage pgMEM s
  match s.itg.ps with
  | some (m, _, _) => setPsStat 0 m { s with itg.ps := none }
  | none => s

def execPscrubAbort (s : State) : Res := .next (pscrubAbort s)

/-- Vault memory turns bad: the vault resets itself (R501, R545). -/
def vaultReset (s : State) : State := raise pgMEM 13 (dropQuotes (fun _ => true) (zeroise (fun _ => true) { s with vlt.ivs := [] }))

/-- What an uncorrectable word of a pass has as its outcome (R545, R506 to R509, R516). -/
def passOutcome (place : PassPlace) (s : State) : State :=
  match place with
  | .image standby => if standby then uncorrOutcome (.schedImage true 0) s else s
  | .vault => vaultReset s
  | .journal j =>
    let lose := fun (r : Option JournalRec) => r.map (fun r => { r with b := none })
    { s with vlt.journal := smod none s.vlt.journal j.val lose }
  | .floor i => { s with vlt.floor := smod {} s.vlt.floor i.val (fun e => { e with ok := false }) }
  | .chainHead p => { s with vlt.chain := sset none s.vlt.chain p.val none }
  | .keySlot k => match s.vlt.keys[k.val]? with
    | some x => zeroise (fun y => decide (y = x)) s
    | none => s

/-- PSCRUB_DONE: the pass reports, its corrections reach the repeat table and its uncorrectable words have their outcome
(R537 to R540, R545). -/
def pscrubDone (rep : PassReport) (s : State) : State :=
  match s.itg.ps with
  | none => s
  | some (mem, start, count) =>
    let n := if mem = 9 then passCovers mem start count else min rep.read count
    let hit := fun (w : Nat) => decide (start ≤ w) && decide (w < start + n)
    let rep := { rep with corrected := rep.corrected.filter hit, bad := rep.bad.filter (fun x => hit x.1) }
    let first := (rep.bad.map (·.1)).foldl min 0xFFFFFFFF
    let s := setPsStat 2 mem { s with itg.ps := none }
    let s := rset s pgMEM 0x608 (BitVec.ofNat 32 rep.corrected.length)
    let s := rset s pgMEM 0x60C (BitVec.ofNat 32 rep.bad.length)
    let s := rset s pgMEM 0x610 (BitVec.ofNat 32 first)
    let s := rset s pgMEM 0x614 (BitVec.ofNat 32 rep.corrected.length)
    let s := rset s pgMEM 0x618 (BitVec.ofNat 32 n)
    let s := if rep.corrected = [] then s else raise pgMEM 0 (bump pgMEM 0xA08 rep.corrected.length s)
    let s := if rep.bad = [] then s else raise pgMEM 1 (bump pgMEM 0xA0C rep.bad.length s)
    let s := rep.corrected.foldl (fun s w => noteRepeat mem w none s) s
    raise pgMEM 6 (rep.bad.foldl (fun s x => passOutcome x.2 s) s)

def execPscrubDone (rep : PassReport) (s : State) : Res := .next (pscrubDone rep s)

/-! ### Parity -/

/-- The trace buffers are disarmed (R257, R544). -/
def disarmAll (s : State) : State :=
  { s with trc := s.trc.map (fun x => (x.1, { x.2 with armed := false })) |>.filter (fun x => x.2 ≠ {}) }

/-- The consequence of a parity fault on a page (R544). -/
def parityOutcome (page : Nat) (s : State) : State :=
  match pageBlock s.variant page with
  | none => s
  | some (b, i) =>
    match b with
    | .qmg => fencePolder i 1 s
    | .riq => fencePolder i 1 s
    | .win => fencePolder (i - 16) 1 s
    | .dma => fenceDma i 1 s
    | .cmp => fenceCmp i 1 s
    | .dcp => fenceDcp i 1 s
    | .cry => fenceCry i 1 s
    | .net => fenceNet i 1 s
    | .netq => fenceNet 1 1 (fenceNet 0 1 s)
    | .cst => lgLose i 1 s
    | .rch => fenceAdc i 1 s
    | .mce => fenceMce s
    | .srv => fenceMce s
    | .aux => fenceMce s
    | .gov => govEnter 4 { s with mot.gov.locked := true }
    | .trc => disarmAll s
    | .top => fatal 1 page s
    | .hif => fatal 1 page s
    | .bpm => fatal 1 page s
    | .bsn => fatal 1 page s
    | .vlt => fatal 1 page s
    | .lat => fatal 1 page s
    | .sch => fatal 1 page s
    | .wlk => fatal 1 page s
    | .mem => fatal 1 page s
    | .fen => fatal 1 page s
    | .mtr => fatal 1 page s
    | .prb => fatal 1 page s

/-- A register word that keeps a parity bit (R618). -/
def hasParity (s : State) (page off : Nat) : Bool :=
  match blockOf s page with
  | none => false
  | some b => off = 0x004 || off = 0x014 ||
    (match rowAt b off with | some r => (r.rw ||| r.live ||| r.w1 ||| r.grd) ≠ 0 | none => false)

/-- One faulting word: PARSTAT names it unless an earlier one stands there, and the page's consequence follows (R544,
R618). `w` is 4,096 × page + offset. -/
def parityFault (w : Nat) (s : State) : State :=
  let page := w / 4096
  if !hasParity s page (w % 4096 / 4 * 4) then s else
  let s := if rbit s page 0x018 0 then s else rset s page 0x018 (BitVec.ofNat 32 (1 + w % 4096 / 4 * 4))
  parityOutcome page (raise pgMEM 12 (bump pgMEM 0xA20 1 s))

/-- PARITY_SWEEP: the sweep has gone over every written word; `bad` names those whose parity does not hold. -/
def paritySweep (bad : List Nat) (s : State) : State := bad.foldl (fun s w => parityFault w s) s

def execParitySweep (bad : List Nat) (s : State) : Res := .next (paritySweep bad s)

/-! ### Fences written and released -/

/-- A write of FENCE or UNFENCE that is ignored (R550). -/
def fenceDenied (polder : Bool) (s : State) : State :=
  let s := raise pgFEN 4 s
  if polder then secEvent s else s

/-- Units of a kind that the device has (R1, R2, R547). -/
def kindUnits (s : State) (kind : Nat) : Nat :=
  match kind with
  | 1 => 64 | 2 => 16 | 3 => 32 | 4 => 32 | 5 => 12 | 6 => 320 | 7 => 268 | 8 => laneGroups s.variant | 9 => 2 | 10 => 5
  | 11 => 100 | 12 => 1 | _ => 0

/-- The unit a code names exists; a channel of R2 that the HC lacks does not (R547). -/
def unitExists (s : State) (u : Nat) : Bool :=
  decide (u % 4096 < kindUnits s (u / 4096)) &&
  !(decide (u / 4096 = 7) && ((decide (channels s.variant ≤ u % 4096) && decide (u % 4096 < 256)) ||
     (decide (256 + laneGroups s.variant ≤ u % 4096) && decide (u % 4096 < 264))))

/-- FENCE: a write of FEN.FENCE (R548, R550). -/
def fence (r : Requester) (v : Word) (s : State) : State :=
  let s := touchPage pgFEN s
  let u := bits v 15 0
  let n := u % 4096
  if !unitExists s u then fenceDenied false s else
  match u / 4096 with
  | 1 => if isPf0 r then fencePolder n 6 s else fenceDenied true s
  | 3 => fenceCmp n 6 s
  | 4 => fenceDcp n 6 s
  | 5 => fenceCry n 6 s
  | 6 => fenceTile n 8 s
  | 7 => fenceAdc n 6 s
  | 8 => if isFenced s u ∧ fenceCause s u ≠ 8 then s else lgLose n 6 s
  | _ => fenceDenied false s

def execFence (r : Requester) (v : Word) (s : State) : Res := .next (fence r v s)

/-- A fence is released (R550). -/
def release (u : Nat) (s : State) : State :=
  raise pgFEN 1 (bump pgFEN 0xA04 1 { s with itg.fences := sset 0 s.itg.fences u 0 })

/-- UNFSTAT (R563). -/
def setUnf (u st : Nat) (s : State) : State := rset s pgFEN 0x664 (BitVec.ofNat 32 (u + 65536 * st))

/-- A unit is to be released (R548, R550, R560); the unfence of a unit that is not fenced has nothing to release. -/
def unfenceUnit (r : Requester) (u : Nat) (s : State) : State :=
  let n := u % 4096
  if !unitExists s u then fenceDenied false s else
  match u / 4096 with
  | 1 => if !isPf0 r then fenceDenied true s else if isFenced s u then release u s else s
  | 3 => test u s
  | 4 => test u s
  | 5 => test u s
  | 7 => test u s
  | 8 =>
    if !isFenced s u then s
    else if (lgOf s n).heldFence then release u (setLg n { lgOf s n with heldFence := false } s)
    else fenceDenied false s
  | _ => fenceDenied false s
where
  /-- Its self-test starts; a second unfence while the unit's own runs is denied (R560). -/
  test (u : Nat) (s : State) : State :=
    if BitVec.ofNat 16 u ∈ s.itg.unf ∨ u ∈ s.itg.tests then fenceDenied false s
    else if !isFenced s u then s
    else setUnf u 1 { s with itg.unf := BitVec.ofNat 16 u :: s.itg.unf }

/-- UNFENCE: the guarded write of FEN.UNFENCE (R550). -/
def unfence (r : Requester) (v c : Word) (s : State) : State :=
  guardedWrite pgFEN v c (fun s => unfenceUnit r (bits v 15 0) (rset s pgFEN 0xE00 (v &&& 0xFFFF))) s

def execUnfence (r : Requester) (v c : Word) (s : State) : Res := .next (unfence r v c s)

/-- A self-test passes (R548): an ADC channel's offset within ±32 LSB and its gain within ±10 %; an engine its known answer, a cipher pair
on both lanes. -/
def testPasses (u : Nat) (t : SelfTest) : Bool :=
  match u / 4096 with
  | 7 => decide (t.offset.natAbs ≤ 32) && decide (900 ≤ t.gain) && decide (t.gain ≤ 1100)
  | 5 => t.lane0 && t.lane1
  | _ => t.lane0

/-- SELF_TEST_DONE: the self-test of an unfence, or of an ADC channel at its enable, ends (R548, R550). -/
def selfTestDone (unit : BitVec 16) (t : SelfTest) (s : State) : State :=
  let u := unit.toNat
  let pass := testPasses u t
  if unit ∈ s.itg.unf then
    let s := setUnf u (if pass then 2 else 3) { s with itg.unf := s.itg.unf.filter (· ≠ unit) }
    if pass then release u s else raise pgFEN 2 (bump pgFEN 0xA08 1 s)
  else if u ∈ s.itg.tests then
    let s := { s with itg.tests := s.itg.tests.filter (· ≠ u) }
    if pass then s else fenceAdc (u % 4096) 3 (raise pgFEN 2 (bump pgFEN 0xA08 1 s))
  else s

def execSelfTestDone (unit : BitVec 16) (t : SelfTest) (s : State) : Res := .next (selfTestDone unit t s)

/-- FEN_FATAL: a write of FEN.FATAL (R551). -/
def fenFatal (v : Word) (s : State) : State :=
  let s := touchPage pgFEN s
  if bit v 0 then fatal 5 0xFFFF s else s

def execFenFatal (v : Word) (s : State) : Res := .next (fenFatal v s)

end Sys2Proof.Machine
end

