-- ==== Sys2Proof/Machine/Reset.lean ====
section
/-! DEFINITION. The PCIe events: function-level and controller resets, VF Enable, and the link (R372, R375, R414 to R418,
R438, R440, R474, R488, R584). -/

namespace Sys2Proof.Machine

/-! ### Ending a function -/

/-- A command was fetched from a PCIe queue of a function. -/
def ofFn (f : Fin 64) (c : Cmd) : Bool := match c.src with | .pcie g _ => g = f | .net _ => false

/-- A command was fetched from a network queue pair. -/
def ofNet (c : Cmd) : Bool := match c.src with | .pcie _ _ => false | .net _ => true

/-- Commands that a reset picks end without completion entries: started writes are flushed and rolled back, reads give up
their buffers (R413, R414). -/
def endCmds (pick : Cmd → Bool) (s : State) : State :=
  let polders := (s.host.cmds.filter (fun c => pick c && (c.e.opc = 0x02 || c.e.opc = 0x04) && c.started && c.fin.isNone)).map
    (·.polder.val) |>.eraseDups
  let s := { s with host.cmds := s.host.cmds.map (fun c => if pick c then { c with silent := true } else c) }
  let s := foldNat (fun s p => metered (flushRiq p false (fun _ => false) stABORTED_BY_RESET) s) s polders
  let s := s.rcd.reads.foldl (fun s j => match cmdOf s j.h with
    | some c => if pick c then killRead j.h s else s
    | none => dropJob j.h s) s
  let s := metered (endSilently pick) s
  let act := s.host.activate.filter (fun a => s.host.cmds.any (·.handle = a.1))
  tidyCmds { s with host.activate := act, host.fetchStop := s.host.fetchStop && act.isSome }

/-- Openings that a reset picks end, with their bindings and read points (R401, R414). -/
def endOpens (pick : Src → Bool) (s : State) : State :=
  let gone := s.host.opens.filter (fun o => pick o.src)
  let s := gone.foldl (fun s o =>
    if o.writer then let p := (srcPolder s o.src).val; setRiq p { riqOf s p with part := none } s else s) s
  let s := { s with host.opens := s.host.opens.filter (fun o => !pick o.src) }
  foldNat (fun s p => releaseRead p s) s ((gone.map (·.part.val)).eraseDups)

/-- The partition of a function's started writes, which a reset rolls back (R415). -/
def rolledPart (f : Fin 64) (s : State) : Option (Fin 64) :=
  (s.host.cmds.find? (fun c => ofFn f c && (c.e.opc = 0x02 || c.e.opc = 0x04) && c.started && c.fin.isNone)).map
    (fun c => Fin.ofNat 64 c.e.part.toNat)

/-- A reset of function `f`: commands, queue pairs, bindings and read points go; QMG keeps the outcome (R414, R415). -/
def endFn (f : Fin 64) (s : State) : State :=
  let n := (s.host.cmds.filter (ofFn f)).length
  let part := rolledPart f s
  let s := endCmds (ofFn f) s
  let s := endOpens (fun x => match x with | .pcie g _ => g = f | .net _ => false) s
  let s := { s with host.pairs := s.host.pairs.filter (fun x => x.1 / 16 ≠ f.val) }
  let eod := match part with | some p => eodLrn s p.val | none => 0
  let s := rset s (pgQMG f.val) 0x604 0
  setPolder f.val { polderOf s f.val with rstAborts := n, rstPart := part, rstEod := eod } s

/-- A running DMA channel that `pick` takes halts with FUNC_RESET (R438). -/
def haltChannels (pick : Fin 64 → Bool) (s : State) : State :=
  (List.range 16).foldl (fun s n =>
    let c := dmaOf s n
    if c.st = .running ∧ pick (dmaFunc s n) then dmaHalt n 8 c.cur.toNat c.curSp false s else s) s

/-- The host windows of a function are disabled (R440). -/
def closeWindows (f : Nat) (s : State) : State :=
  let pg := pgWIN f
  { s with rf.regs := s.rf.regs.filter (fun x => !(decide (x.1 / 4096 = pg) && decide (0xE00 ≤ x.1 % 4096))),
           rf.guard := sset none s.rf.guard pg none }

/-- RSTCAUSE takes a bit (R595). -/
def noteCause (b : Nat) (s : State) : State := rset s pgTOP 0x608 (rget s pgTOP 0x608 ||| BitVec.ofNat 32 (2 ^ b))

/-! ### Resets -/

/-- Every network queue pair is destroyed and its commands end (R474). -/
def endNetwork (s : State) : State :=
  let s := endCmds ofNet s
  let s := endOpens (fun x => match x with | .pcie _ _ => false | .net _ => true) s
  { s with net.qps := [], net.qopBusy := false }

/-- Pool and requester fences are lifted; the buffers that closed requesters held are freed (R352, R356). -/
def liftPools (s : State) : State :=
  let held := (s.rcd.bufs.filter (fun x => x.2.alloc && decide (x.2.req ∈ s.rcd.reqClosed))).map (·.1)
  let keep := fun (x : Nat × Nat) => decide (x.1 / 4096 ≠ 10) && decide (x.1 / 4096 ≠ 11)
  let s := { s with rcd.fenPool := [], rcd.reqClosed := [], rcd.reqFault := [], itg.fences := s.itg.fences.filter keep }
  foldNat (fun s kb => giveBack (kb / 65536) (kb % 65536) s) s held

/-- A controller reset (R414, R440, R474, R488, R584). -/
def controllerReset (s : State) : State :=
  let s := haltChannels (fun _ => true) s
  let s := (List.finRange 64).foldl (fun s f => closeWindows f.val (endFn f s)) s
  let s := liftPools (endNetwork s)
  raise pgHIF 3 (noteCause 1 { s with ts.bank0 := [], ts.bank1 := [], ts.swap := false, host.vfEnable := false, host.numVFs := 0 })

/-- FLR of function `f` (R375, R414). A function that is not there has none. -/
def flr (f : Fin 64) (s : State) : State :=
  if f.val ≠ 0 ∧ !(s.host.vfEnable ∧ f.val ≤ s.host.numVFs.toNat) then s else
  let s := raise pgHIF 2 { s with host.flr := s.host.flr.filter (· ≠ f) ++ [f] }
  if f.val = 0 then controllerReset s else endFn f (haltChannels (· = f) s)

def execFlr (f : Fin 64) (s : State) : Res := .next (flr f s)

/-- PERST_N: its assertion is a controller reset, and the link goes (R414). -/
def perstN (s : State) : State :=
  controllerReset { s with pins.perstN := false, host.linkUp := false, host.linkSpeed := 0, host.linkWidth := 0, host.flr := [] }

def execPerstN (s : State) : Res := .next (perstN s)

/-- LINK_DOWN: loss of the PCIe link is a controller reset (R414, R424). -/
def linkDown (s : State) : State :=
  if !s.host.linkUp then s else
  controllerReset (raise pgHIF 0 { s with host.linkUp := false, host.linkSpeed := 0, host.linkWidth := 0, host.flr := [] })

def execLinkDown (s : State) : Res := .next (linkDown s)

/-- LINK_UP: the link trains, PERST_N being high (R424, R581). -/
def linkUp (speed : BitVec 3) (width : BitVec 5) (s : State) : State :=
  raise pgHIF 1 { s with pins.perstN := true, host.linkUp := true, host.linkSpeed := speed, host.linkWidth := width }

def execLinkUp (speed : BitVec 3) (width : BitVec 5) (s : State) : Res := .next (linkUp speed width s)

/-- VF_ENABLE_CLEAR: functions 1 to 63 are reset and their windows disabled (R416). -/
def vfEnableClear (s : State) : State :=
  if !s.host.vfEnable then s else
  let s := haltChannels (fun f => decide (f.val ≠ 0)) s
  let s := (List.finRange 64).foldl (fun s f => if f.val = 0 then s else closeWindows f.val (endFn f s)) s
  raise pgHIF 3 (noteCause 1 { s with host.vfEnable := false })

def execVfEnableClear (s : State) : Res := .next (vfEnableClear s)

/-- VF_ENABLE_SET (R372); refused in recovery mode (R580). -/
def vfEnableSet (numVFs : BitVec 6) (s : State) : State :=
  if s.top.recovery then s else { s with host.vfEnable := true, host.numVFs := numVFs }

def execVfEnableSet (numVFs : BitVec 6) (s : State) : Res := .next (vfEnableSet numVFs s)

/-- RESET_DONE: the FLR of a function is complete (R375, R424). -/
def resetDone (f : Fin 64) (s : State) : State :=
  if f ∉ s.host.flr then s else raise (pgQMG f.val) 4 { s with host.flr := s.host.flr.filter (· ≠ f) }

def execResetDone (f : Fin 64) (s : State) : Res := .next (resetDone f s)

/-- ACTIVATE_BUSY: a command of the control cores is still running 10 s after fetching stopped (R417). -/
def activateBusy (s : State) : State :=
  match s.host.activate with
  | none => s
  | some (h, _) =>
    if s.host.cmds.any (fun c => fwCmd c && c.started && c.fin.isNone && c.handle ≠ h) then
      done h stACTIVATE_BUSY 0 { s with host.activate := none, host.fetchStop := false }
    else s

def execActivateBusy (s : State) : Res := .next (activateBusy s)

end Sys2Proof.Machine
end

