-- ==== Sys2Proof/Machine/Boot.lean ====
section
/-! DEFINITION. Start-up, restarts, firmware in flash, the lifecycle, power failure and the cores' timers (R565 to R588,
R594, R641). -/

namespace Sys2Proof.Machine

/-! ### Power-on reset -/

/-- What a power-on reset keeps: fuses, MRAM and flash (R584), the levels that others drive on the pins, and what has been
issued to the outside. Device time resumes at the end of the last minute recorded in MRAM (R520). -/
def powerOn (s : State) : State :=
  let v := s.vlt
  { variant := s.variant, out := s.out, pending := s.pending,
    clk := { devSec := 60 * v.nextMinute },
    pins := { shockN := s.pins.shockN, pfwN := s.pins.pfwN, motorUvN := s.pins.motorUvN, hwlFltN := s.pins.hwlFltN },
    mem := { mramFw := s.mem.mramFw, flash := s.mem.flash },
    vlt := { lifecycle := v.lcNext, lcNext := v.lcNext, devId := v.devId, svnMin := v.svnMin, keyHash := v.keyHash, journal := v.journal,
             jseq := v.jseq, floor := v.floor, fseq := v.fseq, lost := v.lost, chain := v.chain,
             minute := v.nextMinute, nextMinute := v.nextMinute } }

/-- POWER_ON_RESET (R584, R641). -/
def powerOnReset (s : State) : State := powerOn s

def execPowerOnReset (s : State) : Res := .next (powerOnReset s)

/-- SUPPLY_LOSS: the outputs take the states of R641. -/
def supplyLoss (s : State) : State :=
  { s with pins := { s.pins with supplies := false, winh := true, pwm := .off, dac0 := 0, dac1 := 0, hwlIdle := true,
                                 prbLow := true } }

def execSupplyLoss (s : State) : Res := .next (supplyLoss s)

/-! ### Images -/

/-- The KEYID that firmware and crest images need (R574, R578). -/
def keyIdOk (s : State) (k : Byte) : Bool := if s.vlt.lifecycle = 0 then k = 0 else k = 1 && makerEnrolled s

/-- MAGIC, VERSION and lengths of a firmware image (R572). -/
def fwHeaderOk (img : FwImage) : Bool :=
  decide (img.magic = 0x57464B43) && decide (img.version = 1) && decide (img.imgLen.toNat ≤ 8 * 1048576) &&
  decide (img.sigOff.toNat + 96 = img.imgLen.toNat)

/-- Step 3 of R576 on a firmware image (R572). -/
def fwOk (s : State) (img : FwImage) : Bool :=
  fwHeaderOk img && img.variants.getLsbD (match s.variant with | .ac => 0 | .hc => 1) && keyIdOk s img.keyId && img.sigOk &&
  decide (s.vlt.svnMin.toNat ≤ img.svn.toNat)

/-- A slot's image that passes step 3 of R576. -/
def slotFw (s : State) (slotB : Bool) : Option FwImage := (slotImage s slotB).filter (fwOk s)

/-- The slot that boots: the committed one, else the other (R577). -/
def pickSlot (s : State) : Option (Bool × FwImage) :=
  let c := s.top.committed
  match slotFw s c with
  | some img => some (c, img)
  | none => (slotFw s !c).map (fun img => (!c, img))

/-- The crest words lie within R256. -/
def crestLimits (ws : List Word) : Bool :=
  let g := fun (i : Nat) => (ws[i]?).getD 0
  let speed := bits (g 0) 13 0
  let acc := bits (g 1) 15 0
  let dec := bits (g 1) 31 16
  let lo := bits (g 2) 15 0
  let hi := bits (g 2) 31 16
  ws.length = 8 && 525 ≤ speed && speed ≤ 8600 && 10 ≤ acc && acc ≤ 400 && 10 ≤ dec && dec ≤ acc && lo < hi && hi ≤ 2000

/-- Step 4 of R576 on a crest image (R573). -/
def crestOk (s : State) (c : CrestImage) : Bool :=
  decide (c.magic = 0x52434B43) && decide (c.version = 1) && c.sigOk && keyIdOk s c.keyId && crestLimits c.words

/-- The GOV W1 fields are written and the crest is sealed (R254, R573, R576). -/
def sealCrest (c : CrestImage) (s : State) : State :=
  let put := fun (s : State) (i : Nat) =>
    let off := 0x100 + 4 * i
    let v := (c.words[i]?).getD 0 &&& (rowOf s pgGOV off).w1
    { rset s pgGOV off v with rf.w1 := sset false s.rf.w1 (rkey pgGOV off) true }
  let s := (List.range 8).foldl put s
  { s with mot.sealed := true, top.crestMeas := c.meas }

/-! ### Boot -/

/-- Recovery mode: the cores stay held, and the vault ROM serves PF0 SQ 0 (R580). -/
def enterRecovery (s : State) : State :=
  { s with top.recovery := true, top.harts := [], top.bootSlot := none, host.pf0On := true }

/-- Steps 3 and 6 of R576 as a restart repeats them: the images are checked, the cores run the one that passes (R577,
R580, R584). -/
def bootCores (s : State) : State :=
  match pickSlot s with
  | none => enterRecovery s
  | some (slot, img) =>
    let s := if slot = s.top.committed then s else raise pgTOP 4 (bump pgTOP 0xA0C 1 s)
    bootFirmware img { s with top.bootSlot := some slot, top.recovery := false, top.last := 6, host.pf0On := true }

/-- Steps 4 and 5: the crest, then the default schedule image (R301, R576). -/
def bootTrack (s : State) : State :=
  match (crestImage s).filter (crestOk s) with
  | none => { s with top.failCode := 4, top.last := 4 }
  | some c => loadDefault (sealCrest c s)
where
  /-- The schedule image whose entry has FLAGS bit 0; none is a failure of the step (R571, log 106). -/
  loadDefault (s : State) : State :=
    match s.top.dir.find? (fun e => e.type = 4 && bit e.flags 0) with
    | none => { s with top.failCode := 5, top.last := 5 }
    | some e =>
      let s := loadDone true (startLoad false false e.offset s)
      match s.lat.sched.standby with
      | none => { s with top.failCode := 5, top.last := 5 }
      | some img => { switchTo img s with top.defImage := true, top.last := 5 }

/-- Steps 3 to 6. The fail code of the case that neither slot passes is not stated: a free value (log 3). -/
def bootImages (s : State) : State :=
  match pickSlot s with
  | none => freeNext (enterRecovery { s with top.failCode := freeVal s % 16 })
  | some _ => bootCores (bootTrack { s with top.last := 3 })

/-- The flash directory in use: the copy whose header CRC holds and whose GEN is higher, and whether it is the second (R571, log 76). -/
def pickDir (a b : DirCopy) : Option (Bool × DirCopy) :=
  if a.crcOk ∧ (!b.crcOk ∨ b.gen.toNat ≤ a.gen.toNat) then some (false, a) else if b.crcOk then some (true, b) else none

/-- Step 2 of R576: the directory is taken into use, and with it the drive-maker key where its hash is the fused one (R571,
R574). -/
def takeDir (second : Bool) (d : DirCopy) (s : State) : State :=
  let key := keyEntry s d.ents
  let ok := s.vlt.lifecycle ≠ 0 ∧ key ≠ [] ∧ measure key = s.vlt.keyHash
  { s with top.last := 2, top.dir := d.ents, top.dirGen := d.gen, top.dirSecond := second,
           top.committed := decide (d.committed = 1), vlt.makerKey := if ok then key else [] }

/-- The boot sequence from step 1 (R576). -/
def boot (env : BootEnv) (s : State) : State :=
  if !env.romOk then { s with top.failCode := 1 } else
  let s := { s with top.heldReset := false, top.last := 1, prb.nonce := env.challenge, prb.valid := true }
  match (if env.flashOk then pickDir (dirCopy s false) (dirCopy s true) else none) with
  | none => enterRecovery { s with top.failCode := 2 }
  | some (second, d) => bootImages (takeDir second d s)

/-- SYSRST_N_RISE: with the supplies in specification the device boots (R576, R639). -/
def sysrstNRise (env : BootEnv) (s : State) : State :=
  if !s.pins.supplies ∨ s.pins.sysrstN then s else boot env { s with pins.sysrstN := true }

def execSysrstNRise (env : BootEnv) (s : State) : Res := .next (sysrstNRise env s)

/-! ### Watchdog -/

/-- Milliseconds since the last kick; mtime counts at 25 MHz (R568, R569). -/
def wdMs (s : State) : Nat := (s.clk.mtime.toNat - s.top.wdKick) / 25000
def wdEn (s : State) : Bool := rbit s pgTOP 0x100 16
def wdTimeout (s : State) : Nat := rfld s pgTOP 0x100 15 0

/-- Local interrupt 17 on every core. -/
def setLint17 (v : Bool) (s : State) : State :=
  { s with top.harts := (List.range 4).foldl (fun m i => smod {} m i (fun h => { h with lint17 := v })) s.top.harts }

/-- WDKICK: only 0x0000_0A5A kicks (R569). -/
def wdkick (v : Word) (s : State) : State :=
  let s := touchPage pgTOP s
  if v = 0x0A5A then setLint17 false { s with top.wdKick := s.clk.mtime.toNat } else s

def execWdkick (v : Word) (s : State) : Res := .next (wdkick v s)

/-- WATCHDOG_WARNING (R569). -/
def watchdogWarning (s : State) : State := if wdEn s ∧ wdTimeout s / 2 ≤ wdMs s then setLint17 true s else s

def execWatchdogWarning (s : State) : Res := .next (watchdogWarning s)

/-! ### Restarts -/

/-- A core restart: commands of the cores complete ABORTED, motion started for them ends at rest, and the firmware is
loaded again; fetching for it waits for FWREADY (R584, R585, R594). -/
def restartCores (s : State) : State :=
  let moving := s.mot.move.status = 1 ∧ s.trk.starting.isNone ∧ s.trk.pass.isNone ∧ s.host.cmds.any (fun c => fwCmd c ∧ c.fin.isNone)
  let s := metered (finishAll fwCmd stABORTED 0) { s with host.activate := none, host.fetchStop := false }
  let s := if moving then restMove s else s
  bootCores (tidyCmds { s with host.fwHold := true, top.harts := [], mem.coreMem := [] })

/-- CORE_RESTART: a write of RSTCTL.CORE (R585). -/
def coreRestart (s : State) : State :=
  restartCores (bump pgTOP 0xA00 1 (noteCause 2 (touchPage pgTOP s)))

def execCoreRestart (s : State) : Res := .next (coreRestart s)

/-- WDOG: the watchdog reaches TIMEOUT (R569, R594). -/
def wdog (s : State) : State :=
  if !wdEn s ∨ wdMs s < wdTimeout s then s else
  let s := raise pgTOP 0 (bump pgTOP 0xA04 1 (bump pgTOP 0xA00 1 (noteCause 3 (noteCause 2 s))))
  restartCores { s with top.wdKick := s.clk.mtime.toNat }

def execWdog (s : State) : Res := .next (wdog s)

/-- The registers, events and pending guarded pairs of the record-side pages go to their reset values (R584, R629). -/
def resetRecordPages (s : State) : State :=
  let own := fun (page : Nat) => ((blockOf s page).map recordSideBlock).getD false
  { s with rf.regs := s.rf.regs.filter (fun x => !own (x.1 / 4096)), rf.cnt := s.rf.cnt.filter (fun x => !own (x.1 / 4096)),
           rf.hold := s.rf.hold.filter (fun x => !own (x.1 / 4096)), rf.ev := s.rf.ev.filter (fun x => !own x.1),
           rf.guard := s.rf.guard.filter (fun x => !own x.1) }

/-- Fences of record-side units end, and those a parity fault caused (R584, R618). -/
def restartFences (s : State) : State :=
  let keep := fun (x : Nat × Nat) => !(decide (x.1 / 4096 ≤ 5) || decide (x.1 / 4096 = 10) || decide (x.1 / 4096 = 11) || decide (x.2 = 1))
  let free := fun (x : Nat × LaneGroup) =>
    if sget 0 s.itg.fences (0x8000 + x.1) = 1 then (x.1, { x.2 with heldFence := false }) else x
  { s with itg.fences := s.itg.fences.filter keep, tim.lgs := s.tim.lgs.map free }

/-- The record side starts anew: every data slot not retired is FREE, every polder but 0 is disabled, the cartridge is
read again by the next LOAD, and a fatal state ends. Lane marks, row repairs, the dump region and the event log stay
(R31, R533, R552, R584, R586). -/
def clearRecordSide (s : State) : State :=
  let s := endPass 11 (abortMove s)
  let s := if mceOn s then planTo 0 s else s
  let s := (List.finRange 64).foldl (fun s f => endFn f s) s
  let s := restartFences (resetRecordPages (endNetwork s))
  let off := fun (x : Nat × PolderSt) => if x.1 = 0 then x else (x.1, { x.2 with enabled := false })
  let s := { s with rcd := {}, dma := [], ts := {}, cart := none, lat.enc := [], mot.spd.lastN := [],
                    trk := { s.trk with last := none, plan := [], cur := none, syncPend := [], readAt := [], starting := none, waitPost := false },
                    host.deferred := [], host.errlog := [], host.pol := s.host.pol.map off,
                    itg := { s.itg with fatal := none, rep := [], laneSeen := [], ps := none, unf := [], tests := [],
                                        scrubSlot := 0, scrubPass := 0, dumpGo := false } }
  let s := dropQuotes (fun q => decide (q.polder ≠ 0)) (zeroise (fun k => decide (k.polder ≠ 0)) s)
  freeSlots (fun x => x.st ≠ .retired) s

/-- RECORD_SIDE_RESTART: a write of RSTCTL.RSIDE (R584, R586). -/
def recordSideRestart (s : State) : State :=
  restartCores (clearRecordSide (bump pgTOP 0xA08 1 (noteCause 4 (touchPage pgTOP s))))

def execRecordSideRestart (s : State) : Res := .next (recordSideRestart s)

/-- FWREADY: commands of the cores are executed again (R585). -/
def fwready (s : State) : State := { touchPage pgTOP s with host.fwHold := false }

def execFwready (s : State) : Res := .next (fwready s)

/-! ### Flash -/

/-- FLSTAT[1:0] and its code (R595). -/
def setFl (st code : Nat) (s : State) : State := { s with top.flStat := st, top.flCode := code }

/-- Two byte ranges meet. -/
def meets (a n b m : Nat) : Bool := decide (a < b + m) && decide (b < a + n)

/-- Ranges that program and erase may not touch: both directory copies, the committed slot and the drive-maker key entry
(R571, R575). -/
def flProtected (s : State) (a n : Nat) : Bool :=
  meets a n 0 1056 || meets a n 0x10000 1056 ||
  s.top.dir.any (fun e => (e.type = 5 || e.type = (if s.top.committed then 2 else 1)) && meets a n e.offset e.length)

/-- A write of FLCMD with GO (R575, R595, R610): the staged values are taken now, the work is done at FLASH_DONE. A GO
while an operation runs, or with a length above 1 MiB or past staging's end, starts nothing (log 47). -/
def flashGo (op : Nat) (s : State) : State :=
  let s := touchPage pgTOP s
  let a := rfld s pgTOP 0x110 31 0
  let m := rfld s pgTOP 0x114 31 0
  let n := rfld s pgTOP 0x118 31 0
  if s.top.flOp.isSome ∨ (op ≠ 3 ∧ (1048576 < n ∨ 33554432 < m + n)) then s else
  let (ea, en) := if op = 3 then (a / 65536 * 65536, 65536) else (a, n)
  if op ≠ 1 ∧ flProtected s ea en then raise pgTOP 3 (setFl 3 1 s)
  else setFl 1 0 { s with top.flOp := some (op, ea, m, en) }

def flashRead (s : State) : State := flashGo 1 s
def execFlashRead (s : State) : Res := .next (flashRead s)
def flashProgram (s : State) : State := flashGo 2 s
def execFlashProgram (s : State) : Res := .next (flashProgram s)
def flashErase (s : State) : State := flashGo 3 s
def execFlashErase (s : State) : Res := .next (flashErase s)

/-- Programming clears bits; an erased byte reads 0xFF (log 48). -/
def progBytes (m : Sparse Byte) (a : Nat) : List Byte → Sparse Byte
  | [] => m
  | b :: bs => progBytes (sset 0xFF m a (sget 0xFF m a &&& b)) (a + 1) bs

/-- Erase the bytes of a range. -/
def eraseRange (m : Sparse Byte) (a n : Nat) : Sparse Byte := m.filter (fun x => !(decide (a ≤ x.1) && decide (x.1 < a + n)))

/-- FLASH_DONE: the operation's effect stands (R575, R597). -/
def flashDone (s : State) : State :=
  match s.top.flOp with
  | none => s
  | some (op, a, m, n) =>
    let s := raise pgTOP 2 (setFl 2 0 { s with top.flOp := none })
    match op with
    | 1 => spaceWrite 1 m (readBytes 0xFF s.mem.flash a n) s
    | 2 =>
      let (bs, s) := spaceRead 1 m n s
      { s with mem.flash := progBytes s.mem.flash a bs }
    | _ => { s with mem.flash := eraseRange s.mem.flash a n }

def execFlashDone (s : State) : Res := .next (flashDone s)

/-- A directory as stored (R571). -/
def dirBytes (dir : List DirEnt) (gen : BitVec 64) (slotB : Bool) : List Byte :=
  let head := [0x43#8, 0x4B#8, 0x46#8, 0x44#8] ++ leBytes 1 2 ++ leBytes dir.length 2 ++ leBytes gen.toNat 8 ++ leBytes (b2n slotB) 4 ++
    leBytes 0 8
  let ents := (dir.map (fun e => [e.type, e.flags, 0, 0] ++ leBytes e.offset 4 ++ leBytes e.length 4 ++ leBytes 0 4)).flatten
  head ++ leBytes (crc32c (head ++ ents)).toNat 4 ++ ents

/-- A commit: the image in the slot is checked by R576 step 3; then the directory copy that is not in use names the slot,
and SVNMIN becomes the image's SVN (R575). `none` where the check fails; else the image too. -/
def commitFw (slotB : Bool) (s : State) : Option (FwImage × State) :=
  (slotFw s slotB).map (fun img => (img, commit img s))
where
  commit (img : FwImage) (s : State) : State :=
    let gen := s.top.dirGen + 1
    let a := if s.top.dirSecond then 0 else 0x10000
    { s with mem.flash := writeBytes 0xFF s.mem.flash a (dirBytes s.top.dir gen slotB), vlt.svnMin := img.svn, top.dirGen := gen,
             top.dirSecond := !s.top.dirSecond, top.committed := slotB }

/-- FWCOMMIT: a write of FWCOMMIT with GO (R575). With the power-fail state latched the vault begins no write (R587). -/
def fwcommit (slotB : Bool) (s : State) : State :=
  let s := touchPage pgTOP s
  if s.top.pf then s else
  match commitFw slotB s with
  | none => setFl 3 2 s
  | some (_, s) => setFl 2 0 s

def execFwcommit (slotB : Bool) (s : State) : Res := .next (fwcommit slotB s)

/-! ### Lifecycle -/

/-- A second write of a W1 field: CREST_RELOCK (R583). -/
def relock (page : Nat) (s : State) : State := secEvent (raiseOpt page ((blockOf s page).bind relockBit) s)

/-- What the signed part of a token for a lifecycle state holds (R579). -/
def tokenBytes (s : State) (target : Nat) : List Byte :=
  [0x43#8, 0x4B#8, 0x4C#8, 0x54#8] ++ leBytes target 1 ++ leBytes 0 3 ++ leBytes s.vlt.devId.toNat 4 ++ leBytes 0 52

/-- A token for the next state, signed by its signer (R578, R579). -/
def tokenOk (s : State) (target : Nat) (bs : List Byte) : Bool :=
  decide (target = s.vlt.lifecycle.toNat + 1) && decide (bs.take 64 = tokenBytes s target) &&
    signedOk (signer s 0 (if target = 1 then 0 else 1)) bs 64

/-- LCTRANS: one write a boot; the vault reads the token at the staging address, and the next state is fused where the token
is one for it and its signature verifies; it takes effect at the next power-on reset (R578, R579, R583). -/
def lctrans (v : Word) (s : State) : State :=
  let s := touchPage pgTOP s
  if s.vlt.lcDone then relock pgTOP s else
  let s := rset { s with vlt.lcDone := true } pgTOP 0x130 (v &&& 0x7FFFFC3)
  let (bs, s) := spaceRead 1 (64 * bits v 26 6) 160 s
  if tokenOk s (bits v 1 0) bs then fuseState (bits v 1 0) s else s
where
  /-- The next state is fused; the first also fuses the hash of the drive-maker key, that of the directory's key entry (R578,
  log 107). -/
  fuseState (target : Nat) (s : State) : State :=
    let s := { s with vlt.lcNext := BitVec.ofNat 2 target }
    if target = 1 then { s with vlt.keyHash := measure (keyEntry s s.top.dir) } else s

def execLctrans (v : Word) (s : State) : Res := .next (lctrans v s)

/-! ### Power failure -/

/-- A data set is being written or read: its positions pass, and no coast, turnaround or move (R53, R261). -/
def inDataSet (s : State) : Bool :=
  s.hwl.sending ||
  (match s.trk.pass, s.trk.cur, s.lat.master with
   | some p, some e, some k => decide (p.kind = .read) && !s.mot.coast && decide (s.mot.move.status ≠ 1) && (lgOf s k.val).st.usable &&
      !s.mot.plan.rev && !s.mot.plan.dwell && decide (e.rev = travelRev s) && (toneAt e.rev (lgOf s k.val).tone).isSome
   | _, _, _ => false)

/-- PFW: the power-fail state is latched; while no data set is being written or read the write gate closes and the governor is entered
at once, otherwise at its end boundary (R53, R261, R587). -/
def pfw (s : State) : State :=
  let s := { s with pins.pfwN := false }
  if s.top.pf then s else
  let s := raise pgTOP 1 { s with top.pf := true }
  if inDataSet s then s else govEnter 10 { s with top.pfGate := true }

def execPfw (s : State) : Res := .next (pfw s)

/-- MRAM_QUIESCENT: the write in progress at the power failure has ended (R587). -/
def mramQuiescent (s : State) : State := if s.top.pf then { s with top.pfQuiet := true } else s

def execMramQuiescent (s : State) : Res := .next (mramQuiescent s)

/-! ### The cores' timers -/

/-- MTIMER: mtime has reached a hart's mtimecmp (R568). -/
def mtimer (h : Fin 4) (s : State) : State :=
  let x := sget {} s.top.harts h.val
  if x.mtimecmp.toNat ≤ s.clk.mtime.toNat then { s with top.harts := sset {} s.top.harts h.val { x with mtip := true } } else s

def execMtimer (h : Fin 4) (s : State) : Res := .next (mtimer h s)

/-- MSIP_WRITE: bit 0 is the hart's software interrupt (R568). -/
def msipWrite (h : Fin 4) (v : Word) (s : State) : State :=
  { s with top.harts := smod {} s.top.harts h.val (fun x => { x with msip := bit v 0 }) }

def execMsipWrite (h : Fin 4) (v : Word) (s : State) : Res := .next (msipWrite h v s)

end Sys2Proof.Machine
end

