-- ==== Sys2Proof/Machine/Admin.lean ====
section
/-! DEFINITION. The admin commands 0x81 to 0x8A (R390, R402 to R405, R417, R420, R421, R520, R575, R580, R589, R593), as
they execute once fetched. -/

namespace Sys2Proof.Machine

/-- Another command of the same kind has started and not completed (BUSY of R419). -/
def sameRunning (s : State) (c : Cmd) : Bool :=
  s.host.cmds.any (fun x => decide (x.e.opc = c.e.opc) && x.started && x.fin.isNone && decide (x.handle ≠ c.handle))

/-- Run an admin command, unless one of its kind runs. -/
def adminCmd (h : Nat) (opc : Byte) (s : State) (f : Cmd → State → State) : State :=
  onCmd h opc s fun c s => if sameRunning s c then done h stBUSY 0 s else f c s

/-! ### LOAD and UNLOAD -/

/-- LOAD (R589 to R592). -/
def load (h : Nat) (env : LoadEnv) (s : State) : State :=
  adminCmd h 0x81 s fun c s =>
    if s.cart.isSome then done h stALREADY_LOADED 0 s else
    match env.label.bind readLabel with
    | none => done h stLOAD_FAIL 0 s
    | some label =>
      let (st, res, s) := mount label (csp c.e 0x20 1 % 2 = 1) env s
      done h st res s

def execLoad (h : Nat) (env : LoadEnv) (s : State) : Res := .next (load h env s)

/-- The polder whose intake queue is bound to a partition. -/
def boundRiq (s : State) (part : Nat) : Option Nat :=
  (List.range 64).find? (fun p => decide ((riqOf s p).part.map (·.val) = some part))

/-- Records of the partition wait to be written. -/
def unwritten (s : State) (part : Nat) : Bool :=
  s.bas.slots.any (fun x => toTape x.2 && decide (x.2.part.val = part)) ||
  (match boundRiq s part with
   | none => false
   | some p => let r := riqOf s p
     r.opn.isSome || !decide (r.grps = []) || decide (r.nextLrn < r.asgLrn))

/-- UNLOAD asks for a partition's open group to be closed and its FILLING slots to become FULL (R334, R344). -/
def closeForUnload (s : State) (part : Nat) : State :=
  match boundRiq s part with
  | some p => closeIfDrained p part (requestClose p (riqOf s p).asgLrn s)
  | none => closeFilling part s

/-- UNLOAD begins: everything is written out, and the command completes once that is done (R418, R593). -/
def unload (h : Nat) (s : State) : State :=
  adminCmd h 0x82 s fun c s =>
    if notLoaded s c then done h stNOT_LOADED 0 s else
    let s := startCmd h s
    let s := { s with cart := s.cart.map (fun k => { k with unloading := some c.no, noticed := false }) }
    let s := foldNat closeForUnload s (List.range 64)
    { s with trk.syncPend := (List.finRange 64).filter (fun p => decide (p ∈ s.trk.syncPend) || unwritten s p.val) }

def execUnload (h : Nat) (s : State) : Res := .next (unload h s)

/-! ### Partitions -/

/-- The wrap pairs of WPMAP (R390). -/
def wpmap (e : Sqe) : List Nat := (List.range 200).filter (fun w => (csp e 0x20 25).testBit w)

/-- The index with the new partition's wrap pairs and berms; none where a pair is taken or a berm cannot be had (R402). -/
def createWps (part : Nat) (ws : List Nat) (core : IndexCore) : Option IndexCore :=
  if ws.any (fun w => decide ((sget {} core.wps w).role ≠ .free)) then none else
  let mine : WpEntry := { pnum := BitVec.ofNat 8 part, role := .data }
  let put := fun (m : Sparse WpEntry) (w : Nat) => sset {} m w mine
  addBerms part { core with wps := ws.foldl put core.wps } ((ws.map (fun w => [(w, true), (w, false)])).flatten)

/-- PARTITION_CREATE (R402, R404). A partition is one or more wrap pairs (R71). -/
def partitionCreate (h : Nat) (s : State) : State :=
  adminCmd h 0x83 s fun c s =>
    let part := c.e.part.toNat
    let ws := wpmap c.e
    if notLoaded s c then done h stNOT_LOADED 0 s
    else if readOnly s then done h stREAD_ONLY 0 s
    else if (partEntry s part).inUse then done h stPARTITION_EXISTS 0 s
    else if ws = [] then done h stINVALID_FIELD 0 s
    else match s.cart with
    | none => done h stNOT_LOADED 0 s
    | some k =>
      match createWps part ws k.core with
      | none => done h stWRAP_UNAVAILABLE 0 s
      | some core =>
        let e : PartEntry := { inUse := true, halfBand := csp c.e 0x3A 1 = 1, owner := (polderOf s (csp c.e 0x39 1)).tag,
                               eodWrap := pairWrap (ws.headD 0) false }
        let s := newGen { s with cart := some { k with core := { core with parts := sset {} core.parts part e } } }
        done h stSUCCESS ((s.cart.map (·.core.gen.toNat)).getD 0) s

def execPartitionCreate (h : Nat) (s : State) : Res := .next (partitionCreate h s)

/-- PARTITION_DELETE: its checks; the vault's crypto-erase then carries it on (REQ_PART_ERASE, R403, R502). -/
def partitionDelete (h : Nat) (s : State) : State :=
  adminCmd h 0x84 s fun c s =>
    let part := c.e.part.toNat
    if notLoaded s c then done h stNOT_LOADED 0 s
    else if readOnly s then done h stREAD_ONLY 0 s
    else if !(partEntry s part).inUse then done h stNO_PARTITION 0 s
    else if s.host.opens.any (·.part.val = part) then done h stPARTITION_OPEN 0 s
    else startCmd h s

def execPartitionDelete (h : Nat) (s : State) : Res := .next (partitionDelete h s)

/-! ### POLDER_CONFIG -/

/-- What R405 refuses with INVALID_FIELD. -/
def polderBad (s : State) (p maxq : Nat) (on : Bool) (tag : BitVec 64) : Bool :=
  let owns := match s.cart with | none => false | some k => k.core.parts.any (fun x => x.2.inUse && decide (x.2.owner = (polderOf s p).tag))
  (!on && (decide (p = 0) || s.host.opens.any (fun o => (srcPolder s o.src).val = p))) ||
  s.host.pairs.any (fun x => decide (x.1 / 16 = p) && x.2.present && decide (maxq < x.1 % 16 + 1)) ||
  (decide (tag ≠ (polderOf s p).tag) && owns)

/-- The quota and the share fit their registers and, while their block is enabled, its rules (R32, R367, R368). -/
def sharesFit (s : State) (p quota share : Nat) : Bool :=
  decide (quota < 8192) && decide (share < 2048) && (!pageEn s pgBSN || quotaFits s p quota) &&
  (!pageEn s pgBPM || decide (pshareSum s p share ≤ 1024))

/-- A disabled polder's keys are zeroised and its quote keys discarded (R494, R501). -/
def polderOff (p : Nat) (s : State) : State :=
  dropQuotes (fun q => decide (q.polder.val = p)) (zeroise (fun k => decide (k.polder.val = p)) s)

/-- POLDER_CONFIG (R405). -/
def polderConfig (h : Nat) (s : State) : State :=
  adminCmd h 0x85 s fun c s =>
    let p := csp c.e 0x20 1
    let on := csp c.e 0x21 1 = 1
    let maxq := csp c.e 0x23 1
    let quota := csp c.e 0x24 2
    let share := csp c.e 0x26 2
    let tag := BitVec.ofNat 64 (csp c.e 0x28 8)
    if polderBad s p maxq on tag then done h stINVALID_FIELD 0 s
    else if !sharesFit s p quota share then done h stQUOTA_EXCEEDED 0 s
    else
      let s := if on then s else polderOff p s
      let x : PolderSt := { polderOf s p with enabled := on, attach := BitVec.ofNat 2 (csp c.e 0x22 1), maxq := maxq, tag := tag }
      let s := setPolder p x s
      done h stSUCCESS 0 (rset (setQuota p quota s) pgBPM (0x200 + 4 * p) (BitVec.ofNat 32 share))

def execPolderConfig (h : Nat) (s : State) : Res := .next (polderConfig h s)

/-! ### Firmware -/

/-- The inactive firmware slot in the flash: its offset and length. -/
def idleSlot (s : State) : Option (Nat × Nat) :=
  (s.top.dir.find? (fun e => decide (e.type = (if s.top.committed then 1 else 2)))).map (fun e => (e.offset, e.length))

/-- FW_DOWNLOAD: image bytes go into the inactive slot; OFFSET is into it (R390, R575). Where no directory names the slot,
its place is not stated: a free value of the flash's range. -/
def fwDownload (h : Nat) (image : List Byte) (s : State) : State :=
  adminCmd h 0x86 s fun c s =>
    let o := csp c.e 0x20 4
    let bs := image.take (bufLen c.e c.sgl)
    match idleSlot s with
    | some (a, n) =>
      if n < o + bufLen c.e c.sgl then done h stINVALID_FIELD 0 s
      else done h stSUCCESS 0 { s with mem.flash := writeBytes 0xFF s.mem.flash (a + o) bs }
    | none =>
      done h stSUCCESS 0 (freeNext { s with mem.flash := writeBytes 0xFF s.mem.flash (freeVal s % 2 ^ 26 + o) bs })

def execFwDownload (h : Nat) (image : List Byte) (s : State) : Res := .next (fwDownload h image s)

/-- FW_ACTIVATE in recovery mode: the vault ROM repeats steps 3 to 6, and completes it when the harts run (R580). -/
def recoverActivate (h : Nat) (s : State) : State :=
  let s := bootImages (startCmd h s)
  if s.top.recovery then s else done h stSUCCESS s.top.fwVer.toNat s

/-- FW_ACTIVATE: the image in the inactive slot is committed; with ACTION 1 fetching stops and the cores switch to it once
their other commands have completed (R417, R575). -/
def fwActivate (h : Nat) (s : State) : State :=
  adminCmd h 0x87 s fun c s =>
    if s.top.pf then s else
    match commitFw (!s.top.committed) s with
    | none => done h stIMAGE_INVALID 0 s
    | some (img, s) =>
      if s.top.recovery then recoverActivate h s
      else if csp c.e 0x20 1 = 0 then done h stSUCCESS s.top.fwVer.toNat s
      else activateCheck { startCmd h s with host.fetchStop := true, host.activate := some (h, img) }

def execFwActivate (h : Nat) (s : State) : Res := .next (fwActivate h s)

/-- SCHED_SELECT: firmware loads the image through the SCH registers with AUTOSWITCH 1 (R301, R314), which needs the
loader enabled. -/
def schedSelect (h : Nat) (s : State) : State :=
  adminCmd h 0x88 s fun c s =>
    let sram := csp c.e 0x20 1 = 1
    let a := csp c.e 0x24 4
    if a % (if sram then 64 else 4096) ≠ 0 then done h stINVALID_FIELD 0 s else
    let s := rset (startCmd h s) pgSCH 0x004 (rget s pgSCH 0x004 ||| 1)
    let s := rset (rset s pgSCH 0x100 (BitVec.ofNat 32 (b2n sram))) pgSCH 0x104 (BitVec.ofNat 32 a)
    startLoad sram true a { s with lat.sched.cmd := some h }

def execSchedSelect (h : Nat) (s : State) : Res := .next (schedSelect h s)

/-! ### GET_LOG -/

/-- An error log entry (R420). -/
def ErrEntry.bytes (e : ErrEntry) : List Byte :=
  leBytes e.time 8 ++ [BitVec.ofNat 8 e.sqid, 0] ++ leBytes e.cid.toNat 2 ++ leBytes e.status.toNat 2 ++ [e.opc, e.part] ++
  leBytes e.result.toNat 8 ++ leBytes e.lrn.toNat 8

/-- An event log entry (R558). -/
def EvEntry.bytes (e : EvEntry) : List Byte :=
  leBytes e.ctr.toNat 8 ++ leBytes e.page 2 ++ [BitVec.ofNat 8 e.bit, BitVec.ofNat 8 (b2n e.coalesced)] ++ leBytes e.seq.toNat 2 ++
  leBytes e.count 2

/-- The event log page (R559). -/
def evlogPage (s : State) : List Byte :=
  leBytes s.rf.evlog.length 4 ++ leBytes s.rf.evOver 8 ++ List.replicate 52 0 ++ (s.rf.evlog.reverse.map (·.bytes)).flatten

/-- A quality page (R421); `none_` stands for FIRSTDSN of a pass that carried no data set, which is not stated. -/
def Quality.bytes (q : Quality) (none_ : Nat) : List Byte :=
  let n := fun (k : Nat) => leBytes (sget 0 q.cnts k) 4
  let head := [BitVec.ofNat 8 q.part.val, if q.write then BitVec.ofNat 8 (b2n q.half) else 0, 0, 0] ++ leBytes q.wrap 2 ++ [0, 0] ++
    leBytes (q.firstDsn.getD none_) 4 ++ leBytes q.lastDsn 4
  if q.write then
    let map := (List.range 32).map (fun i => BitVec.ofNat 8 ((q.degraded.filter (fun c => decide (c / 8 = i))).foldl (fun m c => m + 2 ^ (c % 8)) 0))
    head ++ ((List.range 8).map n).flatten ++ [BitVec.ofNat 8 q.endCause, BitVec.ofNat 8 q.degraded.length] ++ List.replicate 14 0 ++ map ++
    ((List.range 256).map (fun c => ((List.range 8).map (fun k => n (chanKey c k))).flatten)).flatten
  else
    head ++ ((List.range 5).map n).flatten ++ List.replicate 28 0 ++
    ((List.range 256).map (fun c => ((List.range 4).map (fun k => n (chanKey c k))).flatten)).flatten

/-- A log page, and the state with any free value drawn for it (R420, R421, R559). Of a pass that has not been, or a copy
that was not there, the spec states no page: its bytes are free. -/
def logPage (s : State) (c : Cmd) (logId lsp : Nat) : List Byte × State :=
  let pass := fun (l : List Quality) (size : Nat) => match l[lsp]? with
    | some q => (q.bytes (freeVal s), freeNext s)
    | none => (leBytes (freeVal s) size, freeNext s)
  match logId with
  | 1 => (((sget [] s.host.errlog c.polder.val).map (·.bytes)).flatten, s)
  | 2 => pass s.trk.wq 8288
  | 3 => pass s.trk.rq 4160
  | 4 => match (s.host.loadCopies[lsp]?).getD none with
    | none => (leBytes (freeVal s) (freeVal (freeNext s) % 2 ^ 32), freeNext (freeNext s))
    | some image => (image, s)
  | 5 => (if s.itg.dumpSt = 2 ∨ s.itg.dumpSt = 3 then readBytes 0 s.mem.dump 0 2097152 else [], s)
  | _ => (evlogPage s, s)

/-- LSP selects one of 16 passes, or of three copies (R420). -/
def lspOk (logId lsp : Nat) : Bool :=
  match logId with
  | 2 => lsp ≤ 15
  | 3 => lsp ≤ 15
  | 4 => lsp ≤ 2
  | _ => true

/-- GET_LOG: page data from OFFSET onward, as much as the buffer takes; BUFFER_SMALL where it takes none of what remains
(R390, R419, R420). -/
def getLog (h : Nat) (s : State) : State :=
  adminCmd h 0x89 s fun c s =>
    let id := csp c.e 0x20 1
    if !lspOk id (csp c.e 0x21 1) then done h stINVALID_FIELD 0 s else
    let (page, s) := logPage s c id (csp c.e 0x21 1)
    let rest := page.drop (csp c.e 0x24 4)
    let bs := rest.take (bufLen c.e c.sgl)
    if bs = [] ∧ rest ≠ [] then done h stBUFFER_SMALL 0 s
    else done h stSUCCESS (bs.length + page.length * 2 ^ 32) (deliverAt c (bufPieces c.e c.sgl) 0 bs s)

def execGetLog (h : Nat) (s : State) : Res := .next (getLog h s)

/-! ### SET_TIME -/

/-- SET_TIME: it is with firmware, for the vault's request REQ_SET_TIME (R520). -/
def setTime (h : Nat) (s : State) : State := adminCmd h 0x8A s fun _ s => startCmd h s

def execSetTime (h : Nat) (s : State) : Res := .next (setTime h s)

end Sys2Proof.Machine
end

