-- ==== Sys2Proof/Machine/Probe.lean ====
section
/-! DEFINITION. What the outputs of the Fizia probe port carry (R665, R666). -/

namespace Sys2Proof.Machine

/-- Some context of an engine is at work. -/
def engBusy (m : Sparse Engine) (i : Nat) : Bool := m.any (fun x => decide (x.1 / 64 = i) && x.2.busy)

/-- State codes of R120. -/
def LgState.code : LgState → Nat
  | .stopped => 0 | .acquire => 1 | .locked => 2 | .framed => 3 | .holdover => 4 | .reassigned => 5 | .lost => 6

/-- Signal `x` of lane group `k` (R665). Ticks, counts and passes are strobes. -/
def groupSignal (g : LaneGroup) (x : Nat) : Option Bool :=
  match x with
  | 0 | 6 | 7 => some false
  | 1 => some (decide (g.slot = 0))
  | 2 => some (!g.st.usable)
  | 3 | 4 | 5 => some (g.st.code.testBit (x - 3))
  | 8 => some (decide (g.st = .locked) || decide (g.st = .framed) || g.ownLock)
  | _ => none

/-- The signal of a catalogue index, where R665 numbers it. A strobe is high only within a step and low between two. -/
def catalogue (s : State) (idx : Nat) : Option Bool :=
  let m := idx % 256
  match idx / 256 with
  | 0x1 => if m / 32 < laneGroups s.variant then groupSignal (lgOf s (m / 32)) (m % 32) else none
  | 0x2 | 0x3 | 0x4 | 0x6 => some false
  | 0x5 => some (s.hwl.sending && decide (m < channels s.variant))
  | 0x7 => if m < 64 then some false else if m < 128 then some (decide ((tileOf s (192 + m)).reason ≠ 0)) else none
  | 0xB =>
    if m < 64 then some (!(riqOf s m).items.isEmpty) else if m < 96 then some (engBusy s.rcd.cmp (m - 64))
    else if m < 128 then some (engBusy s.rcd.dcp (m - 96)) else if m < 140 then some (engBusy s.rcd.cry (m - 128))
    else if m < 156 then some (decide ((sget {} s.dma (m - 140)).st = .running)) else none
  | 0xF => some false
  | _ => none

/-- One that the catalogue names without its number, or not at all, is free (log 104). -/
def probeSignal (s : State) (idx : Nat) : Bool := (catalogue s idx).getD (Config.probeSignal idx s.clk.free)

/-- The port drives its outputs: unlocked, with CTL.EN 1 (R666). -/
def probeOn (s : State) : Bool := driving s && s.prb.unlocked && pageEn s pgPRB

/-- PRB[n]: the signal of SEL[n], or low (R665, R666). -/
def prbOut (s : State) (n : Nat) : Bool := probeOn s && probeSignal s (rfld s pgPRB (0x100 + 4 * n) 11 0)

/-- The clock that CLKSEL chooses, in Hz: that of a domain of R43, or a lane group's (R666, R670). -/
def probeSource (s : State) : Nat :=
  match rfld s pgPRB 0x140 2 0 with
  | 1 => 500000000 | 2 => 1500000000 | 3 => 1600000000 | 4 => 1000 * (lgOf s (rfld s pgPRB 0x140 6 4)).freq | 5 => 25000000 | _ => 0

/-- DIV as it is taken: the smallest that gives at most 250 MHz, where the setting gives more (R666). -/
def probeDiv (s : State) : Nat :=
  let want := rfld s pgPRB 0x140 11 8
  let least := ((List.range 16).find? (fun d => probeSource s ≤ 250000000 * 2 ^ (d + 1))).getD 15
  max want least

/-- PRB_CLK in Hz; 0 while it is low. -/
def probeClk (s : State) : Nat := if probeOn s then probeSource s / 2 ^ (probeDiv s + 1) else 0

/-- The outputs after a change of the port: driven, or low (R666). -/
def probePins (s : State) : State :=
  emit (.probe ((List.range 16).map (prbOut s)) (probeClk s)) { s with pins.prbLow := !probeOn s }

end Sys2Proof.Machine
end

