-- ==== Sys2Proof/Machine/Link.lean ====
section
/-! DEFINITION. The Head Write Link (R654 to R664), the probe port (R665 to R668, R671) and JTAG (R669). -/

namespace Sys2Proof.Machine

/-! ### Head Write Link -/

/-- LINK_FAULT: HWL_FLT_N has been low for 1 µs (R662). -/
def linkFault (s : State) : State :=
  let s := { s with pins.hwlFltN := false }
  if !rbit s pgWLK 0x140 28 then s else requestEnd 9 (raise pgWLK 7 (bump pgWLK 0xA4C 1 s))

def execLinkFault (s : State) : Res := .next (linkFault s)

/-- ALIGN on every lane, 16,384 blocks of 264 counts of TCNT after the last (R655, R657, R658). -/
def align (s : State) : State :=
  if !pageEn s pgWLK then s else
  let t := s.hwl.tcnt + 4325376
  (List.range (2 * laneGroups s.variant)).foldl (fun s l => sendBlocks l 2 [alignBlock l t] s) { s with hwl.tcnt := t }

def execAlign (s : State) : Res := .next (align s)

/-- TIME: a TIME block goes before the next TINT data blocks of a lane (R659). -/
def time (lane : Fin 16) (tstamp : Word) (period : BitVec 24) (s : State) : State :=
  if !s.hwl.sending ∨ 2 * laneGroups s.variant ≤ lane.val then s else sendBlocks lane.val 2 [timeBlock tstamp period] s

def execTime (lane : Fin 16) (tstamp : Word) (period : BitVec 24) (s : State) : Res := .next (time lane tstamp period s)

/-! ### Probe port -/

/-- JTAG instructions that act only while the port is unlocked (R669). -/
def jtagGuarded (j : Jtag) : Bool := j = .extest || j = .clamp || j = .highz

/-- The vault draws a new challenge (R667). -/
def drawChallenge (nonce : List Byte) (s : State) : State := { s with prb := { s.prb with nonce := nonce, valid := true, words := [] } }

/-- The port locks (R667, R671). -/
def lockProbe (nonce : List Byte) (s : State) : State :=
  let j := if jtagGuarded s.prb.jtag then .bypass else s.prb.jtag
  probePins (raise pgPRB 2 (drawChallenge nonce { s with prb := { s.prb with unlocked := false, jtag := j } }))

/-- The 48 bytes of the challenge (R667). -/
def challenge (s : State) : List Byte :=
  (s.prb.nonce ++ List.replicate 32 0).take 32 ++ beBytes s.vlt.devId.toNat 4 ++ [BitVec.ofNat 8 s.vlt.lifecycle.toNat, 0, 0, 0] ++
  beBytes s.prb.attempts 4 ++ [0, 0, 0, 0]

/-- The unlock authority's key is there (R578, R667). -/
def authorityOk (s : State) : Bool := decide (s.vlt.lifecycle = 0) || makerEnrolled s

/-- The 96 bytes of RESPONSE (R667). -/
def response (s : State) : List Byte := (List.range 24).flatMap (fun n => leBytes (rget s pgPRB (0xE00 + 4 * n)).toNat 4)

/-- The response is the unlock authority's signature over the challenge (R667). -/
def responseOk (s : State) : Bool :=
  authorityOk s && ecdsaOk (signer s 0 (if s.vlt.lifecycle = 0 then 0 else 1)) (sha384 (challenge s)) (response s)

/-- The vault verifies a whole response (R667, R668). -/
def verifyUnlock (nonce : List Byte) (s : State) : State :=
  let ok := responseOk s
  let s := { s with prb.attempts := s.prb.attempts + 1 }
  if ok then probePins (secEvent (raise pgPRB 0 (bump pgPRB 0xA00 1 { s with prb.unlocked := true })))
  else
    let n := s.prb.fails + 1
    let s := { s with prb := { s.prb with fails := n, lockedOut := decide (8 ≤ n) } }
    secEvent (raise pgPRB 1 (bump pgPRB 0xA04 1 (drawChallenge nonce s)))

/-- A response word has been written (R667). -/
def wordWritten (n : Nat) (s : State) : State :=
  if n ∈ s.prb.words then s else { s with prb.words := s.prb.words ++ [n] }

/-- UNLOCK: the guarded write of RESPONSE[23] (R667). -/
def unlock (v c : Word) (nonce : List Byte) (s : State) : State :=
  guardedWrite pgPRB v c (fun s =>
    let s := wordWritten 23 (rset s pgPRB 0xE5C v)
    if s.prb.unlocked ∨ s.prb.lockedOut ∨ !(List.range 24).all (fun n => decide (n ∈ s.prb.words)) then s
    else verifyUnlock nonce s) s

def execUnlock (v c : Word) (nonce : List Byte) (s : State) : Res := .next (unlock v c nonce s)

/-! ### JTAG -/

/-- A JTAG instruction comes into force (R669). -/
def jtagGo (j : Jtag) (s : State) : State :=
  { s with prb.jtag := if jtagGuarded j ∧ !s.prb.unlocked then .bypass else j }

def bypass (s : State) : State := jtagGo .bypass s
def execBypass (s : State) : Res := .next (bypass s)

/-- The device identification code of R669. -/
abbrev idcodeWord : Word := 0x1726456F

/-- IDCODE returns the identification code. -/
def idcode (s : State) : State := emit (.tdo idcodeWord) (jtagGo .idcode s)
def execIdcode (s : State) : Res := .next (idcode s)

def samplePreload (s : State) : State := jtagGo .sample s
def execSamplePreload (s : State) : Res := .next (samplePreload s)

def extest (s : State) : State := jtagGo .extest s
def execExtest (s : State) : Res := .next (extest s)

def clamp (s : State) : State := jtagGo .clamp s
def execClamp (s : State) : Res := .next (clamp s)

def highz (s : State) : State := jtagGo .highz s
def execHighz (s : State) : Res := .next (highz s)

end Sys2Proof.Machine
end

