-- ==== Sys2Proof/Machine/RegRead.lean ====
section
/-! DEFINITION. What a read of a register returns (R599, R602, R614, R617): the common registers, the status registers of
every chapter's tables, holding registers, guarded words, and the words that are stored as written. -/

namespace Sys2Proof.Machine

/-! ### Packing -/

/-- Bits `f 0` to `f (n − 1)` as a number. -/
def packBits : Nat → (Nat → Bool) → Nat
  | 0, _ => 0
  | n + 1, f => packBits n f + 2 ^ n * b2n (f n)

/-- A signed number in a field of `w` bits. -/
def fld (w : Nat) (x : Int) : Nat := (x % (2 ^ w : Nat)).toNat

/-- Word `i` of a digest of 48 bytes (R314). -/
def digestWord (d : BitVec 384) (i : Nat) : Nat := leNat ((beBytes d.toNat 48).drop (4 * i) |>.take 4)

/-- The rows of a page, in the two-argument form of a status view: none where the register is a stored word. -/
abbrev View := Nat → Option Nat

/-! ### Status registers by block -/

/-- R595. -/
def topView (s : State) : View := fun o =>
  match o with
  | 0x600 => some (0x7264 + 2 ^ 16 * (match s.variant with | .ac => 0 | .hc => 1) + 2 ^ 20)
  | 0x604 => some (s.top.last + 2 ^ 8 * s.top.failCode + 2 ^ 12 * b2n (s.top.bootSlot.getD false) + 2 ^ 13 * b2n s.mot.sealed +
      2 ^ 14 * b2n s.top.defImage + 2 ^ 15 * b2n s.top.recovery + 2 ^ 16 * s.vlt.lifecycle.toNat)
  | 0x60C => some (b2n s.top.pf + 2 * b2n s.top.pfGate + 4 * b2n s.top.pfQuiet)
  | 0x610 => some s.top.fwVer.toNat
  | 0x614 => some (s.top.fwVer.toNat / 2 ^ 32)
  | 0x618 => some s.vlt.svnMin.toNat
  | 0x620 => some (s.top.flStat + 256 * s.top.flCode)
  | _ => none

/-- R423. -/
def hifView (s : State) : View := fun o =>
  match o with
  | 0x600 => some (s.host.linkSpeed.toNat + 16 * s.host.linkWidth.toNat + 4096 * b2n s.host.linkUp)
  | 0x604 => some (b2n s.host.vfEnable + 256 * s.host.numVFs.toNat)
  | 0x608 => some (packBits 32 (fun f => decide (Fin.ofNat 64 f ∈ s.host.flr)))
  | 0x60C => some (packBits 32 (fun f => decide (Fin.ofNat 64 (f + 32) ∈ s.host.flr)))
  | _ => none

/-- The lane marks of four pseudo-channels (R561). -/
def laneMarks (s : State) (w : Nat) : Nat :=
  ((List.range 4).map (fun i => match sget none s.itg.marks (4 * w + i) with
    | some sym => 2 ^ (8 * i) * (sym + 128)
    | none => 0)).sum

/-- R561. -/
def memView (s : State) : View := fun o =>
  let e := s.itg.rep[rfld s pgMEM 0x128 5 0]?
  match o with
  | 0x600 => some (s.itg.scrubSlot % 8192 + 2 ^ 16 * s.itg.scrubPass)
  | 0x620 => some (match e with | some e => e.mem + 16 * (e.count % 256) + 4096 | none => 0)
  | 0x624 => some (match e with | some e => e.addr | none => 0)
  | 0x628 => some (match e with | some e => e.addr / 2 ^ 32 | none => 0)
  | 0x680 => some (match s.itg.fatal with | some (c, p) => c + 256 + 2 ^ 16 * (p % 8192) | none => 0)
  | 0x684 => some s.itg.dumpSt
  | _ => if 0x640 ≤ o ∧ o < 0x680 then some (laneMarks s ((o - 0x640) / 4)) else none

/-- R563. -/
def fenView (s : State) : View := fun o =>
  let f := fun (base n : Nat) => packBits n (fun i => isFenced s (base + i))
  match o with
  | 0x600 => some (f 0x1000 32)
  | 0x604 => some (f 0x1020 32)
  | 0x608 => some (f 0x2000 16)
  | 0x60C => some (f 0x3000 32)
  | 0x610 => some (f 0x4000 32)
  | 0x614 => some (f 0x5000 12)
  | 0x644 => some (f 0x8000 8)
  | 0x648 => some (f 0x9000 2 + 4 * f 0xA000 5 + 256 * f 0xC000 1)
  | _ => if 0x620 ≤ o ∧ o < 0x644 then some (f (0x7000 + 8 * (o - 0x620)) 32) else none

/-- R522. -/
def vltView (s : State) : View := fun o =>
  match o with
  | 0x610 => some s.vlt.devId.toNat
  | 0x614 => some (s.vlt.lifecycle.toNat + 256 * b2n s.clk.timeSet + 512 * b2n (nsDeg s))
  | 0x618 => some s.clk.devSec
  | 0x61C => some (s.clk.devSec / 2 ^ 32)
  | 0x620 => some s.vlt.keys.length
  | 0x624 => some s.vlt.lost.length
  | _ => none

/-- Slots of a polder in the active table (R524). -/
def tsCount (s : State) (p : Nat) : Nat :=
  let b := if s.ts.active then s.ts.bank1 else s.ts.bank0
  if p = 0 then 4096 - b.length else (b.filter (fun x => decide (x.2.toNat = p))).length

/-- R524. -/
def mtrView (s : State) : View := fun o =>
  match o with
  | 0x600 => some (b2n s.ts.active + 2 * b2n s.ts.swap + 256 * s.ts.rejectCode.toNat)
  | 0x604 => some (tsHash s).toNat
  | 0x608 => some ((tsHash s).toNat / 2 ^ 32)
  | 0x60C => some s.vlt.minute
  | 0x610 => some (s.vlt.minute / 2 ^ 32)
  | _ => if 0x700 ≤ o ∧ o < 0x800 then some (tsCount s ((o - 0x700) / 4)) else none

/-- R667, R670. -/
def prbView (s : State) : View := fun o =>
  if o = 0x600 then
    some (b2n s.prb.unlocked + 2 * b2n s.prb.valid + 4 * b2n s.prb.lockedOut + 16 * (s.prb.fails % 16) +
      256 * b2n (decide (s.vlt.lifecycle ≠ 0)))
  else if 0x610 ≤ o ∧ o < 0x640 then some (leNat ((challenge s).drop (o - 0x610) |>.take 4)) else none

/-- R367. Where the use is no whole number of 16 KiB the spec does not say how it is rounded (log 52). -/
def bpmView (s : State) : View := fun o =>
  if 0x600 ≤ o ∧ o < 0x614 then some ((sget [] s.rcd.freeList ((o - 0x600) / 4)).length)
  else if o = 0x620 then some (packBits 5 (fun k => decide (k ∈ s.rcd.fenPool)))
  else if o = 0x630 then
    let u := stagingUse s (rfld s pgBPM 0x124 5 0)
    some (u / 16384 + (if u % 16384 = 0 then 0 else Config.freeView (rkey pgBPM o) u % 2))
  else if 0x700 ≤ o then
    let r := (o - 0x700) / 4
    some (sget 0 s.rcd.reqFault r % 256 + 256 * b2n (decide (r ∈ s.rcd.reqClosed)))
  else none

def SlotState.code : SlotState → Nat
  | .free => 0 | .filling => 1 | .full => 2 | .onTape => 3 | .readAhead => 4 | .poisoned => 5 | .retired => 6

/-- R368. A slot without a DSN shows none that the spec states (log 52). -/
def bsnView (s : State) : View := fun o =>
  let n := rfld s pgBSN 0x100 12 0
  let x := slotOf s n
  let sys := decide (8160 ≤ n)
  match o with
  | 0x600 => some (if sys then 7 else x.st.code + 8 * b2n x.retire + 2 ^ 8 * x.polder.val + 2 ^ 16 * x.part.val)
  | 0x604 => some (if sys then 0 else x.dsn.getD (Config.freeView (rkey pgBSN o) n))
  | 0x608 => some (if sys then 0 else x.stream.length)
  | _ =>
    if 0x620 ≤ o ∧ o < 0x63C then
      let c := (o - 0x620) / 4
      let k := (s.bas.slots.filter (fun x => decide (x.2.st.code = c))).length
      some (if c = 0 then 8160 - (s.bas.slots.filter (fun x => decide (x.2.st.code ≠ 0))).length else k)
    else if 0x700 ≤ o ∧ o < 0x800 then some (slotsUsed s ((o - 0x700) / 4)) else none

/-- TILESTAT[1:0] (R313). -/
def tileStatus (x : Tile) : Nat := if x.reason ≠ 0 then 1 else if x.role = 5 then 2 else if x.role = 0 then 3 else 0

/-- R313. A TILESEL above 319 names no tile: what it shows is free (log 52). -/
def latView (s : State) : View := fun o =>
  let t := rfld s pgLAT 0x108 8 0
  let x := tileOf s t
  match o with
  | 0x600 => some (match s.lat.detour with
      | some d => d.failed + 2 ^ 16 * d.spare + 2 ^ 28 * b2n (!d.active) + 2 ^ 29 * b2n d.active + 2 ^ 30 * b2n (!d.regen.isEmpty)
      | none => 0)
  | 0x604 => some (match s.lat.master with | some k => k.val + 8 | none => 0)
  | 0x608 => some (s.lat.lastFence.1 + 2 ^ 12 * s.lat.lastFence.2)
  | 0x60C => some (if 320 ≤ t then Config.freeView (rkey pgLAT o) t else tileStatus x + 16 * (x.role % 8) + 256 * (x.len % 2 ^ 20))
  | 0x610 => some (if 320 ≤ t then Config.freeView (rkey pgLAT o) t else x.slack % 2 ^ 20)
  | _ => if 0x640 ≤ o ∧ o < 0x668 then
      some (packBits 32 (fun b => decide ((tileOf s (8 * (o - 0x640) + b)).reason ≠ 0))) else none

/-- R314. How far a load under way has come is free: copy, check or stage (log 126). -/
def schView (s : State) : View := fun o =>
  let c := s.lat.sched
  let word := fun (i : Option SchedImage) (f : SchedImage → Nat) => match i with | some i => f i | none => 0
  match o with
  | 0x600 => some ((if c.phase = 1 then 1 + Config.freeView (rkey pgSCH o) s.clk.ctr500.toNat % 3 else c.phase) + 2 ^ 8 * c.reject + 2 ^ 16 * c.rejTile)
  | 0x604 => some (word c.running (·.imageId.toNat))
  | 0x608 => some (word c.running (·.stateCompat.toNat))
  | 0x60C => some (word c.standby (·.imageId.toNat))
  | _ =>
    if 0x610 ≤ o ∧ o < 0x640 then some (word c.running (fun i => digestWord i.meas ((o - 0x610) / 4)))
    else if 0x640 ≤ o ∧ o < 0x670 then some (word c.standby (fun i => digestWord i.meas ((o - 0x640) / 4)))
    else none

/-- The degraded channels of the pass in progress. -/
def degNow (s : State) : List Nat := match s.trk.pass with | some p => p.degraded | none => []

/-- R214, R663. -/
def wlkView (s : State) : View := fun o =>
  match o with
  | 0x600 => some (degNow s).length
  | 0x640 => some ((if s.pins.hwlIdle then 0 else 2 ^ (2 * laneGroups s.variant) - 1) + 2 ^ 16 * b2n (!s.pins.hwlFltN) +
      2 ^ 17 * b2n s.hwl.sending + 2 ^ 24 * s.hwl.mod.toNat)
  | 0x644 => some s.hwl.wcurNow
  | _ => if 0x620 ≤ o ∧ o < 0x640 then some (packBits 32 (fun b => decide (8 * (o - 0x620) + b ∈ degNow s))) else none

/-- A loop's status registers (R262). -/
def loopView (s : State) (n k : Nat) : Option Nat :=
  let l := loopOf s n
  match k with
  | 0x00 => some (fld 32 l.meas)
  | 0x04 => some (fld 32 l.sp)
  | 0x08 => some (fld 16 l.u)
  | 0x0C => some (fld 32 (l.istate / 65536))
  | 0x10 => some (l.fe % 65536)
  | 0x14 => some (match s.lat.sched.running with | some i => (loopDelay i n).toNat % 65536 | none => 0)
  | _ => none

/-- R262. -/
def mceView (s : State) : View := fun o =>
  let p := s.mot.plan
  match o with
  | 0x6A0 => some (s.mot.spd.nreq % 32 + 2 ^ 8 * (s.mot.spd.nb % 32) + 2 ^ 16 * (s.mot.spd.k % 16) + 2 ^ 24 * b2n p.rev +
      2 ^ 25 * b2n p.dwell + 2 ^ 26 * b2n p.idle)
  | 0x6A4 => some (fld 32 (p.v / 65536))
  | 0x6A8 => some (fld 32 (p.a / 65536))
  | 0x6B0 => some s.mot.move.status
  | 0x14C => some (fld 32 (p.v / 65536))
  | 0x24C => some (fld 32 s.mot.lat.pos)
  | _ => if 0x600 ≤ o ∧ o < 0x6A0 then loopView s ((o - 0x600) / 0x20) ((o - 0x600) % 0x20) else none

/-- R264. -/
def srvView (s : State) : View := fun o =>
  match o with
  | 0x600 => some (b2n s.pins.winh + 2 * s.mot.gate.src.toNat + 256 * b2n s.mot.gate.locked)
  | 0x604 => some (fld 32 s.mot.meas.yUp)
  | 0x608 => some (fld 32 s.mot.meas.yLo)
  | 0x60C => some (fld 32 s.mot.meas.skew)
  | _ => none

/-- R265. -/
def govView (s : State) : View := fun o =>
  let g := s.mot.gov
  if o = 0x600 then
    some (b2n g.active + 2 * b2n g.atRest + 4 * b2n g.passive + 8 * b2n s.mot.sealed + 16 * g.causes.toNat)
  else none

/-- R266, which gives the fields of STATE no meaning (log 52). -/
def trcView (s : State) : View := fun o =>
  if o < 0x600 ∨ 0x640 ≤ o then none else
  let t := trcOf s ((o - 0x600) / 16)
  match (o - 0x600) % 16 with
  | 0 => some (t.kept % 16384)
  | 4 => some t.trigPos
  | 8 => some (Config.freeView (rkey pgTRC o) (b2n t.armed + 2 * b2n t.trig))
  | _ => none

/-- R475. What the FEC and lane bits show while the link is down is free (log 52). -/
def netView (s : State) (p : Nat) : View := fun o =>
  let x := portOf s (Fin.ofNat 2 p)
  if o = 0x600 then
    some (b2n x.linkUp + 2 * b2n x.neg + (if x.linkUp then 0xF4 else Config.freeView (rkey (pgNET p) o) 0 &&& 0xF4) +
      256 * b2n x.held + 512 * b2n (isFenced s (0x9000 + p)))
  else none

def QpState.code : QpState → Nat
  | .free => 0 | .rts => 1 | .draining => 2 | .error => 3

/-- R477, R457. -/
def netqView (s : State) : View := fun o =>
  let q := rfld s pgQP 0x100 9 0
  let x := qpOf s (Fin.ofNat 1024 q)
  match o with
  | 0x604 => some ((if x.dest then 2 else x.st.code) + 256 * x.cause.toNat + 2 ^ 16 * (x.outst % 8192))
  | 0x608 => some (0x100 + q)
  | _ => if 0x640 ≤ o ∧ o < 0x6C0 then
      some (packBits 32 (fun b => decide ((qpOf s (Fin.ofNat 1024 (8 * (o - 0x640) + b))).st = .error))) else none

/-- The polder of the current time slot; a slot that names none shows 0. -/
def slotPolder (s : State) : Nat := match slotOwner s with | some p => p.val | none => 0

/-- R523. -/
def cryView (s : State) (i : Nat) : View := fun o =>
  if o = 0x600 then
    some (b2n (engBusy s.rcd.cry i) + 2 * b2n (isFenced s (0x5000 + i)) + 256 * slotPolder s)
  else none

/-- STAT of a compressor or decompressor: its group's polder, that of the current slot where that one has a group (R366,
R483). -/
def engView (tab : Sparse Engine) (s : State) (i : Nat) : View := fun o =>
  if o = 0x600 then
    let mine := (tab.filter (fun x => decide (x.1 / 64 = i) && x.2.busy)).map (fun x => x.1 % 64)
    let p := if slotPolder s ∈ mine then slotPolder s else mine.headD 0
    some (b2n (!mine.isEmpty) + 256 * p)
  else none

/-- R422. -/
def qmgView (s : State) (f : Nat) : View := fun o =>
  let fn : Fin 64 := Fin.ofNat 64 f
  let x := polderOf s f
  let pr := fun (q : Nat) => getPair s fn (Fin.ofNat 16 q)
  match o with
  | 0x004 => some (b2n (fnEnabled s fn))
  | 0x600 =>
    let dfr := s.host.deferred.any (fun d => d.2.isSome && decide (ownerPolder s d.1 = some fn))
    some (b2n (fnEnabled s fn) + 2 * b2n (polderOn s f) + 4 * b2n (decide (fn ∈ s.host.flr)) + 16 * (x.maxq - 1) + 256 * f +
      2 ^ 16 * b2n dfr)
  | 0x608 => some (packBits 16 (fun q => (pr q).present))
  | 0x60C => some (packBits 16 (fun q => (pr q).halted))
  | 0x610 =>
    let p := pr (rfld s (pgQMG f) 0x118 3 0)
    some (p.sqHead + 2 ^ 16 * p.cqTail + 2 ^ 31 * b2n (p.present && p.phase))
  | 0x620 => some (x.rstAborts % 65536)
  | 0x624 => some (match x.rstPart with | some p => p.val + 128 | none => 0)
  | 0x628 => some x.rstEod
  | 0x62C => some (x.rstEod / 2 ^ 32)
  | _ => none

/-- R364. -/
def riqView (s : State) (p : Nat) : View := fun o =>
  let r := riqOf s p
  let n := ringBytes s p
  let off := fun (x : Nat) => if n = 0 then 0 else x % n
  match o with
  | 0x600 => some (b2n (decide (occupancy r = 0)) + 2 * b2n (decide (n ≤ occupancy r)) + 4 * b2n r.mark.isSome + 8 * b2n r.inItem +
      16 * b2n r.cIn + 32 * b2n r.swallow)
  | 0x604 => some (occupancy r)
  | 0x608 => some (off r.pPos)
  | 0x60C => some (off r.cPos)
  | 0x610 => some (match r.mark with | some m => off m | none => Config.freeView (rkey (pgRIQ p) o) 0 % 2 ^ 24)
  | _ => none

def ChanSt.code : ChanSt → Nat
  | .idle => 0 | .running => 1 | .halted => 2 | .stopped => 3

/-- R450. -/
def dmaView (s : State) (n : Nat) : View := fun o =>
  let c := dmaOf s n
  match o with
  | 0x600 => some (c.st.code + 4 * b2n (isFenced s (0x2000 + n)) + 8 * b2n (c.st = .running && rfld s (pgDMA n) 0x108 8 0 = 0) +
      256 * c.halt.toNat)
  | 0x604 => some c.cur.toNat
  | 0x608 => some (c.cur.toNat / 2 ^ 32)
  | 0x60C => some c.failAddr.toNat
  | 0x610 => some (c.failAddr.toNat / 2 ^ 32)
  | 0x614 => some (c.failSp.toNat + 8 * b2n c.failWr)
  | 0x618 => some (c.done % 2 ^ 25)
  | 0x61C => some (c.wrptr % 2 ^ 24)
  | _ => none

/-- The control side sees the tape side's status in its mirrors (R44, R45). -/
def mirrored (s : State) : State := { s with tim.lgs := s.tim.mLgs, tim.chs := s.tim.mChs }

/-- Direct access to a lane group's domain is closed, so that FREQ cannot be reached: it is in HOLDOVER or LOST (R44, R622). -/
def mayTimeOut (s : State) (k : Nat) : Bool :=
  decide (k < laneGroups s.variant) && (decide ((lgOf s k).st = .holdover) || decide ((lgOf s k).st = .lost))

/-- R167, R168. FREQ alone is read on the tape side itself; while that is closed an access gives no value (R44, R556). -/
def cstView (s : State) (k : Nat) : View := fun o =>
  let g := lgOf (mirrored s) k
  match o with
  | 0x600 => some (g.st.code + 16 * g.src + 256 * (g.holdCnt % 256) +
      (match g.word with | some w => 2 ^ 16 * (wBand w).toNat + 2 ^ 18 * wStripe w | none => 0))
  | 0x604 => some ((g.tone / 2048 % 2 ^ 24).toNat + 2 ^ 31 * b2n g.cposOk)
  | 0x608 => some (fld 12 g.skewLo + 2 ^ 15 * b2n g.loV + 2 ^ 16 * fld 12 g.skewHi + 2 ^ 31 * b2n g.hiV)
  | 0x60C => some (if mayTimeOut s k then 0 else (lgOf s k).freq)
  | _ => none

/-- The zone word in force, with deltas and alteration applied within the limits of R148 (R170). -/
def zoneAct (s : State) (c : Nat) : Nat :=
  let (g, o, y) := zoneParts s c
  2 ^ 22 * fld 10 (clampInt 0 1023 g) + 2 ^ 14 * fld 8 (clampInt (-128) 127 o) + 2 ^ 6 * fld 8 (clampInt (-128) 127 y) +
    bits (zoneUsed s c) 5 0

/-- The tap in force (R155, R170; log 113). -/
def tapNow (s : State) (c i : Nat) : Nat := fld 12 (tapBits (tapAt s c i))

/-- R170, R217. -/
def rchView (s : State) (c : Nat) : View := fun o =>
  let s := mirrored s
  let ch := chOf s c
  let rev := travelRev s
  match o with
  | 0x600 => some (fld 14 (if rev then ch.rskR else ch.rskF) + 2 ^ 16 * fld 14 (if rev then ch.wskR else ch.wskF))
  | 0x604 => some (fld 8 ch.dg + 2 ^ 8 * fld 8 ch.dOff + 2 ^ 16 * fld 8 ch.da)
  | 0x608 => some (zoneAct s c)
  | 0x60C => some (b2n ch.syncLost + 2 * b2n (zoneErase s c))
  | 0x610 => some (ch.margin.toNat + 256 * (ch.reason % 8) + 2 ^ 16 * b2n ch.degraded)
  | _ => if 0x640 ≤ o ∧ o < 0x680 then some (tapNow s c ((o - 0x640) / 4)) else none

/-- The status registers of a page that show the machine's state. -/
def pageView (s : State) (b : Block) (i : Nat) : View :=
  match b with
  | .top => topView s
  | .hif => hifView s
  | .mem => memView s
  | .fen => fenView s
  | .vlt => vltView s
  | .mtr => mtrView s
  | .prb => prbView s
  | .bpm => bpmView s
  | .bsn => bsnView s
  | .lat => latView s
  | .sch => schView s
  | .wlk => wlkView s
  | .mce => mceView s
  | .srv => srvView s
  | .gov => govView s
  | .trc => trcView s
  | .aux => fun o => if 0x600 ≤ o ∧ o < 0x620 then some (sget 0 s.mot.meas.aux ((o - 0x600) / 4)).toNat else none
  | .net => netView s i
  | .netq => netqView s
  | .cry => cryView s i
  | .qmg => qmgView s i
  | .riq => riqView s i
  | .cmp => engView s.rcd.cmp s i
  | .dcp => engView s.rcd.dcp s i
  | .dma => dmaView s i
  | .win => fun _ => none
  | .cst => cstView s i
  | .rch => rchView s i

/-! ### The common registers (R599) -/

/-- The unit of a page is fenced. -/
def pageFenced (s : State) (b : Block) (i : Nat) : Bool :=
  match b with
  | .qmg => polderFenced s i
  | .riq => polderFenced s i
  | .win => polderFenced s (i - 16)
  | .dma => isFenced s (0x2000 + i)
  | .cmp => isFenced s (0x3000 + i)
  | .dcp => isFenced s (0x4000 + i)
  | .cry => isFenced s (0x5000 + i)
  | .rch => isFenced s (0x7000 + i)
  | .cst => isFenced s (0x8000 + i)
  | .net => isFenced s (0x9000 + i)
  | .mce => isFenced s 0xC000
  | _ => false

/-- CTL as read: EN is function f's own on a QMG page (R422). -/
def ctlWord (s : State) (page : Nat) (b : Block) (i : Nat) : Nat :=
  if b = .qmg then b2n (fnEnabled s (Fin.ofNat 64 i)) else b2n (pageEn s page)

/-- A common register. -/
def commonReg (s : State) (page : Nat) (b : Block) (i off : Nat) : Nat :=
  let ev := evOf s page
  match off with
  | 0x000 => i + 2 ^ 12 * blockCode b + 2 ^ 20 + 2 ^ 24 * 0x4E
  | 0x004 => ctlWord s page b i
  | 0x008 => ctlWord s page b i + 2 * b2n (pageFenced s b i) + 4 * b2n (rbit s page 0x018 0) + 256 * rfld s page 0x008 15 8
  | 0x00C => ev.pend.toNat + 2 ^ 16 * ev.seq.toNat
  | 0x014 => rfld s page 0x014 15 0
  | 0x018 => rfld s page 0x018 11 0
  | _ => 0

/-- A 32-bit read of an aligned page offset (R602, R614, R617, R619). Reads have no side effect. -/
def readReg (s : State) (page off : Nat) : Word :=
  match pageBlock s.variant page with
  | none => 0
  | some (b, i) =>
    match decodeOff b off with
    | none => 0
    | some o =>
      if o < 0x020 then BitVec.ofNat 32 (commonReg s page b i o)
      else if 0xF00 ≤ o then ~~~(rget s page (o - 0x100))
      else
        match rowAt b o with
        | none => 0
        | some row =>
          if row.wo then 0
          else if row.hld then
            (if row.pair ∧ o ≠ row.first then BitVec.ofNat 32 (sget 0 s.rf.hold (rkey page row.first) / 2 ^ 32)
             else BitVec.ofNat 32 (sget 0 s.rf.hold (rkey page o)))
          else match pageView s b i o with
            | some n => BitVec.ofNat 32 n
            | none => rget s page o

/-- The core that IRQROUTE names for a block's page group (R568, R626). -/
def irqCore (s : State) (b : Block) : Nat := rfld s pgTOP 0x108 (2 * irqGroup b + 1) (2 * irqGroup b)

/-- Core `h` has a machine external interrupt: some page's condition holds and its group is routed to it. The QMG pages reach no
core (R568, R613). -/
def coreIrq (s : State) (h : Nat) : Bool :=
  (List.range 1024).any (fun p => irqOn s p &&
    (pageBlock s.variant p).any (fun x => decide (x.1 ≠ .qmg) && decide (irqCore s x.1 = h)))

end Sys2Proof.Machine
end

