-- ==== Sys2Proof/Machine/RegAccess.lean ====
section
/-! DEFINITION. Register accesses (R602 to R625, R628): enabling and disabling a block with its consistency rules, event
acknowledgement, snapshots and counter clears, writes under the access codes with the guarded-pair rule, and the
cross-domain timeout. -/

namespace Sys2Proof.Machine

/-! ### Consistency rules -/

/-- The first rule code whose condition holds. -/
def firstRule (rules : List (Bool × Nat)) : Option Nat := (rules.find? (·.1)).map (·.2)

/-- R365. -/
def riqRules (s : State) (p : Nat) : List (Bool × Nat) :=
  let g := fun off hi lo => rfld s (pgRIQ p) off hi lo
  let base := g 0x100 9 0
  let depth := g 0x100 26 16
  let grp := g 0x104 8 0
  let meet := fun (q : Nat) => decide (q ≠ p) && pageEn s (pgRIQ q) &&
    decide (base < rfld s (pgRIQ q) 0x100 9 0 + rfld s (pgRIQ q) 0x100 26 16) && decide (rfld s (pgRIQ q) 0x100 9 0 < base + depth)
  [ (decide (depth = 0) || decide (1024 < depth), 1), (decide (1024 < base + depth), 2), ((List.range 64).any meet, 3),
    (decide (grp = 0) || decide (256 < grp), 4), (decide (depth < 2 * grp), 5),
    (decide (depth * 8192 < g 0x108 13 0 * 64), 6), (decide (g 0x110 15 0 = 0), 7) ]

/-- R451. -/
def dmaRules (s : State) (n : Nat) : List (Bool × Nat) :=
  let g := fun off hi lo => rfld s (pgDMA n) off hi lo
  let ring := decide (g 0x100 16 16 = 1)
  let client := g 0x100 19 17
  [ (decide (g 0x100 6 6 = 1) && decide (vectors (dmaFunc s n) ≤ g 0x100 13 8), 1), (decide (g 0x104 15 0 = 0), 2),
    ((ring && decide (client = 0)) || (!ring && decide (client ≠ 0)) || decide (3 ≤ client), 3),
    (decide (256 < shareSum s n 0 + g 0x108 8 0), 4), (decide (6 < g 0x108 18 16), 5) ]

/-- The station address is zero or multicast: the first octet is bits [15:8] of MACHI (R476, log 50). -/
def macBad (s : State) (p : Nat) : Bool :=
  let lo := rget s (pgNET p) 0x104
  let hi := rfld s (pgNET p) 0x108 15 0
  (decide (lo = 0) && decide (hi = 0)) || decide (hi / 256 % 2 = 1)

/-- R476. -/
def netRules (s : State) (p : Nat) : List (Bool × Nat) :=
  let g := fun off hi lo => rfld s (pgNET p) off hi lo
  [ (decide (g 0x100 1 0 = 3), 1), (decide (g 0x10C 13 0 < 1518) || decide (9216 < g 0x10C 13 0), 2),
    (decide (g 0x114 31 16 = 0) || decide (1000 < g 0x114 31 16), 3), (macBad s p, 4) ]

/-- R263. The order of its table is kept: SMPOL's rules 0x08 and 0x09 come after 0x07. -/
def mceRules (s : State) : List (Bool × Nat) :=
  let p := rget s pgMCE 0x3A0
  let banks := (List.range 5).any (fun n => bankBad s (0x100 + 0x80 * n) || bankBad s (0x120 + 0x80 * n))
  let amax := rfld s pgMCE 0x380 15 0
  let mn := bits p 8 4
  let mx := bits p 16 12
  let fx := bits p 24 20
  let rr := rfld s pgMCE 0x398 20 16
  [ (banks, 1),
    (decide (amax = 0) || decide (rfld s pgMCE 0x384 15 0 = 0) || decide (rfld s pgGOV 0x104 15 0 < amax), 2),
    (decide (mn = 0) || decide (16 < mx) || decide (mx < mn) || !stepOk s mn, 3),
    (smfillBad (rget s pgMCE 0x3A4), 4),
    ((List.range 5).any (fun n => decide (rfld s pgMCE (0x144 + 0x80 * n) 15 0 = 0)), 5), (!s.mot.sealed, 6),
    (s.mot.gov.active, 7), (decide (2 ≤ bits p 1 0), 8), (decide (fx = 0) || decide (16 < fx) || !stepOk s fx, 9),
    (decide (rr = 0) || decide (16 < rr) || !stepOk s rr, 0x0A) ]

/-- The block's own rules, in the order of its table (R216, R263, R265, R365 to R368, R451, R476, R525, R562, R596, R664). -/
def ownRules (s : State) (b : Block) (i : Nat) : List (Bool × Nat) :=
  match b with
  | .top => [(rbit s pgTOP 0x100 16 && decide (rfld s pgTOP 0x100 15 0 < 10), 1)]
  | .mem => [ (decide (rfld s pgMEM 0x104 15 0 < 60), 1), (decide (rfld s pgMEM 0x108 15 0 < 10), 2),
      (decide (rfld s pgMEM 0x10C 7 0 = 0) || decide (rfld s pgMEM 0x10C 15 8 < 4), 3) ]
  | .mtr =>
    let c := rfld s pgMTR 0x10C 3 0
    [(rbit s pgMTR 0x10C 4 && !(rbit s (pgDMA c) 0x100 16 && decide (rfld s (pgDMA c) 0x100 19 17 = 2)), 1)]
  | .bpm => [ (decide (16777216 < ((List.range 5).map (fun k => poolCount s k * poolBytes k)).sum), 1),
      (decide (1024 < ((List.range 64).map (fun p => rfld s pgBPM (0x200 + 4 * p) 10 0)).sum), 2),
      (decide (rfld s pgBPM 0x120 7 0 = 0), 3) ]
  | .bsn => [(decide (8160 - retiredCount s < quotaSum s), 1)]
  | .riq => riqRules s i
  | .cmp => [(decide (rfld s (pgCMP i) 0x100 3 0 = 0) || decide (9 < rfld s (pgCMP i) 0x100 3 0), 1)]
  | .dma => dmaRules s i
  | .net => netRules s i
  | .cst =>
    let gap := fun off => decide (rfld s (pgCST i) off 24 0 < 10666667) || decide (26666667 < rfld s (pgCST i) off 24 0)
    [(gap 0x104, 1), (gap 0x108, 2), (decide (rfld s (pgCST i) 0x100 7 4 = 0), 3)]
  | .rch => [(decide (rfld s (pgRCH i) 0x108 16 12 < 8) || decide (20 < rfld s (pgRCH i) 0x108 16 12), 1)]
  | .wlk => [ (decide (8 < rfld s pgWLK 0x100 7 4), 1), (decide (rfld s pgWLK 0x100 11 8 = 0), 2),
      (decide (8 < rfld s pgWLK 0x104 3 0), 3),
      (decide (rfld s pgWLK 0x140 21 16 < 5) || decide (50 < rfld s pgWLK 0x140 21 16), 0x10),
      (decide (rfld s pgWLK 0x144 7 0 < 32), 0x11), (decide (rfld s pgWLK 0x140 25 24 = 3), 0x12) ]
  | .srv => [ (decide (rfld s pgSRV 0x100 11 0 < rfld s pgSRV 0x100 27 16), 1), (decide (500 < rfld s pgSRV 0x100 11 0), 2) ]
  | .mce => mceRules s
  | _ => []

/-- The page's unit is fenced and its release rule has not been met (R548, R608 rule 0xFF). A DMA channel, a port written
to 0 and a governed MCE are released by what sets EN. -/
def fencedUnmet (s : State) (b : Block) (i : Nat) : Bool :=
  match b with
  | .dma => false
  | .net => isFenced s (0x9000 + i) && !(portOf s (Fin.ofNat 2 i)).offSeen
  | .mce => isFenced s 0xC000 && s.mot.gov.active
  | _ => pageFenced s b i

/-- The rule code that refuses EN, 0xFE and 0xFF before the block's own (R607, R608). -/
def enRule (s : State) (page : Nat) (b : Block) (i : Nat) : Option Nat :=
  firstRule ((rbit s page 0x018 0, 0xFE) :: (fencedUnmet s b i, 0xFF) :: ownRules s b i)

/-! ### Enabling -/

/-- A pool's buffers are all free, in index order (R349). -/
def freshPools (s : State) : State :=
  let lists := (List.range 5).foldl (fun m k => sset [] m k (List.range (poolCount s k))) []
  { s with rcd.freeList := lists, rcd.bufs := [], rcd.use := [] }

/-- The MCE is re-armed: every loop starts from its measured value, the planners are idle, the staged detour of a control
tile activates, and passes count as first since EN (R242, R253, R262, R309). -/
def armMce (s : State) : State :=
  let fresh := fun (x : Nat × Loop) =>
    (x.1, { x.2 with istate := 0, df := 0, eprev := 0, sat := 0, fe := 0, sp := if x.1 = 0 ∨ x.1 = 2 then x.2.meas else x.2.sp })
  let at_ := (loopOf s 2).meas
  let s := { s with itg.fences := sset 0 s.itg.fences 0xC000 0,
                    mot.loops := (s.mot.loops.map fresh).filter (fun x => x.2 ≠ {}), mot.plan := {},
                    mot.lat := { s.mot.lat with pos := at_, target := at_, v := 0, a := 0, moving := false, settle := 0, blind := false },
                    mot.smpol := rget s pgMCE 0x3A0, mot.spd.firstW := true, mot.spd.firstR := true }
  let s := rset s pgMCE 0x6AC (rget s pgMCE 0x6AC &&& 7)
  let s := drive (fun p => { p with pwm := .loops }) s
  match s.lat.detour with
  | some d => if d.role = 4 ∧ !d.active then activateDetour d s else s
  | none => s

/-- The head link starts: MODSEL where the module changed and the reader bias where it changed (R660, R663). -/
def armLink (s : State) : State :=
  let s := selectModule (travelRev s) (drive (fun p => { p with hwlIdle := false }) s)
  let b := rget s pgWLK 0x14C
  if b.setWidth 16 = s.hwl.rbias then s else sendAll 0x03 b.toNat { s with hwl.rbias := b.setWidth 16 }

/-- An ADC channel's self-test runs at its enable (R548). -/
def selfTest (ns : List Nat) (s : State) : State := { s with itg.tests := s.itg.tests ++ ns.filter (· ∉ s.itg.tests) }

/-- What a block does when its EN becomes 1. -/
def onEnable (b : Block) (i : Nat) (s : State) : State :=
  match b with
  | .bpm => freshPools s
  | .lat =>
    let fresh := fun (x : Nat × Tile) => (x.1, { x.2 with slack := 1048575, voids := 0, corr := 0 })
    { s with lat.tiles := (s.lat.tiles.map fresh).filter (fun x => x.2 ≠ {}) }
  | .wlk => armLink s
  | .prb => probePins s
  | .mce => armMce s
  | .net => { s with itg.fences := sset 0 s.itg.fences (0x9000 + i) 0 }
  | .dma =>
    let c := dmaOf s i
    let c := if c.st = .running then c else { c with st := .idle, halt := 0 }
    setDma i c { s with itg.fences := sset 0 s.itg.fences (0x2000 + i) 0 }
  | .rch => selfTest [0x7000 + i] (setCh i (loadTaps (fun j => rfld s (pgRCH i) (0x140 + 4 * j) 11 0) (chOf s i)) s)
  | .cst => selfTest [0x7100 + i] s
  | .srv => selfTest [0x7108, 0x7109, 0x710A, 0x710B] s
  | _ => s

/-- The code that STAT.REJECT takes. Where the GOV page lost its parity the MCE stays off, and no code is named (R544, log
53). -/
def enRefuse (page : Nat) (b : Block) (code : Nat) (s : State) : State :=
  raiseOpt page (cfgRejectBit b) (rset s page 0x008 (BitVec.ofNat 32 (256 * (code % 256))))

/-- CTL_EN_SET: a write of 1 to CTL.EN of a page (R607, R608). The checks come before the write clears a parity fault of
CTL itself (R618). A QMG page's CTL ignores writes (R422). -/
def ctlEnSet (page : Nat) (s : State) : State :=
  match pageBlock s.variant page with
  | none => s
  | some (b, i) =>
    let s := touchPage page s
    if b = .qmg then s
    else if pageEn s page then parClear page 0x004 s
    else match enRule s page b i with
      | some code => enRefuse page b code (parClear page 0x004 s)
      | none =>
        if b = .mce ∧ s.mot.gov.locked then enRefuse page b (freeVal s) (freeNext s)
        else onEnable b i (rset s page 0x004 1)

def execCtlEnSet (page : Nat) (s : State) : Res := .next (ctlEnSet page s)

/-- CTL_EN_CLEAR: a write of 0 to CTL.EN (R609): the unit keeps its state and counters. At the probe port every such write
locks the port and draws a new challenge, whose nonce is `nonce` (R667). -/
def ctlEnClear (page : Nat) (nonce : List Byte) (s : State) : State :=
  match pageBlock s.variant page with
  | none => s
  | some (b, _) =>
    let s := touchPage page s
    if b = .qmg then s else
    let s := parClear page 0x004 (rset s page 0x004 0)
    if b = .prb then lockProbe nonce s else s

def execCtlEnClear (page : Nat) (nonce : List Byte) (s : State) : Res := .next (ctlEnClear page nonce s)

/-! ### Events, snapshots, counters -/

/-- EVACK is honoured: S lies in the window behind SEQ (R612). -/
def ackHonoured (e : EvPage) (v : Word) : Bool := decide ((e.seq - (v >>> 16).setWidth 16).toNat < 32768)

/-- Bits that an honoured EVACK clears (R612). -/
def ackClears (e : EvPage) (v : Word) (b : Nat) : Bool :=
  e.pend.getLsbD b && decide (((v >>> 16).setWidth 16 - sget 0 e.stamps b).toNat < 32768)

/-- The events of a page after an honoured EVACK. -/
def acked (e : EvPage) (v : Word) : EvPage :=
  { e with pend := BitVec.ofNat 16 (packBits 16 (fun b => e.pend.getLsbD b && !ackClears e v b)),
           stamps := e.stamps.filter (fun x => !ackClears e v x.1) }

/-- EVACK: a write of an acknowledge sequence (R612, R613). -/
def evack (page : Nat) (v : Word) (s : State) : State :=
  if (pageBlock s.variant page).isNone then s else
  let s := touchPage page s
  let e := evOf s page
  if !ackHonoured e v then s else
  let s := { s with rf.ev := sset {} s.rf.ev page (acked e v) }
  if 0x040 ≤ page ∧ page < 0x080 ∧ irqOn s page then signal (Fin.ofNat 64 (page - 0x040)) 0 s else s

def execEvack (page : Nat) (v : Word) (s : State) : Res := .next (evack page v s)

/-- The counters of a page: the offset of each one's low word. -/
def pageCounters (b : Block) : List Nat :=
  ((blockRows b).filter (·.hld)).flatMap (fun r => if r.pair then [r.first] else (List.range r.n).map (fun k => r.first + r.step * k))

/-- The live value of a counter: MTR's are those of polder PSEL (R524). -/
def liveCount (s : State) (page : Nat) (b : Block) (off : Nat) : Nat :=
  if b = .mtr then ((meterOf s (rfld s pgMTR 0x110 5 0)).nine[(off - 0xA00) / 8]?).getD 0
  else sget 0 s.rf.cnt (rkey page off)

/-- SNAP: every counter of the page goes into its holding register (R614). -/
def snap (page : Nat) (s : State) : State :=
  match pageBlock s.variant page with
  | none => s
  | some (b, _) =>
    let s := touchPage page s
    let put := fun (m : Sparse Nat) off => sset 0 m (rkey page off) (liveCount s page b off)
    { s with rf.hold := (pageCounters b).foldl put s.rf.hold }

def execSnap (page : Nat) (s : State) : Res := .next (snap page s)

/-- CNTCLR: every live counter of the page is cleared, the holding registers stay (R600). MTR's are the current
interval's counters of polder PSEL. -/
def cntclr (page : Nat) (s : State) : State :=
  match pageBlock s.variant page with
  | none => s
  | some (b, _) =>
    let s := touchPage page s
    let s := { s with rf.cnt := s.rf.cnt.filter (fun x => decide (x.1 / 4096 ≠ page)) }
    if b = .mtr then
      let flags := fun (m : Meter) => { ({} : Meter) with fenced := m.fenced, tableSwap := m.tableSwap }
      { s with vlt.meters := smod {} s.vlt.meters (rfld s pgMTR 0x110 5 0) flags }
    else s

def execCntclr (page : Nat) (s : State) : Res := .next (cntclr page s)

/-! ### Register writes -/

/-- Where an access lands (R620, R624, R625). -/
inductive Target
  | page (idx off : Nat)
  | msix (key : Nat)
  | other
  | hole (f off : Nat)
  deriving DecidableEq, Repr

/-- The target of a requester's byte offset (R374, R620, R624, R625). Page 0x011 is PF0's MSI-X table and PBA, for PF0 alone. -/
def target (r : Requester) (o : Nat) : Target :=
  match r with
  | .vf f =>
    if o < 0x1000 then .page (pgQMG f.val) o
    else if o < 0x1080 then .msix (4096 * f.val + (o - 0x1000))
    else if 0x1800 ≤ o ∧ o < 0x1808 then .other
    else .hole f.val o
  | .pf0 =>
    if o / 4096 % 1024 = 0x011 then (if o % 4096 < 0x400 then .msix (o % 4096) else .other)
    else .page (o / 4096 % 1024) (o % 4096)
  | _ => .page (o / 4096 % 1024) (o % 4096)

/-- A request by PCIe, which has byte enables; the other requesters take a bus error where an access is not aligned. -/
def byPcie (r : Requester) : Bool := match r with | .pf0 => true | .vf _ => true | _ => false

/-- A bus error ends the requester's access (R602, R622, R438). -/
def busError (r : Requester) (off : Nat) (write : Bool) (s : State) : State :=
  match r with
  | .core h => emit (.coreFault h write) s
  | .dma n => dmaHalt n.val 4 (0x40000000 + off) 2 write s
  | _ => s

/-- A write that R628 refuses from anyone but PF0: it does not reach the page. -/
def refusedWrite (r : Requester) (b : Block) (i o : Nat) (v : Word) : Option (State → State) :=
  if isPf0 r then none else
  match b with
  | .win => if 0xE00 ≤ o then some (winDenied (i - 16)) else none
  | .mtr => if o = 0x100 ∨ o = 0x104 ∨ o = 0x108 then some tsDenied else none
  | .netq => if 0x104 ≤ o ∧ o ≤ 0x130 then some qpDenied else none
  | .fen => if o = 0xE00 ∧ bits v 15 12 = 1 then some (fenceDenied true) else none
  | _ => none

/-- The register takes V of a guarded pair, and its condition and effect follow (R616). RESPONSE[23] is UNLOCK's. -/
def guardedTake (r : Requester) (page : Nat) (b : Block) (i o : Nat) (v : Word) (s : State) : State :=
  let s := { s with rf.guard := sset none s.rf.guard page none }
  match b with
  | .gov => govRelease v (~~~v) s
  | .fen => unfence r v (~~~v) s
  | .win => windowWrite r (Fin.ofNat 64 (i - 16)) (Fin.ofNat 32 ((o - 0xE00) / 4)) v (~~~v) s
  | .prb => wordWritten ((o - 0xE00) / 4) (parClear page o (rset s page o v))
  | _ => s

/-- A write to a guarded word (R616, R617). -/
def guardedHalf (r : Requester) (page : Nat) (b : Block) (i o : Nat) (v : Word) (s : State) : State :=
  match sget none s.rf.guard page with
  | none =>
    if 0xF00 ≤ o then guardFail page s else { s with rf.guard := sset none s.rf.guard page (some (o, v)) }
  | some (o', w) =>
    if o = o' + 0x100 ∧ v = ~~~w then
      (if b = .prb ∧ o' = 0xE5C then s else guardedTake r page b i o' w s)
    else touchPage page s

/-- What a written register brings beside its new value; `s0` is the state before the write. The watchdog starts to count when WDEN
is set (R569; DEDUCED, log 129). -/
def afterPut (s0 : State) (page : Nat) (b : Block) (i o : Nat) (s : State) : State :=
  let moved := decide (rget s page o ≠ rget s0 page o)
  match b with
  | .wlk =>
    if o = 0x14C ∧ moved ∧ pageEn s page then
      sendAll 0x03 (rget s page o).toNat { s with hwl.rbias := (rget s page o).setWidth 16 }
    else s
  | .prb => if o < 0x144 then probePins s else s
  | .top => if o = 0x100 ∧ !rbit s0 page o 16 ∧ rbit s page o 16 then { s with top.wdKick := s.clk.mtime.toNat } else s
  | .net =>
    if o = 0x100 ∧ rget s page o = 0 ∧ !pageEn s page then setPort (Fin.ofNat 2 i) { portOf s (Fin.ofNat 2 i) with offSeen := true } s
    else s
  | _ => s

/-- A write under the access codes W1, RW and LIVE (R569, R583, R605, R606); TSIDX is left alone while a swap is pending
(R486). -/
def codedWrite (page : Nat) (b : Block) (i o : Nat) (row : RegRow) (v : Word) (s : State) : State :=
  if row.w1 ≠ 0 then
    (if sget false s.rf.w1 (rkey page o) then relock page s
     else parClear page o (rset { s with rf.w1 := sset false s.rf.w1 (rkey page o) true } page o (v &&& row.w1)))
  else if b = .top ∧ o = 0x100 ∧ rbit s pgTOP 0x100 16 then
    (if v &&& row.rw = rget s page o then s else relock page s)
  else if b = .mtr ∧ o = 0x100 ∧ s.ts.swap then tsReject 2 s
  else
    afterPut s page b i o (putReg page o row v s)

/-- EVMASK takes effect at once (R599, R613). -/
def maskWrite (page : Nat) (v : Word) (s : State) : State :=
  let was := irqOn s page
  msixOnRise was page (parClear page 0x014 (rset s page 0x014 (v &&& 0xFFFF)))

/-- A 32-bit write that reaches a register of the page, at its decoded offset. Registers with a row of their own are
written by that row. -/
def regWrite (r : Requester) (page : Nat) (b : Block) (i o : Nat) (v : Word) (s : State) : State :=
  if 0xE00 ≤ o then guardedHalf r page b i o v s
  else if o < 0x020 then
    (match o with
     | 0x014 => maskWrite page v (touchPage page s)
     | 0x004 => s
     | 0x010 => s
     | 0x01C => s
     | _ => touchPage page s)
  else match rowAt b o with
    | none => touchPage page s
    | some row => if row.own then s else codedWrite page b i o row v (touchPage page s)

/-- A 32-bit write at a page offset: refused, at a hole, or performed (R602, R619, R628). -/
def write32 (r : Requester) (page : Nat) (off : Nat) (v : Word) (s : State) : State :=
  match pageBlock s.variant page with
  | none => accessFault r .unimplemented true page off pgTOP s
  | some (b, i) =>
    match decodeOff b off with
    | none => accessFault r .hole true page off page (touchPage page s)
    | some o =>
      match refusedWrite r b i o v with
      | some f => f s
      | none => regWrite r page b i o v s

/-- A write that lands in the page map: unaligned, too narrow, or one or two 32-bit writes, lower address first (R602). -/
def pageWrite (r : Requester) (a : RegAccess) (page off : Nat) (s : State) : State :=
  let there := (pageBlock s.variant page).isSome
  if !byPcie r ∧ a.offset % a.bytes.val ≠ 0 then
    busError r a.offset true (accessFault r .unaligned true page off (if there then page else pgTOP) s)
  else if !there then accessFault r .unimplemented true page off pgTOP s
  else if a.bytes.val < 4 ∨ !a.aligned ∨ off % 4 ≠ 0 then accessFault r .width true page off page s
  else
    let s := write32 r page off (a.data.setWidth 32) s
    if a.bytes.val = 8 then write32 r page (off + 4) ((a.data >>> 32).setWidth 32) s else s

/-- An MSI-X table word takes what is written (R373, R624, R625). -/
def msixWrite (key : Nat) (a : RegAccess) (s : State) : State :=
  if a.bytes.val < 4 ∨ !a.aligned then s else
  let s := { s with rf.msix := sset 0 s.rf.msix key (a.data.setWidth 32) }
  if a.bytes.val = 8 then { s with rf.msix := sset 0 s.rf.msix (key + 4) ((a.data >>> 32).setWidth 32) } else s

/-- A write of at most 8 bytes, wherever it lands. -/
def write64 (r : Requester) (a : RegAccess) (s : State) : State :=
  match target r a.offset with
  | .page idx off => pageWrite r a idx off s
  | .msix key => msixWrite key a s
  | .other => s
  | .hole f off => accessFault r .hole true (pgQMG f) off (pgQMG f) s

/-- The 32-bit writes of a PCIe request beyond its first 8 bytes, in ascending order (R602). -/
def writeMore (r : Requester) : Nat → List Word → State → State
  | _, [], s => s
  | o, w :: ws, s => writeMore r (o + 4) ws (write64 r { offset := o, bytes := 4, data := w.setWidth 64 } s)

/-- REGISTER_WRITE (R602 to R606, R616 to R625, R628). -/
def registerWrite (r : Requester) (a : RegAccess) (s : State) : State :=
  writeMore r (a.offset + 8) a.more (write64 r a s)

def execRegisterWrite (r : Requester) (a : RegAccess) (s : State) : Res := .next (registerWrite r a s)

/-! ### Cross-domain timeout -/

/-- Offsets of a page's readable registers, guarded values among them, in order (R556). -/
def shownRegs (b : Block) : List Nat :=
  let of_ := fun (r : RegRow) => if r.pair then [r.first, r.first + 4] else (List.range r.n).map (fun k => r.first + r.step * k)
  isort (fun x y => x ≤ y) ([0x000, 0x004, 0x008, 0x00C, 0x014, 0x018] ++ ((blockRows b).filter (fun r => !r.wo)).flatMap of_)

/-- The pages of a device, in order. -/
def pages (v : Variant) : List (Nat × Block) :=
  (List.range 1024).filterMap (fun p => (pageBlock v p).map (fun x => (p, x.1)))

/-- Where the snapshot entry of a register lies in the dump region: after the records of the pages before it. -/
def snapAddr (v : Variant) (page : Nat) (b : Block) (off : Nat) : Nat :=
  let before := ((pages v).filter (fun x => decide (x.1 < page))).map (fun x => 8 + 8 * (shownRegs x.2).length)
  0x88000 + before.sum + 8 + 8 * ((shownRegs b).filter (fun o => decide (o < off))).length

/-- How the access of a requester ends at the timeout (R622). -/
def timeoutEnd (r : Requester) (k off : Nat) (write : Bool) (s : State) : State :=
  match r with
  | .pf0 => if write then s else emit .completerAbort s
  | .vf _ => if write then s else emit .completerAbort s
  | .dumpEngine =>
    if s.itg.dumpSt = 1 then
      { s with mem.dump := writeBytes 0 s.mem.dump (snapAddr s.variant (pgCST k) .cst 0x60C + 2) [1, 0, 0, 0, 0, 0] }
    else s
  | _ => busError r off write s

/-- XDOM_TIMEOUT: an access to CST[k].FREQ has not completed 2 µs after it reached the crossing (R622, R623). -/
def xdomTimeout (r : Requester) (k : Fin 8) (write : Bool) (s : State) : State :=
  if !mayTimeOut s k.val then s else
  let page := pgCST k.val
  timeoutEnd r k.val (4096 * page + 0x60C) write (accessFault r .xdom write page 0x60C page s)

def execXdomTimeout (r : Requester) (k : Fin 8) (write : Bool) (s : State) : Res := .next (xdomTimeout r k write s)

end Sys2Proof.Machine
end

