-- ==== Sys2Proof/Machine/Dump.lean ====
section
/-! DEFINITION. The state dump (R553 to R558, R560). -/

namespace Sys2Proof.Machine

/-! ### Sections -/

/-- Lo words of the 64-bit live pairs of a block: lo/hi pairs that are not holding pairs (R615, R627). -/
def livePairs : Block → List Nat
  | .top => [0x610] | .mem => [0x624] | .fen => [0x600] | .vlt => [0x608, 0x618] | .mtr => [0x604, 0x60C]
  | .qmg => [0x100, 0x108, 0x628] | .dma => [0x10C, 0x604, 0x60C] | .win => [0x600] | _ => []

/-- An entry of the register snapshot (R556). -/
def snapEntry (s : State) (page : Nat) (b : Block) (off : Nat) : List Byte :=
  let live := (livePairs b).any (fun o => decide (off = o) || decide (off = o + 4))
  leBytes off 2 ++ leBytes (2 * b2n live) 2 ++ leBytes (readReg s page off).toNat 4

/-- The record of a page. -/
def snapPage (s : State) (page : Nat) (b : Block) : List Byte :=
  let rs := shownRegs b
  leBytes page 2 ++ leBytes rs.length 2 ++ [0, 0, 0, 0] ++ rs.flatMap (snapEntry s page b)

/-- The register snapshot (R556). -/
def snapshot (s : State) : List Byte := (pages s.variant).flatMap (fun x => snapPage s x.1 x.2) ++ [0xFF, 0xFF]

/-- A tile state record (R557); the cycle count since the last tick is free (log 54). -/
def tileRecord (s : State) (t : Nat) : List Byte :=
  let x := tileOf s t
  leBytes t 2 ++ [BitVec.ofNat 8 (tileStatus x), BitVec.ofNat 8 x.reason] ++ leBytes x.len 4 ++
  leBytes (Config.freeValue (s.clk.free + 1 + t)) 4 ++ leBytes x.slack 4 ++ leBytes x.tick.toNat 8 ++
  [BitVec.ofNat 8 (b2n x.bank), 0, 0, 0, 0, 0, 0, 0] ++ leBytes x.corr 4 ++ leBytes x.voids 4 ++ List.replicate 24 0

/-- The trace section: each buffer's entries, oldest first, in its 64 KiB (R554). -/
def traceBytes (s : State) : List Byte :=
  (List.range 4).flatMap fun b =>
    let m := (trcOf s b).mem
    m.reverse.flatMap (fun w => leBytes w.toNat 4) ++ List.replicate (65536 - 4 * m.length) 0

/-- The event log section (R554, R558). -/
def evlogBytes (s : State) : List Byte := s.rf.evlog.reverse.flatMap (·.bytes)

/-- A DIR entry (R555): the section's place and size of R554, and its CRC over all of it (log 54). -/
def dirEntry (m : Sparse Byte) (off len : Nat) : List Byte :=
  leBytes off 4 ++ leBytes len 4 ++ leBytes (crc32c (readBytes 0 m off len)).toNat 4 ++ [0, 0, 0, 0]

/-- FLAGS of the header; how the hardware knows that the firmware section is valid is not stated: it is free (log 54). -/
def dumpFlags (s : State) : Nat :=
  b2n (!s.top.pf) + 2 * b2n s.itg.dump.auto + 4 * (freeVal s % 2) + 8 * b2n (decide (s.itg.dump.cause2 ≠ 0))

/-- The header without its HCRC (R555). -/
def dumpHead (s : State) (m : Sparse Byte) : List Byte :=
  let d := s.itg.dump
  let img := match s.lat.sched.running with | some i => i.imageId.toNat | none => 0
  [0x43, 0x4B, 0x44, 0x4D] ++ leBytes 1 2 ++ leBytes (dumpFlags s) 2 ++ leBytes s.vlt.devId.toNat 4 ++
  [match s.variant with | .ac => 0 | .hc => 1, BitVec.ofNat 8 d.cause] ++ leBytes d.page 2 ++ leBytes d.devTime 8 ++
  leBytes d.ctr.toNat 8 ++ leBytes s.top.fwVer.toNat 8 ++ leBytes img 4 ++ [BitVec.ofNat 8 d.cause2, 0, 0, 0] ++
  leBytes d.ctr2.toNat 8 ++ leBytes 0 8 ++ dirEntry m 0x88000 0x100000 ++ dirEntry m 0x1000 0x7000 ++
  dirEntry m 0x48000 0x40000 ++ dirEntry m 0x8000 0x40000 ++ dirEntry m 0x188000 0x78000 ++ List.replicate 3948 0

/-- The firmware section as firmware left it. -/
def fwSection (m : Sparse Byte) : Sparse Byte := m.filter (fun x => decide (0x188000 ≤ x.1))

/-! ### Capture -/

/-- A capture starts: the register snapshot is taken first (R553). The read of a FREQ that cannot be reached ends in the cross-domain
timeout (R44, R556, R622). -/
def startDump (auto : Bool) (s : State) : State :=
  if s.itg.fatal.isNone ∨ s.itg.dumpSt ≠ 0 then s else
  let cells := listCells 0x88000 ((snapshot s).take 0x100000) ++ fwSection s.mem.dump
  let s := { s with itg.dumpSt := 1, itg.dump.auto := auto, mem.dump := cells }
  (List.finRange 8).foldl (fun s k => xdomTimeout .dumpEngine k false s) s

/-- DUMP_GO: DUMPCTL.GO is written (R553). -/
def dumpGo (s : State) : State :=
  let s := touchPage pgMEM s
  if s.itg.fatal.isNone then s else startDump false { s with itg.dumpGo := true }

def execDumpGo (s : State) : Res := .next (dumpGo s)

/-- DUMP_WAIT_EXPIRY: DUMP_WAIT has passed since FATAL without GO (R553). -/
def dumpWaitExpiry (s : State) : State := if s.itg.dumpGo then s else startDump true s

def execDumpWaitExpiry (s : State) : Res := .next (dumpWaitExpiry s)

/-- DUMP_DONE: the other sections and the header stand, and the dump is held (R553 to R558). -/
def dumpDone (s : State) : State :=
  if s.itg.dumpSt ≠ 1 then s else
  let rest := s.mem.dump.filter (fun x => decide (0x88000 ≤ x.1))
  let tiles := ((List.range 320).flatMap (tileRecord s)).take 0x7000
  let body := listCells 0x1000 tiles ++ (listCells 0x8000 ((evlogBytes s).take 0x40000) ++
    (listCells 0x48000 ((traceBytes s).take 0x40000) ++ rest))
  let head := (dumpHead s body).take 0xFFC
  let head := head ++ leBytes (crc32c head).toNat 4
  let s := { s with mem.dump := listCells 0 head ++ body, itg.dump.complete := !s.top.pf, clk.free := s.clk.free + 321 }
  raise pgMEM 11 { s with itg.dumpSt := if s.itg.dump.auto then 3 else 2 }

def execDumpDone (s : State) : Res := .next (dumpDone s)

/-- DUMP_CLEAR: DUMPCTL.CLEAR is written: a held dump is released (R553). -/
def dumpClear (s : State) : State :=
  let s := touchPage pgMEM s
  if s.itg.dumpSt = 2 ∨ s.itg.dumpSt = 3 then { s with itg.dumpSt := 0 } else s

def execDumpClear (s : State) : Res := .next (dumpClear s)

end Sys2Proof.Machine
end

