-- ==== Sys2Proof/Machine/Dispatch.lean ====
section
/-! DEFINITION. The dispatch: one arm for each command, calling its one meaning. -/

namespace Sys2Proof.Machine

/-- The effect of a command on everything but the queue. -/
def exec (i : Instr) (s : State) : Host.Outcome State Fault Refusal :=
  match i with
  | .openPartition h => Sys2Proof.Machine.execOpenPartition h s
  | .writeRecords h => Sys2Proof.Machine.execWriteRecords h s
  | .readRecords h => Sys2Proof.Machine.execReadRecords h s
  | .writeMark h => Sys2Proof.Machine.execWriteMark h s
  | .sync h => Sys2Proof.Machine.execSync h s
  | .locate h => Sys2Proof.Machine.execLocate h s
  | .space h marks => Sys2Proof.Machine.execSpace h marks s
  | .reportPosition h marksBelow => Sys2Proof.Machine.execReportPosition h marksBelow s
  | .keyImport h => Sys2Proof.Machine.execKeyImport h s
  | .attest h => Sys2Proof.Machine.execAttest h s
  | .getMeter h => Sys2Proof.Machine.execGetMeter h s
  | .abort h => Sys2Proof.Machine.execAbort h s
  | .load h env => Sys2Proof.Machine.execLoad h env s
  | .unload h => Sys2Proof.Machine.execUnload h s
  | .partitionCreate h => Sys2Proof.Machine.execPartitionCreate h s
  | .partitionDelete h => Sys2Proof.Machine.execPartitionDelete h s
  | .polderConfig h => Sys2Proof.Machine.execPolderConfig h s
  | .fwDownload h image => Sys2Proof.Machine.execFwDownload h image s
  | .fwActivate h => Sys2Proof.Machine.execFwActivate h s
  | .schedSelect h => Sys2Proof.Machine.execSchedSelect h s
  | .getLog h => Sys2Proof.Machine.execGetLog h s
  | .setTime h => Sys2Proof.Machine.execSetTime h s
  | .sqTailDoorbell f q v core => Sys2Proof.Machine.execSqTailDoorbell f q v core s
  | .cqHeadDoorbell f q v => Sys2Proof.Machine.execCqHeadDoorbell f q v s
  | .queueCreate f qid => Sys2Proof.Machine.execQueueCreate f qid s
  | .queueDelete f qid => Sys2Proof.Machine.execQueueDelete f qid s
  | .qopDone f qid => Sys2Proof.Machine.execQopDone f qid s
  | .serviceSlot fetch words => Sys2Proof.Machine.execServiceSlot fetch words s
  | .interruptAggregationTimeout f q => Sys2Proof.Machine.execInterruptAggregationTimeout f q s
  | .flr f => Sys2Proof.Machine.execFlr f s
  | .perstN => Sys2Proof.Machine.execPerstN s
  | .linkDown => Sys2Proof.Machine.execLinkDown s
  | .linkUp speed width => Sys2Proof.Machine.execLinkUp speed width s
  | .vfEnableClear => Sys2Proof.Machine.execVfEnableClear s
  | .vfEnableSet numVFs => Sys2Proof.Machine.execVfEnableSet numVFs s
  | .pcieCompletion n res => Sys2Proof.Machine.execPcieCompletion n res s
  | .cplTimeout n => Sys2Proof.Machine.execCplTimeout n s
  | .commandCapsule qp cap => Sys2Proof.Machine.execCommandCapsule qp cap s
  | .rdmaReadResponse qp psn data => Sys2Proof.Machine.execRdmaReadResponse qp psn data s
  | .acknowledge qp kind psn => Sys2Proof.Machine.execAcknowledge qp kind psn s
  | .ackTimeout qp => Sys2Proof.Machine.execAckTimeout qp s
  | .cnpReceived qp => Sys2Proof.Machine.execCnpReceived qp s
  | .rateIncreaseTimer qp => Sys2Proof.Machine.execRateIncreaseTimer qp s
  | .frameReceived port fr => Sys2Proof.Machine.execFrameReceived port fr s
  | .pfcReceived port pause => Sys2Proof.Machine.execPfcReceived port pause s
  | .completionCapsuleTimeout qp => Sys2Proof.Machine.execCompletionCapsuleTimeout qp s
  | .portLinkUp port => Sys2Proof.Machine.execPortLinkUp port s
  | .portLinkDown port => Sys2Proof.Machine.execPortLinkDown port s
  | .linkholdExpiry port => Sys2Proof.Machine.execLinkholdExpiry port s
  | .qpCreate r qp => Sys2Proof.Machine.execQpCreate r qp s
  | .qpDestroy r qp => Sys2Proof.Machine.execQpDestroy r qp s
  | .qpFree r qp => Sys2Proof.Machine.execQpFree r qp s
  | .dmaGo n hostDesc core => Sys2Proof.Machine.execDmaGo n hostDesc core s
  | .dmaStop n => Sys2Proof.Machine.execDmaStop n s
  | .dmaBurst n tlp waited => Sys2Proof.Machine.execDmaBurst n tlp waited s
  | .descriptorDone n hostDesc => Sys2Proof.Machine.execDescriptorDone n hostDesc s
  | .ringFlushTimeout n => Sys2Proof.Machine.execRingFlushTimeout n s
  | .rdptrWrite n v => Sys2Proof.Machine.execRdptrWrite n v s
  | .sluiceWrite n v => Sys2Proof.Machine.execSluiceWrite n v s
  | .windowWrite r f k v c => Sys2Proof.Machine.execWindowWrite r f k v c s
  | .intakeWord p tag data parity nb => Sys2Proof.Machine.execIntakeWord p tag data parity nb s
  | .producerStallRelease p => Sys2Proof.Machine.execProducerStallRelease p s
  | .idle p => Sys2Proof.Machine.execIdle p s
  | .flush p => Sys2Proof.Machine.execFlush p s
  | .markExpired p => Sys2Proof.Machine.execMarkExpired p s
  | .compressDone e blocks => Sys2Proof.Machine.execCompressDone e blocks s
  | .encryptDone e res => Sys2Proof.Machine.execEncryptDone e res s
  | .groupPlace p => Sys2Proof.Machine.execGroupPlace p s
  | .decryptDone e h res => Sys2Proof.Machine.execDecryptDone e h res s
  | .decompressDone e h => Sys2Proof.Machine.execDecompressDone e h s
  | .bufferAllocate reqs => Sys2Proof.Machine.execBufferAllocate reqs s
  | .bufferFree r handle => Sys2Proof.Machine.execBufferFree r handle s
  | .pshareWrite p v => Sys2Proof.Machine.execPshareWrite p v s
  | .quotaWrite p v => Sys2Proof.Machine.execQuotaWrite p v s
  | .wrapPlanPost e => Sys2Proof.Machine.execWrapPlanPost e s
  | .slotTick k obs => Sys2Proof.Machine.execSlotTick k obs s
  | .dataSetBoundary => Sys2Proof.Machine.execDataSetBoundary s
  | .basinRestart => Sys2Proof.Machine.execBasinRestart s
  | .readResume => Sys2Proof.Machine.execReadResume s
  | .verifyVerdict pos c slot => Sys2Proof.Machine.execVerifyVerdict pos c slot s
  | .dataSetDecode dsn => Sys2Proof.Machine.execDataSetDecode dsn s
  | .syncLost c => Sys2Proof.Machine.execSyncLost c s
  | .wskewTrim c => Sys2Proof.Machine.execWskewTrim c s
  | .lmsDeltaStep c kind => Sys2Proof.Machine.execLmsDeltaStep c kind s
  | .clockPositionWord k w periods => Sys2Proof.Machine.execClockPositionWord k w periods s
  | .phaseLock k step => Sys2Proof.Machine.execPhaseLock k step s
  | .acqTimeout k => Sys2Proof.Machine.execAcqTimeout k s
  | .holdEnter k => Sys2Proof.Machine.execHoldEnter k s
  | .holdExpire k => Sys2Proof.Machine.execHoldExpire k s
  | .skewMeasurement k lo hi => Sys2Proof.Machine.execSkewMeasurement k lo hi s
  | .forceSrcWrite k v => Sys2Proof.Machine.execForceSrcWrite k v s
  | .servoRecord upper lower leadUpper leadLower period prog => Sys2Proof.Machine.execServoRecord upper lower leadUpper leadLower period prog s
  | .lockLost => Sys2Proof.Machine.execLockLost s
  | .winhRelease => Sys2Proof.Machine.execWinhRelease s
  | .shock => Sys2Proof.Machine.execShock s
  | .shockNRise => Sys2Proof.Machine.execShockNRise s
  | .shockHoldExpiry => Sys2Proof.Machine.execShockHoldExpiry s
  | .t25Tick aux prog => Sys2Proof.Machine.execT25Tick aux prog s
  | .t2kTick prog => Sys2Proof.Machine.execT2kTick prog s
  | .feTrip n => Sys2Proof.Machine.execFeTrip n s
  | .turnCoastExpiry => Sys2Proof.Machine.execTurnCoastExpiry s
  | .wrapEnd => Sys2Proof.Machine.execWrapEnd s
  | .revDwellExpiry => Sys2Proof.Machine.execRevDwellExpiry s
  | .moveGo => Sys2Proof.Machine.execMoveGo s
  | .moveAbort => Sys2Proof.Machine.execMoveAbort s
  | .moveDone => Sys2Proof.Machine.execMoveDone s
  | .bankSwap n v => Sys2Proof.Machine.execBankSwap n v s
  | .trimWrite n reg v => Sys2Proof.Machine.execTrimWrite n reg v s
  | .speedPolicyWrite fill v => Sys2Proof.Machine.execSpeedPolicyWrite fill v s
  | .wforceWrite v => Sys2Proof.Machine.execWforceWrite v s
  | .stop => Sys2Proof.Machine.execStop s
  | .crestBreach causes => Sys2Proof.Machine.execCrestBreach causes s
  | .govRest => Sys2Proof.Machine.execGovRest s
  | .passiveBrake => Sys2Proof.Machine.execPassiveBrake s
  | .motorUvN => Sys2Proof.Machine.execMotorUvN s
  | .passiveRest => Sys2Proof.Machine.execPassiveRest s
  | .govRelease v c => Sys2Proof.Machine.execGovRelease v c s
  | .traceArm b => Sys2Proof.Machine.execTraceArm b s
  | .traceDisarm b => Sys2Proof.Machine.execTraceDisarm b s
  | .traceFire b => Sys2Proof.Machine.execTraceFire b s
  | .traceCaptureEnd b => Sys2Proof.Machine.execTraceCaptureEnd b s
  | .latFence v => Sys2Proof.Machine.execLatFence v s
  | .tileOverrun t => Sys2Proof.Machine.execTileOverrun t s
  | .detourActive => Sys2Proof.Machine.execDetourActive s
  | .regenerationDone dsn => Sys2Proof.Machine.execRegenerationDone dsn s
  | .schedLoadGo v => Sys2Proof.Machine.execSchedLoadGo v s
  | .schedLoadCancel => Sys2Proof.Machine.execSchedLoadCancel s
  | .loadDone copyOk => Sys2Proof.Machine.execLoadDone copyOk s
  | .schedSwitchGo => Sys2Proof.Machine.execSchedSwitchGo s
  | .imageSwitch => Sys2Proof.Machine.execImageSwitch s
  | .reqAttest obs => Sys2Proof.Machine.execReqAttest obs s
  | .reqKeyImport => Sys2Proof.Machine.execReqKeyImport s
  | .reqPartErase => Sys2Proof.Machine.execReqPartErase s
  | .reqSetTime => Sys2Proof.Machine.execReqSetTime s
  | .reqUnloadNotice => Sys2Proof.Machine.execReqUnloadNotice s
  | .quoteKeyExpiry quoteId => Sys2Proof.Machine.execQuoteKeyExpiry quoteId s
  | .checkpointDurable keyFp readBack => Sys2Proof.Machine.execCheckpointDurable keyFp readBack s
  | .minuteClosed => Sys2Proof.Machine.execMinuteClosed s
  | .tsdataWrite r v => Sys2Proof.Machine.execTsdataWrite r v s
  | .tsSwap r => Sys2Proof.Machine.execTsSwap r s
  | .tsSwapped => Sys2Proof.Machine.execTsSwapped s
  | .scrubRead place errs => Sys2Proof.Machine.execScrubRead place errs s
  | .repeatDecay e => Sys2Proof.Machine.execRepeatDecay e s
  | .spareRowRemap bank row => Sys2Proof.Machine.execSpareRowRemap bank row s
  | .tileReload t => Sys2Proof.Machine.execTileReload t s
  | .areaReload => Sys2Proof.Machine.execAreaReload s
  | .pscrubGo => Sys2Proof.Machine.execPscrubGo s
  | .pscrubAbort => Sys2Proof.Machine.execPscrubAbort s
  | .pscrubDone rep => Sys2Proof.Machine.execPscrubDone rep s
  | .paritySweep bad => Sys2Proof.Machine.execParitySweep bad s
  | .fence r v => Sys2Proof.Machine.execFence r v s
  | .unfence r v c => Sys2Proof.Machine.execUnfence r v c s
  | .selfTestDone unit t => Sys2Proof.Machine.execSelfTestDone unit t s
  | .fenFatal v => Sys2Proof.Machine.execFenFatal v s
  | .dumpGo => Sys2Proof.Machine.execDumpGo s
  | .dumpClear => Sys2Proof.Machine.execDumpClear s
  | .dumpWaitExpiry => Sys2Proof.Machine.execDumpWaitExpiry s
  | .dumpDone => Sys2Proof.Machine.execDumpDone s
  | .powerOnReset => Sys2Proof.Machine.execPowerOnReset s
  | .sysrstNRise env => Sys2Proof.Machine.execSysrstNRise env s
  | .wdkick v => Sys2Proof.Machine.execWdkick v s
  | .watchdogWarning => Sys2Proof.Machine.execWatchdogWarning s
  | .wdog => Sys2Proof.Machine.execWdog s
  | .coreRestart => Sys2Proof.Machine.execCoreRestart s
  | .recordSideRestart => Sys2Proof.Machine.execRecordSideRestart s
  | .fwready => Sys2Proof.Machine.execFwready s
  | .flashRead => Sys2Proof.Machine.execFlashRead s
  | .flashProgram => Sys2Proof.Machine.execFlashProgram s
  | .flashErase => Sys2Proof.Machine.execFlashErase s
  | .flashDone => Sys2Proof.Machine.execFlashDone s
  | .fwcommit slotB => Sys2Proof.Machine.execFwcommit slotB s
  | .lctrans v => Sys2Proof.Machine.execLctrans v s
  | .pfw => Sys2Proof.Machine.execPfw s
  | .mramQuiescent => Sys2Proof.Machine.execMramQuiescent s
  | .mtimer h => Sys2Proof.Machine.execMtimer h s
  | .msipWrite h v => Sys2Proof.Machine.execMsipWrite h v s
  | .linkFault => Sys2Proof.Machine.execLinkFault s
  | .align => Sys2Proof.Machine.execAlign s
  | .time lane tstamp period => Sys2Proof.Machine.execTime lane tstamp period s
  | .unlock v c nonce => Sys2Proof.Machine.execUnlock v c nonce s
  | .bypass => Sys2Proof.Machine.execBypass s
  | .idcode => Sys2Proof.Machine.execIdcode s
  | .samplePreload => Sys2Proof.Machine.execSamplePreload s
  | .extest => Sys2Proof.Machine.execExtest s
  | .clamp => Sys2Proof.Machine.execClamp s
  | .highz => Sys2Proof.Machine.execHighz s
  | .ctlEnSet page => Sys2Proof.Machine.execCtlEnSet page s
  | .ctlEnClear page nonce => Sys2Proof.Machine.execCtlEnClear page nonce s
  | .evack page v => Sys2Proof.Machine.execEvack page v s
  | .snap page => Sys2Proof.Machine.execSnap page s
  | .cntclr page => Sys2Proof.Machine.execCntclr page s
  | .registerWrite r a => Sys2Proof.Machine.execRegisterWrite r a s
  | .xdomTimeout r k write => Sys2Proof.Machine.execXdomTimeout r k write s
  | .resetDone f => Sys2Proof.Machine.execResetDone f s
  | .activateBusy => Sys2Proof.Machine.execActivateBusy s
  | .rnrRetry qp => Sys2Proof.Machine.execRnrRetry qp s
  | .supplyLoss => Sys2Proof.Machine.execSupplyLoss s

end Sys2Proof.Machine
end

