-- ==== Sys2Proof/Safety.lean ====
section
/-! DEFINITION. What the claims speak of: the canonical form of the byte memories, and when a host command is the one
whose turn it is, and which commands may reach a part of the state. -/

namespace Sys2Proof.Machine

/-- The byte memories stand in their canonical form: rising addresses, and no byte equal to what an unlisted address
reads as (0xFF in the flash, 0 elsewhere; log 10). -/
def Memory.wf (m : Mems) : Bool :=
  swf (fun _ => 0) m.staging && swf (fun _ => 0) m.coreMem && swf (fun _ => 0) m.sysRegion && swf (fun _ => 0) m.dump &&
  swf (fun _ => 0) m.mramFw && swf (fun _ => 0xFF) m.flash

/-- The command `c` with handle `h` and opcode `opc` is live, undecided and unstarted, and it is its turn (R406, R417,
R491, R552, R580, R585). -/
abbrev Ready (s : State) (h : Nat) (opc : Byte) (c : Cmd) : Prop :=
  cmdOf s h = some c ∧ c.e.opc = opc ∧ c.fin = none ∧ c.started = false ∧ mayExec s c = true ∧ s.itg.fatal = none ∧
  (byFirmware opc.toNat = true → s.top.recovery = true ∨ (s.host.fwHold = false ∧ s.host.activate = none))

/-- No other command of its kind runs (R419). -/
abbrev NoneAlike (s : State) (c : Cmd) : Prop := sameRunning s c = false

/-- A control tick of a kind faults no tile: every tile of its domain has ended its program by then, and no program shows a fault
(R302). -/
abbrev QuietTick (s : State) (kind period : Nat) (prog : ProgObs) : Prop :=
  prog.tileFaults = [] ∧ ∀ x ∈ s.lat.tiles, joins kind x.2 = true → x.2.reason = 0 → stillRuns (latCycle s kind period) x.2 = false

/-- The counter of a page at an offset. -/
def count (s : State) (page off : Nat) : Nat := sget 0 s.rf.cnt (rkey page off)

/-- An event bit of a page is pending. -/
def evPending (s : State) (page bitNo : Nat) : Bool := (evOf s page).pend.getLsbD bitNo

/-- The commands that may change a byte of the memories: they move data, boot, dump or repair, or
stop a DMA channel, whose move ends with bytes the source leaves open. A register write is among them: CH_STOP, CH_RESET
and the like stop a channel. Every other command leaves
every byte as it stands. -/
def writesMemory : Instr → Bool
  | .fwDownload _ _ | .fwActivate _ | .serviceSlot _ _ | .pcieCompletion _ _ | .dmaStop _ | .dmaBurst _ _ _
  | .ringFlushTimeout _ | .flr _ | .perstN | .linkDown | .vfEnableClear | .cplTimeout _ | .descriptorDone _ _
  | .registerWrite _ _ | .reqAttest _ | .scrubRead _ _ | .pscrubDone _ | .paritySweep _ | .fenFatal _ | .dumpGo
  | .dumpWaitExpiry | .dumpDone | .powerOnReset | .sysrstNRise _ | .wdog | .coreRestart
  | .recordSideRestart | .flashDone | .fwcommit _ | .xdomTimeout _ _ _ => true
  | .dmaGo _ _ core | .sqTailDoorbell _ _ _ core => core.isSome
  | _ => false

/-- The commands that may change the probe port: its own, a reset, and accesses of its page. -/
def movesProbe : Instr → Bool
  | .powerOnReset | .sysrstNRise _ | .unlock _ _ _ | .bypass | .idcode | .samplePreload | .extest | .clamp
  | .highz | .ctlEnClear _ _ | .registerWrite _ _ => true
  | _ => false

end Sys2Proof.Machine
end

