-- ==== Sys2Proof/Certificates/Slice0/Obligations.lean ====
section
/-! DEFINITION. The statements for the provers. Each names the rules of spec/ it speaks of; a clause that rests on a choice
of the model names its log entry. -/

open Sys2Proof Sys2Proof.Machine

/-! ### The queue of commands -/

/-- The command at the front of the queue runs on the state with the queue's rest; on an empty queue the block idles
(log 19). -/
def Obligations.StepRunsTheFrontCommand : Prop :=
  (∀ (s : State) (c : Instr) (rest : List Instr), s.pending = c :: rest → step s = exec c { s with pending := rest }) ∧
  ∀ s : State, s.pending = [] → step s = .next s

/-- No command touches the queue: a step takes the front command off and leaves the rest as it stands, in order. -/
def Obligations.QueueLosesOnlyItsFront : Prop :=
  ∀ (s t : State), step s = .next t → t.pending = s.pending.tail

/-- The frame of every command: one that is not among those that move data, boot, dump or repair leaves every byte of
every memory as it stands; one that is not the probe port's own, a reset or an access of its page leaves the port; and none
changes the variant (R1). -/
def Obligations.FramesOfMemoriesAndProbe : Prop :=
  ∀ (s t : State) (i : Instr), exec i s = .next t →
    (writesMemory i = false → t.mem = s.mem) ∧ (movesProbe i = false → t.prb = s.prb) ∧ t.variant = s.variant

/-- Every step keeps the byte memories in their canonical form. -/
def Obligations.MemoryStaysCanonical : Prop :=
  ∀ (s t : State), Memory.wf s.mem = true → step s = .next t → Memory.wf t.mem = true

/-- After reset the byte memories stand in their canonical form, nothing is pending in the queue or in any page, and the
device is held in reset with its boot sequence not begun (R576, R584). -/
def Obligations.ResetState : Prop :=
  Memory.wf State.reset.mem = true ∧ State.reset.pending = [] ∧ (∀ p : Nat, (evOf State.reset p).pend = 0) ∧
  State.reset.top.heldReset = true ∧ State.reset.top.last = 0 ∧ State.reset.cart = none ∧ State.reset.host.cmds = []

/-! ### Host commands -/

/-- OPEN_PARTITION (R399): MODE 0 opens the partition on the issuing queue with the read point at LRN 0 and keeps the
queue's writer binding as it was; MODE 1 also binds the queue as the partition's writer; MODE 2 ends the queue's opening.
Each completes with SUCCESS. A switch of the writer binding closes the open group first and waits for the writes of the
partition left (R334; the wait is the model's reading, log 112). -/
def Obligations.OpenPartitionByMode : Prop :=
  ∀ (s : State) (h : Nat) (c : Cmd) (part : Fin 64), Ready s h 0x01 c → c.e.part.toNat = part.val →
    partCheck s c = none →
    let o (w : Bool) : Opening := { src := c.src, part := part, writer := w, read := 0 }
    let rest := s.host.opens.filter (fun o => !(o.src = c.src ∧ o.part = part))
    let opened (w : Bool) : State := { s with host.opens := rest ++ [o w] }
    let was := ((openingOf s c.src part.val).map (·.writer)).getD false
    (keyHeld s (partEntry s part.val) c.polder = true →
      (csp c.e 0x20 1 = 0 →
        exec (.openPartition h) s = .next (done h stSUCCESS (openResult (opened was) part.val) (opened was))) ∧
      (csp c.e 0x20 1 = 1 → writerBound s c = false → switchWaits s c.polder part.val = false → ∃ u, u = bindWriter c part (opened was) ∧
        (∀ o ∈ u.host.opens, o.src = c.src → (o.writer = true ↔ o.part = part)) ∧
        (riqOf u c.polder.val).part = some part ∧
        exec (.openPartition h) s = .next (done h stSUCCESS (openResult u part.val) u)) ∧
      (csp c.e 0x20 1 = 1 → writerBound s c = false → switchWaits s c.polder part.val = true →
        exec (.openPartition h) s = .next (requestClose c.polder.val (riqOf s c.polder.val).asgLrn s))) ∧
    (csp c.e 0x20 1 = 2 → (openingOf s c.src part.val).isSome = true → ∃ u, u = closeOpening c part s ∧
      openingOf u c.src part.val = none ∧
      exec (.openPartition h) s = .next (done h stSUCCESS (openResult u part.val) u))

/-- WRITE_RECORDS and WRITE_MARK (R391, R392): on the writer queue of a partition that is open, keyed, writable and not
full, a write at EODLRN takes the LRNs from there on: it has started with its LRN range, and the next write follows it.
A write above EODLRN fails with LRN_GAP and starts nothing, and one that would take UBYTES past 2^52 fails with LOGICAL_FULL. -/
def Obligations.WritesTakeTheirRecordNumbers : Prop :=
  ∀ (s : State) (h : Nat) (c : Cmd), openCheck s c true = none → readOnly s = false →
    let n := csp c.e 0x20 4
    let part := c.e.part.toNat
    let eod := eodLrn s part
    let r := riqOf s c.polder.val
    let begun := fun (bytes : Nat) (x : Cmd) =>
      ({ x with started := true, lrnA := eod, lrnZ := eod + n, ubEnd := ubytesPlanned s part + bytes } : Cmd)
    let atEnd := lrnOf c.e = eod ∨ lrnOf c.e = lrnCurrent
    let above := eod < lrnOf c.e ∧ lrnOf c.e ≠ lrnCurrent
    let free := (partEntry s part).full = false ∧ allPairsFenced s = false
    let len := bufLen c.e c.sgl
    (Ready s h 0x02 c → lengthsOk c = true →
      (atEnd → ubytesSum s + len ≤ 2 ^ 52 → free →
        exec (.writeRecords h) s = .next (modCmd h (begun len) (setRiq c.polder.val { r with asgLrn := eod + n } s))) ∧
      (atEnd → 2 ^ 52 < ubytesSum s + len → exec (.writeRecords h) s = .next (done h stLOGICAL_FULL 0 s)) ∧
      (above → exec (.writeRecords h) s = .next (done h stLRN_GAP 0 s))) ∧
    (Ready s h 0x04 c →
      (atEnd → ubytesSum s ≤ 2 ^ 52 → free →
        exec (.writeMark h) s = .next (modCmd h (begun 0) (setRiq c.polder.val { r with asgLrn := eod + n } s))) ∧
      (above → exec (.writeMark h) s = .next (done h stLRN_GAP 0 s)))

/-- READ_RECORDS (R393): on a queue with the partition open and keyed it starts at its LRN, or at the queue's read point
where it names the current one; one that needs repositioning outside the plan goes to firmware, and waits while that takes no
commands (R36). SYNC (R408) of a partition with nothing unwritten starts with all of it covered and completes every SYNC of the
partition that is covered. -/
def Obligations.ReadAndSyncStart : Prop :=
  ∀ (s : State) (h : Nat) (c : Cmd) (part : Fin 64), c.e.part.toNat = part.val →
    (Ready s h 0x03 c → openCheck s c false = none →
      let here := ((openingOf s c.src part.val).map (·.read)).getD 0
      let lrn := if lrnOf c.e = lrnCurrent then here else lrnOf c.e
      let j : ReadJob := { h := h, part := part, lrn := lrn }
      let move := readMoves s part.val lrn
      let u := modCmd h (fun x => { x with fw := move }) s
      (move = false ∨ fwTakes s = true → exec (.readRecords h) s = .next (startCmd h { u with rcd.reads := u.rcd.reads ++ [j] })) ∧
      (move = true → fwTakes s = false → exec (.readRecords h) s = .next s)) ∧
    (Ready s h 0x05 c → openCheck s c false = none → (∀ w ∈ s.host.cmds, w.e.opc ≠ 0x02 ∧ w.e.opc ≠ 0x04) →
      eodLrn s part.val ≤ syncLrnOf s part.val → (riqOf s c.polder.val).part = none →
      let u := modCmd h (fun x => { x with started := true, lrnZ := eodLrn s part.val }) s
      exec (.sync h) s = .next (syncsDone part.val (closeIfDrained c.polder.val part.val u)))

/-- LOCATE (R390) moves the read point to its target and completes with it; SPACE (R395) moves it by its count over the
partition's records and file marks; REPORT_POSITION (R396) delivers the 64-byte record and leaves the read point. -/
def Obligations.PositionCommands : Prop :=
  ∀ (s : State) (h : Nat) (c : Cmd), openCheck s c false = none →
    let part := c.e.part.toNat
    let eod := eodLrn s part
    let rp := ((openingOf s c.src part).map (·.read)).getD 0
    (Ready s h 0x06 c → lrnOf c.e ≤ eod → lrnOf c.e ≠ lrnCurrent →
      exec (.locate h) s = .next (done h stSUCCESS (lrnOf c.e) (moveRead c (lrnOf c.e) s))) ∧
    (Ready s h 0x06 c → lrnOf c.e = lrnCurrent → exec (.locate h) s = .next (done h stSUCCESS eod (moveRead c eod s))) ∧
    (∀ (marks : List Nat) (k : Nat), Ready s h 0x07 c → csp c.e 0x24 1 = 0 → csp c.e 0x20 4 = k → 0 < k → k < 2 ^ 31 →
      (∀ m ∈ allMarks s part marks, m < rp ∨ rp + k ≤ m) → rp + k ≤ eod →
      exec (.space h marks) s = .next (done h stSUCCESS k (moveRead c (rp + k) s))) ∧
    (∀ (tape : Nat), Ready s h 0x08 c → 64 ≤ bufLen c.e c.sgl → (s.cart.map (fun x => sget 0 x.baseLrn part)).getD 0 ≤ rp →
      let rec_ := positionRecord s part rp (marksBelow s part rp).1
      exec (.reportPosition h tape) s =
        .next (done h stSUCCESS rp (deliverAt c (bufPieces c.e c.sgl) 0 rec_ (freeNext (freeNext s)))))

/-- KEY_IMPORT whose blob has its 192 bytes, and ATTEST, pass to firmware for the vault (R389); GET_METER delivers the
336-byte snapshot of the polder it names (R519). -/
def Obligations.VaultCommandsStart : Prop :=
  ∀ (s : State) (h : Nat) (c : Cmd),
    (Ready s h 0x09 c → partCheck s c = none → usesSgl c.e = false → c.e.dlen = 192 →
      exec (.keyImport h) s = .next (startCmd h s)) ∧
    (Ready s h 0x0A c → exec (.attest h) s = .next (startCmd h s)) ∧
    (Ready s h 0x0B c → 336 ≤ bufLen c.e c.sgl →
      exec (.getMeter h) s = .next (done h stSUCCESS 336
        (deliverAt c (bufPieces c.e c.sgl) 0 (meterSnapshot s (csp c.e 0x20 1)) (startCmd h s)))) ∧
    (Ready s h 0x0B c → bufLen c.e c.sgl < 336 → exec (.getMeter h) s = .next (done h stBUFFER_SMALL 0 s))

/-- ABORT (R397, R413): an unstarted target is removed and completes ABORTED, with RESULT bit 0; a started
READ_RECORDS, write, SYNC, LOCATE or SPACE is stopped, with bit 1 (after LOCATE and SPACE the tape comes to rest and the read point is
undefined); any other started command runs to its end, with bit 3; a target that is not found leaves bit 2 and nothing else. -/
def Obligations.AbortActsOnItsTarget : Prop :=
  ∀ (s : State) (h : Nat) (c : Cmd), Ready s h 0x0C c →
    let target := s.host.cmds.find? (fun t => t.src = abortSrc c ∧ t.e.cid.toNat = csp c.e 0x22 2 ∧ t.fin.isNone ∧ t.handle ≠ h ∧ !t.silent)
    (target = none → exec (.abort h) s = .next (done h stSUCCESS 4 s)) ∧
    (∀ t, target = some t →
      (t.started = false → exec (.abort h) s = .next (done h stSUCCESS 1 (done t.handle stABORTED 0 s))) ∧
      (t.started = true → t.e.opc = 0x03 →
        exec (.abort h) s = .next (done h stSUCCESS 2 (done t.handle stABORTED 0 (killRead t.handle s)))) ∧
      (t.started = true → (t.e.opc = 0x02 ∨ t.e.opc = 0x04) →
        exec (.abort h) s = .next (done h stSUCCESS 2 (abortWrite t s))) ∧
      (t.started = true → t.e.opc = 0x05 →
        exec (.abort h) s = .next (done h stSUCCESS 2 (syncsDone t.e.part.toNat (done t.handle stABORTED 0 s)))) ∧
      (t.started = true → (t.e.opc = 0x06 ∨ t.e.opc = 0x07) →
        exec (.abort h) s = .next (done h stSUCCESS 2 (abortSeek t s))) ∧
      (t.started = true → (t.e.opc.toNat < 2 ∨ 7 < t.e.opc.toNat) → exec (.abort h) s = .next (done h stSUCCESS 8 s)))

/-! ### Admin commands -/

/-- LOAD (R102, R105, R115 to R117, R589, R590) of a supported cartridge whose three index copies are intact and have equal cores, with
no partition written last: their index becomes the working copy, the read points of what is on tape are those of the index, and LOAD
completes SUCCESS with PCOUNT and GEN. An unreadable label ends it LOAD_FAIL, a loaded cartridge ALREADY_LOADED; a cartridge of
another class is mounted read-only with UNSUPPORTED_RO, and so is one whose newest copies differ in their cores, with INDEX_CONFLICT.
Under several intact copies of different generations, the index taken is one with the highest GEN; an intact copy decodes, its certificates
hold, its WRITER is the certificate's, and its image is whole: its digest is that of its core, and its signature verifies. -/
def Obligations.LoadMountsTheIndex : Prop :=
  (∀ (s : State) (h : Nat) (c : Cmd) (env : LoadEnv), Ready s h 0x81 c → NoneAlike s c →
     let x := copiesOf s env
     let images := [x.a, x.b, x.c].map copyImage
     (s.cart.isSome = true → exec (.load h env) s = .next (done h stALREADY_LOADED 0 s)) ∧
     (s.cart = none → env.label.bind readLabel = none → exec (.load h env) s = .next (done h stLOAD_FAIL 0 s)) ∧
     (∀ label : Label, s.cart = none → env.label.bind readLabel = some label →
       (∀ core : IndexCore, label.lclass = 1 → copyCore true x.a = some core → copyCore true x.b = some core →
         copyCore false x.c = some core → (topCopies x).any (fun a => (topCopies x).any (coresDiffer a)) = false →
         core.lastP = 0xFF → csp c.e 0x20 1 = 0 →
         let u : State := mountEnds { s with cart := some (mountCart core label env x false false), host.loadCopies := images }
         exec (.load h env) s = .next (done h stSUCCESS (pcount core + 65536 * (core.gen.toNat % 2 ^ 48)) u)) ∧
       (label.lclass ≠ 1 → ∃ res u k, exec (.load h env) s = .next (done h stUNSUPPORTED_RO res u) ∧ u.cart = some k ∧ k.readOnly = true ∧
         k.label = some label) ∧
       (∀ a ∈ topCopies x, ∀ b ∈ topCopies x, coresDiffer a b = true → label.lclass = 1 → ∃ res u k,
         exec (.load h env) s = .next (done h stINDEX_CONFLICT res u) ∧ u.cart = some k ∧ k.readOnly = true ∧ k.conflict = true))) ∧
  (∀ x : Copies, (∀ a ∈ topCopies x, ∀ y ∈ intactCopies x, y.gen ≤ a.gen) ∧
     (intactCopies x ≠ [] → topCopies x ≠ [])) ∧
  (∀ (table : Bool) (img : List Byte) (decodes chainOk : Bool) (certId : BitVec 32) (core : IndexCore),
    (copyCore table (.copy img decodes chainOk certId) = some core ↔
      core = readCore img ∧ decodes = true ∧ chainOk = true ∧ core.writer = certId ∧ imageWhole img table = true)) ∧
  ∀ (table : Bool) (img : List Byte), imageWhole img table = true →
    imageSigned img = true ∧ (img.drop 0x26B0).take 48 = sha384 (img.take 0x26B0)

/-- UNLOAD with nothing left in the basin or the intake queues begins: partition commands fetched later meet no cartridge
(R418), and it waits for the vault's notice. PARTITION_DELETE of a partition that no queue has open is with the vault
(R403). -/
def Obligations.UnloadAndDeleteBegin : Prop :=
  ∀ (s : State) (h : Nat) (c : Cmd), NoneAlike s c → notLoaded s c = false →
    (Ready s h 0x82 c → s.bas.slots = [] → (∀ p : Nat, (riqOf s p).part = none) →
      let pend := (List.finRange 64).filter (fun p => decide (p ∈ s.trk.syncPend))
      let u := { startCmd h s with cart := s.cart.map (fun k => { k with unloading := some c.no, noticed := false }), trk.syncPend := pend }
      exec (.unload h) s = .next u ∧ ∀ x : Cmd, c.no < x.no → notLoaded u x = true) ∧
    (Ready s h 0x84 c → readOnly s = false → (partEntry s c.e.part.toNat).inUse = true →
      (s.host.opens.any (fun o => o.part.val = c.e.part.toNat) = false → exec (.partitionDelete h) s = .next (startCmd h s)) ∧
      (s.host.opens.any (fun o => o.part.val = c.e.part.toNat) = true →
        exec (.partitionDelete h) s = .next (done h stPARTITION_OPEN 0 s)))

/-- PARTITION_CREATE (R402): the wrap pairs and the berms it needs are marked, the entry records the owner tag, KEYFP zero
and the half-band flag, and a new generation is written. A taken wrap pair, or no pair to serve as berm, fails it with
WRAP_UNAVAILABLE, after PARTITION_EXISTS. -/
def Obligations.PartitionCreateMakesTheEntry : Prop :=
  ∀ (s : State) (h : Nat) (c : Cmd) (k : Cart), Ready s h 0x83 c → NoneAlike s c → notLoaded s c = false →
    readOnly s = false → s.cart = some k →
    let part := c.e.part.toNat
    let tag := (polderOf s (csp c.e 0x39 1)).tag
    let e : PartEntry := { inUse := true, halfBand := csp c.e 0x3A 1 = 1, owner := tag, eodWrap := pairWrap ((wpmap c.e).headD 0) false }
    ((partEntry s part).inUse = true → exec (.partitionCreate h) s = .next (done h stPARTITION_EXISTS 0 s)) ∧
    ((partEntry s part).inUse = false → wpmap c.e ≠ [] →
      (createWps part (wpmap c.e) k.core = none → exec (.partitionCreate h) s = .next (done h stWRAP_UNAVAILABLE 0 s)) ∧
      (∀ core, createWps part (wpmap c.e) k.core = some core →
        let u := newGen { s with cart := some { k with core := { core with parts := sset {} core.parts part e } } }
        exec (.partitionCreate h) s = .next (done h stSUCCESS ((u.cart.map (·.core.gen.toNat)).getD 0) u) ∧
        partEntry u part = e ∧ ∀ w ∈ wpmap c.e, (sget {} core.wps w).role = .data ∧ (sget {} core.wps w).pnum = BitVec.ofNat 8 part))

/-- POLDER_CONFIG (R405): an enabling that breaks no rule writes the polder's attachment, MAXQ and tag, its QUOTA and its
PSHARE; a quota or share that their rules reject fails with QUOTA_EXCEEDED, and disabling polder 0 with INVALID_FIELD,
both changing nothing. -/
def Obligations.PolderConfigWritesTheShares : Prop :=
  ∀ (s : State) (h : Nat) (c : Cmd), Ready s h 0x85 c → NoneAlike s c →
    let p := csp c.e 0x20 1
    let on := decide (csp c.e 0x21 1 = 1)
    let maxq := csp c.e 0x23 1
    let tag := BitVec.ofNat 64 (csp c.e 0x28 8)
    let quota := csp c.e 0x24 2
    let share := csp c.e 0x26 2
    let x : PolderSt := { polderOf s p with enabled := true, attach := BitVec.ofNat 2 (csp c.e 0x22 1), maxq := maxq, tag := tag }
    (on = true → polderBad s p maxq true tag = false → sharesFit s p quota share = true →
      exec (.polderConfig h) s = .next (done h stSUCCESS 0
        (rset (setQuota p quota (setPolder p x s)) pgBPM (0x200 + 4 * p) (BitVec.ofNat 32 share)))) ∧
    (polderBad s p maxq on tag = false → sharesFit s p quota share = false →
      exec (.polderConfig h) s = .next (done h stQUOTA_EXCEEDED 0 s)) ∧
    (on = false → p = 0 → exec (.polderConfig h) s = .next (done h stINVALID_FIELD 0 s))

/-- FW_DOWNLOAD stores its bytes at OFFSET of the inactive slot (R390, R575); FW_ACTIVATE with ACTION 0 commits a good image
for the next boot and answers the running version, and refuses a bad one with IMAGE_INVALID (R417, R575); SCHED_SELECT
starts a load with AUTOSWITCH from its source (R301, R314). GET_LOG of the error log returns the issuing polder's entries, newest first, from OFFSET on (R420); SET_TIME passes to
the vault (R520). -/
def Obligations.ImagesLogsAndTime : Prop :=
  (∀ (s : State) (h : Nat) (c : Cmd), NoneAlike s c →
     (∀ (image : List Byte) (a n : Nat), Ready s h 0x86 c → idleSlot s = some (a, n) → csp c.e 0x20 4 + bufLen c.e c.sgl ≤ n →
       exec (.fwDownload h image) s = .next (done h stSUCCESS 0
         { s with mem.flash := writeBytes 0xFF s.mem.flash (a + csp c.e 0x20 4) (image.take (bufLen c.e c.sgl)) })) ∧
     (Ready s h 0x87 c → s.top.pf = false →
       (slotFw s (!s.top.committed) = none → exec (.fwActivate h) s = .next (done h stIMAGE_INVALID 0 s)) ∧
       (∀ img u, commitFw (!s.top.committed) s = some (img, u) → u.top.recovery = false → csp c.e 0x20 1 = 0 →
         exec (.fwActivate h) s = .next (done h stSUCCESS u.top.fwVer.toNat u) ∧ u.vlt.svnMin = img.svn)) ∧
     (Ready s h 0x88 c → csp c.e 0x20 1 = 1 → csp c.e 0x24 4 % 64 = 0 →
       let u := rset (startCmd h s) pgSCH 0x004 (rget s pgSCH 0x004 ||| 1)
       let u := rset (rset u pgSCH 0x100 1) pgSCH 0x104 (BitVec.ofNat 32 (csp c.e 0x24 4))
       exec (.schedSelect h) s = .next (startLoad true true (csp c.e 0x24 4) { u with lat.sched.cmd := some h }))) ∧
  (∀ (s : State) (h : Nat) (c : Cmd), NoneAlike s c →
     (Ready s h 0x89 c → csp c.e 0x20 1 = 1 →
       let page := ((sget [] s.host.errlog c.polder.val).map (·.bytes)).flatten
       let bs := (page.drop (csp c.e 0x24 4)).take (bufLen c.e c.sgl)
       (bs ≠ [] ∨ page.length ≤ csp c.e 0x24 4) →
       exec (.getLog h) s = .next (done h stSUCCESS (bs.length + page.length * 2 ^ 32) (deliverAt c (bufPieces c.e c.sgl) 0 bs s))) ∧
     (Ready s h 0x8A c → exec (.setTime h) s = .next (startCmd h s)))


/-! ### Queues and fetching -/

/-- A doorbell of a pair that runs (R379, R380): a tail below the entry count is taken; one that is not, or a head that
releases entries not yet posted, halts the pair and raises DB_INVALID. The pair's bit in QERR follows, and a halted pair
fetches nothing and posts nothing more. A core that writes a doorbell has its store buffer drained first (R448). -/
def Obligations.DoorbellsMoveOrHalt : Prop :=
  ∀ (s : State) (f : Fin 64) (q : Fin 16),
    (∀ v : Word, sget none s.rf.guard (pgQMG f.val) = none → (getPair s f q).present = true → (getPair s f q).halted = false →
      let p := getPair s f q
      let x := bits v 11 0
      let bad := raise (pgQMG f.val) 2 (bump (pgQMG f.val) 0xA08 1 (setPair f q { p with halted := true } s))
      exec (.sqTailDoorbell f q v none) s = .next (if x < p.sqN then setPair f q { p with sqTail := x } s else bad) ∧
      exec (.cqHeadDoorbell f q v) s =
        .next (if x < p.cqN ∧ (x + p.cqN - p.cqHead) % p.cqN ≤ cqHeld p then setPair f q { p with cqHead := x } s else bad) ∧
      (getPair bad f q).halted = true ∧ evPending bad (pgQMG f.val) 2 = true) ∧
    (∃ w, qmgView s f.val 0x60C = some w ∧ w.testBit q.val = (getPair s f q).halted) ∧
    ((getPair s f q).halted = true → pairReady s f q = false ∧ ∀ c st res, postPcie f q c st res s = s) ∧
    ∀ (v : Word) (w : CoreWrite), exec (.sqTailDoorbell f q v (some w)) s = exec (.sqTailDoorbell f q v none) (drainStores (some w) s)

/-- A pair is created from the staging registers where no code of R377 applies, and refused with the first code that does,
QRES holding it (R376, R377); while an operation runs a GO is refused with 0x08. Deleting a pair (R378): fetching stops, and
its unstarted commands go; once no command of the pair is left QOP_DONE is raised and the pair is gone. -/
def Obligations.QueuePairsAreMadeAndEnded : Prop :=
  ∀ (s : State) (f : Fin 64) (q : Fin 16), sget none s.rf.guard (pgQMG f.val) = none →
    (rbit s (pgQMG f.val) 0x604 4 = true → exec (.queueCreate f q) s =
      .next (raise (pgQMG f.val) 1 (qres f (rfld s (pgQMG f.val) 0x604 3 0) true 0x08 s))) ∧
    (rbit s (pgQMG f.val) 0x604 4 = false →
      (createCode s f q (stagedPair s f) = none → exec (.queueCreate f q) s =
        .next (raise (pgQMG f.val) 0 (qres f q.val false 0 (setPair f q (stagedPair s f) s)))) ∧
      (∀ code, createCode s f q (stagedPair s f) = some code → 1 ≤ code ∧ code ≤ 7 ∧
        exec (.queueCreate f q) s = .next (raise (pgQMG f.val) 1 (qres f q.val false code s)))) ∧
    (rbit s (pgQMG f.val) 0x604 4 = false → (getPair s f q).present = true → (∀ o ∈ s.host.opens, o.src ≠ .pcie f q) →
      ∃ t, exec (.queueDelete f q) s = .next t ∧ (getPair t f q).deleting = true ∧ pairReady t f q = false ∧
        (∀ c ∈ s.host.cmds, c.src ≠ .pcie f q ∨ c.started = true ∨ c.fin ≠ none → c ∈ t.host.cmds) ∧
        ∀ c ∈ t.host.cmds, c ∈ s.host.cmds ∧ (c.src ≠ .pcie f q ∨ c.started = true ∨ c.fin ≠ none)) ∧
    ((getPair s f q).deleting = true → (∀ c ∈ s.host.cmds, c.src ≠ .pcie f q) →
      exec (.qopDone f q) s = .next (raise (pgQMG f.val) 0 (qres f q.val false 0 (setPair f q {} s))))

/-- A service slot (R482, R383, R384): the next slot begins, its owner counts it, and an owner with nothing to fetch, no
intake words, no groups and no reads does nothing else. An aggregation timeout signals the pair's vector for what is
posted and unsignalled. A fetch never passes the room of its completion queue (R382): a pair whose entries posted and not released, with the
commands fetched and not completed, reach the entry count less 1 is not served. -/
def Obligations.SlotsFetchAndAggregate : Prop :=
  ((∀ (s : State) (p : Fin 64), s.ts.swap = false → s.host.activate = none →
     slotOwner { s with ts.idx := (s.ts.idx + 1) % 4096 } = some p → pickSource s p = none → s.rcd.riq = [] → s.rcd.reads = [] →
     s.host.cmds = [] → (∀ x ∈ s.rcd.cmp ++ s.rcd.cry ++ s.rcd.dcp, x.2.busy = false) → polderOn s p.val = true →
     let m := meterOf s p.val
     exec (.serviceSlot none 0) s =
       .next { s with ts.idx := (s.ts.idx + 1) % 4096, vlt.meters := sset {} s.vlt.meters p.val { m with slotsOwn := m.slotsOwn + 1 } }) ∧
   ∀ (s : State) (f : Fin 64) (q : Fin 16), (getPair s f q).present = true → (getPair s f q).ien = true →
     (getPair s f q).unsig ≠ 0 →
     exec (.interruptAggregationTimeout f q) s =
       .next (signal f (getPair s f q).iv (setPair f q { getPair s f q with unsig := 0 } s))) ∧
  (∀ (s : State) (f : Fin 64) (q : Fin 16), pairReady s f q = true →
     cqHeld (getPair s f q) + (s.host.cmds.filter (fun c => c.src = .pcie f q)).length + 1 < (getPair s f q).cqN)

/-! ### PCIe events -/

/-- FLR of a present function marks it and raises FLR (R414, R415): its commands, queue pairs and openings are gone, none is posted, and
what other functions' queues had open stays open; FLR of function 0 is a controller reset, after which nothing of any queue is left. A
function that is not there has none. RESET_DONE ends the mark and raises RESET_DONE on the function's page. -/
def Obligations.FlrEndsTheFunction : Prop :=
  ∀ (s : State) (f : Fin 64),
    let here := f.val = 0 ∨ (s.host.vfEnable = true ∧ f.val ≤ s.host.numVFs.toNat)
    (here → ∃ t, exec (.flr f) s = .next t ∧ f ∈ t.host.flr ∧ evPending t pgHIF 2 = true ∧
      (∀ c ∈ t.host.cmds, ofFn f c = false) ∧ (∀ q, getPair t f q = {}) ∧ (∀ o ∈ t.host.opens, ∀ q, o.src ≠ .pcie f q) ∧
      (f.val ≠ 0 → ∀ o ∈ s.host.opens, (∀ q, o.src ≠ .pcie f q) → o ∈ t.host.opens) ∧
      (f.val = 0 → t.host.cmds = [] ∧ t.host.opens = [] ∧ t.net.qps = [] ∧ t.host.vfEnable = false)) ∧
    (¬ here → exec (.flr f) s = .next s) ∧
    (f ∈ s.host.flr → exec (.resetDone f) s = .next (raise (pgQMG f.val) 4 { s with host.flr := s.host.flr.filter (· ≠ f) }))

/-- The controller resets (R414, R416, R440, R474): after PERST_N or a link loss no command, queue pair, opening, network
queue pair or host window is left, and both time-slot banks are empty; the write of 0 to VF Enable leaves function 0's and
the network's. The link trains to its speed and width, with LINK_UP raised (R423, R424); VF Enable is set with its NumVFs outside
recovery mode (R372, R580); the commands that FW_ACTIVATE waits for keep it from switching, and it ends ACTIVATE_BUSY with
fetching resumed (R417). -/
def Obligations.ControllerResetsAndLinks : Prop :=
  ∀ s : State,
    let cleared := fun (t : State) => t.host.cmds = [] ∧ (∀ f q, getPair t f q = {}) ∧ t.host.opens = [] ∧ t.net.qps = [] ∧
      t.host.vfEnable = false ∧ t.host.linkUp = false ∧ t.ts.bank0 = [] ∧ t.ts.bank1 = [] ∧ evPending t pgHIF 3 = true ∧
      ∀ (f : Fin 64) (k : Nat), k < 32 → rget t (pgWIN f.val) (0xE00 + 4 * k) = 0
    (∃ t, exec .perstN s = .next t ∧ t.pins.perstN = false ∧ cleared t) ∧
    (s.host.linkUp = true → ∃ t, exec .linkDown s = .next t ∧ evPending t pgHIF 0 = true ∧ cleared t) ∧
    (s.host.linkUp = false → exec .linkDown s = .next s) ∧
    (s.host.vfEnable = true → ∃ t, exec .vfEnableClear s = .next t ∧ t.host.vfEnable = false ∧
      (∀ f : Fin 64, f.val ≠ 0 → ∀ q, getPair t f q = {}) ∧ (∀ c ∈ t.host.cmds, ∀ f : Fin 64, f.val ≠ 0 → ofFn f c = false) ∧
      (∀ o ∈ s.host.opens, (∀ f : Fin 64, f.val ≠ 0 → ∀ q, o.src ≠ .pcie f q) → o ∈ t.host.opens) ∧ t.ts = s.ts) ∧
    (s.host.vfEnable = false → exec .vfEnableClear s = .next s) ∧
    (∀ (sp : BitVec 3) (w : BitVec 5), exec (.linkUp sp w) s =
      .next (raise pgHIF 1 { s with pins.perstN := true, host.linkUp := true, host.linkSpeed := sp, host.linkWidth := w })) ∧
    (∀ n : BitVec 6, s.top.recovery = false → exec (.vfEnableSet n) s = .next { s with host.vfEnable := true, host.numVFs := n }) ∧
    (∀ n : BitVec 6, s.top.recovery = true → exec (.vfEnableSet n) s = .next s) ∧
    (∀ (h : Nat) (img : FwImage), s.host.activate = some (h, img) →
      (∃ c ∈ s.host.cmds, fwCmd c = true ∧ c.started = true ∧ c.fin = none ∧ c.handle ≠ h) →
      exec .activateBusy s = .next (done h stACTIVATE_BUSY 0 { s with host.activate := none, host.fetchStop := false }))


/-! ### DMA channels and host windows -/

/-- A GO (R428): on a channel that is enabled, idle and not fenced the descriptor at DESC is taken: where a chain's
descriptor lies in the system region and is well formed, the channel runs with its fields. Otherwise GO_WHILE_BUSY is raised
and nothing else changes. A core that writes GO has its store buffer drained first (R448). -/
def Obligations.DmaGoTakesTheDescriptor : Prop :=
  ∀ (s : State) (n : Fin 16) (bs : List Byte), sget none s.rf.guard (pgDMA n.val) = none →
    (goBusy s n.val = true → exec (.dmaGo n bs none) s = .next (raise (pgDMA n.val) 6 s)) ∧
    (goBusy s n.val = false → rbit s (pgDMA n.val) 0x100 16 = false → 1 ≤ rfld s (pgDMA n.val) 0x104 15 0 →
      rfld s (pgDMA n.val) 0x114 2 0 = 2 →
      let a := (rget s (pgDMA n.val) 0x110 ++ rget s (pgDMA n.val) 0x10C).toNat
      a % 32 = 0 → spaceOk 2 a 32 = true → badRead s 2 a 32 = false →
      let d := parseDesc (readBytes 0 s.mem.coreMem (a - 0x80000000) 32)
      descOk false d = true →
      ∃ t, exec (.dmaGo n bs none) s = .next t ∧ t = { s with dma := t.dma } ∧
        (dmaOf t n.val).st = .running ∧ (dmaOf t n.val).len = d.len ∧ (dmaOf t n.val).done = 0 ∧ (dmaOf t n.val).taken = 1 ∧
        (dmaOf t n.val).last = d.last ∧ (dmaOf t n.val).cur = BitVec.ofNat 64 a) ∧
    ∀ w : CoreWrite, exec (.dmaGo n bs (some w)) s = exec (.dmaGo n bs none) (drainStores (some w) s)

/-- A burst of a chain from the control cores' memory to the same (R428, R443): no longer than the burst limit and what
is left, and bounded by 4 KiB at either end, it copies the bytes, counts them, and changes no other byte of memory. -/
def Obligations.DmaBurstCopies : Prop :=
  ∀ (s : State) (n : Fin 16) (tlp : Fin 6), (dmaOf s n.val).st = .running → (dmaOf s n.val).ring = false →
    rfld s (pgDMA n.val) 0x108 8 0 ≠ 0 → (dmaOf s n.val).rdOut = none → (dmaOf s n.val).srcSp = 2 → (dmaOf s n.val).dstSp = 2 →
    let c := dmaOf s n.val
    let sa := c.src.toNat + c.done
    let da := c.dst.toNat + c.done
    let k := min (min (burstMax s n.val) 4096) (min (c.len - c.done) (min (4096 - sa % 4096) (4096 - da % 4096)))
    0 < k → spaceOk 2 sa k = true → spaceOk 2 da k = true → badRead s 2 sa k = false →
    let bs := readBytes 0 s.mem.coreMem (sa - 0x80000000) k
    ∃ t, exec (.dmaBurst n tlp false) s = .next t ∧ (dmaOf t n.val).done = c.done + k ∧ (dmaOf t n.val).st = .running ∧
      t.mem = { s.mem with coreMem := writeBytes 0 s.mem.coreMem (da - 0x80000000) bs } ∧
      (Memory.wf s.mem = true → ∀ a : Nat, (a < da - 0x80000000 ∨ da - 0x80000000 + k ≤ a) →
        sget 0 t.mem.coreMem a = sget 0 s.mem.coreMem a)

/-- The end of a chain (R428, R436): when all destination writes of the last descriptor have been accepted the channel is
idle, and COMPLETE is raised. A STOP of a running chain leaves it stopped with STOPPED raised. A device read over PCIe (R438): the data of a chain's read goes to its destination; an error halts the channel with
code 3 and a timeout with code 2, each fencing it with cause 5 and recording the address. -/
def Obligations.DmaChannelsEnd : Prop :=
  (∀ (s : State) (n : Fin 16), (dmaOf s n.val).st = .running → (dmaOf s n.val).ring = false →
     (∀ bs : List Byte, (dmaOf s n.val).rdOut = none → (dmaOf s n.val).len ≠ 0 → (dmaOf s n.val).done = (dmaOf s n.val).len →
       (dmaOf s n.val).last = true → exec (.descriptorDone n bs) s =
         .next (dmaEvent n.val 0 (setDma n.val { dmaOf s n.val with st := .idle } (bump (pgDMA n.val) 0xA08 1 s)))) ∧
     (sget none s.rf.guard (pgDMA n.val) = none → exec (.dmaStop n) s =
       .next (dmaEvent n.val 4 (setDma n.val { dmaOf s n.val with st := .stopped, rdOut := none, descRd := false, partials := [] } s)))) ∧
  (∀ (s : State) (n : Fin 16) (k : Nat), (dmaOf s n.val).rdOut = some k → (dmaOf s n.val).descRd = false →
     let c := dmaOf s n.val
     (∀ bs : List Byte, bs.length = k → exec (.pcieCompletion n (.data bs)) s =
       .next (dmaPut n.val bs (setDma n.val { c with rdOut := none } s))) ∧
     (∃ t, exec (.pcieCompletion n .error) s = .next t ∧ (dmaOf t n.val).st = .halted ∧ (dmaOf t n.val).halt = 3 ∧
       (dmaOf t n.val).failAddr = BitVec.ofNat 64 (c.src.toNat + c.done) ∧ fenceCause t (0x2000 + n.val) = 5) ∧
     (∃ t, exec (.cplTimeout n) s = .next t ∧ (dmaOf t n.val).st = .halted ∧ (dmaOf t n.val).halt = 2 ∧
       fenceCause t (0x2000 + n.val) = 5 ∧ count t pgHIF 0xA00 = min (count s pgHIF 0xA00 + 1) 0xFFFFFFFF))

/-- Ring and sluice registers (R433, R434, R444): RDPTR takes the offset consumed; a partial burst is written at the flush
time; SLUICE takes a share whole, or raises SHARE_REJECT where the shares of the enabled channels would pass 256. A host window's guarded word (R440, R441, R628): a value and its complement from PF0 set it; from any other requester
each of the two writes is refused with WIN_DENIED and counts as a security event. -/
def Obligations.RingSluiceAndWindows : Prop :=
  (∀ (s : State) (n : Fin 16) (v : Word), sget none s.rf.guard (pgDMA n.val) = none →
     (exec (.rdptrWrite n v) s = .next (rset s (pgDMA n.val) 0x11C (v &&& 0xFFFFFF))) ∧
     (exec (.sluiceWrite n v) s =
       .next (if pageEn s (pgDMA n.val) = true ∧ 256 < shareSum s n.val (bits v 8 0) then raise (pgDMA n.val) 5 s
              else rset s (pgDMA n.val) 0x108 (v &&& 0x701FF))) ∧
     (let c := dmaOf s n.val
      let k := min (ringMax s n.val 4096) (min (ringFree s n.val) c.partials.length)
      c.st = .running → c.ring = true → c.len ≠ 0 → pull n.val 63 s = s → k ≠ 0 →
       exec (.ringFlushTimeout n) s = .next (ringPut n.val k s))) ∧
  (∀ (s : State) (r : Requester) (f : Fin 64) (k : Fin 32) (v c : Word),
     (r = .pf0 → sget none s.rf.guard (pgWIN f.val) = none → c = ~~~v →
       exec (.windowWrite r f k v c) s = .next (rset s (pgWIN f.val) (0xE00 + 4 * k.val) (v &&& winMask k.val))) ∧
     (r ≠ .pf0 → ∃ t, exec (.windowWrite r f k v c) s = .next t ∧ t.rf.regs = s.rf.regs ∧
       evPending t (pgWIN f.val) 1 = true ∧ count t pgVLT 0xA1C = min (count s pgVLT 0xA1C + 2) 0xFFFFFFFF))


/-! ### The network attach -/

/-- Queue pairs over the network (R459, R460, R462): a create that meets no code of R460 takes the staged context, in
state RTS; one that meets a code is refused with the first; a QP in ERROR returns to free; no requester but PF0 may do
any of it (R628). Destroying a QP in RTS that has no started command and holds no opening (R462): its commands go without completion
entries, QOP_DONE is raised and its context is free. -/
def Obligations.QpOperations : Prop :=
  (∀ (s : State) (r : Requester) (q : Fin 1024), sget none s.rf.guard pgQP = none →
     (r = .pf0 → qpCode s q (stagedQp s) = none →
       exec (.qpCreate r q) s = .next (raise pgQP 0 (qpres q.val false 0 (setQp q (stagedQp s) s))) ∧ (stagedQp s).st = .rts) ∧
     (r = .pf0 → s.net.qopBusy = false → ∀ code, qpCode s q (stagedQp s) = some code →
       exec (.qpCreate r q) s = .next (raise pgQP 1 (qpres q.val false code s))) ∧
     (r = .pf0 → s.net.qopBusy = false → (qpOf s q).st = .error →
       exec (.qpFree r q) s = .next (raise pgQP 0 (qpres q.val false 0 (setQp q {} s)))) ∧
     (r ≠ .pf0 → ∀ i : Instr, (i = .qpCreate r q ∨ i = .qpDestroy r q ∨ i = .qpFree r q) →
       exec i s = .next (secEvent (raise pgQP 3 s)))) ∧
  (∀ (s : State) (q : Fin 1024), sget none s.rf.guard pgQP = none → s.net.qopBusy = false → (qpOf s q).st = .rts →
     (∀ c ∈ s.host.cmds, c.src = .net q) → (∀ c ∈ s.host.cmds, c.started = false ∧ c.fin = none) →
     (∀ o ∈ s.host.opens, o.src ≠ .net q) → (qpOf s q).heldCpl = [] → swf (fun _ => ({} : Qp)) s.net.qps = true →
     ∃ t, exec (.qpDestroy .pf0 q) s = .next t ∧ t.host.cmds = [] ∧ t.net.qopBusy = false ∧ qpOf t q = {} ∧
       evPending t pgQP 0 = true ∧ t.out = s.out)

/-- A command capsule (R466, R468): one of 80 B is acknowledged, waits to be fetched and counts against the depth; an ABORT is fetched
at once (R474); at the depth it is answered with an RNR NAK and changes nothing else of the QP; a QP that is being destroyed drops it (R378, R462). Held completions leave in one capsule (R470): when the aggregation time ends, with their PSN, over a port
that may send under the QP's headers (R455), and stay unacknowledged until that PSN is. -/
def Obligations.CapsulesAndCompletions : Prop :=
  (∀ (s : State) (q : Fin 1024) (cap : Capsule), (qpOf s q).st = .rts → cap.len = 80 →
     let x := qpOf s q
     (x.dest = true → exec (.commandCapsule q cap) s = .next s) ∧
     (x.dest = false → x.outst < x.qdepth →
       let y := { x with accepted := x.accepted + 1, outst := x.outst + 1, rpsn := x.rpsn + 1 }
       let sent := fun (z : Qp) => bump pgQP 0xA00 1 (txFrame q (.ack q x.rpsn) (setQp q z s))
       (cap.body.sqe.opc ≠ 0x0C ∨ fetchHalted s = true →
         exec (.commandCapsule q cap) s = .next (sent { y with caps := x.caps ++ [cap] })) ∧
       (cap.body.sqe.opc = 0x0C → fetchHalted s = false →
         exec (.commandCapsule q cap) s = .next (takeCapsule q x.polder cap (sent y)))) ∧
     (x.dest = false → x.qdepth ≤ x.outst →
       exec (.commandCapsule q cap) s = .next (bump pgQP 0xA0C 1 (txFrame q (.nak q .rnrNak x.minRnr) s)))) ∧
  (∀ (s : State) (q : Fin 1024), (qpOf s q).st = .rts → (qpOf s q).heldCpl ≠ [] →
     let x := qpOf s q
     let k := portOf s x.port
     ∃ t, exec (.completionCapsuleTimeout q) s = .next t ∧
       (portFenced s x.port = false → k.linkUp = true → k.held = false →
         ∃ head, t.out = .packet x.port head (.capsule q (capsuleBytes x.heldCpl)) :: s.out ∧ head.dport = 4791 ∧ head.ecn = 2 ∧
           head.sport.toNat = 0xC000 + q.val ∧ head.dqpn = x.dqpn) ∧
       qpOf t q = { x with heldCpl := [], sentCpl := x.sentCpl ++ [(x.psn, x.heldCpl)], psn := x.psn + 1 } ∧
       count t pgQP 0xA04 = min (count s pgQP 0xA04 + 1) 0xFFFFFFFF)

/-- Loss recovery (R464, R465): an acknowledgement of outstanding packets moves the oldest unacknowledged PSN past them and
clears the retry counts; a timeout with retries left goes back to that PSN and counts the retry, and without any puts the
QP into error with cause 1; a response in PSN order goes to the oldest READ; the end of an RNR wait sends again. A QP that enters error (R461, R462) takes its cause, is in DRAINING or ERROR, discards what waits, and no unstarted
command of it is left. -/
def Obligations.LossRecoveryAndErrors : Prop :=
  (∀ (s : State) (q : Fin 1024), (qpOf s q).st = .rts →
     let x := qpOf s q
     (∀ p : BitVec 24, (p - x.una).toNat < 2 ^ 23 → (p - x.una).toNat < (x.psn - x.una).toNat →
       let y := { x with una := p + 1, retries := 0, rnrs := 0 }
       exec (.acknowledge q .ack p) s = .next (metered postReady (setQp q { y with sentCpl := x.sentCpl.filter (fun e => !psnAcked y e.1) } s))) ∧
     (x.una ≠ x.psn → exec (.ackTimeout q) s =
       .next (if x.retryMax ≤ x.retries then qpError q 1 s else goBack q (setQp q { x with retries := x.retries + 1 } s))) ∧
     (x.rnrWait = true → x.rnrs < x.rnrMax →
       exec (.rnrRetry q) s = .next (goBack q (setQp q { x with rnrs := x.rnrs + 1, rnrWait := false } s))) ∧
     (∀ (p : BitVec 24) (n : Nat) (record : Bool) (rest : List (BitVec 24 × Nat × Bool)) (bs : List Byte),
       x.rdReqs = (p, n, record) :: rest → bs.length < n →
       exec (.rdmaReadResponse q p bs) s =
         .next (retire q p (setQp q { x with rdReqs := (p + 1, n - bs.length, record) :: rest,
                                              rdData := if record then x.rdData ++ bs else x.rdData } s)))) ∧
  (∀ (s : State) (q : Fin 1024) (cause : Nat), (qpOf s q).st = .rts → (qpOf s q).dest = false → cause < 16 →
     let t := qpError q cause s
     (qpOf t q).cause.toNat = cause ∧ ((qpOf t q).st = .draining ∨ (qpOf t q).st = .error) ∧ (qpOf t q).caps = [] ∧
       ∀ c ∈ t.host.cmds, c.src = .net q → c.started = true ∨ c.fin ≠ none)

/-- Congestion control (R472): a CNP cuts the rate by half of alpha, not below RMIN, and keeps the old rate as the target;
a timer period lets alpha decay and halves the way to the target, which rises by RAI after five. Rates are exact (log 16). -/
def Obligations.RatesFollowCnps : Prop :=
  ∀ (s : State) (q : Fin 1024), (qpOf s q).st = .rts → rbit s (pgNET (qpOf s q).port.val) 0x114 0 = true →
    let x := qpOf s q
    let pg := pgNET x.port.val
    (exec (.cnpReceived q) s = .next (setQp q { x with rt := x.rc, rc := max (x.rc * (1 - x.alpha / 2)) (rmin s x.port.val), alpha := x.alpha * 255 / 256 + 1 / 256, n := 0 } (bump pg 0xA20 1 s))) ∧
    (let rt := if 5 ≤ x.n then min (x.rt + rai s x.port.val) 100000 else x.rt
     exec (.rateIncreaseTimer q) s = .next (setQp q { x with alpha := x.alpha * 255 / 256, n := x.n + 1, rt := rt, rc := (x.rc + rt) / 2 } s))

/-- Frames and the port (R455, R456, R463, R464, R473, R475): a frame with a bad FCS is counted and dropped; a frame that is not the
device's, or too long, or without room where PFC is off, is dropped; any other is received into the buffer, and the packet in sequence
that it carries for a queue pair of the port is taken without an answer, one out of sequence is answered with a NAK. PFC on a port that is enabled and not fenced holds the
port's packets while PFCEN is 1, and its release lets them go in order; the link's rise and fall raise their events, its fall starting the LINKHOLD time, at whose end the port is
fenced with cause 7. -/
def Obligations.PortEvents : Prop :=
  ∀ (s : State) (p : Fin 2),
    (∀ fr : Frame, pageEn s (pgNET p.val) = true → portFenced s p = false →
      let pg := pgNET p.val
      let u := bump pg 0xA14 fr.fecCorr (bump pg 0xA18 fr.fecUncorr (bump64 pg 0xA00 1 s))
      let u := setPort p { portOf u p with rxFill := (portOf u p).rxFill - fr.drained } u
      let v := pfcDrive p (setPort p { portOf u p with rxFill := (portOf u p).rxFill + fr.bytes } u)
      let w := if fr.ce then bump pg 0xA1C 1 v else v
      (fr.fcsOk = false → exec (.frameReceived p fr) s = .next (pfcDrive p (bump pg 0xA10 1 u))) ∧
      (fr.fcsOk = true → fr.roce = false ∨ rfld s pg 0x10C 13 0 < fr.bytes ∨ (pfcOn s p = false ∧ fr.room = false) →
        exec (.frameReceived p fr) s = .next (pfcDrive p (bump pg 0xA2C 1 u))) ∧
      (fr.fcsOk = true → fr.roce = true → fr.bytes ≤ rfld s pg 0x10C 13 0 → pfcOn s p = true ∨ fr.room = true →
        (fr.toQp = none → exec (.frameReceived p fr) s = .next w) ∧
        (∀ q, fr.toQp = some q → (qpOf s q).port ≠ p → exec (.frameReceived p fr) s = .next w) ∧
        (∀ q, fr.toQp = some q → (qpOf s q).port = p → fr.op = .sendOnly →
          (fr.psn = (qpOf s q).rpsn → exec (.frameReceived p fr) s = .next (if fr.ce then ceMark q w else w)) ∧
          (fr.psn ≠ (qpOf s q).rpsn → fr.ce = false → (qpOf s q).st = .rts → exec (.frameReceived p fr) s =
            .next (bump pgQP 0xA14 1 (sendNak q .nakSequence (qpOf s q).rpsn.toNat w)))))) ∧
    (let u := bump (pgNET p.val) 0xA28 1 (bump64 (pgNET p.val) 0xA00 1 s)
     (pageEn s (pgNET p.val) = false ∨ portFenced s p = true → ∀ pause : Bool, exec (.pfcReceived p pause) s = .next s) ∧
     (pageEn s (pgNET p.val) = true → portFenced s p = false → pfcOn s p = false → ∀ pause : Bool, exec (.pfcReceived p pause) s = .next u) ∧
     (pageEn s (pgNET p.val) = true → portFenced s p = false → pfcOn s p = true → exec (.pfcReceived p true) s = .next (setPort p { portOf s p with held := true } u) ∧
       ∃ t, exec (.pfcReceived p false) s = .next t ∧ (portOf t p).held = false ∧ (portOf t p).waiting = [] ∧
         t.out = ((portOf s p).waiting.map (fun hp => Out.packet p hp.1 hp.2)).reverse ++ s.out) ∧
     (∀ (q : Fin 1024) (x : Packet), (qpOf s q).port = p → portFenced s p = false → (portOf s p).linkUp = true → (portOf s p).held = true →
       txFrame q x s = setPort p { portOf s p with waiting := (portOf s p).waiting ++ [(packetHead s q x, x)] } s)) ∧
    (exec (.portLinkUp p) s = .next (raise (pgNET p.val) 0
      (setPort p { portOf s p with linkUp := true, neg := rfld s (pgNET p.val) 0x100 1 0 = 1, holdRun := false } s))) ∧
    (exec (.portLinkDown p) s = .next (raise (pgNET p.val) 1
      (setPort p { portOf s p with linkUp := false, neg := false, held := false, waiting := [], holdRun := true } s))) ∧
    ((portOf s p).holdRun = true → (portOf s p).linkUp = false → exec (.linkholdExpiry p) s = .next (fencePort p 7 s))


/-! ### Record intake, engines and pools -/

/-- Producer words (R319, R321, R324, R326): with room in the ring, SOI starts an item and reserves its length slot, DATA
and EOI append their bytes with their parity faults, LENFILL ends the item, with its own parity fault, and moves the producer to the next 64-byte boundary. A
reserved tag is dropped with LENERR; a word without room stalls; after a flush the rest of an item is swallowed. -/
def Obligations.ProducerWords : Prop :=
  ∀ (s : State) (p : Fin 64) (tag : BitVec 3) (d : BitVec 64) (par : Byte) (nb : BitVec 3), pageEn s (pgRIQ p.val) = true →
    (riqOf s p.val).stalled = none →
    let r := riqOf s p.val
    let room := producerEnd r tag nb - r.mark.getD r.cPos ≤ ringBytes s p.val
    (4 ≤ tag.toNat → exec (.intakeWord p tag d par nb) s = .next (raise (pgRIQ p.val) 4 s)) ∧
    (tag.toNat < 3 → r.swallow = true → exec (.intakeWord p tag d par nb) s = .next s) ∧
    (tag.toNat < 4 → r.swallow = false → ¬ room → exec (.intakeWord p tag d par nb) s =
      .next (bump (pgRIQ p.val) 0xA10 1 (setRiq p.val { r with stalled := some (tag, d, par, nb) } s))) ∧
    (r.swallow = false → room →
      (tag = 1 → r.inItem = false → exec (.intakeWord p tag d par nb) s =
        .next (setRiq p.val { r with items := r.items ++ [{ start := r.pPos }], inItem := true, pPos := r.pPos + 8 } s)) ∧
      (∀ (pre : List Item) (i : Item), r.items = pre ++ [i] → r.inItem = true →
        (tag = 0 ∨ tag = 2 → ∃ t, exec (.intakeWord p tag d par nb) s = .next t ∧
          let n := if tag = 2 ∧ nb ≠ 0 then nb.toNat else 8
          riqOf t p.val = { r with items := pre ++ [{ i with bytes := i.bytes ++ (leBytes d.toNat 8).take n, bad := i.bad ++ ((badParity d par).filter (· < n)).map (· + i.bytes.length), eoi := i.eoi || tag = 2 }], pPos := r.pPos + n }) ∧
        (tag = 3 → ∃ t, exec (.intakeWord p tag d par nb) s = .next t ∧
          riqOf t p.val = { r with items := pre ++ [{ i with len := some d, poison := lenErr d i.bytes.length, lenBad := decide (badParity d par ≠ []) }], inItem := false, pPos := (r.pPos + 63) / 64 * 64 } ∧
          (lenErr d i.bytes.length = true → evPending t (pgRIQ p.val) 4 = true))))

/-- A stalled word completes once there is space (R326); the idle time closes the open group at the last byte taken, but
for one that is cut again after a rewind and keeps its first boundary, and raises IDLE (R328, R334, R363); at the mark's hold time, in a slot of the queue's own polder, the marked group that is being compressed or
encrypted loses its rewind protection, and MARK_EXPIRED is raised (R331, R484); a flush of a queue that no partition is bound to empties it, the pointers at the producer's next item boundary, with
FLUSH_DONE at once where no item was open (R329). -/
def Obligations.IntakeEvents : Prop :=
  ∀ (s : State) (p : Fin 64),
    let r := riqOf s p.val
    let pg := pgRIQ p.val
    (∀ (tag : BitVec 3) (d : BitVec 64) (par : Byte) (nb : BitVec 3), r.stalled = some (tag, d, par, nb) →
      producerEnd r tag nb - r.mark.getD r.cPos ≤ ringBytes s p.val →
      exec (.producerStallRelease p) s = .next (putWord p.val tag d par nb (setRiq p.val { r with stalled := none } (takeRead p (recordBytes tag nb) s)))) ∧
    (∀ (q : Fin 64) (g : Grp), occupancy r ≠ 0 → r.opn = some g → r.part = some q → r.idleUs ≠ 0 →
      (r.recut = [] → exec (.idle p) s = .next (raise pg 2 (bump pg 0xA20 1 (setRiq p.val (cutOpen (recLenOf s q.val (r.nextLrn - 1)) r) s)))) ∧
      (r.recut ≠ [] → exec (.idle p) s = .next (raise pg 2 (bump pg 0xA20 1 (setRiq p.val r s)))) ∧
      ∀ n, (cutOpen n r).opn = none ∧ (r.fragOn = false → r.recut = [] → (cutOpen n r).grps = r.grps ++ [g])) ∧
    (∀ (g : Grp) (rest : List Grp), r.grps = g :: rest → g.stage.working = true → g.prot = true → slotOwner s = some p →
      ∃ t, exec (.markExpired p) s = .next t ∧ evPending t pg 1 = true ∧
        (riqOf t p.val).grps = r.grps.map (fun x => if x.no = g.no then { x with prot := false } else x) ∧
        (riqOf t p.val).mark = markPos { r with grps := r.grps.map (fun x => if x.no = g.no then { x with prot := false } else x) }) ∧
    (swf (fun _ => {}) s.rcd.riq = true → sget none s.rf.guard pg = none → r.part = none → midItem r = false →
      ∃ t, exec (.flush p) s = .next t ∧ (riqOf t p.val).items = [] ∧ (riqOf t p.val).grps = [] ∧ (riqOf t p.val).opn = none ∧
        (riqOf t p.val).mark = none ∧ (riqOf t p.val).pPos = (r.pPos + 63) / 64 * 64 ∧ (riqOf t p.val).cPos = (riqOf t p.val).pPos ∧
        evPending t pg 0 = true ∧ t.host.cmds = s.host.cmds)

/-- A compressor's frame and a cipher pair's confirmed body belong to the slot owner's group there, and nobody else's queue
changes (R340, R483, R511); the first mismatch of a protected group is recorded and cuts the groups again from the mark (R332). -/
def Obligations.EnginesServeTheSlotOwner : Prop :=
  ∀ (s : State) (p : Fin 64) (g : Grp) (pre post : List Grp), slotOwner s = some p → (riqOf s p.val).grps = pre ++ g :: post →
    (∀ x ∈ pre ++ post, x.no ≠ g.no ∧ x.stage ≠ g.stage) →
    (∀ (i : Fin 32) (blocks : List ZBlock), g.stage = .compressing i →
      let frame := zFrame (groupContent g) blocks
      frame.take 6 = [0x28, 0xB5, 0x2F, 0xFD, 0x04, 0x60] ∧
      ∃ t, exec (.compressDone i blocks) s = .next t ∧
        (riqOf t p.val).grps = pre ++ { g with stage := .compressed, frame := frame, bufs := (chainCut frame.length g.bufs).1 } :: post ∧
        (∀ q : Fin 64, q ≠ p → riqOf t q.val = riqOf s q.val) ∧
        count t (pgCMP i.val) 0xA00 = min (count s (pgCMP i.val) 0xA00 + 1) 0xFFFFFFFF) ∧
    (∀ (i : Fin 12) (res : EncObs), g.stage = .encrypting i → res.dataOk = true → res.tagOk = true →
      ∃ t, exec (.encryptDone i res) s = .next t ∧
        (riqOf t p.val).grps = pre ++ { g with stage := .confirmed, mism := 0 } :: post ∧
        (∀ q : Fin 64, q ≠ p → riqOf t q.val = riqOf s q.val)) ∧
    (∀ (i : Fin 12) (res : EncObs), g.stage = .encrypting i → res.dataOk = false → g.prot = true → g.mism = 0 →
      ∃ u, exec (.encryptDone i res) s = .next (rewind p.val g.no (fun x => { x with pair := some i, mism := 1 }) u) ∧
        evPending u (pgCRY i.val) 0 = true ∧ rget u (pgCRY i.val) 0x604 = BitVec.ofNat 32 (p.val + 512))

/-- A confirmed group that fits the partition's current FILLING slot is placed at the next 16-byte boundary of its
stream, leaving its queue (R342, R343); a group not confirmed is not placed. -/
def Obligations.GroupsArePlaced : Prop :=
  ∀ (s : State) (p : Fin 64) (g : Grp) (rest : List Grp), (riqOf s p.val).grps = g :: rest →
    (g.stage ≠ .confirmed → exec (.groupPlace p) s = .next s) ∧
    (∀ (i : Nat) (x : Slot), g.stage = .confirmed → g.put = 0 → (riqOf s p.val).newDs = false →
      curFilling s g.part.val = some (i, x) →
      let off := roundUp16 x.stream.length
      let n := (groupBytes g).length
      off + 64 ≤ streamArea → off + n < streamArea →
      ∃ g' u, putGroup p 6 g s = (true, g', u) ∧ g'.put = n ∧
        (slotOf u i).stream = x.stream ++ List.replicate (off - x.stream.length) 0 ++ groupBytes g ∧
        (slotOf u i).endLrn = g.endLrn ∧
        exec (.groupPlace p) s = .next (closeIfDrained p.val g.part.val (groupPlaced p g' u)))

/-- Reading back (R361, R512): a pair whose lanes agree and whose stored tag matches hands the group on for expansion; a
tag mismatch ends the read AUTH_FAIL; a frame that is rejected, or a bad lengths index, ends it FORMAT_ERR; a lane mismatch
reads the group again once on the same pair; the requested records of a good group go to the command's buffer. -/
def Obligations.ReadBackChecks : Prop :=
  ∀ (s : State) (h : Nat) (c : Cmd) (j : ReadJob), jobOf s h = some j → cmdOf s h = some c →
    (∀ (i : Fin 12) (res : DecObs), j.stage = .decrypting i →
      let u : State := { s with rcd.cry := sset {} s.rcd.cry (engKey i.val c.polder.val) {} }
      let v := bump64 (pgCRY i.val) 0xA08 (ghField (groupStream s j.part.val j.slot j.off) 0x18 4) (bump (pgCRY i.val) 0xA04 1 u)
      (res.dataOk = true → res.tagOk = true → j.authOk = true →
        exec (.decryptDone i h res) s = .next (setJob { j with stage := .decrypted, mism := 0, pair := none } v)) ∧
      (res.dataOk = true → res.tagOk = true → j.authOk = false → exec (.decryptDone i h res) s =
        .next (endRead j stAUTH_FAIL (readResult j) (raise (pgCRY i.val) 2 (bump (pgCRY i.val) 0xA14 1 v)))) ∧
      (res.dataOk = false → j.mism = 0 → ∃ w, exec (.decryptDone i h res) s =
        .next (setJob { j with stage := .find, mism := 1, pair := some i, redo := true } w) ∧ evPending w (pgCRY i.val) 0 = true)) ∧
    (∀ (i : Fin 32), j.stage = .expanding i →
      let u : State := { s with rcd.dcp := sset {} s.rcd.dcp (engKey i.val c.polder.val) {} }
      let hdr := groupStream s j.part.val j.slot j.off
      let gen := (slotOf s j.slot).wgen
      (zRead (ghField hdr 0x14 4) j.frame = none →
        exec (.decompressDone i h) s = .next (endRead j stFORMAT_ERR (readResult j) (raise (pgDCP i.val) 0 (bump (pgDCP i.val) 0xA14 1 u)))) ∧
      ∀ bs : List Byte, zRead (ghField hdr 0x14 4) j.frame = some bs →
        let v := bump64 (pgDCP i.val) 0xA0C bs.length (bump64 (pgDCP i.val) 0xA04 (ghField hdr 0x18 4) (bump (pgDCP i.val) 0xA00 1 u))
        let ok := lixOk hdr bs (j.expect.map (fun x => (x.1, decide (x.2 = gen))))
        (ok = false → exec (.decompressDone i h) s = .next (endRead j stFORMAT_ERR (readResult j) v)) ∧
        (ok = true → ∀ (j' : ReadJob) (out : List Byte) (stop : Option (BitVec 16 × BitVec 64)),
          let lo := ghField hdr 0x1C 4
          let es := parseLix (ghField hdr 0x10 4) (bs.drop lo)
          let hi := ghField hdr 8 6 + (es.filter (fun e => e.kind = 0 ∨ e.kind = 1 ∨ e.kind = 4)).length
          handOver v c (bufLen c.e c.sgl) j.slot j.off (ghField hdr 8 6) es (bs.take lo) j [] = (j', out, stop) →
          let k : ReadJob := { j' with stage := .find, expect := some (hi, gen), frame := [], bufs := [] }
          let w := setJob k (freeBufs j.bufs (meter c.polder.val (fun m => { m with hostOut := m.hostOut + out.length })
            (deliverAt c (bufPieces c.e c.sgl) j.bytes out v)))
          exec (.decompressDone i h) s = .next (releaseRead j.part.val
            (match stop with | some (st, res) => endRead { j' with bufs := [] } st res w | none => readFind c.polder k w))))

/-- Pool buffers (R350, R352, R353, R355): an allocation takes the head of the smallest pool that fits, unless it would
pass its owner's staging share; a free
of the holder's own handle puts the buffer back at the head under the next generation, so that the old handle is then a
double free; a handle of another requester is a foreign free. Staging shares and basin quotas (R32, R367, R368): while the block is enabled a value that would take the sum past its limit is
refused with the block's event and changes no register, any other is taken. -/
def Obligations.PoolBuffersAndShares : Prop :=
  (∀ (s : State) (r : Fin 100) (k i : Nat), pageEn s pgBPM = true → r.val ∉ s.rcd.reqClosed → k < 5 → i < 65536 →
     (∀ (n : Nat) (tail : List Nat) (owner : Byte), poolFor n = some k → k ∉ s.rcd.fenPool → sget [] s.rcd.freeList k = i :: tail → (bufOf s k i).ok = true →
       let past := owner.toNat < 64 ∧ pshareBytes s owner.toNat < stagingUse s owner.toNat + poolBytes k
       (past → exec (.bufferAllocate [⟨r, n, owner, false⟩]) s = .next (bump pgBPM 0xA08 1 s)) ∧
       (¬ past → ∃ t, exec (.bufferAllocate [⟨r, n, owner, false⟩]) s = .next t ∧ 
         bufOf t k i = { bufOf s k i with alloc := true, req := r.val, pol := owner, seq := s.rcd.bufSeq + 1 } ∧
         (owner ≠ 0xFF → stagingUse t owner.toNat = stagingUse s owner.toNat + poolBytes k) ∧
         (tail ≠ [] → sget [] t.rcd.freeList k = tail) ∧ count t pgBPM 0xA00 = min (count s pgBPM 0xA00 + 1) 0xFFFFFFFF)) ∧
     (∀ gen : Byte, i < poolCount s k → (bufOf s k i).gen = gen → (bufOf s k i).alloc = true →
       ((bufOf s k i).req = r.val → exec (.bufferFree r (handleOf k i gen)) s = .next (giveBack k i s)) ∧
       ((bufOf s k i).req ≠ r.val → exec (.bufferFree r (handleOf k i gen)) s = .next (reqFault r.val (handleOf k i gen) 2 s))) ∧
     (∀ gen : Byte, (bufOf s k i).alloc = false ∨ (bufOf s k i).gen ≠ gen →
       exec (.bufferFree r (handleOf k i gen)) s = .next (reqFault r.val (handleOf k i gen) 1 s))) ∧
  (∀ (s : State) (p : Fin 64) (v : Word),
     (sget none s.rf.guard pgBPM = none → exec (.pshareWrite p v) s = .next (if pageEn s pgBPM = true ∧ 1024 < pshareSum s p.val (bits v 10 0)
       then raise pgBPM 4 s else rset s pgBPM (0x200 + 4 * p.val) (BitVec.ofNat 32 (bits v 10 0)))) ∧
     (sget none s.rf.guard pgBSN = none → exec (.quotaWrite p v) s = .next (if pageEn s pgBSN = true ∧ quotaFits s p.val (bits v 12 0) = false
       then raise pgBSN 0 s else rset s pgBSN (0x200 + 4 * p.val) (BitVec.ofNat 32 (bits v 12 0)))))


/-! ### Lane groups, passes and verdicts -/

/-- Lane groups (R121, R125, R127, R129, R130, R133, R169). A lock takes ACQUIRE to LOCKED, and is noted by a group that
runs without its stripe; the time limit of ACQUIRE raises its event and changes no state; two consecutive expected words
frame a LOCKED group, which takes its tone index from the word; a FRAMED group counts tone periods on, and two consecutive words that
disagree with its counter reload it; a word that fails its check is counted; FRAMED without its
stripe goes to HOLDOVER, and so do the groups it clocked; 64 data sets of HOLDOVER end LOST and fenced, or, where AUTO
permits and the lower neighbour qualifies, REASSIGNED to it; offsets between FRAMED neighbours are clamped to 12 bits; a
FORCE_SRC that names no neighbour is ignored with its event; while its clock channel is fenced a group reads no word (R548). -/
def Obligations.LaneGroupsFollowTheirRows : Prop :=
  ∀ (s : State) (k : Fin 8), k.val < laneGroups s.variant → swf (fun _ => {}) s.tim.lgs = true →
    let g := lgOf s k.val
    let pg := pgCST k.val
    (∀ step : Int, isFenced s (0x7100 + k.val) = false →
      (g.st = .acquire → exec (.phaseLock k step) s =
        .next (setLg k.val { g with st := .locked, holdCnt := 0, toneDis := none, prevOk := false } s)) ∧
      (g.st = .holdover ∨ g.st = .reassigned ∨ g.st = .lost → exec (.phaseLock k step) s =
        .next (setLg k.val { g with ownLock := true, ownFramed := false, step := step, prevOk := false } s))) ∧
    (g.st = .acquire → exec (.acqTimeout k) s = .next (raise pg 5 s)) ∧
    (∀ (w v : Word) (ti : Nat), isFenced s (0x7100 + k.val) = false → g.st = .locked → g.prevOk = true → g.word = some v → clockOk w = true → expectedWord s k.val w = true →
      wBand v = wBand w → wStripe v = wStripe w → consecutive s v w = true →
      ∃ t, exec (.clockPositionWord k w ti) s = .next t ∧ (lgOf t k.val).st = .framed ∧ (lgOf t k.val).tone = cposTone (wCpos w)) ∧
    (∀ (w : Word) (n : Nat), isFenced s (0x7100 + k.val) = true → exec (.clockPositionWord k w n) s = .next s) ∧
    (∀ (w : Word) (n : Nat), isFenced s (0x7100 + k.val) = false → g.st = .locked ∨ g.st = .framed →
      let tone := if travelRev s then g.tone - n else g.tone + n
      (clockOk w = false →
        exec (.clockPositionWord k w n) s = .next (bump pg 0xA10 1 (setLg k.val { g with tone := tone, prevOk := false } s))) ∧
      (g.st = .framed → clockOk w = true → expectedWord s k.val w = true → s.mot.lat.newBand = false →
        ((wCpos w : Int) = tone / 2048 % 2 ^ 24 → ∃ t, exec (.clockPositionWord k w n) s = .next t ∧ (lgOf t k.val).tone = tone ∧
          (lgOf t k.val).st = .framed ∧ count t pg 0xA14 = count s pg 0xA14) ∧
        ((wCpos w : Int) ≠ tone / 2048 % 2 ^ 24 → ∃ t, exec (.clockPositionWord k w n) s = .next t ∧ (lgOf t k.val).st = .framed ∧
          count t pg 0xA14 = min (count s pg 0xA14 + 1) 0xFFFFFFFF ∧
          (∀ x, g.toneDis = some x → travelRev s = false → (x + 1) % 2 ^ 24 = wCpos w → (lgOf t k.val).tone = cposTone (wCpos w)) ∧
          (g.toneDis = none → (lgOf t k.val).tone = tone)))) ∧
    (g.st = .framed → ∃ t, exec (.holdEnter k) s = .next t ∧ (lgOf t k.val).st = .holdover ∧ evPending t pg 0 = true ∧
      count t pg 0xA04 = min (count s pg 0xA04 + 1) 0xFFFFFFFF ∧
      ∀ j, j < laneGroups s.variant → (lgOf s j).st = .reassigned →
        (((lgOf s j).src = 1 ∧ j = k.val + 1) ∨ ((lgOf s j).src = 2 ∧ j + 1 = k.val)) → (lgOf t j).st = .holdover) ∧
    (g.st = .holdover → 64 ≤ g.holdCnt →
      (tapeBit s pg 0x100 0 = false → ∃ t, exec (.holdExpire k) s = .next t ∧ (lgOf t k.val).st = .lost ∧
        isFenced t (0x8000 + k.val) = true ∧ evPending t pg 1 = true ∧ evPending t pg 3 = true) ∧
      (tapeBit s pg 0x100 0 = true → qualifies s k.val 1 = true → ∃ t, exec (.holdExpire k) s = .next t ∧
        (lgOf t k.val).st = .reassigned ∧ (lgOf t k.val).src = 1 ∧ evPending t pg 2 = true)) ∧
    (∀ lo hi : Int, g.st = .framed → k.val ≠ 0 → (lgOf s (k.val - 1)).st = .framed →
      ∃ t, exec (.skewMeasurement k lo hi) s = .next t ∧ (lgOf t k.val).skewLo = clampInt (-2048) 2047 lo ∧
        (lgOf t k.val).loV = true ∧ ∀ j, j ≠ k.val → lgOf t j = lgOf s j) ∧
    ∀ v : Word,
      (forceBad s k.val (bits v 9 8) = false → exec (.forceSrcWrite k v) s = .next (ownWrite pg 0x100 v s)) ∧
      (forceBad s k.val (bits v 9 8) = true → exec (.forceSrcWrite k v) s =
        .next (raise pg 7 (ownWrite pg 0x100 ((v &&& ~~~0x300#32) ||| (rget s pg 0x100 &&& 0x300#32)) s)))

/-- The wrap plan and the data set boundary (R34, R278, R587, R672): a ninth entry is refused PLAN_FULL; an entry of a
wrap the partition does not own is refused PLAN_INVALID; any other goes to the end of the plan, and a pass that runs within
its entry goes on. At a boundary the lowest FRAMED or REASSIGNED lane group is the master, no erasure of the past data set is
left, and a latched power failure enters the governor. The restarts (R244, R245): where a pass may start and its entry fits, writing goes to the append point once it is due
and a stop under way is complete (R261), and reading goes on where it stopped once the read-ahead has fallen to its target: a positioning move begins, made for
that pass. -/
def Obligations.PlanBoundariesAndRestarts : Prop :=
  ((∀ (s : State) (e : PlanEntry),
     let w := wpOf s (wrapPair e.wrap.val)
     (8 ≤ s.trk.plan.length → exec (.wrapPlanPost e) s = .next (raise pgWLK 10 s)) ∧
     (s.trk.plan.length < 8 → s.cart = none ∨ w.role ≠ .data ∨ w.pnum.toNat ≠ e.part.val →
       exec (.wrapPlanPost e) s = .next (raise pgWLK 11 s)) ∧
     (∀ p, s.trk.plan.length < 8 → s.cart ≠ none → w.role = .data → w.pnum.toNat = e.part.val → s.trk.waitPost = false →
       s.trk.pass = some p → inEntry s p = true → exec (.wrapPlanPost e) s = .next { s with trk.plan := s.trk.plan ++ [e] })) ∧
   ∀ s : State, s.cart = none → s.trk.pass = none → s.trk.starting = none →
     ∃ t, exec .dataSetBoundary s = .next t ∧ t.lat.stepChg = false ∧ t.trk.heard = [] ∧ (∀ c, (chOf t c).erase = false) ∧
       (∀ k : Fin 8, k.val < laneGroups s.variant → (lgOf t k.val).st = .framed ∨ (lgOf t k.val).st = .reassigned →
         ∃ m, t.lat.master = some m ∧ m.val ≤ k.val) ∧
       (s.top.pf = true → s.top.pfGate = false → t.mot.gov.active = true ∧ t.top.pfGate = true)) ∧
  (∀ (s : State) (e : PlanEntry) (p : Nat), mayStart s = true →
     (s.trk.waitPost = false → s.trk.noPass = false → startEntry s true = some (e, p) →
       (writeDue s e.part = false ∨ planRests s = false → exec .basinRestart s = .next s) ∧
       (writeDue s e.part = true → planRests s = true → ∃ t, exec .basinRestart s = .next t ∧ t.mot.move.status = 1 ∧
         t.trk.starting = some (e.part, .write, p) ∧ t.mot.move.step = t.mot.spd.nreq)) ∧
     (startEntry s false = some (e, p) →
       (targetE s e.part.val < fillOf s e.part.val .read → exec .readResume s = .next s) ∧
       (sget none s.trk.readAt e.part.val ≠ none → fillOf s e.part.val .read ≤ targetE s e.part.val →
         ∃ t, exec .readResume s = .next t ∧ t.mot.move.status = 1 ∧ t.trk.starting = some (e.part, .read, p))))

/-- A verdict of verify (R187 to R189, R191, R201, R217): a written slot has none until it is read, or what was written needs no
reading; its reason is the first of R189 that holds, it is counted by channel and reason, VFYSTAT shows its margin, a failing row is
entered with its instance, the basin slot keeps it (R357), and the instances are judged. After its pass has ended it is counted
only. -/
def Obligations.VerdictsAreEnteredAndJudged : Prop :=
  ∀ (s : State) (pos : Nat) (c : Fin 256) (slot : Fin 68) (i : Inst), instAt s pos = some i → pos < hkBase →
    68 * c.val + slot.val ∉ i.seen →
    let ph := instChan s i c.val
    let sub := if i.half then c.val / 128 else 0
    let got := sget none i.got (68 * c.val + slot.val)
    (verdictOf s i c.val slot.val = none → got = none ∧ exec (.verifyVerdict pos c slot) s = .next s) ∧
    ∀ (r : Nat) (m : Option (BitVec 7)), verdictOf s i c.val slot.val = some (r, m) →
      let counted := noteVerdict ph r m s
      let kept := keepVerdict i c.val slot.val r counted
      (count counted (pgRCH ph) (0xA20 + 4 * r) = min (count s (pgRCH ph) (0xA20 + 4 * r) + 1) 0xFFFFFFFF) ∧
      (∀ x, m = some x → (chOf counted ph).margin = x) ∧
      (∀ p, s.trk.pass = some p → exec (.verifyVerdict pos c slot) s =
        .next (lateRetry (settlePass (judge (modPass (enterVerdict i c.val slot.val r) (passCount (chanKey c.val r) 1 kept)))))) ∧
      (i.kind = .data ∨ i.kind = .retry → slot.val < 64 →
        sget none (slotOf kept i.slot).verd (256 * slot.val + c.val) = some (decide (r = 0))) ∧
      (∀ p, s.trk.pass = some p → slot.val < 64 → r ≠ 0 →
        ∃ y ∈ (enterVerdict i c.val slot.val r p).insts, y.p = i.p ∧ ⟨slot.val, c.val, r⟩ ∈ y.fails) ∧
      (s.trk.pass = none → ∃ t, exec (.verifyVerdict pos c slot) s = .next t ∧ t.trk.pass = none ∧ t.bas = kept.bas ∧ t.rf.cnt = counted.rf.cnt) ∧
      ((ph / 32, 68 * sub + slot.val) ∈ i.inh → r = 1) ∧
      ((ph / 32, 68 * sub + slot.val) ∉ i.inh → chanUsable s ph = false → r = 2) ∧
      (r = 0 → ∃ g, got = some g ∧ m = some g.margin ∧ g.conv = true ∧ g.same = true ∧ g.row < 3 ∧ g.weak = false ∧ g.noread = false)

/-- An attempt at a data set of a read pass (R209 to R213): it tries the copies of what is not resolved, the last written first, and C2
and C3 follow twice. A data set whose data rows are all resolved and whose header holds goes to a READAHEAD slot and the pass goes on;
unresolved data are read again while RRMAX permits, keeping what is resolved; then the data set is unrecoverable. While one is read again the
others wait. -/
def Obligations.DataSetsAreDecodedOrReadAgain : Prop :=
  ∀ (s : State) (dsn : BitVec 29) (p : Pass), s.trk.pass = some p → decodable s p = true →
    let d := dsn.toNat
    let use := rbit s pgWLK 0x104 8
    let n := p.rereads
    let tried := attempt p.rx d p.kept
    let v := countC1 (tried ++ suppTried use p.rx d) s
    let o := outerDecode (leadSupp use p.rx d) (resolve tried p.kept)
    let c2 := o.2.1 || p.c2
    let c3 := o.2.2 || p.c3
    let pay := payloadRead d o.1
    let gone := wholeDsn v p.part.val d
    (p.rereading = true → p.rereadDsn ≠ some d → exec (.dataSetDecode dsn) s = .next s) ∧
    (∀ w ∈ tried, sget none p.kept (256 * w.row + w.chan) = none) ∧
    ((p.rereading = true → p.rereadDsn = some d) →
      (dataWhole o.1 = false → n < rfld v pgWLK 0x104 3 0 → exec (.dataSetDecode dsn) s = .next (startReread p d n o.1 c2 c3 v)) ∧
      (dataWhole o.1 = false → rfld v pgWLK 0x104 3 0 ≤ n → exec (.dataSetDecode dsn) s = .next (nextRead gone (unrecoverable p gone v))) ∧
      ∀ h, dataWhole o.1 = true → readDsHeader pay = some h →
        let stream := (pay.drop 512).take h.streamLen
        (placeRead p h stream v = none → exec (.dataSetDecode dsn) s = .next (stopRead v)) ∧
        (∀ w, placeRead p h stream v = some w → ∃ x, exec (.dataSetDecode dsn) s = .next (nextRead h.dsn x) ∧
          count x pgWLK 0xA20 = min (count w pgWLK 0xA20 + 1) 0xFFFFFFFF ∧
          (c2 = false → count x pgWLK 0xA24 = count w pgWLK 0xA24) ∧
          (c3 = true → count x pgWLK 0xA28 = min (count w pgWLK 0xA28 + 1) 0xFFFFFFFF)))

/-- The read channel's own rows (R75, R120, R138, R153, R162, R275, R277): a run of FLY_LIM flywheel slots loses sync; 64 placement
errors whose mean passes 2 bit cells move WSKEW by one bit cell toward it; a delta moves one unit within its limits, toward what its
statistics show; a frame tick counts its domain's sequence on and takes the next slot start on its tone, of its source where the group
is reassigned, and a group on its own tone has its frequency. -/
def Obligations.ChannelsTrackTheirSignals : Prop :=
  (∀ (s : State) (c : Fin 256),
    let ch := chOf s c.val
    (c.val < channels s.variant → ch.syncLost = false → tapeFld s (pgRCH c.val) 0x114 15 12 ≤ ch.flyRun → ch.flyRun ≠ 0 →
      ∃ t, exec (.syncLost c) s = .next t ∧ (chOf t c.val).syncLost = true ∧ (chOf t c.val).erase = true ∧
        evPending t (pgCST (c.val / 32)) 6 = true ∧ count t (pgRCH c.val) 0xA1C = min (count s (pgRCH c.val) 0xA1C + 1) 0xFFFFFFFF) ∧
    (64 ≤ ch.errN →
      let on := tapeBit s (pgCST (c.val / 32)) 0x10C 8 = true ∧ 128 * ch.errN < ch.errSum.natAbs
      let trim := ch.trim + (if on then (if 0 < ch.errSum then 64 else -64) else 0)
      exec (.wskewTrim c) s = .next (setCh c.val { ch with errSum := 0, errN := 0, trim := trim } s)) ∧
    (lmsOn s c.val = true →
      let due := fun (hi lo n : Nat) => 2 ^ tapeFld s (pgRCH c.val) 0x108 hi lo ≤ n
      let toward := fun (x lim st : Int) => clampInt (-lim) lim (x + st.sign)
      (due 3 0 ch.nG → exec (.lmsDeltaStep c .gain) s = .next (setCh c.val { ch with dg := toward ch.dg 64 ch.stG, nG := 0, stG := 0 } s)) ∧
      (due 7 4 ch.nO → exec (.lmsDeltaStep c .offset) s = .next (setCh c.val { ch with dOff := toward ch.dOff 32 ch.stO, nO := 0, stO := 0 } s)) ∧
      (due 11 8 ch.nA → exec (.lmsDeltaStep c .asym) s = .next (setCh c.val { ch with da := toward ch.da 32 ch.stA, nA := 0, stA := 0 } s)))) ∧
  ∀ (s : State) (k : Fin 8) (obs : TickObs), k.val < laneGroups s.variant → swf (fun _ => {}) s.tim.lgs = true →
    let g := lgOf s k.val
    let tone := if g.st.usable then tickTone s k.val (travelRev s) else g.tone
    ∃ t, exec (.slotTick k obs) s = .next t ∧ (lgOf t k.val).seq = g.seq + 1 ∧ (lgOf t k.val).st = g.st ∧ (lgOf t k.val).tone = tone ∧
      (lgOf t k.val).slot = (if g.st.usable then slotIndex (travelRev s) tone else (g.slot + 1) % 68) ∧
      (g.st = .acquire ∨ g.st = .locked ∨ g.st = .framed → (lgOf t k.val).freq = meanFreq [obs.period]) ∧
      ∀ j, j ≠ k.val → (lgOf t j).st = (lgOf s j).st ∧ (lgOf t j).seq = (lgOf s j).seq ∧ (lgOf t j).slot = (lgOf s j).slot ∧
        (lgOf t j).tone = (lgOf s j).tone ∧ (lgOf t j).freq = (lgOf s j).freq

/-! ### The write gate, motion and the governor -/

/-- The write gate's sources (R246, R247): shock asserts source 1 at once, and it may be released only after the hold time
that runs from SHOCK_N's rise, at a slot boundary; LOSS_N frames without a valid record assert source 3; a frame without a
valid record from the trailing module counts; a reader beyond the PES threshold asserts source 2; source 7 follows FORCE and the end of feeding;
the four records of a frame are delivered, and counted as valid or not (R163, R164, R264). The
other sources stay, but where the control tick of the frame fences a tile. -/
def Obligations.WriteGateSources : Prop :=
  ∀ s : State,
    (∃ t, exec .shock s = .next t ∧ t.pins.shockN = false ∧ t.mot.gate.shockOk = false ∧ evPending t pgSRV 2 = true ∧
      bit t.mot.gate.src 0 = true ∧ (∀ i, 1 ≤ i → i < 7 → bit t.mot.gate.src i = bit s.mot.gate.src i) ∧
      (driving s = true → bit s.mot.gate.src 0 = false → t.pins.winh = true)) ∧
    exec .shockNRise s = .next { s with pins.shockN := true } ∧
    (s.pins.shockN = true → exec .shockHoldExpiry s = .next { s with mot.gate.shockOk := true }) ∧
    (s.pins.shockN = false → exec .shockHoldExpiry s = .next s) ∧
    (∀ k, k < laneGroups s.variant → (lgOf s k).st = .framed ∨ (lgOf s k).st = .reassigned →
      ∃ t, exec .winhRelease s = .next t ∧
        bit t.mot.gate.src 0 = (bit s.mot.gate.src 0 && !s.mot.gate.shockOk) ∧
        bit t.mot.gate.src 1 = (bit s.mot.gate.src 1 && decide (s.mot.gate.wrel < rfld s pgSRV 0x104 11 8)) ∧
        ∀ i, 2 ≤ i → i < 7 → bit t.mot.gate.src i = bit s.mot.gate.src i) ∧
    (rfld s pgSRV 0x104 7 4 ≤ s.mot.gate.loss → bit s.mot.gate.src 2 = false →
      ∃ t, exec .lockLost s = .next t ∧ bit t.mot.gate.src 2 = true ∧ t.mot.gate.locked = false ∧ evPending t pgSRV 1 = true) ∧
    (∀ v : Word, ∃ t, exec (.wforceWrite v) s = .next t ∧
      bit t.mot.gate.src 6 = (rbit t pgSRV 0x108 0 || !s.hwl.sending) ∧
      ∀ i, i < 6 → bit t.mot.gate.src i = bit s.mot.gate.src i) ∧
    ∀ (upper lower leadUpper leadLower : Option ServoRec) (period : Nat) (prog : ProgObs),
      let recs := [servoKept s false true upper, servoKept s false false lower, servoKept s true true leadUpper, servoKept s true false leadLower]
      let ok := (recs.filter (fun r => r.any (·.valid))).length
      let ran := exec (.servoRecord upper lower leadUpper leadLower period prog) s
      (∃ t, ran = .next t ∧ t.mot.meas.recs = recs ∧ count t pgSRV 0xA1C = min (count s pgSRV 0xA1C + ok) 0xFFFFFFFF ∧
        count t pgSRV 0xA20 = min (count s pgSRV 0xA20 + (4 - ok)) 0xFFFFFFFF) ∧
      (servoUse s true upper = none → servoUse s false lower = none → ∃ t, ran = .next t ∧
        t.mot.gate.loss = s.mot.gate.loss + 1 ∧ t.mot.gate.lock = 0 ∧ t.mot.meas.ym = s.mot.meas.ym ∧
        (QuietTick s 9 period prog → t.mot.gate.src = s.mot.gate.src ∧ t.mot.loops = s.mot.loops)) ∧
      ∀ a b, servoUse s true upper = some a → servoUse s false lower = some b → ∃ t, ran = .next t ∧
        t.mot.gate.loss = 0 ∧ t.mot.meas.yUp = servoY a ∧ t.mot.meas.yLo = servoY b ∧ t.mot.meas.ym = rdiv (servoY a + servoY b) 2 ∧
        (QuietTick s 9 period prog → 100 * rfld s pgSRV 0x100 11 0 < (servoY a - trackY (trackNow s)).natAbs → bit t.mot.gate.src 1 = true)

/-- The ticks and the control law (R221 to R227, R248 to R250, R261): a T25 tick moves the device's clocks by 40 µs and measures
the speed from the latest servo frame, and the two reel torques come of the outputs of loops 0 and 1, where its control tick fences no tile (R280, R302); a T2K tick takes the mean skew of its window; a sample of a loop has error (setpoint − measured) ÷
2^ESH, and its integrator and output stay within their limits; a following error that has lasted trips the governor, or adds its cause to it, and is
recorded once; after the reversal dwell the planner goes on to its target. -/
def Obligations.LoopsSampleAndTrip : Prop :=
  (∀ (s : State) (aux : List (BitVec 16)) (prog : ProgObs), ∃ t, exec (.t25Tick aux prog) s = .next t ∧
    t.clk.ctr500 = s.clk.ctr500 + 20000 ∧ t.clk.mtime = s.clk.mtime + 1000 ∧
    1000000 * t.clk.devSec + t.clk.devUs = 1000000 * s.clk.devSec + s.clk.devUs + 40 ∧
    (s.mot.meas.frameT ≠ 0 → t.mot.meas.speed = (if refRev s then -1 else 1) *
      (if 100 ≤ s.mot.meas.noFrame + 1 then 1250000 / (s.mot.meas.noFrame + 1 : Nat) else 800000000000 / (s.mot.meas.frameT : Nat))) ∧
    (mceOn s = true → QuietTick s 10 64000 prog → t.mot.torA = ((loopOf t 1).u - (loopOf t 0).u) / 2 ∧ t.mot.torB = ((loopOf t 1).u + (loopOf t 0).u) / 2)) ∧
  (∀ (s : State) (prog : ProgObs), ∃ t, exec (.t2kTick prog) s = .next t ∧ sget 0 t.lat.seqs 11 = sget 0 s.lat.seqs 11 + 1 ∧ t.mot.meas.skewSum = 0 ∧ t.mot.meas.skewN = 0 ∧
    t.mot.meas.skew = (if s.mot.meas.skewN = 0 then s.mot.meas.skew else rdiv s.mot.meas.skewSum s.mot.meas.skewN) ∧
    (mceOn s = false → t.mot.loops = s.mot.loops)) ∧
  (∀ (s : State) (n : Nat) (sp meas ff : Int), swf (fun _ => {}) s.mot.loops = true →
    let b := bankBase s n
    let lim := fun o hi lo => sgn 16 (rfld s pgMCE (b + o) hi lo)
    let l := loopOf (runLoop n sp meas ff s) n
    l.e = (sp - meas) / 2 ^ rfld s pgMCE (b + 0x10) 4 0 ∧ l.meas = meas ∧ l.sp = sp ∧
    (lim 0x18 15 0 ≤ lim 0x18 31 16 → lim 0x18 15 0 ≤ l.u ∧ l.u ≤ lim 0x18 31 16) ∧
    (lim 0x14 15 0 ≤ lim 0x14 31 16 → 65536 * lim 0x14 15 0 ≤ l.istate ∧ l.istate ≤ 65536 * lim 0x14 31 16) ∧
    ∀ m, m ≠ n → loopOf (runLoop n sp meas ff s) m = loopOf s m) ∧
  (∀ (s : State) (n : Fin 5), pageEn s pgMCE = true → (loopOf s n.val).fe ≠ 0 →
    (mceOn s = false → bit (rget s pgMCE 0x6AC) 8 = true → bits (rget s pgMCE 0x6AC) 2 0 ≠ n.val) →
    rfld s pgMCE (loopBase n.val + 0x44) 15 0 ≤ (loopOf s n.val).fe + 3 →
    ∃ t, exec (.feTrip n) s = .next t ∧ t.mot.gov.active = true ∧ bit t.mot.gov.causes 0 = true ∧ evPending t pgMCE 0 = true ∧
      count t pgMCE 0xA00 = min (count s pgMCE 0xA00 + 1) 0xFFFFFFFF ∧ rget t pgMCE 0x6AC = BitVec.ofNat 32 (n.val + 256)) ∧
  ∀ s : State, s.mot.plan.dwell = true → exec .revDwellExpiry s =
    .next (selectModule (decide (s.mot.plan.target < 0)) { s with mot.plan := { s.mot.plan with dwell := false, idle := decide (s.mot.plan.target = 0) } })

/-- Positioning moves, wrap ends and turnarounds (R35, R236, R237, R242, R261 to R263): a GO is rejected with its event where
the registers hold no possible target, and otherwise begins the move they name; an abort brings the tape to rest; the move's
end raises its event and begins the pass it was made for; at a wrap end the tape coasts, the gate closes, and a pass the
next entry breaks ends, but an HC that reads a full-band pair goes back for its other half (R101); after the coast the tape turns round, makes a positioning move, or stops. -/
def Obligations.MovesAndTurnarounds : Prop :=
  ∀ s : State,
    (sget none s.rf.guard pgMCE = none →
      (moveRejected s = true → exec .moveGo s = .next (raise pgMCE 5 s)) ∧
      (moveRejected s = false → mceOn s = true → ∃ t, exec .moveGo s = .next t ∧ t.mot.move.status = 1 ∧
        t.mot.move.cpos = rfld s pgMCE 0x3C0 23 0 ∧ t.mot.move.track = rfld s pgMCE 0x3C4 6 0 ∧
        t.mot.move.rev = rbit s pgMCE 0x3C4 8 ∧ t.mot.move.step = rfld s pgMCE 0x3C4 20 16 ∧ t.trk.starting = none ∧ t.mot.coast = false) ∧
      (s.mot.move.status = 1 → ∃ t, exec .moveAbort s = .next t ∧ t.mot.move.status = 3 ∧ t.trk.starting = none ∧
        t.mot.plan.target = 0)) ∧
    (s.mot.move.status = 1 →
      (moveThere s = false → exec .moveDone s = .next s) ∧
      (moveThere s = true → s.trk.starting = none → exec .moveDone s = .next (hkReady (raise pgMCE 2 { s with mot.move.status := 2 }))) ∧
      (∀ (part : Fin 64) (kind : PassKind) (p : Nat), s.trk.starting = some (part, kind, p) →
        moveThere s = true → (kind = .write → (degMask s).length ≤ rfld s pgWLK 0x100 7 4) →
        ∃ t q, exec .moveDone s = .next t ∧ t.mot.move.status = 2 ∧ t.trk.starting = none ∧ evPending t pgMCE 2 = true ∧
          t.trk.pass = some q ∧ q.part = part ∧ q.kind = kind ∧ q.nextP = p)) ∧
    (∀ p, s.trk.pass = some p → s.mot.coast = false → mceOn s = true → s.mot.move.status ≠ 1 → (p.kind = .write → inEntry s p = false) →
      (stretched s p = true → p.h1 = false → ∀ e y, s.trk.cur = some e → pposAt s p.part.val p.strP = some (e.wrap.val, y) →
        ∃ t q, exec .wrapEnd s = .next t ∧ t.mot.move.status = 1 ∧ t.trk.pass = some q ∧ q.h1 = true ∧
          q.strP = p.strP ∧ q.strN = (p.strP / wrapLen + 1) * wrapLen - p.strP) ∧
      (stretched s p = false → ∃ t, exec .wrapEnd s = .next t ∧ t.mot.coast = true ∧ t.mot.plan = s.mot.plan ∧ t.hwl.sending = false ∧
        ((∀ e r, s.trk.plan = e :: r → breaksPass p e = false) → t.trk.pass = some p) ∧
        (∀ e r, s.trk.plan = e :: r → breaksPass p e = true → t.trk.pass = none))) ∧
    (s.mot.coast = true → mceOn s = true →
      (s.trk.plan = [] → exec .turnCoastExpiry s = .next (planTo 0 { s with mot.coast := false })) ∧
      (∀ p e r, s.trk.plan = e :: r → s.trk.pass = some p →
        (∀ c, s.trk.cur = some c → nextWrap s c e = true → exec .turnCoastExpiry s = .next (turnAround e r { s with mot.coast := false })) ∧
        ((∀ c, s.trk.cur = some c → nextWrap s c e = false) → ∃ t, exec .turnCoastExpiry s = .next t ∧ t.mot.move.status = 1 ∧ t.trk.cur = some e ∧
          t.trk.plan = r ∧ t.mot.move.track = wrapTrack e.wrap.val)) ∧
      (∀ e r p, s.trk.plan = e :: r → s.trk.pass = none → e.write = true → passStart s e = some p →
        (s.trk.noPass = true → exec .turnCoastExpiry s = .next (planTo 0 { s with mot.coast := false })) ∧
        (s.trk.noPass = false → writeDue s e.part = false → ∃ t, exec .turnCoastExpiry s = .next t ∧ t.trk.cur = some e ∧ t.trk.plan = r ∧
          t.trk.starting = s.trk.starting ∧ ∀ w x, pposAt s e.part.val p = some (w, x) → t.mot.move.status = 1 ∧ t.mot.move.step = 0)))

/-- Loop and policy registers (R227 to R229, R262, R263): a write that selects the other bank marks the loop as swapped; a
trim or a speed policy that would break a consistency rule while EN is 1 is refused with LOOP_REJECT and changes no
register, any other is written under its access codes. Trace buffers (R258, R259): ARM starts a capture and DISARM stops it, their entries kept for the DMA channel; FIRE
triggers where the source is software, and 16,384 − PRE further entries follow; a one-shot buffer then stops. -/
def Obligations.LoopAndTraceRegisters : Prop :=
  (∀ (s : State) (v : Word), sget none s.rf.guard pgMCE = none →
     (∀ n : Fin 5,
       let u := ownWrite pgMCE (loopBase n.val + 0x40) v s
       (rbit u pgMCE (loopBase n.val + 0x40) 0 = rbit s pgMCE (loopBase n.val + 0x40) 0 → exec (.bankSwap n v) s = .next u) ∧
       (rbit u pgMCE (loopBase n.val + 0x40) 0 ≠ rbit s pgMCE (loopBase n.val + 0x40) 0 → ∃ t, exec (.bankSwap n v) s = .next t ∧
         loopOf t n.val = { loopOf s n.val with swapped := true } ∧ bankBase t n.val = bankBase u n.val)) ∧
     (∀ (n : Fin 5) (reg : Fin 16), reg.val % 8 ≠ 7 →
       let u := ownWrite pgMCE (loopBase n.val + 4 * reg.val) v s
       exec (.trimWrite n reg v) s =
         .next (if pageEn s pgMCE = true ∧ bankBad u (loopBase n.val + 0x20 * (reg.val / 8)) = true then raise pgMCE 1 s else u)) ∧
     exec (.speedPolicyWrite false v) s =
       .next (if pageEn s pgMCE = true ∧ smpolBad s v ≠ none then raise pgMCE 1 s else ownWrite pgMCE 0x3A0 v s) ∧
     exec (.speedPolicyWrite true v) s =
       .next (if pageEn s pgMCE = true ∧ smfillBad v = true then raise pgMCE 1 s else ownWrite pgMCE 0x3A4 v s)) ∧
  (∀ (s : State) (b : Fin 4),
     let t := trcOf s b.val
     (sget none s.rf.guard pgTRC = none →
       (t.armed = false → exec (.traceArm b) s =
         .next (setTrc b.val { armed := true, entries := t.entries, mem := t.mem } (setArm b.val true s))) ∧
       (t.armed = true → exec (.traceArm b) s = .next (setArm b.val true s)) ∧
       exec (.traceDisarm b) s = .next (setTrc b.val { t with armed := false } (setArm b.val false s)) ∧
       (rfld s pgTRC (0x104 + 0x20 * b.val) 2 0 = 0 → t.armed = true → t.trig = false → ∃ u, exec (.traceFire b) s = .next u ∧
         (trcOf u b.val).trig = true ∧ (trcOf u b.val).post = 16384 - rfld s pgTRC (0x10C + 0x20 * b.val) 13 0 ∧
         (trcOf u b.val).entries = t.entries ∧ evPending u pgTRC b.val = true) ∧
       (rfld s pgTRC (0x104 + 0x20 * b.val) 2 0 ≠ 0 → exec (.traceFire b) s = .next s)) ∧
     (t.armed = true → t.trig = true → t.post = 0 → rbit s pgTRC (0x100 + 0x20 * b.val) 16 = false →
       exec (.traceCaptureEnd b) s = .next (setArm b.val false (setTrc b.val { t with armed := false } s))))

/-- The governor (R249 to R253): STOP and a crest breach enter it with their causes; the move and the pass end, the
planners stand, the gate's source 4 holds, the MCE is fenced, and the reference starts at the present speed; it brakes
passively from the start without a good cartridge or motor supply (R252), and turns passive without servo frames or motor supply; rest is noted; a guarded release leaves it only under the conditions of
R253. -/
def Obligations.GovernorEntersAndLeaves : Prop :=
  ∀ s : State,
    (sget none s.rf.guard pgGOV = none → ∃ t, exec .stop s = .next t ∧ t.mot.gov.active = true ∧
      t.mot.gov.causes = s.mot.gov.causes ||| 0x80 ∧
      (s.mot.gov.active = false → evPending t pgGOV 0 = true ∧ t.mot.move.status ≠ 1 ∧ t.trk.pass = none ∧ t.mot.plan = {} ∧
        bit t.mot.gate.src 3 = true ∧ isFenced t 0xC000 = true ∧ t.mot.gov.ref = s.mot.meas.speed ∧
        t.mot.gov.passive = (!s.mot.sealed || !s.pins.motorUvN) ∧ (t.mot.gov.passive = true → evPending t pgGOV 6 = true))) ∧
    (∀ (causes : BitVec 5) (i : Nat), i < 5 → bit causes i = true → crestHeld s i = true → ∃ t, exec (.crestBreach causes) s = .next t ∧
      t.mot.gov.active = true ∧ bit t.mot.gov.causes (i + 1) = true ∧ (bit s.mot.gov.causes (i + 1) = false → evPending t pgGOV 2 = true)) ∧
    (s.mot.gov.active = true → s.mot.gov.passive = false →
      (s.mot.gov.rest = false → 500 ≤ s.mot.low →
        exec .govRest s = .next (raise pgGOV 1 { s with mot.gov.rest := true, mot.gov.atRest := true })) ∧
      (250 ≤ s.mot.meas.noFrame → s.mot.meas.speed ≠ 0 → ∃ t, exec .passiveBrake s = .next t ∧ t.mot.gov.passive = true ∧
        evPending t pgGOV 6 = true ∧ (driving s = true → t.pins.pwm = .passive)) ∧
      (∃ t, exec .motorUvN s = .next t ∧ t.mot.gov.passive = true ∧ t.pins.motorUvN = false ∧ evPending t pgGOV 6 = true)) ∧
    (s.mot.gov.active = true → s.mot.gov.passive = true → 2500 ≤ s.mot.quiet →
      exec .passiveRest s = .next { s with mot.gov.atRest := true }) ∧
    ∀ v c : Word, sget none s.rf.guard pgGOV = none →
      (c = ~~~v → v = 1 → mayRelease s = true → ∃ t, exec (.govRelease v c) s = .next t ∧ t.mot.gov.active = false ∧
        t.mot.gov.causes = 0 ∧ bit t.mot.gate.src 3 = false ∧ t.mot.gov.locked = s.mot.gov.locked) ∧
      (c ≠ ~~~v ∨ v ≠ 1 ∨ mayRelease s = false → exec (.govRelease v c) s = .next (raise pgGOV 5 s))

/-! ### Trace, lattice and schedule images -/

/-- Fenced tiles and their detours (R302, R307, R308, R313): a forced fence and an overrun fence their tile once, counted and
recorded with their reasons; a staged detour of a tile that is no control tile goes into use at a data set boundary, and its spare then takes
the staged role with its next tick that switches; a data set whose regeneration is done leaves the list, with those no longer ONTAPE. -/
def Obligations.TileFencesAndDetours : Prop :=
  (∀ (s : State) (v : Word), sget none s.rf.guard pgLAT = none → bit v 15 = true → bits v 8 0 < 320 →
    ((tileOf s (bits v 8 0)).reason ≠ 0 → exec (.latFence v) s = .next s) ∧
    ((tileOf s (bits v 8 0)).reason = 0 → ∃ t, exec (.latFence v) s = .next t ∧ (tileOf t (bits v 8 0)).reason = 8 ∧
      t.lat.lastFence = (bits v 8 0, 8) ∧ evPending t pgLAT 0 = true ∧ count t pgLAT 0xA00 = min (count s pgLAT 0xA00 + 1) 0xFFFFFFFF)) ∧
  (∀ (s : State) (n : Fin 320), 1 ≤ (tileOf s n.val).role → (tileOf s n.val).role ≤ 4 → (tileOf s n.val).reason = 0 →
    ∃ t, exec (.tileOverrun n) s = .next t ∧ (tileOf t n.val).reason = 1 ∧ t.lat.lastFence = (n.val, 1) ∧ evPending t pgLAT 0 = true) ∧
  ∀ (s : State) (d : Detour), s.lat.detour = some d →
    (d.active = false → d.ready = true → d.role ≠ 4 → s.lat.bound = true → s.lat.sched.area ∉ s.lat.sched.reload →
      ∃ t, exec .detourActive s = .next t ∧
        t.lat.detour = some { d with active := true, regen := if d.role = 1 then regenList s else [], ticks := 0 } ∧
        evPending t pgLAT 1 = true ∧ count t pgLAT 0xA04 = min (count s pgLAT 0xA04 + 1) 0xFFFFFFFF ∧
        (s.lat.sched.phase ≠ 3 → (tileOf s d.spare).reason = 0 → entDomain (tileOf s d.spare).stby.ent ≠ none →
          (tileOf t d.spare).due = true ∧ (tileOf t d.spare).stby = (tileOf s d.spare).stby ∧
          ∀ (dm at_ : Nat) (w : BitVec 64), entDomain (tileOf s d.spare).stby.ent = some dm →
            (tileTick dm at_ true w (tileOf t d.spare)).act = (tileOf s d.spare).stby)) ∧
    (d.active = true ∨ d.ready = false ∨ d.role = 4 ∨ s.lat.bound = false ∨ s.lat.sched.area ∈ s.lat.sched.reload →
      exec .detourActive s = .next s) ∧
    (∀ (part dsn : Nat) (rest : List (Nat × Nat)), d.active = true → d.regen = (part, dsn) :: rest → exec (.regenerationDone dsn) s =
      .next { s with lat.detour := some { d with regen := rest.filter (fun x => decide (x.2 ∈ onTapeDsns s x.1)), ticks := 0 } }) ∧
    ∀ dsn, d.active = false ∨ d.regen.head?.map (·.2) ≠ some dsn → exec (.regenerationDone dsn) s = .next s

/-- Schedule images (R283, R284, R293, R297 to R300, R314): a GO starts a load, CANCEL empties STANDBY and ends a SCHED_SELECT
that waited; an image that fails a check of R297 is refused with the check's code and leaves no STANDBY; one that passes keeps
the frame budget, allocates no fenced tile, has a detour onto a spare for every tile it allocates, drives no port twice in a
cycle, and is staged; a switch exchanges ACTIVE and STANDBY, ends any detour and every quote key. -/
def Obligations.ScheduleImagesLoadAndSwitch : Prop :=
  (∀ (s : State) (v : Word), sget none s.rf.guard pgSCH = none →
    (bit v 0 = true → pageEn s pgSCH = true → exec (.schedLoadGo v) s = .next (startLoad (rbit s pgSCH 0x100 0) (bit v 1) (rfld s pgSCH 0x104 31 0) s)) ∧
    (bit v 0 = false ∨ pageEn s pgSCH = false → exec (.schedLoadGo v) s = .next s) ∧
    (let u : State := { s with lat.sched := { s.lat.sched with phase := 0, go := false, standby := none, cmd := none, waitRaised := false } }
     exec .schedLoadCancel s = .next (match s.lat.sched.cmd with | some h => done h stIMAGE_INVALID 0 u | none => u)) ∧
    (∀ img, s.lat.sched.standby = some img → s.lat.sched.phase = 3 ∨ s.lat.sched.phase = 4 →
      ∃ t, exec .schedSwitchGo s = .next t ∧ t = requestSwitch s ∧ t.lat.sched.go = true)) ∧
  (∀ (s : State) (ok : Bool), s.lat.sched.phase = 1 →
    let img := loadedImage s ok
    (∀ code, imageCheck s img = some code → 1 ≤ code ∧ code ≤ 0x10 ∧ ∃ t, exec (.loadDone ok) s = .next t ∧
      t.lat.sched.phase = 6 ∧ t.lat.sched.reject = code ∧ t.lat.sched.standby = none ∧ t.lat.sched.running = s.lat.sched.running ∧
      evPending t pgSCH 1 = true) ∧
    (imageCheck s img = none →
      (∃ t, exec (.loadDone ok) s = .next t ∧ t.lat.sched.standby = some img ∧ t.lat.sched.running = s.lat.sched.running ∧
        (detourPending s = true → t = { s with lat.sched := { s.lat.sched with standby := some img, go := s.lat.sched.auto, phase := 3 } }) ∧
        (detourPending s = false → (t.lat.sched.phase = 4 ∨ t.lat.sched.phase = 5) ∧ t.lat.sched.go = s.lat.sched.auto ∧
          (s.lat.sched.told = false → evPending t pgSCH 0 = true) ∧
          (swf (fun _ => ({} : Tile)) s.lat.tiles = true → ∀ n : Fin 320, (tileOf t n.val).stby = bankOf img n.val))) ∧
      ok = true ∧ img.meas = measure ((loadBytes s).take (leField (loadBytes s) 0x10 4)) ∧
      ecdsaOk (signer s 1 img.keyId) (sha384 ((loadBytes s).take (leField (loadBytes s) 0x10 4)))
        (((loadBytes s).drop (leField (loadBytes s) 0x10 4)).take 96) = true ∧
      (∀ e ∈ img.tiles, e.tickSrc.toNat ≤ 8 → e.len.toNat ≤ 8402) ∧
      (∀ t ∈ allocatedTiles img, (tileOf s t).reason = 0 ∧ ∃ d ∈ img.detours, d.failed.toNat = t ∧ (imgTile img d.spare.toNat).role = 5) ∧
      ∀ x ∈ img.sects, x.kind = 2 → x.route.ents.Pairwise
        (fun e f => e.out = f.out → e.start.toNat + e.run.toNat ≤ f.start.toNat ∨ f.start.toNat + f.run.toNat ≤ e.start.toNat))) ∧
  ∀ (s : State) (img : SchedImage), s.lat.sched.standby = some img → s.lat.sched.go = true → s.lat.sched.phase = 4 ∨ s.lat.sched.phase = 5 →
    s.top.pfGate = false → (∀ r, s.lat.sched.running = some r →
      (if r.stateCompat = img.stateCompat then s.lat.bound else trackIdle s) = true) →
    ∃ t, exec .imageSwitch s = .next t ∧ t.lat.sched.running = some img ∧ t.lat.sched.standby = s.lat.sched.running ∧
      t.lat.sched.area = !s.lat.sched.area ∧ t.lat.sched.phase = 0 ∧ t.lat.detour = none ∧ t.vlt.quotes = [] ∧ evPending t pgSCH 2 = true

/-! ### The vault -/

/-- The vault's mailbox (R491, R494, R497 to R503, R520): REQGO under another operation does nothing, and one whose handle
names no fitting command is a security event; a quote needs its room and leaves a quote key, four to a polder; a key wrapped
under R497 for its quote key is unwrapped, an import that passes R499 leaves it in the store and uses its quote key up; an erasure leaves no key of the partition's polder
and no entry; the unload notice zeroises what is flagged; device time never goes back. -/
def Obligations.VaultServesItsMailbox : Prop :=
  ∀ s : State, sget none s.rf.guard pgVLT = none →
    (∀ (q : QuoteObs) (x : Nat × Byte × Instr),
      x ∈ [(1, 0x0A#8, Instr.reqAttest q), (2, 0x09#8, .reqKeyImport), (3, 0x84#8, .reqPartErase), (4, 0x8A#8, .reqSetTime), (5, 0x82#8, .reqUnloadNotice)] →
      (rfld s pgVLT 0x100 7 0 ≠ x.1 → exec x.2.2 s = .next s) ∧
      (rfld s pgVLT 0x100 7 0 = x.1 → reqCmd s x.2.1 = none → exec x.2.2 s = .next (secEvent s))) ∧
    ∀ c : Cmd,
      let u := modCmd c.handle (fun c => { c with usedVault := true }) s
      (∀ obs : QuoteObs, rfld s pgVLT 0x100 7 0 = 1 → reqCmd s 0x0A = some c →
        let bs := quoteBytes u c obs
        (bufLen c.e c.sgl < bs.length → exec (.reqAttest obs) s = .next (answer c stBUFFER_SMALL 0 0 0 u)) ∧
        (bs.length ≤ bufLen c.e c.sgl → ∃ t, exec (.reqAttest obs) s = .next t ∧
          ⟨obs.quoteId, c.polder, s.clk.devSec, obs.priv, (polderOf s c.polder.val).tag⟩ ∈ t.vlt.quotes ∧
          ((s.vlt.quotes.filter (·.polder = c.polder)).length ≤ 4 → (t.vlt.quotes.filter (·.polder = c.polder)).length ≤ 4))) ∧
      (rfld s pgVLT 0x100 7 0 = 2 → reqCmd s 0x09 = some c →
        let b := (requestBlob u).1
        let v := (requestBlob u).2
        let w := dropQuotes (fun q => decide (q.id = b.quoteId) && decide (q.polder = c.polder)) v
        (∀ x, importEarly v c b = some x → exec .reqKeyImport s = .next (importRefused c x v)) ∧
        (importEarly v c b = none →
          (∀ reason, importKey v c b = .inl reason → exec .reqKeyImport s = .next (importRefused c (stKEY_REFUSED, reason) w)) ∧
          (∀ key, importKey v c b = .inr key → keyPrint key = b.keyFp ∧
            (∀ x, importLate w c b = some x → exec .reqKeyImport s =
              .next (importRefused c x (if x.1 = stNONCE_STATE_LOST then noteLost b.keyFp w else w))) ∧
            (importLate w c b = none → ∃ t, exec .reqKeyImport s = .next t ∧
              (∃ k ∈ t.vlt.keys, k.fp = b.keyFp ∧ k.polder = c.polder) ∧
              (∀ q ∈ t.vlt.quotes, ¬ (q.id = b.quoteId ∧ q.polder = c.polder)) ∧
              count t pgVLT 0xA04 = min (count s pgVLT 0xA04 + 1) 0xFFFFFFFF)) ∧
          (∀ (q : QuoteKey) (pt : Nat × Nat) (key : List Byte), v.vlt.quotes.find? (liveQuote v c.polder b.quoteId) = some q →
            readPoint b.tpub = some pt → key.length = 32 → b.wrapped = keyWrap b.kwalg (blobKek v q b pt) key → b.keyFp = keyPrint key →
            importKey v c b = .inr key))) ∧
      (rfld s pgVLT 0x100 7 0 = 3 → reqCmd s 0x84 = some c →
        let part := c.e.part.toNat
        let fp := (partEntry s part).keyFp
        let v := erasePart part (if fp = 0 then u else zeroise (fun k => decide (k.fp = fp) && decide (some k.polder = ownerPolder u part)) u)
        exec .reqPartErase s = .next (answer c stSUCCESS 0 0 (match v.cart with | none => 0 | some k => k.core.gen.toNat) v) ∧
        (fp ≠ 0 → ∀ k ∈ v.vlt.keys, k.fp = fp → some k.polder ≠ ownerPolder s part) ∧
        (∀ k, s.cart = some k → swf (fun _ => {}) k.core.parts = true → (partEntry v part).inUse = false)) ∧
      (rfld s pgVLT 0x100 7 0 = 4 → reqCmd s 0x8A = some c →
        let sec := csp c.e 0x20 8
        let nano := csp c.e 0x28 4
        let m := minuteEnd u
        nowNs m = nowNs s ∧
        (sec * 1000000000 + nano < nowNs s → exec .reqSetTime s = .next (answer c stTIME_BACKWARD 0 0 0 m)) ∧
        (sec * 1000000000 + nano = nowNs s → exec .reqSetTime s = .next (answer c stSUCCESS 0 0 0 { m with clk.timeSet := true })) ∧
        (nowNs s < sec * 1000000000 + nano → ∃ t, exec .reqSetTime s = .next t ∧ t.clk.devSec = sec ∧ t.clk.devUs = nano / 1000 ∧
          t.clk.timeSet = true)) ∧
      (rfld s pgVLT 0x100 7 0 = 5 → reqCmd s 0x82 = some c → ∃ t, exec .reqUnloadNotice s = .next t ∧
        ∀ k ∈ t.vlt.keys, k.unloadRelease = false ∧ k ∈ s.vlt.keys) ∧
      ∀ id, exec (.quoteKeyExpiry id) s =
        .next { s with vlt.quotes := s.vlt.quotes.filter (fun q => !(decide (q.id = id) && decide (q.time + 600 ≤ s.clk.devSec))) }

/-- IV counters, minutes and the time-slot table (R486, R487, R505, R506, R508, R515): a durable bound is journalled and
comes into force, and the fourth failure in succession loses the key; at the end of a minute every enabled polder of a
deployed device has its record, chained to the last, and every counter starts again; PF0 fills the inactive bank, a bank
with an undefined entry is refused, and the swap changes the banks over at a period's end; nobody else's write of the table
reaches it. -/
def Obligations.CheckpointsMinutesAndTables : Prop :=
  (∀ (s : State) (fp : BitVec 128) (k : IvKey) (b : Nat), ivOf s fp = some k → k.recB = some b → s.top.pfQuiet = false →
    (∃ t, exec (.checkpointDurable fp true) s = .next t ∧ ivOf t fp = some { k with b := b, recB := none, fails := 0 } ∧
      sget none t.vlt.journal (s.vlt.jseq % 256) = some { fp := fp, b := some b, seq := s.vlt.jseq } ∧ t.vlt.jseq = s.vlt.jseq + 1) ∧
    (k.fails < 3 → ∃ t, exec (.checkpointDurable fp false) s = .next t ∧ ivOf t fp = some { k with fails := k.fails + 1 }) ∧
    (3 ≤ k.fails → ∃ t, exec (.checkpointDurable fp false) s = .next t ∧ ivOf t fp = none ∧ fp ∈ t.vlt.lost ∧ evPending t pgVLT 1 = true)) ∧
  (∀ s : State, 60 * (s.vlt.minute + 1) ≤ s.clk.devSec → s.top.pf = false →
    ∃ t, exec .minuteClosed s = .next t ∧ t.vlt.minute = s.vlt.minute + 1 ∧ t.vlt.meters = [] ∧ evPending t pgMTR 3 = true ∧
      (deployed s = true → ∀ p : Fin 64, polderOn s p.val = true → ∃ r, sget none t.vlt.lastRec p.val = some r ∧ r.polder = p ∧
        r.minute = s.vlt.minute ∧ r.counts = meterOf s p.val ∧ r.prev = (sget none s.vlt.chain p.val).getD 0 ∧
        sget none t.vlt.chain p.val = some (BitVec.ofNat 384 (beNat (sha384 (r.bytes s.vlt.devId)))))) ∧
  (∀ (s : State) (r : Requester) (v : Word), r ≠ .pf0 → exec (.tsdataWrite r v) s = .next (secEvent (raise pgMTR 2 s)) ∧
    exec (.tsSwap r) s = .next (secEvent (raise pgMTR 2 s))) ∧
  ∀ s : State, sget none s.rf.guard pgMTR = none →
    let inact (s : State) : Sparse Byte := if s.ts.active then s.ts.bank0 else s.ts.bank1
    let act (s : State) : Sparse Byte := if s.ts.active then s.ts.bank1 else s.ts.bank0
    (∀ v : Word, s.ts.swap = true → exec (.tsdataWrite .pf0 v) s = .next (tsReject 2 s)) ∧
    (∀ v : Word, s.ts.swap = false → swf (fun _ => 0) (inact s) = true → swf regReset s.rf.regs = true →
      let i := bits (rget s pgMTR 0x100) 11 2 * 4
      ∃ t, exec (.tsdataWrite .pf0 v) s = .next t ∧ t.ts.active = s.ts.active ∧ act t = act s ∧
        (∀ k, k < 4 → sget 0 (inact t) (i + k) = BitVec.ofNat 8 (bits v (8 * k + 7) (8 * k))) ∧
        (∀ j, j < i ∨ i + 4 ≤ j → sget 0 (inact t) j = sget 0 (inact s) j) ∧
        rget t pgMTR 0x100 = BitVec.ofNat 32 ((i + 4) % 4096)) ∧
    (s.ts.swap = false →
      ((∀ x ∈ inact s, x.2.toNat < 64 ∨ x.2 = 0xFF) → exec (.tsSwap .pf0) s = .next { s with ts.swap := true }) ∧
      (¬ (∀ x ∈ inact s, x.2.toNat < 64 ∨ x.2 = 0xFF) → exec (.tsSwap .pf0) s = .next (tsReject 1 s))) ∧
    (s.ts.idx = 4095 → s.ts.swap = true → ∃ t, exec .tsSwapped s = .next t ∧ t.ts.active = !s.ts.active ∧ t.ts.swap = false ∧
      t.ts.bank0 = s.ts.bank0 ∧ t.ts.bank1 = s.ts.bank1 ∧ evPending t pgMTR 0 = true ∧ ∀ p, p < 64 → (meterOf t p).tableSwap = true)

/-- An IV counter value is used once (R504, R505): an IV is the device's number with the key's counter below its recorded
bound, the counter then stands one higher, no other key's moves, and the key's next IV differs. -/
def Obligations.IvsAreUsedOnce : Prop :=
  ∀ (s t : State) (fp : BitVec 128) (p : Fin 64) (iv : BitVec 96), takeIv fp p s = (.value iv, t) →
    ∃ k k', ivOf s fp = some k ∧ k.c < k.b ∧ iv = BitVec.ofNat 96 (s.vlt.devId.toNat * 2 ^ 64 + k.c) ∧
      ivOf t fp = some k' ∧ k'.c = k.c + 1 ∧ k'.b = k.b ∧ (∀ f, f ≠ fp → ivOf t f = ivOf s f) ∧
      ∀ (q : Fin 64) (iv' : BitVec 96) (u : State), takeIv fp q t = (.value iv', u) → k.c + 1 < 2 ^ 64 → iv' ≠ iv

/-! ### Integrity, fences and the dump -/

/-- A word's read (R528, R530, R532, R545, R561): a wrong bit of a word and a wrong symbol of a basin chunk are corrected, two bits are not;
nothing where the scrubber's reads are off; a clean word moves the scrub on; a
corrected word is counted and noted for repeats, and an uncorrectable one counts and has its memory's outcome: a queue table word
is fatal, an engine context word fences its polder, a tile data word fences its tile, a basin word acts on its slot. The repeat table and the repairs (R536, R538, R539, R541 to R543, R561): a word not yet listed takes an entry, an entry decays
unless DECAY is 0, the copy of a row and the reload of a tile or an area count when done, and the tile's banks then switch as R299 has it, unless they wait for a switch already; a software pass of a memory that is
there starts, another GO is refused and leaves it, ABORT ends it, and its end is reported with what it found among the words it covered. -/
def Obligations.WordsRepeatsAndPasses : Prop :=
  (∀ (s : State) (place : MemPlace),
     let mem := (placeWord s place).1
     let addr := (placeWord s place).2
     let bad := raise pgMEM 1 (bump pgMEM 0xA0C 1 s)
     (∀ e, scrubOn s mem = false → exec (.scrubRead place e) s = .next s) ∧
     (∀ e, scrubOn s mem = true →
       let got := readOutcome (scrubMove place s) place e
       (got = .clean → exec (.scrubRead place e) s = .next (scrubMove place s)) ∧
       (mem = 1 ∨ 5 ≤ mem ∧ mem ≠ 8 → ∀ sym, got = .corrected sym → exec (.scrubRead place e) s =
         .next (noteRepeat mem addr (some place) (raise pgMEM 0 (bump pgMEM 0xA08 1 s)))) ∧
       (∀ w, place = .queueTable w → got = .uncorrectable → exec (.scrubRead place e) s = .next (fatal 3 0xFFFF bad)) ∧
       (∀ p w, place = .engineContext p w → got = .uncorrectable → exec (.scrubRead place e) s = .next (fencePolder p.val 2 bad)) ∧
       (∀ t w, place = .tileData t w → got = .uncorrectable → exec (.scrubRead place e) s = .next (fenceTile t.val 7 bad)) ∧
       (∀ sl ch pc z, place = .basin sl ch pc z → sl.val < 8160 → got = .uncorrectable → exec (.scrubRead place e) s =
         .next (slotUncorr sl.val (raise pgMEM 1 (bump pgMEM 0xA04 1 (scrubMove place s))))))) ∧
  ((∀ (s : State) (place : MemPlace), (placeWord s place).1 ≠ 8 → readOutcome s place (.bits 0) = .clean ∧
      readOutcome s place (.bits 1) = .corrected 0 ∧ readOutcome s place (.bits 2) = .uncorrectable) ∧
   (∀ (i : Fin 36) (v : Byte), v ≠ 0 → chunkDecode none [(i, v)] = .corrected i ∧ chunkDecode (some i) [(i, v)] = .corrected i)) ∧
  ((∀ (s : State) (mem addr : Nat) (place : Option MemPlace), s.itg.rep.find? (fun e => e.mem = mem ∧ e.addr = addr) = none →
     s.itg.rep.length < 64 → 1 < rfld s pgMEM 0x10C 7 0 →
     noteRepeat mem addr place s = { s with itg.rep := s.itg.rep ++ [{ mem := mem, addr := addr, count := 1 }] }) ∧
   (∀ (s : State) (i : Fin 64), exec (.repeatDecay i) s =
     .next (if rfld s pgMEM 0x10C 31 16 = 0 then s else { s with itg.rep := s.itg.rep.eraseIdx i.val })) ∧
   (∀ (s : State) (bank row : Nat), (bank, row) ∈ s.itg.copies → exec (.spareRowRemap bank row) s =
     .next (bump pgMEM 0xA10 1 { s with itg.copies := s.itg.copies.filter (· ≠ (bank, row)) })) ∧
   (∀ (s : State) (t : Fin 320), (tileOf s t.val).reload = true → (s.lat.sched.phase < 3 ∨ 5 < s.lat.sched.phase) →
     detourPending s = false → exec (.tileReload t) s =
       .next (if (tileOf s t.val).due then s
         else bump pgMEM 0xA18 1 (markDue [t.val] (setTile t.val { tileOf s t.val with reload := false, stby := (tileOf s t.val).act } s)))) ∧
   (∀ (s : State) (a : Bool) (r : List Bool), s.lat.sched.reload = a :: r → exec .areaReload s =
     .next (if areaReadsBack s a then bump pgMEM 0xA18 1 { s with lat.sched.reload := r } else raise pgMEM 7 { s with lat.sched.reload := r })) ∧
   (∀ s : State, sget none s.rf.guard pgMEM = none →
     let mem := rfld s pgMEM 0x114 3 0
     (s.itg.ps = none → 9 ≤ mem → mem ≤ 11 → exec .pscrubGo s =
       .next (setPsStat 1 mem { s with itg.ps := some (mem, rfld s pgMEM 0x118 31 0, rfld s pgMEM 0x11C 31 0) })) ∧
     (s.itg.ps = none → mem < 9 ∨ 11 < mem → exec .pscrubGo s = .next (setPsStat 3 mem s)) ∧
     (∀ m a n, s.itg.ps = some (m, a, n) → exec .pscrubGo s = .next (setPsStat 3 m s) ∧
       exec .pscrubAbort s = .next (setPsStat 0 m { s with itg.ps := none }))) ∧
   ∀ (s : State) (rep : PassReport) (mem a n : Nat), s.itg.ps = some (mem, a, n) →
    let k := if mem = 9 then passCovers mem a n else min rep.read n
    let hit := fun (w : Nat) => decide (a ≤ w) && decide (w < a + k)
    let corr := rep.corrected.filter hit
    let bad := rep.bad.filter (fun x => hit x.1)
    ∃ t, exec (.pscrubDone rep) s = .next t ∧ t.itg.ps = none ∧ evPending t pgMEM 6 = true ∧ (corr ≠ [] → evPending t pgMEM 0 = true) ∧
      (bad ≠ [] → evPending t pgMEM 1 = true) ∧
      (bad = [] → swf regReset s.rf.regs = true → rget t pgMEM 0x608 = BitVec.ofNat 32 corr.length ∧ rget t pgMEM 0x60C = 0 ∧
        rget t pgMEM 0x618 = BitVec.ofNat 32 k))

/-- Fences (R544, R548, R550, R560, R618): a sweep gives every word it names its fault; that of a TOP word is fatal and names the word, and
one of an intake page fences its polder. FENCE fences a unit of a kind that can be fenced, a tile with reason 8, and a polder for PF0
alone; what it cannot fence is denied. A guarded UNFENCE releases a polder for PF0, and a lane group that the fence holds; of an engine or
an ADC channel it starts the self-test, once at a time, whose success releases the unit and whose failure does not; a test at an ADC
channel's enable fences it where it fails. -/
def Obligations.FencesAreSetAndReleased : Prop :=
  (∀ (s : State) (bad : List Nat), exec (.paritySweep bad) s = .next (bad.foldl (fun s w => parityFault w s) s)) ∧
  (∀ (s : State) (off : Nat), off < 4096 → off % 4 = 0 → hasParity s pgTOP off = true → ∃ t, exec (.paritySweep [4096 * pgTOP + off]) s = .next t ∧
    t.itg.fatal = some (1, pgTOP) ∧ evPending t pgMEM 12 = true ∧
    (rbit s pgTOP 0x018 0 = false → rget t pgTOP 0x018 = BitVec.ofNat 32 (1 + off))) ∧
  (∀ (s : State) (p : Fin 64) (off : Nat), off < 4096 → off % 4 = 0 → hasParity s (pgRIQ p.val) off = true →
    ∃ t, exec (.paritySweep [4096 * pgRIQ p.val + off]) s = .next t ∧ isFenced t (0x1000 + p.val) = true) ∧
  (∀ (s : State) (r : Requester) (v : Word), sget none s.rf.guard pgFEN = none →
    let u := bits v 15 0
    let kind := u / 4096
    (unitExists s u = false ∨ kind = 2 ∨ 9 ≤ kind → exec (.fence r v) s = .next (raise pgFEN 4 s)) ∧
    (unitExists s u = true → kind = 1 → r ≠ .pf0 → exec (.fence r v) s = .next (secEvent (raise pgFEN 4 s))) ∧
    (unitExists s u = true → (kind = 1 ∧ r = .pf0) ∨ kind = 3 ∨ kind = 4 ∨ kind = 5 ∨ kind = 7 ∨ kind = 8 →
      ∃ t, exec (.fence r v) s = .next t ∧ isFenced t u = true) ∧
    (unitExists s u = true → kind = 6 → ∃ t, exec (.fence r v) s = .next t ∧
      (tileOf t (u % 4096)).reason = if (tileOf s (u % 4096)).reason = 0 then 8 else (tileOf s (u % 4096)).reason)) ∧
  (∀ (s : State) (r : Requester) (v c : Word), sget none s.rf.guard pgFEN = none →
    let u := bits v 15 0
    let kind := u / 4096
    let w := rset s pgFEN 0xE00 (v &&& 0xFFFF)
    (c ≠ ~~~v → exec (.unfence r v c) s = .next (raise pgFEN 5 s)) ∧
    (c = ~~~v →
      (unitExists s u = false ∨ kind = 2 ∨ kind = 6 ∨ 9 ≤ kind → exec (.unfence r v c) s = .next (raise pgFEN 4 w)) ∧
      (unitExists s u = true → kind = 1 → r ≠ .pf0 → exec (.unfence r v c) s = .next (secEvent (raise pgFEN 4 w))) ∧
      (unitExists s u = true → (kind = 1 ∧ r = .pf0) ∨ (kind = 8 ∧ (lgOf s (u % 4096)).heldFence = true) → isFenced s u = true →
        swf (fun _ => 0) s.itg.fences = true → ∃ t, exec (.unfence r v c) s = .next t ∧ isFenced t u = false ∧ evPending t pgFEN 1 = true) ∧
      (unitExists s u = true → kind = 8 → isFenced s u = true → (lgOf s (u % 4096)).heldFence = false →
        exec (.unfence r v c) s = .next (raise pgFEN 4 w)) ∧
      (unitExists s u = true → (kind = 1 ∧ r = .pf0) ∨ kind = 8 → isFenced s u = false → exec (.unfence r v c) s = .next w) ∧
      (unitExists s u = true → kind = 3 ∨ kind = 4 ∨ kind = 5 ∨ kind = 7 →
        (BitVec.ofNat 16 u ∈ s.itg.unf ∨ u ∈ s.itg.tests → exec (.unfence r v c) s = .next (raise pgFEN 4 w)) ∧
        (BitVec.ofNat 16 u ∉ s.itg.unf → u ∉ s.itg.tests →
          (isFenced s u = false → exec (.unfence r v c) s = .next w) ∧
          (isFenced s u = true → ∃ t, exec (.unfence r v c) s = .next t ∧ t.itg.unf = BitVec.ofNat 16 u :: s.itg.unf ∧ isFenced t u = true ∧
            rget t pgFEN 0x664 = BitVec.ofNat 32 (u + 65536)))))) ∧
  ∀ (s : State) (u : BitVec 16) (m : SelfTest),
    (u ∈ s.itg.unf → isFenced s u.toNat = true →
      (testPasses u.toNat m = false → ∃ t, exec (.selfTestDone u m) s = .next t ∧ t.itg.unf = s.itg.unf.filter (· ≠ u) ∧
        isFenced t u.toNat = true ∧ evPending t pgFEN 2 = true) ∧
      (testPasses u.toNat m = true → swf (fun _ => 0) s.itg.fences = true → ∃ t, exec (.selfTestDone u m) s = .next t ∧
        t.itg.unf = s.itg.unf.filter (· ≠ u) ∧ isFenced t u.toNat = false ∧ evPending t pgFEN 1 = true ∧
        ∀ x, x ≠ u.toNat → isFenced t x = isFenced s x)) ∧
    (u ∉ s.itg.unf → u.toNat ∈ s.itg.tests →
      (testPasses u.toNat m = true → exec (.selfTestDone u m) s = .next { s with itg.tests := s.itg.tests.filter (· ≠ u.toNat) }) ∧
      (testPasses u.toNat m = false → ∃ t, exec (.selfTestDone u m) s = .next t ∧ t.itg.tests = s.itg.tests.filter (· ≠ u.toNat) ∧
        isFenced t (0x7000 + u.toNat % 4096) = true ∧ evPending t pgFEN 2 = true)) ∧
    (u ∉ s.itg.unf → u.toNat ∉ s.itg.tests → exec (.selfTestDone u m) s = .next s) ∧
    (u.toNat / 4096 = 7 → (testPasses u.toNat m = true ↔ m.offset.natAbs ≤ 32 ∧ 900 ≤ m.gain ∧ m.gain ≤ 1100))

/-- Fatal errors and the dump (R551, R553, R555): FEN.FATAL is fatal with cause 5; the first fatal error opens a dump record;
GO, or the end of DUMP_WAIT without it, captures; the capture's end holds the dump, whose header begins with its magic;
CLEAR releases it, its bytes unchanged. -/
def Obligations.FatalErrorsAndTheDump : Prop :=
  ∀ s : State,
    (∀ v : Word, sget none s.rf.guard pgFEN = none →
      (bit v 0 = false → exec (.fenFatal v) s = .next s) ∧
      (bit v 0 = true → ∃ t, exec (.fenFatal v) s = .next t ∧ t.itg.fatal = some (5, 0xFFFF) ∧ evPending t pgMEM 10 = true ∧
        (s.itg.fatal = none → s.itg.dumpSt = 0 → t.itg.dump.cause = 5 ∧ t.itg.dump.ctr = s.clk.ctr500 ∧ t.mem = s.mem))) ∧
    (s.itg.fatal ≠ none → s.itg.dumpSt = 0 →
      (sget none s.rf.guard pgMEM = none → ∃ t, exec .dumpGo s = .next t ∧ t.itg.dumpSt = 1 ∧ t.itg.dump.auto = false) ∧
      (s.itg.dumpGo = false → ∃ t, exec .dumpWaitExpiry s = .next t ∧ t.itg.dumpSt = 1 ∧ t.itg.dump.auto = true)) ∧
    (s.itg.dumpSt = 1 → ∃ t, exec .dumpDone s = .next t ∧ t.itg.dumpSt = (if s.itg.dump.auto then 3 else 2) ∧
      evPending t pgMEM 11 = true ∧ t.itg.dump.complete = !s.top.pf ∧ readBytes 0 t.mem.dump 0 4 = [0x43, 0x4B, 0x44, 0x4D]) ∧
    (sget none s.rf.guard pgMEM = none → s.itg.dumpSt = 2 ∨ s.itg.dumpSt = 3 →
      exec .dumpClear s = .next { s with itg.dumpSt := 0 })

/-! ### Start-up, restarts and power -/

/-- Power and boot (R520, R576, R577, R580, R583, R584, R587, R641): a power-on reset keeps the fuses, the MRAM and the flash and
nothing else of the machine; a failed self-test leaves the device in reset, bad flash or no fit firmware starts recovery, and
a fit slot boots, the crest sealed where it passes; a loss of supply sets the outputs' safe levels; a power failure is latched,
and stops the tape at once where no data set is being fed or read (R261); the lifecycle moves one step by a verified token, at the next
power-on. -/
def Obligations.PowerAndBoot : Prop :=
  (∀ s : State, ∃ t, exec .powerOnReset s = .next t ∧ t.mem.flash = s.mem.flash ∧ t.mem.mramFw = s.mem.mramFw ∧ t.mem.staging = [] ∧
    t.vlt.journal = s.vlt.journal ∧ t.vlt.chain = s.vlt.chain ∧ t.vlt.lifecycle = s.vlt.lcNext ∧ t.vlt.keys = [] ∧ t.vlt.ivs = [] ∧
    t.clk.devSec = 60 * s.vlt.nextMinute ∧ t.top.heldReset = true ∧ t.host.cmds = [] ∧ t.cart = none ∧ t.rf = {} ∧ t.variant = s.variant) ∧
  (∀ (s : State) (env : BootEnv), s.pins.supplies = true → s.pins.sysrstN = false →
    (env.romOk = false → exec (.sysrstNRise env) s = .next { s with pins.sysrstN := true, top.failCode := 1 }) ∧
    (env.romOk = true → env.flashOk = false ∨ pickDir (dirCopy s false) (dirCopy s true) = none → ∃ t, exec (.sysrstNRise env) s = .next t ∧ t.top.recovery = true ∧ t.top.failCode = 2 ∧
      t.top.heldReset = false ∧ t.host.pf0On = true ∧ t.top.harts = []) ∧
    (∀ second d, env.romOk = true → env.flashOk = true → pickDir (dirCopy s false) (dirCopy s true) = some (second, d) →
      let u := takeDir second d s
      (pickSlot u = none → ∃ t, exec (.sysrstNRise env) s = .next t ∧ t.top.recovery = true ∧ t.top.harts = []) ∧
      (∀ slot img, pickSlot u = some (slot, img) → ∃ t, exec (.sysrstNRise env) s = .next t ∧
        t.top.recovery = false ∧ t.top.bootSlot = some slot ∧ t.top.dir = d.ents ∧ t.top.dirGen = d.gen ∧ t.top.last = 6 ∧ t.top.fwVer = img.fwVer ∧
        t.mot.sealed = ((crestImage u).any (crestOk u) || s.mot.sealed) ∧
        ∀ i, i < 4 → (sget {} t.top.harts i).run = true ∧ (sget {} t.top.harts i).pc = 0x80000000#64 + img.entry.setWidth 64))) ∧
  ∀ s : State,
    exec .supplyLoss s = .next { s with pins := { s.pins with supplies := false, winh := true, pwm := .off, dac0 := 0, dac1 := 0, hwlIdle := true, prbLow := true } } ∧
    (s.top.pf = false →
      (inDataSet s = true → exec .pfw s = .next (raise pgTOP 1 { s with pins.pfwN := false, top.pf := true })) ∧
      (inDataSet s = false → ∃ t, exec .pfw s = .next t ∧ t.top.pf = true ∧ t.top.pfGate = true ∧ t.mot.gov.active = true ∧
        evPending t pgTOP 1 = true)) ∧
    (s.top.pf = true → exec .mramQuiescent s = .next { s with top.pfQuiet := true }) ∧
    ∀ v : Word, sget none s.rf.guard pgTOP = none →
      (s.vlt.lcDone = true → exec (.lctrans v) s = .next (secEvent (raise pgTOP 5 s))) ∧
      (s.vlt.lcDone = false → ∃ t, exec (.lctrans v) s = .next t ∧ t.vlt.lcDone = true ∧ t.vlt.lifecycle = s.vlt.lifecycle ∧
        t.vlt.lcNext = (if tokenOk s (bits v 1 0) (spaceRead 1 (64 * bits v 26 6) 160
            (rset { s with vlt.lcDone := true } pgTOP 0x130 (v &&& 0x7FFFFC3))).1 = true
          then BitVec.ofNat 2 (bits v 1 0) else s.vlt.lcNext) ∧
        (t.vlt.lcNext = s.vlt.lcNext → t.vlt.keyHash = s.vlt.keyHash))

/-- The control cores and the flash (R568, R569, R575, R584 to R586): only 0x0A5A kicks the watchdog; half its time without a
kick interrupts every core, all of it restarts them; a restart ends the cores' commands and holds new ones until FWREADY; a
record-side restart leaves no cartridge, pass, channel or opening; flash operations start where nothing protects their range
and have their effect when done; a commit fixes the slot and the least security version. -/
def Obligations.CoresAndFlash : Prop :=
  (∀ (s : State) (v : Word), sget none s.rf.guard pgTOP = none → exec (.wdkick v) s =
    .next (if v = 0x0A5A then setLint17 false { s with top.wdKick := s.clk.mtime.toNat } else s)) ∧
  (∀ s : State, exec .watchdogWarning s = .next (if wdEn s = true ∧ wdTimeout s / 2 ≤ wdMs s then setLint17 true s else s)) ∧
  (∀ s : State,
    (wdEn s = true → wdTimeout s ≤ wdMs s → ∃ t, exec .wdog s = .next t ∧ t.host.fwHold = true ∧ evPending t pgTOP 0 = true ∧
      t.top.wdKick = s.clk.mtime.toNat ∧ count t pgTOP 0xA04 = min (count s pgTOP 0xA04 + 1) 0xFFFFFFFF ∧
      ∀ c ∈ t.host.cmds, fwCmd c = true → c.fin ≠ none) ∧
    (sget none s.rf.guard pgTOP = none →
      (∃ t, exec .coreRestart s = .next t ∧ t.host.fwHold = true ∧ rbit t pgTOP 0x608 2 = true ∧ t.host.fetchStop = false ∧
        ∀ c ∈ t.host.cmds, fwCmd c = true → c.fin ≠ none) ∧
      (∃ t, exec .recordSideRestart s = .next t ∧ t.host.fwHold = true ∧ rbit t pgTOP 0x608 4 = true ∧ t.cart = none ∧
        t.trk.pass = none ∧ t.dma = [] ∧ t.host.opens = [] ∧ t.itg.fatal = none ∧ (∀ f q, getPair t f q = {})) ∧
      exec .fwready s = .next { s with host.fwHold := false })) ∧
  (∀ s : State, sget none s.rf.guard pgTOP = none → s.top.flOp = none →
    let a := rfld s pgTOP 0x110 31 0
    let m := rfld s pgTOP 0x114 31 0
    let n := rfld s pgTOP 0x118 31 0
    let sector := a / 65536 * 65536
    let refused := raise pgTOP 3 (setFl 3 1 s)
    (n ≤ 1048576 → m + n ≤ 33554432 →
      exec .flashRead s = .next (setFl 1 0 { s with top.flOp := some (1, a, m, n) }) ∧
      (flProtected s a n = false → exec .flashProgram s = .next (setFl 1 0 { s with top.flOp := some (2, a, m, n) })) ∧
      (flProtected s a n = true → exec .flashProgram s = .next refused)) ∧
    (flProtected s sector 65536 = false → exec .flashErase s = .next (setFl 1 0 { s with top.flOp := some (3, sector, m, 65536) })) ∧
    (flProtected s sector 65536 = true → exec .flashErase s = .next refused)) ∧
  (∀ (s : State) (op a m n : Nat), s.top.flOp = some (op, a, m, n) →
    let u := raise pgTOP 2 (setFl 2 0 { s with top.flOp := none })
    (op = 1 → exec .flashDone s = .next (spaceWrite 1 m (readBytes 0xFF s.mem.flash a n) u)) ∧
    (op = 2 → ∃ t, exec .flashDone s = .next t ∧ t.mem.flash = progBytes s.mem.flash a (spaceRead 1 m n u).1) ∧
    (op = 3 → Memory.wf s.mem = true → ∃ t, exec .flashDone s = .next t ∧ t = { u with mem.flash := t.mem.flash } ∧
      ∀ x, sget 0xFF t.mem.flash x = (if a ≤ x ∧ x < a + n then 0xFF else sget 0xFF s.mem.flash x))) ∧
  (∀ (s : State) (slotB : Bool), sget none s.rf.guard pgTOP = none → s.top.pf = false →
    (slotFw s slotB = none → exec (.fwcommit slotB) s = .next (setFl 3 2 s)) ∧
    (∀ img, slotFw s slotB = some img → ∃ t, exec (.fwcommit slotB) s = .next t ∧ t.top.committed = slotB ∧ t.vlt.svnMin = img.svn ∧
      t.top.dirGen = s.top.dirGen + 1 ∧ t.top.dirSecond = !s.top.dirSecond ∧ t.top.flStat = 2)) ∧
  ∀ (s : State) (h : Fin 4),
    ((sget {} s.top.harts h.val).mtimecmp.toNat ≤ s.clk.mtime.toNat → ∃ t, exec (.mtimer h) s = .next t ∧
      sget {} t.top.harts h.val = { sget {} s.top.harts h.val with mtip := true }) ∧
    ∀ v : Word, swf (fun _ => {}) s.top.harts = true → ∃ t, exec (.msipWrite h v) s = .next t ∧
      sget {} t.top.harts h.val = { sget {} s.top.harts h.val with msip := bit v 0 } ∧
      ∀ k, k ≠ h.val → sget {} t.top.harts k = sget {} s.top.harts k

/-! ### Link, probe port and registers -/

/-- The Head Write Link, the probe port and JTAG (R655, R659, R662, R667 to R669): a reported link fault ends a write pass with
cause 9; ALIGN follows every 16,384 blocks while the link runs; a TIME block goes out while data are fed; a whole response
with a good signature unlocks and a bad one draws a new challenge, the eighth locking the port out, each a security event;
an incomplete response changes no lock; EXTEST, CLAMP and HIGHZ act as BYPASS while the port is locked. -/
def Obligations.LinkProbeAndJtag : Prop :=
  ∀ s : State,
    (rbit s pgWLK 0x140 28 = true → ∃ t, exec .linkFault s = .next t ∧ t.pins.hwlFltN = false ∧ evPending t pgWLK 7 = true ∧
      count t pgWLK 0xA4C = min (count s pgWLK 0xA4C + 1) 0xFFFFFFFF ∧
      ∀ p, s.trk.pass = some p → p.kind = .write → p.endCause = none → t.trk.pass = some { p with endCause := some 9 }) ∧
    (pageEn s pgWLK = true → ∃ t, exec .align s = .next t ∧ t.hwl.tcnt = s.hwl.tcnt + 4325376 ∧
      ∀ l, l < 2 * laneGroups s.variant → ∃ n line, .blocks l 2 [alignBlock l t.hwl.tcnt] line ∈ t.out ∧
        descramble (Config.scramblerState n) line = payloadBits (alignBlock l t.hwl.tcnt)) ∧
    (∀ (lane : Fin 16) (w : Word) (d : BitVec 24), s.hwl.sending = true → lane.val < 2 * laneGroups s.variant →
      exec (.time lane w d) s = .next (sendBlocks lane.val 2 [timeBlock w d] s)) ∧
    (∀ (v c : Word) (nonce : List Byte), sget none s.rf.guard pgPRB = none →
      let whole := ∀ n, n < 23 → n ∈ s.prb.words
      let ok := responseOk (rset s pgPRB 0xE5C v)
      (c ≠ ~~~v → exec (.unlock v c nonce) s = .next (raise pgPRB 5 s)) ∧
      (c = ~~~v → ¬ whole ∨ s.prb.unlocked = true ∨ s.prb.lockedOut = true →
        ∃ t, exec (.unlock v c nonce) s = .next t ∧ t.prb.unlocked = s.prb.unlocked ∧ t.prb.attempts = s.prb.attempts) ∧
      (c = ~~~v → whole → s.prb.unlocked = false → s.prb.lockedOut = false → ∃ t, exec (.unlock v c nonce) s = .next t ∧
        t.prb.attempts = s.prb.attempts + 1 ∧ evPending t pgVLT 3 = true ∧
        (ok = true → t.prb.unlocked = true ∧ evPending t pgPRB 0 = true ∧ t.prb.fails = s.prb.fails) ∧
        (ok = false → t.prb.unlocked = false ∧ t.prb.fails = s.prb.fails + 1 ∧
          t.prb.lockedOut = decide (8 ≤ s.prb.fails + 1) ∧ t.prb.nonce = nonce ∧ t.prb.words = [] ∧ evPending t pgPRB 1 = true))) ∧
    exec .bypass s = .next { s with prb.jtag := .bypass } ∧
    exec .samplePreload s = .next { s with prb.jtag := .sample } ∧
    exec .idcode s = .next { s with prb.jtag := .idcode, out := .tdo 0x1726456F :: s.out } ∧
    exec .extest s = .next { s with prb.jtag := if s.prb.unlocked then .extest else .bypass } ∧
    exec .clamp s = .next { s with prb.jtag := if s.prb.unlocked then .clamp else .bypass } ∧
    exec .highz s = .next { s with prb.jtag := if s.prb.unlocked then .highz else .bypass }

/-- CTL.EN, snapshots and counter clears (R600, R607 to R609, R614): EN is set where no rule refuses it, and stays with the
first code that does; it is cleared without conditions; SNAP holds every counter of the page; CNTCLR clears its live
counters, leaving the held ones and the other pages'. -/
def Obligations.EnablesSnapshotsAndClears : Prop :=
  ∀ (s : State) (page : Nat) (b : Block) (i : Nat), pageBlock s.variant page = some (b, i) → sget none s.rf.guard page = none →
    swf regReset s.rf.regs = true →
    (b ≠ .qmg → pageEn s page = false →
      (∀ code, enRule s page b i = some code → ∃ t, exec (.ctlEnSet page) s = .next t ∧ pageEn t page = false ∧
        rget t page 0x008 = BitVec.ofNat 32 (256 * (code % 256)) ∧ ∀ e, cfgRejectBit b = some e → evPending t page e = true) ∧
      (enRule s page b i = none → (b = .mce → s.mot.gov.locked = false) →
        ∃ t, exec (.ctlEnSet page) s = .next t ∧ pageEn t page = true)) ∧
    (b ≠ .qmg → ∀ nonce, ∃ t, exec (.ctlEnClear page nonce) s = .next t ∧ pageEn t page = false ∧ t.rf.cnt = s.rf.cnt ∧
      (b = .prb → t.prb.unlocked = false ∧ t.prb.nonce = nonce)) ∧
    (swf (fun _ => 0) s.rf.hold = true → ∃ t, exec (.snap page) s = .next t ∧ t = { s with rf.hold := t.rf.hold } ∧
      ∀ off ∈ pageCounters b, sget 0 t.rf.hold (rkey page off) = liveCount s page b off) ∧
    (b ≠ .mtr → ∃ t, exec (.cntclr page) s = .next t ∧ t = { s with rf.cnt := t.rf.cnt } ∧
      (∀ off, off < 4096 → count t page off = 0) ∧
      (swf (fun _ => 0) s.rf.cnt = true → ∀ q off, q ≠ page → off < 4096 → count t q off = count s q off))

/-- Events and their acknowledgement (R611, R612): setting an event makes its bit pending under the page's next sequence
number and touches no other bit, but that a pending bit whose stamp would fall more than 32,767 behind is stamped 32,767
behind; an EVACK in the window behind SEQ clears every pending bit whose stamp lies in the window behind it, and no other;
an EVACK outside the window is ignored. An event whose mask bit is set interrupts the core that IRQROUTE names for its page
group, but that of a QMG page. -/
def Obligations.EventsAreAcknowledgedBySequence : Prop :=
  ∀ (s : State) (page bitNo : Nat), bitNo < 16 → (pageBlock s.variant page).isSome = true → sget none s.rf.guard page = none →
    swf (fun _ => {}) s.rf.ev = true → swf (fun _ => 0) (evOf s page).stamps = true →
    let stamp (s : State) (b : Nat) : BitVec 16 := sget 0 (evOf s page).stamps b
    let t := raise page bitNo s
    let seq := (evOf s page).seq + 1
    evPending t page bitNo = true ∧ (evOf t page).seq = seq ∧ stamp t bitNo = seq ∧
    (∀ b, b ≠ bitNo → evPending t page b = evPending s page b) ∧ (∀ p, p ≠ page → evOf t p = evOf s p) ∧
    (∀ b, b < 16 → b ≠ bitNo → stamp t b =
      (if evPending s page b = true ∧ 32767 < (seq - stamp s b).toNat then seq - 32767#16 else stamp s b)) ∧
    (∀ b i, pageBlock s.variant page = some (b, i) → b ≠ .qmg → rbit s page 0x014 bitNo = true → coreIrq t (irqCore s b) = true) ∧
    ∀ v : Word,
      let S : BitVec 16 := (v >>> 16).setWidth 16
      (32768 ≤ ((evOf s page).seq - S).toNat → exec (.evack page v) s = .next s) ∧
      (((evOf s page).seq - S).toNat < 32768 → ∃ u, exec (.evack page v) s = .next u ∧ (evOf u page).seq = (evOf s page).seq ∧
        (∀ p, p ≠ page → evOf u p = evOf s p) ∧
        ∀ b, b < 16 → evPending u page b = (evPending s page b && !decide ((S - stamp s b).toNat < 32768)))

/-- Register writes (R602, R605, R606, R619, R620, R622, R623): a 32-bit write of PF0 that reaches a plain register of a page
changes the bits its access codes let change; a write at a hole, of an absent page or of less than 32 bits is recorded as
an access fault; a longer request goes on with 32-bit writes at ascending addresses; an access that the stopped domain of a
lane group does not answer in time ends and is recorded. -/
def Obligations.RegisterWritesAndFaults : Prop :=
  (∀ (s : State) (page o : Nat) (a : RegAccess), page < 1024 → page ≠ 0x011 → o < 4096 → o % 4 = 0 → a.offset = 4096 * page + o → a.more = [] →
    sget none s.rf.guard page = none →
    (pageBlock s.variant page = none → exec (.registerWrite .pf0 a) s =
      .next (accessFault .pf0 .unimplemented true page o pgTOP s)) ∧
    ∀ (b : Block) (i : Nat), pageBlock s.variant page = some (b, i) →
      (a.bytes.val < 4 → exec (.registerWrite .pf0 a) s = .next (accessFault .pf0 .width true page o page s)) ∧
      (a.bytes.val = 4 → a.aligned = true → decodeOff b o = none →
        exec (.registerWrite .pf0 a) s = .next (accessFault .pf0 .hole true page o page s)) ∧
      (∀ row, a.bytes.val = 4 → a.aligned = true → decodeOff b o = some o → 0x020 ≤ o → o < 0xE00 → rowAt b o = some row → row.own = false →
        row.w1 = 0 → b ∉ [Block.top, .mtr, .wlk, .rch, .net] → swf regReset s.rf.regs = true →
        let can := if pageEn s page then row.live else row.live ||| row.rw
        ∃ t, exec (.registerWrite .pf0 a) s = .next t ∧ t = putReg page o row (a.data.setWidth 32) s ∧
          rget t page o = (rget s page o &&& ~~~can) ||| (a.data.setWidth 32 &&& can))) ∧
  (∀ (s : State) (r : Requester) (a : RegAccess) (w : Word), ∃ t, exec (.registerWrite r a) s = .next t ∧
    exec (.registerWrite r { a with more := a.more ++ [w] }) s =
      exec (.registerWrite r { offset := a.offset + 8 + 4 * a.more.length, bytes := 4, data := w.setWidth 64 }) t) ∧
  ∀ (s : State) (r : Requester) (k : Fin 8) (wr : Bool),
    (mayTimeOut s k.val = false → exec (.xdomTimeout r k wr) s = .next s) ∧
    (mayTimeOut s k.val = true → exec (.xdomTimeout r k wr) s =
        .next (timeoutEnd r k.val (4096 * pgCST k.val + 0x60C) wr (accessFault r .xdom wr (pgCST k.val) 0x60C (pgCST k.val) s)) ∧
      (r = .pf0 → ∃ t, exec (.xdomTimeout r k wr) s = .next t ∧ evPending t (pgCST k.val) 15 = true ∧
        count t pgTOP 0xA10 = min (count s pgTOP 0xA10 + 1) 0xFFFFFFFF))
end

