-- ==== Sys2Proof/Laws/Cipher.lean ====
section
/-! SUPPORT. What the cipher operations undo: decryption of a block, and the unwrap of a key (R497). -/

namespace Sys2Proof

theorem xor_back (a b : Byte) : a ^^^ b ^^^ b = a := by rw [BitVec.xor_assoc, BitVec.xor_self, BitVec.xor_zero]

theorem xorBytes_back : ∀ {a b : List Byte}, a.length ≤ b.length → xorBytes (xorBytes a b) b = a
  | [], _, _ => by simp [xorBytes]
  | x :: a, [], h => by simp at h
  | x :: a, y :: b, h => by
    have := xorBytes_back (a := a) (b := b) (by simpa using h)
    simp only [xorBytes, List.zipWith_cons_cons, xor_back] at this ⊢
    rw [this]

@[simp] theorem length_xorBytes (a b : List Byte) : (xorBytes a b).length = min a.length b.length := by simp [xorBytes]

theorem invSubByte_subByte (x : Byte) : invSubByte (subByte x) = x := by
  have h : ∀ n : Fin 256, invSubByte (subByte (BitVec.ofNat 8 n.val)) = BitVec.ofNat 8 n.val := by decide +kernel
  simpa using h ⟨x.toNat, x.isLt⟩

theorem map_invSub (l : List Byte) : (l.map subByte).map invSubByte = l := by
  rw [List.map_map]; exact List.map_congr_left (fun x _ => invSubByte_subByte x) |>.trans (List.map_id l)

/-- A list of 16 bytes, written out. -/
theorem sixteen {l : List Byte} (h : l.length = 16) :
    ∃ a b c d e f g i j k m n o p q r, l = [a, b, c, d, e, f, g, i, j, k, m, n, o, p, q, r] := by
  match l, h with
  | [a, b, c, d, e, f, g, i, j, k, m, n, o, p, q, r], _ => exact ⟨a, b, c, d, e, f, g, i, j, k, m, n, o, p, q, r, rfl⟩

theorem shiftRows_back {l : List Byte} (h : l.length = 16) : invShiftRows (shiftRows l) = l := by
  obtain ⟨a, b, c, d, e, f, g, i, j, k, m, n, o, p, q, r, rfl⟩ := sixteen h; rfl

theorem length_shiftRows {l : List Byte} (h : l.length = 16) : (shiftRows l).length = 16 := by
  obtain ⟨a, b, c, d, e, f, g, i, j, k, m, n, o, p, q, r, rfl⟩ := sixteen h; rfl

theorem xtime_xor (a b : Byte) : xtime (a ^^^ b) = xtime a ^^^ xtime b := by
  have h : ∀ x : Byte, ∀ p q : Bool, x ^^^ (if (p ^^ q) then (0x1B : Byte) else 0) = x ^^^ (if p then 0x1B else 0) ^^^ (if q then 0x1B else 0) := by
    intro x p q; cases p <;> cases q <;> simp
  simp only [xtime, BitVec.shiftLeft_xor_distrib, BitVec.getLsbD_xor, h]
  ac_rfl

theorem xor_twice (a b : Byte) : a ^^^ (a ^^^ b) = b := by rw [← BitVec.xor_assoc, BitVec.xor_self, BitVec.zero_xor]

theorem xor_swap (a b c : Byte) : a ^^^ (b ^^^ c) = b ^^^ (a ^^^ c) := by ac_rfl

/-- The inverse mixing undoes the mixing of a column. -/
theorem column_back (a b c d : Byte) (r : List Byte) :
    invMixCols (mixCols (a :: b :: c :: d :: r)) = a :: b :: c :: d :: invMixCols (mixCols r) := by
  simp only [invMixCols, mixCols, preMix, xtime_xor, List.cons.injEq, BitVec.xor_assoc]
  generalize ha4 : xtime (xtime (xtime (xtime a))) = a4
  generalize hb4 : xtime (xtime (xtime (xtime b))) = b4
  generalize hc4 : xtime (xtime (xtime (xtime c))) = c4
  generalize hd4 : xtime (xtime (xtime (xtime d))) = d4
  generalize xtime (xtime (xtime a)) = a3 at *
  generalize xtime (xtime (xtime b)) = b3 at *
  generalize xtime (xtime (xtime c)) = c3 at *
  generalize xtime (xtime (xtime d)) = d3 at *
  generalize xtime (xtime a) = a2
  generalize xtime (xtime b) = b2
  generalize xtime (xtime c) = c2
  generalize xtime (xtime d) = d2
  generalize xtime a = a1
  generalize xtime b = b1
  generalize xtime c = c1
  generalize xtime d = d1
  clear ha4 hb4 hc4 hd4
  refine ⟨?_, ?_, ?_, ?_, trivial⟩ <;>
    simp only [xor_swap, BitVec.xor_comm, xor_twice, BitVec.xor_self, BitVec.xor_zero]

theorem mixCols_back {l : List Byte} (h : l.length = 16) : invMixCols (mixCols l) = l := by
  obtain ⟨a, b, c, d, e, f, g, i, j, k, m, n, o, p, q, r, rfl⟩ := sixteen h
  simp only [column_back]; rfl

theorem length_mixCols {l : List Byte} (h : l.length = 16) : (mixCols l).length = 16 := by
  obtain ⟨a, b, c, d, e, f, g, i, j, k, m, n, o, p, q, r, rfl⟩ := sixteen h; rfl

theorem length_encRounds : ∀ {ks : List (List Byte)} {b : List Byte}, (∀ k ∈ ks, k.length = 16) → b.length = 16 →
    (encRounds ks b).length = 16
  | [], _, _, hb => hb
  | [k], b, hk, hb => by
    simp [encRounds, length_shiftRows (l := b.map subByte) (by simpa using hb), hk k (by simp)]
  | k :: k' :: ks, b, hk, hb => by
    rw [encRounds]
    · refine length_encRounds (fun x hx => hk x (List.mem_cons_of_mem _ hx)) ?_
      simp [length_mixCols (length_shiftRows (l := b.map subByte) (by simpa using hb)), hk k (by simp)]
    · simp

/-- The rounds undone. -/
theorem rounds_back : ∀ {ks : List (List Byte)} {b : List Byte}, (∀ k ∈ ks, k.length = 16) → b.length = 16 →
    decRounds ks (encRounds ks b) = b
  | [], _, _, _ => rfl
  | [k], b, hk, hb => by
    have hs := length_shiftRows (l := b.map subByte) (by simpa using hb)
    rw [encRounds, decRounds, xorBytes_back (by rw [hs, hk k (by simp)]), shiftRows_back (by simpa using hb), map_invSub]
  | k :: k' :: ks, b, hk, hb => by
    have hs := length_shiftRows (l := b.map subByte) (by simpa using hb)
    have hm := length_mixCols hs
    have hx : (xorBytes (mixCols (shiftRows (b.map subByte))) k).length = 16 := by simp [hm, hk k (by simp)]
    rw [encRounds, decRounds, rounds_back (fun x h => hk x (List.mem_cons_of_mem _ h)) hx,
      xorBytes_back (by rw [hm, hk k (by simp)]), mixCols_back hs, shiftRows_back (by simpa using hb), map_invSub]
    · simp
    · simp

/-- Fifteen round keys of 16 bytes, or any such list, decrypt what they encrypt. -/
theorem aesDec_aesEnc {ks : List (List Byte)} {b : List Byte} (hk : ∀ k ∈ ks, k.length = 16) (h0 : ks ≠ []) (hb : b.length = 16) :
    aesDec ks (aesEnc ks b) = b := by
  obtain ⟨k, ks, rfl⟩ := List.exists_cons_of_ne_nil h0
  have h1 : k.length = 16 := hk k (by simp)
  have hx : (xorBytes b k).length = 16 := by simp [hb, h1]
  simp only [aesDec, aesEnc, List.tail_cons, List.head?_cons, Option.getD_some]
  rw [rounds_back (fun x h => hk x (List.mem_cons_of_mem _ h)) hx, xorBytes_back (by omega)]

theorem length_aesEnc {ks : List (List Byte)} {b : List Byte} (hk : ∀ k ∈ ks, k.length = 16) (h0 : ks ≠ []) (hb : b.length = 16) :
    (aesEnc ks b).length = 16 := by
  obtain ⟨k, ks, rfl⟩ := List.exists_cons_of_ne_nil h0
  refine length_encRounds (fun x h => hk x (List.mem_cons_of_mem _ h)) ?_
  simp [hb, hk k (by simp)]

/-! ### Round keys and the wrap -/

theorem keyWord_words {i : Nat} {rc : Byte} {ws : List (List Byte)} (hw : ∀ w ∈ ws, w.length = 4) (h8 : 8 ≤ ws.length) :
    ∀ w ∈ keyWord i rc ws, w.length = 4 := by
  obtain ⟨x, ws, rfl⟩ := List.exists_cons_of_length_pos (l := ws) (by omega)
  have hx := hw x (by simp)
  have h7 : (((x :: ws)[7]?).getD []).length = 4 := by
    rw [List.getElem?_eq_getElem (by omega), Option.getD_some]; exact hw _ (List.getElem_mem _)
  match x, hx with
  | [a, b, c, d], _ =>
    intro w hmem
    simp only [keyWord, List.head?_cons, Option.getD_some, List.mem_cons] at hmem
    rcases hmem with rfl | hmem
    · rw [length_xorBytes, h7]
      split
      · rfl
      · split <;> rfl
    · exact hw w (by simpa using hmem)

theorem keyWords_words : ∀ (n : Nat) {i : Nat} {rc : Byte} {ws : List (List Byte)}, (∀ w ∈ ws, w.length = 4) → 8 ≤ ws.length →
    (∀ w ∈ keyWords n i rc ws, w.length = 4) ∧ (keyWords n i rc ws).length = n + ws.length
  | 0, _, _, _, hw, _ => ⟨hw, by simp [keyWords]⟩
  | n + 1, i, rc, ws, hw, h8 => by
    have hl : (keyWord i rc ws).length = ws.length + 1 := by simp [keyWord]
    have := keyWords_words n (i := i + 1) (rc := if i % 8 = 0 then xtime rc else rc) (keyWord_words (i := i) (rc := rc) hw h8)
      (by omega)
    exact ⟨this.1, by rw [keyWords, this.2, hl]; omega⟩

theorem chunks_length : ∀ {n k : Nat} {bs : List Byte}, n * k ≤ bs.length → ∀ c ∈ chunks k n bs, c.length = k
  | 0, _, _, _, c, hc => by simp [chunks] at hc
  | n + 1, k, bs, h, c, hc => by
    rw [Nat.succ_mul] at h
    simp only [chunks, List.mem_cons] at hc
    rcases hc with rfl | hc
    · simp; omega
    · exact chunks_length (by simp; omega) c hc

theorem length_chunks (k : Nat) : ∀ (n : Nat) (bs : List Byte), (chunks k n bs).length = n
  | 0, _ => rfl
  | n + 1, bs => by simp [chunks, length_chunks k n]

theorem flatten_chunks (k : Nat) : ∀ {n : Nat} {bs : List Byte}, bs.length = n * k → (chunks k n bs).flatten = bs
  | 0, bs, h => by simp at h; simp [chunks, h]
  | n + 1, bs, h => by
    rw [Nat.succ_mul] at h
    rw [chunks, List.flatten_cons, flatten_chunks k (by simp; omega), List.take_append_drop]

theorem chunks_flatten (k : Nat) : ∀ {l : List (List Byte)}, (∀ x ∈ l, x.length = k) → chunks k l.length l.flatten = l
  | [], _ => rfl
  | x :: l, h => by
    have hx := h x (by simp)
    rw [List.length_cons, chunks, List.flatten_cons, List.take_left' hx, List.drop_left' hx,
      chunks_flatten k (fun y hy => h y (List.mem_cons_of_mem _ hy))]

theorem flatten_length (k : Nat) : ∀ {l : List (List Byte)}, (∀ x ∈ l, x.length = k) → l.flatten.length = l.length * k
  | [], _ => by simp
  | x :: l, h => by
    rw [List.flatten_cons, List.length_append, h x (by simp), flatten_length k (fun y hy => h y (List.mem_cons_of_mem _ hy)),
      List.length_cons, Nat.succ_mul, Nat.add_comm]

/-- The round keys of a 32-byte key are fifteen of 16 bytes. -/
theorem roundKeys_ok {key : List Byte} (h : key.length = 32) : (∀ k ∈ roundKeys key, k.length = 16) ∧ roundKeys key ≠ [] := by
  have hw : ∀ w ∈ (chunks 4 8 key).reverse, w.length = 4 := fun w hw => chunks_length (n := 8) (bs := key) (by omega) w (by simpa using hw)
  have hk := keyWords_words 52 (i := 8) (rc := 1) hw (by simp [length_chunks])
  have hl : (keyWords 52 8 1 (chunks 4 8 key).reverse).reverse.flatten.length = 240 := by
    rw [flatten_length 4 (fun x hx => hk.1 x (by simpa using hx)), List.length_reverse, hk.2]; simp [length_chunks]
  exact ⟨chunks_length (by omega), by simp [roundKeys, chunks]⟩

/-- A step of the wrap, undone. -/
theorem unwrap_wrapStep {ks : List (List Byte)} (hk : ∀ k ∈ ks, k.length = 16) (h0 : ks ≠ []) (t : Nat)
    {x : List Byte × List (List Byte)} (ha : x.1.length = 8) (hr : ∀ r ∈ x.2, r.length = 8) :
    unwrapStep ks t (wrapStep ks t x) = x ∧ (wrapStep ks t x).1.length = 8 ∧ ∀ r ∈ (wrapStep ks t x).2, r.length = 8 := by
  obtain ⟨a, rs⟩ := x
  cases rs with
  | nil => exact ⟨rfl, ha, hr⟩
  | cons r rs =>
    have h8 : r.length = 8 := hr r (by simp)
    have hb : (a ++ r).length = 16 := by simp only [List.length_append]; simp only at ha; omega
    have he := length_aesEnc hk h0 hb
    have ht : (beBytes t 8).length = 8 := by simp [beBytes, leBytes]
    simp only at ha
    refine ⟨?_, by simp [wrapStep, he, ht], ?_⟩
    · simp only [wrapStep, unwrapStep, List.getLast?_append, List.getLast?_singleton, Option.some_or, List.dropLast_concat]
      rw [xorBytes_back (by simp [he, ht]), List.take_append_drop, aesDec_aesEnc hk h0 hb, ← ha, List.take_left, List.drop_left]
    · intro q hq
      simp only [wrapStep, List.mem_append, List.mem_singleton] at hq
      rcases hq with hq | rfl
      · exact hr q (List.mem_cons_of_mem _ hq)
      · simp [he]

theorem unwrap_wrapSteps {ks : List (List Byte)} (hk : ∀ k ∈ ks, k.length = 16) (h0 : ks ≠ [])
    {x : List Byte × List (List Byte)} (ha : x.1.length = 8) (hr : ∀ r ∈ x.2, r.length = 8) (n : Nat) :
    unwrapSteps ks n (wrapSteps ks n x) = x ∧ (wrapSteps ks n x).1.length = 8 ∧ ∀ r ∈ (wrapSteps ks n x).2, r.length = 8 := by
  induction n with
  | zero => exact ⟨rfl, ha, hr⟩
  | succ n ih =>
    have := unwrap_wrapStep hk h0 (n + 1) ih.2.1 ih.2.2
    exact ⟨by rw [wrapSteps, unwrapSteps, this.1, ih.1], this.2⟩

theorem length_wrapSteps (ks : List (List Byte)) (x : List Byte × List (List Byte)) (n : Nat) : (wrapSteps ks n x).2.length = x.2.length := by
  induction n with
  | zero => rfl
  | succ n ih =>
    rw [wrapSteps, wrapStep]
    split
    · exact ih
    · rename_i r rs h; rw [h] at ih; simpa using ih

/-- A 32-byte key comes back from its wrap (R497). -/
theorem keyUnwrap_keyWrap (kwalg : Nat) {kek key : List Byte} (hk : kek.length = 32) (h : key.length = 32) :
    keyUnwrap kwalg kek (keyWrap kwalg kek key) = some key := by
  obtain ⟨h16, h0⟩ := roundKeys_ok hk
  have hc : ∀ r ∈ chunks 8 4 key, r.length = 8 := chunks_length (n := 4) (by omega)
  have hi : (wrapInit kwalg).length = 8 := by rw [wrapInit]; split <;> rfl
  obtain ⟨hu, h8, hr⟩ := unwrap_wrapSteps h16 h0 (x := (wrapInit kwalg, chunks 8 4 key)) hi hc 24
  have hn : (wrapSteps (roundKeys kek) 24 (wrapInit kwalg, chunks 8 4 key)).2.length = 4 := by rw [length_wrapSteps, length_chunks]
  have hch := chunks_flatten 8 hr
  rw [hn] at hch
  simp only [keyUnwrap, keyWrap, List.take_left' h8, List.drop_left' h8, hch, Prod.eta, hu, flatten_chunks 8 (n := 4) h, if_true]

/-- Counter mode undoes itself (R503, R512). -/
theorem ctrMode_ctrMode {ks : List (List Byte)} (hk : ∀ k ∈ ks, k.length = 16) (h0 : ks ≠ []) {iv : List Byte} (hiv : iv.length = 12) :
    ∀ (n j : Nat) (bs : List Byte), bs.length ≤ 16 * n → ctrMode ks iv n j (ctrMode ks iv n j bs) = bs
  | 0, _, bs, h => by simp at h; simp [ctrMode, h]
  | n + 1, j, bs, h => by
    have hb : (iv ++ beBytes j 4).length = 16 := by simp [hiv, beBytes, leBytes]
    have he := length_aesEnc hk h0 hb
    have hx : (xorBytes (bs.take 16) (aesEnc ks (iv ++ beBytes j 4))).length = min 16 bs.length := by simp [he]
    rcases Nat.lt_or_ge 16 bs.length with hl | hl
    · have h16 : (xorBytes (bs.take 16) (aesEnc ks (iv ++ beBytes j 4))).length = 16 := by rw [hx]; omega
      rw [ctrMode, ctrMode, List.take_left' h16, List.drop_left' h16, xorBytes_back (by simp [he]),
        ctrMode_ctrMode hk h0 hiv n (j + 1) (bs.drop 16) (by simp; omega), List.take_append_drop]
    · have hd : bs.drop 16 = [] := List.drop_eq_nil_of_le hl
      have hz : ∀ m i, ctrMode ks iv m i [] = [] := by
        intro m; induction m with
        | zero => intro i; rfl
        | succ m ih => intro i; simp [ctrMode, xorBytes, ih]
      rw [ctrMode, ctrMode, hd, hz, List.append_nil, List.take_of_length_le (by rw [hx]; omega),
        List.drop_eq_nil_of_le (by rw [hx]; omega), hz, List.append_nil, List.take_of_length_le hl,
        xorBytes_back (by rw [he]; omega)]

end Sys2Proof
end

