-- ==== Sys2Proof/Laws/Sparse.lean ====
section
/-! SUPPORT. The laws of sparse tables: what a read gives after a write, and the canonical form. -/

namespace Sys2Proof

section Read
variable {α : Type} [DecidableEq α]

omit [DecidableEq α] in
@[simp] theorem sget_nil (d : α) (k : Nat) : sget d [] k = d := rfl

/-- A write of a listed value reads back, on any list. -/
theorem sget_sset_eq (d : α) (m : Sparse α) (k : Nat) (v : α) (h : v ≠ d) : sget d (sset d m k v) k = v := by
  induction m with
  | nil => simp [sset, sget, h]
  | cons x r ih =>
    obtain ⟨j, w⟩ := x
    simp only [sset, h, if_false]
    split
    · simp [sget]
    · split
      · simp [sget]
      · next h1 h2 => simp [sget, h1, h2, ih]

/-- A write of a listed value leaves every other key, on any list. -/
theorem sget_sset_ne (d : α) (m : Sparse α) (k j : Nat) (v : α) (h : v ≠ d) (hj : j ≠ k) :
    sget d (sset d m k v) j = sget d m j := by
  induction m with
  | nil => simp [sset, sget, h, hj]
  | cons x r ih =>
    obtain ⟨i, w⟩ := x
    simp only [sset, h, if_false]
    split
    · next h1 =>
      simp only [sget, hj, if_false]
      split
      · next h2 => rw [if_neg (by omega), if_pos (by omega)]
      · rfl
    · split
      · next h1 h2 =>
        subst h2
        simp [sget, hj]
      · simp only [sget, ih]

omit [DecidableEq α] in
/-- Keys above a bound. -/
theorem sabove_mono {b c : Nat} {m : Sparse α} (h : sabove c m = true) (hb : b ≤ c) : sabove b m = true := by
  induction m with
  | nil => rfl
  | cons x r ih =>
    obtain ⟨j, w⟩ := x
    simp only [sabove, Bool.and_eq_true, decide_eq_true_eq] at h ⊢
    exact ⟨by omega, ih h.2⟩

omit [DecidableEq α] in
theorem sget_sabove (d : α) {b : Nat} {m : Sparse α} (h : sabove b m = true) {k : Nat} (hk : k ≤ b) : sget d m k = d := by
  cases m with
  | nil => rfl
  | cons x r =>
    obtain ⟨j, w⟩ := x
    simp only [sabove, Bool.and_eq_true, decide_eq_true_eq] at h
    simp only [sget]
    rw [if_neg (by omega), if_pos (by omega)]

theorem sabove_sset {d : α} {b : Nat} {m : Sparse α} (h : sabove b m = true) {k : Nat} (hk : b < k) (v : α) :
    sabove b (sset d m k v) = true := by
  induction m with
  | nil => simp only [sset]; split <;> simp [sabove, hk]
  | cons x r ih =>
    obtain ⟨j, w⟩ := x
    simp only [sabove, Bool.and_eq_true, decide_eq_true_eq] at h
    simp only [sset]
    split
    · split <;> simp [sabove, h, hk]
    · split
      · split <;> simp [sabove, h, hk]
      · simp [sabove, h, ih h.2]

/-- A write keeps the canonical form, where an unlisted key reads as `f` gives it. -/
theorem swf_sset (f : Nat → α) {m : Sparse α} (h : swf f m = true) (k : Nat) (v : α) :
    swf f (sset (f k) m k v) = true := by
  induction m with
  | nil => simp only [sset]; split <;> simp [swf, sabove, *]
  | cons x r ih =>
    obtain ⟨j, w⟩ := x
    simp only [swf, Bool.and_eq_true, decide_eq_true_eq] at h
    obtain ⟨⟨h1, h2⟩, h3⟩ := h
    simp only [sset]
    split
    · next hk =>
      split
      · simp [swf, h1, h2, h3]
      · next hv => simp [swf, hv, h1, h2, h3, sabove, hk, sabove_mono h2 (Nat.le_of_lt hk)]
    · split
      · next hk =>
        subst hk
        split
        · exact h3
        · next hv => simp [swf, hv, h2, h3]
      · next hk1 hk2 =>
        simp [swf, h1, ih h3, sabove_sset h2 (show j < k by omega)]

/-- In a canonical table a write reads back. -/
theorem sget_sset_self (f : Nat → α) {m : Sparse α} (h : swf f m = true) (k : Nat) (v : α) :
    sget (f k) (sset (f k) m k v) k = v := by
  by_cases hv : v = f k
  · induction m with
    | nil => simp [sset, hv]
    | cons x r ih =>
      obtain ⟨j, w⟩ := x
      simp only [swf, Bool.and_eq_true, decide_eq_true_eq] at h
      obtain ⟨⟨h1, h2⟩, h3⟩ := h
      simp only [sset, hv, if_true]
      split
      · next hk => simp only [sget]; rw [if_neg (by omega), if_pos hk]
      · split
        · next hk => rw [hk] at *; exact sget_sabove _ h2 (Nat.le_refl _)
        · next hk1 hk2 =>
          simp only [sget, hk1, hk2, if_false]
          rw [hv] at ih
          exact ih h3
  · exact sget_sset_eq _ _ _ _ hv

/-- In a canonical table a write leaves every other key. -/
theorem sget_sset_other (f : Nat → α) {m : Sparse α} (h : swf f m = true) (k j : Nat) (v : α) (hj : j ≠ k) (d : α) :
    sget d (sset (f k) m k v) j = sget d m j := by
  induction m with
  | nil =>
    simp only [sset]
    split
    · rfl
    · simp [sget, hj]
  | cons x r ih =>
    obtain ⟨i, w⟩ := x
    simp only [swf, Bool.and_eq_true, decide_eq_true_eq] at h
    obtain ⟨⟨h1, h2⟩, h3⟩ := h
    simp only [sset]
    split
    · next hk =>
      split
      · rfl
      · simp only [sget, hj, if_false]
        split
        · rw [if_neg (by omega), if_pos (by omega)]
        · rfl
    · split
      · next hk =>
        subst hk
        split
        · simp only [sget, hj, if_false]
          split
          · exact sget_sabove _ h2 (by omega)
          · rfl
        · simp [sget, hj]
      · simp only [sget, ih h3]

/-- The table of one update, for a constant default. -/
theorem swf_smod {d : α} {m : Sparse α} (h : swf (fun _ => d) m = true) (k : Nat) (g : α → α) :
    swf (fun _ => d) (smod d m k g) = true := swf_sset (fun _ => d) h k _

omit [DecidableEq α] in
theorem sabove_filter {b : Nat} {m : Sparse α} (h : sabove b m = true) (p : Nat × α → Bool) : sabove b (m.filter p) = true := by
  induction m with
  | nil => rfl
  | cons x r ih =>
    obtain ⟨j, w⟩ := x
    simp only [sabove, Bool.and_eq_true, decide_eq_true_eq] at h
    simp only [List.filter]
    split
    · simp [sabove, h.1, ih h.2]
    · exact ih h.2

/-- Dropping entries keeps the canonical form. -/
theorem swf_filter {f : Nat → α} {m : Sparse α} (h : swf f m = true) (p : Nat × α → Bool) : swf f (m.filter p) = true := by
  induction m with
  | nil => rfl
  | cons x r ih =>
    obtain ⟨j, w⟩ := x
    simp only [swf, Bool.and_eq_true, decide_eq_true_eq] at h
    simp only [List.filter]
    split
    · simp [swf, h.1.1, sabove_filter h.1.2 p, ih h.2]
    · exact ih h.2

/-- A key that the filter keeps reads as before; one it drops reads as unlisted. -/
theorem sget_filter {f : Nat → α} {m : Sparse α} (h : swf f m = true) (q : Nat → Bool) (k : Nat) :
    sget (f k) (m.filter (fun x => q x.1)) k = if q k then sget (f k) m k else f k := by
  induction m with
  | nil => simp
  | cons x r ih =>
    obtain ⟨j, w⟩ := x
    simp only [swf, Bool.and_eq_true, decide_eq_true_eq] at h
    obtain ⟨⟨h1, h2⟩, h3⟩ := h
    have ih := ih h3
    simp only [List.filter]
    split
    · next hq =>
      simp only [sget]
      split
      · next hk => subst hk; simp [hq]
      · split
        · simp
        · exact ih
    · next hq =>
      rw [ih]
      by_cases hk : k = j
      · subst hk; simp [hq]
      · simp only [sget, hk, if_false]
        by_cases hl : k < j
        · simp [hl, sget_sabove (f k) h2 (Nat.le_of_lt hl)]
        · simp [hl]

end Read

/-! ### Bytes -/

theorem swf_writeBytes {d : Byte} {m : Sparse Byte} (h : swf (fun _ => d) m = true) (a : Nat) (bs : List Byte) :
    swf (fun _ => d) (writeBytes d m a bs) = true := by
  induction bs generalizing m a with
  | nil => exact h
  | cons b r ih => exact ih (swf_sset (fun _ => d) h a b) (a + 1)

/-- A stored byte reads back, and every byte outside the stored range reads as before. -/
theorem sget_writeBytes {d : Byte} {m : Sparse Byte} (h : swf (fun _ => d) m = true) (a : Nat) (bs : List Byte) (k : Nat) :
    sget d (writeBytes d m a bs) k = if a ≤ k ∧ k < a + bs.length then (bs[k - a]?).getD d else sget d m k := by
  induction bs generalizing m a with
  | nil => simp only [writeBytes, List.length_nil]; rw [if_neg (by omega)]
  | cons b r ih =>
    simp only [writeBytes]
    rw [ih (swf_sset (fun _ => d) h a b) (a + 1)]
    by_cases h1 : a + 1 ≤ k ∧ k < a + 1 + r.length
    · rw [if_pos h1, if_pos (by simp; omega)]
      have : k - a = (k - (a + 1)) + 1 := by omega
      rw [this]; simp
    · rw [if_neg h1]
      by_cases h2 : k = a
      · subst h2
        rw [if_pos (by simp), sget_sset_self (fun _ => d) h]; simp
      · rw [if_neg (by simp; omega), sget_sset_other (fun _ => d) h _ _ _ h2]

theorem sabove_listCells (a : Nat) (bs : List Byte) {b : Nat} (h : b < a) : sabove b (listCells a bs) = true := by
  induction bs generalizing a with
  | nil => rfl
  | cons x r ih =>
    simp only [listCells]
    split
    · exact ih (a + 1) (by omega)
    · simp [sabove, h, ih (a + 1) (by omega)]

theorem swf_listCells (a : Nat) (bs : List Byte) : swf (fun _ => (0 : Byte)) (listCells a bs) = true := by
  induction bs generalizing a with
  | nil => rfl
  | cons x r ih =>
    simp only [listCells]
    split
    · exact ih (a + 1)
    · next hx =>
      simp only [swf, Bool.and_eq_true, decide_eq_true_eq]
      exact ⟨⟨hx, sabove_listCells (a + 1) r (Nat.lt_succ_self a)⟩, ih (a + 1)⟩

/-- A table of cells before another that lies above it. -/
theorem swf_append {α : Type} [DecidableEq α] {f : Nat → α} {m n : Sparse α} (hm : swf f m = true) (hn : swf f n = true)
    (h : ∀ x ∈ m, sabove x.1 n = true) : swf f (m ++ n) = true := by
  induction m with
  | nil => exact hn
  | cons x r ih =>
    obtain ⟨j, w⟩ := x
    simp only [swf, Bool.and_eq_true, decide_eq_true_eq] at hm
    simp only [List.cons_append, swf, Bool.and_eq_true, decide_eq_true_eq]
    refine ⟨⟨hm.1.1, ?_⟩, ih hm.2 (fun x hx => h x (List.mem_cons_of_mem _ hx))⟩
    have hj := h (j, w) (List.mem_cons_self)
    have hr := hm.1.2
    clear ih hm h
    induction r with
    | nil => exact hj
    | cons y t ih =>
      obtain ⟨i, v⟩ := y
      simp only [sabove, Bool.and_eq_true, decide_eq_true_eq] at hr
      simp [sabove, hr.1, ih hr.2]

theorem mem_listCells {a : Nat} {bs : List Byte} {x : Nat × Byte} (h : x ∈ listCells a bs) : a ≤ x.1 ∧ x.1 < a + bs.length := by
  induction bs generalizing a with
  | nil => simp [listCells] at h
  | cons b r ih =>
    simp only [listCells] at h
    split at h
    · have := ih h; simp; omega
    · rcases List.mem_cons.mp h with rfl | h
      · simp
      · have := ih h; simp; omega

@[simp] theorem length_leBytes (v n : Nat) : (leBytes v n).length = n := by
  induction n generalizing v with
  | zero => rfl
  | succ k ih => simp [leBytes, ih]

@[simp] theorem length_beBytes (v n : Nat) : (beBytes v n).length = n := by simp [beBytes]

@[simp] theorem length_readBytes (d : Byte) (m : Sparse Byte) (a n : Nat) : (readBytes d m a n).length = n := by
  induction n generalizing a with
  | zero => rfl
  | succ k ih => simp [readBytes, ih]

/-- No cell of a string that starts behind an address stands at it. -/
theorem above_listCells (a : Nat) (bs : List Byte) : ∀ x ∈ listCells (a + 1) bs, x.1 ≠ a := by
  intro x hx
  have := (mem_listCells hx).1
  omega
/-- The walk from where a string's cells begin reads the string. -/
theorem takeCells_listCells (bs : List Byte) (a : Nat) : takeCells 0 bs.length a (listCells a bs) = bs := by
  induction bs generalizing a with
  | nil => rfl
  | cons b bs ih =>
    simp only [listCells, List.length_cons]
    split
    · rename_i hb
      cases hc : listCells (a + 1) bs with
      | nil => simp only [takeCells, hb, ← hc, ih]
      | cons x xs =>
        have hx : x.1 ≠ a := above_listCells a bs x (by rw [hc]; exact .head _)
        simp only [takeCells, if_neg hx, hb, ← hc, ih]
    · simp only [takeCells, if_true, ih]
/-- No cell of a string stands before its start. -/
theorem dropWhile_listCells (bs : List Byte) (a : Nat) : (listCells a bs).dropWhile (fun x => decide (x.1 < a)) = listCells a bs := by
  cases hc : listCells a bs with
  | nil => rfl
  | cons x xs =>
    have := (mem_listCells (by rw [hc]; exact .head _ : x ∈ listCells a bs)).1
    rw [List.dropWhile_cons_of_neg (by simpa using this)]
/-- What stands from an address reads back in one walk. -/
theorem readRange_listCells (bs : List Byte) (a : Nat) : readRange 0 (listCells a bs) a bs.length = bs := by
  rw [readRange, dropWhile_listCells, takeCells_listCells]

end Sys2Proof
end

