-- ==== Sys2Proof/Laws/Format.lean ====
section
/-! SUPPORT. What the layouts of the tape format say: a field of a longer image is that of its first part (R92, R106), a digest is
48 bytes, and an image laid out with its digests is whole (R115). -/

namespace Sys2Proof.Laws

open Sys2Proof.Machine

theorem length_shaRepeat (n : Nat) (ws : List W64) : (shaRepeat n ws).length = n + ws.length := by
  induction n generalizing ws with
  | zero => simp [shaRepeat]
  | succ n ih => simp [shaRepeat, ih, shaNext]; omega

theorem length_shaRound (v : List W64) (kw : W64 × W64) (h : v.length = 8) : (shaRound v kw).length = 8 := by
  unfold shaRound
  split
  · rfl
  · exact h

theorem length_shaRounds (l : List (W64 × W64)) (v : List W64) (h : v.length = 8) : (l.foldl shaRound v).length = 8 := by
  induction l generalizing v with
  | nil => exact h
  | cons x r ih => exact ih _ (length_shaRound v x h)

theorem length_shaBlock (h b : List W64) (hh : h.length = 8) : (shaBlock h b).length = 8 := by
  simp [shaBlock, length_shaRounds _ h hh, hh]

theorem length_shaBlocks (n : Nat) (h : List W64) (bs : List Byte) (hh : h.length = 8) : (shaBlocks n h bs).length = 8 := by
  induction n generalizing h bs with
  | zero => exact hh
  | succ n ih => exact ih _ _ (length_shaBlock h _ hh)

theorem length_wordBytes (l : List W64) : (l.flatMap (fun w => beBytes w.toNat 8)).length = 8 * l.length := by
  induction l with
  | nil => rfl
  | cons w r ih => simp [ih]; omega

@[simp] theorem length_sha384 (m : List Byte) : (sha384 m).length = 48 := by
  simp only [sha384, length_wordBytes, List.length_take]
  rw [length_shaBlocks _ _ _ rfl]
  rfl

/-- A part of a longer string that lies in its first part. -/
theorem part_append {a b : List Byte} {o n : Nat} (h : o + n ≤ a.length) : ((a ++ b).drop o).take n = (a.drop o).take n := by
  rw [List.drop_append_of_le_length (by omega), List.take_append_of_le_length (by rw [List.length_drop]; omega)]

theorem beField_append {a b : List Byte} {o n : Nat} (h : o + n ≤ a.length) : beField (a ++ b) o n = beField a o n := by
  simp only [beField, part_append h]

/-- The part after a first part of known length. -/
theorem part_skip {a b c : List Byte} {o n : Nat} (ho : o = a.length) (hn : n = b.length) : ((a ++ (b ++ c)).drop o).take n = b := by
  subst ho hn
  rw [List.drop_left, List.take_left]

/-- A data set header is read from the first 512 bytes. -/
theorem readDsHeader_append {a b : List Byte} (h : 512 ≤ a.length) : readDsHeader (a ++ b) = readDsHeader a := by
  have e : (a ++ b).take 508 = a.take 508 := List.take_append_of_le_length (by omega)
  have l : ¬ (a ++ b).length < 512 := by simp; omega
  have l' : ¬ a.length < 512 := by omega
  simp (disch := omega) only [readDsHeader, beField_append, e, l, l', or_false]

theorem leNat_leBytes (v n : Nat) (h : v < 256 ^ n) : leNat (leBytes v n) = v := by
  induction n generalizing v with
  | zero => simp at h; subst h; rfl
  | succ n ih =>
    have : v / 256 < 256 ^ n := by rw [Nat.div_lt_iff_lt_mul (by omega)]; rwa [Nat.pow_succ] at h
    simp only [leBytes, leNat, ih _ this, BitVec.toNat_ofNat]
    omega

/-- A big-endian number reads back. -/
theorem beNat_beBytes (v n : Nat) (h : v < 256 ^ n) : beNat (beBytes v n) = v := by
  simp only [beNat, beBytes, List.reverse_reverse, leNat_leBytes v n h]

theorem beNat_bits {w : Nat} (x : BitVec w) (n : Nat) (h : 2 ^ w ≤ 256 ^ n) : beNat (beBytes x.toNat n) = x.toNat :=
  beNat_beBytes _ _ (Nat.lt_of_lt_of_le x.isLt h)

theorem beField_past {v k o n : Nat} {b : List Byte} (h : k ≤ o) : beField (beBytes v k ++ b) o n = beField b (o - k) n := by
  rw [beField, List.drop_append, List.drop_of_length_le (by simpa using h), List.nil_append, length_beBytes, beField]
theorem beField_pastByte {x : Byte} {o n : Nat} {b : List Byte} (h : 0 < o) : beField (x :: b) o n = beField b (o - 1) n := by
  obtain ⟨k, rfl⟩ : ∃ k, o = k + 1 := ⟨o - 1, by omega⟩
  rfl
theorem beField_here {v n : Nat} {b : List Byte} (h : v < 256 ^ n) : beField (beBytes v n ++ b) 0 n = v := by
  rw [beField, List.drop_zero, List.take_left' (by simp), beNat_beBytes v n h]
theorem beField_byte {x : Byte} {b : List Byte} : beField (x :: b) 0 1 = x.toNat := by
  simp [beField, beNat, leNat]

/-- The numbers of a header fit their fields. -/
def HeaderFits (h : DsHeader) : Prop :=
  h.dsn < 2 ^ 32 ∧ h.lrnStart < 2 ^ 48 ∧ h.marks < 2 ^ 48 ∧ h.ngrp < 2 ^ 16 ∧ h.streamLen < 2 ^ 32 ∧ h.time < 2 ^ 64 ∧
  ∀ f, h.firstGrp = some f → f < 0xFFFFFFFF

theorem length_dsHeaderBody (h : DsHeader) : (dsHeaderBody h).length = 508 := by
  simp only [dsHeaderBody, List.length_append, length_beBytes, List.length_cons, List.length_nil, List.length_replicate]

/-- A data set header reads back as it was laid out (R92). -/
theorem readDsHeader_bytes (h : DsHeader) (r : List Byte) (fit : HeaderFits h) : readDsHeader (dsHeaderBytes h ++ r) = some h := by
  obtain ⟨f1, f2, f3, f4, f5, f6, f7⟩ := fit
  have lb := length_dsHeaderBody h
  rw [readDsHeader_append (by simp [dsHeaderBytes, lb])]
  have lc : beField (dsHeaderBytes h) 508 4 = (crc32c (dsHeaderBody h)).toNat := by
    have := part_skip (a := dsHeaderBody h) (b := beBytes (crc32c (dsHeaderBody h)).toNat 4) (c := []) (o := 508) (n := 4) lb.symm (by simp)
    rw [List.append_nil] at this
    rw [beField, dsHeaderBytes, this, beNat_bits _ _ (by decide)]
  have tk : (dsHeaderBytes h).take 508 = dsHeaderBody h := by simp only [dsHeaderBytes]; exact List.take_left' lb
  have ll : (dsHeaderBytes h).length = 512 := by simp [dsHeaderBytes, lb]
  have fld : ∀ o n, o + n ≤ 508 → beField (dsHeaderBytes h) o n = beField (dsHeaderBody h) o n := fun o n ho =>
    beField_append (by omega)
  simp (disch := omega) only [readDsHeader, fld, lc, tk, ll]
  have fg : h.firstGrp.getD 0xFFFFFFFF < 256 ^ 4 := by
    cases e : h.firstGrp with
    | none => decide
    | some f => have := f7 f e; simp; omega
  have w64 : h.wgen.toNat < 256 ^ 8 := h.wgen.isLt
  have o64 : h.owner.toNat < 256 ^ 8 := h.owner.isLt
  have k128 : h.keyFp.toNat < 256 ^ 16 := h.keyFp.isLt
  have w32 : h.writer.toNat < 256 ^ 4 := h.writer.isLt
  have g1 : beField (dsHeaderBody h) 0 4 = dsMagic ∧ beField (dsHeaderBody h) 4 1 = h.dsType.toNat ∧ beField (dsHeaderBody h) 5 1 = h.geom.toNat ∧
      beField (dsHeaderBody h) 6 1 = h.pnum.toNat ∧ beField (dsHeaderBody h) 8 4 = h.dsn ∧ beField (dsHeaderBody h) 0x10 8 = h.wgen.toNat ∧
      beField (dsHeaderBody h) 0x18 6 = h.lrnStart ∧ beField (dsHeaderBody h) 0x1E 6 = h.marks := by
    refine ⟨?_, ?_, ?_, ?_, ?_, ?_, ?_, ?_⟩ <;>
      simp (disch := omega) only [dsHeaderBody, List.append_assoc, List.cons_append, List.nil_append, beField_past, beField_pastByte,
        beField_here, beField_byte, dsMagic, Nat.reduceSub]
  have g2 : beField (dsHeaderBody h) 0x24 4 = h.firstGrp.getD 0xFFFFFFFF ∧ beField (dsHeaderBody h) 0x28 2 = h.ngrp ∧
      beField (dsHeaderBody h) 0x2C 4 = h.streamLen ∧ beField (dsHeaderBody h) 0x30 16 = h.keyFp.toNat ∧
      beField (dsHeaderBody h) 0x40 8 = h.owner.toNat ∧ beField (dsHeaderBody h) 0x48 8 = h.time ∧
      beField (dsHeaderBody h) 0x50 4 = h.writer.toNat := by
    refine ⟨?_, ?_, ?_, ?_, ?_, ?_, ?_⟩ <;>
      simp (disch := omega) only [dsHeaderBody, List.append_assoc, List.cons_append, List.nil_append, beField_past, beField_pastByte,
        beField_here, Nat.reduceSub]
  obtain ⟨a1, a2, a3, a4, a5, a6, a7, a8⟩ := g1
  obtain ⟨b1, b2, b3, b4, b5, b6, b7⟩ := g2
  simp only [a1, a2, a3, a4, a5, a6, a7, a8, b1, b2, b3, b4, b5, b6, b7, ne_eq, not_true_eq_false, false_or, Nat.lt_irrefl, if_false,
    BitVec.ofNat_toNat, BitVec.setWidth_eq]
  have hf : (if h.firstGrp.getD 0xFFFFFFFF = 0xFFFFFFFF then none else some (h.firstGrp.getD 0xFFFFFFFF)) = h.firstGrp := by
    cases e : h.firstGrp with
    | none => rfl
    | some f => have := f7 f e; simp only [Option.getD_some]; rw [if_neg (by omega)]
  rw [hf]

theorem readPart_part (a : List Byte) : readPart (a.take 128) = readPart a := by
  have h : ∀ o n, o + n ≤ 128 → beField (a.take 128) o n = beField a o n := by
    intro o n hon
    simp only [beField, List.drop_take, List.take_take, Nat.min_eq_left (show n ≤ 128 - o by omega)]
  simp (disch := omega) only [readPart, h]

/-- The core of an image is read from its first part. -/
theorem readCore_append {a b : List Byte} (h : 0x2680 ≤ a.length) : readCore (a ++ b) = readCore a := by
  have hw : ∀ w ∈ List.range 200, (w, readWp (((a ++ b).drop (0x40 + 8 * w)).take 8)) = (w, readWp ((a.drop (0x40 + 8 * w)).take 8)) := by
    intro w hw
    rw [part_append (by have := List.mem_range.1 hw; omega)]
  have hp : ∀ p ∈ List.range 64, (p, readPart (((a ++ b).drop (0x680 + 128 * p)).take 128)) = (p, readPart ((a.drop (0x680 + 128 * p)).take 128)) := by
    intro p hp
    rw [part_append (by have := List.mem_range.1 hp; omega)]
  simp only [readCore, tableOf, List.map_congr_left hw, List.map_congr_left hp]
  rw [beField_append (by omega), beField_append (by omega), beField_append (by omega), beField_append (by omega),
    beField_append (by omega)]

/-- SHA-384's blocks one after another: those of a first part of whole blocks, then the others. -/
theorem shaBlocks_append (n m : Nat) (h : List W64) (a b : List Byte) (ha : a.length = 128 * n) :
    shaBlocks (n + m) h (a ++ b) = shaBlocks m (shaBlocks n h a) b := by
  induction n generalizing h a with
  | zero =>
    have : a = [] := List.eq_nil_of_length_eq_zero (by omega)
    subst this
    simp [shaBlocks]
  | succ n ih =>
    rw [show n + 1 + m = n + m + 1 by omega]
    simp only [shaBlocks]
    rw [List.take_append_of_le_length (by omega), List.drop_append_of_le_length (by omega)]
    exact ih _ _ (by rw [List.length_drop]; omega)

/-- An image without granules, laid out with its digests and signed by its chain's key, is whole (R106, R115). -/
theorem imageWhole_blank {hd sig chain tail : List Byte} (withTable : Bool) (hl : hd.length = 0x2680) (hm : beField hd 0 8 = indexMagic)
    (hv : beField hd 8 2 = 1) (hg : ∀ p ∈ List.range 64, beField (hd.drop (0x680 + 128 * p)) 0x48 4 = 0) (hs : sig.length = 96)
    (hk : chain.length ≤ 6144) (he : ecdsaOk (chainKey chain) (sha384 (hd ++ sha384 [])) sig = true) :
    imageWhole (hd ++ (sha384 [] ++ (sha384 (hd ++ sha384 []) ++ (sig ++ (beBytes chain.length 4 ++ (chain ++ tail)))))) withTable = true := by
  generalize hR : sha384 [] ++ (sha384 (hd ++ sha384 []) ++ (sig ++ (beBytes chain.length 4 ++ (chain ++ tail)))) = R
  have hn : (List.range 64).map (fun p => beField ((hd ++ R).drop (0x680 + 128 * p)) 0x48 4) = (List.range 64).map (fun _ => 0) := by
    apply List.map_congr_left
    intro p hp
    have := List.mem_range.1 hp
    rw [← hg p hp, List.drop_append_of_le_length (by omega), beField_append (by rw [List.length_drop]; omega)]
  have ht : imageTable (hd ++ R) = [] := by
    simp only [imageTable, hn]
    rfl
  have hc : beField (hd ++ R) 0x2740 4 = chain.length := by
    rw [← hR]
    simp only [beField]
    rw [show hd ++ (sha384 [] ++ (sha384 (hd ++ sha384 []) ++ (sig ++ (beBytes chain.length 4 ++ (chain ++ tail))))) =
        (hd ++ sha384 [] ++ sha384 (hd ++ sha384 []) ++ sig) ++ (beBytes chain.length 4 ++ (chain ++ tail)) by simp]
    rw [part_skip (by simp [hl, hs]) (by simp), beNat_beBytes _ _ (by omega)]
  have hd1 : ((hd ++ R).drop 0x26B0).take 48 = sha384 ((hd ++ R).take 0x26B0) := by
    rw [← hR]
    rw [show hd ++ (sha384 [] ++ (sha384 (hd ++ sha384 []) ++ (sig ++ (beBytes chain.length 4 ++ (chain ++ tail))))) =
        (hd ++ sha384 []) ++ (sha384 (hd ++ sha384 []) ++ (sig ++ (beBytes chain.length 4 ++ (chain ++ tail)))) by simp]
    rw [part_skip (by simp [hl]) (by simp), List.take_left' (by simp [hl])]
  have hd2 : ((hd ++ R).drop 0x2680).take 48 = sha384 [] := by
    rw [← hR, part_skip hl.symm (by simp)]
  have hd3 : (hd ++ R).take 0x26B0 = hd ++ sha384 [] := by
    rw [← hR, ← List.append_assoc, List.take_left' (by simp [hl])]
  have hd4 : ((hd ++ R).drop 0x26E0).take 96 = sig := by
    rw [← hR]
    rw [show hd ++ (sha384 [] ++ (sha384 (hd ++ sha384 []) ++ (sig ++ (beBytes chain.length 4 ++ (chain ++ tail))))) =
        (hd ++ sha384 [] ++ sha384 (hd ++ sha384 [])) ++ (sig ++ (beBytes chain.length 4 ++ (chain ++ tail))) by simp]
    rw [part_skip (by simp [hl]) hs.symm]
  have hd5 : ((hd ++ R).drop 0x2744).take chain.length = chain := by
    rw [← hR]
    rw [show hd ++ (sha384 [] ++ (sha384 (hd ++ sha384 []) ++ (sig ++ (beBytes chain.length 4 ++ (chain ++ tail))))) =
        (hd ++ sha384 [] ++ sha384 (hd ++ sha384 []) ++ sig ++ beBytes chain.length 4) ++ (chain ++ tail) by simp]
    rw [part_skip (by simp [hl, hs]) rfl]
  have hi : imageSigned (hd ++ R) = true := by simp only [imageSigned, hc, hd3, hd4, hd5, he]
  simp only [imageWhole, ht, hc, hd1, hd2, hi, beField_append (b := R) (show 0 + 8 ≤ hd.length by omega),
    beField_append (b := R) (show 8 + 2 ≤ hd.length by omega), hm, hv]
  simp [hk]

/-- Bytes read back where they were written. -/
theorem readBytes_writeBytes {d : Byte} {m : Sparse Byte} (h : swf (fun _ => d) m = true) (a : Nat) (bs : List Byte) (n : Nat)
    (hn : bs.length ≤ n) : ∃ r, readBytes d (writeBytes d m a bs) a n = bs ++ r := by
  have key : ∀ (k : Nat) (b : Nat) (m' : Sparse Byte), readBytes d m' b k = (List.range k).map (fun i => sget d m' (b + i)) := by
    intro k
    induction k with
    | zero => intros; rfl
    | succ k ih =>
      intro b m'
      simp only [readBytes, ih, List.range_succ_eq_map, List.map_cons, List.map_map, Nat.add_zero]
      congr 1
      apply List.map_congr_left
      intro i _
      simp only [Function.comp, Nat.succ_eq_add_one]
      congr 1
      omega
  refine ⟨(readBytes d (writeBytes d m a bs) a n).drop bs.length, ?_⟩
  rw [key]
  apply List.ext_getElem?
  intro i
  by_cases hi : i < bs.length
  · rw [List.getElem?_append_left hi]
    simp only [List.getElem?_map, List.getElem?_range (show i < n by omega), Option.map_some, sget_writeBytes h]
    simp [hi]
  · rw [List.getElem?_append_right (by omega), List.getElem?_drop]
    congr 1
    omega

end Sys2Proof.Laws
end

