-- ==== Sys2Proof/Laws/Link.lean ====
section
/-! SUPPORT. What a receiver of the Head Write Link takes from its lanes (R655, R656). -/

namespace Sys2Proof.Machine

/-- A receiver in the sender's state recovers the bits. -/
theorem descramble_scramble (st : BitVec 58) (bs : List Bool) : descramble st (scramble st bs) = bs := by
  induction bs generalizing st with
  | nil => rfl
  | cons b r ih =>
    simp only [scramble, descramble, ih, List.cons.injEq, and_true]
    cases b <;> cases st.getLsbD 38 <;> cases st.getLsbD 57 <;> rfl

@[simp] theorem length_payloadBits (w : BitVec 64) : (payloadBits w).length = 64 := by simp [payloadBits]

/-- Sending blocks changes nothing but the record of them. -/
theorem sendBlocks_out (lane : Nat) (head : BitVec 2) (ps : List (BitVec 64)) (s : State) :
    ∃ line, (sendBlocks lane head ps s).out = .blocks lane head ps line :: s.out ∧
      descramble (Config.scramblerState s.hwl.sent) line = ps.flatMap payloadBits :=
  ⟨_, rfl, descramble_scramble _ _⟩

@[simp] theorem sendBlocks_sent (lane : Nat) (head : BitVec 2) (ps : List (BitVec 64)) (s : State) :
    (sendBlocks lane head ps s).hwl.sent = s.hwl.sent + 1 := rfl

end Sys2Proof.Machine
end

