-- ==== Sys2Proof/Laws/State.lean ====
section
/-! SUPPORT. What each update of the state leaves in each of its fields. -/

namespace Sys2Proof.Machine

/-! ### emit -/

@[simp] theorem emit_variant (o : Out) (s : State) : (emit o s).variant = s.variant := rfl
@[simp] theorem emit_rf (o : Out) (s : State) : (emit o s).rf = s.rf := rfl
@[simp] theorem emit_clk (o : Out) (s : State) : (emit o s).clk = s.clk := rfl
@[simp] theorem emit_pins (o : Out) (s : State) : (emit o s).pins = s.pins := rfl
@[simp] theorem emit_host (o : Out) (s : State) : (emit o s).host = s.host := rfl
@[simp] theorem emit_dma (o : Out) (s : State) : (emit o s).dma = s.dma := rfl
@[simp] theorem emit_mem (o : Out) (s : State) : (emit o s).mem = s.mem := rfl
@[simp] theorem emit_net (o : Out) (s : State) : (emit o s).net = s.net := rfl
@[simp] theorem emit_ts (o : Out) (s : State) : (emit o s).ts = s.ts := rfl
@[simp] theorem emit_vlt (o : Out) (s : State) : (emit o s).vlt = s.vlt := rfl
@[simp] theorem emit_rcd (o : Out) (s : State) : (emit o s).rcd = s.rcd := rfl
@[simp] theorem emit_bas (o : Out) (s : State) : (emit o s).bas = s.bas := rfl
@[simp] theorem emit_cart (o : Out) (s : State) : (emit o s).cart = s.cart := rfl
@[simp] theorem emit_trk (o : Out) (s : State) : (emit o s).trk = s.trk := rfl
@[simp] theorem emit_tim (o : Out) (s : State) : (emit o s).tim = s.tim := rfl
@[simp] theorem emit_mot (o : Out) (s : State) : (emit o s).mot = s.mot := rfl
@[simp] theorem emit_trc (o : Out) (s : State) : (emit o s).trc = s.trc := rfl
@[simp] theorem emit_lat (o : Out) (s : State) : (emit o s).lat = s.lat := rfl
@[simp] theorem emit_itg (o : Out) (s : State) : (emit o s).itg = s.itg := rfl
@[simp] theorem emit_top (o : Out) (s : State) : (emit o s).top = s.top := rfl
@[simp] theorem emit_prb (o : Out) (s : State) : (emit o s).prb = s.prb := rfl
@[simp] theorem emit_hwl (o : Out) (s : State) : (emit o s).hwl = s.hwl := rfl
@[simp] theorem emit_out (o : Out) (s : State) : (emit o s).out = o :: s.out := rfl
@[simp] theorem emit_pending (o : Out) (s : State) : (emit o s).pending = s.pending := rfl

/-! ### freeNext -/

@[simp] theorem freeNext_variant (s : State) : (freeNext s).variant = s.variant := rfl
@[simp] theorem freeNext_rf (s : State) : (freeNext s).rf = s.rf := rfl
@[simp] theorem freeNext_clk (s : State) : (freeNext s).clk = { s.clk with free := s.clk.free + 1 } := rfl
@[simp] theorem freeNext_pins (s : State) : (freeNext s).pins = s.pins := rfl
@[simp] theorem freeNext_host (s : State) : (freeNext s).host = s.host := rfl
@[simp] theorem freeNext_dma (s : State) : (freeNext s).dma = s.dma := rfl
@[simp] theorem freeNext_mem (s : State) : (freeNext s).mem = s.mem := rfl
@[simp] theorem freeNext_net (s : State) : (freeNext s).net = s.net := rfl
@[simp] theorem freeNext_ts (s : State) : (freeNext s).ts = s.ts := rfl
@[simp] theorem freeNext_vlt (s : State) : (freeNext s).vlt = s.vlt := rfl
@[simp] theorem freeNext_rcd (s : State) : (freeNext s).rcd = s.rcd := rfl
@[simp] theorem freeNext_bas (s : State) : (freeNext s).bas = s.bas := rfl
@[simp] theorem freeNext_cart (s : State) : (freeNext s).cart = s.cart := rfl
@[simp] theorem freeNext_trk (s : State) : (freeNext s).trk = s.trk := rfl
@[simp] theorem freeNext_tim (s : State) : (freeNext s).tim = s.tim := rfl
@[simp] theorem freeNext_mot (s : State) : (freeNext s).mot = s.mot := rfl
@[simp] theorem freeNext_trc (s : State) : (freeNext s).trc = s.trc := rfl
@[simp] theorem freeNext_lat (s : State) : (freeNext s).lat = s.lat := rfl
@[simp] theorem freeNext_itg (s : State) : (freeNext s).itg = s.itg := rfl
@[simp] theorem freeNext_top (s : State) : (freeNext s).top = s.top := rfl
@[simp] theorem freeNext_prb (s : State) : (freeNext s).prb = s.prb := rfl
@[simp] theorem freeNext_hwl (s : State) : (freeNext s).hwl = s.hwl := rfl
@[simp] theorem freeNext_out (s : State) : (freeNext s).out = s.out := rfl
@[simp] theorem freeNext_pending (s : State) : (freeNext s).pending = s.pending := rfl

/-! ### rset -/

@[simp] theorem rset_variant (p o : Nat) (v : Word) (s : State) : (rset s p o v).variant = s.variant := rfl
@[simp] theorem rset_rf (p o : Nat) (v : Word) (s : State) : (rset s p o v).rf = { s.rf with regs := sset (regReset (rkey p o)) s.rf.regs (rkey p o) v } := rfl
@[simp] theorem rset_clk (p o : Nat) (v : Word) (s : State) : (rset s p o v).clk = s.clk := rfl
@[simp] theorem rset_pins (p o : Nat) (v : Word) (s : State) : (rset s p o v).pins = s.pins := rfl
@[simp] theorem rset_host (p o : Nat) (v : Word) (s : State) : (rset s p o v).host = s.host := rfl
@[simp] theorem rset_dma (p o : Nat) (v : Word) (s : State) : (rset s p o v).dma = s.dma := rfl
@[simp] theorem rset_mem (p o : Nat) (v : Word) (s : State) : (rset s p o v).mem = s.mem := rfl
@[simp] theorem rset_net (p o : Nat) (v : Word) (s : State) : (rset s p o v).net = s.net := rfl
@[simp] theorem rset_ts (p o : Nat) (v : Word) (s : State) : (rset s p o v).ts = s.ts := rfl
@[simp] theorem rset_vlt (p o : Nat) (v : Word) (s : State) : (rset s p o v).vlt = s.vlt := rfl
@[simp] theorem rset_rcd (p o : Nat) (v : Word) (s : State) : (rset s p o v).rcd = s.rcd := rfl
@[simp] theorem rset_bas (p o : Nat) (v : Word) (s : State) : (rset s p o v).bas = s.bas := rfl
@[simp] theorem rset_cart (p o : Nat) (v : Word) (s : State) : (rset s p o v).cart = s.cart := rfl
@[simp] theorem rset_trk (p o : Nat) (v : Word) (s : State) : (rset s p o v).trk = s.trk := rfl
@[simp] theorem rset_tim (p o : Nat) (v : Word) (s : State) : (rset s p o v).tim = s.tim := rfl
@[simp] theorem rset_mot (p o : Nat) (v : Word) (s : State) : (rset s p o v).mot = s.mot := rfl
@[simp] theorem rset_trc (p o : Nat) (v : Word) (s : State) : (rset s p o v).trc = s.trc := rfl
@[simp] theorem rset_lat (p o : Nat) (v : Word) (s : State) : (rset s p o v).lat = s.lat := rfl
@[simp] theorem rset_itg (p o : Nat) (v : Word) (s : State) : (rset s p o v).itg = s.itg := rfl
@[simp] theorem rset_top (p o : Nat) (v : Word) (s : State) : (rset s p o v).top = s.top := rfl
@[simp] theorem rset_prb (p o : Nat) (v : Word) (s : State) : (rset s p o v).prb = s.prb := rfl
@[simp] theorem rset_hwl (p o : Nat) (v : Word) (s : State) : (rset s p o v).hwl = s.hwl := rfl
@[simp] theorem rset_out (p o : Nat) (v : Word) (s : State) : (rset s p o v).out = s.out := rfl
@[simp] theorem rset_pending (p o : Nat) (v : Word) (s : State) : (rset s p o v).pending = s.pending := rfl

/-! ### bump -/

@[simp] theorem bump_variant (p o n : Nat) (s : State) : (bump p o n s).variant = s.variant := rfl
@[simp] theorem bump_rf (p o n : Nat) (s : State) : (bump p o n s).rf = { s.rf with cnt := smod 0 s.rf.cnt (rkey p o) (fun c => min (c + n) 0xFFFFFFFF) } := rfl
@[simp] theorem bump_clk (p o n : Nat) (s : State) : (bump p o n s).clk = s.clk := rfl
@[simp] theorem bump_pins (p o n : Nat) (s : State) : (bump p o n s).pins = s.pins := rfl
@[simp] theorem bump_host (p o n : Nat) (s : State) : (bump p o n s).host = s.host := rfl
@[simp] theorem bump_dma (p o n : Nat) (s : State) : (bump p o n s).dma = s.dma := rfl
@[simp] theorem bump_mem (p o n : Nat) (s : State) : (bump p o n s).mem = s.mem := rfl
@[simp] theorem bump_net (p o n : Nat) (s : State) : (bump p o n s).net = s.net := rfl
@[simp] theorem bump_ts (p o n : Nat) (s : State) : (bump p o n s).ts = s.ts := rfl
@[simp] theorem bump_vlt (p o n : Nat) (s : State) : (bump p o n s).vlt = s.vlt := rfl
@[simp] theorem bump_rcd (p o n : Nat) (s : State) : (bump p o n s).rcd = s.rcd := rfl
@[simp] theorem bump_bas (p o n : Nat) (s : State) : (bump p o n s).bas = s.bas := rfl
@[simp] theorem bump_cart (p o n : Nat) (s : State) : (bump p o n s).cart = s.cart := rfl
@[simp] theorem bump_trk (p o n : Nat) (s : State) : (bump p o n s).trk = s.trk := rfl
@[simp] theorem bump_tim (p o n : Nat) (s : State) : (bump p o n s).tim = s.tim := rfl
@[simp] theorem bump_mot (p o n : Nat) (s : State) : (bump p o n s).mot = s.mot := rfl
@[simp] theorem bump_trc (p o n : Nat) (s : State) : (bump p o n s).trc = s.trc := rfl
@[simp] theorem bump_lat (p o n : Nat) (s : State) : (bump p o n s).lat = s.lat := rfl
@[simp] theorem bump_itg (p o n : Nat) (s : State) : (bump p o n s).itg = s.itg := rfl
@[simp] theorem bump_top (p o n : Nat) (s : State) : (bump p o n s).top = s.top := rfl
@[simp] theorem bump_prb (p o n : Nat) (s : State) : (bump p o n s).prb = s.prb := rfl
@[simp] theorem bump_hwl (p o n : Nat) (s : State) : (bump p o n s).hwl = s.hwl := rfl
@[simp] theorem bump_out (p o n : Nat) (s : State) : (bump p o n s).out = s.out := rfl
@[simp] theorem bump_pending (p o n : Nat) (s : State) : (bump p o n s).pending = s.pending := rfl

/-! ### bump64 -/

@[simp] theorem bump64_variant (p o n : Nat) (s : State) : (bump64 p o n s).variant = s.variant := rfl
@[simp] theorem bump64_rf (p o n : Nat) (s : State) : (bump64 p o n s).rf = { s.rf with cnt := smod 0 s.rf.cnt (rkey p o) (fun c => min (c + n) 0xFFFFFFFFFFFFFFFF) } := rfl
@[simp] theorem bump64_clk (p o n : Nat) (s : State) : (bump64 p o n s).clk = s.clk := rfl
@[simp] theorem bump64_pins (p o n : Nat) (s : State) : (bump64 p o n s).pins = s.pins := rfl
@[simp] theorem bump64_host (p o n : Nat) (s : State) : (bump64 p o n s).host = s.host := rfl
@[simp] theorem bump64_dma (p o n : Nat) (s : State) : (bump64 p o n s).dma = s.dma := rfl
@[simp] theorem bump64_mem (p o n : Nat) (s : State) : (bump64 p o n s).mem = s.mem := rfl
@[simp] theorem bump64_net (p o n : Nat) (s : State) : (bump64 p o n s).net = s.net := rfl
@[simp] theorem bump64_ts (p o n : Nat) (s : State) : (bump64 p o n s).ts = s.ts := rfl
@[simp] theorem bump64_vlt (p o n : Nat) (s : State) : (bump64 p o n s).vlt = s.vlt := rfl
@[simp] theorem bump64_rcd (p o n : Nat) (s : State) : (bump64 p o n s).rcd = s.rcd := rfl
@[simp] theorem bump64_bas (p o n : Nat) (s : State) : (bump64 p o n s).bas = s.bas := rfl
@[simp] theorem bump64_cart (p o n : Nat) (s : State) : (bump64 p o n s).cart = s.cart := rfl
@[simp] theorem bump64_trk (p o n : Nat) (s : State) : (bump64 p o n s).trk = s.trk := rfl
@[simp] theorem bump64_tim (p o n : Nat) (s : State) : (bump64 p o n s).tim = s.tim := rfl
@[simp] theorem bump64_mot (p o n : Nat) (s : State) : (bump64 p o n s).mot = s.mot := rfl
@[simp] theorem bump64_trc (p o n : Nat) (s : State) : (bump64 p o n s).trc = s.trc := rfl
@[simp] theorem bump64_lat (p o n : Nat) (s : State) : (bump64 p o n s).lat = s.lat := rfl
@[simp] theorem bump64_itg (p o n : Nat) (s : State) : (bump64 p o n s).itg = s.itg := rfl
@[simp] theorem bump64_top (p o n : Nat) (s : State) : (bump64 p o n s).top = s.top := rfl
@[simp] theorem bump64_prb (p o n : Nat) (s : State) : (bump64 p o n s).prb = s.prb := rfl
@[simp] theorem bump64_hwl (p o n : Nat) (s : State) : (bump64 p o n s).hwl = s.hwl := rfl
@[simp] theorem bump64_out (p o n : Nat) (s : State) : (bump64 p o n s).out = s.out := rfl
@[simp] theorem bump64_pending (p o n : Nat) (s : State) : (bump64 p o n s).pending = s.pending := rfl

/-! ### setPair -/

@[simp] theorem setPair_variant (f : Fin 64) (q : Fin 16) (x : QPair) (s : State) : (setPair f q x s).variant = s.variant := rfl
@[simp] theorem setPair_rf (f : Fin 64) (q : Fin 16) (x : QPair) (s : State) : (setPair f q x s).rf = s.rf := rfl
@[simp] theorem setPair_clk (f : Fin 64) (q : Fin 16) (x : QPair) (s : State) : (setPair f q x s).clk = s.clk := rfl
@[simp] theorem setPair_pins (f : Fin 64) (q : Fin 16) (x : QPair) (s : State) : (setPair f q x s).pins = s.pins := rfl
@[simp] theorem setPair_host (f : Fin 64) (q : Fin 16) (x : QPair) (s : State) : (setPair f q x s).host = { s.host with pairs := sset {} s.host.pairs (pairKey f q) x } := rfl
@[simp] theorem setPair_dma (f : Fin 64) (q : Fin 16) (x : QPair) (s : State) : (setPair f q x s).dma = s.dma := rfl
@[simp] theorem setPair_mem (f : Fin 64) (q : Fin 16) (x : QPair) (s : State) : (setPair f q x s).mem = s.mem := rfl
@[simp] theorem setPair_net (f : Fin 64) (q : Fin 16) (x : QPair) (s : State) : (setPair f q x s).net = s.net := rfl
@[simp] theorem setPair_ts (f : Fin 64) (q : Fin 16) (x : QPair) (s : State) : (setPair f q x s).ts = s.ts := rfl
@[simp] theorem setPair_vlt (f : Fin 64) (q : Fin 16) (x : QPair) (s : State) : (setPair f q x s).vlt = s.vlt := rfl
@[simp] theorem setPair_rcd (f : Fin 64) (q : Fin 16) (x : QPair) (s : State) : (setPair f q x s).rcd = s.rcd := rfl
@[simp] theorem setPair_bas (f : Fin 64) (q : Fin 16) (x : QPair) (s : State) : (setPair f q x s).bas = s.bas := rfl
@[simp] theorem setPair_cart (f : Fin 64) (q : Fin 16) (x : QPair) (s : State) : (setPair f q x s).cart = s.cart := rfl
@[simp] theorem setPair_trk (f : Fin 64) (q : Fin 16) (x : QPair) (s : State) : (setPair f q x s).trk = s.trk := rfl
@[simp] theorem setPair_tim (f : Fin 64) (q : Fin 16) (x : QPair) (s : State) : (setPair f q x s).tim = s.tim := rfl
@[simp] theorem setPair_mot (f : Fin 64) (q : Fin 16) (x : QPair) (s : State) : (setPair f q x s).mot = s.mot := rfl
@[simp] theorem setPair_trc (f : Fin 64) (q : Fin 16) (x : QPair) (s : State) : (setPair f q x s).trc = s.trc := rfl
@[simp] theorem setPair_lat (f : Fin 64) (q : Fin 16) (x : QPair) (s : State) : (setPair f q x s).lat = s.lat := rfl
@[simp] theorem setPair_itg (f : Fin 64) (q : Fin 16) (x : QPair) (s : State) : (setPair f q x s).itg = s.itg := rfl
@[simp] theorem setPair_top (f : Fin 64) (q : Fin 16) (x : QPair) (s : State) : (setPair f q x s).top = s.top := rfl
@[simp] theorem setPair_prb (f : Fin 64) (q : Fin 16) (x : QPair) (s : State) : (setPair f q x s).prb = s.prb := rfl
@[simp] theorem setPair_hwl (f : Fin 64) (q : Fin 16) (x : QPair) (s : State) : (setPair f q x s).hwl = s.hwl := rfl
@[simp] theorem setPair_out (f : Fin 64) (q : Fin 16) (x : QPair) (s : State) : (setPair f q x s).out = s.out := rfl
@[simp] theorem setPair_pending (f : Fin 64) (q : Fin 16) (x : QPair) (s : State) : (setPair f q x s).pending = s.pending := rfl

/-! ### setPolder -/

@[simp] theorem setPolder_variant (p : Nat) (x : PolderSt) (s : State) : (setPolder p x s).variant = s.variant := rfl
@[simp] theorem setPolder_rf (p : Nat) (x : PolderSt) (s : State) : (setPolder p x s).rf = s.rf := rfl
@[simp] theorem setPolder_clk (p : Nat) (x : PolderSt) (s : State) : (setPolder p x s).clk = s.clk := rfl
@[simp] theorem setPolder_pins (p : Nat) (x : PolderSt) (s : State) : (setPolder p x s).pins = s.pins := rfl
@[simp] theorem setPolder_host (p : Nat) (x : PolderSt) (s : State) : (setPolder p x s).host = { s.host with pol := sset {} s.host.pol p x } := rfl
@[simp] theorem setPolder_dma (p : Nat) (x : PolderSt) (s : State) : (setPolder p x s).dma = s.dma := rfl
@[simp] theorem setPolder_mem (p : Nat) (x : PolderSt) (s : State) : (setPolder p x s).mem = s.mem := rfl
@[simp] theorem setPolder_net (p : Nat) (x : PolderSt) (s : State) : (setPolder p x s).net = s.net := rfl
@[simp] theorem setPolder_ts (p : Nat) (x : PolderSt) (s : State) : (setPolder p x s).ts = s.ts := rfl
@[simp] theorem setPolder_vlt (p : Nat) (x : PolderSt) (s : State) : (setPolder p x s).vlt = s.vlt := rfl
@[simp] theorem setPolder_rcd (p : Nat) (x : PolderSt) (s : State) : (setPolder p x s).rcd = s.rcd := rfl
@[simp] theorem setPolder_bas (p : Nat) (x : PolderSt) (s : State) : (setPolder p x s).bas = s.bas := rfl
@[simp] theorem setPolder_cart (p : Nat) (x : PolderSt) (s : State) : (setPolder p x s).cart = s.cart := rfl
@[simp] theorem setPolder_trk (p : Nat) (x : PolderSt) (s : State) : (setPolder p x s).trk = s.trk := rfl
@[simp] theorem setPolder_tim (p : Nat) (x : PolderSt) (s : State) : (setPolder p x s).tim = s.tim := rfl
@[simp] theorem setPolder_mot (p : Nat) (x : PolderSt) (s : State) : (setPolder p x s).mot = s.mot := rfl
@[simp] theorem setPolder_trc (p : Nat) (x : PolderSt) (s : State) : (setPolder p x s).trc = s.trc := rfl
@[simp] theorem setPolder_lat (p : Nat) (x : PolderSt) (s : State) : (setPolder p x s).lat = s.lat := rfl
@[simp] theorem setPolder_itg (p : Nat) (x : PolderSt) (s : State) : (setPolder p x s).itg = s.itg := rfl
@[simp] theorem setPolder_top (p : Nat) (x : PolderSt) (s : State) : (setPolder p x s).top = s.top := rfl
@[simp] theorem setPolder_prb (p : Nat) (x : PolderSt) (s : State) : (setPolder p x s).prb = s.prb := rfl
@[simp] theorem setPolder_hwl (p : Nat) (x : PolderSt) (s : State) : (setPolder p x s).hwl = s.hwl := rfl
@[simp] theorem setPolder_out (p : Nat) (x : PolderSt) (s : State) : (setPolder p x s).out = s.out := rfl
@[simp] theorem setPolder_pending (p : Nat) (x : PolderSt) (s : State) : (setPolder p x s).pending = s.pending := rfl

/-! ### modCmd -/

@[simp] theorem modCmd_variant (h : Nat) (f : Cmd → Cmd) (s : State) : (modCmd h f s).variant = s.variant := rfl
@[simp] theorem modCmd_rf (h : Nat) (f : Cmd → Cmd) (s : State) : (modCmd h f s).rf = s.rf := rfl
@[simp] theorem modCmd_clk (h : Nat) (f : Cmd → Cmd) (s : State) : (modCmd h f s).clk = s.clk := rfl
@[simp] theorem modCmd_pins (h : Nat) (f : Cmd → Cmd) (s : State) : (modCmd h f s).pins = s.pins := rfl
@[simp] theorem modCmd_host (h : Nat) (f : Cmd → Cmd) (s : State) : (modCmd h f s).host = { s.host with cmds := s.host.cmds.map (fun c => if c.handle = h then f c else c) } := rfl
@[simp] theorem modCmd_dma (h : Nat) (f : Cmd → Cmd) (s : State) : (modCmd h f s).dma = s.dma := rfl
@[simp] theorem modCmd_mem (h : Nat) (f : Cmd → Cmd) (s : State) : (modCmd h f s).mem = s.mem := rfl
@[simp] theorem modCmd_net (h : Nat) (f : Cmd → Cmd) (s : State) : (modCmd h f s).net = s.net := rfl
@[simp] theorem modCmd_ts (h : Nat) (f : Cmd → Cmd) (s : State) : (modCmd h f s).ts = s.ts := rfl
@[simp] theorem modCmd_vlt (h : Nat) (f : Cmd → Cmd) (s : State) : (modCmd h f s).vlt = s.vlt := rfl
@[simp] theorem modCmd_rcd (h : Nat) (f : Cmd → Cmd) (s : State) : (modCmd h f s).rcd = s.rcd := rfl
@[simp] theorem modCmd_bas (h : Nat) (f : Cmd → Cmd) (s : State) : (modCmd h f s).bas = s.bas := rfl
@[simp] theorem modCmd_cart (h : Nat) (f : Cmd → Cmd) (s : State) : (modCmd h f s).cart = s.cart := rfl
@[simp] theorem modCmd_trk (h : Nat) (f : Cmd → Cmd) (s : State) : (modCmd h f s).trk = s.trk := rfl
@[simp] theorem modCmd_tim (h : Nat) (f : Cmd → Cmd) (s : State) : (modCmd h f s).tim = s.tim := rfl
@[simp] theorem modCmd_mot (h : Nat) (f : Cmd → Cmd) (s : State) : (modCmd h f s).mot = s.mot := rfl
@[simp] theorem modCmd_trc (h : Nat) (f : Cmd → Cmd) (s : State) : (modCmd h f s).trc = s.trc := rfl
@[simp] theorem modCmd_lat (h : Nat) (f : Cmd → Cmd) (s : State) : (modCmd h f s).lat = s.lat := rfl
@[simp] theorem modCmd_itg (h : Nat) (f : Cmd → Cmd) (s : State) : (modCmd h f s).itg = s.itg := rfl
@[simp] theorem modCmd_top (h : Nat) (f : Cmd → Cmd) (s : State) : (modCmd h f s).top = s.top := rfl
@[simp] theorem modCmd_prb (h : Nat) (f : Cmd → Cmd) (s : State) : (modCmd h f s).prb = s.prb := rfl
@[simp] theorem modCmd_hwl (h : Nat) (f : Cmd → Cmd) (s : State) : (modCmd h f s).hwl = s.hwl := rfl
@[simp] theorem modCmd_out (h : Nat) (f : Cmd → Cmd) (s : State) : (modCmd h f s).out = s.out := rfl
@[simp] theorem modCmd_pending (h : Nat) (f : Cmd → Cmd) (s : State) : (modCmd h f s).pending = s.pending := rfl

/-! ### dropCmd -/

@[simp] theorem dropCmd_variant (h : Nat) (s : State) : (dropCmd h s).variant = s.variant := rfl
@[simp] theorem dropCmd_rf (h : Nat) (s : State) : (dropCmd h s).rf = s.rf := rfl
@[simp] theorem dropCmd_clk (h : Nat) (s : State) : (dropCmd h s).clk = s.clk := rfl
@[simp] theorem dropCmd_pins (h : Nat) (s : State) : (dropCmd h s).pins = s.pins := rfl
@[simp] theorem dropCmd_host (h : Nat) (s : State) : (dropCmd h s).host = { s.host with cmds := s.host.cmds.filter (·.handle ≠ h) } := rfl
@[simp] theorem dropCmd_dma (h : Nat) (s : State) : (dropCmd h s).dma = s.dma := rfl
@[simp] theorem dropCmd_mem (h : Nat) (s : State) : (dropCmd h s).mem = s.mem := rfl
@[simp] theorem dropCmd_net (h : Nat) (s : State) : (dropCmd h s).net = s.net := rfl
@[simp] theorem dropCmd_ts (h : Nat) (s : State) : (dropCmd h s).ts = s.ts := rfl
@[simp] theorem dropCmd_vlt (h : Nat) (s : State) : (dropCmd h s).vlt = s.vlt := rfl
@[simp] theorem dropCmd_rcd (h : Nat) (s : State) : (dropCmd h s).rcd = s.rcd := rfl
@[simp] theorem dropCmd_bas (h : Nat) (s : State) : (dropCmd h s).bas = s.bas := rfl
@[simp] theorem dropCmd_cart (h : Nat) (s : State) : (dropCmd h s).cart = s.cart := rfl
@[simp] theorem dropCmd_trk (h : Nat) (s : State) : (dropCmd h s).trk = s.trk := rfl
@[simp] theorem dropCmd_tim (h : Nat) (s : State) : (dropCmd h s).tim = s.tim := rfl
@[simp] theorem dropCmd_mot (h : Nat) (s : State) : (dropCmd h s).mot = s.mot := rfl
@[simp] theorem dropCmd_trc (h : Nat) (s : State) : (dropCmd h s).trc = s.trc := rfl
@[simp] theorem dropCmd_lat (h : Nat) (s : State) : (dropCmd h s).lat = s.lat := rfl
@[simp] theorem dropCmd_itg (h : Nat) (s : State) : (dropCmd h s).itg = s.itg := rfl
@[simp] theorem dropCmd_top (h : Nat) (s : State) : (dropCmd h s).top = s.top := rfl
@[simp] theorem dropCmd_prb (h : Nat) (s : State) : (dropCmd h s).prb = s.prb := rfl
@[simp] theorem dropCmd_hwl (h : Nat) (s : State) : (dropCmd h s).hwl = s.hwl := rfl
@[simp] theorem dropCmd_out (h : Nat) (s : State) : (dropCmd h s).out = s.out := rfl
@[simp] theorem dropCmd_pending (h : Nat) (s : State) : (dropCmd h s).pending = s.pending := rfl

/-! ### setQp -/

@[simp] theorem setQp_variant (q : Fin 1024) (x : Qp) (s : State) : (setQp q x s).variant = s.variant := rfl
@[simp] theorem setQp_rf (q : Fin 1024) (x : Qp) (s : State) : (setQp q x s).rf = s.rf := rfl
@[simp] theorem setQp_clk (q : Fin 1024) (x : Qp) (s : State) : (setQp q x s).clk = s.clk := rfl
@[simp] theorem setQp_pins (q : Fin 1024) (x : Qp) (s : State) : (setQp q x s).pins = s.pins := rfl
@[simp] theorem setQp_host (q : Fin 1024) (x : Qp) (s : State) : (setQp q x s).host = s.host := rfl
@[simp] theorem setQp_dma (q : Fin 1024) (x : Qp) (s : State) : (setQp q x s).dma = s.dma := rfl
@[simp] theorem setQp_mem (q : Fin 1024) (x : Qp) (s : State) : (setQp q x s).mem = s.mem := rfl
@[simp] theorem setQp_net (q : Fin 1024) (x : Qp) (s : State) : (setQp q x s).net = { s.net with qps := sset {} s.net.qps q.val x } := rfl
@[simp] theorem setQp_ts (q : Fin 1024) (x : Qp) (s : State) : (setQp q x s).ts = s.ts := rfl
@[simp] theorem setQp_vlt (q : Fin 1024) (x : Qp) (s : State) : (setQp q x s).vlt = s.vlt := rfl
@[simp] theorem setQp_rcd (q : Fin 1024) (x : Qp) (s : State) : (setQp q x s).rcd = s.rcd := rfl
@[simp] theorem setQp_bas (q : Fin 1024) (x : Qp) (s : State) : (setQp q x s).bas = s.bas := rfl
@[simp] theorem setQp_cart (q : Fin 1024) (x : Qp) (s : State) : (setQp q x s).cart = s.cart := rfl
@[simp] theorem setQp_trk (q : Fin 1024) (x : Qp) (s : State) : (setQp q x s).trk = s.trk := rfl
@[simp] theorem setQp_tim (q : Fin 1024) (x : Qp) (s : State) : (setQp q x s).tim = s.tim := rfl
@[simp] theorem setQp_mot (q : Fin 1024) (x : Qp) (s : State) : (setQp q x s).mot = s.mot := rfl
@[simp] theorem setQp_trc (q : Fin 1024) (x : Qp) (s : State) : (setQp q x s).trc = s.trc := rfl
@[simp] theorem setQp_lat (q : Fin 1024) (x : Qp) (s : State) : (setQp q x s).lat = s.lat := rfl
@[simp] theorem setQp_itg (q : Fin 1024) (x : Qp) (s : State) : (setQp q x s).itg = s.itg := rfl
@[simp] theorem setQp_top (q : Fin 1024) (x : Qp) (s : State) : (setQp q x s).top = s.top := rfl
@[simp] theorem setQp_prb (q : Fin 1024) (x : Qp) (s : State) : (setQp q x s).prb = s.prb := rfl
@[simp] theorem setQp_hwl (q : Fin 1024) (x : Qp) (s : State) : (setQp q x s).hwl = s.hwl := rfl
@[simp] theorem setQp_out (q : Fin 1024) (x : Qp) (s : State) : (setQp q x s).out = s.out := rfl
@[simp] theorem setQp_pending (q : Fin 1024) (x : Qp) (s : State) : (setQp q x s).pending = s.pending := rfl

/-! ### setPort -/

@[simp] theorem setPort_variant (p : Fin 2) (x : PortSt) (s : State) : (setPort p x s).variant = s.variant := rfl
@[simp] theorem setPort_rf (p : Fin 2) (x : PortSt) (s : State) : (setPort p x s).rf = s.rf := rfl
@[simp] theorem setPort_clk (p : Fin 2) (x : PortSt) (s : State) : (setPort p x s).clk = s.clk := rfl
@[simp] theorem setPort_pins (p : Fin 2) (x : PortSt) (s : State) : (setPort p x s).pins = s.pins := rfl
@[simp] theorem setPort_host (p : Fin 2) (x : PortSt) (s : State) : (setPort p x s).host = s.host := rfl
@[simp] theorem setPort_dma (p : Fin 2) (x : PortSt) (s : State) : (setPort p x s).dma = s.dma := rfl
@[simp] theorem setPort_mem (p : Fin 2) (x : PortSt) (s : State) : (setPort p x s).mem = s.mem := rfl
@[simp] theorem setPort_net (p : Fin 2) (x : PortSt) (s : State) : (setPort p x s).net = { s.net with ports := sset {} s.net.ports p.val x } := rfl
@[simp] theorem setPort_ts (p : Fin 2) (x : PortSt) (s : State) : (setPort p x s).ts = s.ts := rfl
@[simp] theorem setPort_vlt (p : Fin 2) (x : PortSt) (s : State) : (setPort p x s).vlt = s.vlt := rfl
@[simp] theorem setPort_rcd (p : Fin 2) (x : PortSt) (s : State) : (setPort p x s).rcd = s.rcd := rfl
@[simp] theorem setPort_bas (p : Fin 2) (x : PortSt) (s : State) : (setPort p x s).bas = s.bas := rfl
@[simp] theorem setPort_cart (p : Fin 2) (x : PortSt) (s : State) : (setPort p x s).cart = s.cart := rfl
@[simp] theorem setPort_trk (p : Fin 2) (x : PortSt) (s : State) : (setPort p x s).trk = s.trk := rfl
@[simp] theorem setPort_tim (p : Fin 2) (x : PortSt) (s : State) : (setPort p x s).tim = s.tim := rfl
@[simp] theorem setPort_mot (p : Fin 2) (x : PortSt) (s : State) : (setPort p x s).mot = s.mot := rfl
@[simp] theorem setPort_trc (p : Fin 2) (x : PortSt) (s : State) : (setPort p x s).trc = s.trc := rfl
@[simp] theorem setPort_lat (p : Fin 2) (x : PortSt) (s : State) : (setPort p x s).lat = s.lat := rfl
@[simp] theorem setPort_itg (p : Fin 2) (x : PortSt) (s : State) : (setPort p x s).itg = s.itg := rfl
@[simp] theorem setPort_top (p : Fin 2) (x : PortSt) (s : State) : (setPort p x s).top = s.top := rfl
@[simp] theorem setPort_prb (p : Fin 2) (x : PortSt) (s : State) : (setPort p x s).prb = s.prb := rfl
@[simp] theorem setPort_hwl (p : Fin 2) (x : PortSt) (s : State) : (setPort p x s).hwl = s.hwl := rfl
@[simp] theorem setPort_out (p : Fin 2) (x : PortSt) (s : State) : (setPort p x s).out = s.out := rfl
@[simp] theorem setPort_pending (p : Fin 2) (x : PortSt) (s : State) : (setPort p x s).pending = s.pending := rfl

/-! ### setRiq -/

@[simp] theorem setRiq_variant (p : Nat) (r : Riq) (s : State) : (setRiq p r s).variant = s.variant := rfl
@[simp] theorem setRiq_rf (p : Nat) (r : Riq) (s : State) : (setRiq p r s).rf = s.rf := rfl
@[simp] theorem setRiq_clk (p : Nat) (r : Riq) (s : State) : (setRiq p r s).clk = s.clk := rfl
@[simp] theorem setRiq_pins (p : Nat) (r : Riq) (s : State) : (setRiq p r s).pins = s.pins := rfl
@[simp] theorem setRiq_host (p : Nat) (r : Riq) (s : State) : (setRiq p r s).host = s.host := rfl
@[simp] theorem setRiq_dma (p : Nat) (r : Riq) (s : State) : (setRiq p r s).dma = s.dma := rfl
@[simp] theorem setRiq_mem (p : Nat) (r : Riq) (s : State) : (setRiq p r s).mem = s.mem := rfl
@[simp] theorem setRiq_net (p : Nat) (r : Riq) (s : State) : (setRiq p r s).net = s.net := rfl
@[simp] theorem setRiq_ts (p : Nat) (r : Riq) (s : State) : (setRiq p r s).ts = s.ts := rfl
@[simp] theorem setRiq_vlt (p : Nat) (r : Riq) (s : State) : (setRiq p r s).vlt = s.vlt := rfl
@[simp] theorem setRiq_rcd (p : Nat) (r : Riq) (s : State) : (setRiq p r s).rcd = { s.rcd with riq := sset {} s.rcd.riq p r } := rfl
@[simp] theorem setRiq_bas (p : Nat) (r : Riq) (s : State) : (setRiq p r s).bas = s.bas := rfl
@[simp] theorem setRiq_cart (p : Nat) (r : Riq) (s : State) : (setRiq p r s).cart = s.cart := rfl
@[simp] theorem setRiq_trk (p : Nat) (r : Riq) (s : State) : (setRiq p r s).trk = s.trk := rfl
@[simp] theorem setRiq_tim (p : Nat) (r : Riq) (s : State) : (setRiq p r s).tim = s.tim := rfl
@[simp] theorem setRiq_mot (p : Nat) (r : Riq) (s : State) : (setRiq p r s).mot = s.mot := rfl
@[simp] theorem setRiq_trc (p : Nat) (r : Riq) (s : State) : (setRiq p r s).trc = s.trc := rfl
@[simp] theorem setRiq_lat (p : Nat) (r : Riq) (s : State) : (setRiq p r s).lat = s.lat := rfl
@[simp] theorem setRiq_itg (p : Nat) (r : Riq) (s : State) : (setRiq p r s).itg = s.itg := rfl
@[simp] theorem setRiq_top (p : Nat) (r : Riq) (s : State) : (setRiq p r s).top = s.top := rfl
@[simp] theorem setRiq_prb (p : Nat) (r : Riq) (s : State) : (setRiq p r s).prb = s.prb := rfl
@[simp] theorem setRiq_hwl (p : Nat) (r : Riq) (s : State) : (setRiq p r s).hwl = s.hwl := rfl
@[simp] theorem setRiq_out (p : Nat) (r : Riq) (s : State) : (setRiq p r s).out = s.out := rfl
@[simp] theorem setRiq_pending (p : Nat) (r : Riq) (s : State) : (setRiq p r s).pending = s.pending := rfl

/-! ### setBuf -/

@[simp] theorem setBuf_variant (k i : Nat) (b : Buf) (s : State) : (setBuf k i b s).variant = s.variant := rfl
@[simp] theorem setBuf_rf (k i : Nat) (b : Buf) (s : State) : (setBuf k i b s).rf = s.rf := rfl
@[simp] theorem setBuf_clk (k i : Nat) (b : Buf) (s : State) : (setBuf k i b s).clk = s.clk := rfl
@[simp] theorem setBuf_pins (k i : Nat) (b : Buf) (s : State) : (setBuf k i b s).pins = s.pins := rfl
@[simp] theorem setBuf_host (k i : Nat) (b : Buf) (s : State) : (setBuf k i b s).host = s.host := rfl
@[simp] theorem setBuf_dma (k i : Nat) (b : Buf) (s : State) : (setBuf k i b s).dma = s.dma := rfl
@[simp] theorem setBuf_mem (k i : Nat) (b : Buf) (s : State) : (setBuf k i b s).mem = s.mem := rfl
@[simp] theorem setBuf_net (k i : Nat) (b : Buf) (s : State) : (setBuf k i b s).net = s.net := rfl
@[simp] theorem setBuf_ts (k i : Nat) (b : Buf) (s : State) : (setBuf k i b s).ts = s.ts := rfl
@[simp] theorem setBuf_vlt (k i : Nat) (b : Buf) (s : State) : (setBuf k i b s).vlt = s.vlt := rfl
@[simp] theorem setBuf_rcd (k i : Nat) (b : Buf) (s : State) : (setBuf k i b s).rcd = { s.rcd with bufs := sset {} s.rcd.bufs (bufKey k i) b } := rfl
@[simp] theorem setBuf_bas (k i : Nat) (b : Buf) (s : State) : (setBuf k i b s).bas = s.bas := rfl
@[simp] theorem setBuf_cart (k i : Nat) (b : Buf) (s : State) : (setBuf k i b s).cart = s.cart := rfl
@[simp] theorem setBuf_trk (k i : Nat) (b : Buf) (s : State) : (setBuf k i b s).trk = s.trk := rfl
@[simp] theorem setBuf_tim (k i : Nat) (b : Buf) (s : State) : (setBuf k i b s).tim = s.tim := rfl
@[simp] theorem setBuf_mot (k i : Nat) (b : Buf) (s : State) : (setBuf k i b s).mot = s.mot := rfl
@[simp] theorem setBuf_trc (k i : Nat) (b : Buf) (s : State) : (setBuf k i b s).trc = s.trc := rfl
@[simp] theorem setBuf_lat (k i : Nat) (b : Buf) (s : State) : (setBuf k i b s).lat = s.lat := rfl
@[simp] theorem setBuf_itg (k i : Nat) (b : Buf) (s : State) : (setBuf k i b s).itg = s.itg := rfl
@[simp] theorem setBuf_top (k i : Nat) (b : Buf) (s : State) : (setBuf k i b s).top = s.top := rfl
@[simp] theorem setBuf_prb (k i : Nat) (b : Buf) (s : State) : (setBuf k i b s).prb = s.prb := rfl
@[simp] theorem setBuf_hwl (k i : Nat) (b : Buf) (s : State) : (setBuf k i b s).hwl = s.hwl := rfl
@[simp] theorem setBuf_out (k i : Nat) (b : Buf) (s : State) : (setBuf k i b s).out = s.out := rfl
@[simp] theorem setBuf_pending (k i : Nat) (b : Buf) (s : State) : (setBuf k i b s).pending = s.pending := rfl

/-! ### setJob -/

@[simp] theorem setJob_variant (j : ReadJob) (s : State) : (setJob j s).variant = s.variant := rfl
@[simp] theorem setJob_rf (j : ReadJob) (s : State) : (setJob j s).rf = s.rf := rfl
@[simp] theorem setJob_clk (j : ReadJob) (s : State) : (setJob j s).clk = s.clk := rfl
@[simp] theorem setJob_pins (j : ReadJob) (s : State) : (setJob j s).pins = s.pins := rfl
@[simp] theorem setJob_host (j : ReadJob) (s : State) : (setJob j s).host = s.host := rfl
@[simp] theorem setJob_dma (j : ReadJob) (s : State) : (setJob j s).dma = s.dma := rfl
@[simp] theorem setJob_mem (j : ReadJob) (s : State) : (setJob j s).mem = s.mem := rfl
@[simp] theorem setJob_net (j : ReadJob) (s : State) : (setJob j s).net = s.net := rfl
@[simp] theorem setJob_ts (j : ReadJob) (s : State) : (setJob j s).ts = s.ts := rfl
@[simp] theorem setJob_vlt (j : ReadJob) (s : State) : (setJob j s).vlt = s.vlt := rfl
@[simp] theorem setJob_rcd (j : ReadJob) (s : State) : (setJob j s).rcd = { s.rcd with reads := s.rcd.reads.map (fun x => if x.h = j.h then j else x) } := rfl
@[simp] theorem setJob_bas (j : ReadJob) (s : State) : (setJob j s).bas = s.bas := rfl
@[simp] theorem setJob_cart (j : ReadJob) (s : State) : (setJob j s).cart = s.cart := rfl
@[simp] theorem setJob_trk (j : ReadJob) (s : State) : (setJob j s).trk = s.trk := rfl
@[simp] theorem setJob_tim (j : ReadJob) (s : State) : (setJob j s).tim = s.tim := rfl
@[simp] theorem setJob_mot (j : ReadJob) (s : State) : (setJob j s).mot = s.mot := rfl
@[simp] theorem setJob_trc (j : ReadJob) (s : State) : (setJob j s).trc = s.trc := rfl
@[simp] theorem setJob_lat (j : ReadJob) (s : State) : (setJob j s).lat = s.lat := rfl
@[simp] theorem setJob_itg (j : ReadJob) (s : State) : (setJob j s).itg = s.itg := rfl
@[simp] theorem setJob_top (j : ReadJob) (s : State) : (setJob j s).top = s.top := rfl
@[simp] theorem setJob_prb (j : ReadJob) (s : State) : (setJob j s).prb = s.prb := rfl
@[simp] theorem setJob_hwl (j : ReadJob) (s : State) : (setJob j s).hwl = s.hwl := rfl
@[simp] theorem setJob_out (j : ReadJob) (s : State) : (setJob j s).out = s.out := rfl
@[simp] theorem setJob_pending (j : ReadJob) (s : State) : (setJob j s).pending = s.pending := rfl

/-! ### dropJob -/

@[simp] theorem dropJob_variant (h : Nat) (s : State) : (dropJob h s).variant = s.variant := rfl
@[simp] theorem dropJob_rf (h : Nat) (s : State) : (dropJob h s).rf = s.rf := rfl
@[simp] theorem dropJob_clk (h : Nat) (s : State) : (dropJob h s).clk = s.clk := rfl
@[simp] theorem dropJob_pins (h : Nat) (s : State) : (dropJob h s).pins = s.pins := rfl
@[simp] theorem dropJob_host (h : Nat) (s : State) : (dropJob h s).host = s.host := rfl
@[simp] theorem dropJob_dma (h : Nat) (s : State) : (dropJob h s).dma = s.dma := rfl
@[simp] theorem dropJob_mem (h : Nat) (s : State) : (dropJob h s).mem = s.mem := rfl
@[simp] theorem dropJob_net (h : Nat) (s : State) : (dropJob h s).net = s.net := rfl
@[simp] theorem dropJob_ts (h : Nat) (s : State) : (dropJob h s).ts = s.ts := rfl
@[simp] theorem dropJob_vlt (h : Nat) (s : State) : (dropJob h s).vlt = s.vlt := rfl
@[simp] theorem dropJob_rcd (h : Nat) (s : State) : (dropJob h s).rcd = { s.rcd with reads := s.rcd.reads.filter (·.h ≠ h) } := rfl
@[simp] theorem dropJob_bas (h : Nat) (s : State) : (dropJob h s).bas = s.bas := rfl
@[simp] theorem dropJob_cart (h : Nat) (s : State) : (dropJob h s).cart = s.cart := rfl
@[simp] theorem dropJob_trk (h : Nat) (s : State) : (dropJob h s).trk = s.trk := rfl
@[simp] theorem dropJob_tim (h : Nat) (s : State) : (dropJob h s).tim = s.tim := rfl
@[simp] theorem dropJob_mot (h : Nat) (s : State) : (dropJob h s).mot = s.mot := rfl
@[simp] theorem dropJob_trc (h : Nat) (s : State) : (dropJob h s).trc = s.trc := rfl
@[simp] theorem dropJob_lat (h : Nat) (s : State) : (dropJob h s).lat = s.lat := rfl
@[simp] theorem dropJob_itg (h : Nat) (s : State) : (dropJob h s).itg = s.itg := rfl
@[simp] theorem dropJob_top (h : Nat) (s : State) : (dropJob h s).top = s.top := rfl
@[simp] theorem dropJob_prb (h : Nat) (s : State) : (dropJob h s).prb = s.prb := rfl
@[simp] theorem dropJob_hwl (h : Nat) (s : State) : (dropJob h s).hwl = s.hwl := rfl
@[simp] theorem dropJob_out (h : Nat) (s : State) : (dropJob h s).out = s.out := rfl
@[simp] theorem dropJob_pending (h : Nat) (s : State) : (dropJob h s).pending = s.pending := rfl

/-! ### setSlot -/

@[simp] theorem setSlot_variant (i : Nat) (x : Slot) (s : State) : (setSlot i x s).variant = s.variant := rfl
@[simp] theorem setSlot_rf (i : Nat) (x : Slot) (s : State) : (setSlot i x s).rf = s.rf := rfl
@[simp] theorem setSlot_clk (i : Nat) (x : Slot) (s : State) : (setSlot i x s).clk = s.clk := rfl
@[simp] theorem setSlot_pins (i : Nat) (x : Slot) (s : State) : (setSlot i x s).pins = s.pins := rfl
@[simp] theorem setSlot_host (i : Nat) (x : Slot) (s : State) : (setSlot i x s).host = s.host := rfl
@[simp] theorem setSlot_dma (i : Nat) (x : Slot) (s : State) : (setSlot i x s).dma = s.dma := rfl
@[simp] theorem setSlot_mem (i : Nat) (x : Slot) (s : State) : (setSlot i x s).mem = s.mem := rfl
@[simp] theorem setSlot_net (i : Nat) (x : Slot) (s : State) : (setSlot i x s).net = s.net := rfl
@[simp] theorem setSlot_ts (i : Nat) (x : Slot) (s : State) : (setSlot i x s).ts = s.ts := rfl
@[simp] theorem setSlot_vlt (i : Nat) (x : Slot) (s : State) : (setSlot i x s).vlt = s.vlt := rfl
@[simp] theorem setSlot_rcd (i : Nat) (x : Slot) (s : State) : (setSlot i x s).rcd = s.rcd := rfl
@[simp] theorem setSlot_bas (i : Nat) (x : Slot) (s : State) : (setSlot i x s).bas = { s.bas with slots := sset {} s.bas.slots i x } := rfl
@[simp] theorem setSlot_cart (i : Nat) (x : Slot) (s : State) : (setSlot i x s).cart = s.cart := rfl
@[simp] theorem setSlot_trk (i : Nat) (x : Slot) (s : State) : (setSlot i x s).trk = s.trk := rfl
@[simp] theorem setSlot_tim (i : Nat) (x : Slot) (s : State) : (setSlot i x s).tim = s.tim := rfl
@[simp] theorem setSlot_mot (i : Nat) (x : Slot) (s : State) : (setSlot i x s).mot = s.mot := rfl
@[simp] theorem setSlot_trc (i : Nat) (x : Slot) (s : State) : (setSlot i x s).trc = s.trc := rfl
@[simp] theorem setSlot_lat (i : Nat) (x : Slot) (s : State) : (setSlot i x s).lat = s.lat := rfl
@[simp] theorem setSlot_itg (i : Nat) (x : Slot) (s : State) : (setSlot i x s).itg = s.itg := rfl
@[simp] theorem setSlot_top (i : Nat) (x : Slot) (s : State) : (setSlot i x s).top = s.top := rfl
@[simp] theorem setSlot_prb (i : Nat) (x : Slot) (s : State) : (setSlot i x s).prb = s.prb := rfl
@[simp] theorem setSlot_hwl (i : Nat) (x : Slot) (s : State) : (setSlot i x s).hwl = s.hwl := rfl
@[simp] theorem setSlot_out (i : Nat) (x : Slot) (s : State) : (setSlot i x s).out = s.out := rfl
@[simp] theorem setSlot_pending (i : Nat) (x : Slot) (s : State) : (setSlot i x s).pending = s.pending := rfl

/-! ### setDma -/

@[simp] theorem setDma_variant (n : Nat) (c : DmaChan) (s : State) : (setDma n c s).variant = s.variant := rfl
@[simp] theorem setDma_rf (n : Nat) (c : DmaChan) (s : State) : (setDma n c s).rf = s.rf := rfl
@[simp] theorem setDma_clk (n : Nat) (c : DmaChan) (s : State) : (setDma n c s).clk = s.clk := rfl
@[simp] theorem setDma_pins (n : Nat) (c : DmaChan) (s : State) : (setDma n c s).pins = s.pins := rfl
@[simp] theorem setDma_host (n : Nat) (c : DmaChan) (s : State) : (setDma n c s).host = s.host := rfl
@[simp] theorem setDma_dma (n : Nat) (c : DmaChan) (s : State) : (setDma n c s).dma = sset {} s.dma n c := rfl
@[simp] theorem setDma_mem (n : Nat) (c : DmaChan) (s : State) : (setDma n c s).mem = s.mem := rfl
@[simp] theorem setDma_net (n : Nat) (c : DmaChan) (s : State) : (setDma n c s).net = s.net := rfl
@[simp] theorem setDma_ts (n : Nat) (c : DmaChan) (s : State) : (setDma n c s).ts = s.ts := rfl
@[simp] theorem setDma_vlt (n : Nat) (c : DmaChan) (s : State) : (setDma n c s).vlt = s.vlt := rfl
@[simp] theorem setDma_rcd (n : Nat) (c : DmaChan) (s : State) : (setDma n c s).rcd = s.rcd := rfl
@[simp] theorem setDma_bas (n : Nat) (c : DmaChan) (s : State) : (setDma n c s).bas = s.bas := rfl
@[simp] theorem setDma_cart (n : Nat) (c : DmaChan) (s : State) : (setDma n c s).cart = s.cart := rfl
@[simp] theorem setDma_trk (n : Nat) (c : DmaChan) (s : State) : (setDma n c s).trk = s.trk := rfl
@[simp] theorem setDma_tim (n : Nat) (c : DmaChan) (s : State) : (setDma n c s).tim = s.tim := rfl
@[simp] theorem setDma_mot (n : Nat) (c : DmaChan) (s : State) : (setDma n c s).mot = s.mot := rfl
@[simp] theorem setDma_trc (n : Nat) (c : DmaChan) (s : State) : (setDma n c s).trc = s.trc := rfl
@[simp] theorem setDma_lat (n : Nat) (c : DmaChan) (s : State) : (setDma n c s).lat = s.lat := rfl
@[simp] theorem setDma_itg (n : Nat) (c : DmaChan) (s : State) : (setDma n c s).itg = s.itg := rfl
@[simp] theorem setDma_top (n : Nat) (c : DmaChan) (s : State) : (setDma n c s).top = s.top := rfl
@[simp] theorem setDma_prb (n : Nat) (c : DmaChan) (s : State) : (setDma n c s).prb = s.prb := rfl
@[simp] theorem setDma_hwl (n : Nat) (c : DmaChan) (s : State) : (setDma n c s).hwl = s.hwl := rfl
@[simp] theorem setDma_out (n : Nat) (c : DmaChan) (s : State) : (setDma n c s).out = s.out := rfl
@[simp] theorem setDma_pending (n : Nat) (c : DmaChan) (s : State) : (setDma n c s).pending = s.pending := rfl

/-! ### setTrc -/

@[simp] theorem setTrc_variant (b : Nat) (t : TraceBuf) (s : State) : (setTrc b t s).variant = s.variant := rfl
@[simp] theorem setTrc_rf (b : Nat) (t : TraceBuf) (s : State) : (setTrc b t s).rf = s.rf := rfl
@[simp] theorem setTrc_clk (b : Nat) (t : TraceBuf) (s : State) : (setTrc b t s).clk = s.clk := rfl
@[simp] theorem setTrc_pins (b : Nat) (t : TraceBuf) (s : State) : (setTrc b t s).pins = s.pins := rfl
@[simp] theorem setTrc_host (b : Nat) (t : TraceBuf) (s : State) : (setTrc b t s).host = s.host := rfl
@[simp] theorem setTrc_dma (b : Nat) (t : TraceBuf) (s : State) : (setTrc b t s).dma = s.dma := rfl
@[simp] theorem setTrc_mem (b : Nat) (t : TraceBuf) (s : State) : (setTrc b t s).mem = s.mem := rfl
@[simp] theorem setTrc_net (b : Nat) (t : TraceBuf) (s : State) : (setTrc b t s).net = s.net := rfl
@[simp] theorem setTrc_ts (b : Nat) (t : TraceBuf) (s : State) : (setTrc b t s).ts = s.ts := rfl
@[simp] theorem setTrc_vlt (b : Nat) (t : TraceBuf) (s : State) : (setTrc b t s).vlt = s.vlt := rfl
@[simp] theorem setTrc_rcd (b : Nat) (t : TraceBuf) (s : State) : (setTrc b t s).rcd = s.rcd := rfl
@[simp] theorem setTrc_bas (b : Nat) (t : TraceBuf) (s : State) : (setTrc b t s).bas = s.bas := rfl
@[simp] theorem setTrc_cart (b : Nat) (t : TraceBuf) (s : State) : (setTrc b t s).cart = s.cart := rfl
@[simp] theorem setTrc_trk (b : Nat) (t : TraceBuf) (s : State) : (setTrc b t s).trk = s.trk := rfl
@[simp] theorem setTrc_tim (b : Nat) (t : TraceBuf) (s : State) : (setTrc b t s).tim = s.tim := rfl
@[simp] theorem setTrc_mot (b : Nat) (t : TraceBuf) (s : State) : (setTrc b t s).mot = s.mot := rfl
@[simp] theorem setTrc_trc (b : Nat) (t : TraceBuf) (s : State) : (setTrc b t s).trc = sset {} s.trc b t := rfl
@[simp] theorem setTrc_lat (b : Nat) (t : TraceBuf) (s : State) : (setTrc b t s).lat = s.lat := rfl
@[simp] theorem setTrc_itg (b : Nat) (t : TraceBuf) (s : State) : (setTrc b t s).itg = s.itg := rfl
@[simp] theorem setTrc_top (b : Nat) (t : TraceBuf) (s : State) : (setTrc b t s).top = s.top := rfl
@[simp] theorem setTrc_prb (b : Nat) (t : TraceBuf) (s : State) : (setTrc b t s).prb = s.prb := rfl
@[simp] theorem setTrc_hwl (b : Nat) (t : TraceBuf) (s : State) : (setTrc b t s).hwl = s.hwl := rfl
@[simp] theorem setTrc_out (b : Nat) (t : TraceBuf) (s : State) : (setTrc b t s).out = s.out := rfl
@[simp] theorem setTrc_pending (b : Nat) (t : TraceBuf) (s : State) : (setTrc b t s).pending = s.pending := rfl

/-! ### setLoop -/

@[simp] theorem setLoop_variant (n : Nat) (l : Loop) (s : State) : (setLoop n l s).variant = s.variant := rfl
@[simp] theorem setLoop_rf (n : Nat) (l : Loop) (s : State) : (setLoop n l s).rf = s.rf := rfl
@[simp] theorem setLoop_clk (n : Nat) (l : Loop) (s : State) : (setLoop n l s).clk = s.clk := rfl
@[simp] theorem setLoop_pins (n : Nat) (l : Loop) (s : State) : (setLoop n l s).pins = s.pins := rfl
@[simp] theorem setLoop_host (n : Nat) (l : Loop) (s : State) : (setLoop n l s).host = s.host := rfl
@[simp] theorem setLoop_dma (n : Nat) (l : Loop) (s : State) : (setLoop n l s).dma = s.dma := rfl
@[simp] theorem setLoop_mem (n : Nat) (l : Loop) (s : State) : (setLoop n l s).mem = s.mem := rfl
@[simp] theorem setLoop_net (n : Nat) (l : Loop) (s : State) : (setLoop n l s).net = s.net := rfl
@[simp] theorem setLoop_ts (n : Nat) (l : Loop) (s : State) : (setLoop n l s).ts = s.ts := rfl
@[simp] theorem setLoop_vlt (n : Nat) (l : Loop) (s : State) : (setLoop n l s).vlt = s.vlt := rfl
@[simp] theorem setLoop_rcd (n : Nat) (l : Loop) (s : State) : (setLoop n l s).rcd = s.rcd := rfl
@[simp] theorem setLoop_bas (n : Nat) (l : Loop) (s : State) : (setLoop n l s).bas = s.bas := rfl
@[simp] theorem setLoop_cart (n : Nat) (l : Loop) (s : State) : (setLoop n l s).cart = s.cart := rfl
@[simp] theorem setLoop_trk (n : Nat) (l : Loop) (s : State) : (setLoop n l s).trk = s.trk := rfl
@[simp] theorem setLoop_tim (n : Nat) (l : Loop) (s : State) : (setLoop n l s).tim = s.tim := rfl
@[simp] theorem setLoop_mot (n : Nat) (l : Loop) (s : State) : (setLoop n l s).mot = { s.mot with loops := sset {} s.mot.loops n l } := rfl
@[simp] theorem setLoop_trc (n : Nat) (l : Loop) (s : State) : (setLoop n l s).trc = s.trc := rfl
@[simp] theorem setLoop_lat (n : Nat) (l : Loop) (s : State) : (setLoop n l s).lat = s.lat := rfl
@[simp] theorem setLoop_itg (n : Nat) (l : Loop) (s : State) : (setLoop n l s).itg = s.itg := rfl
@[simp] theorem setLoop_top (n : Nat) (l : Loop) (s : State) : (setLoop n l s).top = s.top := rfl
@[simp] theorem setLoop_prb (n : Nat) (l : Loop) (s : State) : (setLoop n l s).prb = s.prb := rfl
@[simp] theorem setLoop_hwl (n : Nat) (l : Loop) (s : State) : (setLoop n l s).hwl = s.hwl := rfl
@[simp] theorem setLoop_out (n : Nat) (l : Loop) (s : State) : (setLoop n l s).out = s.out := rfl
@[simp] theorem setLoop_pending (n : Nat) (l : Loop) (s : State) : (setLoop n l s).pending = s.pending := rfl

/-! ### setLg -/

@[simp] theorem setLg_variant (k : Nat) (g : LaneGroup) (s : State) : (setLg k g s).variant = s.variant := rfl
@[simp] theorem setLg_rf (k : Nat) (g : LaneGroup) (s : State) : (setLg k g s).rf = s.rf := rfl
@[simp] theorem setLg_clk (k : Nat) (g : LaneGroup) (s : State) : (setLg k g s).clk = s.clk := rfl
@[simp] theorem setLg_pins (k : Nat) (g : LaneGroup) (s : State) : (setLg k g s).pins = s.pins := rfl
@[simp] theorem setLg_host (k : Nat) (g : LaneGroup) (s : State) : (setLg k g s).host = s.host := rfl
@[simp] theorem setLg_dma (k : Nat) (g : LaneGroup) (s : State) : (setLg k g s).dma = s.dma := rfl
@[simp] theorem setLg_mem (k : Nat) (g : LaneGroup) (s : State) : (setLg k g s).mem = s.mem := rfl
@[simp] theorem setLg_net (k : Nat) (g : LaneGroup) (s : State) : (setLg k g s).net = s.net := rfl
@[simp] theorem setLg_ts (k : Nat) (g : LaneGroup) (s : State) : (setLg k g s).ts = s.ts := rfl
@[simp] theorem setLg_vlt (k : Nat) (g : LaneGroup) (s : State) : (setLg k g s).vlt = s.vlt := rfl
@[simp] theorem setLg_rcd (k : Nat) (g : LaneGroup) (s : State) : (setLg k g s).rcd = s.rcd := rfl
@[simp] theorem setLg_bas (k : Nat) (g : LaneGroup) (s : State) : (setLg k g s).bas = s.bas := rfl
@[simp] theorem setLg_cart (k : Nat) (g : LaneGroup) (s : State) : (setLg k g s).cart = s.cart := rfl
@[simp] theorem setLg_trk (k : Nat) (g : LaneGroup) (s : State) : (setLg k g s).trk = s.trk := rfl
@[simp] theorem setLg_tim (k : Nat) (g : LaneGroup) (s : State) : (setLg k g s).tim = { s.tim with lgs := sset {} s.tim.lgs k g } := rfl
@[simp] theorem setLg_mot (k : Nat) (g : LaneGroup) (s : State) : (setLg k g s).mot = s.mot := rfl
@[simp] theorem setLg_trc (k : Nat) (g : LaneGroup) (s : State) : (setLg k g s).trc = s.trc := rfl
@[simp] theorem setLg_lat (k : Nat) (g : LaneGroup) (s : State) : (setLg k g s).lat = s.lat := rfl
@[simp] theorem setLg_itg (k : Nat) (g : LaneGroup) (s : State) : (setLg k g s).itg = s.itg := rfl
@[simp] theorem setLg_top (k : Nat) (g : LaneGroup) (s : State) : (setLg k g s).top = s.top := rfl
@[simp] theorem setLg_prb (k : Nat) (g : LaneGroup) (s : State) : (setLg k g s).prb = s.prb := rfl
@[simp] theorem setLg_hwl (k : Nat) (g : LaneGroup) (s : State) : (setLg k g s).hwl = s.hwl := rfl
@[simp] theorem setLg_out (k : Nat) (g : LaneGroup) (s : State) : (setLg k g s).out = s.out := rfl
@[simp] theorem setLg_pending (k : Nat) (g : LaneGroup) (s : State) : (setLg k g s).pending = s.pending := rfl

/-! ### setCh -/

@[simp] theorem setCh_variant (c : Nat) (x : Chan) (s : State) : (setCh c x s).variant = s.variant := rfl
@[simp] theorem setCh_rf (c : Nat) (x : Chan) (s : State) : (setCh c x s).rf = s.rf := rfl
@[simp] theorem setCh_clk (c : Nat) (x : Chan) (s : State) : (setCh c x s).clk = s.clk := rfl
@[simp] theorem setCh_pins (c : Nat) (x : Chan) (s : State) : (setCh c x s).pins = s.pins := rfl
@[simp] theorem setCh_host (c : Nat) (x : Chan) (s : State) : (setCh c x s).host = s.host := rfl
@[simp] theorem setCh_dma (c : Nat) (x : Chan) (s : State) : (setCh c x s).dma = s.dma := rfl
@[simp] theorem setCh_mem (c : Nat) (x : Chan) (s : State) : (setCh c x s).mem = s.mem := rfl
@[simp] theorem setCh_net (c : Nat) (x : Chan) (s : State) : (setCh c x s).net = s.net := rfl
@[simp] theorem setCh_ts (c : Nat) (x : Chan) (s : State) : (setCh c x s).ts = s.ts := rfl
@[simp] theorem setCh_vlt (c : Nat) (x : Chan) (s : State) : (setCh c x s).vlt = s.vlt := rfl
@[simp] theorem setCh_rcd (c : Nat) (x : Chan) (s : State) : (setCh c x s).rcd = s.rcd := rfl
@[simp] theorem setCh_bas (c : Nat) (x : Chan) (s : State) : (setCh c x s).bas = s.bas := rfl
@[simp] theorem setCh_cart (c : Nat) (x : Chan) (s : State) : (setCh c x s).cart = s.cart := rfl
@[simp] theorem setCh_trk (c : Nat) (x : Chan) (s : State) : (setCh c x s).trk = s.trk := rfl
@[simp] theorem setCh_tim (c : Nat) (x : Chan) (s : State) : (setCh c x s).tim = { s.tim with chs := sset {} s.tim.chs c x } := rfl
@[simp] theorem setCh_mot (c : Nat) (x : Chan) (s : State) : (setCh c x s).mot = s.mot := rfl
@[simp] theorem setCh_trc (c : Nat) (x : Chan) (s : State) : (setCh c x s).trc = s.trc := rfl
@[simp] theorem setCh_lat (c : Nat) (x : Chan) (s : State) : (setCh c x s).lat = s.lat := rfl
@[simp] theorem setCh_itg (c : Nat) (x : Chan) (s : State) : (setCh c x s).itg = s.itg := rfl
@[simp] theorem setCh_top (c : Nat) (x : Chan) (s : State) : (setCh c x s).top = s.top := rfl
@[simp] theorem setCh_prb (c : Nat) (x : Chan) (s : State) : (setCh c x s).prb = s.prb := rfl
@[simp] theorem setCh_hwl (c : Nat) (x : Chan) (s : State) : (setCh c x s).hwl = s.hwl := rfl
@[simp] theorem setCh_out (c : Nat) (x : Chan) (s : State) : (setCh c x s).out = s.out := rfl
@[simp] theorem setCh_pending (c : Nat) (x : Chan) (s : State) : (setCh c x s).pending = s.pending := rfl

/-! ### setTile -/

@[simp] theorem setTile_variant (t : Nat) (x : Tile) (s : State) : (setTile t x s).variant = s.variant := rfl
@[simp] theorem setTile_rf (t : Nat) (x : Tile) (s : State) : (setTile t x s).rf = s.rf := rfl
@[simp] theorem setTile_clk (t : Nat) (x : Tile) (s : State) : (setTile t x s).clk = s.clk := rfl
@[simp] theorem setTile_pins (t : Nat) (x : Tile) (s : State) : (setTile t x s).pins = s.pins := rfl
@[simp] theorem setTile_host (t : Nat) (x : Tile) (s : State) : (setTile t x s).host = s.host := rfl
@[simp] theorem setTile_dma (t : Nat) (x : Tile) (s : State) : (setTile t x s).dma = s.dma := rfl
@[simp] theorem setTile_mem (t : Nat) (x : Tile) (s : State) : (setTile t x s).mem = s.mem := rfl
@[simp] theorem setTile_net (t : Nat) (x : Tile) (s : State) : (setTile t x s).net = s.net := rfl
@[simp] theorem setTile_ts (t : Nat) (x : Tile) (s : State) : (setTile t x s).ts = s.ts := rfl
@[simp] theorem setTile_vlt (t : Nat) (x : Tile) (s : State) : (setTile t x s).vlt = s.vlt := rfl
@[simp] theorem setTile_rcd (t : Nat) (x : Tile) (s : State) : (setTile t x s).rcd = s.rcd := rfl
@[simp] theorem setTile_bas (t : Nat) (x : Tile) (s : State) : (setTile t x s).bas = s.bas := rfl
@[simp] theorem setTile_cart (t : Nat) (x : Tile) (s : State) : (setTile t x s).cart = s.cart := rfl
@[simp] theorem setTile_trk (t : Nat) (x : Tile) (s : State) : (setTile t x s).trk = s.trk := rfl
@[simp] theorem setTile_tim (t : Nat) (x : Tile) (s : State) : (setTile t x s).tim = s.tim := rfl
@[simp] theorem setTile_mot (t : Nat) (x : Tile) (s : State) : (setTile t x s).mot = s.mot := rfl
@[simp] theorem setTile_trc (t : Nat) (x : Tile) (s : State) : (setTile t x s).trc = s.trc := rfl
@[simp] theorem setTile_lat (t : Nat) (x : Tile) (s : State) : (setTile t x s).lat = { s.lat with tiles := sset {} s.lat.tiles t x } := rfl
@[simp] theorem setTile_itg (t : Nat) (x : Tile) (s : State) : (setTile t x s).itg = s.itg := rfl
@[simp] theorem setTile_top (t : Nat) (x : Tile) (s : State) : (setTile t x s).top = s.top := rfl
@[simp] theorem setTile_prb (t : Nat) (x : Tile) (s : State) : (setTile t x s).prb = s.prb := rfl
@[simp] theorem setTile_hwl (t : Nat) (x : Tile) (s : State) : (setTile t x s).hwl = s.hwl := rfl
@[simp] theorem setTile_out (t : Nat) (x : Tile) (s : State) : (setTile t x s).out = s.out := rfl
@[simp] theorem setTile_pending (t : Nat) (x : Tile) (s : State) : (setTile t x s).pending = s.pending := rfl

/-! ### modPass -/

@[simp] theorem modPass_variant (f : Pass → Pass) (s : State) : (modPass f s).variant = s.variant := rfl
@[simp] theorem modPass_rf (f : Pass → Pass) (s : State) : (modPass f s).rf = s.rf := rfl
@[simp] theorem modPass_clk (f : Pass → Pass) (s : State) : (modPass f s).clk = s.clk := rfl
@[simp] theorem modPass_pins (f : Pass → Pass) (s : State) : (modPass f s).pins = s.pins := rfl
@[simp] theorem modPass_host (f : Pass → Pass) (s : State) : (modPass f s).host = s.host := rfl
@[simp] theorem modPass_dma (f : Pass → Pass) (s : State) : (modPass f s).dma = s.dma := rfl
@[simp] theorem modPass_mem (f : Pass → Pass) (s : State) : (modPass f s).mem = s.mem := rfl
@[simp] theorem modPass_net (f : Pass → Pass) (s : State) : (modPass f s).net = s.net := rfl
@[simp] theorem modPass_ts (f : Pass → Pass) (s : State) : (modPass f s).ts = s.ts := rfl
@[simp] theorem modPass_vlt (f : Pass → Pass) (s : State) : (modPass f s).vlt = s.vlt := rfl
@[simp] theorem modPass_rcd (f : Pass → Pass) (s : State) : (modPass f s).rcd = s.rcd := rfl
@[simp] theorem modPass_bas (f : Pass → Pass) (s : State) : (modPass f s).bas = s.bas := rfl
@[simp] theorem modPass_cart (f : Pass → Pass) (s : State) : (modPass f s).cart = s.cart := rfl
@[simp] theorem modPass_trk (f : Pass → Pass) (s : State) : (modPass f s).trk = { s.trk with pass := s.trk.pass.map f } := rfl
@[simp] theorem modPass_tim (f : Pass → Pass) (s : State) : (modPass f s).tim = s.tim := rfl
@[simp] theorem modPass_mot (f : Pass → Pass) (s : State) : (modPass f s).mot = s.mot := rfl
@[simp] theorem modPass_trc (f : Pass → Pass) (s : State) : (modPass f s).trc = s.trc := rfl
@[simp] theorem modPass_lat (f : Pass → Pass) (s : State) : (modPass f s).lat = s.lat := rfl
@[simp] theorem modPass_itg (f : Pass → Pass) (s : State) : (modPass f s).itg = s.itg := rfl
@[simp] theorem modPass_top (f : Pass → Pass) (s : State) : (modPass f s).top = s.top := rfl
@[simp] theorem modPass_prb (f : Pass → Pass) (s : State) : (modPass f s).prb = s.prb := rfl
@[simp] theorem modPass_hwl (f : Pass → Pass) (s : State) : (modPass f s).hwl = s.hwl := rfl
@[simp] theorem modPass_out (f : Pass → Pass) (s : State) : (modPass f s).out = s.out := rfl
@[simp] theorem modPass_pending (f : Pass → Pass) (s : State) : (modPass f s).pending = s.pending := rfl

/-! ### setIv -/

@[simp] theorem setIv_variant (k : IvKey) (s : State) : (setIv k s).variant = s.variant := rfl
@[simp] theorem setIv_rf (k : IvKey) (s : State) : (setIv k s).rf = s.rf := rfl
@[simp] theorem setIv_clk (k : IvKey) (s : State) : (setIv k s).clk = s.clk := rfl
@[simp] theorem setIv_pins (k : IvKey) (s : State) : (setIv k s).pins = s.pins := rfl
@[simp] theorem setIv_host (k : IvKey) (s : State) : (setIv k s).host = s.host := rfl
@[simp] theorem setIv_dma (k : IvKey) (s : State) : (setIv k s).dma = s.dma := rfl
@[simp] theorem setIv_mem (k : IvKey) (s : State) : (setIv k s).mem = s.mem := rfl
@[simp] theorem setIv_net (k : IvKey) (s : State) : (setIv k s).net = s.net := rfl
@[simp] theorem setIv_ts (k : IvKey) (s : State) : (setIv k s).ts = s.ts := rfl
@[simp] theorem setIv_vlt (k : IvKey) (s : State) : (setIv k s).vlt = { s.vlt with ivs := k :: s.vlt.ivs.filter (fun x => x.fp ≠ k.fp) } := rfl
@[simp] theorem setIv_rcd (k : IvKey) (s : State) : (setIv k s).rcd = s.rcd := rfl
@[simp] theorem setIv_bas (k : IvKey) (s : State) : (setIv k s).bas = s.bas := rfl
@[simp] theorem setIv_cart (k : IvKey) (s : State) : (setIv k s).cart = s.cart := rfl
@[simp] theorem setIv_trk (k : IvKey) (s : State) : (setIv k s).trk = s.trk := rfl
@[simp] theorem setIv_tim (k : IvKey) (s : State) : (setIv k s).tim = s.tim := rfl
@[simp] theorem setIv_mot (k : IvKey) (s : State) : (setIv k s).mot = s.mot := rfl
@[simp] theorem setIv_trc (k : IvKey) (s : State) : (setIv k s).trc = s.trc := rfl
@[simp] theorem setIv_lat (k : IvKey) (s : State) : (setIv k s).lat = s.lat := rfl
@[simp] theorem setIv_itg (k : IvKey) (s : State) : (setIv k s).itg = s.itg := rfl
@[simp] theorem setIv_top (k : IvKey) (s : State) : (setIv k s).top = s.top := rfl
@[simp] theorem setIv_prb (k : IvKey) (s : State) : (setIv k s).prb = s.prb := rfl
@[simp] theorem setIv_hwl (k : IvKey) (s : State) : (setIv k s).hwl = s.hwl := rfl
@[simp] theorem setIv_out (k : IvKey) (s : State) : (setIv k s).out = s.out := rfl
@[simp] theorem setIv_pending (k : IvKey) (s : State) : (setIv k s).pending = s.pending := rfl

/-! ### dropQuotes -/

@[simp] theorem dropQuotes_variant (p : QuoteKey → Bool) (s : State) : (dropQuotes p s).variant = s.variant := rfl
@[simp] theorem dropQuotes_rf (p : QuoteKey → Bool) (s : State) : (dropQuotes p s).rf = s.rf := rfl
@[simp] theorem dropQuotes_clk (p : QuoteKey → Bool) (s : State) : (dropQuotes p s).clk = s.clk := rfl
@[simp] theorem dropQuotes_pins (p : QuoteKey → Bool) (s : State) : (dropQuotes p s).pins = s.pins := rfl
@[simp] theorem dropQuotes_host (p : QuoteKey → Bool) (s : State) : (dropQuotes p s).host = s.host := rfl
@[simp] theorem dropQuotes_dma (p : QuoteKey → Bool) (s : State) : (dropQuotes p s).dma = s.dma := rfl
@[simp] theorem dropQuotes_mem (p : QuoteKey → Bool) (s : State) : (dropQuotes p s).mem = s.mem := rfl
@[simp] theorem dropQuotes_net (p : QuoteKey → Bool) (s : State) : (dropQuotes p s).net = s.net := rfl
@[simp] theorem dropQuotes_ts (p : QuoteKey → Bool) (s : State) : (dropQuotes p s).ts = s.ts := rfl
@[simp] theorem dropQuotes_vlt (p : QuoteKey → Bool) (s : State) : (dropQuotes p s).vlt = { s.vlt with quotes := s.vlt.quotes.filter (fun q => !p q) } := rfl
@[simp] theorem dropQuotes_rcd (p : QuoteKey → Bool) (s : State) : (dropQuotes p s).rcd = s.rcd := rfl
@[simp] theorem dropQuotes_bas (p : QuoteKey → Bool) (s : State) : (dropQuotes p s).bas = s.bas := rfl
@[simp] theorem dropQuotes_cart (p : QuoteKey → Bool) (s : State) : (dropQuotes p s).cart = s.cart := rfl
@[simp] theorem dropQuotes_trk (p : QuoteKey → Bool) (s : State) : (dropQuotes p s).trk = s.trk := rfl
@[simp] theorem dropQuotes_tim (p : QuoteKey → Bool) (s : State) : (dropQuotes p s).tim = s.tim := rfl
@[simp] theorem dropQuotes_mot (p : QuoteKey → Bool) (s : State) : (dropQuotes p s).mot = s.mot := rfl
@[simp] theorem dropQuotes_trc (p : QuoteKey → Bool) (s : State) : (dropQuotes p s).trc = s.trc := rfl
@[simp] theorem dropQuotes_lat (p : QuoteKey → Bool) (s : State) : (dropQuotes p s).lat = s.lat := rfl
@[simp] theorem dropQuotes_itg (p : QuoteKey → Bool) (s : State) : (dropQuotes p s).itg = s.itg := rfl
@[simp] theorem dropQuotes_top (p : QuoteKey → Bool) (s : State) : (dropQuotes p s).top = s.top := rfl
@[simp] theorem dropQuotes_prb (p : QuoteKey → Bool) (s : State) : (dropQuotes p s).prb = s.prb := rfl
@[simp] theorem dropQuotes_hwl (p : QuoteKey → Bool) (s : State) : (dropQuotes p s).hwl = s.hwl := rfl
@[simp] theorem dropQuotes_out (p : QuoteKey → Bool) (s : State) : (dropQuotes p s).out = s.out := rfl
@[simp] theorem dropQuotes_pending (p : QuoteKey → Bool) (s : State) : (dropQuotes p s).pending = s.pending := rfl

/-! ### setFl -/

@[simp] theorem setFl_variant (st code : Nat) (s : State) : (setFl st code s).variant = s.variant := rfl
@[simp] theorem setFl_rf (st code : Nat) (s : State) : (setFl st code s).rf = s.rf := rfl
@[simp] theorem setFl_clk (st code : Nat) (s : State) : (setFl st code s).clk = s.clk := rfl
@[simp] theorem setFl_pins (st code : Nat) (s : State) : (setFl st code s).pins = s.pins := rfl
@[simp] theorem setFl_host (st code : Nat) (s : State) : (setFl st code s).host = s.host := rfl
@[simp] theorem setFl_dma (st code : Nat) (s : State) : (setFl st code s).dma = s.dma := rfl
@[simp] theorem setFl_mem (st code : Nat) (s : State) : (setFl st code s).mem = s.mem := rfl
@[simp] theorem setFl_net (st code : Nat) (s : State) : (setFl st code s).net = s.net := rfl
@[simp] theorem setFl_ts (st code : Nat) (s : State) : (setFl st code s).ts = s.ts := rfl
@[simp] theorem setFl_vlt (st code : Nat) (s : State) : (setFl st code s).vlt = s.vlt := rfl
@[simp] theorem setFl_rcd (st code : Nat) (s : State) : (setFl st code s).rcd = s.rcd := rfl
@[simp] theorem setFl_bas (st code : Nat) (s : State) : (setFl st code s).bas = s.bas := rfl
@[simp] theorem setFl_cart (st code : Nat) (s : State) : (setFl st code s).cart = s.cart := rfl
@[simp] theorem setFl_trk (st code : Nat) (s : State) : (setFl st code s).trk = s.trk := rfl
@[simp] theorem setFl_tim (st code : Nat) (s : State) : (setFl st code s).tim = s.tim := rfl
@[simp] theorem setFl_mot (st code : Nat) (s : State) : (setFl st code s).mot = s.mot := rfl
@[simp] theorem setFl_trc (st code : Nat) (s : State) : (setFl st code s).trc = s.trc := rfl
@[simp] theorem setFl_lat (st code : Nat) (s : State) : (setFl st code s).lat = s.lat := rfl
@[simp] theorem setFl_itg (st code : Nat) (s : State) : (setFl st code s).itg = s.itg := rfl
@[simp] theorem setFl_top (st code : Nat) (s : State) : (setFl st code s).top = { s.top with flStat := st, flCode := code } := rfl
@[simp] theorem setFl_prb (st code : Nat) (s : State) : (setFl st code s).prb = s.prb := rfl
@[simp] theorem setFl_hwl (st code : Nat) (s : State) : (setFl st code s).hwl = s.hwl := rfl
@[simp] theorem setFl_out (st code : Nat) (s : State) : (setFl st code s).out = s.out := rfl
@[simp] theorem setFl_pending (st code : Nat) (s : State) : (setFl st code s).pending = s.pending := rfl

/-! ### setArm -/

@[simp] theorem setArm_variant (b : Nat) (on : Bool) (s : State) : (setArm b on s).variant = s.variant := rfl
@[simp] theorem setArm_rf (b : Nat) (on : Bool) (s : State) : (setArm b on s).rf = (rset s pgTRC (0x110 + 0x20 * b) (if on then 1 else 0)).rf := rfl
@[simp] theorem setArm_clk (b : Nat) (on : Bool) (s : State) : (setArm b on s).clk = s.clk := rfl
@[simp] theorem setArm_pins (b : Nat) (on : Bool) (s : State) : (setArm b on s).pins = s.pins := rfl
@[simp] theorem setArm_host (b : Nat) (on : Bool) (s : State) : (setArm b on s).host = s.host := rfl
@[simp] theorem setArm_dma (b : Nat) (on : Bool) (s : State) : (setArm b on s).dma = s.dma := rfl
@[simp] theorem setArm_mem (b : Nat) (on : Bool) (s : State) : (setArm b on s).mem = s.mem := rfl
@[simp] theorem setArm_net (b : Nat) (on : Bool) (s : State) : (setArm b on s).net = s.net := rfl
@[simp] theorem setArm_ts (b : Nat) (on : Bool) (s : State) : (setArm b on s).ts = s.ts := rfl
@[simp] theorem setArm_vlt (b : Nat) (on : Bool) (s : State) : (setArm b on s).vlt = s.vlt := rfl
@[simp] theorem setArm_rcd (b : Nat) (on : Bool) (s : State) : (setArm b on s).rcd = s.rcd := rfl
@[simp] theorem setArm_bas (b : Nat) (on : Bool) (s : State) : (setArm b on s).bas = s.bas := rfl
@[simp] theorem setArm_cart (b : Nat) (on : Bool) (s : State) : (setArm b on s).cart = s.cart := rfl
@[simp] theorem setArm_trk (b : Nat) (on : Bool) (s : State) : (setArm b on s).trk = s.trk := rfl
@[simp] theorem setArm_tim (b : Nat) (on : Bool) (s : State) : (setArm b on s).tim = s.tim := rfl
@[simp] theorem setArm_mot (b : Nat) (on : Bool) (s : State) : (setArm b on s).mot = s.mot := rfl
@[simp] theorem setArm_trc (b : Nat) (on : Bool) (s : State) : (setArm b on s).trc = s.trc := rfl
@[simp] theorem setArm_lat (b : Nat) (on : Bool) (s : State) : (setArm b on s).lat = s.lat := rfl
@[simp] theorem setArm_itg (b : Nat) (on : Bool) (s : State) : (setArm b on s).itg = s.itg := rfl
@[simp] theorem setArm_top (b : Nat) (on : Bool) (s : State) : (setArm b on s).top = s.top := rfl
@[simp] theorem setArm_prb (b : Nat) (on : Bool) (s : State) : (setArm b on s).prb = s.prb := rfl
@[simp] theorem setArm_hwl (b : Nat) (on : Bool) (s : State) : (setArm b on s).hwl = s.hwl := rfl
@[simp] theorem setArm_out (b : Nat) (on : Bool) (s : State) : (setArm b on s).out = s.out := rfl
@[simp] theorem setArm_pending (b : Nat) (on : Bool) (s : State) : (setArm b on s).pending = s.pending := rfl

/-! ### noteCause -/

@[simp] theorem noteCause_variant (b : Nat) (s : State) : (noteCause b s).variant = s.variant := rfl
@[simp] theorem noteCause_rf (b : Nat) (s : State) : (noteCause b s).rf = (rset s pgTOP 0x608 (rget s pgTOP 0x608 ||| BitVec.ofNat 32 (2 ^ b))).rf := rfl
@[simp] theorem noteCause_clk (b : Nat) (s : State) : (noteCause b s).clk = s.clk := rfl
@[simp] theorem noteCause_pins (b : Nat) (s : State) : (noteCause b s).pins = s.pins := rfl
@[simp] theorem noteCause_host (b : Nat) (s : State) : (noteCause b s).host = s.host := rfl
@[simp] theorem noteCause_dma (b : Nat) (s : State) : (noteCause b s).dma = s.dma := rfl
@[simp] theorem noteCause_mem (b : Nat) (s : State) : (noteCause b s).mem = s.mem := rfl
@[simp] theorem noteCause_net (b : Nat) (s : State) : (noteCause b s).net = s.net := rfl
@[simp] theorem noteCause_ts (b : Nat) (s : State) : (noteCause b s).ts = s.ts := rfl
@[simp] theorem noteCause_vlt (b : Nat) (s : State) : (noteCause b s).vlt = s.vlt := rfl
@[simp] theorem noteCause_rcd (b : Nat) (s : State) : (noteCause b s).rcd = s.rcd := rfl
@[simp] theorem noteCause_bas (b : Nat) (s : State) : (noteCause b s).bas = s.bas := rfl
@[simp] theorem noteCause_cart (b : Nat) (s : State) : (noteCause b s).cart = s.cart := rfl
@[simp] theorem noteCause_trk (b : Nat) (s : State) : (noteCause b s).trk = s.trk := rfl
@[simp] theorem noteCause_tim (b : Nat) (s : State) : (noteCause b s).tim = s.tim := rfl
@[simp] theorem noteCause_mot (b : Nat) (s : State) : (noteCause b s).mot = s.mot := rfl
@[simp] theorem noteCause_trc (b : Nat) (s : State) : (noteCause b s).trc = s.trc := rfl
@[simp] theorem noteCause_lat (b : Nat) (s : State) : (noteCause b s).lat = s.lat := rfl
@[simp] theorem noteCause_itg (b : Nat) (s : State) : (noteCause b s).itg = s.itg := rfl
@[simp] theorem noteCause_top (b : Nat) (s : State) : (noteCause b s).top = s.top := rfl
@[simp] theorem noteCause_prb (b : Nat) (s : State) : (noteCause b s).prb = s.prb := rfl
@[simp] theorem noteCause_hwl (b : Nat) (s : State) : (noteCause b s).hwl = s.hwl := rfl
@[simp] theorem noteCause_out (b : Nat) (s : State) : (noteCause b s).out = s.out := rfl
@[simp] theorem noteCause_pending (b : Nat) (s : State) : (noteCause b s).pending = s.pending := rfl

/-! ### addUse -/

@[simp] theorem addUse_variant (p n : Nat) (s : State) : (addUse p n s).variant = s.variant := rfl
@[simp] theorem addUse_rf (p n : Nat) (s : State) : (addUse p n s).rf = s.rf := rfl
@[simp] theorem addUse_clk (p n : Nat) (s : State) : (addUse p n s).clk = s.clk := rfl
@[simp] theorem addUse_pins (p n : Nat) (s : State) : (addUse p n s).pins = s.pins := rfl
@[simp] theorem addUse_host (p n : Nat) (s : State) : (addUse p n s).host = s.host := rfl
@[simp] theorem addUse_dma (p n : Nat) (s : State) : (addUse p n s).dma = s.dma := rfl
@[simp] theorem addUse_mem (p n : Nat) (s : State) : (addUse p n s).mem = s.mem := rfl
@[simp] theorem addUse_net (p n : Nat) (s : State) : (addUse p n s).net = s.net := rfl
@[simp] theorem addUse_ts (p n : Nat) (s : State) : (addUse p n s).ts = s.ts := rfl
@[simp] theorem addUse_vlt (p n : Nat) (s : State) : (addUse p n s).vlt = s.vlt := rfl
@[simp] theorem addUse_rcd (p n : Nat) (s : State) : (addUse p n s).rcd = { s.rcd with use := smod 0 s.rcd.use p (· + n) } := rfl
@[simp] theorem addUse_bas (p n : Nat) (s : State) : (addUse p n s).bas = s.bas := rfl
@[simp] theorem addUse_cart (p n : Nat) (s : State) : (addUse p n s).cart = s.cart := rfl
@[simp] theorem addUse_trk (p n : Nat) (s : State) : (addUse p n s).trk = s.trk := rfl
@[simp] theorem addUse_tim (p n : Nat) (s : State) : (addUse p n s).tim = s.tim := rfl
@[simp] theorem addUse_mot (p n : Nat) (s : State) : (addUse p n s).mot = s.mot := rfl
@[simp] theorem addUse_trc (p n : Nat) (s : State) : (addUse p n s).trc = s.trc := rfl
@[simp] theorem addUse_lat (p n : Nat) (s : State) : (addUse p n s).lat = s.lat := rfl
@[simp] theorem addUse_itg (p n : Nat) (s : State) : (addUse p n s).itg = s.itg := rfl
@[simp] theorem addUse_top (p n : Nat) (s : State) : (addUse p n s).top = s.top := rfl
@[simp] theorem addUse_prb (p n : Nat) (s : State) : (addUse p n s).prb = s.prb := rfl
@[simp] theorem addUse_hwl (p n : Nat) (s : State) : (addUse p n s).hwl = s.hwl := rfl
@[simp] theorem addUse_out (p n : Nat) (s : State) : (addUse p n s).out = s.out := rfl
@[simp] theorem addUse_pending (p n : Nat) (s : State) : (addUse p n s).pending = s.pending := rfl

/-! ### subUse -/

@[simp] theorem subUse_variant (p n : Nat) (s : State) : (subUse p n s).variant = s.variant := rfl
@[simp] theorem subUse_rf (p n : Nat) (s : State) : (subUse p n s).rf = s.rf := rfl
@[simp] theorem subUse_clk (p n : Nat) (s : State) : (subUse p n s).clk = s.clk := rfl
@[simp] theorem subUse_pins (p n : Nat) (s : State) : (subUse p n s).pins = s.pins := rfl
@[simp] theorem subUse_host (p n : Nat) (s : State) : (subUse p n s).host = s.host := rfl
@[simp] theorem subUse_dma (p n : Nat) (s : State) : (subUse p n s).dma = s.dma := rfl
@[simp] theorem subUse_mem (p n : Nat) (s : State) : (subUse p n s).mem = s.mem := rfl
@[simp] theorem subUse_net (p n : Nat) (s : State) : (subUse p n s).net = s.net := rfl
@[simp] theorem subUse_ts (p n : Nat) (s : State) : (subUse p n s).ts = s.ts := rfl
@[simp] theorem subUse_vlt (p n : Nat) (s : State) : (subUse p n s).vlt = s.vlt := rfl
@[simp] theorem subUse_rcd (p n : Nat) (s : State) : (subUse p n s).rcd = { s.rcd with use := smod 0 s.rcd.use p (· - n) } := rfl
@[simp] theorem subUse_bas (p n : Nat) (s : State) : (subUse p n s).bas = s.bas := rfl
@[simp] theorem subUse_cart (p n : Nat) (s : State) : (subUse p n s).cart = s.cart := rfl
@[simp] theorem subUse_trk (p n : Nat) (s : State) : (subUse p n s).trk = s.trk := rfl
@[simp] theorem subUse_tim (p n : Nat) (s : State) : (subUse p n s).tim = s.tim := rfl
@[simp] theorem subUse_mot (p n : Nat) (s : State) : (subUse p n s).mot = s.mot := rfl
@[simp] theorem subUse_trc (p n : Nat) (s : State) : (subUse p n s).trc = s.trc := rfl
@[simp] theorem subUse_lat (p n : Nat) (s : State) : (subUse p n s).lat = s.lat := rfl
@[simp] theorem subUse_itg (p n : Nat) (s : State) : (subUse p n s).itg = s.itg := rfl
@[simp] theorem subUse_top (p n : Nat) (s : State) : (subUse p n s).top = s.top := rfl
@[simp] theorem subUse_prb (p n : Nat) (s : State) : (subUse p n s).prb = s.prb := rfl
@[simp] theorem subUse_hwl (p n : Nat) (s : State) : (subUse p n s).hwl = s.hwl := rfl
@[simp] theorem subUse_out (p n : Nat) (s : State) : (subUse p n s).out = s.out := rfl
@[simp] theorem subUse_pending (p n : Nat) (s : State) : (subUse p n s).pending = s.pending := rfl

/-! ### modLost -/

@[simp] theorem modLost_variant (part : Nat) (f : List Loss → List Loss) (s : State) : (modLost part f s).variant = s.variant := rfl
@[simp] theorem modLost_rf (part : Nat) (f : List Loss → List Loss) (s : State) : (modLost part f s).rf = s.rf := rfl
@[simp] theorem modLost_clk (part : Nat) (f : List Loss → List Loss) (s : State) : (modLost part f s).clk = s.clk := rfl
@[simp] theorem modLost_pins (part : Nat) (f : List Loss → List Loss) (s : State) : (modLost part f s).pins = s.pins := rfl
@[simp] theorem modLost_host (part : Nat) (f : List Loss → List Loss) (s : State) : (modLost part f s).host = s.host := rfl
@[simp] theorem modLost_dma (part : Nat) (f : List Loss → List Loss) (s : State) : (modLost part f s).dma = s.dma := rfl
@[simp] theorem modLost_mem (part : Nat) (f : List Loss → List Loss) (s : State) : (modLost part f s).mem = s.mem := rfl
@[simp] theorem modLost_net (part : Nat) (f : List Loss → List Loss) (s : State) : (modLost part f s).net = s.net := rfl
@[simp] theorem modLost_ts (part : Nat) (f : List Loss → List Loss) (s : State) : (modLost part f s).ts = s.ts := rfl
@[simp] theorem modLost_vlt (part : Nat) (f : List Loss → List Loss) (s : State) : (modLost part f s).vlt = s.vlt := rfl
@[simp] theorem modLost_rcd (part : Nat) (f : List Loss → List Loss) (s : State) : (modLost part f s).rcd = s.rcd := rfl
@[simp] theorem modLost_bas (part : Nat) (f : List Loss → List Loss) (s : State) : (modLost part f s).bas = s.bas := rfl
@[simp] theorem modLost_cart (part : Nat) (f : List Loss → List Loss) (s : State) : (modLost part f s).cart = s.cart.map (fun c => { c with lost := smod [] c.lost part f }) := rfl
@[simp] theorem modLost_trk (part : Nat) (f : List Loss → List Loss) (s : State) : (modLost part f s).trk = s.trk := rfl
@[simp] theorem modLost_tim (part : Nat) (f : List Loss → List Loss) (s : State) : (modLost part f s).tim = s.tim := rfl
@[simp] theorem modLost_mot (part : Nat) (f : List Loss → List Loss) (s : State) : (modLost part f s).mot = s.mot := rfl
@[simp] theorem modLost_trc (part : Nat) (f : List Loss → List Loss) (s : State) : (modLost part f s).trc = s.trc := rfl
@[simp] theorem modLost_lat (part : Nat) (f : List Loss → List Loss) (s : State) : (modLost part f s).lat = s.lat := rfl
@[simp] theorem modLost_itg (part : Nat) (f : List Loss → List Loss) (s : State) : (modLost part f s).itg = s.itg := rfl
@[simp] theorem modLost_top (part : Nat) (f : List Loss → List Loss) (s : State) : (modLost part f s).top = s.top := rfl
@[simp] theorem modLost_prb (part : Nat) (f : List Loss → List Loss) (s : State) : (modLost part f s).prb = s.prb := rfl
@[simp] theorem modLost_hwl (part : Nat) (f : List Loss → List Loss) (s : State) : (modLost part f s).hwl = s.hwl := rfl
@[simp] theorem modLost_out (part : Nat) (f : List Loss → List Loss) (s : State) : (modLost part f s).out = s.out := rfl
@[simp] theorem modLost_pending (part : Nat) (f : List Loss → List Loss) (s : State) : (modLost part f s).pending = s.pending := rfl

/-! ### selfTest -/

@[simp] theorem selfTest_variant (ns : List Nat) (s : State) : (selfTest ns s).variant = s.variant := rfl
@[simp] theorem selfTest_rf (ns : List Nat) (s : State) : (selfTest ns s).rf = s.rf := rfl
@[simp] theorem selfTest_clk (ns : List Nat) (s : State) : (selfTest ns s).clk = s.clk := rfl
@[simp] theorem selfTest_pins (ns : List Nat) (s : State) : (selfTest ns s).pins = s.pins := rfl
@[simp] theorem selfTest_host (ns : List Nat) (s : State) : (selfTest ns s).host = s.host := rfl
@[simp] theorem selfTest_dma (ns : List Nat) (s : State) : (selfTest ns s).dma = s.dma := rfl
@[simp] theorem selfTest_mem (ns : List Nat) (s : State) : (selfTest ns s).mem = s.mem := rfl
@[simp] theorem selfTest_net (ns : List Nat) (s : State) : (selfTest ns s).net = s.net := rfl
@[simp] theorem selfTest_ts (ns : List Nat) (s : State) : (selfTest ns s).ts = s.ts := rfl
@[simp] theorem selfTest_vlt (ns : List Nat) (s : State) : (selfTest ns s).vlt = s.vlt := rfl
@[simp] theorem selfTest_rcd (ns : List Nat) (s : State) : (selfTest ns s).rcd = s.rcd := rfl
@[simp] theorem selfTest_bas (ns : List Nat) (s : State) : (selfTest ns s).bas = s.bas := rfl
@[simp] theorem selfTest_cart (ns : List Nat) (s : State) : (selfTest ns s).cart = s.cart := rfl
@[simp] theorem selfTest_trk (ns : List Nat) (s : State) : (selfTest ns s).trk = s.trk := rfl
@[simp] theorem selfTest_tim (ns : List Nat) (s : State) : (selfTest ns s).tim = s.tim := rfl
@[simp] theorem selfTest_mot (ns : List Nat) (s : State) : (selfTest ns s).mot = s.mot := rfl
@[simp] theorem selfTest_trc (ns : List Nat) (s : State) : (selfTest ns s).trc = s.trc := rfl
@[simp] theorem selfTest_lat (ns : List Nat) (s : State) : (selfTest ns s).lat = s.lat := rfl
@[simp] theorem selfTest_itg (ns : List Nat) (s : State) : (selfTest ns s).itg = { s.itg with tests := s.itg.tests ++ ns.filter (· ∉ s.itg.tests) } := rfl
@[simp] theorem selfTest_top (ns : List Nat) (s : State) : (selfTest ns s).top = s.top := rfl
@[simp] theorem selfTest_prb (ns : List Nat) (s : State) : (selfTest ns s).prb = s.prb := rfl
@[simp] theorem selfTest_hwl (ns : List Nat) (s : State) : (selfTest ns s).hwl = s.hwl := rfl
@[simp] theorem selfTest_out (ns : List Nat) (s : State) : (selfTest ns s).out = s.out := rfl
@[simp] theorem selfTest_pending (ns : List Nat) (s : State) : (selfTest ns s).pending = s.pending := rfl

/-! ### reelTorque -/

@[simp] theorem reelTorque_variant (a b : Int) (s : State) : (reelTorque a b s).variant = s.variant := rfl
@[simp] theorem reelTorque_rf (a b : Int) (s : State) : (reelTorque a b s).rf = s.rf := rfl
@[simp] theorem reelTorque_clk (a b : Int) (s : State) : (reelTorque a b s).clk = s.clk := rfl
@[simp] theorem reelTorque_pins (a b : Int) (s : State) : (reelTorque a b s).pins = s.pins := rfl
@[simp] theorem reelTorque_host (a b : Int) (s : State) : (reelTorque a b s).host = s.host := rfl
@[simp] theorem reelTorque_dma (a b : Int) (s : State) : (reelTorque a b s).dma = s.dma := rfl
@[simp] theorem reelTorque_mem (a b : Int) (s : State) : (reelTorque a b s).mem = s.mem := rfl
@[simp] theorem reelTorque_net (a b : Int) (s : State) : (reelTorque a b s).net = s.net := rfl
@[simp] theorem reelTorque_ts (a b : Int) (s : State) : (reelTorque a b s).ts = s.ts := rfl
@[simp] theorem reelTorque_vlt (a b : Int) (s : State) : (reelTorque a b s).vlt = s.vlt := rfl
@[simp] theorem reelTorque_rcd (a b : Int) (s : State) : (reelTorque a b s).rcd = s.rcd := rfl
@[simp] theorem reelTorque_bas (a b : Int) (s : State) : (reelTorque a b s).bas = s.bas := rfl
@[simp] theorem reelTorque_cart (a b : Int) (s : State) : (reelTorque a b s).cart = s.cart := rfl
@[simp] theorem reelTorque_trk (a b : Int) (s : State) : (reelTorque a b s).trk = s.trk := rfl
@[simp] theorem reelTorque_tim (a b : Int) (s : State) : (reelTorque a b s).tim = s.tim := rfl
@[simp] theorem reelTorque_mot (a b : Int) (s : State) : (reelTorque a b s).mot = { s.mot with torA := (b - a) / 2, torB := (b + a) / 2 } := rfl
@[simp] theorem reelTorque_trc (a b : Int) (s : State) : (reelTorque a b s).trc = s.trc := rfl
@[simp] theorem reelTorque_lat (a b : Int) (s : State) : (reelTorque a b s).lat = s.lat := rfl
@[simp] theorem reelTorque_itg (a b : Int) (s : State) : (reelTorque a b s).itg = s.itg := rfl
@[simp] theorem reelTorque_top (a b : Int) (s : State) : (reelTorque a b s).top = s.top := rfl
@[simp] theorem reelTorque_prb (a b : Int) (s : State) : (reelTorque a b s).prb = s.prb := rfl
@[simp] theorem reelTorque_hwl (a b : Int) (s : State) : (reelTorque a b s).hwl = s.hwl := rfl
@[simp] theorem reelTorque_out (a b : Int) (s : State) : (reelTorque a b s).out = s.out := rfl
@[simp] theorem reelTorque_pending (a b : Int) (s : State) : (reelTorque a b s).pending = s.pending := rfl

/-! ### setRead -/

@[simp] theorem setRead_variant (src : Src) (p lrn : Nat) (s : State) : (setRead src p lrn s).variant = s.variant := rfl
@[simp] theorem setRead_rf (src : Src) (p lrn : Nat) (s : State) : (setRead src p lrn s).rf = s.rf := rfl
@[simp] theorem setRead_clk (src : Src) (p lrn : Nat) (s : State) : (setRead src p lrn s).clk = s.clk := rfl
@[simp] theorem setRead_pins (src : Src) (p lrn : Nat) (s : State) : (setRead src p lrn s).pins = s.pins := rfl
@[simp] theorem setRead_dma (src : Src) (p lrn : Nat) (s : State) : (setRead src p lrn s).dma = s.dma := rfl
@[simp] theorem setRead_mem (src : Src) (p lrn : Nat) (s : State) : (setRead src p lrn s).mem = s.mem := rfl
@[simp] theorem setRead_net (src : Src) (p lrn : Nat) (s : State) : (setRead src p lrn s).net = s.net := rfl
@[simp] theorem setRead_ts (src : Src) (p lrn : Nat) (s : State) : (setRead src p lrn s).ts = s.ts := rfl
@[simp] theorem setRead_vlt (src : Src) (p lrn : Nat) (s : State) : (setRead src p lrn s).vlt = s.vlt := rfl
@[simp] theorem setRead_rcd (src : Src) (p lrn : Nat) (s : State) : (setRead src p lrn s).rcd = s.rcd := rfl
@[simp] theorem setRead_bas (src : Src) (p lrn : Nat) (s : State) : (setRead src p lrn s).bas = s.bas := rfl
@[simp] theorem setRead_cart (src : Src) (p lrn : Nat) (s : State) : (setRead src p lrn s).cart = s.cart := rfl
@[simp] theorem setRead_trk (src : Src) (p lrn : Nat) (s : State) : (setRead src p lrn s).trk = s.trk := rfl
@[simp] theorem setRead_tim (src : Src) (p lrn : Nat) (s : State) : (setRead src p lrn s).tim = s.tim := rfl
@[simp] theorem setRead_mot (src : Src) (p lrn : Nat) (s : State) : (setRead src p lrn s).mot = s.mot := rfl
@[simp] theorem setRead_trc (src : Src) (p lrn : Nat) (s : State) : (setRead src p lrn s).trc = s.trc := rfl
@[simp] theorem setRead_lat (src : Src) (p lrn : Nat) (s : State) : (setRead src p lrn s).lat = s.lat := rfl
@[simp] theorem setRead_itg (src : Src) (p lrn : Nat) (s : State) : (setRead src p lrn s).itg = s.itg := rfl
@[simp] theorem setRead_top (src : Src) (p lrn : Nat) (s : State) : (setRead src p lrn s).top = s.top := rfl
@[simp] theorem setRead_prb (src : Src) (p lrn : Nat) (s : State) : (setRead src p lrn s).prb = s.prb := rfl
@[simp] theorem setRead_hwl (src : Src) (p lrn : Nat) (s : State) : (setRead src p lrn s).hwl = s.hwl := rfl
@[simp] theorem setRead_out (src : Src) (p lrn : Nat) (s : State) : (setRead src p lrn s).out = s.out := rfl
@[simp] theorem setRead_pending (src : Src) (p lrn : Nat) (s : State) : (setRead src p lrn s).pending = s.pending := rfl

/-! ### modSlot -/

@[simp] theorem modSlot_variant (i : Nat) (f : Slot → Slot) (s : State) : (modSlot i f s).variant = s.variant := rfl
@[simp] theorem modSlot_rf (i : Nat) (f : Slot → Slot) (s : State) : (modSlot i f s).rf = s.rf := rfl
@[simp] theorem modSlot_clk (i : Nat) (f : Slot → Slot) (s : State) : (modSlot i f s).clk = s.clk := rfl
@[simp] theorem modSlot_pins (i : Nat) (f : Slot → Slot) (s : State) : (modSlot i f s).pins = s.pins := rfl
@[simp] theorem modSlot_host (i : Nat) (f : Slot → Slot) (s : State) : (modSlot i f s).host = s.host := rfl
@[simp] theorem modSlot_dma (i : Nat) (f : Slot → Slot) (s : State) : (modSlot i f s).dma = s.dma := rfl
@[simp] theorem modSlot_mem (i : Nat) (f : Slot → Slot) (s : State) : (modSlot i f s).mem = s.mem := rfl
@[simp] theorem modSlot_net (i : Nat) (f : Slot → Slot) (s : State) : (modSlot i f s).net = s.net := rfl
@[simp] theorem modSlot_ts (i : Nat) (f : Slot → Slot) (s : State) : (modSlot i f s).ts = s.ts := rfl
@[simp] theorem modSlot_vlt (i : Nat) (f : Slot → Slot) (s : State) : (modSlot i f s).vlt = s.vlt := rfl
@[simp] theorem modSlot_rcd (i : Nat) (f : Slot → Slot) (s : State) : (modSlot i f s).rcd = s.rcd := rfl
@[simp] theorem modSlot_bas (i : Nat) (f : Slot → Slot) (s : State) : (modSlot i f s).bas = { s.bas with slots := sset {} s.bas.slots i (f (slotOf s i)) } := rfl
@[simp] theorem modSlot_cart (i : Nat) (f : Slot → Slot) (s : State) : (modSlot i f s).cart = s.cart := rfl
@[simp] theorem modSlot_trk (i : Nat) (f : Slot → Slot) (s : State) : (modSlot i f s).trk = s.trk := rfl
@[simp] theorem modSlot_tim (i : Nat) (f : Slot → Slot) (s : State) : (modSlot i f s).tim = s.tim := rfl
@[simp] theorem modSlot_mot (i : Nat) (f : Slot → Slot) (s : State) : (modSlot i f s).mot = s.mot := rfl
@[simp] theorem modSlot_trc (i : Nat) (f : Slot → Slot) (s : State) : (modSlot i f s).trc = s.trc := rfl
@[simp] theorem modSlot_lat (i : Nat) (f : Slot → Slot) (s : State) : (modSlot i f s).lat = s.lat := rfl
@[simp] theorem modSlot_itg (i : Nat) (f : Slot → Slot) (s : State) : (modSlot i f s).itg = s.itg := rfl
@[simp] theorem modSlot_top (i : Nat) (f : Slot → Slot) (s : State) : (modSlot i f s).top = s.top := rfl
@[simp] theorem modSlot_prb (i : Nat) (f : Slot → Slot) (s : State) : (modSlot i f s).prb = s.prb := rfl
@[simp] theorem modSlot_hwl (i : Nat) (f : Slot → Slot) (s : State) : (modSlot i f s).hwl = s.hwl := rfl
@[simp] theorem modSlot_out (i : Nat) (f : Slot → Slot) (s : State) : (modSlot i f s).out = s.out := rfl
@[simp] theorem modSlot_pending (i : Nat) (f : Slot → Slot) (s : State) : (modSlot i f s).pending = s.pending := rfl

/-! ### setQuota -/

@[simp] theorem setQuota_variant (p v : Nat) (s : State) : (setQuota p v s).variant = s.variant := rfl
@[simp] theorem setQuota_rf (p v : Nat) (s : State) : (setQuota p v s).rf = (rset s pgBSN (0x200 + 4 * p) (BitVec.ofNat 32 (v % 8192))).rf := rfl
@[simp] theorem setQuota_clk (p v : Nat) (s : State) : (setQuota p v s).clk = s.clk := rfl
@[simp] theorem setQuota_pins (p v : Nat) (s : State) : (setQuota p v s).pins = s.pins := rfl
@[simp] theorem setQuota_host (p v : Nat) (s : State) : (setQuota p v s).host = s.host := rfl
@[simp] theorem setQuota_dma (p v : Nat) (s : State) : (setQuota p v s).dma = s.dma := rfl
@[simp] theorem setQuota_mem (p v : Nat) (s : State) : (setQuota p v s).mem = s.mem := rfl
@[simp] theorem setQuota_net (p v : Nat) (s : State) : (setQuota p v s).net = s.net := rfl
@[simp] theorem setQuota_ts (p v : Nat) (s : State) : (setQuota p v s).ts = s.ts := rfl
@[simp] theorem setQuota_vlt (p v : Nat) (s : State) : (setQuota p v s).vlt = s.vlt := rfl
@[simp] theorem setQuota_rcd (p v : Nat) (s : State) : (setQuota p v s).rcd = s.rcd := rfl
@[simp] theorem setQuota_bas (p v : Nat) (s : State) : (setQuota p v s).bas = s.bas := rfl
@[simp] theorem setQuota_cart (p v : Nat) (s : State) : (setQuota p v s).cart = s.cart := rfl
@[simp] theorem setQuota_trk (p v : Nat) (s : State) : (setQuota p v s).trk = s.trk := rfl
@[simp] theorem setQuota_tim (p v : Nat) (s : State) : (setQuota p v s).tim = s.tim := rfl
@[simp] theorem setQuota_mot (p v : Nat) (s : State) : (setQuota p v s).mot = s.mot := rfl
@[simp] theorem setQuota_trc (p v : Nat) (s : State) : (setQuota p v s).trc = s.trc := rfl
@[simp] theorem setQuota_lat (p v : Nat) (s : State) : (setQuota p v s).lat = s.lat := rfl
@[simp] theorem setQuota_itg (p v : Nat) (s : State) : (setQuota p v s).itg = s.itg := rfl
@[simp] theorem setQuota_top (p v : Nat) (s : State) : (setQuota p v s).top = s.top := rfl
@[simp] theorem setQuota_prb (p v : Nat) (s : State) : (setQuota p v s).prb = s.prb := rfl
@[simp] theorem setQuota_hwl (p v : Nat) (s : State) : (setQuota p v s).hwl = s.hwl := rfl
@[simp] theorem setQuota_out (p v : Nat) (s : State) : (setQuota p v s).out = s.out := rfl
@[simp] theorem setQuota_pending (p v : Nat) (s : State) : (setQuota p v s).pending = s.pending := rfl

/-! ### setUnf -/

@[simp] theorem setUnf_variant (u st : Nat) (s : State) : (setUnf u st s).variant = s.variant := rfl
@[simp] theorem setUnf_rf (u st : Nat) (s : State) : (setUnf u st s).rf = (rset s pgFEN 0x664 (BitVec.ofNat 32 (u + 65536 * st))).rf := rfl
@[simp] theorem setUnf_clk (u st : Nat) (s : State) : (setUnf u st s).clk = s.clk := rfl
@[simp] theorem setUnf_pins (u st : Nat) (s : State) : (setUnf u st s).pins = s.pins := rfl
@[simp] theorem setUnf_host (u st : Nat) (s : State) : (setUnf u st s).host = s.host := rfl
@[simp] theorem setUnf_dma (u st : Nat) (s : State) : (setUnf u st s).dma = s.dma := rfl
@[simp] theorem setUnf_mem (u st : Nat) (s : State) : (setUnf u st s).mem = s.mem := rfl
@[simp] theorem setUnf_net (u st : Nat) (s : State) : (setUnf u st s).net = s.net := rfl
@[simp] theorem setUnf_ts (u st : Nat) (s : State) : (setUnf u st s).ts = s.ts := rfl
@[simp] theorem setUnf_vlt (u st : Nat) (s : State) : (setUnf u st s).vlt = s.vlt := rfl
@[simp] theorem setUnf_rcd (u st : Nat) (s : State) : (setUnf u st s).rcd = s.rcd := rfl
@[simp] theorem setUnf_bas (u st : Nat) (s : State) : (setUnf u st s).bas = s.bas := rfl
@[simp] theorem setUnf_cart (u st : Nat) (s : State) : (setUnf u st s).cart = s.cart := rfl
@[simp] theorem setUnf_trk (u st : Nat) (s : State) : (setUnf u st s).trk = s.trk := rfl
@[simp] theorem setUnf_tim (u st : Nat) (s : State) : (setUnf u st s).tim = s.tim := rfl
@[simp] theorem setUnf_mot (u st : Nat) (s : State) : (setUnf u st s).mot = s.mot := rfl
@[simp] theorem setUnf_trc (u st : Nat) (s : State) : (setUnf u st s).trc = s.trc := rfl
@[simp] theorem setUnf_lat (u st : Nat) (s : State) : (setUnf u st s).lat = s.lat := rfl
@[simp] theorem setUnf_itg (u st : Nat) (s : State) : (setUnf u st s).itg = s.itg := rfl
@[simp] theorem setUnf_top (u st : Nat) (s : State) : (setUnf u st s).top = s.top := rfl
@[simp] theorem setUnf_prb (u st : Nat) (s : State) : (setUnf u st s).prb = s.prb := rfl
@[simp] theorem setUnf_hwl (u st : Nat) (s : State) : (setUnf u st s).hwl = s.hwl := rfl
@[simp] theorem setUnf_out (u st : Nat) (s : State) : (setUnf u st s).out = s.out := rfl
@[simp] theorem setUnf_pending (u st : Nat) (s : State) : (setUnf u st s).pending = s.pending := rfl

/-! ### setPsStat -/

@[simp] theorem setPsStat_variant (st mem : Nat) (s : State) : (setPsStat st mem s).variant = s.variant := rfl
@[simp] theorem setPsStat_rf (st mem : Nat) (s : State) : (setPsStat st mem s).rf = (rset s pgMEM 0x604 (BitVec.ofNat 32 (st + 16 * mem))).rf := rfl
@[simp] theorem setPsStat_clk (st mem : Nat) (s : State) : (setPsStat st mem s).clk = s.clk := rfl
@[simp] theorem setPsStat_pins (st mem : Nat) (s : State) : (setPsStat st mem s).pins = s.pins := rfl
@[simp] theorem setPsStat_host (st mem : Nat) (s : State) : (setPsStat st mem s).host = s.host := rfl
@[simp] theorem setPsStat_dma (st mem : Nat) (s : State) : (setPsStat st mem s).dma = s.dma := rfl
@[simp] theorem setPsStat_mem (st mem : Nat) (s : State) : (setPsStat st mem s).mem = s.mem := rfl
@[simp] theorem setPsStat_net (st mem : Nat) (s : State) : (setPsStat st mem s).net = s.net := rfl
@[simp] theorem setPsStat_ts (st mem : Nat) (s : State) : (setPsStat st mem s).ts = s.ts := rfl
@[simp] theorem setPsStat_vlt (st mem : Nat) (s : State) : (setPsStat st mem s).vlt = s.vlt := rfl
@[simp] theorem setPsStat_rcd (st mem : Nat) (s : State) : (setPsStat st mem s).rcd = s.rcd := rfl
@[simp] theorem setPsStat_bas (st mem : Nat) (s : State) : (setPsStat st mem s).bas = s.bas := rfl
@[simp] theorem setPsStat_cart (st mem : Nat) (s : State) : (setPsStat st mem s).cart = s.cart := rfl
@[simp] theorem setPsStat_trk (st mem : Nat) (s : State) : (setPsStat st mem s).trk = s.trk := rfl
@[simp] theorem setPsStat_tim (st mem : Nat) (s : State) : (setPsStat st mem s).tim = s.tim := rfl
@[simp] theorem setPsStat_mot (st mem : Nat) (s : State) : (setPsStat st mem s).mot = s.mot := rfl
@[simp] theorem setPsStat_trc (st mem : Nat) (s : State) : (setPsStat st mem s).trc = s.trc := rfl
@[simp] theorem setPsStat_lat (st mem : Nat) (s : State) : (setPsStat st mem s).lat = s.lat := rfl
@[simp] theorem setPsStat_itg (st mem : Nat) (s : State) : (setPsStat st mem s).itg = s.itg := rfl
@[simp] theorem setPsStat_top (st mem : Nat) (s : State) : (setPsStat st mem s).top = s.top := rfl
@[simp] theorem setPsStat_prb (st mem : Nat) (s : State) : (setPsStat st mem s).prb = s.prb := rfl
@[simp] theorem setPsStat_hwl (st mem : Nat) (s : State) : (setPsStat st mem s).hwl = s.hwl := rfl
@[simp] theorem setPsStat_out (st mem : Nat) (s : State) : (setPsStat st mem s).out = s.out := rfl
@[simp] theorem setPsStat_pending (st mem : Nat) (s : State) : (setPsStat st mem s).pending = s.pending := rfl

/-! ### stageBank -/

@[simp] theorem stageBank_variant (t : Nat) (b : TileBank) (s : State) : (stageBank t b s).variant = s.variant := rfl
@[simp] theorem stageBank_rf (t : Nat) (b : TileBank) (s : State) : (stageBank t b s).rf = s.rf := rfl
@[simp] theorem stageBank_clk (t : Nat) (b : TileBank) (s : State) : (stageBank t b s).clk = s.clk := rfl
@[simp] theorem stageBank_pins (t : Nat) (b : TileBank) (s : State) : (stageBank t b s).pins = s.pins := rfl
@[simp] theorem stageBank_host (t : Nat) (b : TileBank) (s : State) : (stageBank t b s).host = s.host := rfl
@[simp] theorem stageBank_dma (t : Nat) (b : TileBank) (s : State) : (stageBank t b s).dma = s.dma := rfl
@[simp] theorem stageBank_mem (t : Nat) (b : TileBank) (s : State) : (stageBank t b s).mem = s.mem := rfl
@[simp] theorem stageBank_net (t : Nat) (b : TileBank) (s : State) : (stageBank t b s).net = s.net := rfl
@[simp] theorem stageBank_ts (t : Nat) (b : TileBank) (s : State) : (stageBank t b s).ts = s.ts := rfl
@[simp] theorem stageBank_vlt (t : Nat) (b : TileBank) (s : State) : (stageBank t b s).vlt = s.vlt := rfl
@[simp] theorem stageBank_rcd (t : Nat) (b : TileBank) (s : State) : (stageBank t b s).rcd = s.rcd := rfl
@[simp] theorem stageBank_bas (t : Nat) (b : TileBank) (s : State) : (stageBank t b s).bas = s.bas := rfl
@[simp] theorem stageBank_cart (t : Nat) (b : TileBank) (s : State) : (stageBank t b s).cart = s.cart := rfl
@[simp] theorem stageBank_trk (t : Nat) (b : TileBank) (s : State) : (stageBank t b s).trk = s.trk := rfl
@[simp] theorem stageBank_tim (t : Nat) (b : TileBank) (s : State) : (stageBank t b s).tim = s.tim := rfl
@[simp] theorem stageBank_mot (t : Nat) (b : TileBank) (s : State) : (stageBank t b s).mot = s.mot := rfl
@[simp] theorem stageBank_trc (t : Nat) (b : TileBank) (s : State) : (stageBank t b s).trc = s.trc := rfl
@[simp] theorem stageBank_itg (t : Nat) (b : TileBank) (s : State) : (stageBank t b s).itg = s.itg := rfl
@[simp] theorem stageBank_top (t : Nat) (b : TileBank) (s : State) : (stageBank t b s).top = s.top := rfl
@[simp] theorem stageBank_prb (t : Nat) (b : TileBank) (s : State) : (stageBank t b s).prb = s.prb := rfl
@[simp] theorem stageBank_hwl (t : Nat) (b : TileBank) (s : State) : (stageBank t b s).hwl = s.hwl := rfl
@[simp] theorem stageBank_out (t : Nat) (b : TileBank) (s : State) : (stageBank t b s).out = s.out := rfl
@[simp] theorem stageBank_pending (t : Nat) (b : TileBank) (s : State) : (stageBank t b s).pending = s.pending := rfl

end Sys2Proof.Machine
end

