-- ==== Sys2Proof/Laws/Ops.lean ====
section
/-! SUPPORT. What the operations of Machine/Ops.lean can do: each changes the registers' side, and some issue something to the
outside; every other part of the state stands. -/

namespace Sys2Proof.Machine

/-! ### Only the register side and the outputs change -/

theorem logEv_frame (p b : Nat) (q : BitVec 16) (s : State) : ∃ rf, logEv p b q s = { s with rf := rf } := by
  unfold logEv
  split
  · split
    · exact ⟨_, rfl⟩
    · unfold logEv.logNew; split <;> exact ⟨_, rfl⟩
  · unfold logEv.logNew; split <;> exact ⟨_, rfl⟩

theorem msixOnRise_frame (was : Bool) (p : Nat) (s : State) : ∃ out, msixOnRise was p s = { s with out := out } := by
  unfold msixOnRise
  split <;> exact ⟨_, rfl⟩

/-- Raising an event changes its page's events, the event log and what is signalled, and nothing else (R611 to R613). -/
theorem raise_frame (p b : Nat) (s : State) : ∃ rf out, raise p b s = { s with rf := rf, out := out } := by
  unfold raise
  obtain ⟨rf, h⟩ := logEv_frame p b (setEv b (evOf s p)).seq { s with rf.ev := sset {} s.rf.ev p (setEv b (evOf s p)) }
  obtain ⟨out, h'⟩ := msixOnRise_frame (irqOn s p) p (logEv p b (setEv b (evOf s p)).seq { s with rf.ev := sset {} s.rf.ev p (setEv b (evOf s p)) })
  refine ⟨rf, out, ?_⟩
  rw [h', h]

theorem raiseOpt_frame (p : Nat) (b : Option Nat) (s : State) : ∃ rf out, raiseOpt p b s = { s with rf := rf, out := out } := by
  cases b with
  | none => exact ⟨s.rf, s.out, rfl⟩
  | some b => exact raise_frame p b s

/-- A write that reaches a page at most breaks a guarded pair there (R617). -/
theorem touchPage_frame (p : Nat) (s : State) : ∃ rf out, touchPage p s = { s with rf := rf, out := out } := by
  unfold touchPage
  split
  · exact ⟨s.rf, s.out, rfl⟩
  · obtain ⟨rf, out, h⟩ := raiseOpt_frame p ((blockOf { s with rf.guard := sset none s.rf.guard p none } p).bind guardFailBit)
      { s with rf.guard := sset none s.rf.guard p none }
    exact ⟨rf, out, h⟩

theorem cfgWhileEn_frame (p : Nat) (s : State) : ∃ rf out, cfgWhileEn p s = { s with rf := rf, out := out } :=
  raiseOpt_frame p _ s

theorem secEvent_frame (s : State) : ∃ rf out, secEvent s = { s with rf := rf, out := out } := by
  obtain ⟨rf, out, h⟩ := raise_frame pgVLT 3 (bump pgVLT 0xA1C 1 s)
  exact ⟨rf, out, h⟩

theorem accessFault_frame (r : Requester) (k : AfKind) (w : Bool) (i o e : Nat) (s : State) :
    ∃ rf out, accessFault r k w i o e s = { s with rf := rf, out := out } := by
  obtain ⟨rf, out, h⟩ := raise_frame e (if k = .xdom then 15 else 14) (bump pgTOP 0xA10 1 (rset s pgTOP 0x640
    (BitVec.ofNat 32 (4 * (o % 4096 / 4) + 4096 * (i % 1024) + afCode k * 2 ^ 22 + srcCode r * 2 ^ 25 + b2n w * 2 ^ 31))))
  exact ⟨rf, out, h⟩

/-- With no guarded pair pending on it a page is not disturbed by a write to it. -/
theorem touchPage_none {p : Nat} {s : State} (h : sget none s.rf.guard p = none) : touchPage p s = s := by
  unfold touchPage; rw [h]

/-! ### Field by field -/

@[simp] theorem raise_variant (p b : Nat) (s : State) : (raise p b s).variant = s.variant := by
  obtain ⟨_, _, h⟩ := raise_frame p b s; rw [h]
@[simp] theorem raise_clk (p b : Nat) (s : State) : (raise p b s).clk = s.clk := by
  obtain ⟨_, _, h⟩ := raise_frame p b s; rw [h]
@[simp] theorem raise_pins (p b : Nat) (s : State) : (raise p b s).pins = s.pins := by
  obtain ⟨_, _, h⟩ := raise_frame p b s; rw [h]
@[simp] theorem raise_host (p b : Nat) (s : State) : (raise p b s).host = s.host := by
  obtain ⟨_, _, h⟩ := raise_frame p b s; rw [h]
@[simp] theorem raise_dma (p b : Nat) (s : State) : (raise p b s).dma = s.dma := by
  obtain ⟨_, _, h⟩ := raise_frame p b s; rw [h]
@[simp] theorem raise_mem (p b : Nat) (s : State) : (raise p b s).mem = s.mem := by
  obtain ⟨_, _, h⟩ := raise_frame p b s; rw [h]
@[simp] theorem raise_net (p b : Nat) (s : State) : (raise p b s).net = s.net := by
  obtain ⟨_, _, h⟩ := raise_frame p b s; rw [h]
@[simp] theorem raise_ts (p b : Nat) (s : State) : (raise p b s).ts = s.ts := by
  obtain ⟨_, _, h⟩ := raise_frame p b s; rw [h]
@[simp] theorem raise_vlt (p b : Nat) (s : State) : (raise p b s).vlt = s.vlt := by
  obtain ⟨_, _, h⟩ := raise_frame p b s; rw [h]
@[simp] theorem raise_rcd (p b : Nat) (s : State) : (raise p b s).rcd = s.rcd := by
  obtain ⟨_, _, h⟩ := raise_frame p b s; rw [h]
@[simp] theorem raise_bas (p b : Nat) (s : State) : (raise p b s).bas = s.bas := by
  obtain ⟨_, _, h⟩ := raise_frame p b s; rw [h]
@[simp] theorem raise_cart (p b : Nat) (s : State) : (raise p b s).cart = s.cart := by
  obtain ⟨_, _, h⟩ := raise_frame p b s; rw [h]
@[simp] theorem raise_trk (p b : Nat) (s : State) : (raise p b s).trk = s.trk := by
  obtain ⟨_, _, h⟩ := raise_frame p b s; rw [h]
@[simp] theorem raise_tim (p b : Nat) (s : State) : (raise p b s).tim = s.tim := by
  obtain ⟨_, _, h⟩ := raise_frame p b s; rw [h]
@[simp] theorem raise_mot (p b : Nat) (s : State) : (raise p b s).mot = s.mot := by
  obtain ⟨_, _, h⟩ := raise_frame p b s; rw [h]
@[simp] theorem raise_trc (p b : Nat) (s : State) : (raise p b s).trc = s.trc := by
  obtain ⟨_, _, h⟩ := raise_frame p b s; rw [h]
@[simp] theorem raise_lat (p b : Nat) (s : State) : (raise p b s).lat = s.lat := by
  obtain ⟨_, _, h⟩ := raise_frame p b s; rw [h]
@[simp] theorem raise_itg (p b : Nat) (s : State) : (raise p b s).itg = s.itg := by
  obtain ⟨_, _, h⟩ := raise_frame p b s; rw [h]
@[simp] theorem raise_top (p b : Nat) (s : State) : (raise p b s).top = s.top := by
  obtain ⟨_, _, h⟩ := raise_frame p b s; rw [h]
@[simp] theorem raise_prb (p b : Nat) (s : State) : (raise p b s).prb = s.prb := by
  obtain ⟨_, _, h⟩ := raise_frame p b s; rw [h]
@[simp] theorem raise_hwl (p b : Nat) (s : State) : (raise p b s).hwl = s.hwl := by
  obtain ⟨_, _, h⟩ := raise_frame p b s; rw [h]
@[simp] theorem raise_pending (p b : Nat) (s : State) : (raise p b s).pending = s.pending := by
  obtain ⟨_, _, h⟩ := raise_frame p b s; rw [h]

@[simp] theorem raiseOpt_variant (p : Nat) (b : Option Nat) (s : State) : (raiseOpt p b s).variant = s.variant := by
  obtain ⟨_, _, h⟩ := raiseOpt_frame p b s; rw [h]
@[simp] theorem raiseOpt_clk (p : Nat) (b : Option Nat) (s : State) : (raiseOpt p b s).clk = s.clk := by
  obtain ⟨_, _, h⟩ := raiseOpt_frame p b s; rw [h]
@[simp] theorem raiseOpt_pins (p : Nat) (b : Option Nat) (s : State) : (raiseOpt p b s).pins = s.pins := by
  obtain ⟨_, _, h⟩ := raiseOpt_frame p b s; rw [h]
@[simp] theorem raiseOpt_host (p : Nat) (b : Option Nat) (s : State) : (raiseOpt p b s).host = s.host := by
  obtain ⟨_, _, h⟩ := raiseOpt_frame p b s; rw [h]
@[simp] theorem raiseOpt_dma (p : Nat) (b : Option Nat) (s : State) : (raiseOpt p b s).dma = s.dma := by
  obtain ⟨_, _, h⟩ := raiseOpt_frame p b s; rw [h]
@[simp] theorem raiseOpt_mem (p : Nat) (b : Option Nat) (s : State) : (raiseOpt p b s).mem = s.mem := by
  obtain ⟨_, _, h⟩ := raiseOpt_frame p b s; rw [h]
@[simp] theorem raiseOpt_net (p : Nat) (b : Option Nat) (s : State) : (raiseOpt p b s).net = s.net := by
  obtain ⟨_, _, h⟩ := raiseOpt_frame p b s; rw [h]
@[simp] theorem raiseOpt_ts (p : Nat) (b : Option Nat) (s : State) : (raiseOpt p b s).ts = s.ts := by
  obtain ⟨_, _, h⟩ := raiseOpt_frame p b s; rw [h]
@[simp] theorem raiseOpt_vlt (p : Nat) (b : Option Nat) (s : State) : (raiseOpt p b s).vlt = s.vlt := by
  obtain ⟨_, _, h⟩ := raiseOpt_frame p b s; rw [h]
@[simp] theorem raiseOpt_rcd (p : Nat) (b : Option Nat) (s : State) : (raiseOpt p b s).rcd = s.rcd := by
  obtain ⟨_, _, h⟩ := raiseOpt_frame p b s; rw [h]
@[simp] theorem raiseOpt_bas (p : Nat) (b : Option Nat) (s : State) : (raiseOpt p b s).bas = s.bas := by
  obtain ⟨_, _, h⟩ := raiseOpt_frame p b s; rw [h]
@[simp] theorem raiseOpt_cart (p : Nat) (b : Option Nat) (s : State) : (raiseOpt p b s).cart = s.cart := by
  obtain ⟨_, _, h⟩ := raiseOpt_frame p b s; rw [h]
@[simp] theorem raiseOpt_trk (p : Nat) (b : Option Nat) (s : State) : (raiseOpt p b s).trk = s.trk := by
  obtain ⟨_, _, h⟩ := raiseOpt_frame p b s; rw [h]
@[simp] theorem raiseOpt_tim (p : Nat) (b : Option Nat) (s : State) : (raiseOpt p b s).tim = s.tim := by
  obtain ⟨_, _, h⟩ := raiseOpt_frame p b s; rw [h]
@[simp] theorem raiseOpt_mot (p : Nat) (b : Option Nat) (s : State) : (raiseOpt p b s).mot = s.mot := by
  obtain ⟨_, _, h⟩ := raiseOpt_frame p b s; rw [h]
@[simp] theorem raiseOpt_trc (p : Nat) (b : Option Nat) (s : State) : (raiseOpt p b s).trc = s.trc := by
  obtain ⟨_, _, h⟩ := raiseOpt_frame p b s; rw [h]
@[simp] theorem raiseOpt_lat (p : Nat) (b : Option Nat) (s : State) : (raiseOpt p b s).lat = s.lat := by
  obtain ⟨_, _, h⟩ := raiseOpt_frame p b s; rw [h]
@[simp] theorem raiseOpt_itg (p : Nat) (b : Option Nat) (s : State) : (raiseOpt p b s).itg = s.itg := by
  obtain ⟨_, _, h⟩ := raiseOpt_frame p b s; rw [h]
@[simp] theorem raiseOpt_top (p : Nat) (b : Option Nat) (s : State) : (raiseOpt p b s).top = s.top := by
  obtain ⟨_, _, h⟩ := raiseOpt_frame p b s; rw [h]
@[simp] theorem raiseOpt_prb (p : Nat) (b : Option Nat) (s : State) : (raiseOpt p b s).prb = s.prb := by
  obtain ⟨_, _, h⟩ := raiseOpt_frame p b s; rw [h]
@[simp] theorem raiseOpt_hwl (p : Nat) (b : Option Nat) (s : State) : (raiseOpt p b s).hwl = s.hwl := by
  obtain ⟨_, _, h⟩ := raiseOpt_frame p b s; rw [h]
@[simp] theorem raiseOpt_pending (p : Nat) (b : Option Nat) (s : State) : (raiseOpt p b s).pending = s.pending := by
  obtain ⟨_, _, h⟩ := raiseOpt_frame p b s; rw [h]

@[simp] theorem touchPage_variant (p : Nat) (s : State) : (touchPage p s).variant = s.variant := by
  obtain ⟨_, _, h⟩ := touchPage_frame p s; rw [h]
@[simp] theorem touchPage_clk (p : Nat) (s : State) : (touchPage p s).clk = s.clk := by
  obtain ⟨_, _, h⟩ := touchPage_frame p s; rw [h]
@[simp] theorem touchPage_pins (p : Nat) (s : State) : (touchPage p s).pins = s.pins := by
  obtain ⟨_, _, h⟩ := touchPage_frame p s; rw [h]
@[simp] theorem touchPage_host (p : Nat) (s : State) : (touchPage p s).host = s.host := by
  obtain ⟨_, _, h⟩ := touchPage_frame p s; rw [h]
@[simp] theorem touchPage_dma (p : Nat) (s : State) : (touchPage p s).dma = s.dma := by
  obtain ⟨_, _, h⟩ := touchPage_frame p s; rw [h]
@[simp] theorem touchPage_mem (p : Nat) (s : State) : (touchPage p s).mem = s.mem := by
  obtain ⟨_, _, h⟩ := touchPage_frame p s; rw [h]
@[simp] theorem touchPage_net (p : Nat) (s : State) : (touchPage p s).net = s.net := by
  obtain ⟨_, _, h⟩ := touchPage_frame p s; rw [h]
@[simp] theorem touchPage_ts (p : Nat) (s : State) : (touchPage p s).ts = s.ts := by
  obtain ⟨_, _, h⟩ := touchPage_frame p s; rw [h]
@[simp] theorem touchPage_vlt (p : Nat) (s : State) : (touchPage p s).vlt = s.vlt := by
  obtain ⟨_, _, h⟩ := touchPage_frame p s; rw [h]
@[simp] theorem touchPage_rcd (p : Nat) (s : State) : (touchPage p s).rcd = s.rcd := by
  obtain ⟨_, _, h⟩ := touchPage_frame p s; rw [h]
@[simp] theorem touchPage_bas (p : Nat) (s : State) : (touchPage p s).bas = s.bas := by
  obtain ⟨_, _, h⟩ := touchPage_frame p s; rw [h]
@[simp] theorem touchPage_cart (p : Nat) (s : State) : (touchPage p s).cart = s.cart := by
  obtain ⟨_, _, h⟩ := touchPage_frame p s; rw [h]
@[simp] theorem touchPage_trk (p : Nat) (s : State) : (touchPage p s).trk = s.trk := by
  obtain ⟨_, _, h⟩ := touchPage_frame p s; rw [h]
@[simp] theorem touchPage_tim (p : Nat) (s : State) : (touchPage p s).tim = s.tim := by
  obtain ⟨_, _, h⟩ := touchPage_frame p s; rw [h]
@[simp] theorem touchPage_mot (p : Nat) (s : State) : (touchPage p s).mot = s.mot := by
  obtain ⟨_, _, h⟩ := touchPage_frame p s; rw [h]
@[simp] theorem touchPage_trc (p : Nat) (s : State) : (touchPage p s).trc = s.trc := by
  obtain ⟨_, _, h⟩ := touchPage_frame p s; rw [h]
@[simp] theorem touchPage_lat (p : Nat) (s : State) : (touchPage p s).lat = s.lat := by
  obtain ⟨_, _, h⟩ := touchPage_frame p s; rw [h]
@[simp] theorem touchPage_itg (p : Nat) (s : State) : (touchPage p s).itg = s.itg := by
  obtain ⟨_, _, h⟩ := touchPage_frame p s; rw [h]
@[simp] theorem touchPage_top (p : Nat) (s : State) : (touchPage p s).top = s.top := by
  obtain ⟨_, _, h⟩ := touchPage_frame p s; rw [h]
@[simp] theorem touchPage_prb (p : Nat) (s : State) : (touchPage p s).prb = s.prb := by
  obtain ⟨_, _, h⟩ := touchPage_frame p s; rw [h]
@[simp] theorem touchPage_hwl (p : Nat) (s : State) : (touchPage p s).hwl = s.hwl := by
  obtain ⟨_, _, h⟩ := touchPage_frame p s; rw [h]
@[simp] theorem touchPage_pending (p : Nat) (s : State) : (touchPage p s).pending = s.pending := by
  obtain ⟨_, _, h⟩ := touchPage_frame p s; rw [h]

@[simp] theorem cfgWhileEn_variant (p : Nat) (s : State) : (cfgWhileEn p s).variant = s.variant := by
  obtain ⟨_, _, h⟩ := cfgWhileEn_frame p s; rw [h]
@[simp] theorem cfgWhileEn_clk (p : Nat) (s : State) : (cfgWhileEn p s).clk = s.clk := by
  obtain ⟨_, _, h⟩ := cfgWhileEn_frame p s; rw [h]
@[simp] theorem cfgWhileEn_pins (p : Nat) (s : State) : (cfgWhileEn p s).pins = s.pins := by
  obtain ⟨_, _, h⟩ := cfgWhileEn_frame p s; rw [h]
@[simp] theorem cfgWhileEn_host (p : Nat) (s : State) : (cfgWhileEn p s).host = s.host := by
  obtain ⟨_, _, h⟩ := cfgWhileEn_frame p s; rw [h]
@[simp] theorem cfgWhileEn_dma (p : Nat) (s : State) : (cfgWhileEn p s).dma = s.dma := by
  obtain ⟨_, _, h⟩ := cfgWhileEn_frame p s; rw [h]
@[simp] theorem cfgWhileEn_mem (p : Nat) (s : State) : (cfgWhileEn p s).mem = s.mem := by
  obtain ⟨_, _, h⟩ := cfgWhileEn_frame p s; rw [h]
@[simp] theorem cfgWhileEn_net (p : Nat) (s : State) : (cfgWhileEn p s).net = s.net := by
  obtain ⟨_, _, h⟩ := cfgWhileEn_frame p s; rw [h]
@[simp] theorem cfgWhileEn_ts (p : Nat) (s : State) : (cfgWhileEn p s).ts = s.ts := by
  obtain ⟨_, _, h⟩ := cfgWhileEn_frame p s; rw [h]
@[simp] theorem cfgWhileEn_vlt (p : Nat) (s : State) : (cfgWhileEn p s).vlt = s.vlt := by
  obtain ⟨_, _, h⟩ := cfgWhileEn_frame p s; rw [h]
@[simp] theorem cfgWhileEn_rcd (p : Nat) (s : State) : (cfgWhileEn p s).rcd = s.rcd := by
  obtain ⟨_, _, h⟩ := cfgWhileEn_frame p s; rw [h]
@[simp] theorem cfgWhileEn_bas (p : Nat) (s : State) : (cfgWhileEn p s).bas = s.bas := by
  obtain ⟨_, _, h⟩ := cfgWhileEn_frame p s; rw [h]
@[simp] theorem cfgWhileEn_cart (p : Nat) (s : State) : (cfgWhileEn p s).cart = s.cart := by
  obtain ⟨_, _, h⟩ := cfgWhileEn_frame p s; rw [h]
@[simp] theorem cfgWhileEn_trk (p : Nat) (s : State) : (cfgWhileEn p s).trk = s.trk := by
  obtain ⟨_, _, h⟩ := cfgWhileEn_frame p s; rw [h]
@[simp] theorem cfgWhileEn_tim (p : Nat) (s : State) : (cfgWhileEn p s).tim = s.tim := by
  obtain ⟨_, _, h⟩ := cfgWhileEn_frame p s; rw [h]
@[simp] theorem cfgWhileEn_mot (p : Nat) (s : State) : (cfgWhileEn p s).mot = s.mot := by
  obtain ⟨_, _, h⟩ := cfgWhileEn_frame p s; rw [h]
@[simp] theorem cfgWhileEn_trc (p : Nat) (s : State) : (cfgWhileEn p s).trc = s.trc := by
  obtain ⟨_, _, h⟩ := cfgWhileEn_frame p s; rw [h]
@[simp] theorem cfgWhileEn_lat (p : Nat) (s : State) : (cfgWhileEn p s).lat = s.lat := by
  obtain ⟨_, _, h⟩ := cfgWhileEn_frame p s; rw [h]
@[simp] theorem cfgWhileEn_itg (p : Nat) (s : State) : (cfgWhileEn p s).itg = s.itg := by
  obtain ⟨_, _, h⟩ := cfgWhileEn_frame p s; rw [h]
@[simp] theorem cfgWhileEn_top (p : Nat) (s : State) : (cfgWhileEn p s).top = s.top := by
  obtain ⟨_, _, h⟩ := cfgWhileEn_frame p s; rw [h]
@[simp] theorem cfgWhileEn_prb (p : Nat) (s : State) : (cfgWhileEn p s).prb = s.prb := by
  obtain ⟨_, _, h⟩ := cfgWhileEn_frame p s; rw [h]
@[simp] theorem cfgWhileEn_hwl (p : Nat) (s : State) : (cfgWhileEn p s).hwl = s.hwl := by
  obtain ⟨_, _, h⟩ := cfgWhileEn_frame p s; rw [h]
@[simp] theorem cfgWhileEn_pending (p : Nat) (s : State) : (cfgWhileEn p s).pending = s.pending := by
  obtain ⟨_, _, h⟩ := cfgWhileEn_frame p s; rw [h]

@[simp] theorem secEvent_variant (s : State) : (secEvent s).variant = s.variant := by
  obtain ⟨_, _, h⟩ := secEvent_frame s; rw [h]
@[simp] theorem secEvent_clk (s : State) : (secEvent s).clk = s.clk := by
  obtain ⟨_, _, h⟩ := secEvent_frame s; rw [h]
@[simp] theorem secEvent_pins (s : State) : (secEvent s).pins = s.pins := by
  obtain ⟨_, _, h⟩ := secEvent_frame s; rw [h]
@[simp] theorem secEvent_host (s : State) : (secEvent s).host = s.host := by
  obtain ⟨_, _, h⟩ := secEvent_frame s; rw [h]
@[simp] theorem secEvent_dma (s : State) : (secEvent s).dma = s.dma := by
  obtain ⟨_, _, h⟩ := secEvent_frame s; rw [h]
@[simp] theorem secEvent_mem (s : State) : (secEvent s).mem = s.mem := by
  obtain ⟨_, _, h⟩ := secEvent_frame s; rw [h]
@[simp] theorem secEvent_net (s : State) : (secEvent s).net = s.net := by
  obtain ⟨_, _, h⟩ := secEvent_frame s; rw [h]
@[simp] theorem secEvent_ts (s : State) : (secEvent s).ts = s.ts := by
  obtain ⟨_, _, h⟩ := secEvent_frame s; rw [h]
@[simp] theorem secEvent_vlt (s : State) : (secEvent s).vlt = s.vlt := by
  obtain ⟨_, _, h⟩ := secEvent_frame s; rw [h]
@[simp] theorem secEvent_rcd (s : State) : (secEvent s).rcd = s.rcd := by
  obtain ⟨_, _, h⟩ := secEvent_frame s; rw [h]
@[simp] theorem secEvent_bas (s : State) : (secEvent s).bas = s.bas := by
  obtain ⟨_, _, h⟩ := secEvent_frame s; rw [h]
@[simp] theorem secEvent_cart (s : State) : (secEvent s).cart = s.cart := by
  obtain ⟨_, _, h⟩ := secEvent_frame s; rw [h]
@[simp] theorem secEvent_trk (s : State) : (secEvent s).trk = s.trk := by
  obtain ⟨_, _, h⟩ := secEvent_frame s; rw [h]
@[simp] theorem secEvent_tim (s : State) : (secEvent s).tim = s.tim := by
  obtain ⟨_, _, h⟩ := secEvent_frame s; rw [h]
@[simp] theorem secEvent_mot (s : State) : (secEvent s).mot = s.mot := by
  obtain ⟨_, _, h⟩ := secEvent_frame s; rw [h]
@[simp] theorem secEvent_trc (s : State) : (secEvent s).trc = s.trc := by
  obtain ⟨_, _, h⟩ := secEvent_frame s; rw [h]
@[simp] theorem secEvent_lat (s : State) : (secEvent s).lat = s.lat := by
  obtain ⟨_, _, h⟩ := secEvent_frame s; rw [h]
@[simp] theorem secEvent_itg (s : State) : (secEvent s).itg = s.itg := by
  obtain ⟨_, _, h⟩ := secEvent_frame s; rw [h]
@[simp] theorem secEvent_top (s : State) : (secEvent s).top = s.top := by
  obtain ⟨_, _, h⟩ := secEvent_frame s; rw [h]
@[simp] theorem secEvent_prb (s : State) : (secEvent s).prb = s.prb := by
  obtain ⟨_, _, h⟩ := secEvent_frame s; rw [h]
@[simp] theorem secEvent_hwl (s : State) : (secEvent s).hwl = s.hwl := by
  obtain ⟨_, _, h⟩ := secEvent_frame s; rw [h]
@[simp] theorem secEvent_pending (s : State) : (secEvent s).pending = s.pending := by
  obtain ⟨_, _, h⟩ := secEvent_frame s; rw [h]

@[simp] theorem accessFault_variant (r : Requester) (k : AfKind) (w : Bool) (i o e : Nat) (s : State) : (accessFault r k w i o e s).variant = s.variant := by
  obtain ⟨_, _, h⟩ := accessFault_frame r k w i o e s; rw [h]
@[simp] theorem accessFault_clk (r : Requester) (k : AfKind) (w : Bool) (i o e : Nat) (s : State) : (accessFault r k w i o e s).clk = s.clk := by
  obtain ⟨_, _, h⟩ := accessFault_frame r k w i o e s; rw [h]
@[simp] theorem accessFault_pins (r : Requester) (k : AfKind) (w : Bool) (i o e : Nat) (s : State) : (accessFault r k w i o e s).pins = s.pins := by
  obtain ⟨_, _, h⟩ := accessFault_frame r k w i o e s; rw [h]
@[simp] theorem accessFault_host (r : Requester) (k : AfKind) (w : Bool) (i o e : Nat) (s : State) : (accessFault r k w i o e s).host = s.host := by
  obtain ⟨_, _, h⟩ := accessFault_frame r k w i o e s; rw [h]
@[simp] theorem accessFault_dma (r : Requester) (k : AfKind) (w : Bool) (i o e : Nat) (s : State) : (accessFault r k w i o e s).dma = s.dma := by
  obtain ⟨_, _, h⟩ := accessFault_frame r k w i o e s; rw [h]
@[simp] theorem accessFault_mem (r : Requester) (k : AfKind) (w : Bool) (i o e : Nat) (s : State) : (accessFault r k w i o e s).mem = s.mem := by
  obtain ⟨_, _, h⟩ := accessFault_frame r k w i o e s; rw [h]
@[simp] theorem accessFault_net (r : Requester) (k : AfKind) (w : Bool) (i o e : Nat) (s : State) : (accessFault r k w i o e s).net = s.net := by
  obtain ⟨_, _, h⟩ := accessFault_frame r k w i o e s; rw [h]
@[simp] theorem accessFault_ts (r : Requester) (k : AfKind) (w : Bool) (i o e : Nat) (s : State) : (accessFault r k w i o e s).ts = s.ts := by
  obtain ⟨_, _, h⟩ := accessFault_frame r k w i o e s; rw [h]
@[simp] theorem accessFault_vlt (r : Requester) (k : AfKind) (w : Bool) (i o e : Nat) (s : State) : (accessFault r k w i o e s).vlt = s.vlt := by
  obtain ⟨_, _, h⟩ := accessFault_frame r k w i o e s; rw [h]
@[simp] theorem accessFault_rcd (r : Requester) (k : AfKind) (w : Bool) (i o e : Nat) (s : State) : (accessFault r k w i o e s).rcd = s.rcd := by
  obtain ⟨_, _, h⟩ := accessFault_frame r k w i o e s; rw [h]
@[simp] theorem accessFault_bas (r : Requester) (k : AfKind) (w : Bool) (i o e : Nat) (s : State) : (accessFault r k w i o e s).bas = s.bas := by
  obtain ⟨_, _, h⟩ := accessFault_frame r k w i o e s; rw [h]
@[simp] theorem accessFault_cart (r : Requester) (k : AfKind) (w : Bool) (i o e : Nat) (s : State) : (accessFault r k w i o e s).cart = s.cart := by
  obtain ⟨_, _, h⟩ := accessFault_frame r k w i o e s; rw [h]
@[simp] theorem accessFault_trk (r : Requester) (k : AfKind) (w : Bool) (i o e : Nat) (s : State) : (accessFault r k w i o e s).trk = s.trk := by
  obtain ⟨_, _, h⟩ := accessFault_frame r k w i o e s; rw [h]
@[simp] theorem accessFault_tim (r : Requester) (k : AfKind) (w : Bool) (i o e : Nat) (s : State) : (accessFault r k w i o e s).tim = s.tim := by
  obtain ⟨_, _, h⟩ := accessFault_frame r k w i o e s; rw [h]
@[simp] theorem accessFault_mot (r : Requester) (k : AfKind) (w : Bool) (i o e : Nat) (s : State) : (accessFault r k w i o e s).mot = s.mot := by
  obtain ⟨_, _, h⟩ := accessFault_frame r k w i o e s; rw [h]
@[simp] theorem accessFault_trc (r : Requester) (k : AfKind) (w : Bool) (i o e : Nat) (s : State) : (accessFault r k w i o e s).trc = s.trc := by
  obtain ⟨_, _, h⟩ := accessFault_frame r k w i o e s; rw [h]
@[simp] theorem accessFault_lat (r : Requester) (k : AfKind) (w : Bool) (i o e : Nat) (s : State) : (accessFault r k w i o e s).lat = s.lat := by
  obtain ⟨_, _, h⟩ := accessFault_frame r k w i o e s; rw [h]
@[simp] theorem accessFault_itg (r : Requester) (k : AfKind) (w : Bool) (i o e : Nat) (s : State) : (accessFault r k w i o e s).itg = s.itg := by
  obtain ⟨_, _, h⟩ := accessFault_frame r k w i o e s; rw [h]
@[simp] theorem accessFault_top (r : Requester) (k : AfKind) (w : Bool) (i o e : Nat) (s : State) : (accessFault r k w i o e s).top = s.top := by
  obtain ⟨_, _, h⟩ := accessFault_frame r k w i o e s; rw [h]
@[simp] theorem accessFault_prb (r : Requester) (k : AfKind) (w : Bool) (i o e : Nat) (s : State) : (accessFault r k w i o e s).prb = s.prb := by
  obtain ⟨_, _, h⟩ := accessFault_frame r k w i o e s; rw [h]
@[simp] theorem accessFault_hwl (r : Requester) (k : AfKind) (w : Bool) (i o e : Nat) (s : State) : (accessFault r k w i o e s).hwl = s.hwl := by
  obtain ⟨_, _, h⟩ := accessFault_frame r k w i o e s; rw [h]
@[simp] theorem accessFault_pending (r : Requester) (k : AfKind) (w : Bool) (i o e : Nat) (s : State) : (accessFault r k w i o e s).pending = s.pending := by
  obtain ⟨_, _, h⟩ := accessFault_frame r k w i o e s; rw [h]

/-! ### Events -/

theorem logEv_ev (p b : Nat) (q : BitVec 16) (s : State) : (logEv p b q s).rf.ev = s.rf.ev := by
  unfold logEv
  split
  · split
    · rfl
    · unfold logEv.logNew; split <;> rfl
  · unfold logEv.logNew; split <;> rfl

theorem logEv_regs (p b : Nat) (q : BitVec 16) (s : State) : (logEv p b q s).rf.regs = s.rf.regs := by
  unfold logEv
  split
  · split
    · rfl
    · unfold logEv.logNew; split <;> rfl
  · unfold logEv.logNew; split <;> rfl

theorem msixOnRise_rf (was : Bool) (p : Nat) (s : State) : (msixOnRise was p s).rf = s.rf := by
  unfold msixOnRise; split <;> rfl

/-- Raising an event leaves every register as it stands. -/
@[simp] theorem raise_regs (p b : Nat) (s : State) : (raise p b s).rf.regs = s.rf.regs := by
  simp only [raise, msixOnRise_rf, logEv_regs]

@[simp] theorem rget_raise (p b q o : Nat) (s : State) : rget (raise p b s) q o = rget s q o := by
  simp only [rget, raise_regs]

theorem setEv_pend (b : Nat) (hb : b < 16) (e : EvPage) : (setEv b e).pend.getLsbD b = true := by
  have h : (BitVec.ofNat 16 (2 ^ b)).getLsbD b = true := by interval_cases b <;> decide
  show (e.pend ||| BitVec.ofNat 16 (2 ^ b)).getLsbD b = true
  rw [BitVec.getLsbD_or, h, Bool.or_true]

/-- A page's events after one of them is raised are never those of reset. -/
theorem setEv_ne (b : Nat) (hb : b < 16) (e : EvPage) : setEv b e ≠ {} := by
  intro h
  have := setEv_pend b hb e
  rw [h] at this
  simp at this

theorem evOf_raise_self (p b : Nat) (hb : b < 16) (s : State) : evOf (raise p b s) p = setEv b (evOf s p) := by
  simp only [evOf, raise, msixOnRise_rf, logEv_ev]
  exact sget_sset_eq _ _ _ _ (setEv_ne b hb _)

theorem evOf_raise_other (p b q : Nat) (hb : b < 16) (hq : q ≠ p) (s : State) : evOf (raise p b s) q = evOf s q := by
  simp only [evOf, raise, msixOnRise_rf, logEv_ev]
  exact sget_sset_ne _ _ _ _ _ (setEv_ne b hb _) hq

/-- A raised event is pending. -/
theorem evPending_raise_self (p b : Nat) (hb : b < 16) (s : State) : evPending (raise p b s) p b = true := by
  rw [evPending, evOf_raise_self p b hb s]
  exact setEv_pend b hb _

/-- Raising one event leaves what is pending pending. -/
theorem evPending_raise_keep (p b q c : Nat) (hb : b < 16) (s : State) (h : evPending s q c = true) :
    evPending (raise p b s) q c = true := by
  by_cases hq : q = p
  · subst hq
    rw [evPending, evOf_raise_self q b hb s]
    have hh : (evOf s q).pend.getLsbD c = true := h
    simp [setEv, hh]
  · rw [evPending, evOf_raise_other p b q hb hq s]; exact h

end Sys2Proof.Machine
end

