-- ==== Sys2Proof/Laws/Memory.lean ====
section
/-! SUPPORT. The operations that write the byte memories keep them in their canonical form, and reset has it. -/

namespace Sys2Proof.Machine

theorem reset_wf : Memory.wf State.reset.mem = true := by decide

/-- The six memories one by one. -/
theorem wf_iff (m : Mems) : Memory.wf m = true ↔ swf (fun _ => 0) m.staging = true ∧ swf (fun _ => 0) m.coreMem = true ∧
    swf (fun _ => 0) m.sysRegion = true ∧ swf (fun _ => 0) m.dump = true ∧ swf (fun _ => 0) m.mramFw = true ∧
    swf (fun _ => 0xFF) m.flash = true := by
  simp [Memory.wf, and_assoc]

theorem foldl_mem {α : Type} (f : State → α → State) (h : ∀ s a, (f s a).mem = s.mem) (l : List α) (s : State) :
    (l.foldl f s).mem = s.mem := by
  induction l generalizing s with
  | nil => rfl
  | cons x r ih => rw [List.foldl_cons, ih, h]

/-- Smashed link headers are no bytes of memory. -/
@[simp] theorem smash_mem (a k : Nat) (s : State) : (smash a k s).mem = s.mem := by
  unfold smash
  refine foldl_mem _ (fun s p => ?_) _ _
  refine foldl_mem _ (fun s j => ?_) _ _
  dsimp only
  split <;> rfl

@[simp] theorem badWord_mem (m a : Nat) (s : State) : (badWord m a s).mem = s.mem := by
  unfold badWord; split <;> rfl

/-- Items that a staging write reaches are no bytes of memory. -/
@[simp] theorem ringStore_mem (a : Nat) (bs : List Byte) (s : State) : (ringStore a bs s).mem = s.mem := by
  unfold ringStore
  refine foldl_mem _ (fun s p => ?_) _ _
  dsimp only
  split <;> rfl

/-- A staging write changes the staging bytes alone of all memory. -/
@[simp] theorem stagingWrite_mem (a : Nat) (bs : List Byte) (s : State) :
    (stagingWrite a bs s).mem = { s.mem with staging := writeBytes 0 s.mem.staging a bs } := by
  rw [stagingWrite, ringStore_mem, smash_mem]

/-- A write of on-chip bytes keeps the form (R437). -/
theorem spaceWrite_wf (sp : BitVec 3) (a : Nat) (bs : List Byte) {s : State} (h : Memory.wf s.mem = true) :
    Memory.wf (spaceWrite sp a bs s).mem = true := by
  rw [wf_iff] at h ⊢
  obtain ⟨h1, h2, h3, h4, h5, h6⟩ := h
  unfold spaceWrite
  dsimp only
  split
  · rw [stagingWrite_mem]; exact ⟨swf_writeBytes h1 _ _, h2, h3, h4, h5, h6⟩
  · exact ⟨h1, swf_writeBytes h2 _ _, h3, h4, h5, h6⟩
  · exact ⟨h1, h2, swf_writeBytes h3 _ _, h4, h5, h6⟩
  · exact ⟨h1, h2, h3, h4, h5, h6⟩

/-- A read takes nothing from memory; a free value may be drawn for it (log 20). -/
theorem spaceRead_mem (sp : BitVec 3) (a k : Nat) (s : State) : (spaceRead sp a k s).2.mem = s.mem := by
  unfold spaceRead
  split
  · dsimp only
    split <;> rfl
  · rfl
  · rfl
  · rfl

/-- A core's store keeps the form (R567). -/
theorem coreStore_wf (h : Fin 4) (x : CoreStore) {s : State} (w : Memory.wf s.mem = true) : Memory.wf (coreStore h x s).mem = true := by
  rw [wf_iff] at w ⊢
  obtain ⟨h1, h2, h3, h4, h5, h6⟩ := w
  unfold coreStore
  dsimp only
  split
  · split <;> exact ⟨h1, h2, h3, h4, h5, h6⟩
  · exact ⟨h1, swf_writeBytes h2 _ _, h3, h4, h5, h6⟩
  · rw [stagingWrite_mem]; exact ⟨swf_writeBytes h1 _ _, h2, h3, h4, h5, h6⟩
  · exact ⟨h1, h2, swf_writeBytes h3 _ _, h4, h5, h6⟩
  · exact ⟨h1, h2, h3, swf_writeBytes h4 _ _, h5, h6⟩
  · exact ⟨h1, h2, h3, h4, swf_writeBytes h5 _ _, h6⟩
  · exact ⟨h1, h2, h3, h4, h5, h6⟩
  · exact ⟨h1, h2, h3, h4, h5, h6⟩

theorem swf_progBytes {m : Sparse Byte} (h : swf (fun _ => (0xFF : Byte)) m = true) (a : Nat) (bs : List Byte) :
    swf (fun _ => (0xFF : Byte)) (progBytes m a bs) = true := by
  induction bs generalizing m a with
  | nil => exact h
  | cons b r ih => exact ih (swf_sset (fun _ => 0xFF) h _ _) _

theorem swf_eraseRange {m : Sparse Byte} (h : swf (fun _ => (0xFF : Byte)) m = true) (a n : Nat) :
    swf (fun _ => (0xFF : Byte)) (eraseRange m a n) = true := swf_filter h _

/-- Another flash content in its form leaves the whole in its form. -/
theorem withFlash_wf {m : Mems} (h : Memory.wf m = true) {f : Sparse Byte}
    (hf : swf (fun _ => (0xFF : Byte)) f = true) : Memory.wf { m with flash := f } = true := by
  rw [wf_iff] at h ⊢
  obtain ⟨h1, h2, h3, h4, h5, _⟩ := h
  exact ⟨h1, h2, h3, h4, h5, hf⟩

theorem wf_flash {m : Mems} (h : Memory.wf m = true) : swf (fun _ => (0xFF : Byte)) m.flash = true :=
  ((wf_iff m).mp h).2.2.2.2.2

/-- The flash operations keep the form (R575). -/
theorem flashDone_wf {s : State} (h : Memory.wf s.mem = true) : Memory.wf (flashDone s).mem = true := by
  unfold flashDone
  split
  · exact h
  · rename_i op a m n _
    have e : (raise pgTOP 2 (setFl 2 0 { s with top.flOp := none })).mem = s.mem := by simp
    revert e
    generalize raise pgTOP 2 (setFl 2 0 { s with top.flOp := none }) = u
    intro e
    rw [← e] at h
    dsimp only
    split
    · exact spaceWrite_wf _ _ _ h
    · have e2 := spaceRead_mem 1 m n u
      revert e2
      generalize spaceRead 1 m n u = r
      intro e2
      rw [← e2] at h
      have hf := wf_flash h
      have hp := swf_progBytes hf a r.1
      exact withFlash_wf h hp
    · exact withFlash_wf h (swf_eraseRange (wf_flash h) _ _)

/-- A committed directory goes into the flash (R571, R575). -/
theorem commitFw_wf {b : Bool} {img : FwImage} {s u : State} (h : Memory.wf s.mem = true) (hu : commitFw b s = some (img, u)) :
    Memory.wf u.mem = true := by
  obtain ⟨x, -, hx⟩ := Option.map_eq_some_iff.mp hu
  cases hx
  exact withFlash_wf h (swf_writeBytes (wf_flash h) _ _)

/-- The image of the cores replaces their memory (R576, R585). -/
theorem bootFirmware_wf (img : FwImage) {s : State} (h : Memory.wf s.mem = true) :
    Memory.wf (bootFirmware img s).mem = true := by
  rw [wf_iff] at h ⊢
  obtain ⟨h1, _, h3, h4, h5, h6⟩ := h
  exact ⟨h1, swf_writeBytes rfl _ _, h3, h4, h5, h6⟩

/-- A power-on reset keeps MRAM and flash, and the rest is empty (R584). -/
theorem powerOn_wf {s : State} (h : Memory.wf s.mem = true) : Memory.wf (powerOn s).mem = true := by
  rw [wf_iff] at h ⊢
  obtain ⟨_, _, _, _, h5, h6⟩ := h
  exact ⟨rfl, rfl, rfl, rfl, h5, h6⟩

/-- A further fatal error is entered in the dump that stands (R555). -/
theorem patchDump_wf (cause : Nat) {s : State} (h : Memory.wf s.mem = true) : Memory.wf (patchDump cause s).mem = true := by
  unfold patchDump
  split
  · exact h
  · rw [wf_iff] at h ⊢
    obtain ⟨h1, h2, h3, h4, h5, h6⟩ := h
    exact ⟨h1, h2, h3, swf_writeBytes (swf_writeBytes (swf_writeBytes (swf_writeBytes h4 _ _) _ _) _ _) _ _, h5, h6⟩

/-- What the repair of a basin word of the system region clears (R545). -/
theorem sysUncorr_wf (a : Nat) (zone : Bool) {s : State} (h : Memory.wf s.mem = true) :
    Memory.wf (sysUncorr a zone s).mem = true := by
  unfold sysUncorr
  have e : ((List.range 4).foldl (fun s k => badWord 3 (a / 8 + k) s) s).mem = s.mem :=
    foldl_mem _ (fun s k => badWord_mem _ _ s) _ _
  dsimp only
  split
  · rw [wf_iff] at h ⊢
    simp only [e]
    obtain ⟨h1, h2, h3, h4, h5, h6⟩ := h
    exact ⟨h1, h2, swf_writeBytes h3 _ _, h4, h5, h6⟩
  · simpa only [e] using h

/-- Another dump content in its form leaves the whole in its form. -/
theorem withDump_wf {m : Mems} (h : Memory.wf m = true) {f : Sparse Byte}
    (hf : swf (fun _ => (0 : Byte)) f = true) : Memory.wf { m with dump := f } = true := by
  rw [wf_iff] at h ⊢
  obtain ⟨h1, h2, h3, _, h5, h6⟩ := h
  exact ⟨h1, h2, h3, hf, h5, h6⟩

theorem wf_dump {m : Mems} (h : Memory.wf m = true) : swf (fun _ => (0 : Byte)) m.dump = true :=
  ((wf_iff m).mp h).2.2.2.1

theorem sabove_of_forall {α : Type} {b : Nat} {m : Sparse α} (h : ∀ y ∈ m, b < y.1) : sabove b m = true := by
  induction m with
  | nil => rfl
  | cons y r ih =>
    obtain ⟨i, v⟩ := y
    simp only [sabove, Bool.and_eq_true, decide_eq_true_eq]
    exact ⟨h (i, v) List.mem_cons_self, ih (fun z hz => h z (List.mem_cons_of_mem _ hz))⟩

/-- A part cut to its size and what lies above it make one table. -/
theorem swf_section {a n b : Nat} (hb : a + n ≤ b) (bs : List Byte) {m : Sparse Byte}
    (hm : swf (fun _ => (0 : Byte)) m = true) (h : ∀ y ∈ m, b ≤ y.1) :
    swf (fun _ => (0 : Byte)) (listCells a (bs.take n) ++ m) = true ∧ ∀ y ∈ listCells a (bs.take n) ++ m, a ≤ y.1 := by
  have key : ∀ x ∈ listCells a (bs.take n), x.1 < b := by
    intro x hx
    have h1 := (mem_listCells hx).2
    have hl : (bs.take n).length ≤ n := by rw [List.length_take]; exact Nat.min_le_left _ _
    omega
  refine ⟨swf_append (swf_listCells _ _) hm (fun x hx => sabove_of_forall (fun y hy => ?_)), fun y hy => ?_⟩
  · exact Nat.lt_of_lt_of_le (key x hx) (h y hy)
  · rcases List.mem_append.mp hy with hy | hy
    · exact (mem_listCells hy).1
    · have := h y hy
      omega

@[simp] theorem signal_mem (f : Fin 64) (v : Nat) (s : State) : (signal f v s).mem = s.mem := rfl

@[simp] theorem dmaEvent_mem (n b : Nat) (s : State) : (dmaEvent n b s).mem = s.mem := by
  unfold dmaEvent
  dsimp only
  split <;> simp

@[simp] theorem markFence_mem (code cause : Nat) (s : State) : (markFence code cause s).mem = s.mem := by
  unfold markFence noteFence
  simp

/-- A halt leaves the descriptor's unwritten bytes undefined, and memory in its form (R438). -/
theorem dmaHalt_wf (n code addr : Nat) (sp : BitVec 3) (wr : Bool) {s : State} (h : Memory.wf s.mem = true) :
    Memory.wf (dmaHalt n code addr sp wr s).mem = true := by
  have hs : Memory.wf (dmaSpoil n s).mem = true := by
    unfold dmaSpoil
    dsimp only
    split
    · exact h
    · exact spaceWrite_wf _ _ _ h
  unfold dmaHalt
  dsimp only
  split <;> simp [hs]

theorem busError_wf (q : Requester) (a : Nat) (w : Bool) {s : State} (h : Memory.wf s.mem = true) :
    Memory.wf (busError q a w s).mem = true := by
  unfold busError
  split
  · exact h
  · exact dmaHalt_wf _ _ _ _ _ h
  · exact h

theorem foldl_wf {α : Type} (f : State → α → State) (h : ∀ s a, Memory.wf s.mem = true → Memory.wf (f s a).mem = true) (l : List α)
    {s : State} (w : Memory.wf s.mem = true) : Memory.wf (l.foldl f s).mem = true := by
  induction l generalizing s with
  | nil => exact w
  | cons x r ih => exact ih (h s x w)

/-- A timed-out access enters a void value in the dump at most (R622). -/
theorem xdomTimeout_wf (q : Requester) (k : Fin 8) (w : Bool) {s : State} (h : Memory.wf s.mem = true) :
    Memory.wf (xdomTimeout q k w s).mem = true := by
  unfold xdomTimeout
  split
  · exact h
  · dsimp only
    generalize hu : accessFault q .xdom w (pgCST k.val) 0x60C (pgCST k.val) s = u
    have e : Memory.wf u.mem = true := by rw [← hu, accessFault_mem]; exact h
    unfold timeoutEnd
    split
    · split <;> exact e
    · split <;> exact e
    · split
      · exact withDump_wf e (swf_writeBytes (wf_dump e) _ _)
      · exact e
    · exact busError_wf _ _ _ e

/-- The register snapshot lies below the firmware section (R553, R554). -/
theorem startDump_wf (auto : Bool) {s : State} (h : Memory.wf s.mem = true) :
    Memory.wf (startDump auto s).mem = true := by
  unfold startDump
  split
  · exact h
  · refine foldl_wf _ (fun s k => xdomTimeout_wf _ _ _) _ ?_
    dsimp only
    generalize snapshot s = bs
    exact withDump_wf h (swf_section (b := 0x188000) (by omega) bs (swf_filter (wf_dump h) _)
      (fun y hy => of_decide_eq_true (List.mem_filter.mp hy).2)).1

/-- Every section of the dump lies in its own place (R553 to R558). -/
theorem dumpDone_wf {s : State} (h : Memory.wf s.mem = true) : Memory.wf (dumpDone s).mem = true := by
  unfold dumpDone
  split
  · exact h
  · dsimp only
    rw [raise_mem]
    refine withDump_wf h ?_
    have h0 : swf (fun _ => (0 : Byte)) (s.mem.dump.filter (fun x => decide (0x88000 ≤ x.1))) = true :=
      swf_filter (wf_dump h) _
    have h1 := swf_section (a := 0x48000) (n := 0x40000) (b := 0x88000) (by omega) (traceBytes s) h0
      (fun y hy => of_decide_eq_true (List.mem_filter.mp hy).2)
    have h2 := swf_section (a := 0x8000) (n := 0x40000) (b := 0x48000) (by omega) (evlogBytes s) h1.1 h1.2
    have h3 := swf_section (a := 0x1000) (n := 0x7000) (b := 0x8000) (by omega)
      ((List.range 320).flatMap (tileRecord s)) h2.1 h2.2
    revert h3
    generalize listCells 0x1000 _ ++ _ = body
    intro h3
    generalize dumpHead s body = hd
    have hc : (leBytes (crc32c (List.take 0xFFC hd)).toNat 4).length = 4 := length_leBytes _ _
    revert hc
    generalize leBytes (crc32c (List.take 0xFFC hd)).toNat 4 = c
    intro hc
    refine swf_append (swf_listCells _ _) h3.1 (fun x hx => sabove_of_forall (fun y hy => ?_))
    have hx2 := (mem_listCells hx).2
    have hy2 := h3.2 y hy
    rw [List.length_append, hc, List.length_take] at hx2
    have : min 0xFFC hd.length ≤ 0xFFC := Nat.min_le_left _ _
    omega

end Sys2Proof.Machine
end

