-- ==== Sys2Proof/Laws/Modem.lean ====
section
/-! SUPPORT. What is recorded comes back: bits and bytes are the same data (R14, R84), and the randomiser is its own inverse
(R86). -/

namespace Sys2Proof

@[simp] theorem length_msbBits (v n : Nat) : (msbBits v n).length = n := by
  induction n with
  | zero => rfl
  | succ n ih => simp [msbBits, ih]

@[simp] theorem length_bitBytes (n : Nat) (bs : List Bool) : (bitBytes n bs).length = n := by
  induction n generalizing bs with
  | zero => rfl
  | succ n ih => simp [bitBytes, ih]

@[simp] theorem length_byteBits (bs : List Nat) : (byteBits bs).length = 8 * bs.length := by
  induction bs with
  | nil => rfl
  | cons b r ih =>
    simp only [byteBits, List.map_cons, List.flatten_cons, List.length_append, length_msbBits, List.length_cons] at ih ⊢
    omega

@[simp] theorem length_randomise (s : Nat) (bs : List Bool) : (randomise s bs).length = bs.length := by
  induction bs generalizing s with
  | nil => rfl
  | cons b r ih => simp [randomise, ih]

/-- The randomiser restores what it has randomised (R86). -/
@[simp] theorem randomise_randomise (s : Nat) (bs : List Bool) : randomise s (randomise s bs) = bs := by
  induction bs generalizing s with
  | nil => rfl
  | cons b r ih => simp [randomise, ih]

theorem byteBits_cons (b : Nat) (r : List Nat) : byteBits (b :: r) = msbBits b 8 ++ byteBits r := by simp [byteBits]

/-- Eight bits, as a byte, are those bits. -/
theorem msbBits_bitsVal (bs : List Bool) (h : bs.length = 8) : msbBits (bitsVal bs) 8 = bs := by
  match bs, h with
  | [a, b, c, d, e, f, g, i], _ =>
    cases a <;> cases b <;> cases c <;> cases d <;> cases e <;> cases f <;> cases g <;> cases i <;> rfl

theorem bitsVal_msbBits (b : Nat) (h : b < 256) : bitsVal (msbBits b 8) = b := by
  have : ∀ x : Fin 256, bitsVal (msbBits x.val 8) = x.val := by decide +kernel
  exact this ⟨b, h⟩

/-- Bits in whole bytes are the bits of those bytes. -/
theorem byteBits_bitBytes (n : Nat) (bs : List Bool) (h : bs.length = 8 * n) : byteBits (bitBytes n bs) = bs := by
  induction n generalizing bs with
  | zero => simp at h; subst h; rfl
  | succ n ih =>
    rw [bitBytes, byteBits_cons, msbBits_bitsVal _ (by simp; omega), ih _ (by simp; omega), List.take_append_drop]

theorem bitBytes_byteBits (bs : List Nat) (h : ∀ b ∈ bs, b < 256) : bitBytes bs.length (byteBits bs) = bs := by
  induction bs with
  | nil => rfl
  | cons b r ih =>
    rw [List.length_cons, bitBytes, byteBits_cons, List.take_left' (by simp), List.drop_left' (by simp),
      bitsVal_msbBits b (h b List.mem_cons_self), ih (fun x hx => h x (List.mem_cons_of_mem _ hx))]

/-- A data row read back and restored holds the payload's bytes (R83, R86). -/
theorem dataRow_back (pay : List Byte) (dsn k c : Nat) :
    (bitBytes 432 (randomise (rowKey dsn k c) (byteBits (dataRow pay dsn k c)))).map (BitVec.ofNat 8) =
      (List.range 432).map (fun j => (pay[103680 * k + 432 * c + j]?).getD 0) := by
  have l : ((List.range 432).map (fun j => ((pay[103680 * k + 432 * c + j]?).getD 0).toNat)).length = 432 := by simp
  rw [dataRow, byteBits_bitBytes _ _ (by simp), randomise_randomise]
  have := bitBytes_byteBits ((List.range 432).map (fun j => ((pay[103680 * k + 432 * c + j]?).getD 0).toNat))
    (by intro b hb; obtain ⟨j, _, rfl⟩ := List.mem_map.1 hb; exact ((pay[103680 * k + 432 * c + j]?).getD 0).isLt)
  rw [l] at this
  rw [this, List.map_map]
  apply List.map_congr_left
  intro j _
  simp

end Sys2Proof
end

