-- ==== Sys2Proof/Laws/Pools.lean ====
section
/-! SUPPORT. What allocating and freeing staging buffers can do: the pools, their page and what a broken list fences, and nothing
else. -/

namespace Sys2Proof.Machine

/-- Only the record side's tables, registers, fences and outputs differ. -/
abbrev PoolsOnly (s u : State) : Prop := ∃ rcd rf itg out, u = { s with rcd := rcd, rf := rf, itg := itg, out := out }

theorem PoolsOnly.refl (s : State) : PoolsOnly s s := ⟨s.rcd, s.rf, s.itg, s.out, rfl⟩
theorem PoolsOnly.trans {s u v : State} (h : PoolsOnly s u) (h' : PoolsOnly u v) : PoolsOnly s v := by
  obtain ⟨_, _, _, _, rfl⟩ := h
  obtain ⟨a, b, c, d, rfl⟩ := h'
  exact ⟨a, b, c, d, rfl⟩
theorem PoolsOnly.bump {s u : State} (h : PoolsOnly s u) (p o n : Nat) : PoolsOnly s (bump p o n u) := by
  obtain ⟨a, _, c, d, rfl⟩ := h
  exact ⟨a, _, c, d, rfl⟩

theorem noteFence_frame (code cause : Nat) (s : State) : ∃ rf out, noteFence code cause s = { s with rf := rf, out := out } := by
  obtain ⟨rf, out, h⟩ := raise_frame pgFEN 0 (bump pgFEN 0xA00 1 (rset s pgFEN 0x660 (BitVec.ofNat 32 (code + 65536 * cause))))
  exact ⟨rf, out, h⟩

/-- A fence is marked, counted and recorded, and changes nothing else (R548, R563). -/
theorem markFence_frame (code cause : Nat) (s : State) : ∃ rf itg out, markFence code cause s = { s with rf := rf, itg := itg, out := out } := by
  obtain ⟨rf, out, h⟩ := noteFence_frame code cause { s with itg.fences := sset 0 s.itg.fences code cause }
  exact ⟨rf, _, out, h⟩

theorem fencePool_frame (k : Nat) (s : State) : PoolsOnly s (fencePool k s) := by
  unfold fencePool
  split
  · exact PoolsOnly.refl s
  · obtain ⟨rf, itg, out, h⟩ := markFence_frame (0xA000 + k) 10 { s with rcd.fenPool := k :: s.rcd.fenPool }
    obtain ⟨rf', out', h'⟩ := raise_frame pgBPM 2 (markFence (0xA000 + k) 10 { s with rcd.fenPool := k :: s.rcd.fenPool })
    exact ⟨_, rf', itg, out', by rw [h', h]⟩

theorem checkHead_frame (k r : Nat) (s : State) : PoolsOnly s (checkHead k r s) := by
  unfold checkHead
  split
  · split
    · exact PoolsOnly.trans ⟨_, _, _, _, rfl⟩ (fencePool_frame k _)
    · exact PoolsOnly.refl s
  · exact PoolsOnly.refl s

theorem takeBuf_frame {k r : Nat} {owner : Byte} {s u : State} {kb : Nat} (h : takeBuf k r owner s = some (kb, u)) : PoolsOnly s u := by
  unfold takeBuf at h
  split at h
  · cases h
  · split at h
    · cases h
    · dsimp only at h
      split at h
      · cases h
      · simp only [Option.some.injEq, Prod.mk.injEq] at h
        rw [← h.2]
        split <;> exact ⟨_, _, _, _, rfl⟩

/-- A buffer taken is of the pool asked, and was free at its list's head. -/
theorem takeBuf_head {k r : Nat} {owner : Byte} {s u : State} {kb : Nat} (h : takeBuf k r owner s = some (kb, u)) :
    ∃ i rest, sget [] s.rcd.freeList k = i :: rest ∧ kb = bufKey k i ∧ (bufOf s k i).ok = true := by
  unfold takeBuf at h
  split at h
  · cases h
  · split at h
    · cases h
    · rename_i i rest e
      dsimp only at h
      split at h
      · cases h
      · rename_i ok
        simp only [Option.some.injEq, Prod.mk.injEq] at h
        exact ⟨i, rest, e, h.1.symm, by simpa using ok⟩

/-- One allocation (R353). -/
theorem allocOne_frame (r count : Nat) (owner : Byte) (spill : Bool) (s : State) : PoolsOnly s (allocOne r count owner spill s).2 := by
  unfold allocOne
  split
  · exact PoolsOnly.refl s
  · split
    · exact (PoolsOnly.refl s).bump _ _ _
    · rename_i k _
      have h1 := checkHead_frame k r s
      dsimp only
      split
      · rename_i kb u e
        split at e
        · cases e
        · exact h1.trans (takeBuf_frame e)
      · have h2 : ∀ (c : Prop) [Decidable c], PoolsOnly s (if c then checkHead (k + 1) r (checkHead k r s) else checkHead k r s) := by
          intro c _
          split
          · exact h1.trans (checkHead_frame _ _ _)
          · exact h1
        split
        · rename_i kb u e
          rw [ite_eq_iff] at e
          rcases e with ⟨_, e⟩ | ⟨_, e⟩
          · exact ((h2 _).trans (takeBuf_frame e)).bump _ _ _
          · cases e
        · exact (h2 _).bump _ _ _

/-- A buffer given back. -/
theorem giveBack_frame (k i : Nat) (s : State) : PoolsOnly s (giveBack k i s) := by
  unfold giveBack
  dsimp only
  split <;> split <;> exact ⟨_, _, _, _, rfl⟩

/-- A chain given back. -/
theorem freeBufs_frame (l : List Nat) (s : State) : PoolsOnly s (freeBufs l s) := by
  unfold freeBufs
  induction l generalizing s with
  | nil => exact PoolsOnly.refl s
  | cons kb r ih =>
    simp only [foldNat]
    refine PoolsOnly.trans ?_ (ih _)
    split
    · exact giveBack_frame _ _ s
    · exact PoolsOnly.refl s

/-- A chain is taken, or none (R346). -/
theorem allocChain_frame (r p n : Nat) (s : State) : PoolsOnly s (allocChain r p n s).2 := by
  unfold allocChain
  split
  · exact PoolsOnly.refl s
  · have fold : ∀ (xs : List Nat) (y : Option (List Nat) × State), PoolsOnly s y.2 → PoolsOnly s (xs.foldl (fun x m => match x with
        | (none, s) => (none, s)
        | (some l, s) => match allocOne r m (BitVec.ofNat 8 p) true s with
          | (some kb, s) => (some (l ++ [kb]), s)
          | (none, s) => (none, freeBufs l s)) y).2 := by
      intro xs
      induction xs with
      | nil => exact fun y hy => hy
      | cons m xs ih =>
        intro y hy
        refine ih _ ?_
        obtain ⟨o, u⟩ := y
        cases o with
        | none => exact hy
        | some l =>
          have h := allocOne_frame r m (BitVec.ofNat 8 p) true u
          dsimp only
          split
          · rename_i kb v e
            rw [e] at h
            exact hy.trans h
          · rename_i v e
            rw [e] at h
            exact (hy.trans h).trans (freeBufs_frame l v)
    exact fold _ _ (PoolsOnly.refl s)

/-- The part of a chain that bytes need, and the rest, are the chain. -/
theorem chainCut_append (n : Nat) (l : List Nat) : (chainCut n l).1 ++ (chainCut n l).2 = l := by
  induction l generalizing n with
  | nil => rfl
  | cons kb r ih =>
    unfold chainCut
    split
    · rfl
    · exact congrArg (kb :: ·) (ih _)

end Sys2Proof.Machine
end

