-- ==== Sys2Proof/Laws/Tile.lean ====
section
/-! SUPPORT. What the operations of Machine/TileOps.lean can do: banks, words on the mesh and stores touch the lattice alone, what a
tile does at a tick, and a tick that faults no tile. -/

namespace Sys2Proof.Machine

/-! ### Tiles -/

@[simp] theorem tileOf_setTile_self (t : Nat) (x : Tile) (s : State) (h : swf (fun _ => ({} : Tile)) s.lat.tiles = true) :
    tileOf (setTile t x s) t = x := sget_sset_self (fun _ => ({} : Tile)) h t x

@[simp] theorem tileOf_setTile_other {t u : Nat} (x : Tile) (s : State) (hs : swf (fun _ => ({} : Tile)) s.lat.tiles = true) (h : u ≠ t) :
    tileOf (setTile t x s) u = tileOf s u := sget_sset_other (fun _ => ({} : Tile)) hs t u x h {}

@[simp] theorem swapBanks_act (x : Tile) : (swapBanks x).act = x.stby := rfl
@[simp] theorem swapBanks_stby (x : Tile) : (swapBanks x).stby = x.act := rfl
@[simp] theorem swapBanks_due (x : Tile) : (swapBanks x).due = false := rfl
@[simp] theorem swapBanks_reload (x : Tile) : (swapBanks x).reload = false := rfl
@[simp] theorem swapBanks_reason (x : Tile) : (swapBanks x).reason = x.reason := rfl
@[simp] theorem swapBanks_sram (x : Tile) : (swapBanks x).sram = x.sram := rfl

/-- A tile outside the domain ignores its tick. -/
theorem tileTick_outside {d : Nat} {x : Tile} (h : joins d x = false) (at_ : Nat) (sw : Bool) (w : BitVec 64) : tileTick d at_ sw w x = x := by
  simp [tileTick, h]

/-- A tick never sets or lifts a fence, nor touches SRAM and mailbox. -/
theorem tileTick_keeps (d at_ : Nat) (sw : Bool) (w : BitVec 64) (x : Tile) :
    (tileTick d at_ sw w x).reason = x.reason ∧ (tileTick d at_ sw w x).sram = x.sram ∧ (tileTick d at_ sw w x).mbox = x.mbox := by
  unfold tileTick
  split
  · exact ⟨rfl, rfl, rfl⟩
  · cases (sw && x.due) <;> simp only [Bool.false_eq_true, if_false, if_true] <;> split <;> exact ⟨rfl, rfl, rfl⟩

/-- Banks that are due change places with a tick of their domain that switches, and with no other (R299). -/
theorem tileTick_act {d : Nat} {x : Tile} (h : joins d x = true) (at_ : Nat) (sw : Bool) (w : BitVec 64) :
    (tileTick d at_ sw w x).act = if sw && x.due then x.stby else x.act := by
  unfold tileTick
  rw [h]
  cases (sw && x.due) <;> simp only [Bool.not_true, Bool.false_eq_true, if_false, if_true] <;> split <;> rfl

/-! ### What touches the lattice alone -/

theorem foldl_lat {α : Type} {s : State} {f : State → α → State} (h : ∀ s a, ∃ l, f s a = { s with lat := l }) (xs : List α) {u : State}
    (hu : ∃ l, u = { s with lat := l }) : ∃ l, xs.foldl f u = { s with lat := l } := by
  induction xs generalizing u with
  | nil => exact hu
  | cons x r ih =>
    obtain ⟨l, e⟩ := hu
    obtain ⟨m, e'⟩ := h u x
    exact ih ⟨m, by rw [e', e]⟩

/-- Writing a standby bank. -/
theorem stageBank_frame (t : Nat) (b : TileBank) (s : State) : ∃ l, stageBank t b s = { s with lat := l } := ⟨_, rfl⟩

/-- Staging an image into every tile (R298). -/
theorem stageBanks_frame (img : SchedImage) (s : State) : ∃ l, stageBanks img s = { s with lat := l } :=
  foldl_lat (fun s t => stageBank_frame t _ s) _ ⟨s.lat, rfl⟩

/-- Marking banks for their switch (R299). -/
theorem markDue_frame (ts : List Nat) (s : State) : ∃ l, markDue ts s = { s with lat := l } :=
  foldl_lat (fun s t => by dsimp only; split <;> exact ⟨_, rfl⟩) _ ⟨s.lat, rfl⟩

/-- A word landing at a local port (R292). -/
theorem landWord_frame (d t cyc : Nat) (e : RouteEnt) (w : BitVec 256) (s : State) : ∃ l, landWord d t cyc e w s = { s with lat := l } := by
  unfold landWord
  dsimp only
  split
  · exact ⟨s.lat, rfl⟩
  · split <;> exact ⟨_, rfl⟩

/-- A fenced tile takes no word (R303). -/
theorem landWord_fenced {d t cyc : Nat} {e : RouteEnt} {w : BitVec 256} {s : State} (h : (tileOf s t).reason ≠ 0) :
    landWord d t cyc e w s = s := by
  unfold landWord
  exact if_pos h

/-- A word on its way over the mesh (R272). -/
theorem moveWord_frame (d : Nat) (w : BitVec 256) (n t inp cyc : Nat) (s : State) : ∃ l, moveWord d w n t inp cyc s = { s with lat := l } := by
  induction n generalizing t inp cyc s with
  | zero => exact ⟨s.lat, rfl⟩
  | succ n ih =>
    unfold moveWord
    refine foldl_lat (fun s e => ?_) _ (by split <;> exact ⟨_, rfl⟩)
    split
    · exact landWord_frame d t cyc e w s
    · split
      · exact ih _ _ _ s
      · exact ⟨s.lat, rfl⟩

/-- Words of other domains come into the mailboxes (R282). -/
theorem landFlights_frame (d upto : Nat) (s : State) : ∃ l, landFlights d upto s = { s with lat := l } := by
  unfold landFlights
  refine foldl_lat (fun s f => ?_) _ ⟨_, rfl⟩
  split
  · exact ⟨s.lat, rfl⟩
  · exact foldl_lat (fun s e => landWord_frame _ _ _ e _ s) _ ⟨s.lat, rfl⟩

/-- What a program does in its tick touches the lattice alone (R272, R273). -/
theorem runAct_frame (ds : List Nat) (r : List Nat × State) (a : TileAct) : ∃ l, (runAct ds r a).2 = { r.2 with lat := l } := by
  have same : ∃ l, r.2 = { r.2 with lat := l } := ⟨r.2.lat, rfl⟩
  cases a with
  | send t cyc w =>
    simp only [runAct]
    split
    · exact moveWord_frame _ _ _ _ _ _ _
    · exact same
  | store t addr bs =>
    simp only [runAct]
    split
    · exact same
    · exact ⟨_, rfl⟩
  | recvWord t cyc =>
    simp only [runAct]
    split <;> exact same
  | mboxWord t idx cyc since =>
    simp only [runAct]
    split
    · split <;> exact landFlights_frame _ _ _
    · exact same

/-! ### A tick that faults no tile -/

/-- A fenced tile is not fenced again (R302). -/
theorem fenceTile_fenced {t reason : Nat} {s : State} (h : (tileOf s t).reason ≠ 0) : fenceTile t reason s = s := by
  unfold fenceTile
  exact if_pos h

/-- A queue that loses nothing only moves its fill (R286, R287). -/
theorem queueFlow_frame (f : QueueFlow) (s : State) : ∃ l rf out, queueFlow f s = { s with lat := l, rf := rf, out := out } := by
  unfold queueFlow
  dsimp only
  split
  · exact ⟨_, s.rf, s.out, rfl⟩
  · obtain ⟨rf, out, h⟩ := raise_frame pgLAT 3 (bump pgLAT 0xA08 1
      { s with lat := { s.lat with queues := sset 0 s.lat.queues (queueKey f.q) (flowStep f (sget 0 s.lat.queues (queueKey f.q))).1,
                                   slips := smod 0 s.lat.slips (queueKey f.q) (· + (flowStep f (sget 0 s.lat.queues (queueKey f.q))).2) } })
    exact ⟨_, rf, out, h⟩

/-- A program that shows no fault touches the lattice, its counters and events alone. -/
theorem runProgs_frame (ds : List Nat) (prog : ProgObs) (s : State) (h : prog.tileFaults = []) :
    ∃ l rf out, runProgs ds prog s = { s with lat := l, rf := rf, out := out } := by
  have flows : ∀ (fs : List QueueFlow) (u : State), (∃ l rf out, u = { s with lat := l, rf := rf, out := out }) →
      ∃ l rf out, fs.foldl (fun s f => queueFlow f s) u = { s with lat := l, rf := rf, out := out } := by
    intro fs
    induction fs with
    | nil => exact fun u hu => hu
    | cons f r ih =>
      rintro u ⟨l, rf, out, e⟩
      obtain ⟨l', rf', out', e'⟩ := queueFlow_frame f u
      exact ih _ ⟨l', rf', out', e'.trans (by rw [e])⟩
  have acts : ∀ (xs : List TileAct) (r : List Nat × State), (∃ l rf out, r.2 = { s with lat := l, rf := rf, out := out }) →
      ∃ l rf out, (xs.foldl (runAct ds) r).2 = { s with lat := l, rf := rf, out := out } := by
    intro xs
    induction xs with
    | nil => exact fun r hr => hr
    | cons a x ih =>
      rintro r ⟨l, rf, out, e⟩
      obtain ⟨l', e'⟩ := runAct_frame ds r a
      exact ih _ ⟨l', rf, out, by rw [e', e]⟩
  obtain ⟨l, rf, out, e⟩ := acts prog.acts ([], prog.flows.foldl (fun s f => queueFlow f s) s) (flows prog.flows s ⟨s.lat, s.rf, s.out, rfl⟩)
  unfold runProgs
  rw [h]
  dsimp only [isort, List.foldl_nil]
  generalize hr : List.foldl (runAct ds) ([], prog.flows.foldl (fun s f => queueFlow f s) s) prog.acts = r
  rw [hr] at e
  obtain ⟨m, e'⟩ := foldl_lat (s := bump pgLAT 0xA0C r.1.eraseDups.length r.2)
    (f := fun s t => setTile t { tileOf s t with voids := (tileOf s t).voids + 1 } s) (fun s t => ⟨_, rfl⟩) r.1.eraseDups ⟨r.2.lat, rfl⟩
  refine ⟨m, (bump pgLAT 0xA0C r.1.eraseDups.length r.2).rf, out, e'.trans ?_⟩
  rw [e]
  rfl

/-- No tile of a domain still runs its program at a lattice cycle. -/
def Ended (d at_ : Nat) (s : State) : Prop :=
  ∀ x ∈ s.lat.tiles, joins d x.2 = true → x.2.reason = 0 → stillRuns at_ x.2 = false

theorem mem_sset {α : Type} [DecidableEq α] {d : α} {m : Sparse α} {k : Nat} {v : α} {x : Nat × α} (h : x ∈ sset d m k v) : x ∈ m ∨ x = (k, v) := by
  induction m with
  | nil =>
    simp only [sset] at h
    split at h
    · cases h
    · exact .inr (List.mem_singleton.1 h)
  | cons y r ih =>
    simp only [sset] at h
    split at h
    · split at h
      · exact .inl h
      · exact (List.mem_cons.1 h).symm
    · split at h
      · split at h
        · exact .inl (List.mem_cons_of_mem _ h)
        · exact (List.mem_cons.1 h).symm.imp (List.mem_cons_of_mem _) id
      · rcases List.mem_cons.1 h with h | h
        · exact .inl (h ▸ List.mem_cons_self)
        · exact (ih h).imp (List.mem_cons_of_mem _) id

theorem sget_mem {α : Type} (d : α) (m : Sparse α) (k : Nat) : sget d m k = d ∨ (k, sget d m k) ∈ m := by
  induction m with
  | nil => exact .inl rfl
  | cons y r ih =>
    simp only [sget]
    split
    · rename_i h
      exact .inr (h ▸ List.mem_cons_self)
    · split
      · exact .inl rfl
      · exact ih.imp id (List.mem_cons_of_mem _)

theorem landWord_ended {d at_ : Nat} (d' t cyc : Nat) (e : RouteEnt) (w : BitVec 256) {s : State} (h : Ended d at_ s) :
    Ended d at_ (landWord d' t cyc e w s) := by
  have set : ∀ y : Tile, y.act = (tileOf s t).act → y.stby = (tileOf s t).stby → y.due = (tileOf s t).due → y.reason = (tileOf s t).reason →
      y.start = (tileOf s t).start → y.len = (tileOf s t).len → Ended d at_ (setTile t y s) := by
    intro y h1 h2 h3 h4 h5 h6 x hx hj hr
    rcases mem_sset hx with hx | rfl
    · exact h x hx hj hr
    · have same : joins d y = joins d (tileOf s t) := by unfold joins; rw [h1, h2, h3]
      have runs : stillRuns at_ y = stillRuns at_ (tileOf s t) := by unfold stillRuns; rw [h5, h6]
      rw [runs]
      rcases sget_mem ({} : Tile) s.lat.tiles t with hd | hm
      · rw [tileOf, hd]
        rfl
      · exact h _ hm (same ▸ hj) (h4 ▸ hr)
  unfold landWord
  dsimp only
  split
  · exact h
  · split <;> exact set _ rfl rfl rfl rfl rfl rfl

theorem landFlights_ended {d at_ : Nat} (d' upto : Nat) {s : State} (h : Ended d at_ s) : Ended d at_ (landFlights d' upto s) := by
  have fold : ∀ {α : Type} (f : State → α → State), (∀ u a, Ended d at_ u → Ended d at_ (f u a)) → ∀ (xs : List α) (u : State), Ended d at_ u →
      Ended d at_ (xs.foldl f u) := by
    intro α f hf xs
    induction xs with
    | nil => exact fun u hu => hu
    | cons x r ih => exact fun u hu => ih _ (hf u x hu)
  unfold landFlights
  refine fold _ (fun u f hu => ?_) _ _ h
  split
  · exact hu
  · exact fold _ (fun v e hv => landWord_ended _ _ _ e _ hv) _ _ hu

/-- A tick that finds every program of its domain ended fences nothing. -/
theorem startDomain_frame {d at_ : Nat} (sw : Bool) (w : BitVec 64) {s : State} (h : Ended d at_ s) :
    ∃ l, startDomain d at_ sw w s = { s with lat := l } := by
  obtain ⟨l, e⟩ := landFlights_frame d at_ s
  have none : (landFlights d at_ s).lat.tiles.filter (fun x => joins d x.2 && decide (x.2.reason = 0) && stillRuns at_ x.2) = [] := by
    rw [List.filter_eq_nil_iff]
    intro x hx hc
    simp only [Bool.and_eq_true, decide_eq_true_eq] at hc
    have := landFlights_ended d at_ h x hx hc.1.1 hc.1.2
    simp [hc.2] at this
  unfold startDomain
  dsimp only
  rw [none]
  exact ⟨_, by rw [List.foldl_nil, e]⟩

/-- A quiet control tick touches the lattice, its counters and events alone (R280, R302). -/
theorem controlTick_quiet {kind period : Nat} {prog : ProgObs} {s : State} (h : QuietTick s kind period prog) :
    ∃ l rf out, controlTick kind period prog s = { s with lat := l, rf := rf, out := out } := by
  unfold controlTick
  dsimp only
  generalize hs : ({ s with lat.seqs := sset 0 s.lat.seqs kind (sget 0 s.lat.seqs kind + 1) } : State) = u
  have hu : Ended kind (latCycle s kind period) u := by rw [← hs]; exact h.2
  have ha : latCycle s kind period = latCycle u kind period := by rw [← hs]; rfl
  rw [ha] at hu ⊢
  obtain ⟨l, e⟩ := startDomain_frame true (BitVec.ofNat 64 ((sget 0 s.lat.seqs kind + 1) % 65536 + 65536 * kind + 2 ^ 32 * (s.clk.ctr500.toNat % 2 ^ 32))) hu
  obtain ⟨l', rf, out, e'⟩ := runProgs_frame [kind] prog _ h.1
  refine ⟨l', rf, out, e'.trans ?_⟩
  rw [e, ← hs]

end Sys2Proof.Machine
end

