-- ==== Sys2Proof/Laws/Zstd.lean ====
section
/-! SUPPORT. What the decoding of a compressed block can do: it appends to what stands before it, and at most what the frame allows. -/

namespace Sys2Proof

/-- A match appends as many bytes as it names. -/
theorem copyBack_appends (off n : Nat) (out : List Byte) : ∃ x, copyBack off n out = x ++ out ∧ x.length = n := by
  induction n generalizing out with
  | zero => exact ⟨[], rfl, rfl⟩
  | succ n ih =>
    obtain ⟨x, e, h⟩ := ih (((out[off - 1]?).getD 0) :: out)
    exact ⟨x ++ [(out[off - 1]?).getD 0], by rw [copyBack, e, List.append_assoc]; rfl, by simp [h]⟩

/-- Sequences append their literals and matches, and the literals left over. -/
theorem runSeqs_appends {window : Nat} {qs : List ZSeq} {reps : List Nat} {lits out : List Byte} {r : List Byte × List Nat}
    (h : runSeqs window qs reps lits out = some r) : ∃ x, r.1 = x ++ out ∧ x.length = lits.length + (qs.map (·.ml)).sum := by
  induction qs generalizing reps lits out with
  | nil =>
    simp only [runSeqs, Option.some.injEq] at h
    exact ⟨lits.reverse, by rw [← h], by simp⟩
  | cons q r' ih =>
    simp only [runSeqs] at h
    split at h
    · cases h
    · rename_i hn
      obtain ⟨x, e, l⟩ := ih h
      obtain ⟨y, e', l'⟩ := copyBack_appends (useOffset q.off q.ll reps).1 q.ml ((lits.take q.ll).reverse ++ out)
      refine ⟨x ++ y ++ (lits.take q.ll).reverse, by rw [e, e']; simp, ?_⟩
      simp only [List.length_append, List.length_reverse, List.length_take, List.map_cons, List.sum_cons, l, l', List.length_drop]
      omega

/-- A compressed block appends at most the bytes allowed. -/
theorem zDecode_appends {window most : Nat} {ctx : ZCtx} {bs out : List Byte} {r : List Byte × ZCtx}
    (h : zDecode window most ctx bs out = some r) : ∃ x, r.1 = x ++ out ∧ x.length ≤ most := by
  unfold zDecode at h
  split at h
  · cases h
  · split at h
    · cases h
    · split at h
      · cases h
      · rename_i hm
        rw [Option.map_eq_some_iff] at h
        obtain ⟨y, hy, rfl⟩ := h
        obtain ⟨x, e, l⟩ := runSeqs_appends hy
        exact ⟨x, e, by omega⟩

end Sys2Proof
end

