-- ==== Sys2Proof/Machine/Package.lean ====
section
/-! DEFINITION. The balls of the package (R631 to R637). -/

namespace Sys2Proof.Machine

/-- Names of the 58 rows, from the A1 edge (R631). -/
def rowNames : List String :=
  let letters := ["A", "B", "C", "D", "E", "F", "G", "H", "J", "K", "L", "M", "N", "P", "T", "U", "V", "W", "Y"]
  letters ++ letters.map ("A" ++ ·) ++ letters.map ("B" ++ ·) ++ ["CA"]

/-- What a ball carries. A signal has its name and its number among those of that name. -/
inductive Net
  | signal (name : String) (n : Nat)
  | vss | agnd | vdd | vddAo | vddio | vdda18 | vddSd | vddhSd | vddHbm | vddqHbm | vppHbm | vdda
  deriving DecidableEq, Repr

/-- The head input of pair position `m`, `side` "_P" or "_N" (R632). -/
def headInput (side : String) (m : Nat) : Net :=
  if m < 264 then (if m % 33 < 32 then .signal ("HRX" ++ side) (32 * (m / 33) + m % 33) else .signal ("HCK" ++ side) (m / 33))
  else if 268 ≤ m ∧ m < 272 then .signal ("HSV" ++ side) (m - 268)
  else .agnd

/-- Signals of one name on every `step` columns of a row. -/
structure BallRun where
  row  : String
  name : String
  first : Nat
  n    : Nat := 1
  step : Nat := 2
  deriving DecidableEq, Repr

/-- The serial links (R633). -/
def serialBalls : List BallRun :=
  [ ⟨"U", "SHOCK_N", 2, 1, 1⟩, ⟨"U", "HWL_FLT_N", 3, 1, 1⟩, ⟨"V", "WINH_P", 2, 1, 1⟩, ⟨"W", "WINH_N", 2, 1, 1⟩,
    ⟨"V", "HWL_TXP", 4, 16, 3⟩, ⟨"W", "HWL_TXN", 4, 16, 3⟩, ⟨"V", "HWL_CLKP", 52, 1, 1⟩, ⟨"W", "HWL_CLKN", 52, 1, 1⟩,
    ⟨"AA", "PCIE_TXP", 4, 16, 3⟩, ⟨"AB", "PCIE_TXN", 4, 16, 3⟩, ⟨"AA", "PCIE_REFCLKP", 52, 1, 1⟩, ⟨"AB", "PCIE_REFCLKN", 52, 1, 1⟩,
    ⟨"AA", "PERST_N", 53, 1, 1⟩, ⟨"AD", "PCIE_RXP", 4, 16, 3⟩, ⟨"AE", "PCIE_RXN", 4, 16, 3⟩, ⟨"AH", "ETH_TXP", 4, 8, 3⟩,
    ⟨"AJ", "ETH_TXN", 4, 8, 3⟩, ⟨"AL", "ETH_RXP", 4, 8, 3⟩, ⟨"AM", "ETH_RXN", 4, 8, 3⟩ ]

/-- The low-speed signals (R634). -/
def slowBalls : List BallRun :=
  [ { row := "AT", name := "PWM_A", first := 4, n := 6 }, { row := "AU", name := "PWM_B", first := 4, n := 6 },
    { row := "AV", name := "AUXIN", first := 4, n := 8 }, { row := "AV", name := "ACT_DAC", first := 22, n := 2 },
    { row := "AW", name := "QSPI_CLK", first := 4 }, { row := "AW", name := "QSPI_CS_N", first := 6 },
    { row := "AW", name := "QSPI_IO", first := 8, n := 4 }, { row := "AW", name := "TCK", first := 20 },
    { row := "AW", name := "TMS", first := 22 }, { row := "AW", name := "TDI", first := 24 }, { row := "AW", name := "TDO", first := 26 },
    { row := "AW", name := "TRST_N", first := 28 }, { row := "AY", name := "PRB", first := 4, n := 16 },
    { row := "AY", name := "PRB_CLK", first := 38 }, { row := "BA", name := "PFW_N", first := 4 },
    { row := "BA", name := "SYSRST_N", first := 6 }, { row := "BA", name := "MOTOR_UV_N", first := 8 },
    { row := "BA", name := "XTAL_IN", first := 10 }, { row := "BA", name := "XTAL_OUT", first := 12 },
    { row := "BA", name := "THERMDA", first := 16 }, { row := "BA", name := "THERMDC", first := 18 } ]

/-- The signal that a list of runs puts on a ball. -/
def ballSignal (runs : List BallRun) (row : String) (col : Nat) : Option Net :=
  runs.findSome? (fun b =>
    if b.row = row ∧ b.first ≤ col ∧ (col - b.first) % b.step = 0 ∧ (col - b.first) / b.step < b.n
    then some (.signal b.name ((col - b.first) / b.step)) else none)

/-- A ball of rows A to T (R632). -/
def analogBall (r col : Nat) : Net :=
  if r % 3 = 2 then (if col % 2 = 0 then .vdda else .agnd)
  else if col = 1 then .vdda18
  else if col = 58 then .agnd
  else headInput (if r % 3 = 0 then "_P" else "_N") (56 * (r / 3) + (col - 2))

/-- A ball of rows BB to CA, `i` from BB (R636). -/
def supplyBall (i col : Nat) : Net :=
  if col = 1 ∨ col = 58 then .vppHbm
  else if col ≤ 8 ∨ 51 ≤ col then (match i % 3 with | 0 => .vddqHbm | 1 => .vddHbm | _ => .vss)
  else if i = 0 then (if col ≤ 16 then .vddAo else if col ≤ 24 then .vddio else .vss)
  else if col % 2 = 1 then .vdd else .vss

/-- What the ball of row `r`, counted from 0 at the A1 edge, and column `col`, counted from 1, carries (R631 to R636). -/
def ball (r col : Nat) : Net :=
  let name := rowNames.getD r ""
  if r < 15 then analogBall r col
  else if r < 32 then
    (ballSignal serialBalls name col).getD
      (if col = 55 ∨ col = 57 then .vddSd else if col = 56 then .vddhSd else .vss)
  else if r < 39 then (ballSignal slowBalls name col).getD .vss
  else supplyBall (r - 39) col

/-- How many balls carry a kind of net (R637). -/
def ballTotal (want : Net → Bool) : Nat :=
  ((List.range 58).map (fun r => ((List.range 58).filter (fun c => want (ball r (c + 1)))).length)).sum

end Sys2Proof.Machine
end

