-- ==== Sys2Proof/Machine/TapeLayout.lean ====
section
/-! DEFINITION. Where a CF1 tape carries what: regions across it, elements, clock stripes, servo stripes, tracks and the regions
along it (R55 to R61, R65, R67). Lengths are in nm. -/

namespace Sys2Proof.Machine

/-- The regions across the tape, from the reference edge (R55). -/
inductive Across | guard | servo (b : Nat) | data (b : Nat)
  deriving DecidableEq, Repr

/-- Width of a region. -/
def Across.width : Across → Nat
  | .guard => 548000
  | .servo _ => 186000
  | .data _ => 2656000

/-- The regions in order (R55). -/
def across : List Across :=
  [.guard, .servo 0, .data 0, .servo 1, .data 1, .servo 2, .data 2, .servo 3, .data 3, .servo 4, .guard]

/-- Lower edge of the n-th region. -/
def acrossEdge (n : Nat) : Nat := ((across.take n).map (·.width)).sum

/-- Lower edge of element position `i` in its data band, of clock stripe `k`, and of track position `t` in its element position
(R57, R67). -/
def elementEdge (i : Nat) : Nat := 10000 * i + 12000 * (i / 32)
def stripeEdge (k : Nat) : Nat := 320000 * (k + 1) + 12000 * k
def trackEdge (t : Nat) : Nat := 100 * t

/-- A servo burst: where its first stripe starts in the frame at y = 93 µm, its stripes, and whether its azimuth is +6° (R58). -/
structure Burst where
  start : Nat
  stripes : Nat
  plus : Bool
  deriving DecidableEq, Repr

/-- The bursts A to D of a frame of 50 µm (R58). -/
def bursts : List Burst := [⟨0, 4, true⟩, ⟨12500, 4, false⟩, ⟨25000, 3, true⟩, ⟨37500, 3, false⟩]

/-- Length of a servo frame and of a stripe along the tape, and the heights between which the stripes stand, from the servo band's
lower edge (R58). -/
abbrev servoFrame : Nat := 50000
abbrev stripeLen : Nat := 1000
abbrev stripeLow : Nat := 73000
abbrev stripeHigh : Nat := 113000

/-- Place of stripe `j` of a burst in its frame at height `y`; `tan6` is tan 6° (R58). -/
def stripeAt (tan6 : Rat) (b : Burst) (j : Nat) (y : Rat) : Rat :=
  let lean := (y - 93000) * tan6
  b.start + 2000 * j + (if b.plus then lean else -lean)

/-- A servo band is magnetised at place `x` along the preformatted length and height `y`: on a stripe of the frame that covers the
place, frame after frame without a gap; elsewhere it is DC-erased (R58). -/
def servoMagnetised (tan6 : Rat) (x y : Rat) : Bool :=
  decide ((stripeLow : Rat) ≤ y) && decide (y ≤ (stripeHigh : Rat)) &&
  bursts.any (fun b => (List.range b.stripes).any (fun j =>
    let d := x - stripeAt tan6 b j y
    decide (d - servoFrame * ((d / servoFrame).floor : Int) < stripeLen)))

/-- How far tone period `n` (0 to 63) of a clock position word bit is displaced forward (R60, R61). -/
def toneShift (bitVal : Bool) (n : Nat) : Int := if decide (n < 32) = bitVal then 6 else -6

/-- The regions along the tape, by signed CPOS (R65). -/
inductive Along | leader | approach | housekeeping | data | overrun
  deriving DecidableEq, Repr

def along (cpos : Int) : Along :=
  if cpos < -16384 then .leader else if cpos < 0 then .approach else if cpos ≤ 203450 then .housekeeping
  else if cpos ≤ 7324218 then .data else .overrun

end Sys2Proof.Machine
end

