-- ==== Sys2Proof/WellFormed.lean ====
section
/-! DEFINITION. Which commands a sender can send: the operands stay within what the variant has and what the rows of the
table say. Nothing in the machine rests on this check; a command outside it still has its meaning. -/

namespace Sys2Proof

open Machine

/-- Function 0 is never a virtual function (R369, R628). -/
def Requester.ok : Requester → Bool
  | .vf f => decide (f.val ≠ 0)
  | .pf0 | .core _ | .dma _ | .dumpEngine | .vault => true

/-- A fetched entry brings at most the lists its addresses name (R386, R391). -/
def Fetch.ok (x : Fetch) : Bool := decide (x.sgl.length ≤ 4096) && decide (x.lens.length ≤ 65536)

/-- A wrap-plan entry names a half-wrap only where the variant or the partition can be half-band: any (R98, R99). Its band is
that of its wrap (R68). -/
def PlanEntry.ok (e : PlanEntry) : Bool := decide (e.band.toNat = e.wrap.val / 100)

/-- An index image is a data set's stream area at most (R106, R112). -/
def CopyRead.ok : CopyRead → Bool
  | .absent => true
  | .copy image _ _ _ => decide (image.length ≤ 5805568)

def LoadEnv.ok (e : LoadEnv) : Bool :=
  e.copyA0.ok && e.copyA1.ok && e.copyB.ok && e.label.all (fun x => decide (x.2.length ≤ 5806080))

/-- A challenge's random part is 32 bytes (R667). -/
def BootEnv.ok (e : BootEnv) : Bool := decide (e.challenge.length = 32)

/-- A tick's channels are the variant's, each with at most what its input shows in a slot and around it (R161, R275). -/
def TickObs.ok (v : Variant) (x : TickObs) : Bool :=
  x.chans.all (fun c => decide (c.chan.val < channels v) && decide (c.volts.length ≤ 524288))

/-- Parts of a quote (R495). -/
def QuoteObs.ok (x : QuoteObs) : Bool :=
  decide (0 < x.priv) && decide (x.priv < n384) && decide (x.sig.length = 96) && decide (x.chain.length ≤ 6144)

/-- A register access has one of the four widths and stays within a page (R602); registers with a command of their own are
written by that command. -/
def RegAccess.ok (v : Variant) (a : RegAccess) : Bool :=
  decide (a.bytes.val ∈ [1, 2, 4, 8]) && decide (a.offset % 4096 + a.bytes.val + 4 * a.more.length ≤ 4096) &&
    (a.more = [] || (decide (a.bytes.val = 8) && a.aligned && decide (a.offset % 4 = 0))) &&
    (List.range (1 + a.bytes.val / 8 + a.more.length)).all (fun k =>
      !((pageBlock v (a.offset / 4096)).any (fun b => (rowAt b.1 (a.offset % 4096 + 4 * k)).any (·.own))))

/-- The page is one of the variant's (R620). -/
def pageOk (v : Variant) (page : Nat) : Bool := (pageBlock v page).isSome

/-- Wrong symbols of a chunk, each once and off by something. -/
def symbolsOk (l : List (Fin 36 × Byte)) : Bool := l.all (fun x => decide (x.2 ≠ 0)) && decide ((l.map (·.1)).Nodup)

/-- Errors of the word's own code, as many as the spec gives an outcome: two bits of an SECDED word, three symbols of a chunk (R528, R530). -/
def WordErrs.ok (place : MemPlace) : WordErrs → Bool
  | .bits n => decide (n ≤ 2) && (match place with | .basin _ _ _ _ => false | _ => true)
  | .symbols errs other =>
    symbolsOk errs && symbolsOk other && decide (errs.length ≤ 3) && decide (other.length ≤ 3) &&
    (match place with | .basin _ _ _ _ => true | _ => false)

/-- The command's operands are ones that its row allows on the variant. -/
def wellFormed (v : Variant) : Instr → Bool
  | .openPartition _ | .writeRecords _ | .readRecords _ | .writeMark _ | .sync _ | .locate _ | .reportPosition _ _
  | .keyImport _ | .attest _ | .getMeter _ | .abort _ | .unload _ | .partitionCreate _ | .partitionDelete _
  | .polderConfig _ | .fwActivate _ | .schedSelect _ | .getLog _ | .setTime _ => true
  | .space _ marks => decide (marks.Pairwise (· < ·)) && marks.all (fun m => decide (m < 2 ^ 48))
  | .load _ env => env.ok
  | .fwDownload _ image => decide (image.length < 2 ^ 32)
  | .sqTailDoorbell _ _ _ _ | .cqHeadDoorbell _ _ _ | .queueCreate _ _ | .queueDelete _ _ | .qopDone _ _
  | .interruptAggregationTimeout _ _ => true
  | .serviceSlot fetch words => fetch.all (·.ok) && decide (words < 64)
  | .flr _ | .perstN | .linkDown | .vfEnableClear | .vfEnableSet _ | .cplTimeout _ => true
  | .linkUp speed width => decide (1 ≤ speed.toNat) && decide (speed.toNat ≤ 5) && decide (width.toNat ∈ [1, 2, 4, 8, 16])
  | .pcieCompletion _ res => (match res with | .data bs => decide (bs.length ≤ 4096) | .error => true)
  | .commandCapsule _ cap => cap.body.ok
  | .rdmaReadResponse _ _ data => decide (data.length ≤ 4096)
  | .acknowledge _ _ _ | .ackTimeout _ | .cnpReceived _ | .rateIncreaseTimer _ | .frameReceived _ _ | .pfcReceived _ _
  | .completionCapsuleTimeout _ | .portLinkUp _ | .portLinkDown _ | .linkholdExpiry _ => true
  | .qpCreate r _ | .qpDestroy r _ | .qpFree r _ => r.ok
  | .dmaGo _ bs _ | .descriptorDone _ bs => decide (bs.length = 0 ∨ bs.length = 32)
  | .dmaStop _ | .dmaBurst _ _ _ | .ringFlushTimeout _ | .rdptrWrite _ _ | .sluiceWrite _ _ => true
  | .windowWrite r _ _ _ _ => r.ok
  | .intakeWord _ _ _ _ _ | .producerStallRelease _ | .idle _ | .flush _ | .markExpired _
  | .encryptDone _ _ | .groupPlace _ | .decryptDone _ _ _ | .bufferFree _ _ | .pshareWrite _ _
  | .quotaWrite _ _ | .decompressDone _ _ => true
  | .compressDone _ blocks => blocks.all (fun b => match b with | .comp _ bytes => decide (bytes.length ≤ 131072) | _ => true)
  | .bufferAllocate reqs => reqs.all (fun r => decide (r.count < 2 ^ 32) && decide (r.owner.toNat < 64 ∨ r.owner = 0xFF))
  | .wrapPlanPost e => e.ok
  | .slotTick k obs => decide (k.val < laneGroups v) && obs.ok v
  | .dataSetBoundary | .basinRestart | .readResume => true
  | .verifyVerdict _ _ _ | .dataSetDecode _ => true
  | .syncLost c | .wskewTrim c | .lmsDeltaStep c _ => decide (c.val < channels v)
  | .clockPositionWord k _ _ | .phaseLock k _ | .acqTimeout k | .holdEnter k | .holdExpire k | .skewMeasurement k _ _
  | .forceSrcWrite k _ | .xdomTimeout _ k _ => decide (k.val < laneGroups v)
  | .servoRecord _ _ _ _ _ _ | .lockLost | .winhRelease | .shock | .shockNRise | .shockHoldExpiry | .t2kTick _ | .feTrip _
  | .turnCoastExpiry | .wrapEnd | .revDwellExpiry | .moveGo | .moveAbort | .moveDone | .bankSwap _ _
  | .speedPolicyWrite _ _ | .wforceWrite _ | .stop | .govRest | .passiveBrake | .motorUvN | .passiveRest | .govRelease _ _ => true
  | .t25Tick aux _ => decide (aux.length = 8)
  | .trimWrite _ reg _ => decide (reg.val % 8 ≠ 7)
  | .crestBreach causes => decide (causes ≠ 0)
  | .traceArm _ | .traceDisarm _ | .traceFire _ | .traceCaptureEnd _ => true
  | .latFence _ | .tileOverrun _ | .detourActive | .regenerationDone _ | .schedLoadGo _ | .schedLoadCancel | .schedSwitchGo
  | .imageSwitch | .loadDone _ => true
  | .reqAttest obs => obs.ok
  | .reqKeyImport | .reqPartErase | .reqSetTime | .reqUnloadNotice | .quoteKeyExpiry _ | .checkpointDurable _ _
  | .tsSwapped | .minuteClosed => true
  | .tsdataWrite r _ | .tsSwap r => r.ok
  | .scrubRead place errs => errs.ok place
  | .repeatDecay _ | .spareRowRemap _ _ | .tileReload _ | .areaReload | .pscrubGo | .pscrubAbort => true
  | .pscrubDone rep => decide (rep.corrected.length + rep.bad.length ≤ rep.read)
  | .paritySweep bad => bad.all (fun a => decide (a % 4 = 0) && pageOk v (a / 4096))
  | .fence r _ | .unfence r _ _ => r.ok
  | .selfTestDone _ _ | .fenFatal _ | .dumpGo | .dumpClear | .dumpWaitExpiry | .dumpDone | .powerOnReset => true
  | .sysrstNRise env => env.ok
  | .wdkick _ | .watchdogWarning | .wdog | .coreRestart | .recordSideRestart | .fwready | .flashRead
  | .flashProgram | .flashErase | .flashDone | .fwcommit _ | .lctrans _ | .pfw | .mramQuiescent | .mtimer _
  | .msipWrite _ _ | .linkFault | .align => true
  | .time lane _ _ => decide (lane.val < 2 * laneGroups v)
  | .unlock _ _ nonce => decide (nonce.length = 32)
  | .bypass | .idcode | .samplePreload | .extest | .clamp | .highz => true
  | .ctlEnSet page | .evack page _ | .snap page | .cntclr page => pageOk v page
  | .ctlEnClear page nonce => pageOk v page && decide (nonce.length = 32)
  | .registerWrite r a => r.ok && a.ok v
  | .resetDone _ | .activateBusy | .rnrRetry _ | .supplyLoss => true

end Sys2Proof
end

