-- ==== Sys2Proof/Tests/Slice0.lean ====
section
/-! SUPPORT. The model's own tests: for every statement with hypotheses a state and operands that meet them, clause by
clause; an ill-formed term for every check of WellFormed, which the check refuses; and a few steps whose result the spec
gives. -/

open Sys2Proof Sys2Proof.Machine

namespace Sys2Proof.Tests

set_option Elab.async false
set_option linter.unusedVariables false

/-! ### Small states and operands -/

/-- An entry of partition 3. -/
def ent (opc : Byte) (csp : BitVec 256 := 0) (dlen : Word := 0) (lrn : BitVec 64 := 0) : Sqe :=
  { opc := opc, cid := 7, part := 3, daddr := 4096, dlen := dlen, lrn := lrn, cspec := csp }
/-- A fetched command of polder 5 on pair 2 of function 1, its handle its number. -/
def cmd (h : Nat) (e : Sqe) : Cmd := { handle := h, src := .pcie 1 2, polder := 5, e := e, no := h }
def entry3 : PartEntry := { inUse := true, owner := 7, keyFp := 9 }
def cart3 : Cart := { core := { parts := [(3, entry3)], wps := [(0, { pnum := 3, role := .data })] } }
/-- A device with partition 3 of polder 5, its key held, open for writing on pair 2 of function 1. -/
def sHost (cs : List Cmd) : State :=
  { State.reset with host.cmds := cs, host.fwHold := false, host.pol := [(5, { enabled := true, tag := 7 })], vlt.keys := [⟨9, 0, 5, false⟩], cart := some cart3,
                     host.opens := [⟨.pcie 1 2, 3, true, 0⟩], rcd.riq := [(5, { part := some 3 })] }
/-- A state with a page enabled. -/
def en (pg : Nat) (s : State) : State := rset s pg 4 1
def img : FwImage :=
  { magic := 0x57464B43, version := 1, keyId := 0, variants := 1, imgLen := 4096, sigOff := 4000, fwVer := 3, svn := 1, entry := 64, sigOk := true, meas := 5 }
def simg : SchedImage :=
  { copyOk := true, sigOk := true, meas := 0, magic := 0x49535A47, fmtVer := 1, latRev := 1, variant := 1, keyId := 1, imgLen := 8032,
    sigOff := 7936, imageId := 1, stateCompat := 1, rdIter := 1, vfyIter := 1, speedCap := 12, qtol := 1, lenMaxFrame := 8402,
    lenMaxTsv := 8859, lenMaxT25 := 60952, lenMaxT2k := 761904, delay0 := 1, delay1 := 1, delay2 := 1, delay3 := 1, delay4 := 1,
    regenTicks := 1, verdictTicks := 1, tileTabOff := 256, secTabOff := 5376, detourOff := 5440, commut := 0, tiles := [], sects := [], detours := [] }
/-- The drive maker's key of the tests is the base point: a signature with the nonce 1 is then r = Gx, s = e + Gx modulo n. -/
def mkKey : List Byte := sec1 base384
def gx : Nat := 0xaa87ca22be8b05378eb1c71ef320ad746e1d3b628ba79b9859f741e082542a385502f25dbf55296c3a545e3872760ab7
def sigOf (s : Nat) : List Byte := beBytes gx 48 ++ beBytes s 48
/-- Flash cells of a byte string, but for erased bytes. -/
def cells (a : Nat) (bs : List Byte) : Sparse Byte := (bs.zipIdx.map (fun x => (a + x.2, x.1))).filter (fun x => x.2 ≠ 0xFF)
def fwHead (keyId variants : Byte) : List Byte :=
  [0x43, 0x4B, 0x46, 0x57, 1, 0, keyId, variants] ++ leBytes 224 4 ++ leBytes 128 4 ++ leBytes 3 8 ++ leBytes 1 4 ++ leBytes 64 4 ++ List.replicate 96 0
def fwBytes : List Byte :=
  fwHead 1 1 ++ sigOf 36108559482841259080788527284537026001390514358786484673890939566857236246214827570181622171161126089697470236485464
def dir2 : List DirEnt :=
  [{type := 1, offset := 0x20000, length := 1000}, {type := 2, offset := 0x40000, length := 1000}, {type := 5, offset := 0x70000, length := 97}]
/-- The directory as `dirBytes` writes it. -/
def dirLit : List Byte :=
  [67, 75, 70, 68, 1, 0, 3, 0] ++ leBytes 4 8 ++ List.replicate 12 0 ++ leBytes 0x4BD88784 4 ++
  [1, 0, 0, 0] ++ leBytes 0x20000 4 ++ leBytes 1000 4 ++ leBytes 0 4 ++ [2, 0, 0, 0] ++ leBytes 0x40000 4 ++ leBytes 1000 4 ++ leBytes 0 4 ++
  [5, 0, 0, 0] ++ leBytes 0x70000 4 ++ leBytes 97 4 ++ leBytes 0 4
/-- A flash with a directory, the same image in slots A and B, and the drive maker's key. -/
def flash0 : Sparse Byte := cells 0 dirLit ++ cells 0x20000 fwBytes ++ cells 0x40000 fwBytes ++ cells 0x70000 mkKey
/-- A device in the provisioned state before it boots from that flash, and the same with its directory in use. -/
def sCold : State := { State.reset with vlt.lifecycle := 1, vlt.keyHash := 21595558639399995160593208344425018387731221922735906635898491676811294048186811276291486386570035123399165663630621, mem.flash := flash0 }
def flashed (s : State) : State := { s with vlt.lifecycle := 1, vlt.makerKey := mkKey, mem.flash := flash0, top.dir := dir2 }
def benv : BootEnv := { romOk := true, flashOk := true }

/-! ### The hypotheses of the statements are met -/

/-- Pair 2 of function 1 is there, with entries posted and not signalled. -/
def sPairV14 : State := setPair 1 2 { present := true, sqN := 16, cqN := 16, ien := true, unsig := 1, cqTail := 3 } State.reset
def unl (n : Nat) : State := {State.reset with prb.words := List.range 23, prb.fails := n}
def ra (o : Nat) (n : Fin 9) (al : Bool := true) : RegAccess := { offset := o, bytes := n, aligned := al, data := 0xFFFFFFFF }
namespace ResetState


end ResetState

namespace OpenPartitionByMode

def s1 : State := sHost [cmd 4 (ent 1)]
def s2 : State := sHost [cmd 4 (ent 1 1)]
def s3 : State := sHost [cmd 4 (ent 1 2)]
def c1 : Cmd := cmd 4 (ent 1 1)
def c2 : Cmd := cmd 4 (ent 1 2)

theorem test_met_1 : Ready s1 4 1 (cmd 4 (ent 1)) ∧ BitVec.toNat (cmd 4 (ent (1 : Byte))).e.part = ↑(3 : Fin 64) ∧
    partCheck s1 (cmd 4 (ent 1)) = none ∧ keyHeld s1 (partEntry s1 ↑(3 : Fin 64)) (cmd 4 (ent (1 : Byte))).polder = true ∧
    csp (cmd 4 (ent 1)).e 32 1 = 0 := by decide +kernel
theorem test_met_2 : Ready s2 4 1 c1 ∧ BitVec.toNat c1.e.part = ↑(3 : Fin 64) ∧ partCheck s2 c1 = none ∧
    keyHeld s2 (partEntry s2 ↑(3 : Fin 64)) c1.polder = true ∧ csp c1.e 32 1 = 1 ∧
    writerBound s2 c1 = false := by decide +kernel
theorem test_met_3 : Ready s3 4 1 c2 ∧ BitVec.toNat c2.e.part = ↑(3 : Fin 64) ∧ partCheck s3 c2 = none ∧ csp c2.e 32 1 = 2 ∧
    (openingOf s3 c2.src ↑(3 : Fin 64)).isSome = true := by decide +kernel

/-- A started write of partition 3 is still on its way, and the queue shall write partition 4. -/
def s4 : State :=
  { sHost [cmd 4 { ent 1 1 with part := 4 }, { cmd 6 (ent 2) with started := true }] with
      cart := some { cart3 with core := { cart3.core with parts := [(3, entry3), (4, entry3)] } } }
def c4 : Cmd := cmd 4 { ent 1 1 with part := 4 }

theorem test_met_4 : Ready s4 4 1 c4 ∧ c4.e.part.toNat = (4 : Fin 64).val ∧ partCheck s4 c4 = none ∧
    keyHeld s4 (partEntry s4 4) c4.polder = true ∧ csp c4.e 32 1 = 1 ∧ writerBound s4 c4 = false ∧
    switchWaits s4 c4.polder 4 = true := by decide +kernel

end OpenPartitionByMode

namespace WritesTakeTheirRecordNumbers

def c1 : Cmd := cmd 4 (ent 2 0x500000002 10)
def c2 : Cmd := cmd 4 (ent 2 0x500000002 10 6)
def c3 : Cmd := cmd 4 (ent 4 2)
def c4 : Cmd := cmd 4 (ent 4 2 0 6)
def s1 : State := sHost [c1]
def s2 : State := { s1 with cart := some { cart3 with core := { cart3.core with parts := [(3, { entry3 with ubytes := 2 ^ 52 })] } } }
def s3 : State := sHost [c2]
def s4 : State := sHost [c3]
def s5 : State := sHost [c4]
/-- The partition is open, keyed and writable for the command. -/
abbrev Open (s : State) (c : Cmd) : Prop := openCheck s c true = none ∧ readOnly s = false
/-- It is not full, and a codec pair is there. -/
abbrev Free (s : State) : Prop := (partEntry s 3).full = false ∧ allPairsFenced s = false

theorem test_met_1 : Open s1 c1 ∧ Free s1 ∧ Ready s1 4 2 c1 ∧ lengthsOk c1 = true ∧ lrnOf c1.e = eodLrn s1 3 ∧
    ubytesSum s1 + bufLen c1.e c1.sgl ≤ 2 ^ 52 := by decide +kernel
theorem test_met_2 : Open s2 c1 ∧ Ready s2 4 2 c1 ∧ lengthsOk c1 = true ∧ lrnOf c1.e = eodLrn s2 3 ∧
    2 ^ 52 < ubytesSum s2 + bufLen c1.e c1.sgl := by decide +kernel
theorem test_met_3 : Open s3 c2 ∧ Ready s3 4 2 c2 ∧ lengthsOk c2 = true ∧ eodLrn s3 3 < lrnOf c2.e ∧ lrnOf c2.e ≠ lrnCurrent := by
  decide +kernel
theorem test_met_4 : Open s4 c3 ∧ Free s4 ∧ Ready s4 4 4 c3 ∧ lrnOf c3.e = eodLrn s4 3 ∧ ubytesSum s4 ≤ 2 ^ 52 := by decide +kernel
theorem test_met_5 : Open s5 c4 ∧ Ready s5 4 4 c4 ∧ eodLrn s5 3 < lrnOf c4.e ∧ lrnOf c4.e ≠ lrnCurrent := by decide +kernel

end WritesTakeTheirRecordNumbers

namespace ReadAndSyncStart

def s1 : State := sHost [cmd 4 (ent 3)]
def s2 : State := {sHost [cmd 4 (ent 5)] with rcd.riq := []}
/-- Record 0 of the partition is on tape, and no plan entry leads to it. -/
def s3 : State := { s1 with cart := some { cart3 with core := { cart3.core with parts := [(3, { entry3 with eodLrn := 4 })] } }, rcd.riq := [(5, { part := some 3, asgLrn := 4 })] }

theorem test_met_1 : BitVec.toNat (cmd 4 (ent (3 : Byte))).e.part = ↑(3 : Fin 64) ∧ Ready s1 4 3 (cmd 4 (ent 3)) ∧
    openCheck s1 (cmd 4 (ent 3)) false = none ∧ readMoves s1 3 0 = false := by decide +kernel
theorem test_met_2 : BitVec.toNat (cmd 4 (ent (5 : Byte))).e.part = ↑(3 : Fin 64) ∧ Ready s2 4 5 (cmd 4 (ent 5)) ∧
    openCheck s2 (cmd 4 (ent 5)) false = none ∧ (∀ w ∈ s2.host.cmds, w.e.opc ≠ 2 ∧ w.e.opc ≠ 4) ∧
    eodLrn s2 ↑(3 : Fin 64) ≤ syncLrnOf s2 ↑(3 : Fin 64) ∧
    (riqOf s2 ↑(cmd 4 (ent 5)).polder).part = none := by decide +kernel
theorem test_met_3 : Ready s3 4 3 (cmd 4 (ent 3)) ∧ openCheck s3 (cmd 4 (ent 3)) false = none ∧ readMoves s3 3 0 = true ∧
    fwTakes s3 = true := by decide +kernel
theorem test_met_4 : let s : State := { s3 with host.fwHold := true }
    Ready s 4 3 (cmd 4 (ent 3)) ∧ openCheck s (cmd 4 (ent 3)) false = none ∧ readMoves s 3 0 = true ∧ fwTakes s = false := by
  decide +kernel

end ReadAndSyncStart

namespace PositionCommands

def s1 : State := sHost [cmd 4 (ent 6)]
def s2 : State := sHost [cmd 4 (ent 6 0 0 0xFFFFFFFFFFFF)]
def s3 : State := {sHost [cmd 4 (ent 7 3)] with rcd.riq := [(5, {part:= some 3, asgLrn := 3})]}
def s4 : State := sHost [cmd 4 (ent 8 0 64)]
def c1 : Cmd := cmd 4 (ent 6 0 0 0xFFFFFFFFFFFF)
def c2 : Cmd := cmd 4 (ent 7 3)
def c3 : Cmd := cmd 4 (ent 8 0 64)
def w1 : List Nat := ([] : List Nat)

theorem test_met_1 : openCheck s1 (cmd 4 (ent 6)) false = none ∧ Ready s1 4 6 (cmd 4 (ent 6)) ∧
    (let part := BitVec.toNat (cmd 4 (ent 6)).e.part; let eod := eodLrn s1 part; lrnOf (cmd 4 (ent 6)).e ≤ eod) ∧
    lrnOf (cmd 4 (ent 6)).e ≠ lrnCurrent := by dsimp only; decide +kernel
theorem test_met_2 : openCheck s2 c1 false = none ∧ Ready s2 4 6 c1 ∧ lrnOf c1.e = lrnCurrent := by decide +kernel
theorem test_met_3 : openCheck s3 c2 false = none ∧ Ready s3 4 7 c2 ∧ csp c2.e 36 1 = 0 ∧ csp c2.e 32 4 = 3 ∧ 3 < 2 ^ 31 ∧
    (let part := BitVec.toNat c2.e.part; let rp := (Option.map (fun x => x.read) (openingOf s3 c2.src part)).getD 0; ∀ m ∈ allMarks s3 part w1, m < rp ∨ rp + 3 ≤ m) ∧
    (let part := BitVec.toNat c2.e.part; let eod := eodLrn s3 part; let rp := (Option.map (fun x => x.read) (openingOf s3 c2.src part)).getD 0; rp + 3 ≤ eod) := by dsimp only; decide +kernel
theorem test_met_4 : openCheck s4 c3 false = none ∧ Ready s4 4 8 c3 ∧ 64 ≤ bufLen c3.e c3.sgl ∧
    (let part := BitVec.toNat c3.e.part; let rp := (Option.map (fun x => x.read) (openingOf s4 c3.src part)).getD 0; (Option.map (fun x => sget 0 x.baseLrn part) s4.cart).getD 0 ≤ rp) := by dsimp only; decide +kernel

end PositionCommands

namespace VaultCommandsStart

def s1 : State := sHost [cmd 4 (ent 9 0 192)]
def s2 : State := sHost [cmd 4 (ent 10)]
def s3 : State := sHost [cmd 4 (ent 11 0 336)]
def s4 : State := sHost [cmd 4 (ent 11 0 335)]
def c1 : Cmd := cmd 4 (ent 9 0 192)
def c2 : Cmd := cmd 4 (ent 10)
def c3 : Cmd := cmd 4 (ent 11 0 336)
def c4 : Cmd := cmd 4 (ent 11 0 335)

theorem test_met_1 : Ready s1 4 9 c1 ∧ partCheck s1 c1 = none ∧ usesSgl c1.e = false ∧ c1.e.dlen = 192 := by decide +kernel
theorem test_met_2 : Ready s2 4 10 c2 := by decide +kernel
theorem test_met_3 : Ready s3 4 11 c3 ∧ 336 ≤ bufLen c3.e c3.sgl := by decide +kernel
theorem test_met_4 : Ready s4 4 11 c4 ∧ bufLen c4.e c4.sgl < 336 := by decide +kernel

end VaultCommandsStart

namespace AbortActsOnItsTarget

def s1 : State := sHost [cmd 4 (ent 12 (2+7*65536))]
def s2 : State := sHost [cmd 2 (ent 3), cmd 4 (ent 12 (2+7*65536))]
def s3 : State := sHost [{ cmd 2 (ent 3) with started := true}, cmd 4 (ent 12 (2+7*65536))]
def s4 : State := sHost [{ cmd 2 (ent 4) with started := true}, cmd 4 (ent 12 (2+7*65536))]
def c1 : Cmd := cmd 4 (ent 12 (2+7*65536))
def c2 : Cmd := { cmd 2 (ent 3) with started := true}
def c3 : Cmd := { cmd 2 (ent 4) with started := true}

theorem test_met_1 : Ready s1 4 12 c1 ∧
    (let target := List.find? (fun t => decide (t.src = abortSrc c1 ∧ t.e.cid.toNat = csp c1.e 34 2 ∧ t.fin.isNone = true ∧ t.handle ≠ 4 ∧ (!t.silent) = true)) s1.host.cmds; target = none) := by dsimp only; decide +kernel
theorem test_met_2 : Ready s2 4 12 c1 ∧
    (let target := List.find? (fun t => decide (t.src = abortSrc c1 ∧ t.e.cid.toNat = csp c1.e 34 2 ∧ t.fin.isNone = true ∧ t.handle ≠ 4 ∧ (!t.silent) = true)) s2.host.cmds; target = some (cmd 2 (ent 3))) ∧
    (cmd 2 (ent 3)).started = false := by dsimp only; decide +kernel
theorem test_met_3 : Ready s3 4 12 c1 ∧
    (let target := List.find? (fun t => decide (t.src = abortSrc c1 ∧ t.e.cid.toNat = csp c1.e 34 2 ∧ t.fin.isNone = true ∧ t.handle ≠ 4 ∧ (!t.silent) = true)) s3.host.cmds; target = some c2) ∧
    c2.started = true ∧ c2.e.opc = 3 := by dsimp only; decide +kernel
theorem test_met_4 : Ready s4 4 12 c1 ∧
    (let target := List.find? (fun t => decide (t.src = abortSrc c1 ∧ t.e.cid.toNat = csp c1.e 34 2 ∧ t.fin.isNone = true ∧ t.handle ≠ 4 ∧ (!t.silent) = true)) s4.host.cmds; target = some c3) ∧
    c3.started = true ∧ (c3.e.opc = 2 ∨ c3.e.opc = 4) := by dsimp only; decide +kernel
def s5 : State := sHost [{ cmd 2 (ent 5) with started := true}, cmd 4 (ent 12 (2+7*65536))]
def d5 : Cmd := { cmd 2 (ent 5) with started := true}
theorem test_met_5 : Ready s5 4 12 c1 ∧
    (let target := List.find? (fun t => decide (t.src = abortSrc c1 ∧ t.e.cid.toNat = csp c1.e 34 2 ∧ t.fin.isNone = true ∧ t.handle ≠ 4 ∧ (!t.silent) = true)) s5.host.cmds; target = some d5) ∧
    d5.started = true ∧ d5.e.opc = 5 := by dsimp only; decide +kernel
def s6 : State := sHost [{ cmd 2 (ent 7) with started := true}, cmd 4 (ent 12 (2+7*65536))]
def d6 : Cmd := { cmd 2 (ent 7) with started := true}
theorem test_met_6 : Ready s6 4 12 c1 ∧
    (let target := List.find? (fun t => decide (t.src = abortSrc c1 ∧ t.e.cid.toNat = csp c1.e 34 2 ∧ t.fin.isNone = true ∧ t.handle ≠ 4 ∧ (!t.silent) = true)) s6.host.cmds; target = some d6) ∧
    d6.started = true ∧ (d6.e.opc = 6 ∨ d6.e.opc = 7) := by dsimp only; decide +kernel
def s7 : State := sHost [{ cmd 2 (ent 9) with started := true}, cmd 4 (ent 12 (2+7*65536))]
def d7 : Cmd := { cmd 2 (ent 9) with started := true}
theorem test_met_7 : Ready s7 4 12 c1 ∧
    (let target := List.find? (fun t => decide (t.src = abortSrc c1 ∧ t.e.cid.toNat = csp c1.e 34 2 ∧ t.fin.isNone = true ∧ t.handle ≠ 4 ∧ (!t.silent) = true)) s7.host.cmds; target = some d7) ∧
    d7.started = true ∧ (d7.e.opc.toNat < 2 ∨ 7 < d7.e.opc.toNat) := by dsimp only; decide +kernel

end AbortActsOnItsTarget

def label1 (lclass : BitVec 16) : Label := { lclass := lclass, posPerWrap := 434128, cartId := 5, initDev := 2, initTime := 3, wpCount := 200 }
/-- A label data set at position 1,240, its CARTID 5 (R102, R105). -/
def labelOf (lclass : BitVec 16) : Nat × List Byte :=
  (1240, dsHeaderBytes { dsType := 3, geom := 1, pnum := 0xFF, dsn := 0xFFFFFF00, streamLen := 50 } ++ labelBytes (label1 lclass))
/-- An index with no partition, written last 0xFF, up to the last 128 bytes before its granule digest: 76 blocks of SHA-384. -/
def idxTop : List Byte := indexHeader { lastP := 0xFF } ++ (List.range 200).flatMap (fun _ => wpBytes {})
def idxFront : List Byte := idxTop ++ List.replicate 8064 0
/-- The index up to its granule digest, with the last byte of its partition table. -/
def hdOf (b : Byte) : List Byte := idxFront ++ (List.replicate 127 0 ++ [b])
/-- A chain whose certificate holds the key of the tests, and the signatures of the indexes with 0 and with 1 as that byte. -/
def idxChain : List Byte := [0x2B, 0x81, 0x04, 0x00, 0x22, 0x03, 0x62, 0x00] ++ mkKey
def idxSig (b : Byte) : List Byte := sigOf (if b = 0 then
  11060440262124566347980787138322594558601551839469186366345798207071768118930656864941440681598772861126563415107858
  else 31499319308238165541896307238462654176386400496087374530530975876874094809338936050930062027132091785920475761081440)
/-- Its whole image. -/
def imgOf (b : Byte) : List Byte :=
  hdOf b ++ (sha384 [] ++ (sha384 (hdOf b ++ sha384 []) ++ (idxSig b ++ (beBytes idxChain.length 4 ++ (idxChain ++ [])))))
def copyOf (b : Byte) : CopyRead := .copy (imgOf b) true true 0

theorem length_idxTop : idxTop.length = 0x680 := by
  have h1 : ((List.range 200).flatMap (fun _ => wpBytes {})).length = 1600 := by decide +kernel
  simp only [idxTop, indexHeader, List.length_append, h1, length_beBytes, List.length_cons, List.length_nil]
theorem length_idxFront : idxFront.length = 9728 := by
  rw [idxFront, List.length_append, length_idxTop, List.length_replicate]
theorem length_hdOf (b : Byte) : (hdOf b).length = 0x2680 := by
  simp only [hdOf, List.length_append, length_idxFront, List.length_replicate, List.length_cons, List.length_nil]
theorem no_granules (b : Byte) : ∀ q ∈ List.range 64, beField ((hdOf b).drop (0x680 + 128 * q)) 0x48 4 = 0 := by
  intro q hq
  have := List.mem_range.1 hq
  have hd : hdOf b = idxTop ++ (List.replicate 8191 0 ++ [b]) := by
    rw [hdOf, idxFront, List.append_assoc, ← List.append_assoc (List.replicate 8064 _), ← List.replicate_add]
  rw [hd, beField, List.drop_drop, ← length_idxTop, Nat.add_assoc, List.drop_append, List.drop_of_length_le (by omega), List.nil_append,
    Nat.add_sub_cancel_left, List.drop_append_of_le_length (by rw [List.length_replicate]; omega), List.drop_replicate,
    List.take_append_of_le_length (by rw [List.length_replicate]; omega), List.take_replicate, Nat.min_eq_left (by omega)]
  rfl
/-- SHA-384 after the first 76 blocks of the index. -/
theorem sha_front : shaBlocks 76 sha384Init idxFront =
    [5593857799638691160#64, 10343285517308190946#64, 1581805059799866157#64, 16388514393148271252#64,
     9721638418322058485#64, 4160214597575644698#64, 11715555661871078585#64, 15263047787404150474#64] := by decide +kernel
theorem sha_hd (b : Byte) : sha384 (hdOf b ++ sha384 []) = ((shaBlocks 2
    [5593857799638691160#64, 10343285517308190946#64, 1581805059799866157#64, 16388514393148271252#64,
     9721638418322058485#64, 4160214597575644698#64, 11715555661871078585#64, 15263047787404150474#64]
    (List.replicate 127 0 ++ (b :: (sha384 [] ++ 0x80#8 :: (List.replicate 63 0 ++ beBytes 79232 16))))).take 6).flatMap
      (fun w => beBytes w.toNat 8) := by
  have hl : (hdOf b ++ sha384 []).length = 9904 := by simp only [List.length_append, length_hdOf, Laws.length_sha384]
  rw [← sha_front, ← Laws.shaBlocks_append 76 2 _ _ _ (by rw [length_idxFront]), sha384]
  simp only [hl]
  simp only [hdOf, List.append_assoc, List.cons_append, List.nil_append]
theorem idx_signed (b : Byte) (hb : b = 0 ∨ b = 1) : ecdsaOk (chainKey idxChain) (sha384 (hdOf b ++ sha384 [])) (idxSig b) = true := by
  rw [sha_hd]
  rcases hb with rfl | rfl <;> decide +kernel
theorem whole_imgOf (b : Byte) (hb : b = 0 ∨ b = 1) (r : List Byte) (t : Bool) : imageWhole (imgOf b ++ r) t = true := by
  have h := Laws.imageWhole_blank (hd := hdOf b) (sig := idxSig b) (chain := idxChain) (tail := r) t (length_hdOf b)
    (by rcases hb with rfl | rfl <;> decide +kernel) (by rcases hb with rfl | rfl <;> decide +kernel) (no_granules b)
    (by rcases hb with rfl | rfl <;> decide +kernel) (by decide +kernel) (idx_signed b hb)
  simpa only [imgOf, List.append_assoc, List.nil_append] using h
theorem core_imgOf (b : Byte) (r : List Byte) : readCore (imgOf b ++ r) = readCore (hdOf b) := by
  rw [imgOf, List.append_assoc, Laws.readCore_append (by rw [length_hdOf])]
/-- What a witness needs of the core. -/
theorem core_hdOf (b : Byte) (hb : b = 0 ∨ b = 1) : (readCore (hdOf b)).writer = 0#32 ∧ (readCore (hdOf b)).gen = 0 ∧
    (readCore (hdOf b)).lastP = 0xFF := by rcases hb with rfl | rfl <;> decide +kernel
theorem copyCore_of (b : Byte) (hb : b = 0 ∨ b = 1) (r : List Byte) (t : Bool) :
    copyCore t (.copy (imgOf b ++ r) true true 0) = some (readCore (hdOf b)) := by
  simp [copyCore, core_imgOf, whole_imgOf b hb, core_hdOf b hb]
theorem bytes_imgOf (b : Byte) (r : List Byte) : (imgOf b ++ r).take 0x26B0 = hdOf b ++ sha384 [] := by
  rw [imgOf, List.append_assoc, List.append_assoc, ← List.append_assoc,
    List.take_left' (by simp only [List.length_append, length_hdOf, Laws.length_sha384])]

def lenv : LoadEnv := { label := some (labelOf 1), copyA0 := copyOf 0, copyB := copyOf 0, copyC := some (true, 0) }
def sPair : State := setPair 1 2 { present := true, sqN := 16, cqN := 16, ien := true, unsig := 1, cqTail := 3 } State.reset
def sGo : State := rset State.reset (pgQMG 1) 0x604 16
def sCr : State := {rset (rset (rset (rset State.reset (pgQMG 1) 0x110 0x100010) (pgWIN 1) 0xE00 1) 0 0 0) 0 0 0 with host.vfEnable := true, host.numVFs := 3, host.pol := [(1, {enabled := true, attach := 1})]}
namespace LoadMountsTheIndex

def c1 : Cmd := cmd 4 (ent 0x81)
def s1 : State := sHost [c1]
def s2 : State := { sHost [c1] with cart := none, mem.staging := writeBytes 0 [] 0 (imgOf 0) }
def env2 : LoadEnv := { lenv with copyB := copyOf 1 }

theorem test_met_1 : Ready s1 4 129 c1 ∧ NoneAlike s1 c1 ∧ s1.cart.isSome = true := by decide +kernel
theorem test_met_2 : Ready s2 4 129 c1 ∧ NoneAlike s2 c1 ∧ s2.cart = none ∧ (none : Option (Nat × List Byte)).bind readLabel = none ∧
    lenv.label.bind readLabel = some (label1 1) ∧ (some (labelOf 2)).bind readLabel = some (label1 2) ∧ csp c1.e 32 1 = 0 := by
  decide +kernel
theorem copyA : copyCore true (copyOf 0) = some (readCore (hdOf 0)) := by
  simpa only [copyOf, List.append_nil] using copyCore_of 0 (Or.inl rfl) [] true
theorem copyB : copyCore true (copyOf 1) = some (readCore (hdOf 1)) := by
  simpa only [copyOf, List.append_nil] using copyCore_of 1 (Or.inr rfl) [] true
theorem copyC (e : LoadEnv) (he : e.copyC = some (true, 0)) : ∃ r, copyCRead s2 e = .copy (imgOf 0 ++ r) true true 0 := by
  obtain ⟨r, hr⟩ := Laws.readBytes_writeBytes (d := 0) (m := []) (by rfl) 0 (imgOf 0) copyCLen
    (by simp only [imgOf, List.length_append, length_hdOf, Laws.length_sha384, length_beBytes]; decide +kernel)
  have hi : 64 * bits (rget s2 pgTOP 0x128) 24 6 = 0 := by decide +kernel
  have hs : s2.mem.staging = writeBytes 0 [] 0 (imgOf 0) := by simp only [s2]
  exact ⟨r, by simp only [copyCRead, he, hi, hs, hr]⟩
theorem newest (e : LoadEnv) (h0 : e.copyA0 = copyOf 0) (h1 : e.copyA1 = .absent) : newestA e = copyOf 0 := by
  have h : copyCore true .absent = none := rfl
  simp only [newestA, h0, h1, copyA, h]
theorem gen_imgOf (b : Byte) (hb : b = 0 ∨ b = 1) (r : List Byte) (t : Bool) : (⟨t, imgOf b ++ r⟩ : Whole).gen = 0 := by
  rw [Whole.gen, core_imgOf, (core_hdOf b hb).2.1]
  rfl
/-- Copies of one generation are all on top. -/
theorem tops (x : Copies) (h : ∀ w ∈ intactCopies x, w.gen = 0) : topCopies x = intactCopies x := by
  have hm : ∀ l : List Whole, (∀ w ∈ l, w.gen = 0) → l.foldl (fun m c => max m c.gen) 0 = 0 := by
    intro l hl
    induction l with
    | nil => rfl
    | cons c r ih =>
      rw [List.foldl_cons, hl c List.mem_cons_self, Nat.max_self]
      exact ih (fun w hw => hl w (List.mem_cons_of_mem _ hw))
  simp only [topCopies, hm _ h]
  exact List.filter_eq_self.2 (fun w hw => by simp [h w hw])
/-- The copies of an environment whose copy B has the byte `b`. -/
theorem copies (e : LoadEnv) (b : Byte) (hb : b = 0 ∨ b = 1) (h0 : e.copyA0 = copyOf 0) (h1 : e.copyA1 = .absent) (h2 : e.copyB = copyOf b)
    (h3 : e.copyC = some (true, 0)) : ∃ r, topCopies (copiesOf s2 e) = [⟨true, imgOf 0⟩, ⟨true, imgOf b⟩, ⟨false, imgOf 0 ++ r⟩] := by
  obtain ⟨r, hr⟩ := copyC e h3
  have hB : copyCore true (copyOf b) = some (readCore (hdOf b)) := by rcases hb with rfl | rfl; exacts [copyA, copyB]
  have hi : intactCopies (copiesOf s2 e) = [⟨true, imgOf 0⟩, ⟨true, imgOf b⟩, ⟨false, imgOf 0 ++ r⟩] := by
    have hw : ∀ (t : Bool) (c : Byte) (r : List Byte), copyCore t (.copy (imgOf c ++ r) true true 0) = some (readCore (hdOf c)) →
        wholeOf t (.copy (imgOf c ++ r) true true 0) = some ⟨t, imgOf c ++ r⟩ := by
      intro t c r h
      simp only [wholeOf, h, Option.isSome_some, if_true]
    have wA := hw true 0 [] (by rw [List.append_nil]; exact copyA)
    have wB := hw true b [] (by rw [List.append_nil]; exact hB)
    have wC := hw false 0 r (copyCore_of 0 (Or.inl rfl) r false)
    rw [List.append_nil] at wA wB
    simp only [intactCopies, copiesOf, newest e h0 h1, h2, hr, copyOf, wA, wB, wC]
    rfl
  refine ⟨r, ?_⟩
  rw [tops _ ?_, hi]
  rw [hi]
  intro w hw
  simp only [List.mem_cons, List.not_mem_nil, or_false] at hw
  rcases hw with rfl | rfl | rfl
  · simpa only [List.append_nil] using gen_imgOf 0 (Or.inl rfl) [] true
  · simpa only [List.append_nil] using gen_imgOf b hb [] true
  · exact gen_imgOf 0 (Or.inl rfl) r false
theorem test_met_3 : let x := copiesOf s2 lenv
    copyCore true x.a = some (readCore (hdOf 0)) ∧ copyCore true x.b = some (readCore (hdOf 0)) ∧
      copyCore false x.c = some (readCore (hdOf 0)) ∧ (topCopies x).any (fun a => (topCopies x).any (coresDiffer a)) = false ∧
      (readCore (hdOf 0)).lastP = 0xFF := by
  obtain ⟨r, hr⟩ := copyC lenv rfl
  obtain ⟨r', ht⟩ := copies lenv 0 (Or.inl rfl) rfl rfl rfl rfl
  refine ⟨by simp only [copiesOf, newest lenv rfl rfl, copyA], copyA, by simp only [copiesOf, hr, copyCore_of 0 (Or.inl rfl)], ?_,
    (core_hdOf 0 (Or.inl rfl)).2.2⟩
  have h0 : (imgOf 0).take 0x26B0 = hdOf 0 ++ sha384 [] := by simpa only [List.append_nil] using bytes_imgOf 0 []
  simp only [ht, coresDiffer, List.any_cons, List.any_nil, h0, bytes_imgOf]
  simp
theorem test_met_4 : ∃ a ∈ topCopies (copiesOf s2 env2), ∃ b ∈ topCopies (copiesOf s2 env2), coresDiffer a b = true := by
  obtain ⟨r, ht⟩ := copies env2 1 (Or.inr rfl) rfl rfl rfl rfl
  refine ⟨⟨true, imgOf 0⟩, by rw [ht]; simp, ⟨true, imgOf 1⟩, by rw [ht]; simp, ?_⟩
  have h0 : (imgOf 0).take 0x26B0 = hdOf 0 ++ sha384 [] := by simpa only [List.append_nil] using bytes_imgOf 0 []
  have h1 : (imgOf 1).take 0x26B0 = hdOf 1 ++ sha384 [] := by simpa only [List.append_nil] using bytes_imgOf 1 []
  simp only [coresDiffer, h0, h1, decide_eq_true_eq]
  intro h
  have h := List.append_cancel_left (List.append_cancel_right h)
  exact absurd h (by decide)

end LoadMountsTheIndex

namespace UnloadAndDeleteBegin

def s1 : State := {sHost [cmd 4 (ent 0x82)] with rcd.riq := []}
def s2 : State := sHost [cmd 4 (ent 0x84)]
def s3 : State := {sHost [cmd 4 (ent 0x84)] with host.opens := []}
def c1 : Cmd := cmd 4 (ent 0x82)
def c2 : Cmd := cmd 4 (ent 0x84)

theorem test_met_1 : NoneAlike s1 c1 ∧ notLoaded s1 c1 = false ∧ Ready s1 4 130 c1 ∧ s1.bas.slots = [] ∧
    c1.no < (cmd 9 (ent 1)).no := by decide +kernel
theorem test_met_all_queues_empty : ∀ p : Nat, (riqOf s1 p).part = none := fun _ => rfl
theorem test_met_2 : NoneAlike s2 c2 ∧ notLoaded s2 c2 = false ∧ Ready s2 4 132 c2 ∧ readOnly s2 = false ∧
    (partEntry s2 (BitVec.toNat c2.e.part)).inUse = true ∧
    (s2.host.opens.any fun o => decide (↑o.part = BitVec.toNat c2.e.part)) = true := by decide +kernel
theorem test_met_3 : NoneAlike s3 c2 ∧ notLoaded s3 c2 = false ∧ Ready s3 4 132 c2 ∧ readOnly s3 = false ∧
    (partEntry s3 (BitVec.toNat c2.e.part)).inUse = true ∧
    (s3.host.opens.any fun o => decide (↑o.part = BitVec.toNat c2.e.part)) = false := by decide +kernel

end UnloadAndDeleteBegin

namespace PartitionCreateMakesTheEntry

def s1 : State := sHost [cmd 4 (ent 0x83 3)]
def s2 : State := {sHost [cmd 4 (ent 0x83 2)] with cart := some {}}
def s3 : State := {sHost [cmd 4 (ent 0x83 1)] with cart := some {core := {wps := [(0,{pnum:=3, role:=.data})]}}}
def s4 : State := {sHost [cmd 4 (ent 0x83 1)] with cart := some {}}
def c1 : Cmd := cmd 4 (ent 0x83 3)
def c2 : Cmd := cmd 4 (ent 0x83 2)
def c3 : Cmd := cmd 4 (ent 0x83 1)
def w1 : Cart := ({core := {wps := [(0,{pnum:=3, role:=.data})]}} : Cart)
def w2 : IndexCore := ((createWps 3 [1] {}).getD {})
def w3 : IndexCore := ((createWps 3 [0] {}).getD {})

theorem test_met_1 : Ready s1 4 131 c1 ∧ NoneAlike s1 c1 ∧ notLoaded s1 c1 = false ∧ readOnly s1 = false ∧
    s1.cart = some cart3 ∧
    (let part := BitVec.toNat c1.e.part; (partEntry s1 part).inUse = true) := by dsimp only; decide +kernel
theorem test_met_2 : Ready s2 4 131 c2 ∧ NoneAlike s2 c2 ∧ notLoaded s2 c2 = false ∧ readOnly s2 = false ∧
    s2.cart = some { } ∧ (let part := BitVec.toNat c2.e.part; (partEntry s2 part).inUse = false) ∧ wpmap c2.e ≠ [] ∧
    (let part := BitVec.toNat c2.e.part; createWps part (wpmap c2.e) ({} : Cart).core = some w2) := by dsimp only; decide +kernel
theorem test_met_3 : Ready s3 4 131 c3 ∧ NoneAlike s3 c3 ∧ notLoaded s3 c3 = false ∧ readOnly s3 = false ∧
    s3.cart = some w1 ∧ (let part := BitVec.toNat c3.e.part; (partEntry s3 part).inUse = false) ∧ wpmap c3.e ≠ [] ∧
    (let part := BitVec.toNat c3.e.part; createWps part (wpmap c3.e) w1.core = none) := by dsimp only; decide +kernel

end PartitionCreateMakesTheEntry

namespace PolderConfigWritesTheShares

def s1 : State := sHost [cmd 4 (ent 0x85 0x10102)]
def s2 : State := sHost [cmd 4 (ent 0x85 0x03ff0002)]
def s3 : State := sHost [cmd 4 (ent 0x85 0xffff00000102)]
def s4 : State := sHost [cmd 4 (ent 0x85 0)]
def c1 : Cmd := cmd 4 (ent 0x85 0x10102)
def c2 : Cmd := cmd 4 (ent 0x85 0x03ff0002)
def c3 : Cmd := cmd 4 (ent 0x85 0xffff00000102)
def c4 : Cmd := cmd 4 (ent 0x85 0)

theorem test_met_1 : Ready s1 4 133 c1 ∧ NoneAlike s1 c1 ∧ (let on := decide (csp c1.e 33 1 = 1); on = true) ∧
    (let p := csp c1.e 32 1; let maxq := csp c1.e 35 1; let tag := BitVec.ofNat 64 (csp c1.e 40 8); polderBad s1 p maxq true tag = false) ∧
    (let p := csp c1.e 32 1; let quota := csp c1.e 36 2; let share := csp c1.e 38 2; sharesFit s1 p quota share = true) := by dsimp only; decide +kernel
theorem test_met_2 : Ready s3 4 133 c3 ∧ NoneAlike s3 c3 ∧
    (let p := csp c3.e 32 1; let on := decide (csp c3.e 33 1 = 1); let maxq := csp c3.e 35 1; let tag := BitVec.ofNat 64 (csp c3.e 40 8); polderBad s3 p maxq on tag = false) ∧
    (let p := csp c3.e 32 1; let quota := csp c3.e 36 2; let share := csp c3.e 38 2; sharesFit s3 p quota share = false) := by dsimp only; decide +kernel
theorem test_met_3 : Ready s4 4 133 c4 ∧ NoneAlike s4 c4 ∧ (let on := decide (csp c4.e 33 1 = 1); on = false) ∧
    (let p := csp c4.e 32 1; p = 0) := by dsimp only; decide +kernel

end PolderConfigWritesTheShares

namespace ImagesLogsAndTime

def s1 : State := {sHost [cmd 4 (ent 0x86 10 4)] with top.dir := dir2}
def s2 : State := flashed (sHost [cmd 4 (ent 0x87 0)])
def s3 : State := sHost [cmd 4 (ent 0x88 (1 + 64*2^32))]
def s4 : State := {sHost [cmd 4 (ent 0x89 1 16)] with host.errlog := [(5, [⟨0,0,0,0,0,0,0,0⟩])]}
def s5 : State := sHost [cmd 4 (ent 0x8A 1 16)]
def c1 : Cmd := cmd 4 (ent 0x86 10 4)
def c2 : Cmd := cmd 4 (ent 0x87 0)
def c3 : Cmd := cmd 4 (ent 0x88 (1 + 64*2^32))
def c4 : Cmd := cmd 4 (ent 0x89 1 16)
def c5 : Cmd := cmd 4 (ent 0x8A 1 16)
def w1 : List Byte := ([1,2,3,4,5]: List Byte)
def s2b : State := { flashed (sHost [cmd 4 (ent 0x87 0)]) with vlt.svnMin := 2 }

theorem test_met_1 : NoneAlike s1 c1 ∧ Ready s1 4 134 c1 ∧ idleSlot s1 = some (262144, 1000) ∧
    csp c1.e 32 4 + bufLen c1.e c1.sgl ≤ 1000 := by decide +kernel
theorem test_met_2 : NoneAlike s2 c2 ∧ Ready s2 4 135 c2 ∧ s2.top.pf = false ∧ csp c2.e 32 1 = 0 := by decide +kernel
theorem test_met_2_image : (commitFw (!s2.top.committed) s2).isSome ∧ (commitFw (!s2.top.committed) s2).all (fun x => !x.2.top.recovery) := by
  decide +kernel
theorem test_met_3 : NoneAlike s2b c2 ∧ Ready s2b 4 135 c2 ∧ s2b.top.pf = false ∧ slotFw s2b (!s2b.top.committed) = none := by decide +kernel
theorem test_met_4 : NoneAlike s3 c3 ∧ Ready s3 4 136 c3 ∧ csp c3.e 32 1 = 1 ∧ csp c3.e 36 4 % 64 = 0 := by decide +kernel
theorem test_met_5 : NoneAlike s4 c4 ∧ Ready s4 4 137 c4 ∧ csp c4.e 32 1 = 1 ∧
    (let page := (List.map (fun x => x.bytes) (sget [] s4.host.errlog ↑c4.polder)).flatten; let bs := List.take (bufLen c4.e c4.sgl) (List.drop (csp c4.e 36 4) page); bs ≠ [] ∨ page.length ≤ csp c4.e 36 4) := by dsimp only; decide +kernel
theorem test_met_6 : NoneAlike s5 c5 ∧ Ready s5 4 138 c5 := by decide +kernel

end ImagesLogsAndTime

namespace DoorbellsMoveOrHalt

def sHalt : State := setPair 1 2 { getPair sPair 1 2 with halted := true } sPair

theorem test_met_1 : sget none sPair.rf.guard (pgQMG 1) = none ∧ (getPair sPair 1 2).present = true ∧
    (getPair sPair 1 2).halted = false := by decide +kernel
theorem test_met_2 : (getPair sHalt 1 2).halted = true := by decide +kernel
theorem test_met_3 : bits (15 : Word) 11 0 < (getPair sPair 1 2).sqN := by decide +kernel
theorem test_met_4 : ¬ bits (16 : Word) 11 0 < (getPair sPair 1 2).sqN := by decide +kernel
theorem test_met_5 : bits (3 : Word) 11 0 < (getPair sPair 1 2).cqN ∧
    (3 + (getPair sPair 1 2).cqN - (getPair sPair 1 2).cqHead) % (getPair sPair 1 2).cqN ≤ cqHeld (getPair sPair 1 2) := by decide +kernel
theorem test_met_6 : ¬ (4 + (getPair sPair 1 2).cqN - (getPair sPair 1 2).cqHead) % (getPair sPair 1 2).cqN ≤ cqHeld (getPair sPair 1 2) := by decide +kernel

end DoorbellsMoveOrHalt

/-- Pair 2 of function 1 is there, with entries posted and not signalled. -/
def sPairV2 : State := setPair 1 2 { present := true, sqN := 16, cqN := 16, ien := true, unsig := 1, cqTail := 3 } State.reset
/-- Function 1 is enabled, with a window over the first 16 MiB of host memory. -/
def sFn : State :=
  let s := rset (rset State.reset (pgWIN 1) 0xE08 0x1000) (pgWIN 1) 0xE0C 3
  { s with host.vfEnable := true, host.numVFs := 3, host.pol := [(1, { enabled := true, attach := 1 })] }
def chan (c : DmaChan) (s : State) : State := setDma 3 c s
def sD : State := en (pgDMA 3) (rset (rset (rset State.reset (pgDMA 3) 0x114 2) (pgDMA 3) 0x104 1) (pgDMA 3) 0x10C 0x80000000)
def dd : List Byte := [0,0,0,0x80, 0,0,0,0, 0,1,0,0x80, 0,0,0,0, 64,0,0,0, 0x92,2,0,0]
def sB : State := chan {st := .running, src := 0x80000000, dst := 0x80000100, srcSp := 2, dstSp := 2, len := 64} (rset {State.reset with mem.coreMem := writeBytes 0 [] 0 [1,2,3]} (pgDMA 3) 0x108 8)
def sE : State := chan {st := .running, src := 0x80000000, dst := 0x80000100, srcSp := 2, dstSp := 2, len := 64, done := 64, last := true} sB
def sR : State := chan {st := .running, src := 0x1000, dst := 0x80000100, srcSp := 0, dstSp := 2, len := 64, rdOut := some 4} sB
def sG : State := chan {st := .running, dst := 0x80000000, srcSp := 5, dstSp := 2, len := 8192, ring := true, partials := [1,2,3,4]} sB
namespace QueuePairsAreMadeAndEnded


def s1 : State := {sPairV2 with host.cmds := [cmd 4 (ent 1)]}
def s2 : State := setPair 1 2 {getPair sPairV2 1 2 with deleting := true} sPairV2
def s1a : State := rset sFn (pgQMG 1) 0x110 0x10001
def s2a : State := rset sFn (pgQMG 1) 0x604 16

theorem test_met_1 : sget none sGo.rf.guard (pgQMG ↑(1 : Fin 64)) = none ∧
    rbit sGo (pgQMG ↑(1 : Fin 64)) 1540 4 = true := by decide +kernel
theorem test_met_2 : sget none State.reset.rf.guard (pgQMG ↑(1 : Fin 64)) = none ∧
    rbit State.reset (pgQMG ↑(1 : Fin 64)) 1540 4 = false ∧
    createCode State.reset 1 2 (stagedPair State.reset 1) = some 3 := by decide +kernel
theorem test_met_3 : sget none s1.rf.guard (pgQMG ↑(1 : Fin 64)) = none ∧ rbit s1 (pgQMG ↑(1 : Fin 64)) 1540 4 = false ∧
    (getPair s1 1 2).present = true ∧ (∀ o ∈ s1.host.opens, o.src ≠ Src.pcie 1 2) := by decide +kernel
theorem test_met_4 : sget none s2.rf.guard (pgQMG ↑(1 : Fin 64)) = none ∧ (getPair s2 1 2).deleting = true ∧
    (∀ c ∈ s2.host.cmds, c.src ≠ Src.pcie 1 2) := by decide +kernel
theorem test_met_5 : sget none s1a.rf.guard (pgQMG ↑(1 : Fin 64)) = none ∧ rbit s1a (pgQMG ↑(1 : Fin 64)) 1540 4 = false ∧
    createCode s1a 1 2 (stagedPair s1a 1) = none := by decide +kernel
theorem test_met_6 : sget none s2a.rf.guard (pgQMG ↑(1 : Fin 64)) = none ∧
    rbit s2a (pgQMG ↑(1 : Fin 64)) 1540 4 = true := by decide +kernel

end QueuePairsAreMadeAndEnded

namespace SlotsFetchAndAggregate

def s1 : State := {State.reset with ts.bank0 := (List.range 4096).map (fun i => (i, 5)), host.pol := [(5, {enabled := true})]}
def s1a : State := {sFn with host.pairs := [(18, { present := true, sqN := 4, cqN := 4, sqTail := 1})]}

theorem test_met_1 : s1.ts.swap = false ∧ s1.host.activate = none ∧
    slotOwner { s1 with ts.idx := (s1.ts.idx + 1) % 4096 } = some 5 ∧ pickSource s1 5 = none ∧ s1.rcd.riq = [] ∧
    s1.rcd.reads = [] ∧ s1.host.cmds = [] ∧ (∀ x ∈ s1.rcd.cmp ++ s1.rcd.cry ++ s1.rcd.dcp, x.2.busy = false) ∧
    polderOn s1 ↑(5 : Fin 64) = true := by decide +kernel
theorem test_met_2 : (getPair sPairV2 1 2).present = true ∧ (getPair sPairV2 1 2).ien = true ∧
    (getPair sPairV2 1 2).unsig ≠ 0 := by decide +kernel
theorem test_met_3 : pairReady s1a 1 2 = true := by decide +kernel

end SlotsFetchAndAggregate

namespace FlrEndsTheFunction

def s1 : State := {sPair with host.vfEnable := true, host.numVFs := 2, host.flr := [1], host.cmds := [cmd 4 (ent 1)], host.opens := [⟨.pcie 1 2, 3, true, 0⟩, ⟨.net 3, 3, true, 0⟩]}

theorem test_met_1 : s1.host.vfEnable = true ∧ (1 : Nat) ≤ s1.host.numVFs.toNat ∧ (1 : Fin 64) ∈ s1.host.flr := by decide +kernel
theorem test_met_2 : ¬ ((3 : Nat) = 0 ∨ (s1.host.vfEnable = true ∧ (3 : Nat) ≤ s1.host.numVFs.toNat)) := by decide +kernel
theorem test_met_3 : (0 : Fin 64).val = 0 := rfl

end FlrEndsTheFunction

namespace ControllerResetsAndLinks

def s1 : State := {sPair with host.vfEnable := true, host.numVFs := 2, host.linkUp := true, host.cmds := [{cmd 4 (ent 0x87) with started := true}, {cmd 5 (ent 0x81) with started := true}, {cmd 6 (ent 2) with started := true}], host.opens := [⟨.pcie 1 2, 3, true, 0⟩, ⟨.net 3, 3, true, 0⟩], host.activate := some (4, img)}

theorem test_met_1 : s1.host.linkUp = true ∧ s1.host.vfEnable = true ∧ s1.top.recovery = false := by decide +kernel
theorem test_met_2 : State.reset.host.linkUp = false ∧ State.reset.host.vfEnable = false := by decide +kernel
theorem test_met_3 : ({ s1 with top.recovery := true } : State).top.recovery = true := rfl
theorem test_met_4 : s1.host.activate = some (4, img) ∧
    (∃ c ∈ s1.host.cmds, fwCmd c = true ∧ c.started = true ∧ c.fin = none ∧ c.handle ≠ 4) := by decide +kernel

end ControllerResetsAndLinks

namespace DmaGoTakesTheDescriptor

def s1 : State := {sD with mem.coreMem := writeBytes 0 [] 0 dd}
def w1 : List Byte := ([]: List Byte)

theorem test_met_1 : sget none State.reset.rf.guard (pgDMA ↑(3 : Fin 16)) = none ∧
    goBusy State.reset ↑(3 : Fin 16) = true := by decide +kernel
theorem test_met_2 : sget none s1.rf.guard (pgDMA ↑(3 : Fin 16)) = none ∧ goBusy s1 ↑(3 : Fin 16) = false ∧
    rbit s1 (pgDMA ↑(3 : Fin 16)) 256 16 = false ∧ 1 ≤ rfld s1 (pgDMA ↑(3 : Fin 16)) 260 15 0 ∧
    rfld s1 (pgDMA ↑(3 : Fin 16)) 276 2 0 = 2 ∧
    (let a := (rget s1 (pgDMA ↑(3 : Fin 16)) 272 ++ rget s1 (pgDMA ↑(3 : Fin 16)) 268).toNat; a % 32 = 0) ∧
    (let a := (rget s1 (pgDMA ↑(3 : Fin 16)) 272 ++ rget s1 (pgDMA ↑(3 : Fin 16)) 268).toNat; spaceOk (2 : BitVec 3) a 32 = true) ∧
    (let a := (rget s1 (pgDMA ↑(3 : Fin 16)) 272 ++ rget s1 (pgDMA ↑(3 : Fin 16)) 268).toNat; badRead s1 (2 : BitVec 3) a 32 = false) ∧
    (let a := (rget s1 (pgDMA ↑(3 : Fin 16)) 272 ++ rget s1 (pgDMA ↑(3 : Fin 16)) 268).toNat; let d := parseDesc (readBytes (0 : Byte) s1.mem.coreMem (a - 2147483648) 32); descOk false d = true) := by dsimp only; decide +kernel

end DmaGoTakesTheDescriptor

namespace DmaBurstCopies

theorem test_met_1 : (dmaOf sB ↑(3 : Fin 16)).st = ChanSt.running ∧ (dmaOf sB ↑(3 : Fin 16)).ring = false ∧
    rfld sB (pgDMA ↑(3 : Fin 16)) 264 8 0 ≠ 0 ∧ (dmaOf sB ↑(3 : Fin 16)).rdOut = none ∧
    (dmaOf sB ↑(3 : Fin 16)).srcSp = (2 : BitVec 3) ∧ (dmaOf sB ↑(3 : Fin 16)).dstSp = (2 : BitVec 3) ∧
    (let c := dmaOf sB ↑(3 : Fin 16); let sa := c.src.toNat + c.done; let da := c.dst.toNat + c.done; let k := min (min (burstMax sB ↑(3 : Fin 16)) 4096) (min (c.len - c.done) (min (4096 - sa % 4096) (4096 - da % 4096))); 0 < k) ∧
    (let c := dmaOf sB ↑(3 : Fin 16); let sa := c.src.toNat + c.done; let da := c.dst.toNat + c.done; let k := min (min (burstMax sB ↑(3 : Fin 16)) 4096) (min (c.len - c.done) (min (4096 - sa % 4096) (4096 - da % 4096))); spaceOk (2 : BitVec 3) sa k = true) ∧
    (let c := dmaOf sB ↑(3 : Fin 16); let sa := c.src.toNat + c.done; let da := c.dst.toNat + c.done; let k := min (min (burstMax sB ↑(3 : Fin 16)) 4096) (min (c.len - c.done) (min (4096 - sa % 4096) (4096 - da % 4096))); spaceOk (2 : BitVec 3) da k = true) ∧
    (let c := dmaOf sB ↑(3 : Fin 16); let sa := c.src.toNat + c.done; let da := c.dst.toNat + c.done; let k := min (min (burstMax sB ↑(3 : Fin 16)) 4096) (min (c.len - c.done) (min (4096 - sa % 4096) (4096 - da % 4096))); badRead sB (2 : BitVec 3) sa k = false) ∧
    Memory.wf sB.mem = true ∧
    (let c := dmaOf sB ↑(3 : Fin 16); let sa := c.src.toNat + c.done; let da := c.dst.toNat + c.done; let k := min (min (burstMax sB ↑(3 : Fin 16)) 4096) (min (c.len - c.done) (min (4096 - sa % 4096) (4096 - da % 4096))); 0 < da - 2147483648 ∨ da - 2147483648 + k ≤ 0) := by dsimp only; decide +kernel

end DmaBurstCopies

namespace DmaChannelsEnd

def w1 : List Byte := ([]: List Byte)
def w2 : List Byte := ([1,2,3,4]: List Byte)

theorem test_met_1 : (dmaOf sE ↑(3 : Fin 16)).st = ChanSt.running ∧ (dmaOf sE ↑(3 : Fin 16)).ring = false ∧
    (dmaOf sE ↑(3 : Fin 16)).rdOut = none ∧ (dmaOf sE ↑(3 : Fin 16)).len ≠ 0 ∧
    (dmaOf sE ↑(3 : Fin 16)).done = (dmaOf sE ↑(3 : Fin 16)).len ∧ (dmaOf sE ↑(3 : Fin 16)).last = true := by decide +kernel
theorem test_met_2 : (dmaOf sE ↑(3 : Fin 16)).st = ChanSt.running ∧ (dmaOf sE ↑(3 : Fin 16)).ring = false ∧
    sget none sE.rf.guard (pgDMA ↑(3 : Fin 16)) = none := by decide +kernel
theorem test_met_3 : (dmaOf sR ↑(3 : Fin 16)).rdOut = some 4 ∧ (dmaOf sR ↑(3 : Fin 16)).descRd = false ∧
    w2.length = 4 := by decide +kernel

end DmaChannelsEnd

namespace RingSluiceAndWindows

def s1 : State := en (pgDMA 3) State.reset
def w1 : Requester := Requester.vf 2
def w2 : Word := (~~~0x12345 : Word)

theorem test_met_1 : sget none sG.rf.guard (pgDMA ↑(3 : Fin 16)) = none ∧
    (let c := dmaOf sG ↑(3 : Fin 16); c.st = ChanSt.running) ∧ (let c := dmaOf sG ↑(3 : Fin 16); c.ring = true) ∧
    (let c := dmaOf sG ↑(3 : Fin 16); c.len ≠ 0) ∧ pull ↑(3 : Fin 16) 63 sG = sG ∧
    (let c := dmaOf sG ↑(3 : Fin 16); let k := min (ringMax sG ↑(3 : Fin 16) 4096) (min (ringFree sG ↑(3 : Fin 16)) c.partials.length); k ≠ 0) := by dsimp only; decide +kernel
theorem test_met_2 : Requester.pf0 = Requester.pf0 ∧ sget none sG.rf.guard (pgWIN ↑(1 : Fin 64)) = none ∧
    w2 = ~~~74565 := by decide +kernel
theorem test_met_3 : w1 ≠ Requester.pf0 := by decide +kernel

end RingSluiceAndWindows

/-- Pair 2 of function 1 is there, with entries posted and not signalled. -/
def sPairV3 : State := setPair 1 2 { present := true, sqN := 16, cqN := 16, ien := true, unsig := 1, cqTail := 3 } State.reset
def sNet : State :=
  let s := rset (rset (rset (rset State.reset pgQP 0x104 0x00000306) pgQP 0x108 0x00021007) (pgNET 0) 0x100 1) (pgNET 0) 0x140 5
  let s := rset (en (pgNET 0) s) pgQP 0x120 5
  { s with host.pol := [(3, { enabled := true, attach := 2 })] }
def qpr (x : Qp) : State := setQp 7 { x with st := .rts } State.reset
def cap80 : Capsule := { len := 80, ctype := 1, nent := 0, body := { sqe := {} } }
def sRiq (r : Riq) : State := { en (pgRIQ 5) (rset State.reset (pgRIQ 5) 0x100 0x10000) with rcd.riq := [(5, r)] }
def g0 : Grp := { no := 2, part := 3, firstLrn := 0, endLrn := 4, start := 0, stop := 64, content := [1,2] }
def sSlot (r : Riq) : State := { sHost [] with rcd.riq := [(4, {}), (5, r)], ts.bank0 := [(0, 5)], ts.idx := 0 }
namespace QpOperations

def s1 : State := setQp 7 {st := .error} State.reset
def s2 : State := {qpr {} with host.cmds := [{cmd 4 (ent 1) with src := .net 7}]}
def w1 : Requester := Requester.vf 3

theorem test_met_1 : sget none sNet.rf.guard pgQP = none ∧ Requester.pf0 = Requester.pf0 ∧
    qpCode sNet 7 (stagedQp sNet) = none := by decide +kernel
theorem test_met_2 : sget none s1.rf.guard pgQP = none ∧ Requester.pf0 = Requester.pf0 ∧ s1.net.qopBusy = false ∧
    qpCode s1 7 (stagedQp s1) = some 1 := by decide +kernel
theorem test_met_3 : sget none s1.rf.guard pgQP = none ∧ Requester.pf0 = Requester.pf0 ∧ s1.net.qopBusy = false ∧
    (qpOf s1 7).st = QpState.error := by decide +kernel
theorem test_met_4 : sget none s2.rf.guard pgQP = none ∧ s2.net.qopBusy = false ∧ (qpOf s2 7).st = QpState.rts ∧
    (∀ c ∈ s2.host.cmds, c.src = Src.net 7) ∧ (∀ c ∈ s2.host.cmds, c.started = false ∧ c.fin = none) ∧
    (∀ o ∈ s2.host.opens, o.src ≠ Src.net 7) ∧ swf (fun x => { }) s2.net.qps = true := by decide +kernel

end QpOperations

namespace CapsulesAndCompletions

def s1 : State := qpr {qdepth := 4}
def s2 : State := qpr {qdepth := 4, outst := 4, heldCpl := [⟨1, 2, 3, 4⟩]}

theorem test_met_1 : (qpOf s1 7).st = QpState.rts ∧ cap80.len = 80 ∧
    (let x := qpOf s1 7; x.dest = false ∧ x.outst < x.qdepth) ∧ cap80.body.sqe.opc ≠ 0x0C := by dsimp only; decide +kernel
def capAbort : Capsule := { cap80 with body := { cap80.body with sqe := { cap80.body.sqe with opc := 0x0C } } }
theorem test_met_4 : (qpOf s1 7).st = QpState.rts ∧ capAbort.len = 80 ∧ (qpOf s1 7).outst < (qpOf s1 7).qdepth ∧
    capAbort.body.sqe.opc = 0x0C ∧ fetchHalted s1 = false := by decide +kernel
theorem test_met_2 : (qpOf s2 7).st = QpState.rts ∧ cap80.len = 80 ∧
    (let x := qpOf s2 7; x.dest = false ∧ x.qdepth ≤ x.outst) := by dsimp only; decide +kernel
theorem test_met_5 : (qpOf (qpr {dest := true}) 7).st = QpState.rts ∧ cap80.len = 80 ∧ (qpOf (qpr {dest := true}) 7).dest = true := by
  decide +kernel
def s3 : State := setPort (qpOf s2 7).port { linkUp := true } s2
theorem test_met_3 : (qpOf s3 7).st = QpState.rts ∧ (qpOf s3 7).heldCpl ≠ [] ∧ portFenced s3 (qpOf s3 7).port = false ∧
    (portOf s3 (qpOf s3 7).port).linkUp = true ∧ (portOf s3 (qpOf s3 7).port).held = false := by decide +kernel

end CapsulesAndCompletions

namespace LossRecoveryAndErrors

def s1 : State := qpr {una := 5, psn := 9, rnrWait := true, rnrMax := 3, rdReqs := [(6, 10, true)], rdData := [9]}
def s2 : State := qpr {una := 5, psn := 9, retryMax := 2, rnrWait := true, rnrMax := 3, rdReqs := [(6, 10, true)]}
def s3 : State := {qpr {una := 5, psn := 9, caps := [cap80]} with host.cmds := [{cmd 4 (ent 1) with src := .net 7}, {cmd 5 (ent 1) with src := .net 7, started := true}]}
def w1 : List Byte := ([1,2,3] : List Byte)
def w2 : List (BitVec 24 × Nat × Bool) := []

theorem test_met_1 : (qpOf s1 7).st = QpState.rts ∧ (let x := qpOf s1 7; x.una ≠ x.psn) := by dsimp only; decide +kernel
theorem test_met_2 : (qpOf s1 7).st = QpState.rts ∧ (let x := qpOf s1 7; x.rnrWait = true) ∧
    (let x := qpOf s1 7; x.rnrs < x.rnrMax) := by dsimp only; decide +kernel
theorem test_met_3 : (qpOf s1 7).st = QpState.rts ∧ (let x := qpOf s1 7; x.rdReqs = (6, 10, true) :: w2) ∧
    w1.length < 10 := by dsimp only; decide +kernel
theorem test_met_4 : (qpOf s1 7).st = QpState.rts ∧ (qpOf s1 7).dest = false := by decide +kernel

end LossRecoveryAndErrors

namespace RatesFollowCnps

def s1 : State := rset (qpr {rc := 400, rt := 410, alpha := 1/2, n := 5}) (pgNET 0) 0x114 1
def s2 : State := rset (qpr {rc := 10, rt := 410, alpha := 1, n := 4}) (pgNET 0) 0x114 1

theorem test_met_1 : (qpOf s1 7).st = QpState.rts ∧ rbit s1 (pgNET ↑(qpOf s1 7).port) 276 0 = true := by decide +kernel

end RatesFollowCnps

namespace PortEvents

def s1 : State := { en (pgNET 1) (rset State.reset (pgNET 1) 0x10C 1500) with net.qps := [(7, { st := .rts, port := 1, rpsn := 4 }), (8, { st := .rts })] }
def s2 : State := en (pgNET 1) (rset (setPort 1 {holdRun := true} State.reset) (pgNET 1) 0x118 1)
def bad : Frame := { roce := true, bytes := 100, fcsOk := false }
def good : Frame := { roce := true, bytes := 100 }

theorem test_met_1 : pageEn s1 (pgNET 1) = true ∧ portFenced s1 1 = false ∧ bad.fcsOk = false := by decide +kernel
theorem test_met_2 : good.fcsOk = true ∧ ({ good with roce := false } : Frame).roce = false ∧
    rfld s1 (pgNET 1) 0x10C 13 0 < ({ good with bytes := 1501 } : Frame).bytes ∧
    (pfcOn s1 1 = false ∧ ({ good with room := false } : Frame).room = false) := by decide +kernel
theorem test_met_3 : good.fcsOk = true ∧ good.roce = true ∧ good.bytes ≤ rfld s1 (pgNET 1) 0x10C 13 0 ∧ good.room = true ∧
    good.toQp = none ∧ (qpOf s1 8).port ≠ 1 := by decide +kernel
theorem test_met_4 : (qpOf s1 7).port = 1 ∧ (qpOf s1 7).rpsn = 4 ∧ (qpOf s1 7).st = .rts ∧ good.ce = false := by decide +kernel
theorem test_met_5 : (portOf s2 1).holdRun = true ∧ (portOf s2 1).linkUp = false := by decide +kernel
def s3 : State := setPort 1 { linkUp := true, held := true } (rset s1 (pgNET 1) 0x100 0x100)
theorem test_met_6 : pageEn s1 (pgNET 1) = true ∧ portFenced s1 1 = false ∧ pfcOn s1 1 = false ∧ pageEn s3 (pgNET 1) = true ∧
    pfcOn s3 1 = true ∧ (qpOf s3 7).port = 1 ∧ portFenced s3 1 = false ∧ (portOf s3 1).linkUp = true ∧
    (portOf s3 1).held = true := by decide +kernel
theorem test_met_7 : pageEn State.reset (pgNET 1) = false := by decide +kernel
theorem test_packet_dscp : ((txFrame 7 (.cnp 7) (setPort 1 { linkUp := true } (rset s1 (pgNET 1) 0x110 0x3010))).out.head?.map fun o =>
    match o with | .packet _ h _ => (h.dscp.toNat, h.ecn.toNat, h.sport.toNat) | _ => (0, 0, 0)) = some (0x30, 2, 0xC007) := by decide +kernel

end PortEvents

namespace ProducerWords

def s1 : State := sRiq {swallow := true}
def s2 : State := sRiq {pPos := 16384}
def s3 : State := sRiq {pPos := 16000, cPos := 15000, inItem := true, items := [{start := 1}]}
def s4 : State := sRiq {pPos := 16010, cPos := 15000, inItem := true, items := [{start := 1}, {start := 2, bytes := [1,2,3], bad := [1]}]}
def w1 : List Item := ([] : List Item)
def w2 : List Item := [({start := 1} : Item)]
def w3 : Item := ({start := 1} : Item)
def w4 : Item := ({start := 2, bytes := [1,2,3], bad := [1]} : Item)

theorem test_met_1 : pageEn (sRiq { }) (pgRIQ ↑(5 : Fin 64)) = true ∧ (riqOf (sRiq { }) ↑(5 : Fin 64)).stalled = none ∧
    4 ≤ BitVec.toNat (4 : BitVec 3) := by decide +kernel
theorem test_met_2 : pageEn (sRiq { }) (pgRIQ ↑(5 : Fin 64)) = true ∧ (riqOf (sRiq { }) ↑(5 : Fin 64)).stalled = none ∧
    (let r := riqOf (sRiq { }) ↑(5 : Fin 64); r.swallow = false) ∧
    (let r := riqOf (sRiq { }) ↑(5 : Fin 64); let room := producerEnd r (1 : BitVec 3) (4 : BitVec 3) - r.mark.getD r.cPos ≤ ringBytes (sRiq { }) ↑(5 : Fin 64); room) ∧
    (1 : BitVec 3) = (1 : BitVec 3) ∧
    (let r := riqOf (sRiq { }) ↑(5 : Fin 64); r.inItem = false) := by dsimp only; decide +kernel
theorem test_met_3 : pageEn s1 (pgRIQ ↑(5 : Fin 64)) = true ∧ (riqOf s1 ↑(5 : Fin 64)).stalled = none ∧
    BitVec.toNat (0 : BitVec 3) < 3 ∧ (let r := riqOf s1 ↑(5 : Fin 64); r.swallow = true) := by dsimp only; decide +kernel
theorem test_met_4 : pageEn s2 (pgRIQ ↑(5 : Fin 64)) = true ∧ (riqOf s2 ↑(5 : Fin 64)).stalled = none ∧
    BitVec.toNat (0 : BitVec 3) < 4 ∧ (let r := riqOf s2 ↑(5 : Fin 64); r.swallow = false) ∧
    (let r := riqOf s2 ↑(5 : Fin 64); let room := producerEnd r (0 : BitVec 3) (4 : BitVec 3) - r.mark.getD r.cPos ≤ ringBytes s2 ↑(5 : Fin 64); ¬room) := by dsimp only; decide +kernel
theorem test_met_5 : pageEn s3 (pgRIQ ↑(5 : Fin 64)) = true ∧ (riqOf s3 ↑(5 : Fin 64)).stalled = none ∧
    (let r := riqOf s3 ↑(5 : Fin 64); r.swallow = false) ∧
    (let r := riqOf s3 ↑(5 : Fin 64); let room := producerEnd r (0 : BitVec 3) (4 : BitVec 3) - r.mark.getD r.cPos ≤ ringBytes s3 ↑(5 : Fin 64); room) ∧
    (let r := riqOf s3 ↑(5 : Fin 64); r.items = w1 ++ [w3]) ∧ (let r := riqOf s3 ↑(5 : Fin 64); r.inItem = true) ∧
    ((0 : BitVec 3) = (0 : BitVec 3) ∨ (0 : BitVec 3) = (2 : BitVec 3)) := by dsimp only; decide +kernel
theorem test_met_6 : pageEn s3 (pgRIQ ↑(5 : Fin 64)) = true ∧ (riqOf s3 ↑(5 : Fin 64)).stalled = none ∧
    (let r := riqOf s3 ↑(5 : Fin 64); r.swallow = false) ∧
    (let r := riqOf s3 ↑(5 : Fin 64); let room := producerEnd r (3 : BitVec 3) (4 : BitVec 3) - r.mark.getD r.cPos ≤ ringBytes s3 ↑(5 : Fin 64); room) ∧
    (let r := riqOf s3 ↑(5 : Fin 64); r.items = w1 ++ [w3]) ∧ (let r := riqOf s3 ↑(5 : Fin 64); r.inItem = true) ∧
    (3 : BitVec 3) = (3 : BitVec 3) ∧ lenErr 3 w3.bytes.length = true := by dsimp only; decide +kernel

end ProducerWords

namespace IntakeEvents

def s1 : State := {sRiq {stalled := some (0, 1, 2, 3)} with host.cmds := [cmd 4 (ent 1)]}
def s2 : State := sRiq {opn := some g0, part := some 3, pPos := 100, nextLrn := 3, idleUs := 5}
def g1 : Grp := { g0 with stage := .compressing 3 }
def s3 : State := sSlot { grps := [g1, { g0 with no := 3 }] }
def s4 : State := sRiq {pPos := 65, items := [{start := 1}]}
def w1 : List Grp := ([] : List Grp)
def w2 : List Grp := [{g0 with no := 3}]

theorem test_met_1 : (let r := riqOf s1 ↑(5 : Fin 64); r.stalled = some ((0 : BitVec 3), (1 : BitVec 64), (2 : Byte), (3 : BitVec 3))) ∧
    (let r := riqOf s1 ↑(5 : Fin 64); producerEnd r (0 : BitVec 3) (3 : BitVec 3) - r.mark.getD r.cPos ≤ ringBytes s1 ↑(5 : Fin 64)) := by dsimp only; decide +kernel
theorem test_met_2 : swf (fun x => { }) s1.rcd.riq = true ∧
    (let pg := pgRIQ ↑(5 : Fin 64); sget none s1.rf.guard pg = none) ∧ (let r := riqOf s1 ↑(5 : Fin 64); r.part = none) ∧
    (let r := riqOf s1 ↑(5 : Fin 64); midItem r = false) := by dsimp only; decide +kernel
theorem test_met_3 : (let r := riqOf s2 ↑(5 : Fin 64); occupancy r ≠ 0) ∧
    (let r := riqOf s2 ↑(5 : Fin 64); r.opn = some g0) ∧ (let r := riqOf s2 ↑(5 : Fin 64); r.part = some (3 : Fin 64)) ∧
    (let r := riqOf s2 ↑(5 : Fin 64); r.idleUs ≠ 0) ∧ (let r := riqOf s2 ↑(5 : Fin 64); r.fragOn = false) ∧
    (let r := riqOf s2 ↑(5 : Fin 64); r.recut = []) := by dsimp only; decide +kernel
theorem test_met_4 : (riqOf s3 5).grps = g1 :: w2 ∧ g1.stage.working = true ∧ g1.prot = true ∧ slotOwner s3 = some 5 := by
  decide +kernel
theorem test_met_5 : let r : Riq := { opn := some g0, part := some 3, pPos := 100, nextLrn := 3, idleUs := 5, recut := [{ g0 with no := 3 }] }
    riqOf (sRiq r) 5 = r ∧ occupancy r ≠ 0 ∧ r.opn = some g0 ∧ r.idleUs ≠ 0 ∧ r.recut ≠ [] := by decide +kernel

end IntakeEvents

namespace EnginesServeTheSlotOwner

def s1 : State := sSlot {grps := [{g0 with no := 1}, {g0 with stage := .compressing 3}, {g0 with no := 5}]}
def s2 : State := sSlot {grps := [{g0 with no := 1}, {g0 with stage := .encrypting 3}, {g0 with no := 5}]}
def w1 : Grp := {g0 with stage := .compressing 3}
def w2 : Grp := {g0 with stage := .encrypting 3}
def w3 : List Grp := [{g0 with no := 1}]
def w4 : List Grp := [{g0 with no := 5}]
def w6 : EncObs := ({dataOk := true, tagOk := true} : EncObs)
def w7 : EncObs := ({dataOk := false, tagOk := true} : EncObs)

theorem test_met_1 : slotOwner s1 = some 5 ∧ (riqOf s1 ↑(5 : Fin 64)).grps = w3 ++ w1 :: w4 ∧
    (∀ x ∈ w3 ++ w4, x.no ≠ w1.no ∧ x.stage ≠ w1.stage) ∧ w1.stage = GrpStage.compressing 3 := by decide +kernel
theorem test_met_2 : slotOwner s2 = some 5 ∧ (riqOf s2 ↑(5 : Fin 64)).grps = w3 ++ w2 :: w4 ∧
    (∀ x ∈ w3 ++ w4, x.no ≠ w2.no ∧ x.stage ≠ w2.stage) ∧ w2.stage = GrpStage.encrypting 3 ∧ w6.dataOk = true ∧
    w6.tagOk = true := by decide +kernel
theorem test_met_3 : w7.dataOk = false ∧ w2.prot = true ∧ w2.mism = 0 := by decide +kernel

end EnginesServeTheSlotOwner

namespace GroupsArePlaced

def s1 : State := sSlot {grps := [g0]}
def s2 : State := {sSlot {grps := [{g0 with stage := .confirmed, body := [1,2,3]}]} with bas.slots := [(7, {st := .filling, part := 3, polder := 5, stream := [1,2,3]})]}
def w1 : Grp := {g0 with stage := .confirmed, body := [1,2,3]}
def w2 : List Grp := ([]: List Grp)
def w3 : Slot := ({st := .filling, part := 3, polder := 5, stream := [1,2,3]} : Slot)

theorem test_met_1 : (riqOf s1 ↑(5 : Fin 64)).grps = g0 :: w2 ∧ g0.stage ≠ GrpStage.confirmed := by decide +kernel
theorem test_met_2 : (riqOf s2 ↑(5 : Fin 64)).grps = w1 :: w2 ∧ w1.stage = GrpStage.confirmed ∧ w1.put = 0 ∧
    (riqOf s2 ↑(5 : Fin 64)).newDs = false ∧ curFilling s2 ↑w1.part = some (7, w3) ∧
    (let off := roundUp16 w3.stream.length; off + 64 ≤ streamArea) ∧
    (let off := roundUp16 w3.stream.length; let n := (groupBytes w1).length; off + n < streamArea) := by dsimp only; decide +kernel

end GroupsArePlaced

/-- Pair 2 of function 1 is there, with entries posted and not signalled. -/
def sPairV4 : State := setPair 1 2 { present := true, sqN := 16, cqN := 16, ien := true, unsig := 1, cqTail := 3 } State.reset
def sRead : State := { sHost [cmd 4 (ent 3 0 100)] with rcd.reads := [] }
def dec (a b : Bool) : DecObs := ⟨a, b⟩
def hdrBytes : List Byte := [0x43, 0x4B, 0x47, 0x52, 1, 0, 0, 0] ++ List.replicate 8 0 ++ [0,0,0,1, 0,0,0,12, 0,0,0,10, 0,0,0,4] ++ List.replicate 40 0
def cont : List Byte := [1,2,3,4, 0,0,0,4, 0,0,0,4]
def contBad : List Byte := [1,2,3,4, 0,0,0,4, 0,0,0,5]
def jb (st : ReadStage) (bs : List Byte := cont) : ReadJob := { h := 4, part := 3, lrn := 0, stage := st, slot := 7, frame := zFrame bs [.raw 3] }
def rd (st : ReadStage) : State := { sRead with rcd.reads := [jb st], bas.slots := [(7, {st := .filling, part := 3, polder := 5, stream := hdrBytes, refs := [⟨0, 0, 1, 1, false, []⟩]})] }
def lixv := parseLix 1 (cont.drop 4)
def ho := handOver (rd (.expanding 2)) (cmd 4 (ent 3 0 100)) 100 7 0 0 lixv (cont.take 4) (jb (.expanding 2)) []
def sPool : State := { en pgBPM (rset (rset State.reset pgBPM 0x104 10) pgBPM 0x214 0x400) with rcd.freeList := [(1, [3, 4])] }
namespace ReadBackChecks

def s1 : State := rd (.decrypting 2)
def s2 : State := rd (.expanding 2)
def w1 : ReadJob := jb (.decrypting 2)
def w2 : ReadJob := jb (.expanding 2)
def c1 : Cmd := cmd 4 (ent 3 0 100)
def w3 : DecObs := dec true true
def w4 : ReadJob := { w1 with authOk := false }
def s1b : State := { s1 with rcd.reads := [w4] }
def w5 : DecObs := dec false true
def wBad : ReadJob := jb (.expanding 2) contBad
def sBad : State := { s2 with rcd.reads := [wBad] }
def wNone : ReadJob := { wBad with frame := [] }
def sNone : State := { s2 with rcd.reads := [wNone] }
def w7 : BitVec 16 := ((ho.2.2.getD (0,0)).1)
def w8 : BitVec 64 := ((ho.2.2.getD (0,0)).2)
def u2 : State := { s2 with rcd.dcp := sset {} s2.rcd.dcp (engKey 2 c1.polder.val) {} }
def v2 : State :=
  let hdr := groupStream s2 w2.part w2.slot w2.off
  bump64 (pgDCP 2) 0xA0C cont.length (bump64 (pgDCP 2) 0xA04 (ghField hdr 0x18 4) (bump (pgDCP 2) 0xA00 1 u2))
def handed : ReadJob × List Byte × Option (BitVec 16 × BitVec 64) :=
  let hdr := groupStream s2 w2.part w2.slot w2.off
  let lo := ghField hdr 0x1C 4
  handOver v2 c1 (bufLen c1.e c1.sgl) w2.slot w2.off (ghField hdr 8 6) (parseLix (ghField hdr 0x10 4) (cont.drop lo)) (cont.take lo) w2 []

theorem test_met_1 : jobOf s1 4 = some w1 ∧ cmdOf s1 4 = some c1 ∧ w1.stage = ReadStage.decrypting 2 ∧ w3.dataOk = true ∧
    w3.tagOk = true ∧ w1.authOk = true := by decide +kernel
theorem test_met_2 : jobOf s1b 4 = some w4 ∧ cmdOf s1b 4 = some c1 ∧ w4.stage = ReadStage.decrypting 2 ∧ w3.dataOk = true ∧
    w3.tagOk = true ∧ w4.authOk = false := by decide +kernel
theorem test_met_3 : jobOf sBad 4 = some wBad ∧ cmdOf sBad 4 = some c1 ∧ wBad.stage = ReadStage.expanding 2 ∧
    (let hdr := groupStream sBad wBad.part wBad.slot wBad.off; zRead (ghField hdr 0x14 4) wBad.frame = some contBad ∧
      lixOk hdr contBad (wBad.expect.map (fun x => (x.1, decide (x.2 = (slotOf sBad wBad.slot).wgen)))) = false) := by dsimp only; decide +kernel
theorem test_met_3_none : jobOf sNone 4 = some wNone ∧ cmdOf sNone 4 = some c1 ∧ wNone.stage = ReadStage.expanding 2 ∧
    (let hdr := groupStream sNone wNone.part wNone.slot wNone.off; zRead (ghField hdr 0x14 4) wNone.frame = none) := by
  dsimp only; decide +kernel
theorem test_met_4 : jobOf s2 4 = some w2 ∧ cmdOf s2 4 = some c1 ∧ w2.stage = ReadStage.expanding 2 ∧
    (let hdr := groupStream s2 w2.part w2.slot w2.off; zRead (ghField hdr 0x14 4) w2.frame = some cont ∧
      lixOk hdr cont (w2.expect.map (fun x => (x.1, decide (x.2 = (slotOf s2 w2.slot).wgen)))) = true) := by dsimp only; decide +kernel
theorem test_met_5 : handed.2.2.isSome = true := by decide +kernel
theorem test_met_6 : jobOf s1 4 = some w1 ∧ cmdOf s1 4 = some c1 ∧ w1.stage = ReadStage.decrypting 2 ∧ w5.dataOk = false ∧
    w1.mism = 0 := by decide +kernel

end ReadBackChecks

namespace PoolBuffersAndShares

def s1 : State := {sPool with rcd.use := [(5, 16777216)]}
def s2 : State := {sPool with rcd.bufs := [(65536+3, {alloc := true, req := 7, gen := 2})]}
def s3 : State := en pgBSN State.reset

theorem test_met_1 : pageEn sPool pgBPM = true ∧ ↑(7 : Fin 100) ∉ sPool.rcd.reqClosed ∧
    ((bufOf sPool 1 1).alloc = false ∨ (bufOf sPool 1 1).gen ≠ 5) := by decide +kernel
theorem test_met_2 : pageEn sPool pgBPM = true ∧ ↑(7 : Fin 100) ∉ sPool.rcd.reqClosed ∧ poolFor 4000 = some 1 ∧
    1 ∉ sPool.rcd.fenPool ∧ sget [] sPool.rcd.freeList 1 = [3, 4] ∧ (bufOf sPool 1 3).ok = true ∧
    (let past := BitVec.toNat (5 : Byte) < 64 ∧ pshareBytes sPool (BitVec.toNat (5 : Byte)) < stagingUse sPool (BitVec.toNat (5 : Byte)) + poolBytes 1; ¬past) ∧
    (5 : Byte) ≠ (255 : Byte) := by dsimp only; decide +kernel
theorem test_met_3 : pageEn sPool pgBPM = true ∧ ↑(7 : Fin 100) ∉ sPool.rcd.reqClosed ∧ poolFor 4000 = some 1 ∧
    1 ∉ sPool.rcd.fenPool ∧ sget [] sPool.rcd.freeList 1 = [3, 4] ∧ (bufOf sPool 1 3).ok = true ∧
    (let past := BitVec.toNat (5 : Byte) < 64 ∧ pshareBytes sPool (BitVec.toNat (5 : Byte)) < stagingUse sPool (BitVec.toNat (5 : Byte)) + poolBytes 1; ¬past) ∧
    [4] ≠ [] := by dsimp only; decide +kernel
theorem test_met_4 : pageEn s1 pgBPM = true ∧ ↑(7 : Fin 100) ∉ s1.rcd.reqClosed ∧ poolFor 4000 = some 1 ∧
    1 ∉ s1.rcd.fenPool ∧ sget [] s1.rcd.freeList 1 = [3, 4] ∧ (bufOf s1 1 3).ok = true ∧
    (let past := BitVec.toNat (5 : Byte) < 64 ∧ pshareBytes s1 (BitVec.toNat (5 : Byte)) < stagingUse s1 (BitVec.toNat (5 : Byte)) + poolBytes 1; past) := by dsimp only; decide +kernel
theorem test_met_5 : sget none sPool.rf.guard pgBPM = none := by decide +kernel
theorem test_met_6 : sget none sPool.rf.guard pgBSN = none := by decide +kernel

end PoolBuffersAndShares

/-- Pair 2 of function 1 is there, with entries posted and not signalled. -/
def sPairV5 : State := setPair 1 2 { present := true, sqN := 16, cqN := 16, ien := true, unsig := 1, cqTail := 3 } State.reset
def mkw (cp band st : Nat) : Word := let w := BitVec.ofNat 32 (cp * 256 + band * 64 + st * 8); w + BitVec.ofNat 32 (clockChk w)
def lg (k : Nat) (x : LaneGroup) (s : State) : State := setLg k x s
def sL : State := lg 1 {st := .framed} (lg 2 {st := .locked, prevOk := true, word := some (mkw 5 0 2)} State.reset)
def sF : State := lg 3 {st := .reassigned, src := 1} (lg 1 {st := .framed} (lg 2 {st := .framed, loV := true} State.reset))
def sH : State := lg 1 {st := .framed} (lg 2 {st := .holdover, holdCnt := 64, loV := true, keptLo := true} State.reset)
/-- Pair 2 of function 1 is there, with entries posted and not signalled. -/
def sPairV6 : State := setPair 1 2 { present := true, sqN := 16, cqN := 16, ien := true, unsig := 1, cqTail := 3 } State.reset
def pe (w : Bool := true) : PlanEntry := { band := 0, wrap := 0, part := 3, rev := false, write := w }
def framed (s : State) : State := (List.range 8).foldl (fun s k => lg k {st := .framed} s) s
def sTrk : State := framed (en pgMCE (sHost []))
def sW : State := {sTrk with trk.cur := some (pe), trk.pass := some {kind := .write, part := 3, wrap := 0, half := false, nextP := 0, insts := [{p := 0, dsn := 0, kind := .data, slot := 1}]}}
def sRst : State := {sTrk with trk.plan := [pe], trk.syncPend := [3], bas.slots := [(1, {st := .full, part := 3, polder := 5})]}
def sRr : State := {sTrk with trk.plan := [pe false], trk.readAt := [(3, some 5)]}
def sRp : State := {sTrk with trk.cur := some (pe false), trk.pass := some {kind := .read, part := 3, wrap := 0, half := false, nextP := 0}}
def ch (x : Chan) (s : State) : State := setCh 40 x s
namespace LaneGroupsFollowTheirRows

def s1 : State := lg 2 {st := .acquire} State.reset
def s2 : State := rset sH (pgCST 2) 0x100 1
def s1a : State := rset sH (pgCST 2) 0x100 0

theorem test_met_1 : ↑(2 : Fin 8) < laneGroups s1.variant ∧ swf (fun x => { }) s1.tim.lgs = true ∧
    isFenced s1 (28928 + ↑(2 : Fin 8)) = false ∧
    (let g := lgOf s1 ↑(2 : Fin 8); g.st = LgState.acquire) := by dsimp only; decide +kernel
theorem test_met_2 : ↑(2 : Fin 8) < laneGroups s1.variant ∧ swf (fun x => { }) s1.tim.lgs = true ∧
    forceBad s1 (↑(2 : Fin 8)) (bits (mkw 6 0 2) 9 8) = false := by decide +kernel
theorem test_met_3 : ↑(2 : Fin 8) < laneGroups s1.variant ∧ swf (fun x => { }) s1.tim.lgs = true ∧
    forceBad s1 (↑(2 : Fin 8)) (bits (769 : Word) 9 8) = true := by decide +kernel
theorem test_met_4 : ↑(2 : Fin 8) < laneGroups sL.variant ∧ swf (fun x => { }) sL.tim.lgs = true ∧ isFenced sL (28928 + ↑(2 : Fin 8)) = false ∧
    (let g := lgOf sL ↑(2 : Fin 8); g.st = LgState.locked) ∧ (let g := lgOf sL ↑(2 : Fin 8); g.prevOk = true) ∧
    (let g := lgOf sL ↑(2 : Fin 8); g.word = some (mkw 5 0 2)) ∧ clockOk (mkw 6 0 2) = true ∧
    expectedWord sL (↑(2 : Fin 8)) (mkw 6 0 2) = true ∧ wBand (mkw 5 0 2) = wBand (mkw 6 0 2) ∧
    wStripe (mkw 5 0 2) = wStripe (mkw 6 0 2) ∧
    consecutive sL (mkw 5 0 2) (mkw 6 0 2) = true := by dsimp only; decide +kernel
theorem test_met_5 : ↑(2 : Fin 8) < laneGroups sL.variant ∧ swf (fun x => { }) sL.tim.lgs = true ∧ isFenced sL (28928 + ↑(2 : Fin 8)) = false ∧
    (let g := lgOf sL ↑(2 : Fin 8); g.st = LgState.locked ∨ g.st = LgState.framed) ∧
    clockOk 769 = false := by dsimp only; decide +kernel
theorem test_met_6 : ↑(2 : Fin 8) < laneGroups sF.variant ∧ swf (fun x => { }) sF.tim.lgs = true ∧
    (let g := lgOf sF ↑(2 : Fin 8); g.st = LgState.framed) ∧ ↑(2 : Fin (8 : Nat)) ≠ (0 : Nat) ∧
    (lgOf sF (↑(2 : Fin 8) - 1)).st = LgState.framed ∧ (77 : Nat) ≠ ↑(2 : Fin (8 : Nat)) := by dsimp only; decide +kernel
theorem test_met_7 : ↑(2 : Fin 8) < laneGroups sH.variant ∧ swf (fun x => { }) sH.tim.lgs = true ∧
    isFenced sH (28928 + ↑(2 : Fin 8)) = false ∧
    (let g := lgOf sH ↑(2 : Fin 8); g.st = LgState.holdover ∨ g.st = LgState.reassigned ∨ g.st = LgState.lost) := by dsimp only; decide +kernel
theorem test_met_8 : ↑(2 : Fin 8) < laneGroups sH.variant ∧ swf (fun x => { }) sH.tim.lgs = true ∧
    (let g := lgOf sH ↑(2 : Fin 8); g.st = LgState.holdover) ∧ (let g := lgOf sH ↑(2 : Fin 8); 64 ≤ g.holdCnt) ∧
    (let pg := pgCST ↑(2 : Fin 8); tapeBit sH pg 256 0 = true) ∧
    qualifies sH ↑(2 : Fin 8) 1 = true := by dsimp only; decide +kernel
theorem test_met_9 : ↑(2 : Fin 8) < laneGroups s1a.variant ∧ swf (fun x => { }) s1a.tim.lgs = true ∧
    isFenced s1a (28928 + ↑(2 : Fin 8)) = false ∧
    (let g := lgOf s1a ↑(2 : Fin 8); g.st = LgState.holdover ∨ g.st = LgState.reassigned ∨ g.st = LgState.lost) := by dsimp only; decide +kernel
theorem test_met_10 : ↑(2 : Fin 8) < laneGroups s1a.variant ∧ swf (fun x => { }) s1a.tim.lgs = true ∧
    (let g := lgOf s1a ↑(2 : Fin 8); g.st = LgState.holdover) ∧ (let g := lgOf s1a ↑(2 : Fin 8); 64 ≤ g.holdCnt) ∧
    (let pg := pgCST ↑(2 : Fin 8); tapeBit s1a pg 256 0 = false) := by dsimp only; decide +kernel
theorem test_met_11 : ↑(2 : Fin 8) < laneGroups s1a.variant ∧ swf (fun x => { }) s1a.tim.lgs = true ∧
    forceBad s1a (↑(2 : Fin 8)) (bits (769 : Word) 9 8) = true := by decide +kernel

/-- FRAMED with its counter at word 5, 100 tone periods short of word 6. -/
def s2a : State := lg 2 { st := .framed, tone := 6 * 2048 - 100 } State.reset
def s2b : State := lg 2 { st := .framed, tone := 6 * 2048 - 100, toneDis := some 8 } State.reset

theorem test_met_12 : (lgOf s2a 2).st = .framed ∧ isFenced s2a 0x7102 = false ∧ clockOk (mkw 6 0 2) = true ∧ expectedWord s2a 2 (mkw 6 0 2) = true ∧
    s2a.mot.lat.newBand = false ∧ travelRev s2a = false ∧ (wCpos (mkw 6 0 2) : Int) = ((lgOf s2a 2).tone + 100) / 2048 % 2 ^ 24 := by
  decide +kernel
theorem test_met_13 : clockOk (mkw 9 0 2) = true ∧ expectedWord s2a 2 (mkw 9 0 2) = true ∧ (lgOf s2a 2).toneDis = none ∧
    (wCpos (mkw 9 0 2) : Int) ≠ ((lgOf s2a 2).tone + 100) / 2048 % 2 ^ 24 := by decide +kernel
theorem test_met_14 : (lgOf s2b 2).st = .framed ∧ isFenced s2b 0x7102 = false ∧ expectedWord s2b 2 (mkw 9 0 2) = true ∧ (lgOf s2b 2).toneDis = some 8 ∧
    travelRev s2b = false ∧ (8 + 1) % 2 ^ 24 = wCpos (mkw 9 0 2) := by decide +kernel
theorem test_met_15 : isFenced { s2a with itg.fences := [(0x7102, 8)] } 0x7102 = true := by decide +kernel

end LaneGroupsFollowTheirRows

namespace PlanBoundariesAndRestarts

def s1 : State := {sTrk with trk.plan := List.replicate 8 pe}
def s2 : State := {sTrk with trk.pass := none, cart := none}
def s3 : State := {sTrk with trk.pass := none, cart := none, top.pf := true}
def s4 : State := {sTrk with trk.plan := [pe]}
def s5 : State := {sRr with bas.slots := [(1, {st := .readAhead, part := 3, polder := 5})]}
def w1 : PlanEntry := {pe with wrap := 4}
def w2 : Pass := ({kind := .write, part := 3, wrap := 0, half := false, nextP := 0, insts := [{p := 0, dsn := 0, kind := .data, slot := 1}]} : Pass)

theorem test_met_1 : 8 ≤ s1.trk.plan.length := by decide +kernel
theorem test_met_2 : sTrk.trk.plan.length < 8 ∧
    (let w := wpOf sTrk (wrapPair ↑w1.wrap); sTrk.cart = none ∨ w.role ≠ WpRole.data ∨ BitVec.toNat w.pnum ≠ ↑w1.part) := by dsimp only; decide +kernel
theorem test_met_3 : sW.trk.plan.length < 8 ∧ sW.cart ≠ none ∧
    (let w := wpOf sW (wrapPair ↑pe.wrap); w.role = WpRole.data) ∧
    (let w := wpOf sW (wrapPair ↑pe.wrap); BitVec.toNat w.pnum = ↑pe.part) ∧ sW.trk.waitPost = false ∧
    sW.trk.pass = some w2 ∧ inEntry sW w2 = true := by dsimp only; decide +kernel
theorem test_met_4 : s2.cart = none ∧ s2.trk.pass = none ∧ s2.trk.starting = none := by decide +kernel
theorem test_met_5 : s3.cart = none ∧ s3.trk.pass = none ∧ s3.trk.starting = none ∧ s3.top.pf = true ∧
    s3.top.pfGate = false := by decide +kernel
theorem test_met_6 : mayStart s1 = true ∧ s1.trk.waitPost = false ∧ s1.trk.noPass = false ∧
    startEntry s1 true = some (pe, 0) ∧ writeDue s1 pe.part = false := by decide +kernel
theorem test_met_7 : mayStart sRst = true ∧ sRst.trk.waitPost = false ∧ sRst.trk.noPass = false ∧
    startEntry sRst true = some (pe, 0) ∧ writeDue sRst pe.part = true ∧ planRests sRst = true := by decide +kernel
theorem test_met_8 : mayStart sRr = true ∧ startEntry sRr false = some (pe false, 5) ∧
    sget none sRr.trk.readAt ↑(pe false).part ≠ none ∧
    fillOf sRr (↑(pe false).part) PassKind.read ≤ targetE sRr ↑(pe false).part := by decide +kernel
theorem test_met_9 : mayStart s5 = true ∧ startEntry s5 false = some (pe false, 5) ∧
    targetE s5 ↑(pe false).part < fillOf s5 (↑(pe false).part) PassKind.read := by decide +kernel
/-- The tape is still coming to rest. -/
def s6 : State := { sRst with mot.plan.idle := false }
theorem test_met_10 : mayStart s6 = true ∧ s6.trk.waitPost = false ∧ s6.trk.noPass = false ∧
    startEntry s6 true = some (pe, 0) ∧ planRests s6 = false := by decide +kernel

end PlanBoundariesAndRestarts

namespace VerdictsAreEnteredAndJudged

/-- The pass of `sW` with something known of its instance. -/
def with_ (f : Inst → Inst) : State := modPass (fun p => { p with insts := p.insts.map f }) sW
def sGot (g : SlotRead) : State := with_ (fun i => { i with got := [(68 * 7 + 5, some g)] })
def sInh : State := with_ (fun i => { i with inh := [(0, 5)] })
def sEnd (s : State) : State := { s with trk.pass := none, trk.last := s.trk.pass }
def inst (s : State) : Inst := (instAt s 0).getD { p := 0, dsn := 0, kind := .data }
def pass_ : SlotRead := { row := 0, conv := true, margin := 127, same := true }

theorem test_met_1 : instAt sW 0 = some (inst sW) ∧ 68 * 7 + 5 ∉ (inst sW).seen ∧ verdictOf sW (inst sW) 7 5 = none := by decide +kernel
theorem test_met_2 : instAt (sGot pass_) 0 = some (inst (sGot pass_)) ∧
    verdictOf (sGot pass_) (inst (sGot pass_)) 7 5 = some (0, some 127) ∧ (sGot pass_).trk.pass.isSome = true := by decide +kernel
theorem test_met_3 : verdictOf (sGot { pass_ with conv := false }) (inst (sGot { pass_ with conv := false })) 7 5 = some (4, none) ∧
    verdictOf (sGot { pass_ with margin := 0, weak := true }) (inst (sGot { pass_ with margin := 0, weak := true })) 7 5 = some (6, some 0) := by decide +kernel
theorem test_met_4 : instAt sInh 0 = some (inst sInh) ∧ (physChan sInh false 0 7 / 32, 5) ∈ (inst sInh).inh ∧
    verdictOf sInh (inst sInh) 7 5 = some (1, none) := by decide +kernel
theorem test_met_5 : let s : State := { sW with tim.lgs := [] }
    instAt s 0 = some (inst s) ∧ chanUsable s 7 = false ∧ verdictOf s (inst s) 7 5 = some (2, none) := by decide +kernel
theorem test_met_6 : let s := sEnd (sGot pass_)
    s.trk.pass = none ∧ instAt s 0 = some (inst s) ∧ verdictOf s (inst s) 7 5 = some (0, some 127) := by decide +kernel

end VerdictsAreEnteredAndJudged

/-- Pair 2 of function 1 is there, with entries posted and not signalled. -/
def sPairV7 : State := setPair 1 2 { present := true, sqN := 16, cqN := 16, ien := true, unsig := 1, cqTail := 3 } State.reset
def p0 : Pass := sRp.trk.pass.getD {kind := .read, part := 0, wrap := 0, half := false, nextP := 0}
namespace DataSetsAreDecodedOrReadAgain

/-- A payload whose header names partition `pnum`. -/
def hdr (pnum : Byte) : DsHeader := { pnum := pnum }
def row (pnum : Byte) (n : Nat) : List Nat := dataRow (dsHeaderBytes (hdr pnum)) 0 (n / 256) (n % 256)
/-- Every codeword is resolved, the data rows holding it. -/
def full (pnum : Byte) : Words := (List.range 16384).map (fun n => (n, some (row pnum n)))
/-- A read pass that reads its data set 0 again, with all of it resolved before. -/
def pK (pnum : Byte) : Pass := { p0 with rereading := true, rereadDsn := some 0, rereads := 1, kept := full pnum }
def sK (pnum : Byte) : State := { sRp with trk.pass := some (pK pnum) }
def sNo : State := rset sRp pgWLK 0x104 0

theorem sget_table {α : Type} (f : Nat → Option α) (a n k : Nat) (h : a ≤ k) (hk : k < a + n) :
    sget none ((List.range' a n).map (fun i => (i, f i))) k = f k := by
  induction n generalizing a with
  | zero => omega
  | succ n ih =>
    simp only [List.range'_succ, List.map_cons, sget]
    by_cases e : k = a
    · simp [e]
    · rw [if_neg e, if_neg (by omega), ih (a + 1) (by omega) (by omega)]
theorem full_at (pnum : Byte) (k : Nat) (h : k < 16384) : sget none (full pnum) k = some (row pnum k) := by
  rw [full, List.range_eq_range']
  exact sget_table (fun n => some (row pnum n)) 0 16384 k (by omega) (by omega)
theorem word_full (pnum : Byte) (k c : Nat) (hk : k < 64) (hc : c < 256) : wordAt (full pnum) k c = some (row pnum (256 * k + c)) :=
  full_at pnum _ (by omega)
theorem attempt_none (d : Nat) (w : Words) : attempt [] d w = [] := by
  rw [attempt, List.flatMap_eq_nil_iff]
  intro n _
  rfl
theorem filter_none {p : Nat → Bool} (n : Nat) (h : ∀ k, k < n → p k = false) : (List.range n).filter p = [] := by
  rw [List.filter_eq_nil_iff]
  intro k hk
  simp [h k (List.mem_range.1 hk)]
theorem foldl_same {α : Type} (f : Words → α → Words) (l : List α) (w : Words) (h : ∀ x ∈ l, f w x = w) : l.foldl f w = w := by
  induction l with
  | nil => rfl
  | cons x r ih => rw [List.foldl_cons, h x List.mem_cons_self, ih (fun y hy => h y (List.mem_cons_of_mem _ hy))]
theorem outer_full (supp : Nat → List (List Nat)) (pnum : Byte) : (outerDecode supp (full pnum)).1 = full pnum := by
  have h2 : (List.range 256).foldl (c2Chan supp) (full pnum) = full pnum := by
    apply foldl_same
    intro c hc
    have e : (List.range 64).filter (fun k => (wordAt (full pnum) k c).isNone) = [] :=
      filter_none _ (fun k hk => by rw [word_full pnum k c hk (List.mem_range.1 hc)]; rfl)
    simp only [c2Chan, e, if_true]
  have h3 : (List.range 64).foldl c3Row (full pnum) = full pnum := by
    apply foldl_same
    intro k hk
    have e : (List.range 256).filter (fun c => (wordAt (full pnum) k c).isNone) = [] :=
      filter_none _ (fun c hc => by rw [word_full pnum k c (List.mem_range.1 hk) hc]; rfl)
    simp only [c3Row, e, if_true]
  simp only [outerDecode, h2, h3]
theorem whole_full (pnum : Byte) : dataWhole (full pnum) = true := by
  simp only [dataWhole, List.all_eq_true, List.mem_range]
  intro k hk c hc
  rw [word_full pnum k c (by omega) (by omega)]
  rfl
theorem padded (l : List Byte) (n : Nat) (h : l.length ≤ n) :
    (List.range n).map (fun j => (l[j]?).getD 0) = l ++ List.replicate (n - l.length) 0 := by
  apply List.ext_getElem?
  intro i
  by_cases h1 : i < l.length
  · rw [List.getElem?_append_left h1]
    simp [show i < n by omega, List.getElem?_eq_getElem h1]
  · rw [List.getElem?_append_right (by omega)]
    by_cases h2 : i < n
    · simp [h2, List.getElem?_eq_none (show l.length ≤ i by omega), show i - l.length < n - l.length by omega]
    · rw [List.getElem?_eq_none (by simp; omega), List.getElem?_eq_none (by simp; omega)]
theorem two_parts (f : Nat → Byte) (n : Nat) :
    (List.range n).map (fun j => f j) ++ (List.range n).map (fun j => f (n + j)) = (List.range (n + n)).map f := by
  rw [List.range_add, List.map_append, List.map_map]
  rfl
theorem payload_full (pnum : Byte) : readDsHeader (payloadRead 0 (full pnum)) = some (hdr pnum) := by
  have e1 : List.range 56 = 0 :: List.range' 1 55 := rfl
  have e2 : List.range 240 = 0 :: 1 :: List.range' 2 238 := by decide +kernel
  have part : ∀ c, c < 256 → (bitBytes 432 (randomise (rowKey 0 0 c) (byteBits ((wordAt (full pnum) 0 c).getD [])))).map (BitVec.ofNat 8) =
      (List.range 432).map (fun j => ((dsHeaderBytes (hdr pnum))[432 * c + j]?).getD 0) := by
    intro c hc
    rw [word_full pnum 0 c (by omega) hc, Option.getD_some, row, show (256 * 0 + c) / 256 = 0 by omega, show (256 * 0 + c) % 256 = c by omega,
      dataRow_back]
    simp only [Nat.mul_zero, Nat.zero_add]
  have ll : (dsHeaderBytes (hdr pnum)).length = 512 := by
    rw [dsHeaderBytes, List.length_append, Laws.length_dsHeaderBody, length_beBytes]
  have first : ∃ R, payloadRead 0 (full pnum) = dsHeaderBytes (hdr pnum) ++ R := by
    rw [payloadRead, e1, List.flatMap_cons, e2, List.flatMap_cons, List.flatMap_cons, part 0 (by omega), part 1 (by omega)]
    simp only [Nat.mul_zero, Nat.zero_add, Nat.mul_one]
    generalize hX : (List.range' 2 238).flatMap _ = X
    generalize hY : List.flatMap _ _ = Y
    have e := two_parts (fun j => ((dsHeaderBytes (hdr pnum))[j]?).getD 0) 432
    rw [padded _ (432 + 432) (by rw [ll]; omega)] at e
    rw [← List.append_assoc, e]
    exact ⟨_, by rw [List.append_assoc, List.append_assoc]⟩
  obtain ⟨R, h⟩ := first
  rw [h, Laws.readDsHeader_bytes _ _ ⟨Nat.two_pow_pos _, Nat.two_pow_pos _, Nat.two_pow_pos _, Nat.two_pow_pos _, Nat.two_pow_pos _, Nat.two_pow_pos _,
    by intro f hf; cases hf⟩]

theorem test_met_1 : sRp.trk.pass = some p0 ∧ decodable sRp p0 = true ∧ p0.rereading = false ∧ p0.rx = [] := by decide +kernel
theorem test_met_nothing_read (use : Bool) : dataWhole (outerDecode (leadSupp use [] 0) (resolve (attempt [] 0 []) [])).1 = false := by
  have h2 : (List.range 256).foldl (c2Chan (leadSupp use [] 0)) [] = [] := foldl_same _ _ _ (by cases use <;> decide +kernel)
  have h3 : (List.range 64).foldl c3Row [] = [] := foldl_same _ _ _ (by decide +kernel)
  have hr : resolve (attempt [] 0 []) [] = [] := by rw [attempt_none]; rfl
  simp only [hr, outerDecode, h2, h3]
  decide +kernel
theorem test_met_2 : 0 < rfld (countC1 (attempt [] 0 []) sRp) pgWLK 0x104 3 0 := by rw [attempt_none]; decide +kernel
theorem test_met_3 : sNo.trk.pass = some p0 ∧ decodable sNo p0 = true ∧ rfld (countC1 (attempt [] 0 []) sNo) pgWLK 0x104 3 0 ≤ 0 := by
  rw [attempt_none]
  decide +kernel
theorem test_met_whole (supp : Nat → List (List Nat)) (pnum : Byte) :
    (sK pnum).trk.pass = some (pK pnum) ∧ (pK pnum).rereadDsn = some 0 ∧
    dataWhole (outerDecode supp (resolve (attempt [] 0 (full pnum)) (full pnum))).1 = true ∧
    readDsHeader (payloadRead 0 (outerDecode supp (resolve (attempt [] 0 (full pnum)) (full pnum))).1) = some (hdr pnum) := by
  have hr : resolve (attempt [] 0 (full pnum)) (full pnum) = full pnum := by
    simp only [attempt_none, resolve, List.filter_nil, List.foldl_nil]
  rw [hr, outer_full, whole_full, payload_full pnum]
  exact ⟨rfl, rfl, rfl, rfl⟩
theorem test_met_decodable : decodable (sK 3) (pK 3) = true ∧ decodable (sK 9) (pK 9) = true := by decide +kernel
theorem test_met_no_slot (st : List Byte) : placeRead (pK 3) (hdr 3) st (sK 3) = none := rfl
theorem test_met_placed (st : List Byte) : (placeRead (pK 9) (hdr 9) st (sK 9)).isSome = true := rfl
theorem test_met_held : (pK 3).rereading = true ∧ (pK 3).rereadDsn ≠ some 1 ∧ decodable (sK 3) (pK 3) = true := by decide +kernel

end DataSetsAreDecodedOrReadAgain

namespace ChannelsTrackTheirSignals

def s1 : State := ch {flyRun := 15} sTrk
def s2 : State := ch {errN := 64, errSum := 64 * 200} (rset sTrk (pgCST 1) 0x10C 0x100)
def s3 : State := ch {nG := 100000, nO := 100000, nA := 100000, dg := 64, dOff := -32} sTrk

theorem test_met_1 : ↑(40 : Fin 256) < channels s1.variant ∧ (let ch := chOf s1 ↑(40 : Fin 256); ch.syncLost = false) ∧
    (let ch := chOf s1 ↑(40 : Fin 256); tapeFld s1 (pgRCH ↑(40 : Fin 256)) 276 15 12 ≤ ch.flyRun) ∧
    (let ch := chOf s1 ↑(40 : Fin 256); ch.flyRun ≠ 0) := by dsimp only; decide +kernel
theorem test_met_2 : (let ch := chOf s2 ↑(40 : Fin 256); 64 ≤ ch.errN) := by dsimp only; decide +kernel
theorem test_met_3 : lmsOn s3 ↑(40 : Fin 256) = true ∧
    (let ch := chOf s3 ↑(40 : Fin 256); 2 ^ tapeFld s3 (pgRCH ↑(40 : Fin 256)) 264 3 0 ≤ ch.nG) := by dsimp only; decide +kernel
theorem test_met_4 : lmsOn s3 ↑(40 : Fin 256) = true ∧
    (let ch := chOf s3 ↑(40 : Fin 256); 2 ^ tapeFld s3 (pgRCH ↑(40 : Fin 256)) 264 7 4 ≤ ch.nO) := by dsimp only; decide +kernel
theorem test_met_5 : lmsOn s3 ↑(40 : Fin 256) = true ∧
    (let ch := chOf s3 ↑(40 : Fin 256); 2 ^ tapeFld s3 (pgRCH ↑(40 : Fin 256)) 264 11 8 ≤ ch.nA) := by dsimp only; decide +kernel
theorem test_met_6 : ↑(1 : Fin 8) < laneGroups s1.variant ∧ swf (fun x => { }) s1.tim.lgs = true := by decide +kernel
theorem test_met_7 : 1 < laneGroups sTrk.variant ∧ (lgOf (lg 1 { st := .framed, tone := 6 * 2048 } sTrk) 1).st.usable = true ∧
    swf (fun x => { }) (lg 1 { st := .framed, tone := 6 * 2048 } sTrk).tim.lgs = true := by decide +kernel

end ChannelsTrackTheirSignals

/-- Pair 2 of function 1 is there, with entries posted and not signalled. -/
def sPairV9 : State := setPair 1 2 { present := true, sqN := 16, cqN := 16, ien := true, unsig := 1, cqTail := 3 } State.reset
def rec1 : ServoRec := { bursts := [(100, 4), (400, 4), (700, 3), (1000, 3)], amp := 1 }
def fr1 : ServoFrame := { tA := 100, tB := 400, tC := 700, tD := 1000, counts := (4, 4, 3, 3), amp := 1, valid := true }
/-- The reference allocation of R274: role, tick source and unit of a tile. -/
def refTile (t : Nat) : TileEnt :=
  if t < 128 then { role := 1, tickSrc := BitVec.ofNat 8 (t / 32), unit := BitVec.ofNat 16 t, len := 8000, route := if t = 0 then 0 else 0xFFFF }
  else if t < 256 then { role := 5 } else if t < 260 then { role := 2, tickSrc := BitVec.ofNat 8 (t - 256), unit := BitVec.ofNat 16 (t - 256), len := 8402 }
  else if t < 264 then {} else if t < 268 then { role := 4, tickSrc := if t = 265 then 9 else 10, unit := BitVec.ofNat 16 (t - 264), len := 5000 }
  else if t < 272 then { role := 5 }
  else if t < 288 then { role := 3, tickSrc := 8, unit := BitVec.ofNat 16 (t - 272), len := 8000 }
  else { role := 5 }
/-- The spare of a tile (R274). -/
def refSpare (t : Nat) : Nat :=
  if t < 256 then 288 + t / 8 else if t < 264 then 268 + (t - 256) / 2 else if t < 268 then 268 + (t - 264) else 288 + 2 * (t - 272)
def refTiles : List TileEnt := (List.range 320).map refTile
def refDetours : List DetourEnt :=
  ((List.range 320).filter (fun t => tileAllocated (refTile t))).map (fun t => { failed := BitVec.ofNat 16 t, spare := BitVec.ofNat 16 (refSpare t) })
def gimg : SchedImage := { simg with vfyIter := 4, rdIter := 8, speedCap := 20000, qtol := 200, tiles := refTiles, detours := refDetours, sects := [{ offset := 7872, length := 24, kind := 2, crcOk := true, route := { owner0 := 0, owner1 := 0, owner2 := 0, owner3 := 0, owner4 := 0, nentry := 1, ents := [{ start := 0, run := 8, out := 1, inp := 4 }] } }] }
namespace WriteGateSources

def w1 : Option ServoRec := (some rec1 : Option ServoRec)

theorem test_met_1 : servoUse State.reset true none = none ∧ servoUse State.reset false none = none ∧ State.reset.pins.shockN = false ∧
    ({ State.reset with pins.shockN := true } : State).pins.shockN = true := by decide +kernel
theorem test_met_2 : ∀ k, k < laneGroups sTrk.variant → (lgOf sTrk k).st = .framed := by decide +kernel
theorem test_met_4 : let s : State := { State.reset with mot.gate := { State.reset.mot.gate with loss := 15, src := 0 } }
    rfld s pgSRV 0x104 7 4 ≤ s.mot.gate.loss ∧ bit s.mot.gate.src 2 = false := by decide +kernel
theorem test_met_3 : servoUse State.reset true w1 = some fr1 ∧ servoUse State.reset false w1 = some fr1 ∧
    100 * rfld State.reset pgSRV 256 11 0 < (servoY fr1 - trackY (trackNow State.reset)).natAbs ∧
    QuietTick State.reset 9 9302 {} := by decide +kernel

end WriteGateSources

namespace LoopsSampleAndTrip

def s1 : State := { en pgMCE State.reset with mot.loops := [(1, { fe := 65535 })], mot.plan := { State.reset.mot.plan with dwell := true } }

theorem test_met_1 : mceOn s1 = true ∧ (loopOf s1 1).fe ≠ 0 ∧
    rfld s1 pgMCE (loopBase 1 + 0x44) 15 0 ≤ (loopOf s1 1).fe + 3 ∧ swf (fun _ => {}) s1.mot.loops = true ∧
    s1.mot.plan.dwell = true ∧ pageEn s1 pgMCE = true ∧ QuietTick s1 10 64000 {} := by decide +kernel
theorem test_met_2 : mceOn State.reset = false := by decide +kernel
theorem test_met_3 : sgn 16 (rfld State.reset pgMCE (bankBase State.reset 0 + 0x18) 15 0) ≤ sgn 16 (rfld State.reset pgMCE (bankBase State.reset 0 + 0x18) 31 16) ∧
    sgn 16 (rfld State.reset pgMCE (bankBase State.reset 0 + 0x14) 15 0) ≤ sgn 16 (rfld State.reset pgMCE (bankBase State.reset 0 + 0x14) 31 16) := by decide +kernel
/-- The governor has been entered by a breach of the crest, which LOOP[2] had recorded; loop 1 trips beside it. -/
def s2 : State := rset { s1 with mot.gov.active := true } pgMCE 0x6AC 0x102
theorem test_met_4 : pageEn s2 pgMCE = true ∧ (loopOf s2 1).fe ≠ 0 ∧ mceOn s2 = false ∧ bit (rget s2 pgMCE 0x6AC) 8 = true ∧
    bits (rget s2 pgMCE 0x6AC) 2 0 ≠ 1 ∧ rfld s2 pgMCE (loopBase 1 + 0x44) 15 0 ≤ (loopOf s2 1).fe + 3 := by decide +kernel

end LoopsSampleAndTrip

/-- Pair 2 of function 1 is there, with entries posted and not signalled. -/
def sPairV8 : State := setPair 1 2 { present := true, sqN := 16, cqN := 16, ien := true, unsig := 1, cqTail := 3 } State.reset
def pW : Pass := {kind := .write, part := 3, wrap := 0, half := false, nextP := 0}
def sWV8 : State := {sTrk with trk.cur := some (pe), trk.pass := some pW}
def feS : State := {en pgMCE State.reset with mot.loops := [(1, {fe := 100000})]}
def sMv : State := rset (rset (en pgMCE State.reset) pgMCE 0x3C0 0x1000234) pgMCE 0x3C4 0x100105
def p1 : PlanEntry := { band := 0, wrap := 1, part := 3, rev := true }
def p5 : PlanEntry := { band := 0, wrap := 4, part := 4, rev := false }
namespace MovesAndTurnarounds

def s1 : State := rset sMv pgMCE 0x3C4 0x64
def s2 : State := {State.reset with mot.move.status := 1}
def s3 : State := {sTrk with mot.move.status := 1, trk.starting := some (3, .read, 5), trk.plan := [pe false]}
def s4 : State := {sTrk with trk.pass := some {pW with nextP := 434128}, trk.cur := some pe, trk.plan := [p1]}
def s5 : State := {sTrk with trk.pass := some {pW with nextP := 434128}, trk.cur := some pe, trk.plan := [p5], hwl.sending := true}
def s6 : State := {sTrk with mot.coast := true, trk.pass := some pW, trk.cur := some pe}
def s7 : State := {sTrk with mot.coast := true, trk.pass := some pW, trk.cur := some pe, trk.plan := [p1]}
def s8 : State := {sTrk with mot.coast := true, trk.pass := some pW, trk.cur := some pe, trk.plan := [p5]}
def w1 : Pass := {pW with nextP := 434128}
def w2 : List PlanEntry := ([] : List PlanEntry)

theorem test_met_1 : sget none sMv.rf.guard pgMCE = none ∧ moveRejected sMv = true := by decide +kernel
theorem test_met_2 : sget none s2.rf.guard pgMCE = none ∧ s2.mot.move.status = 1 := by decide +kernel
theorem test_met_3 : s2.mot.move.status = 1 ∧ s2.trk.starting = none ∧ moveThere s2 = true ∧
    moveThere { s2 with mot.tone := 20000 } = false := by decide +kernel
theorem test_met_4 : sget none s3.rf.guard pgMCE = none ∧ moveRejected s3 = false ∧ mceOn s3 = true := by decide +kernel
theorem test_met_5 : s3.mot.move.status = 1 ∧ s3.trk.starting = some (3, PassKind.read, 5) ∧ moveThere s3 = true ∧
    (PassKind.read = PassKind.write → (degMask s3).length ≤ rfld s3 pgWLK 256 7 4) := by decide +kernel
theorem test_met_6 : s4.trk.pass = some w1 ∧ s4.mot.coast = false ∧ mceOn s4 = true ∧ s4.mot.move.status ≠ 1 ∧
    (w1.kind = PassKind.write → inEntry s4 w1 = false) := by decide +kernel
theorem test_met_next_entry_breaks_nothing : ∀ (e : PlanEntry) (r : List PlanEntry), s4.trk.plan = e :: r →
    breaksPass w1 e = false := by
  intro e r h
  have h2 : [p1] = e :: r := h
  cases h2
  decide +kernel
theorem test_met_7 : s5.trk.pass = some w1 ∧ s5.mot.coast = false ∧ mceOn s5 = true ∧ s5.mot.move.status ≠ 1 ∧
    (w1.kind = PassKind.write → inEntry s5 w1 = false) ∧ s5.trk.plan = p5 :: w2 ∧
    breaksPass w1 p5 = true := by decide +kernel
theorem test_met_8 : s6.mot.coast = true ∧ mceOn s6 = true ∧ s6.trk.plan = [] := by decide +kernel
theorem test_met_9 : s7.mot.coast = true ∧ mceOn s7 = true ∧ s7.trk.plan = p1 :: w2 ∧ s7.trk.pass = some pW ∧
    s7.trk.cur = some pe ∧ nextWrap s7 pe p1 = true := by decide +kernel
theorem test_met_10 : s8.mot.coast = true ∧ mceOn s8 = true ∧ s8.trk.plan = p5 :: w2 ∧ s8.trk.pass = some pW ∧
    (∀ (c : PlanEntry), s8.trk.cur = some c → nextWrap s8 c p5 = false) := by decide +kernel

/-- An HC reads a full-band pair: at the wrap's end it goes back for its other half. -/
def pR : Pass := { kind := .read, part := 3, wrap := 0, half := false, nextP := 0 }
def s9 : State := { sTrk with variant := .hc, trk.cur := some (pe false), trk.pass := some pR }

theorem test_met_11 : s9.trk.pass = some pR ∧ s9.mot.coast = false ∧ mceOn s9 = true ∧ s9.mot.move.status ≠ 1 ∧
    stretched s9 pR = true ∧ pR.h1 = false ∧ s9.trk.cur = some (pe false) ∧
    pposAt s9 3 pR.strP = some ((pe false).wrap.val, 0) := by decide +kernel
theorem test_met_12 : stretched s4 w1 = false ∧ stretched s5 w1 = false := by decide +kernel
/-- Writing shall follow at the next entry, and is not yet due, or must not start. -/
def s10 : State := { sTrk with mot.coast := true, trk.plan := [pe] }
theorem test_met_13 : s10.mot.coast = true ∧ mceOn s10 = true ∧ s10.trk.pass = none ∧ pe.write = true ∧ passStart s10 pe = some 0 ∧
    s10.trk.noPass = false ∧ writeDue s10 pe.part = false ∧ pposAt s10 pe.part.val 0 = some (0, 0) := by decide +kernel
theorem test_met_14 : let s : State := { s10 with trk.noPass := true }
    s.trk.pass = none ∧ passStart s pe = some 0 ∧ s.trk.noPass = true ∧ mceOn s = true := by decide +kernel

end MovesAndTurnarounds

namespace LoopAndTraceRegisters

def s1 : State := en pgMCE State.reset
def s2 : State := {State.reset with trc := [(2, {armed := true, entries := [5]})]}
def s3 : State := rset {State.reset with trc := [(2, {armed := true, trig := true, post := 0})]} pgTRC 0x144 3

theorem test_met_1 : sget none s1.rf.guard pgMCE = none ∧
    (let u := ownWrite pgMCE (loopBase ↑(1 : Fin 5) + 64) (0 : Word) s1; rbit u pgMCE (loopBase ↑(1 : Fin 5) + 64) 0 = rbit s1 pgMCE (loopBase ↑(1 : Fin 5) + 64) 0) := by dsimp only; decide +kernel
theorem test_met_2 : sget none s1.rf.guard pgMCE = none ∧ ↑(5 : Fin (16 : Nat)) % (8 : Nat) ≠ (7 : Nat) := by decide +kernel
theorem test_met_3 : sget none s1.rf.guard pgMCE = none ∧
    (let u := ownWrite pgMCE (loopBase ↑(1 : Fin 5) + 64) (1 : Word) s1; rbit u pgMCE (loopBase ↑(1 : Fin 5) + 64) 0 ≠ rbit s1 pgMCE (loopBase ↑(1 : Fin 5) + 64) 0) := by dsimp only; decide +kernel
theorem test_met_4 : sget none s1.rf.guard pgTRC = none ∧
    (let t := trcOf s1 ↑(2 : Fin 4); t.armed = false) := by dsimp only; decide +kernel
theorem test_met_5 : sget none s2.rf.guard pgTRC = none ∧ rfld s2 pgTRC (260 + 32 * ↑(2 : Fin 4)) 2 0 = 0 ∧
    (let t := trcOf s2 ↑(2 : Fin 4); t.armed = true) ∧
    (let t := trcOf s2 ↑(2 : Fin 4); t.trig = false) := by dsimp only; decide +kernel
theorem test_met_6 : sget none s3.rf.guard pgTRC = none ∧
    rfld s3 pgTRC (260 + 32 * ↑(2 : Fin 4)) 2 0 ≠ 0 := by decide +kernel
theorem test_met_7 : (let t := trcOf s3 ↑(2 : Fin 4); t.armed = true) ∧ (let t := trcOf s3 ↑(2 : Fin 4); t.trig = true) ∧
    (let t := trcOf s3 ↑(2 : Fin 4); t.post = 0) ∧
    rbit s3 pgTRC (256 + 32 * ↑(2 : Fin 4)) 16 = false := by dsimp only; decide +kernel

end LoopAndTraceRegisters

namespace GovernorEntersAndLeaves

def s1 : State := {State.reset with mot.gov.active := true, mot.low := 500, mot.meas.noFrame := 250, mot.meas.speed := 5, pins.sysrstN := true}
def s2 : State := {State.reset with mot.gov.active := true, mot.gov.passive := true, mot.quiet := 2500, mot.gov.atRest := true, mot.sealed := true, mot.gov.causes := 5}
def s3 : State := {State.reset with mot.gov.active := true, mot.gov.passive := true, mot.quiet := 2500, mot.gov.atRest := true, mot.gov.causes := 5}

def sFast : State := { State.reset with mot.past := [(0, 1)] }

theorem test_met_1 : sget none State.reset.rf.guard pgGOV = none ∧ State.reset.mot.gov.active = false := by decide +kernel
theorem test_met_2 : bit (31 : BitVec 5) 0 = true ∧ bit sFast.mot.gov.causes (0 + 1) = false ∧ crestHeld sFast 0 = true := by decide +kernel
theorem test_met_3 : sget none State.reset.rf.guard pgGOV = none ∧
    ((1 : Word) ≠ ~~~(1 : Word) ∨ (1 : Word) ≠ (1 : Word) ∨ mayRelease State.reset = false) := by decide +kernel
theorem test_met_4 : s1.mot.gov.active = true ∧ s1.mot.gov.passive = false ∧ s1.mot.gov.rest = false ∧
    500 ≤ s1.mot.low := by decide +kernel
theorem test_met_5 : s1.mot.gov.active = true ∧ s1.mot.gov.passive = false ∧ 250 ≤ s1.mot.meas.noFrame ∧
    s1.mot.meas.speed ≠ 0 ∧ driving s1 = true := by decide +kernel
theorem test_met_6 : s2.mot.gov.active = true ∧ s2.mot.gov.passive = true ∧ 2500 ≤ s2.mot.quiet := by decide +kernel
theorem test_met_7 : sget none s2.rf.guard pgGOV = none ∧ ~~~(1 : Word) = ~~~(1 : Word) ∧ (1 : Word) = (1 : Word) ∧
    mayRelease s2 = true := by decide +kernel
theorem test_met_8 : let s : State := { State.reset with mot.sealed := true, pins.motorUvN := true }
    sget none s.rf.guard pgGOV = none ∧ s.mot.gov.active = false ∧ (!s.mot.sealed || !s.pins.motorUvN) = false := by decide +kernel

end GovernorEntersAndLeaves

namespace TileFencesAndDetours

def chTile : TileBank := { ent := { role := 1, unit := 7 } }
def lgTile : TileBank := { ent := { role := 2, unit := 1 } }
def s1 : State := {State.reset with lat.tiles := [(5, {act := chTile}), (6, {act := lgTile, reason := 3})]}
def w1 : Detour := { failed := 6, spare := 9, role := 2, unit := 1, active := false, ready := true }
def w2 : Detour := { failed := 5, spare := 9, role := 1, unit := 7, active := true, ready := true, regen := [(3, 4), (3, 5)] }
def s2 : State := {s1 with lat.tiles := [(6, {act := lgTile, reason := 3}), (9, {stby := lgTile})], lat.detour := some w1, lat.bound := true}
def s3 : State := {State.reset with lat.detour := some w2}

theorem test_met_1 : sget none State.reset.rf.guard pgLAT = none ∧ bit (32773 : Word) 15 = true ∧
    bits (32773 : Word) 8 0 < 320 ∧ (tileOf State.reset (bits (32773 : Word) 8 0)).reason = 0 := by decide +kernel
theorem test_met_2 : sget none s1.rf.guard pgLAT = none ∧ bit (32774 : Word) 15 = true ∧ bits (32774 : Word) 8 0 < 320 ∧
    (tileOf s1 (bits (32774 : Word) 8 0)).reason ≠ 0 := by decide +kernel
theorem test_met_3 : 1 ≤ (tileOf s1 ↑(5 : Fin 320)).role ∧ (tileOf s1 ↑(5 : Fin 320)).role ≤ 4 ∧
    (tileOf s1 ↑(5 : Fin 320)).reason = 0 := by decide +kernel
theorem test_met_4 : s3.lat.detour = some w2 ∧ w2.active = true ∧ w2.regen = (3, 4) :: [(3, 5)] ∧ w2.regen.head?.map (·.2) ≠ some 5 := by
  decide +kernel
theorem test_met_5 : s2.lat.detour = some w1 ∧ w1.active = false ∧ w1.ready = true ∧ w1.role ≠ 4 ∧ s2.lat.bound = true ∧
    s2.lat.sched.area ∉ s2.lat.sched.reload ∧ s2.lat.sched.phase ≠ 3 ∧ (tileOf s2 w1.spare).reason = 0 ∧
    entDomain (tileOf s2 w1.spare).stby.ent = some 1 := by decide +kernel

end TileFencesAndDetours

/-- Pair 2 of function 1 is there, with entries posted and not signalled. -/
def sPairV11 : State := setPair 1 2 { present := true, sqN := 16, cqN := 16, ien := true, unsig := 1, cqTail := 3 } State.reset
/-- The bytes of a schedule image whose one section is a route section. -/
def tileBytes (e : TileEnt) : List Byte :=
  [e.role, e.tickSrc] ++ leBytes e.unit.toNat 2 ++ leBytes e.code.toNat 2 ++ leBytes e.route.toNat 2 ++ leBytes e.init.toNat 2 ++ [0, 0] ++
    leBytes e.len.toNat 4
def routeBytes (r : RouteSect) : List Byte :=
  [r.owner0, r.owner1, r.owner2, r.owner3, r.owner4, 0, 0, 0] ++ leBytes r.nentry.toNat 4 ++ [0, 0, 0, 0] ++
    r.ents.flatMap (fun e => leBytes (e.start.toNat + 2 ^ 20 * e.run.toNat + 2 ^ 32 * e.out.toNat + 2 ^ 35 * e.inp.toNat) 8)
def schedHead (g : SchedImage) : List Byte :=
  leBytes g.magic.toNat 4 ++ leBytes g.fmtVer.toNat 2 ++ leBytes g.latRev.toNat 2 ++ [g.variant, g.keyId, 0, 0] ++ leBytes g.imgLen.toNat 4 ++
  leBytes g.sigOff.toNat 4 ++ leBytes g.imageId.toNat 4 ++ leBytes g.stateCompat.toNat 4 ++ leBytes 0 4 ++ [1, 0, g.rdIter, g.vfyIter] ++
  leBytes g.speedCap.toNat 2 ++ leBytes g.qtol.toNat 2 ++ leBytes g.lenMaxFrame.toNat 4 ++ leBytes g.lenMaxTsv.toNat 4 ++
  leBytes g.lenMaxT25.toNat 4 ++ leBytes g.lenMaxT2k.toNat 4 ++ leBytes 1 4 ++ leBytes 1 4 ++ leBytes 1 4 ++ leBytes 1 4 ++ leBytes 1 4 ++
  [g.regenTicks, g.verdictTicks] ++ leBytes g.detours.length 2 ++ List.replicate 40 0 ++ leBytes g.tileTabOff.toNat 4 ++
  leBytes g.secTabOff.toNat 4 ++ leBytes g.sects.length 4 ++ leBytes g.detourOff.toNat 4 ++ leBytes g.commut.toNat 4 ++ List.replicate 116 0
def schedBytes (g : SchedImage) (rt : List Byte) : List Byte :=
  schedHead g ++ g.tiles.flatMap tileBytes ++ (leBytes 7872 4 ++ leBytes 24 4 ++ [2, 0, 0, 0] ++ leBytes 1621092597 4) ++
  List.replicate 48 0 ++ g.detours.flatMap (fun d => leBytes d.failed.toNat 2 ++ leBytes d.spare.toNat 2 ++ List.replicate 12 0) ++ rt ++
  List.replicate 40 0
def gbytes : List Byte := schedBytes gimg (routeBytes ((gimg.sects.head?.map (·.route)).getD {}))
def gfull : List Byte :=
  gbytes ++ sigOf 23510296249909946930788129164955239469113390196177522242346097050376342188359916405720915230681596610096596704758305
/-- A load of that image from staging SRAM, at address 64. -/
def sIm : State :=
  { State.resetOf .hc with lat.sched.phase := 1, lat.sched.fromSram := true, lat.sched.addr := 64, mot.sealed := true,
                           vlt.makerKey := mkKey, mem.staging := listCells 64 gfull }
def ivs (s : State) : State := {s with vlt.ivs := [⟨9, 5, 1000 , some (2000), 0⟩], vlt.lifecycle := 2}
def iv3 (s : State) : State := {s with vlt.ivs := [⟨9, 5, 1000, some (2000), 3⟩], vlt.lifecycle := 2}
namespace ScheduleImagesLoadAndSwitch

def s1 : State := en pgSCH State.reset
def s2 : State := {State.reset with lat.sched.phase := 1}
def s3 : State := {State.reset with lat.sched.phase := 1, lat.sched.auto := true}
def s4 : State := {State.reset with lat.sched.phase := 4, lat.sched.go := true, lat.sched.standby := some gimg}
def s5 : State := {State.reset with lat.sched.phase := 5, lat.sched.go := true, lat.sched.standby := some gimg, lat.sched.running := some {gimg with stateCompat := 7}, vlt.quotes := [⟨1, 2, 3, 1, 0⟩]}
def s6 : State := {sHost [cmd 4 (ent 0x88)] with lat.sched.phase := 3, lat.sched.standby := some gimg, lat.sched.cmd := some 4}
def s1a : State := {sIm with lat.sched.auto := true}

theorem test_met_1 : sget none s1.rf.guard pgSCH = none ∧ bit (3 : Word) 0 = true ∧
    pageEn s1 pgSCH = true := by decide +kernel
theorem test_met_2 : sget none s1.rf.guard pgSCH = none ∧
    (bit (0 : Word) 0 = false ∨ pageEn s1 pgSCH = false) := by decide +kernel
theorem test_met_3 : sget none s4.rf.guard pgSCH = none ∧ s4.lat.sched.standby = some gimg ∧
    (s4.lat.sched.phase = 3 ∨ s4.lat.sched.phase = 4) := by decide +kernel
theorem test_met_4 : s2.lat.sched.phase = 1 ∧ imageCheck s2 (loadedImage s2 false) = some 1 := by decide +kernel
theorem test_met_5 : s4.lat.sched.standby = some gimg ∧ s4.lat.sched.go = true ∧
    (s4.lat.sched.phase = 4 ∨ s4.lat.sched.phase = 5) ∧ s4.top.pfGate = false ∧
    (∀ (r : SchedImage), s4.lat.sched.running = some r → r.stateCompat = gimg.stateCompat ∨ trackIdle s4 = true) := by decide +kernel
theorem test_met_6_phase : sIm.lat.sched.phase = 1 := rfl
theorem load_bytes (bs : List Byte) (s : State) (h : s.lat.sched.fromSram = true ∧ s.lat.sched.addr = 64) (hm : s.mem.staging = listCells 64 bs)
    (hn : max 256 (min (leField (readRange 0 (listCells 64 bs) 64 256) 0xC 4) 12582912) = bs.length) : loadBytes s = bs := by
  simp only [loadBytes, h.1, h.2, hm, if_true, hn, readRange_listCells]
theorem test_met_6_length : max 256 (min (leField (readRange 0 (listCells 64 gfull) 64 256) 0xC 4) 12582912) = 8032 ∧ gfull.length = 8032 := by
  decide +kernel
theorem test_met_6_bytes : loadBytes sIm = gfull :=
  load_bytes gfull sIm ⟨rfl, rfl⟩ rfl (test_met_6_length.1.trans test_met_6_length.2.symm)
def gread : SchedImage := readSched sIm true gfull
theorem test_met_6_roles : imgRoles .hc gread = true ∧ imgBudgets gread = true ∧ imgRoutes gread = true ∧ imgOwners gread = true ∧
    imgDetours gread = true ∧ gread.sects.all (·.crcOk) = true ∧ fencedUses sIm gread = [] := by decide +kernel
theorem test_met_6_head : gread.copyOk = true ∧ ¬ (gread.magic ≠ 0x49535A47 ∨ gread.fmtVer ≠ 1 ∨ gread.latRev ≠ 1) ∧
    ¬ gread.variant ≠ variantCode sIm.variant ∧ imgBounds gread = true ∧
    ¬ (1 < gread.keyId.toNat ∨ (gread.keyId = 1 ∧ !makerEnrolled sIm)) ∧
    ¬ (gread.vfyIter ≠ 4 ∨ gread.rdIter.toNat < 4 ∨ 16 < gread.rdIter.toNat ∨ gread.verdictTicks = 0 ∨ 3 < gread.verdictTicks.toNat) ∧
    ¬ (gread.speedCap.toNat < speedMax sIm ∨ gread.qtol.toNat < 200 ∨ gread.regenTicks = 0 ∨ 32 < gread.regenTicks.toNat) ∧
    crestSealed sIm = true := by decide +kernel
theorem test_met_6_sig : gread.sigOk = true := by decide +kernel
theorem test_met_6 : imageCheck sIm (loadedImage sIm true) = none := by
  obtain ⟨r1, r2, r3, r4, r5, r6, r7⟩ := test_met_6_roles
  obtain ⟨h1, h2, h3, h4, h5, h6, h7, h8⟩ := test_met_6_head
  rw [loadedImage, test_met_6_bytes]
  change imageCheck sIm gread = none
  have hs := test_met_6_sig
  have hv : sIm.variant = .hc := rfl
  rw [← hv] at r1
  generalize gread = g at *
  rw [imageCheck, if_neg (by simp [h1]), if_neg h2, if_neg h3, if_neg (by simp [h4]), if_neg h5, if_neg (by simp [hs]),
    if_neg (by simp only [r6]; decide), if_neg (by simp [r1]), if_neg h6, if_neg h7, if_neg (by simp [r2]), if_neg (by simp [r3]),
    if_neg (by simp [r4]), if_neg (by simp [r5]), if_neg (by simp [r7]), if_neg (by simp [h8])]

end ScheduleImagesLoadAndSwitch

/-- Pair 2 of function 1 is there, with entries posted and not signalled. -/
def sPairV10 : State := setPair 1 2 { present := true, sqN := 16, cqN := 16, ien := true, unsig := 1, cqTail := 3 } State.reset
def sV (op : Nat) (e : Sqe) : State := { rset (sHost [{cmd 4 e with started := true}]) pgVLT 0x100 (BitVec.ofNat 32 (4 * 65536 + op)) with vlt.lifecycle := 2, vlt.quotes := [⟨77, 5, 200, 1, 0⟩, ⟨78, 5, 201, 1, 0⟩], clk.devSec := 700, clk.devUs := 3 }
def cV (e : Sqe) : Cmd := {cmd 4 e with started := true}
def qob : QuoteObs := { quoteId := 99, priv := 1, sig := List.replicate 96 5, chain := [1,2] }
def qkey : QuoteKey := ⟨77, 5, 200, 1, 0⟩
def tenantKey : List Byte := List.replicate 32 7
/-- A blob for polder 5 and partition 3, with the base point as the tenant's. -/
def blobBytes (quoteId fp : Nat) (wrapped : List Byte) : List Byte :=
  [0x43, 0x4B, 0x57, 0x4B, 1, 0, 1, 0, 5, 3, 1, 0, 0, 0, 0, 0] ++ beBytes quoteId 16 ++ beBytes fp 16 ++ sec1 base384 ++
    List.replicate 7 0 ++ wrapped
/-- Its key-encryption key, fingerprint and wrap, of which `test_kek`, `test_fingerprint` and `test_unwrap` speak. -/
def tenantKek : List Byte := beBytes 0x011a1d61b7c31834bc0568402370b74ecc93f01ded04814d883afe9e1c8b4456 32
def tenantFp : Nat := 0x2f886a7aecd46a680a431594d0e500e9
def tenantWrap : List Byte := beBytes 0xcba857cc8443b4b595990a787fc3ede1f7aff5e019d9fe2a39866e564b7fe1883c8a5e5899d13771 40
def tenantBlob : KeyBlob := { magic := 0x4B574B43, version := 1, flags := 1, polder := 5, part := 3, kwalg := 1, zeroB := 0, quoteId := 77,
                              keyFp := BitVec.ofNat 128 tenantFp, tpub := sec1 base384, zero91 := 0, wrapped := tenantWrap }
def blobGood : List Byte := blobBytes 77 tenantFp tenantWrap
theorem test_kek : blobKek State.reset qkey tenantBlob (base384.getD (0, 0)) = tenantKek := by decide +kernel
theorem test_fingerprint : keyPrint tenantKey = BitVec.ofNat 128 tenantFp := by decide +kernel
theorem test_unwrap : keyUnwrap 1 tenantKek tenantWrap = some tenantKey := by decide +kernel
theorem test_wrap : keyWrap 1 tenantKek tenantKey = tenantWrap := by decide +kernel
def sI (bs : List Byte) (s : State) : State := { s with mem.staging := listCells 0 bs }
def eA := ent 0x0A 0 1000
def eI := ent 0x09 0 192
def eE := ent 0x84
def eT (n : Nat) := ent 0x8A (BitVec.ofNat 256 (n + 3000 * 2 ^ 64))
def eU := ent 0x82
namespace VaultServesItsMailbox

def s1 : State := sV 1 (ent 0x0A 0 10)
def c1 : Cmd := cV (ent 0x0A 0 10)
def sGood : State := setPart 3 (fun e => { e with keyFp := BitVec.ofNat 128 tenantFp }) (sI blobGood (sV 2 eI))
def sNoQuote : State := sI (blobBytes 55 0 []) (sV 2 eI)
def sBadWrap : State := sI (blobBytes 77 9 (List.replicate 40 0)) (sV 2 eI)
def sOther : State := sI blobGood (sV 2 eI)
def w3 : BitVec 16 × Nat := (stKEY_REFUSED, 4)
def w5 : Nat × Byte × Instr := (1, (0x0A : Byte), Instr.reqAttest qob)
def used (s : State) (c : Cmd) : State := modCmd c.handle (fun c => { c with usedVault := true }) s
def blobAt (s : State) (c : Cmd) : KeyBlob := (requestBlob (used s c)).1
def after (s : State) (c : Cmd) : State := (requestBlob (used s c)).2
def dropped (s : State) (c : Cmd) : State :=
  dropQuotes (fun q => decide (q.id = (blobAt s c).quoteId) && decide (q.polder = c.polder)) (after s c)

theorem test_met_1 : sget none (sV 1 eA).rf.guard pgVLT = none ∧ rfld (sV 1 eA) pgVLT 256 7 0 = 1 ∧
    reqCmd (sV 1 eA) 10 = some (cV eA) ∧
    (List.filter (fun x => decide (x.polder = (cV eA).polder)) (sV 1 eA).vlt.quotes).length ≤ 4 ∧
    (quoteBytes (used (sV 1 eA) (cV eA)) (cV eA) qob).length ≤ bufLen (cV eA).e (cV eA).sgl := by decide +kernel
theorem test_met_2 : sget none s1.rf.guard pgVLT = none ∧ rfld s1 pgVLT 256 7 0 = 1 ∧ reqCmd s1 10 = some c1 ∧
    bufLen c1.e c1.sgl < (quoteBytes (used s1 c1) c1 qob).length := by decide +kernel
theorem test_met_3 : sget none sGood.rf.guard pgVLT = none ∧ rfld sGood pgVLT 256 7 0 = 2 ∧
    reqCmd sGood 9 = some (cV eI) ∧ importEarly (after sGood (cV eI)) (cV eI) (blobAt sGood (cV eI)) = none ∧
    importLate (dropped sGood (cV eI)) (cV eI) (blobAt sGood (cV eI)) = none := by decide +kernel
theorem test_met_3_blob : blobAt sGood (cV eI) = tenantBlob ∧ (after sGood (cV eI)).vlt.devId = State.reset.vlt.devId ∧
    (after sGood (cV eI)).vlt.quotes.find? (liveQuote (after sGood (cV eI)) (cV eI).polder tenantBlob.quoteId) = some qkey ∧
    readPoint tenantBlob.tpub = base384 ∧ tenantKey.length = 32 := by decide +kernel
theorem test_met_3_kek : blobKek (after sGood (cV eI)) qkey tenantBlob (base384.getD (0, 0)) = tenantKek := by
  rw [← test_kek, blobKek, blobKek, test_met_3_blob.2.1]
theorem test_met_3_wrap : tenantBlob.wrapped = keyWrap tenantBlob.kwalg (blobKek (after sGood (cV eI)) qkey tenantBlob (base384.getD (0, 0))) tenantKey ∧
    tenantBlob.keyFp = keyPrint tenantKey := by
  rw [test_met_3_kek]; exact ⟨test_wrap.symm, test_fingerprint.symm⟩
theorem test_met_3_key : importKey (after sGood (cV eI)) (cV eI) (blobAt sGood (cV eI)) = .inr tenantKey := by
  obtain ⟨hb, -, hq, hp, -⟩ := test_met_3_blob
  have hk := test_met_3_kek
  have hw : keyUnwrap tenantBlob.kwalg tenantKek tenantBlob.wrapped = some tenantKey := test_unwrap
  have hf : tenantBlob.keyFp = keyPrint tenantKey := test_fingerprint.symm
  generalize tenantBlob = b at *
  generalize after sGood (cV eI) = s at *
  rw [hb, importKey, hq]
  simp only [base384, Option.getD_some] at hp hk
  simp only [unwrapBlob, hp, hk, hw, hf, ne_eq, not_true_eq_false, if_false]
theorem test_met_4 : sget none sNoQuote.rf.guard pgVLT = none ∧ rfld sNoQuote pgVLT 256 7 0 = 2 ∧
    reqCmd sNoQuote 9 = some (cV eI) ∧ importEarly (after sNoQuote (cV eI)) (cV eI) (blobAt sNoQuote (cV eI)) = some w3 := by decide +kernel
theorem test_met_5 : reqCmd sBadWrap 9 = some (cV eI) ∧
    importEarly (after sBadWrap (cV eI)) (cV eI) (blobAt sBadWrap (cV eI)) = none ∧
    importKey (after sBadWrap (cV eI)) (cV eI) (blobAt sBadWrap (cV eI)) = .inl 6 := by decide +kernel
theorem test_met_5_late : reqCmd sOther 9 = some (cV eI) ∧
    importEarly (after sOther (cV eI)) (cV eI) (blobAt sOther (cV eI)) = none ∧
    (importLate (dropped sOther (cV eI)) (cV eI) (blobAt sOther (cV eI))).isSome = true := by decide +kernel
theorem test_met_6 : sget none (sV 3 eE).rf.guard pgVLT = none ∧ rfld (sV 3 eE) pgVLT 256 7 0 = 3 ∧
    reqCmd (sV 3 eE) 132 = some (cV eE) ∧
    (let part := BitVec.toNat (cV eE).e.part; let fp := (partEntry (sV 3 eE) part).keyFp; fp ≠ 0) := by dsimp only; decide +kernel
theorem test_met_7 : sget none (sV 4 (eT 699)).rf.guard pgVLT = none ∧ rfld (sV 4 (eT 699)) pgVLT 256 7 0 = 4 ∧
    reqCmd (sV 4 (eT 699)) 138 = some (cV (eT 699)) ∧
    (let sec := csp (cV (eT 699)).e 32 8; let nano := csp (cV (eT 699)).e 40 4; sec * 1000000000 + nano < nowNs (sV 4 (eT 699))) := by dsimp only; decide +kernel
theorem test_met_8 : sget none (sV 4 (eT 700)).rf.guard pgVLT = none ∧ rfld (sV 4 (eT 700)) pgVLT 256 7 0 = 4 ∧
    reqCmd (sV 4 (eT 700)) 138 = some (cV (eT 700)) ∧
    (let sec := csp (cV (eT 700)).e 32 8; let nano := csp (cV (eT 700)).e 40 4; sec * 1000000000 + nano = nowNs (sV 4 (eT 700))) := by dsimp only; decide +kernel
theorem test_met_9 : sget none (sV 4 (eT 701)).rf.guard pgVLT = none ∧ rfld (sV 4 (eT 701)) pgVLT 256 7 0 = 4 ∧
    reqCmd (sV 4 (eT 701)) 138 = some (cV (eT 701)) ∧
    (let sec := csp (cV (eT 701)).e 32 8; let nano := csp (cV (eT 701)).e 40 4; nowNs (sV 4 (eT 701)) < sec * 1000000000 + nano) := by dsimp only; decide +kernel
theorem test_met_10 : sget none (sV 5 eU).rf.guard pgVLT = none ∧ rfld (sV 5 eU) pgVLT 256 7 0 = 5 ∧
    reqCmd (sV 5 eU) 130 = some (cV eU) := by decide +kernel

end VaultServesItsMailbox

namespace CheckpointsMinutesAndTables

def s1 : State := ivs State.reset
def s2 : State := iv3 State.reset
def s3 : State := {sHost [] with clk.devSec := 60, vlt.lifecycle := 2}
def s4 : State := {State.reset with ts.idx := 4095, ts.swap := true}
def s5 : State := {State.reset with ts.bank1 := [(3, 64)]}
def w1 : IvKey := (⟨9, 5, 1000, some (2000), 0⟩ : IvKey)
def w2 : IvKey := (⟨9, 5, 1000, some (2000), 3⟩ : IvKey)
def w5 : Requester := Requester.vf 3

theorem test_met_1 : ivOf s1 9 = some w1 ∧ w1.recB = some 2000 ∧ s1.top.pfQuiet = false ∧ w1.fails < 3 := by decide +kernel
theorem test_met_2 : ivOf s2 9 = some w2 ∧ w2.recB = some 2000 ∧ s2.top.pfQuiet = false ∧ 3 ≤ w2.fails := by decide +kernel
theorem test_met_3 : 60 * (s3.vlt.minute + 1) ≤ s3.clk.devSec ∧ s3.top.pf = false ∧ deployed s3 = true ∧
    polderOn s3 ↑(5 : Fin 64) = true := by decide +kernel
theorem test_met_4 : w5 ≠ Requester.pf0 := by decide +kernel
theorem test_met_5 : sget none s1.rf.guard pgMTR = none ∧ s1.ts.swap = false ∧
    (let inact := fun s => if s.ts.active = true then s.ts.bank0 else s.ts.bank1; swf (fun x => 0) (inact s1) = true) ∧
    swf regReset s1.rf.regs = true ∧
    (let i := bits (rget s1 pgMTR 256) 11 2 * 4; 2000 < i ∨ i + 4 ≤ 2000) := by dsimp only; decide +kernel
theorem test_met_6 : sget none s1.rf.guard pgMTR = none ∧ s1.ts.swap = false ∧
    (let inact := fun s => if s.ts.active = true then s.ts.bank0 else s.ts.bank1; ∀ x ∈ inact s1, BitVec.toNat x.2 < 64 ∨ x.2 = 255) := by dsimp only; decide +kernel
theorem test_met_7 : sget none s4.rf.guard pgMTR = none ∧ s4.ts.idx = 4095 ∧ s4.ts.swap = true := by decide +kernel
theorem test_met_8 : sget none s5.rf.guard pgMTR = none ∧ s5.ts.swap = false ∧
    (let inact := fun s => if s.ts.active = true then s.ts.bank0 else s.ts.bank1; ¬∀ x ∈ inact s5, BitVec.toNat x.2 < 64 ∨ x.2 = 255) := by dsimp only; decide +kernel

end CheckpointsMinutesAndTables

namespace IvsAreUsedOnce

def s1 : State := ivs (sHost [])
def s2 : State := (takeIv 9 5 (ivs (sHost []))).2
def s3 : State := (takeIv 9 5 (takeIv 9 5 (ivs (sHost []))).2).2

theorem test_met_1 : takeIv 9 5 s1 = (IvAnswer.value 5, s2) ∧ takeIv 9 5 s2 = (IvAnswer.value 6, s3) ∧
    (ivOf s1 9).any (fun k => decide (k.c + 1 < 2 ^ 64)) = true := by decide +kernel

end IvsAreUsedOnce

/-- Pair 2 of function 1 is there, with entries posted and not signalled. -/
def sPairV12 : State := setPair 1 2 { present := true, sqN := 16, cqN := 16, ien := true, unsig := 1, cqTail := 3 } State.reset
def sS : State := en pgMEM {State.reset with itg.rep := [{ mem := 3, addr := 4, count := 5 }], itg.copies := [(1, 2)], lat.tiles := [(5, {reload := true})], lat.sched.reload := [true]}
namespace WordsRepeatsAndPasses

def s1 : State := rset sS pgMEM 0x114 10
def s2 : State := {rset sS pgMEM 0x114 10 with itg.ps := some (10, 0, 5)}
def s3 : State := rset sS pgMEM 0x10C 0
def w1 : MemPlace := MemPlace.queueTable 5
def w2 : MemPlace := MemPlace.engineContext 3 4
def w3 : MemPlace := MemPlace.tileData 5 6
def w4 : MemPlace := MemPlace.basin 7 8 9 true
def w5 : MemPlace := MemPlace.engineBuffer 0x3005 1
def w6 : Option MemPlace := (none : Option MemPlace)
def w7 : List Bool := ([] : List Bool)
def w8 : PassReport := ({read := 5, corrected := [1], bad := [(3, .vault)]} : PassReport)

theorem test_met_1 : (let mem := (placeWord State.reset w1).1; scrubOn State.reset mem = true) ∧
    (let mem := (placeWord State.reset w1).1; mem = 1 ∨ 5 ≤ mem ∧ mem ≠ 8) := by dsimp only; decide +kernel
theorem test_met_2 : (let mem := (placeWord State.reset w1).1; scrubOn State.reset mem = true) ∧
    w1 = MemPlace.queueTable 5 := by dsimp only; decide +kernel
theorem test_met_3 : (let mem := (placeWord State.reset w2).1; scrubOn State.reset mem = true) ∧
    w2 = MemPlace.engineContext 3 4 := by dsimp only; decide +kernel
theorem test_met_4 : (let mem := (placeWord State.reset w3).1; scrubOn State.reset mem = true) ∧
    w3 = MemPlace.tileData 5 6 := by dsimp only; decide +kernel
theorem test_met_5 : (let mem := (placeWord State.reset w4).1; scrubOn State.reset mem = true) ∧
    w4 = MemPlace.basin 7 8 9 true ∧ ↑(7 : Fin (8192 : Nat)) < (8160 : Nat) := by dsimp only; decide +kernel
theorem test_met_15 : readOutcome (scrubMove w1 State.reset) w1 (.bits 0) = .clean ∧ readOutcome (scrubMove w1 State.reset) w1 (.bits 1) = .corrected 0 ∧
    readOutcome (scrubMove w2 State.reset) w2 (.bits 2) = .uncorrectable ∧ (placeWord State.reset w1).1 ≠ 8 ∧
    readOutcome (scrubMove w4 State.reset) w4 (.symbols [(5, 1), (30, 2)] []) = .uncorrectable := by decide +kernel
/-- The example after R543: with lane 13 marked, lane 5 is corrected, lanes 5 and 30 are not. -/
theorem test_marked_lane : chunkDecode (some 13) [(13, 0x5A), (5, 0x04)] = .corrected 5 ∧
    chunkDecode (some 13) [(13, 0x5A), (5, 0x04), (30, 0x80)] = .uncorrectable ∧ chunkDecode none [(13, 0x5A), (5, 0x04)] = .uncorrectable := by
  decide +kernel
theorem test_met_6 : (List.find? (fun e => decide (e.mem = 3 ∧ e.addr = 3)) State.reset.itg.rep = none) ∧
    State.reset.itg.rep.length < 64 ∧ 1 < rfld State.reset pgMEM 268 7 0 := by decide +kernel
theorem test_met_7 : (1, 2) ∈ sS.itg.copies := by decide +kernel
theorem test_met_8 : (tileOf sS ↑(5 : Fin 320)).reload = true ∧ (sS.lat.sched.phase < 3 ∨ 5 < sS.lat.sched.phase) ∧
    detourPending sS = false := by decide +kernel
theorem test_met_9 : sS.lat.sched.reload = true :: w7 := by decide +kernel
theorem test_met_10 : sget none State.reset.rf.guard pgMEM = none ∧ State.reset.itg.ps = none ∧
    (let mem := rfld State.reset pgMEM 276 3 0; mem < 9 ∨ 11 < mem) := by dsimp only; decide +kernel
theorem test_met_11 : sget none s1.rf.guard pgMEM = none ∧ s1.itg.ps = none ∧ (let mem := rfld s1 pgMEM 276 3 0; 9 ≤ mem) ∧
    (let mem := rfld s1 pgMEM 276 3 0; mem ≤ 11) := by dsimp only; decide +kernel
theorem test_met_12 : sget none s2.rf.guard pgMEM = none ∧ s2.itg.ps = some (10, 0, 5) := by decide +kernel
theorem test_met_13 : s2.itg.ps = some (10, 0, 5) ∧ w8.corrected.filter (fun w => decide (0 ≤ w) && decide (w < 0 + min w8.read 5)) ≠ [] ∧
    w8.bad.filter (fun x => decide (0 ≤ x.1) && decide (x.1 < 0 + min w8.read 5)) ≠ [] := by decide +kernel
theorem test_met_14 : swf regReset s2.rf.regs = true ∧
    ({ w8 with bad := [] } : PassReport).bad.filter (fun x => decide (0 ≤ x.1) && decide (x.1 < 0 + min w8.read 5)) = [] := by decide +kernel
theorem test_met_16 : let s : State := setTile 5 { tileOf sS 5 with due := true } sS
    (tileOf s 5).reload = true ∧ (tileOf s 5).due = true ∧ (tileOf sS 5).due = false ∧ s.lat.sched.phase < 3 ∧ detourPending s = false := by
  decide +kernel

end WordsRepeatsAndPasses

/-- Pair 2 of function 1 is there, with entries posted and not signalled. -/
def sPairV13 : State := setPair 1 2 { present := true, sqN := 16, cqN := 16, ien := true, unsig := 1, cqTail := 3 } State.reset
namespace FencesAreSetAndReleased

/-- Compressor 5 fenced; the same under its test; an ADC channel's test at its enable; a polder, a tile and a lane group fenced. -/
def s2 : State := markFence 0x3005 1 State.reset
def s3 : State := { s2 with itg.unf := [0x3005, 0x4001] }
def s4 : State := { State.reset with itg.tests := [0x7005] }
def s5 : State := markFence 0x1005 6 State.reset
def s6 : State := setLg 2 { heldFence := true } (markFence 0x8002 6 State.reset)
def w1 : Requester := Requester.core 2

theorem test_met_1 : 256 % 4 = 0 ∧ hasParity State.reset pgTOP 256 = true ∧
    rbit State.reset pgTOP 24 0 = false := by decide +kernel
theorem test_met_2 : 256 % 4 = 0 ∧ hasParity State.reset (pgRIQ ↑(5 : Fin 64)) 256 = true := by decide +kernel
/-- A unit of every kind that FENCE fences, and one of each that it does not. -/
theorem test_met_3 : sget none State.reset.rf.guard pgFEN = none ∧ w1 ≠ Requester.pf0 ∧
    (∀ u ∈ [0x1005, 0x3005, 0x4005, 0x5005, 0x6005, 0x7005, 0x8002, 0x2005, 0x9001, 0xA001, 0xB001, 0xC000],
      unitExists State.reset (bits (BitVec.ofNat 32 u) 15 0) = true) ∧ unitExists State.reset (bits (0xFFFF : Word) 15 0) = false ∧
    (tileOf State.reset (0x6005 % 4096)).reason = 0 := by decide +kernel
theorem test_met_6 : sget none State.reset.rf.guard pgFEN = none ∧ (12293 : Word) ≠ ~~~(12293 : Word) := by decide +kernel
theorem test_met_7 : sget none s2.rf.guard pgFEN = none ∧ unitExists s2 0x3005 = true ∧ isFenced s2 0x3005 = true ∧
    BitVec.ofNat 16 0x3005 ∉ s2.itg.unf ∧ 0x3005 ∉ s2.itg.tests ∧ isFenced s2 0x3006 = false := by decide +kernel
theorem test_met_7_running : sget none s3.rf.guard pgFEN = none ∧ unitExists s3 0x3005 = true ∧ BitVec.ofNat 16 0x3005 ∈ s3.itg.unf := by
  decide +kernel
theorem test_met_7_polder : sget none s5.rf.guard pgFEN = none ∧ unitExists s5 0x1005 = true ∧ isFenced s5 0x1005 = true ∧
    swf (fun _ => 0) s5.itg.fences = true ∧ isFenced s5 0x1006 = false := by decide +kernel
theorem test_met_7_group : sget none s6.rf.guard pgFEN = none ∧ unitExists s6 0x8002 = true ∧ isFenced s6 0x8002 = true ∧
    (lgOf s6 2).heldFence = true ∧ swf (fun _ => 0) s6.itg.fences = true ∧ (lgOf s5 2).heldFence = false ∧
    isFenced (markFence 0x8001 6 s5) 0x8001 = true := by decide +kernel
theorem test_met_8 : 12293 ∈ s3.itg.unf ∧ isFenced s3 (BitVec.toNat (12293 : BitVec 16)) = true ∧
    swf (fun x => 0) s3.itg.fences = true ∧ 256 ≠ BitVec.toNat (12293 : BitVec 16) := by decide +kernel
theorem test_met_8_enable : 0x7005 ∉ s4.itg.unf ∧ BitVec.toNat (0x7005 : BitVec 16) ∈ s4.itg.tests ∧ 0x3005 ∉ s4.itg.unf ∧
    BitVec.toNat (0x3005 : BitVec 16) ∉ s4.itg.tests := by decide +kernel
theorem test_met_9 : testPasses 0x3005 {} = true ∧ testPasses 0x3005 { lane0 := false } = false ∧ testPasses 0x7005 { offset := -33 } = false ∧
    testPasses 0x7005 { offset := -32, gain := 1100 } = true ∧ testPasses 0x5001 { lane1 := false } = false ∧
    BitVec.toNat (0x7005 : BitVec 16) / 4096 = 7 := by decide +kernel

end FencesAreSetAndReleased

namespace FatalErrorsAndTheDump

def s1 : State := {State.reset with itg.fatal := some (5, 0xFFFF)}
def s2 : State := {State.reset with itg.dumpSt := 2}

theorem test_met_1 : sget none State.reset.rf.guard pgFEN = none ∧ bit (1 : Word) 0 = true ∧ State.reset.itg.fatal = none ∧
    State.reset.itg.dumpSt = 0 := by decide +kernel
theorem test_met_2 : sget none State.reset.rf.guard pgFEN = none ∧ bit (0 : Word) 0 = false := by decide +kernel
theorem test_met_3 : s1.itg.fatal ≠ none ∧ s1.itg.dumpSt = 0 ∧ sget none s1.rf.guard pgMEM = none := by decide +kernel
theorem test_met_4 : s1.itg.fatal ≠ none ∧ s1.itg.dumpSt = 0 ∧ s1.itg.dumpGo = false := by decide +kernel
theorem test_met_5 : sget none s2.rf.guard pgMEM = none ∧ (s2.itg.dumpSt = 2 ∨ s2.itg.dumpSt = 3) := by decide +kernel

end FatalErrorsAndTheDump

namespace PowerAndBoot

def s1 : State := {State.reset with vlt.lcNext := 2, mem.flash := [(3, 4)], trk.pass := some { kind := .write, part := 3, wrap := 0, half := false, nextP := 0 }}
def s2 : State := {State.reset with top.pf := true, vlt.lcDone := true}
def w1 : BootEnv := {benv with romOk := false}
def w2 : BootEnv := {benv with flashOk := false}
/-- A directory with no image behind it. -/
def sBare : State := { sCold with mem.flash := cells 0 dirLit }

theorem test_met_1 : sCold.pins.supplies = true ∧ sCold.pins.sysrstN = false ∧ benv.romOk = true ∧ benv.flashOk = true ∧
    pickDir (dirCopy sCold false) (dirCopy sCold true) = some (false, dirCopy sCold false) := by decide +kernel
theorem test_met_1_slot : (pickSlot (takeDir false (dirCopy sCold false) sCold)).isSome = true := by decide +kernel
theorem test_met_2 : State.reset.pins.supplies = true ∧ State.reset.pins.sysrstN = false ∧
    w1.romOk = false := by decide +kernel
theorem test_met_3 : State.reset.pins.supplies = true ∧ State.reset.pins.sysrstN = false ∧ w2.romOk = true ∧
    w2.flashOk = false := by decide +kernel
theorem test_met_4 : sBare.pins.supplies = true ∧ sBare.pins.sysrstN = false ∧
    pickDir (dirCopy sBare false) (dirCopy sBare true) = some (false, dirCopy sBare false) ∧
    pickSlot (takeDir false (dirCopy sBare false) sBare) = none := by decide +kernel
theorem test_met_5 : State.reset.top.pf = false ∧ inDataSet State.reset = false := by decide +kernel
theorem test_met_6 : sget none State.reset.rf.guard pgTOP = none ∧ State.reset.vlt.lcDone = false := by decide +kernel
theorem test_met_7 : s1.top.pf = false ∧ inDataSet { s1 with hwl.sending := true } = true := by decide +kernel
theorem test_met_8 : s2.top.pf = true := by decide +kernel
theorem test_met_9 : sget none s2.rf.guard pgTOP = none ∧ s2.vlt.lcDone = true := by decide +kernel
theorem test_met_10 : State.reset.pins.supplies = true ∧ benv.romOk = true ∧
    pickDir (dirCopy State.reset false) (dirCopy State.reset true) = none := by decide +kernel

end PowerAndBoot

namespace CoresAndFlash

def s1 : State := rset (sHost [{cmd 4 (ent 0x81) with started := true}, {cmd 5 (ent 1) with started := false}]) pgTOP 0x100 0x10005
def s2 : State := {rset (sHost [{cmd 4 (ent 0x81) with started := true}, {cmd 5 (ent 1) with started := false}]) pgTOP 0x100 0x10005 with clk.mtime := 1000000}
def s3 : State := rset State.reset pgTOP 0x110 0x20010
def s4 : State := rset (rset State.reset pgTOP 0x110 0x20010) pgTOP 0x118 64
def s5 : State := {State.reset with top.flOp := some (1, 5, 6, 7)}
def s6 : State := {State.reset with top.flOp := some (2, 5, 6, 7)}
def s7 : State := {State.reset with top.flOp := some (3, 0x20000, 6, 65536), mem.flash := [(3, 5), (0x20004, 6), (0x30000, 7)]}
def sFl : State := flashed s1
def w3 : Nat × Instr := (1, Instr.flashRead)
def w4 : Nat × Instr := (2, Instr.flashProgram)
def w5 : Nat × Instr := (3, Instr.flashErase)

theorem test_met_1 : wdEn s2 = true ∧ wdTimeout s2 ≤ wdMs s2 := by decide +kernel
theorem test_met_2 : s5.top.flOp = some (1, 5, 6, 7) := by decide +kernel
theorem test_met_3 : s6.top.flOp = some (2, 5, 6, 7) := by decide +kernel
theorem test_met_4 : s7.top.flOp = some (3, 131072, 6, 65536) ∧ Memory.wf s7.mem = true := by decide +kernel
theorem test_met_5 : sget none sFl.rf.guard pgTOP = none ∧ sFl.top.pf = false ∧ (slotFw sFl false).isSome := by decide +kernel
theorem test_met_6 : sget none s1.rf.guard pgTOP = none ∧ s1.top.pf = false ∧ slotFw s1 false = none := by decide +kernel
theorem test_met_7 : (sget { } s1.top.harts ↑(2 : Fin 4)).mtimecmp.toNat ≤ s1.clk.mtime.toNat := by decide +kernel
theorem test_met_8 : swf (fun x => { }) s1.top.harts = true ∧ (1 : Nat) ≠ ↑(2 : Fin (4 : Nat)) := by decide +kernel

theorem test_met_9 : let s := rset (rset State.reset pgTOP 0x110 0x200000) pgTOP 0x118 64
    sget none s.rf.guard pgTOP = none ∧ s.top.flOp = none ∧ rfld s pgTOP 0x118 31 0 ≤ 1048576 ∧
    rfld s pgTOP 0x114 31 0 + rfld s pgTOP 0x118 31 0 ≤ 33554432 ∧ flProtected s 0x200000 64 = false ∧
    flProtected s (0x200000 / 65536 * 65536) 65536 = false := by decide +kernel
theorem test_met_10 : flProtected s4 0x10010 64 = true ∧ flProtected s4 (0x10010 / 65536 * 65536) 65536 = true := by decide +kernel

end CoresAndFlash

/-- Pair 2 of function 1 is there, with entries posted and not signalled. -/
def sPairV15 : State := setPair 1 2 { present := true, sqN := 16, cqN := 16, ien := true, unsig := 1, cqTail := 3 } State.reset
def pp : Pass := {kind := .write, part := 3, wrap := 0, half := false, nextP := 0}
namespace LinkProbeAndJtag

def s1 : State := en pgWLK (rset {State.reset with hwl.sending := true, trk.pass := some { kind := .write, part := 3, wrap := 0, half := false, nextP := 0 }} pgWLK 0x140 0x10000000)
def s2 : State := {State.reset with prb.unlocked := true}
def w1 : List Byte := List.replicate 32 (5 : Byte)
def w2 : Pass := { kind := .write, part := 3, wrap := 0, half := false, nextP := 0 }
def w3 : Instr × Jtag := (Instr.bypass, Jtag.bypass)
def w4 : Instr × Jtag := (Instr.extest, Jtag.extest)
def s1a : State := en pgWLK (rset {State.reset with hwl.sending := true, trk.pass := some pp} pgWLK 0x140 0x10000000)
def w1a : List Byte := List.replicate 32 (5 : Byte)

theorem test_met_1 : rbit s1 pgWLK 320 28 = true ∧ s1.trk.pass = some w2 ∧ w2.kind = PassKind.write ∧
    w2.endCause = none := by decide +kernel
theorem test_met_2 : pageEn s1 pgWLK = true := by decide +kernel
theorem test_met_3 : s1.hwl.sending = true ∧ ↑(5 : Fin 16) < 2 * laneGroups s1.variant := by decide +kernel
theorem test_met_4 : sget none s1.rf.guard pgPRB = none ∧ (7 : Word) ≠ ~~~(7 : Word) := by decide +kernel
theorem test_met_5 : sget none s1.rf.guard pgPRB = none ∧ ~~~(7 : Word) = ~~~(7 : Word) ∧
    (let whole := ∀ n < 23, n ∈ s1.prb.words; ¬whole ∨ s1.prb.unlocked = true ∨ s1.prb.lockedOut = true) := by dsimp only; decide +kernel
def challengeSig : List Byte := sigOf 2358374592728229792224071407863380297312433494486956343779302242001823095914210040693337579622294753232572915947180
/-- Every word of the drive maker's signature over the challenge but the last has been written. -/
def sSigned : State :=
  let s := { unl 3 with vlt.lifecycle := 1, vlt.makerKey := mkKey }
  (List.range 23).foldl (fun u n => rset u pgPRB (0xE00 + 4 * n) (BitVec.ofNat 32 (leField challengeSig (4 * n) 4))) s
def lastWord : Word := BitVec.ofNat 32 (leField challengeSig 92 4)
theorem test_met_6 : sget none sSigned.rf.guard pgPRB = none ∧ (∀ n < 23, n ∈ sSigned.prb.words) ∧ sSigned.prb.unlocked = false ∧
    sSigned.prb.lockedOut = false ∧ responseOk (rset sSigned pgPRB 0xE5C lastWord) = true := by decide +kernel
theorem test_met_7 : (∀ n < 23, n ∈ sSigned.prb.words) ∧ responseOk (rset sSigned pgPRB 0xE5C 7) = false := by decide +kernel
theorem test_met_8 : rbit s1a pgWLK 320 28 = true ∧ s1a.trk.pass = some pp ∧ pp.kind = PassKind.write ∧
    pp.endCause = none := by decide +kernel
theorem test_met_9 : pageEn s1a pgWLK = true := by decide +kernel
theorem test_met_10 : s1a.hwl.sending = true ∧ ↑(5 : Fin 16) < 2 * laneGroups s1a.variant := by decide +kernel
theorem test_met_11 : sget none s1a.rf.guard pgPRB = none ∧ (7 : Word) ≠ ~~~(7 : Word) := by decide +kernel

end LinkProbeAndJtag

namespace EnablesSnapshotsAndClears

def s1 : State := rset State.reset pgFEN 4 1
def s2 : State := markFence 0x3005 1 State.reset
def s3 : State := {State.reset with rf.cnt := [(rkey pgFEN 0xA00, 5), (rkey pgMEM 0xA00, 6)]}
def w1 : List Byte := List.replicate 32 (5 : Byte)

theorem test_met_1 : pageBlock State.reset.variant pgFEN = some (Block.fen, 0) ∧
    sget none State.reset.rf.guard pgFEN = none ∧ swf regReset State.reset.rf.regs = true ∧ Block.fen ≠ Block.qmg ∧
    pageEn State.reset pgFEN = false ∧ enRule State.reset pgFEN Block.fen 0 = none ∧
    (Block.fen = Block.mce → State.reset.mot.gov.locked = false) := by decide +kernel
theorem test_met_2 : pageBlock State.reset.variant pgFEN = some (Block.fen, 0) ∧
    sget none State.reset.rf.guard pgFEN = none ∧ swf regReset State.reset.rf.regs = true ∧
    swf (fun x => 0) State.reset.rf.hold = true := by decide +kernel
theorem test_met_3 : pageBlock State.reset.variant pgFEN = some (Block.fen, 0) ∧
    sget none State.reset.rf.guard pgFEN = none ∧ swf regReset State.reset.rf.regs = true ∧ Block.fen ≠ Block.mtr ∧
    swf (fun x => 0) State.reset.rf.cnt = true ∧ pgMEM ≠ pgFEN ∧ pgFEN < 4096 := by decide +kernel
theorem test_met_4 : pageBlock State.reset.variant pgPRB = some (Block.prb, 0) ∧
    sget none State.reset.rf.guard pgPRB = none ∧ swf regReset State.reset.rf.regs = true ∧ Block.prb ≠ Block.qmg ∧
    Block.prb = Block.prb := by decide +kernel
theorem test_met_5 : pageBlock s2.variant (pgCMP 5) = some (Block.cmp, 5) ∧ sget none s2.rf.guard (pgCMP 5) = none ∧
    swf regReset s2.rf.regs = true ∧ Block.cmp ≠ Block.qmg ∧ pageEn s2 (pgCMP 5) = false ∧
    enRule s2 (pgCMP 5) Block.cmp 5 = some 255 := by decide +kernel

end EnablesSnapshotsAndClears

namespace EventsAreAcknowledgedBySequence

def s1 : State := raise pgFEN 3 State.reset
def s2 : State := {State.reset with rf.ev := [(pgFEN, {pend := 0x28, seq := 40000, stamps := [(3, 20000), (5, 7000)]})]}

theorem test_met_1 : pgFEN < 16 ∧ (pageBlock s1.variant pgFEN).isSome = true ∧ sget none s1.rf.guard pgFEN = none ∧
    swf (fun x => { }) s1.rf.ev = true ∧ swf (fun x => 0) (evOf s1 pgFEN).stamps = true ∧
    (let S := BitVec.setWidth 16 ((2621440000 : Word) >>> 16); ((evOf s1 pgFEN).seq - S).toNat < 32768) ∧
    5 ≠ pgFEN := by dsimp only; decide +kernel
theorem test_met_2 : pgFEN < 16 ∧ (pageBlock s1.variant pgFEN).isSome = true ∧ sget none s1.rf.guard pgFEN = none ∧
    swf (fun x => { }) s1.rf.ev = true ∧ swf (fun x => 0) (evOf s1 pgFEN).stamps = true ∧
    (let S := BitVec.setWidth 16 ((2147483648 : Word) >>> 16); 32768 ≤ ((evOf s1 pgFEN).seq - S).toNat) := by dsimp only; decide +kernel
def sMask : State := rset (rset State.reset pgFEN 0x014 8) pgTOP 0x108 8
theorem test_met_3 : pageBlock sMask.variant pgFEN = some (.fen, 0) ∧ Block.fen ≠ .qmg ∧ rbit sMask pgFEN 0x014 3 = true ∧
    irqCore sMask .fen = 2 ∧ coreIrq (raise pgFEN 3 sMask) 2 = true ∧ coreIrq (raise pgFEN 3 sMask) 0 = false := by decide +kernel

end EventsAreAcknowledgedBySequence

namespace RegisterWritesAndFaults

def s1 : State := en pgMEM State.reset
def s2 : State := lg 2 {st := .lost} State.reset
def w1 : RegAccess := ra (4096 * pgMEM + 0x104) 4
def w2 : RegAccess := ra (4096 * pgMEM + 0x104) 2
def w3 : RegAccess := ra (4096 * pgMEM + 0x110) 4
def w4 : RegAccess := ra (4096 * pgMEM + 0x0F0) 4
def w5 : RegRow := rRW 0x104 0xFFFF 3600
def w6 : RegRow := (rowAt .mem 0x110).getD (rRW 0 0 0)
def w7 : Requester := Requester.core 2

theorem test_met_1 : 18 ≠ 17 ∧ 256 % 4 = 0 ∧ (ra 73984 4).offset = 4096 * 18 + 256 ∧ (ra 73984 4).more = [] ∧
    sget none State.reset.rf.guard 18 = none ∧ pageBlock State.reset.variant 18 = none := by decide +kernel
theorem test_met_2 : pgMEM < 1024 ∧ pgMEM ≠ 17 ∧ 260 % 4 = 0 ∧ w1.offset = 4096 * pgMEM + 260 ∧ w1.more = [] ∧
    sget none State.reset.rf.guard pgMEM = none ∧ pageBlock State.reset.variant pgMEM = some (Block.mem, 0) ∧
    ↑w1.bytes = (4 : Nat) ∧ w1.aligned = true ∧ decodeOff Block.mem 260 = some 260 ∧ rowAt Block.mem 260 = some w5 ∧
    w5.own = false ∧ w5.w1 = 0 ∧ Block.mem ∉ [Block.top, Block.mtr, Block.wlk, Block.rch, Block.net] ∧
    swf regReset State.reset.rf.regs = true := by decide +kernel
theorem test_met_3 : pgMEM < 1024 ∧ pgMEM ≠ 17 ∧ 260 % 4 = 0 ∧ w2.offset = 4096 * pgMEM + 260 ∧ w2.more = [] ∧
    sget none State.reset.rf.guard pgMEM = none ∧ pageBlock State.reset.variant pgMEM = some (Block.mem, 0) ∧
    ↑w2.bytes < (4 : Nat) := by decide +kernel
theorem test_met_4 : mayTimeOut State.reset ↑(2 : Fin 8) = false := by decide +kernel
theorem test_met_5 : mayTimeOut s2 ↑(2 : Fin 8) = true ∧ Requester.pf0 = Requester.pf0 := by decide +kernel
/-- A request of 12 bytes writes the words at 0x110, 0x114 and 0x118 (R602). -/
def long : RegAccess := { offset := 4096 * pgMEM + 0x110, bytes := 8, data := 0, more := [5] }
theorem test_long_request : rget (registerWrite .pf0 long State.reset) pgMEM 0x118 = 5 ∧ long.ok .ac = true := by decide +kernel

end RegisterWritesAndFaults

/-- The ball totals of R637, and the examples of R632. -/
def isSignal (n : Net) : Bool := match n with | .signal _ _ => true | _ => false
theorem test_ball_totals : [ballTotal isSignal, ballTotal (· = .vss), ballTotal (· = .agnd), ballTotal (· = .vdd), ballTotal (· = .vddAo),
    ballTotal (· = .vddio), ballTotal (· = .vdda18), ballTotal (· = .vddSd), ballTotal (· = .vddhSd), ballTotal (· = .vddHbm),
    ballTotal (· = .vddqHbm), ballTotal (· = .vppHbm), ballTotal (· = .vdda)] =
    [730, 1635, 179, 378, 8, 8, 10, 34, 17, 84, 98, 38, 145] := by decide +kernel
theorem test_ball_examples : [ball 12 40, ball 13 40, ball 6 21, ball 7 21] =
    [.signal "HRX_P" 255, .signal "HRX_N" 255, .signal "HCK_P" 3, .signal "HCK_N" 3] := by decide +kernel

/-- The lower edges of R55's table, a tape of 12.65 mm, and a clock stripe directly above its lane group's last element (R57). -/
theorem test_across : (List.range 12).map acrossEdge =
    [0, 548000, 734000, 3390000, 3576000, 6232000, 6418000, 9074000, 9260000, 11916000, 12102000, 12650000] := by decide +kernel
theorem test_stripe_above : (List.range 8).all (fun k => stripeEdge k = elementEdge (32 * k + 31) + 10000) = true := by decide +kernel

/-! ### The statements over every step -/

/-- The state a command leads to. -/
def after (i : Instr) (s : State) : Option State := match exec i s with | .next t => some t | .fault _ => none | .refused _ => none
/-- One step of the block. -/
def stepped (s : State) : Option State := match step s with | .next t => some t | .fault _ => none | .refused _ => none

theorem test_met_front : { State.reset with pending := [.bypass, .idcode] }.pending = .bypass :: [.idcode] := by decide +kernel
theorem test_met_empty : State.reset.pending = [] := by decide +kernel
theorem test_met_step : ((stepped { State.reset with pending := [.bypass, .idcode] }).map (·.pending)) = some [.idcode] := by
  decide +kernel
theorem test_met_wf_step : Memory.wf State.reset.mem = true ∧ (stepped State.reset).isSome = true := by decide +kernel
theorem test_met_frames : writesMemory .shock = false ∧ movesProbe .shock = false ∧ (after .shock State.reset).isSome = true := by
  decide +kernel
theorem test_core : Sys2Proof.core.reset.pending = [] := rfl

/-! ### WellFormed refuses an ill-formed term of every check -/

theorem test_wf_marks_rising : wellFormed .hc (.space 1 [5, 5]) = false ∧ wellFormed .hc (.space 1 [5, 6]) = true := by decide +kernel
theorem test_wf_marks_range : wellFormed .hc (.space 1 [2 ^ 48]) = false := by decide +kernel
theorem test_wf_label (bs : List Byte) (h : bs.length = 5806081) : wellFormed .hc (.load 1 { label := some (1240, bs) }) = false := by
  simp [wellFormed, LoadEnv.ok, h]
theorem test_wf_index (bs : List Byte) (h : bs.length = 5805569) :
    wellFormed .hc (.load 1 { label := none, copyA0 := .copy bs true true 0 }) = false ∧
    wellFormed .hc (.load 1 { label := none, copyB := .copy bs true true 0 }) = false := by
  simp [wellFormed, LoadEnv.ok, CopyRead.ok, h]
theorem test_wf_load : wellFormed .hc (.load 1 { label := none }) = true := by decide +kernel
theorem test_wf_image (bs : List Byte) (h : bs.length = 2 ^ 32) : wellFormed .hc (.fwDownload 1 bs) = false := by
  simp [wellFormed, h]
theorem test_wf_boot : wellFormed .hc (.sysrstNRise { benv with challenge := List.replicate 32 0 }) = true ∧
    wellFormed .hc (.sysrstNRise benv) = false := by decide +kernel

/-! ### Parts of the image checks (R283, R284, R288, R292, R293, R297) and of the directory, token and blob (R496, R571, R579) -/

def lap : List RouteEnt := [{ start := 0, run := 8, out := 1, inp := 4 }, { start := 7, run := 1, out := 1, inp := 3 }]
def withRoute (e : RouteEnt) : SchedImage :=
  { gimg with sects := [{ offset := 7872, length := 24, kind := 2, crcOk := true, route := { owner0 := 0, owner1 := 0, owner2 := 0, owner3 := 0, owner4 := 0, nentry := 1, ents := [e] } }] }
theorem test_image_bounds : imgBounds gimg = true ∧ imgBounds { gimg with detourOff := 5441 } = false ∧
    imgBounds { gimg with secTabOff := 5312 } = false ∧ imgBounds { gimg with sigOff := 7935 } = false := by decide +kernel
theorem test_image_budgets : imgBudgets { gimg with lenMaxFrame := 8403 } = false ∧ imgBudgets { gimg with lenMaxFrame := 8401 } = false ∧
    imgBudgets { gimg with delay4 := 5001 } = false ∧ imgBudgets { gimg with delay4 := 5000 } = true := by decide +kernel
theorem test_image_routes : routeSorted lap = false ∧ imgRoutes (withRoute { start := 0, run := 0, out := 1, inp := 4 }) = false ∧
    imgRoutes (withRoute { start := 0, run := 8, out := 4, inp := 4 }) = false ∧
    imgRoutes (withRoute { start := 8395, run := 8, out := 1, inp := 4 }) = false := by decide +kernel
theorem test_image_owners : imgOwners (withRoute { start := 0, run := 8, out := 1, inp := 3 }) = false ∧
    imgOwners (withRoute { start := 0, run := 8, out := 4, inp := 3, mbox := true }) = true := by decide +kernel
theorem test_image_detours : imgDetours { gimg with detours := [] } = false ∧
    imgDetours { gimg with detours := [{ failed := 0, spare := 1 }] } = false := by decide +kernel
theorem test_image_codes : imageCheck sIm { gimg with magic := 0 } = some 2 ∧ imageCheck sIm { gimg with variant := 0 } = some 3 ∧
    imageCheck { sIm with vlt.makerKey := [] } gimg = some 5 ∧ imageCheck sIm { gimg with sigOk := false } = some 6 := by decide +kernel
theorem test_directory_bytes : dirBytes dir2 4 false = dirLit := by decide +kernel
theorem test_directory : readDir (dirBytes dir2 4 true) = { crcOk := true, gen := 4, committed := 1, ents := dir2 } ∧
    (readDir (dirBytes dir2 4 true ++ [0])).crcOk = true ∧ (readDir (0x44 :: (dirBytes dir2 4 true).tail)).crcOk = false := by decide +kernel
theorem test_directory_newer : pickDir (readDir (dirBytes dir2 4 true)) (readDir (dirBytes dir2 5 true)) =
    some (true, readDir (dirBytes dir2 5 true)) := by decide +kernel
theorem test_token : (tokenBytes State.reset 1).length = 64 ∧ (tokenBytes State.reset 1).take 5 = [0x43, 0x4B, 0x4C, 0x54, 1] := by
  decide +kernel
theorem test_blob : (let b := readBlob (blobBytes 77 9 []); blobForm b = true ∧ blobForm { b with flags := 2 } = false ∧
    blobForm { b with kwalg := 3 } = false ∧ (b.polder, b.part, b.quoteId, b.keyFp) = (5, 3, 77, 9)) := by
  decide +kernel

theorem test_wf_slot_words : wellFormed .hc (.serviceSlot none 64) = false ∧ wellFormed .hc (.serviceSlot none 63) = true := by
  decide +kernel
theorem test_wf_fetch_lists (l : List SglEntry) (w : List Word) (hl : l.length = 4097) (hw : w.length = 65537) :
    wellFormed .hc (.serviceSlot (some { sqe := {}, sgl := l }) 0) = false ∧
    wellFormed .hc (.commandCapsule 1 { cap80 with body := { sqe := {}, lens := w } }) = false := by
  simp [wellFormed, Fetch.ok, hl, hw]
theorem test_wf_read_data (bs : List Byte) (h : bs.length = 4097) : wellFormed .hc (.pcieCompletion 1 (.data bs)) = false ∧
    wellFormed .hc (.rdmaReadResponse 1 0 bs) = false := by simp [wellFormed, h]
theorem test_wf_requester : wellFormed .hc (.qpCreate (.vf 0) 1) = false ∧ wellFormed .hc (.qpDestroy (.vf 0) 1) = false ∧
    wellFormed .hc (.qpFree (.vf 0) 1) = false ∧ wellFormed .hc (.windowWrite (.vf 0) 1 0 0 0) = false ∧
    wellFormed .hc (.tsdataWrite (.vf 0) 0) = false ∧ wellFormed .hc (.tsSwap (.vf 0)) = false ∧
    wellFormed .hc (.fence (.vf 0) 0) = false ∧ wellFormed .hc (.unfence (.vf 0) 0 0) = false ∧
    wellFormed .hc (.registerWrite (.vf 0) (ra 0x12100 4)) = false ∧ wellFormed .hc (.fence (.vf 1) 0) = true := by decide +kernel
theorem test_wf_descriptor : wellFormed .hc (.dmaGo 1 [0] none) = false ∧ wellFormed .hc (.descriptorDone 1 (List.replicate 31 0)) = false ∧
    wellFormed .hc (.dmaGo 1 (List.replicate 32 0) none) = true := by decide +kernel
theorem test_wf_owner : wellFormed .hc (.bufferAllocate [⟨1, 1, 64, false⟩]) = false ∧
    wellFormed .hc (.bufferAllocate [⟨1, 2 ^ 32, 63, false⟩]) = false ∧ wellFormed .hc (.bufferAllocate [⟨1, 1, 0xFF, false⟩]) = true := by decide +kernel
theorem test_wf_band : wellFormed .hc (.wrapPlanPost { pe with band := 1 }) = false ∧
    wellFormed .hc (.wrapPlanPost { pe with band := 1, wrap := 100 }) = true := by decide +kernel
theorem test_wf_groups : wellFormed .hc (.slotTick 4 {}) = false ∧ wellFormed .ac (.slotTick 4 {}) = true ∧
    wellFormed .hc (.slotTick 3 { chans := [{ chan := 128 }] }) = false ∧
    wellFormed .hc (.phaseLock 4 0) = false ∧ wellFormed .hc (.acqTimeout 4) = false ∧ wellFormed .hc (.holdEnter 4) = false ∧
    wellFormed .hc (.holdExpire 4) = false ∧ wellFormed .hc (.skewMeasurement 4 0 0) = false ∧
    wellFormed .hc (.forceSrcWrite 4 0) = false ∧ wellFormed .hc (.xdomTimeout .pf0 4 true) = false ∧
    wellFormed .hc (.clockPositionWord 4 0 0) = false ∧ wellFormed .hc (.time 8 0 0) = false ∧ wellFormed .ac (.time 8 0 0) = true := by
  decide +kernel
theorem test_wf_channels : wellFormed .hc (.syncLost 128) = false ∧ wellFormed .hc (.wskewTrim 128) = false ∧
    wellFormed .hc (.lmsDeltaStep 128 .gain) = false ∧ wellFormed .hc (.syncLost 127) = true ∧ wellFormed .ac (.syncLost 255) = true := by
  decide +kernel
theorem test_wf_samples (vs : List Int) (h : vs.length = 524289) :
    wellFormed .ac (.slotTick 3 { chans := [{ chan := 1, volts := vs }] }) = false := by
  simp [wellFormed, TickObs.ok, h]
theorem test_wf_aux : wellFormed .ac (.t25Tick []) = false ∧ wellFormed .ac (.t25Tick (List.replicate 8 0)) = true := by
  decide +kernel
theorem test_wf_trim : wellFormed .ac (.trimWrite 1 7 0) = false ∧ wellFormed .ac (.trimWrite 1 15 0) = false ∧
    wellFormed .ac (.trimWrite 1 8 0) = true := by decide +kernel
theorem test_wf_causes : wellFormed .ac (.crestBreach 0) = false ∧ wellFormed .ac (.crestBreach 1) = true := by decide +kernel
theorem test_wf_quote : wellFormed .ac (.reqAttest { quoteId := 0, priv := 1, sig := List.replicate 95 0, chain := [] }) = false ∧
    wellFormed .ac (.reqAttest { quoteId := 0, priv := 0, sig := List.replicate 96 0, chain := [] }) = false ∧
    wellFormed .ac (.reqAttest { quoteId := 0, priv := 1, sig := List.replicate 96 0, chain := [] }) = true := by
  decide +kernel

theorem test_wf_chunk : wellFormed .ac (.scrubRead (.basin 1 2 3 false) (.symbols [(5, 0)] [])) = false ∧
    wellFormed .ac (.scrubRead (.basin 1 2 3 false) (.symbols [(5, 1), (5, 2)] [])) = false ∧
    wellFormed .ac (.scrubRead (.basin 1 2 3 false) (.bits 1)) = false ∧ wellFormed .ac (.scrubRead (.staging 8) (.bits 3)) = false ∧
    wellFormed .ac (.scrubRead (.basin 1 2 3 false) (.symbols [(5, 1)] [])) = true := by decide +kernel
theorem test_wf_link : wellFormed .ac (.linkUp 0 4) = false ∧ wellFormed .ac (.linkUp 6 4) = false ∧ wellFormed .ac (.linkUp 5 3) = false ∧
    wellFormed .ac (.linkUp 5 16) = true := by decide +kernel
theorem test_wf_block (bs : List Byte) (h : bs.length = 131073) : wellFormed .ac (.compressDone 1 [.comp 4 bs]) = false := by
  simp [wellFormed, h]
theorem test_wf_pass : wellFormed .ac (.pscrubDone { read := 1, corrected := [1, 2] }) = false := by decide +kernel
theorem test_wf_sweep : wellFormed .ac (.paritySweep [4096 * pgMEM + 2]) = false ∧ wellFormed .ac (.paritySweep [4096 * pgMEM]) = true := by
  decide +kernel
theorem test_wf_nonce : wellFormed .ac (.unlock 0 0 []) = false ∧ wellFormed .ac (.ctlEnClear pgMEM []) = false := by decide +kernel
theorem test_wf_page : wellFormed .ac (.ctlEnSet 0xFFFF) = false ∧ wellFormed .ac (.evack 0xFFFF 0) = false ∧
    wellFormed .ac (.snap 0xFFFF) = false ∧ wellFormed .ac (.cntclr 0xFFFF) = false ∧ wellFormed .ac (.ctlEnSet pgMEM) = true := by decide +kernel
theorem test_wf_access : wellFormed .ac (.registerWrite .pf0 (ra 0x12100 3)) = false ∧
    wellFormed .ac (.registerWrite .pf0 (ra 0x12FFC 8)) = false ∧ wellFormed .ac (.registerWrite .pf0 (ra 0x12100 4)) = true := by decide +kernel

/-! ### Worked examples and figures of the spec -/

/-- XXH64 of nothing and of "abc" (published values), a frame's bytes (R340), and frames that R341 rejects: a window above 8 MiB, no
checksum, a byte too many, a block that does not decode. -/
theorem test_xxh64 : xxh64 [] = 0xEF46DB3751D8E999 ∧ xxh64 [0x61, 0x62, 0x63] = 0x44BC2CF5AD770999 := by decide +kernel
theorem test_frame : (zFrame [7, 7, 7, 8] [.rle 3]).take 14 = [0x28, 0xB5, 0x2F, 0xFD, 4, 0x60, 0x1A, 0, 0, 7, 9, 0, 0, 8] ∧
    zRead 4 (zFrame [7, 7, 7, 8] [.rle 3]) = some [7, 7, 7, 8] ∧ zRead 5 (zFrame [7, 7, 7, 8] []) = none ∧
    zRead 4 ((zFrame [7, 7, 7, 8] []).set 5 0x69) = none ∧ zRead 4 ((zFrame [7, 7, 7, 8] []).set 4 0) = none ∧
    zRead 4 (zFrame [7, 7, 7, 8] [] ++ [0]) = none ∧ zFrame [7, 7, 7, 8] [.comp 3 [9, 9]] = zFrame [7, 7, 7, 8] [.raw 3] ∧
    zRead 4 ([0x28, 0xB5, 0x2F, 0xFD, 4, 0x60] ++ zBlock false 2 2 [9, 9] ++ zBlock true 0 1 [8] ++ zCheck [7, 7, 7, 8]) = none := by decide +kernel
/-- Compressed blocks by RFC 8878: three raw literals without a sequence; and one literal, then a match of length 3 at offset 1, its three codes
in RLE mode. -/
theorem test_compressed : zRead 4 (zFrame [7, 7, 7, 8] [.comp 3 [0x18, 7, 7, 7, 0]]) = some [7, 7, 7, 8] ∧
    zRead 5 (zFrame [7, 7, 7, 7, 8] [.comp 4 [0x08, 7, 1, 0x54, 1, 2, 0, 4]]) = some [7, 7, 7, 7, 8] := by decide +kernel
/-- An encoded chunk is a codeword: the generator's four roots are roots of it (R529). -/
theorem test_chunk : (List.range 4).all (fun j =>
    ((chunkEncode (fun lane beat => decide ((7 * lane + 3 * beat) % 5 < 2))).foldl (fun a x => gf8Mul a (gf8Pow 2 j) ^^^ x) 0) = 0) = true ∧
    (chunkEncode (fun lane beat => decide (lane = 0 ∧ beat = 0))).head? = some 0x80 := by decide +kernel
/-- The clock position word of the example at R64: CPOS 203,451 on stripe 2 of band 1. -/
theorem test_clock_word : clockOk 0x031ABB57 = true ∧ wCpos 0x031ABB57 = 203451 ∧ wBand 0x031ABB57 = 1 ∧ wStripe 0x031ABB57 = 2 := by
  decide +kernel
/-- The keystream example of R86: for DSN 0 and channel 0 the seed, and what four zero bytes become. -/
theorem test_keystream : randSeed 0 0 = 0x2D4B6A5C ∧ randomise 0x2D4B6A5C (List.replicate 32 false) = msbBits 0x5A96D4B9 32 := by
  decide +kernel
/-- The example of locating position 1,000,000 (R68, R73, R74, R110): wrap 22, track 11, place 131,744, tone index 4,842,212,096. -/
theorem test_position : wrapAt false 11 (1000000 % pairLen) = (22, 131744) ∧ wrapTrack 22 = 11 ∧ wrapTrack 23 = 88 ∧
    posTone false false 131744 = 4842212096 := by decide +kernel
/-- The example of a zone word (R149): a sample of 100 with gain 288, offset −6 and asymmetry 20. -/
theorem test_zone_word : correctSample 100 288 (-6) 20 = 443 := by decide +kernel
/-- CRC-32C of the nine digits, the check value of RFC 3720's code (R94). -/
theorem test_crc32c : crc32c [0x31, 0x32, 0x33, 0x34, 0x35, 0x36, 0x37, 0x38, 0x39] = 0xE3069283 := by decide +kernel

end Sys2Proof.Tests
end

section
/-! SUPPORT. The frame of every command: what it leaves of the memories, the probe port, the variant and the queue (O3). -/

namespace Sys2Proof.Machine

/-! ### What a command leaves as it stands

`held` names the parts of the state that most commands leave alone. Each operation of the model has one lemma: `held_f` says
that `f` leaves them all, `held_snd_f` that it leaves all but the memories, `held_snd_snd_f` all but the memories and the probe
port, `held_but_prb_f` all but the probe port. -/

/-- The memories, the probe port, the variant and the queue. -/
def held (s : State) : Mems × ProbeSt × Variant × List Instr := (s.mem, s.prb, s.variant, s.pending)

/-! An update written out keeps what these four fields say. Equations that hold by definition are proved by `(rfl)`, here and
below: `simp` then takes them as rewrites, and the kernel has no two whole states to compare. -/

@[simp] theorem held_mk (v rf clk pins host dma m net ts vlt rcd bas cart trk tim mot trc lat itg top p hwl out q) :
    held ⟨v, rf, clk, pins, host, dma, m, net, ts, vlt, rcd, bas, cart, trk, tim, mot, trc, lat, itg, top, p, hwl, out, q⟩ =
      (m, p, v, q) := (rfl)

@[simp] theorem eq_held (s : State) : (s.mem, s.prb, s.variant, s.pending) = held s := (rfl)

theorem eq_held_snd (s : State) : (s.prb, s.variant, s.pending) = (held s).2 := (rfl)
theorem eq_held_snd_snd (s : State) : (s.variant, s.pending) = (held s).2.2 := (rfl)
theorem mem_eq_held (s : State) : s.mem = (held s).1 := rfl

@[simp] theorem held_ite (c : Prop) [Decidable c] (a b : State) : held (if c then a else b) = if c then held a else held b :=
  apply_ite held c a b

/-- The state that an operation answers beside a value. -/
theorem held_of_eq_mk {α : Type} {r : α × State} {a : α} {s t : State} (h : r = (a, t)) (hr : held r.2 = held s) :
    held t = held s := by
  subst h
  exact hr

@[simp] theorem held_foldl {α : Type} {f : State → α → State} (h : ∀ s a, held (f s a) = held s) (l : List α) (s : State) :
    held (l.foldl f s) = held s := by
  induction l generalizing s with
  | nil => rfl
  | cons x r ih => rw [List.foldl_cons, ih, h]

@[simp] theorem held_foldNat {α : Type} {f : State → α → State} (h : ∀ s a, held (f s a) = held s) (l : List α) (s : State) :
    held (foldNat f s l) = held s := by
  induction l generalizing s with
  | nil => rfl
  | cons x r ih => rw [foldNat, ih, h]

theorem held_foldl_pair {α β : Type} {f : β × State → α → β × State} (h : ∀ r a, held (f r a).2 = held r.2) (l : List α)
    (r : β × State) : held (l.foldl f r).2 = held r.2 := by
  induction l generalizing r with
  | nil => rfl
  | cons x l ih => rw [List.foldl_cons, ih, h]

@[simp] theorem held_snd_foldl {α : Type} {f : State → α → State} (h : ∀ s a, (held (f s a)).2 = (held s).2) (l : List α)
    (s : State) : (held (l.foldl f s)).2 = (held s).2 := by
  induction l generalizing s with
  | nil => rfl
  | cons x r ih => rw [List.foldl_cons, ih, h]

/-- What allocates and frees buffers leaves `held` (Laws/Pools). -/
theorem PoolsOnly.held {s u : State} (h : PoolsOnly s u) : held u = held s := by
  obtain ⟨_, _, _, _, rfl⟩ := h
  rfl

/-! ### Registers -/

@[simp] theorem held_rset (s page off v) : held (rset s page off v) = held s := (rfl)

/-! ### Events, counters and outputs -/

@[simp] theorem held_emit (o s) : held (emit o s) = held s := (rfl)
@[simp] theorem held_drive (f s) : held (drive f s) = held s := by simp [drive]
@[simp] theorem held_freeNext (s) : held (freeNext s) = held s := (rfl)
@[simp] theorem held_bump (page off n s) : held (bump page off n s) = held s := (rfl)
@[simp] theorem held_bump64 (page off n s) : held (bump64 page off n s) = held s := (rfl)
@[simp] theorem held_logEv_logNew (page bitNo seq s) : held (logEv.logNew page bitNo seq s) = held s := by simp [logEv.logNew]

@[simp] theorem held_logEv (page bitNo seq s) : held (logEv page bitNo seq s) = held s := by
  unfold logEv
  split <;> simp

@[simp] theorem held_signal (f vec s) : held (signal f vec s) = held s := by simp [signal]
@[simp] theorem held_msixOnRise (was page s) : held (msixOnRise was page s) = held s := by simp [msixOnRise]
@[simp] theorem held_raise (page bitNo s) : held (raise page bitNo s) = held s := by simp [raise]
@[simp] theorem held_secEvent (s) : held (secEvent s) = held s := by simp [secEvent]

@[simp] theorem held_raiseOpt (page b s) : held (raiseOpt page b s) = held s := by
  unfold raiseOpt
  split <;> simp

@[simp] theorem held_touchPage (page s) : held (touchPage page s) = held s := by
  unfold touchPage
  split <;> simp

@[simp] theorem held_cfgWhileEn (page s) : held (cfgWhileEn page s) = held s := by simp [cfgWhileEn]

@[simp] theorem held_accessFault (r kind write idx off evPage s) : held (accessFault r kind write idx off evPage s) = held s := by
  simp [accessFault]

@[simp] theorem held_sendBlocks (lane head ps s) : held (sendBlocks lane head ps s) = held s := by simp [sendBlocks]

/-! ### Queues, packets and completions -/

@[simp] theorem held_setPair (f q p s) : held (setPair f q p s) = held s := (rfl)
@[simp] theorem held_setPolder (p x s) : held (setPolder p x s) = held s := (rfl)
@[simp] theorem held_winRefused (f a wr kind chan s) : held (winRefused f a wr kind chan s) = held s := by simp [winRefused]
@[simp] theorem held_haltPair (f q s) : held (haltPair f q s) = held s := by simp [haltPair]
@[simp] theorem held_winFaultPair (f q a wr kind s) : held (winFaultPair f q a wr kind s) = held s := by simp [winFaultPair]
@[simp] theorem held_setQp (q x s) : held (setQp q x s) = held s := (rfl)
@[simp] theorem held_setPort (p x s) : held (setPort p x s) = held s := (rfl)
@[simp] theorem held_sendPacket (k hp s) : held (sendPacket k hp s) = held s := by simp [sendPacket]
@[simp] theorem held_txFrame (q p s) : held (txFrame q p s) = held s := by simp [txFrame]
@[simp] theorem held_sendCapsule (q s) : held (sendCapsule q s) = held s := by simp [sendCapsule]
@[simp] theorem held_netPost (q c s) : held (netPost q c s) = held s := by simp [netPost]
@[simp] theorem held_rdmaRead (q record key a n s) : held (rdmaRead q record key a n s) = held s := by simp [rdmaRead]
@[simp] theorem held_rdmaWrite (q h key a bs s) : held (rdmaWrite q h key a bs s) = held s := by simp [rdmaWrite]
@[simp] theorem held_modCmd (h f s) : held (modCmd h f s) = held s := (rfl)
@[simp] theorem held_dropCmd (h s) : held (dropCmd h s) = held s := (rfl)
@[simp] theorem held_logError (s c st res) : held (logError s c st res) = held s := by simp [logError]
@[simp] theorem held_signalPair (f q s) : held (signalPair f q s) = held s := by simp [signalPair]
@[simp] theorem held_postPcie (f q c st res s) : held (postPcie f q c st res s) = held s := by simp [postPcie]
@[simp] theorem held_postNet (q c st res s) : held (postNet q c st res s) = held s := by simp [postNet]
@[simp] theorem held_qpres (q busy code s) : held (qpres q busy code s) = held s := by simp [qpres]

@[simp] theorem held_drainCheck (src s) : held (drainCheck src s) = held s := by
  unfold drainCheck
  split <;> simp

@[simp] theorem held_postOne (c st res s) : held (postOne c st res s) = held s := by
  unfold postOne
  (repeat' split) <;> simp

@[simp] theorem held_postScan (l blk s) : held (postScan l blk s) = held s := by
  induction l generalizing blk s with
  | nil => rfl
  | cons c r ih =>
    unfold postScan
    split
    · exact ih _ _
    · split <;> simp [ih]

@[simp] theorem held_postReady (s) : held (postReady s) = held s := by simp [postReady]
@[simp] theorem held_decideCmd (h st res s) : held (decideCmd h st res s) = held s := by simp [decideCmd]
@[simp] theorem held_finish (h st res s) : held (finish h st res s) = held s := by simp [finish]
@[simp] theorem held_finishAll (p st res s) : held (finishAll p st res s) = held s := by simp [finishAll]
@[simp] theorem held_endSilently (p s) : held (endSilently p s) = held s := (rfl)
@[simp] theorem held_startCmd (h s) : held (startCmd h s) = held s := by simp [startCmd]

@[simp] theorem held_setPart (p f s) : held (setPart p f s) = held s := by
  unfold setPart
  split <;> simp

@[simp] theorem held_setRead (src p lrn s) : held (setRead src p lrn s) = held s := (rfl)
@[simp] theorem held_setRiq (p r s) : held (setRiq p r s) = held s := (rfl)

@[simp] theorem held_snd_onCmd (h opc s) {f : Cmd → State → State} (hf : ∀ c u, (held (f c u)).2 = (held u).2) :
    (held (onCmd h opc s f)).2 = (held s).2 := by
  unfold onCmd
  (repeat' split) <;> simp [hf]

@[simp] theorem held_onCmd (h opc s) {f : Cmd → State → State} (hf : ∀ c u, held (f c u) = held u) :
    held (onCmd h opc s f) = held s := by
  unfold onCmd
  split <;> simp [hf]

@[simp] theorem held_raiseDeferred (part s) : held (raiseDeferred part s) = held s := by
  unfold raiseDeferred
  split <;> simp

@[simp] theorem held_setSlot (i x s) : held (setSlot i x s) = held s := (rfl)
@[simp] theorem held_modSlot (i f s) : held (modSlot i f s) = held s := by simp [modSlot]
@[simp] theorem held_setQuota (p v s) : held (setQuota p v s) = held s := by simp [setQuota]

@[simp] theorem held_quotaCut (s) : held (quotaCut s) = held s := by
  unfold quotaCut
  (repeat' split) <;> simp

@[simp] theorem held_retireNow (i s) : held (retireNow i s) = held s := by simp [retireNow]
@[simp] theorem held_freeSlot (i s) : held (freeSlot i s) = held s := by simp [freeSlot]
@[simp] theorem held_freeSlots (p s) : held (freeSlots p s) = held s := by simp [freeSlots]
@[simp] theorem held_freePoisoned (part s) : held (freePoisoned part s) = held s := by simp [freePoisoned]
@[simp] theorem held_deferPart (part st lrn s) : held (deferPart part st lrn s) = held s := by simp [deferPart]
@[simp] theorem held_clearDeferred (part s) : held (clearDeferred part s) = held s := by simp [clearDeferred]

/-! ### Buffers, slots and roll-back -/

@[simp] theorem held_setBuf (k i b s) : held (setBuf k i b s) = held s := (rfl)
@[simp] theorem held_smash (a k s) : held (smash a k s) = held s := by simp [smash]
@[simp] theorem held_ringStore (a bs s) : held (ringStore a bs s) = held s := by simp [ringStore]

@[simp] theorem held_snd_stagingWrite (a bs s) : (held (stagingWrite a bs s)).2 = (held s).2 := by
  simp [stagingWrite, eq_held_snd]

@[simp] theorem held_snd_coreStore (h x s) : (held (coreStore h x s)).2 = (held s).2 := by
  unfold coreStore
  dsimp only
  split <;> simp [apply_ite, eq_held_snd]

@[simp] theorem held_snd_drainStores (core s) : (held (drainStores core s)).2 = (held s).2 := by
  unfold drainStores
  split <;> simp

@[simp] theorem held_addUse (p n s) : held (addUse p n s) = held s := (rfl)
@[simp] theorem held_subUse (p n s) : held (subUse p n s) = held s := (rfl)
@[simp] theorem held_giveBack (k i s) : held (giveBack k i s) = held s := by simp [giveBack]
@[simp] theorem held_freeBufs (l s) : held (freeBufs l s) = held s := (freeBufs_frame l s).held
@[simp] theorem held_freeFor (p rq s) : held (freeFor p rq s) = held s := by simp [freeFor]
@[simp] theorem held_chooseRetire (i s) : held (chooseRetire i s) = held s := by simp [chooseRetire]

theorem held_of_allocSlot {p x s i t} (h : allocSlot p x s = some (i, t)) : held t = held s := by
  unfold allocSlot at h
  split at h
  · cases h
  · split at h
    · cases h
    · cases h
      simp

@[simp] theorem held_noteFull (s part) : held (noteFull s part) = held s := by
  unfold noteFull
  split <;> simp

@[simp] theorem held_fillFull (part i s) : held (fillFull part i s) = held s := by simp [fillFull]
@[simp] theorem held_closeFilling (part s) : held (closeFilling part s) = held s := by simp [closeFilling]
@[simp] theorem held_noteFence (code cause s) : held (noteFence code cause s) = held s := by simp [noteFence]
@[simp] theorem held_markFence (code cause s) : held (markFence code cause s) = held s := by simp [markFence]
@[simp] theorem held_fencePool (k s) : held (fencePool k s) = held s := (fencePool_frame k s).held
@[simp] theorem held_checkHead (k r s) : held (checkHead k r s) = held s := (checkHead_frame k r s).held

@[simp] theorem held_allocOne (r count owner spill s) : held (allocOne r count owner spill s).2 = held s :=
  (allocOne_frame r count owner spill s).held

@[simp] theorem held_allocTurn (x s) : held (allocTurn x s).2 = held s := by
  have h := held_allocOne x.r.val x.count x.owner x.spill s
  unfold allocTurn
  split
  · next e => simpa using held_of_eq_mk e h
  · next e => exact held_of_eq_mk e h

@[simp] theorem held_allocChain (r p n s) : held (allocChain r p n s).2 = held s := (allocChain_frame r p n s).held

@[simp] theorem held_marksBelow (s part lrn) : held (marksBelow s part lrn).2 = held s := by
  unfold marksBelow
  (repeat' split) <;> simp

@[simp] theorem held_truncatePart (part l s) : held (truncatePart part l s) = held s := by
  unfold truncatePart
  dsimp only
  split <;> simp

@[simp] theorem held_takeBack (part put s) : held (takeBack part put s).2 = held s := by
  unfold takeBack
  (repeat' split) <;> simp

@[simp] theorem held_dropGroups (p s) : held (dropGroups p s) = held s := by simp [dropGroups]
@[simp] theorem held_rollback (p part l s) : held (rollback p part l s) = held s := by simp [rollback]
@[simp] theorem held_emptyRiq (p report s) : held (emptyRiq p report s) = held s := by simp [emptyRiq]

@[simp] theorem held_flushRiq (p report holds st s) : held (flushRiq p report holds st s) = held s := by
  unfold flushRiq
  dsimp only
  (repeat' split) <;> simp

@[simp] theorem held_failGroup (p first last st s) : held (failGroup p first last st s) = held s := by simp [failGroup]
@[simp] theorem held_failGrp (p g st s) : held (failGrp p g st s) = held s := by simp [failGrp]

/-! ### Meters, keys and IVs -/

@[simp] theorem held_meter (p f s) : held (meter p f s) = held s := by simp [meter]

@[simp] theorem held_meterPart (part f s) : held (meterPart part f s) = held s := by
  unfold meterPart
  split <;> simp

@[simp] theorem held_meterCmds (before s) : held (meterCmds before s) = held s := by simp [meterCmds]

@[simp] theorem held_metered {f : State → State} (hf : ∀ u, held (f u) = held u) (s) : held (metered f s) = held s := by
  simp [metered, hf]

@[simp] theorem held_zeroise (p s) : held (zeroise p s) = held s := by simp [zeroise]
@[simp] theorem held_dropQuotes (p s) : held (dropQuotes p s) = held s := (rfl)
@[simp] theorem held_floorWrite (g h s) : held (floorWrite g h s) = held s := (rfl)
@[simp] theorem held_setIv (k s) : held (setIv k s) = held s := (rfl)
@[simp] theorem held_loseKey (fp s) : held (loseKey fp s) = held s := by simp [loseKey]

@[simp] theorem held_takeIv (fp p s) : held (takeIv fp p s).2 = held s := by
  unfold takeIv
  (repeat' split) <;> simp

@[simp] theorem held_journalWrite (fp b top s) : held (journalWrite fp b top s) = held s := by simp [journalWrite]
@[simp] theorem held_closePolder (minute step p s) : held (closePolder minute step p s) = held s := by simp [closePolder]
@[simp] theorem held_closeMinute (step s) : held (closeMinute step s) = held s := by simp [closeMinute]

/-! ### Guarded and parity-checked registers -/

@[simp] theorem held_guardFail (page s) : held (guardFail page s) = held s := by simp [guardFail]

@[simp] theorem held_guardedWrite (page v c) {f : State → State} (hf : ∀ u, held (f u) = held u) (s) :
    held (guardedWrite page v c f s) = held s := by
  unfold guardedWrite
  split <;> simp [hf]

@[simp] theorem held_parClear (page off s) : held (parClear page off s) = held s := by simp [parClear]
@[simp] theorem held_holdOld (page off s) : held (holdOld page off s) = held s := by simp [holdOld]
@[simp] theorem held_putReg (page off row v s) : held (putReg page off row v s) = held s := by simp [putReg]
@[simp] theorem held_ownWrite (page off v s) : held (ownWrite page off v s) = held s := by simp [ownWrite]

/-! ### Groups and reads in flight -/

@[simp] theorem held_takeWord (p s) : held (takeWord p s) = held s := by
  unfold takeWord
  dsimp only
  split <;> simp

@[simp] theorem held_requestClose (p z s) : held (requestClose p z s) = held s := by simp [requestClose]

@[simp] theorem held_startCompress (p s) : held (startCompress p s) = held s := by
  refine held_foldl (fun s i => ?_) _ _
  dsimp only
  split
  · rfl
  · split
    · rfl
    · split
      · rfl
      · next g _ =>
        have h := held_allocChain i.val p (frameMax (groupContent g).length) s
        split
        · next e => exact held_of_eq_mk e h
        · next e => simpa using held_of_eq_mk e h

@[simp] theorem held_ivFail (p g st s) : held (ivFail p g st s) = held s := by simp [ivFail]

@[simp] theorem held_startEncrypt (p s) : held (startEncrypt p s) = held s := by
  refine held_foldl (fun s i => ?_) _ _
  dsimp only
  split
  · rfl
  · split
    · rfl
    · next g _ =>
      have h := held_takeIv (partEntry s g.part.val).keyFp p s
      split
      · next u e =>
        have hu := held_of_eq_mk e h
        have hc := (held_allocChain (64 + i.val) p.val g.frame.length (freeBufs g.bufs u)).trans (held_freeBufs _ _)
        split
        · rfl
        · next e' => simpa using (held_of_eq_mk e' hc).trans hu
      all_goals next e => simpa using held_of_eq_mk e h

theorem held_of_newFilling {p g s t} (h : newFilling p g s = some t) : held t = held s := by
  unfold newFilling at h
  dsimp only at h
  split at h
  · cases h
  · obtain ⟨⟨i, u⟩, hu, rfl⟩ := Option.map_eq_some_iff.mp h
    exact held_of_allocSlot hu

@[simp] theorem held_putGroup (p n g s) : held (putGroup p n g s).2.2 = held s := by
  induction n generalizing g s with
  | zero => rfl
  | succ n ih =>
    unfold putGroup
    dsimp only
    split
    · split
      · rfl
      · next t ht => rw [ih, held_of_newFilling ht]
    · split
      · split
        · simp [ih]
        · (repeat' split) <;> simp [ih]
      · (repeat' split) <;> simp [ih]

@[simp] theorem held_completeWrites (part s) : held (completeWrites part s) = held s := by simp [completeWrites]

@[simp] theorem held_groupPlaced (p g s) : held (groupPlaced p g s) = held s := by
  unfold groupPlaced
  dsimp only
  split <;> simp

@[simp] theorem held_closeIfDrained (p part s) : held (closeIfDrained p part s) = held s := by simp [closeIfDrained]

@[simp] theorem held_rewind (p no f s) : held (rewind p no f s) = held s := by
  unfold rewind
  dsimp only
  split <;> simp

@[simp] theorem held_setJob (j s) : held (setJob j s) = held s := (rfl)
@[simp] theorem held_dropJob (h s) : held (dropJob h s) = held s := (rfl)

@[simp] theorem held_deliverKey (key c pieces off bs s) : held (deliverKey key c pieces off bs s) = held s := by
  unfold deliverKey
  split <;> simp

@[simp] theorem held_deliverAt (c pieces off bs s) : held (deliverAt c pieces off bs s) = held s := by simp [deliverAt]

@[simp] theorem held_endRead (j st res s) : held (endRead j st res s) = held s := by
  unfold endRead
  split <;> simp

@[simp] theorem held_admitGroup (s p j n) : held (admitGroup s p j n).2 = held s := by
  unfold admitGroup
  split
  · rfl
  · split
    · rfl
    · exact held_allocChain _ _ _ s

@[simp] theorem held_readFind (p j s) : held (readFind p j s) = held s := by
  have h := held_admitGroup s p j
  unfold readFind
  dsimp only
  (repeat' split) <;> try simp
  all_goals next e => exact held_of_eq_mk e (h _)

@[simp] theorem held_readExpand (p j s) : held (readExpand p j s) = held s := by
  unfold readExpand
  split <;> simp

@[simp] theorem held_readsAdvance (p s) : held (readsAdvance p s) = held s := by
  refine held_foldl (fun s j => ?_) _ _
  (repeat' split) <;> simp

/-! ### Intake and the engines -/

@[simp] theorem held_putWord (p tag data par nb s) : held (putWord p tag data par nb s) = held s := by
  unfold putWord
  dsimp only
  (repeat' split) <;> simp

@[simp] theorem held_takeRead (p n s) : held (takeRead p n s) = held s := by
  unfold takeRead
  (repeat' split) <;> simp

@[simp] theorem held_intakeWord (p tag data par nb s) : held (intakeWord p tag data par nb s) = held s := by simp [intakeWord]

@[simp] theorem held_producerStallRelease (p s) : held (producerStallRelease p s) = held s := by
  unfold producerStallRelease
  dsimp only
  split <;> simp

@[simp] theorem held_idle (p s) : held (idle p s) = held s := by simp [idle]
@[simp] theorem held_flush (p s) : held (flush p s) = held s := by simp [flush]

@[simp] theorem held_markExpired (p s) : held (markExpired p s) = held s := by
  unfold markExpired
  dsimp only
  split <;> simp

@[simp] theorem held_modGrp (p no f s) : held (modGrp p no f s) = held s := by simp [modGrp]

@[simp] theorem held_compressDone (i blocks s) : held (compressDone i blocks s) = held s := by
  unfold compressDone
  (repeat' split) <;> simp

@[simp] theorem held_lastMis (i p dec kind s) : held (lastMis i p dec kind s) = held s := by simp [lastMis]

@[simp] theorem held_fencePair (i cause s) : held (fencePair i cause s) = held s := by
  unfold fencePair
  dsimp only
  rw [held_ite]
  simp only [held_foldl (fun u (j : ReadJob) => held_endRead j stFENCED (readResult j) u), held_mk, eq_held, ite_self]
  refine (held_foldl (fun u q => ?_) _ _).trans (by simp)
  split <;> simp

@[simp] theorem held_encryptDone (i res s) : held (encryptDone i res s) = held s := by
  unfold encryptDone
  (repeat' split) <;> simp

@[simp] theorem held_groupPlace (p s) : held (groupPlace p s) = held s := by
  unfold groupPlace
  split
  · split
    · rfl
    · extract_lets u
      have hu : held u = held s := by simp [u]
      split
      · next e => simpa using held_of_eq_mk (congrArg Prod.snd e) ((held_putGroup p 6 _ u).trans hu)
      · next e => simpa using held_of_eq_mk (congrArg Prod.snd e) ((held_putGroup p 6 _ u).trans hu)
  · rfl

@[simp] theorem held_decryptDone (i h res s) : held (decryptDone i h res s) = held s := by
  unfold decryptDone
  split <;> simp

@[simp] theorem held_releaseRead (part s) : held (releaseRead part s) = held s := by simp [releaseRead]

@[simp] theorem held_decompressDone (i h s) : held (decompressDone i h s) = held s := by
  unfold decompressDone
  dsimp only
  (repeat' split) <;> simp

@[simp] theorem held_bufferAllocate (reqs s) : held (bufferAllocate reqs s) = held s := by simp [bufferAllocate]
@[simp] theorem held_pshareWrite (p v s) : held (pshareWrite p v s) = held s := by simp [pshareWrite]
@[simp] theorem held_quotaWrite (p v s) : held (quotaWrite p v s) = held s := by simp [quotaWrite]

/-! ### Doorbells, time slots and the fetch -/

@[simp] theorem held_dbInvalid (f q s) : held (dbInvalid f q s) = held s := by simp [dbInvalid]

@[simp] theorem held_snd_sqTailDoorbell (f q v core s) : (held (sqTailDoorbell f q v core s)).2 = (held s).2 := by
  simp [sqTailDoorbell]

@[simp] theorem held_cqHeadDoorbell (f q v s) : held (cqHeadDoorbell f q v s) = held s := by simp [cqHeadDoorbell]
@[simp] theorem held_qres (f qid busy code s) : held (qres f qid busy code s) = held s := by simp [qres]
@[simp] theorem held_qopReject (f qid code busy s) : held (qopReject f qid code busy s) = held s := by simp [qopReject]

@[simp] theorem held_queueCreate (f qid s) : held (queueCreate f qid s) = held s := by
  unfold queueCreate
  dsimp only
  (repeat' split) <;> simp

@[simp] theorem held_releaseQueue (src pol s) : held (releaseQueue src pol s) = held s := by simp [releaseQueue]
@[simp] theorem held_queueDelete (f qid s) : held (queueDelete f qid s) = held s := by simp [queueDelete]
@[simp] theorem held_qopDone (f qid s) : held (qopDone f qid s) = held s := by simp [qopDone]

@[simp] theorem held_interruptAggregationTimeout (f q s) : held (interruptAggregationTimeout f q s) = held s := by
  simp [interruptAggregationTimeout]

@[simp] theorem held_tsApply (s) : held (tsApply s) = held s := by simp [tsApply]
@[simp] theorem held_tsSwapped (s) : held (tsSwapped s) = held s := by simp [tsSwapped]
@[simp] theorem held_tsDenied (s) : held (tsDenied s) = held s := by simp [tsDenied]
@[simp] theorem held_tsReject (code s) : held (tsReject code s) = held s := by simp [tsReject]
@[simp] theorem held_tsdataWrite (r v s) : held (tsdataWrite r v s) = held s := by simp [tsdataWrite]
@[simp] theorem held_tsSwap (r s) : held (tsSwap r s) = held s := by simp [tsSwap]

@[simp] theorem held_fetchChecks (c f headerOk s) : held (fetchChecks c f headerOk s) = held s := by
  unfold fetchChecks
  (repeat' split) <;> simp

@[simp] theorem held_takeCommand (src polder f sqhd rkeyd rkeyl headerOk s) :
    held (takeCommand src polder f sqhd rkeyd rkeyl headerOk s) = held s := by simp [takeCommand]

@[simp] theorem held_takeCapsule (q p cap s) : held (takeCapsule q p cap s) = held s := by simp [takeCapsule]

@[simp] theorem held_fetchOne (p fetch s) : held (fetchOne p fetch s) = held s := by
  unfold fetchOne
  dsimp only
  (repeat' split) <;> simp

@[simp] theorem held_takeWords (p n s) : held (takeWords p n s) = held s := by
  induction n generalizing s with
  | zero => rfl
  | succ n ih => rw [takeWords, ih, held_takeWord]

@[simp] theorem held_issueRead (h q s) : held (issueRead h q s) = held s := by
  unfold issueRead
  (repeat' split) <;> simp

@[simp] theorem held_issueReads (p s) : held (issueReads p s) = held s := by
  unfold issueReads
  split
  · rfl
  · refine held_foldl (fun s c => ?_) _ _
    split <;> simp

@[simp] theorem held_ownerSlot (p fetch words s) : held (ownerSlot p fetch words s) = held s := by simp [ownerSlot]
@[simp] theorem held_snd_bootFirmware (img s) : (held (bootFirmware img s)).2 = (held s).2 := (rfl)

@[simp] theorem held_snd_activateCheck (s) : (held (activateCheck s)).2 = (held s).2 := by
  unfold activateCheck
  (repeat' split) <;> simp

@[simp] theorem held_snd_serviceSlot (fetch words s) : (held (serviceSlot fetch words s)).2 = (held s).2 := by
  unfold serviceSlot
  dsimp only
  split <;> simp

/-! ### The ports and the transport -/

@[simp] theorem held_qpError (q cause s) : held (qpError q cause s) = held s := by simp [qpError]
@[simp] theorem held_sendNak (q k arg s) : held (sendNak q k arg s) = held s := by simp [sendNak]
@[simp] theorem held_goBack (q s) : held (goBack q s) = held s := by simp [goBack]
@[simp] theorem held_retire (q p s) : held (retire q p s) = held s := by simp [retire]
@[simp] theorem held_commandCapsule (q cap s) : held (commandCapsule q cap s) = held s := by simp [commandCapsule]

@[simp] theorem held_rdmaReadResponse (q psn data s) : held (rdmaReadResponse q psn data s) = held s := by
  unfold rdmaReadResponse
  dsimp only
  split <;> simp

@[simp] theorem held_acknowledge (q kind psn s) : held (acknowledge q kind psn s) = held s := by
  unfold acknowledge
  split <;> simp

@[simp] theorem held_ackTimeout (q s) : held (ackTimeout q s) = held s := by simp [ackTimeout]
@[simp] theorem held_rnrRetry (q s) : held (rnrRetry q s) = held s := by simp [rnrRetry]

@[simp] theorem held_completionCapsuleTimeout (q s) : held (completionCapsuleTimeout q s) = held s := by
  simp [completionCapsuleTimeout]

@[simp] theorem held_cnpReceived (q s) : held (cnpReceived q s) = held s := by simp [cnpReceived]
@[simp] theorem held_rateIncreaseTimer (q s) : held (rateIncreaseTimer q s) = held s := by simp [rateIncreaseTimer]
@[simp] theorem held_fencePort (p cause s) : held (fencePort p cause s) = held s := by simp [fencePort]
@[simp] theorem held_sendPfc (p pause s) : held (sendPfc p pause s) = held s := by simp [sendPfc]
@[simp] theorem held_pfcDrive (p s) : held (pfcDrive p s) = held s := by simp [pfcDrive]
@[simp] theorem held_ceMark (q s) : held (ceMark q s) = held s := by simp [ceMark]
@[simp] theorem held_transport_seq (q psn x s) : held (transport.seq q psn x s) = held s := by simp [transport.seq]

@[simp] theorem held_transport (q op psn s) : held (transport q op psn s) = held s := by
  unfold transport
  split <;> simp

@[simp] theorem held_frameReceived (p fr s) : held (frameReceived p fr s) = held s := by
  unfold frameReceived
  (repeat' split) <;> simp

@[simp] theorem held_releasePort (p s) : held (releasePort p s) = held s := by simp [releasePort]
@[simp] theorem held_pfcReceived (p pause s) : held (pfcReceived p pause s) = held s := by simp [pfcReceived]
@[simp] theorem held_portLinkUp (p s) : held (portLinkUp p s) = held s := by simp [portLinkUp]
@[simp] theorem held_portLinkDown (p s) : held (portLinkDown p s) = held s := by simp [portLinkDown]
@[simp] theorem held_linkholdExpiry (p s) : held (linkholdExpiry p s) = held s := by simp [linkholdExpiry]
@[simp] theorem held_qpDenied (s) : held (qpDenied s) = held s := by simp [qpDenied]
@[simp] theorem held_qpReject (q code s) : held (qpReject q code s) = held s := by simp [qpReject]

@[simp] theorem held_qpCreate (r q s) : held (qpCreate r q s) = held s := by
  unfold qpCreate
  dsimp only
  (repeat' split) <;> simp

@[simp] theorem held_qpDestroy (r q s) : held (qpDestroy r q s) = held s := by simp [qpDestroy]
@[simp] theorem held_qpFree (r q s) : held (qpFree r q s) = held s := by simp [qpFree]

/-! ### DMA channels and windows -/

@[simp] theorem held_setDma (n c s) : held (setDma n c s) = held s := (rfl)
@[simp] theorem held_dmaEvent (n b s) : held (dmaEvent n b s) = held s := by simp [dmaEvent]

@[simp] theorem held_spaceRead (sp a k s) : held (spaceRead sp a k s).2 = held s := by
  unfold spaceRead
  split <;> simp

@[simp] theorem held_snd_spaceWrite (sp a bs s) : (held (spaceWrite sp a bs s)).2 = (held s).2 := by
  unfold spaceWrite
  dsimp only
  split <;> simp [eq_held_snd]

@[simp] theorem held_snd_dmaSpoil (n s) : (held (dmaSpoil n s)).2 = (held s).2 := by
  unfold dmaSpoil
  dsimp only
  split <;> simp

@[simp] theorem held_snd_dmaHalt (n code addr sp wr s) : (held (dmaHalt n code addr sp wr s)).2 = (held s).2 := by simp [dmaHalt]

@[simp] theorem held_snd_accessHalt (n code a sp wr s) : (held (accessHalt n code a sp wr s)).2 = (held s).2 := by
  simp [accessHalt]

@[simp] theorem held_snd_beginDesc (n bs s) : (held (beginDesc n bs s)).2 = (held s).2 := by
  unfold beginDesc
  dsimp only
  split <;> simp

@[simp] theorem held_snd_takeDesc (n a sp hostDesc s) : (held (takeDesc n a sp hostDesc s)).2 = (held s).2 := by
  unfold takeDesc
  dsimp only
  (repeat' split) <;> simp

@[simp] theorem held_snd_dmaGo (n hostDesc core s) : (held (dmaGo n hostDesc core s)).2 = (held s).2 := by
  unfold dmaGo
  dsimp only
  split <;> simp

@[simp] theorem held_moved (n k s) : held (moved n k s) = held s := by simp [moved]

@[simp] theorem held_snd_dmaPut (n bs s) : (held (dmaPut n bs s)).2 = (held s).2 := by
  unfold dmaPut
  dsimp only
  (repeat' split) <;> simp

@[simp] theorem held_snd_chainBurst (n tlp s) : (held (chainBurst n tlp s)).2 = (held s).2 := by
  unfold chainBurst
  extract_lets c sa da host k
  split
  · rfl
  · split
    · split <;> simp
    · simp
    · simp
    · split <;> simp

@[simp] theorem held_pull (n want s) : held (pull n want s) = held s := by
  unfold pull
  (repeat' split) <;> simp

@[simp] theorem held_snd_ringPut (n k s) : (held (ringPut n k s)).2 = (held s).2 := by
  unfold ringPut
  dsimp only
  (repeat' split) <;> simp

@[simp] theorem held_snd_ringBurst (n tlp s) : (held (ringBurst n tlp s)).2 = (held s).2 := by
  unfold ringBurst
  dsimp only
  (repeat' split) <;> simp

@[simp] theorem held_snd_dmaBurst (n tlp waited s) : (held (dmaBurst n tlp waited s)).2 = (held s).2 := by
  unfold dmaBurst
  dsimp only
  (repeat' split) <;> simp

@[simp] theorem held_snd_ringFlushTimeout (n s) : (held (ringFlushTimeout n s)).2 = (held s).2 := by
  unfold ringFlushTimeout
  dsimp only
  (repeat' split) <;> simp

@[simp] theorem held_snd_ringDrain (n k s) : (held (ringDrain n k s)).2 = (held s).2 := by
  induction k generalizing s with
  | zero => rfl
  | succ k ih =>
    unfold ringDrain
    dsimp only
    split
    · rfl
    · rw [ih, held_snd_ringPut]

@[simp] theorem held_snd_dmaStop (n s) : (held (dmaStop n s)).2 = (held s).2 := by
  unfold dmaStop
  dsimp only
  (repeat' split) <;> simp

@[simp] theorem held_snd_descriptorDone (n hostDesc s) : (held (descriptorDone n hostDesc s)).2 = (held s).2 := by
  unfold descriptorDone
  dsimp only
  (repeat' split) <;> simp

@[simp] theorem held_snd_pcieCompletion (n res s) : (held (pcieCompletion n res s)).2 = (held s).2 := by
  unfold pcieCompletion
  dsimp only
  (repeat' split) <;> simp

@[simp] theorem held_snd_cplTimeout (n s) : (held (cplTimeout n s)).2 = (held s).2 := by
  unfold cplTimeout
  dsimp only
  split <;> simp

@[simp] theorem held_rdptrWrite (n v s) : held (rdptrWrite n v s) = held s := by simp [rdptrWrite]
@[simp] theorem held_sluiceWrite (n v s) : held (sluiceWrite n v s) = held s := by simp [sluiceWrite]
@[simp] theorem held_winDenied (f s) : held (winDenied f s) = held s := by simp [winDenied]
@[simp] theorem held_windowWrite (r f k v c s) : held (windowWrite r f k v c s) = held s := by simp [windowWrite]

@[simp] theorem held_setWp (wp f s) : held (setWp wp f s) = held s := by
  unfold setWp
  split <;> simp

/-! ### Host commands -/

@[simp] theorem held_done (h st res s) : held (done h st res s) = held s := by simp [done]
@[simp] theorem held_switchClose (pol part s) : held (switchClose pol part s) = held s := by simp [switchClose]
@[simp] theorem held_bindWriter (c part s) : held (bindWriter c part s) = held s := by simp [bindWriter]
@[simp] theorem held_closeOpening (c part s) : held (closeOpening c part s) = held s := by simp [closeOpening]

@[simp] theorem held_openPartition (h s) : held (openPartition h s) = held s := by
  refine held_onCmd _ _ _ fun c u => ?_
  split <;> simp

@[simp] theorem held_writeCmd (c n bytes s) : held (writeCmd c n bytes s) = held s := by simp [writeCmd]

@[simp] theorem held_writeRecords (h s) : held (writeRecords h s) = held s := by
  refine held_onCmd _ _ _ fun c u => ?_
  split <;> simp

@[simp] theorem held_writeMark (h s) : held (writeMark h s) = held s := by
  refine held_onCmd _ _ _ fun c u => ?_
  split <;> simp

@[simp] theorem held_readRecords (h s) : held (readRecords h s) = held s := by
  refine held_onCmd _ _ _ fun c u => ?_
  split <;> simp

@[simp] theorem held_syncsDone (part s) : held (syncsDone part s) = held s := by simp [syncsDone]

@[simp] theorem held_sync (h s) : held (sync h s) = held s := by
  refine held_onCmd _ _ _ fun c u => ?_
  split <;> simp

@[simp] theorem held_moveRead (c lrn s) : held (moveRead c lrn s) = held s := by simp [moveRead]

@[simp] theorem held_locate (h s) : held (locate h s) = held s := by
  refine held_onCmd _ _ _ fun c u => ?_
  split <;> simp

@[simp] theorem held_space (h marks s) : held (space h marks s) = held s := by
  refine held_onCmd _ _ _ fun c u => ?_
  split <;> simp

@[simp] theorem held_reportPosition (h tapeMarks s) : held (reportPosition h tapeMarks s) = held s := by
  refine held_onCmd _ _ _ fun c u => ?_
  split <;> simp

@[simp] theorem held_keyImport (h s) : held (keyImport h s) = held s := by
  refine held_onCmd _ _ _ fun c u => ?_
  split <;> simp

@[simp] theorem held_attest (h s) : held (attest h s) = held s := held_onCmd _ _ _ fun c u => by simp
@[simp] theorem held_getMeter (h s) : held (getMeter h s) = held s := held_onCmd _ _ _ fun c u => by simp
@[simp] theorem held_planTo (target s) : held (planTo target s) = held s := (rfl)
@[simp] theorem held_abortMove (s) : held (abortMove s) = held s := by simp [abortMove]
@[simp] theorem held_restMove (s) : held (restMove s) = held s := by simp [restMove]
@[simp] theorem held_killRead (h s) : held (killRead h s) = held s := by simp [killRead]
@[simp] theorem held_abortWrite (t s) : held (abortWrite t s) = held s := by simp [abortWrite]
@[simp] theorem held_abortSeek (t s) : held (abortSeek t s) = held s := by simp [abortSeek]

@[simp] theorem held_abort (h s) : held (abort h s) = held s := by
  refine held_onCmd _ _ _ fun c u => ?_
  (repeat' split) <;> simp

/-! ### Generations and the mount -/

@[simp] theorem held_newGenAs (f s) : held (newGenAs f s) = held s := by
  unfold newGenAs
  split <;> simp

@[simp] theorem held_newGen (s) : held (newGen s) = held s := by simp [newGen]

@[simp] theorem held_writeCopyA (unl s) : held (writeCopyA unl s) = held s := by
  unfold writeCopyA
  split <;> simp

@[simp] theorem held_hkSettle (s) : held (hkSettle s) = held s := by
  unfold hkSettle
  (repeat' split) <;> simp

@[simp] theorem held_foundGran (part p g s) : held (foundGran part p g s) = held s := by
  unfold foundGran
  split <;> simp

@[simp] theorem held_mountEnds (s) : held (mountEnds s) = held s := by
  unfold mountEnds
  split <;> simp

@[simp] theorem held_tailGran (part run s) : held (tailGran part run s) = held s := by
  refine held_foldl (fun s t => ?_) _ _
  split <;> simp

@[simp] theorem held_mount (label ro env s) : held (mount label ro env s).2.2 = held s := by simp [mount]

/-! ### The vault -/

@[simp] theorem held_respond (st reason len res s) : held (respond st reason len res s) = held s := by simp [respond]

@[simp] theorem held_snd_vaultReq (op opc) {f : Cmd → State → State} (hf : ∀ c u, (held (f c u)).2 = (held u).2) (s) :
    (held (vaultReq op opc f s)).2 = (held s).2 := by
  unfold vaultReq
  dsimp only
  (repeat' split) <;> simp [hf]

@[simp] theorem held_vaultReq (op opc) {f : Cmd → State → State} (hf : ∀ c u, held (f c u) = held u) (s) :
    held (vaultReq op opc f s) = held s := by
  unfold vaultReq
  dsimp only
  (repeat' split) <;> simp [hf]

@[simp] theorem held_answer (c st reason len res s) : held (answer c st reason len res s) = held s := by simp [answer]
@[simp] theorem held_addQuote (p obs s) : held (addQuote p obs s) = held s := by simp [addQuote]

@[simp] theorem held_snd_reqAttest (obs s) : (held (reqAttest obs s)).2 = (held s).2 := by
  refine held_snd_vaultReq _ _ (fun c u => ?_) s
  dsimp only
  split <;> simp

@[simp] theorem held_quoteKeyExpiry (id s) : held (quoteKeyExpiry id s) = held s := by simp [quoteKeyExpiry]
@[simp] theorem held_requestBlob (s) : held (requestBlob s).2 = held s := by simp [requestBlob]
@[simp] theorem held_importRefused (c x s) : held (importRefused c x s) = held s := by simp [importRefused]
@[simp] theorem held_storeKey (c b key s) : held (storeKey c b key s) = held s := by simp [storeKey]
@[simp] theorem held_noteLost (fp s) : held (noteLost fp s) = held s := by simp [noteLost]
@[simp] theorem held_importDone (c b key s) : held (importDone c b key s) = held s := by simp [importDone]

@[simp] theorem held_reqKeyImport (s) : held (reqKeyImport s) = held s := by
  refine held_vaultReq _ _ (fun c u => ?_) _
  dsimp only
  (repeat' split) <;> simp

@[simp] theorem held_erasePart (part s) : held (erasePart part s) = held s := by
  unfold erasePart
  dsimp only
  (repeat' split) <;> simp

@[simp] theorem held_reqPartErase (s) : held (reqPartErase s) = held s := by simp [reqPartErase]
@[simp] theorem held_stepTime (sec nano s) : held (stepTime sec nano s) = held s := by simp [stepTime]
@[simp] theorem held_minuteEnd (s) : held (minuteEnd s) = held s := by simp [minuteEnd]
@[simp] theorem held_reqSetTime (s) : held (reqSetTime s) = held s := by simp [reqSetTime]
@[simp] theorem held_minuteClosed (s) : held (minuteClosed s) = held s := by simp [minuteClosed]

@[simp] theorem held_checkpointDurable (fp readBack s) : held (checkpointDurable fp readBack s) = held s := by
  unfold checkpointDurable
  (repeat' split) <;> simp

@[simp] theorem held_dismount (s) : held (dismount s) = held s := by simp [dismount]

@[simp] theorem held_unloadCheck (s) : held (unloadCheck s) = held s := by
  unfold unloadCheck
  (repeat' split) <;> simp

@[simp] theorem held_reqUnloadNotice (s) : held (reqUnloadNotice s) = held s := by
  refine held_vaultReq _ _ (fun c u => ?_) _
  dsimp only
  (repeat' split) <;> simp

/-! ### Loops and moves -/

@[simp] theorem held_setTrc (b t s) : held (setTrc b t s) = held s := (rfl)
@[simp] theorem held_setLoop (n l s) : held (setLoop n l s) = held s := (rfl)
@[simp] theorem held_traceTrig (b s) : held (traceTrig b s) = held s := by simp [traceTrig]
@[simp] theorem held_traceEvent (src s) : held (traceEvent src s) = held s := by simp [traceEvent]
@[simp] theorem held_traceRecord (b v s) : held (traceRecord b v s) = held s := by simp [traceRecord]
@[simp] theorem held_traceSample (loop s) : held (traceSample loop s) = held s := by simp [traceSample]
@[simp] theorem held_setGate (i on s) : held (setGate i on s) = held s := by simp [setGate]
@[simp] theorem held_runLoop (n sp meas ff s) : held (runLoop n sp meas ff s) = held s := by simp [runLoop]
@[simp] theorem held_planStep (s) : held (planStep s) = held s := by simp [planStep]
@[simp] theorem held_latTo (track band half s) : held (latTo track band half s) = held s := by simp [latTo]

/-- The factor 10^12 is named first: the kernel would count it down when it compares the bindings' values. -/
@[simp] theorem held_latStep (s) : held (latStep s) = held s := by
  obtain ⟨k, hk⟩ : ∃ k, k = 1000000000000 := ⟨_, rfl⟩
  unfold latStep
  rw [← hk]
  dsimp only
  (repeat' split) <;> simp

@[simp] theorem held_moveAlong (s) : held (moveAlong s) = held s := by simp [moveAlong]

@[simp] theorem held_startMove (cpos band half track rev step polder s) :
    held (startMove cpos band half track rev step polder s) = held s := by simp [startMove]

@[simp] theorem held_moveStep (s) : held (moveStep s) = held s := by simp [moveStep]

/-! ### Passes and verdicts -/

@[simp] theorem held_setLg (k g s) : held (setLg k g s) = held s := (rfl)
@[simp] theorem held_setCh (c x s) : held (setCh c x s) = held s := (rfl)
@[simp] theorem held_armSpeed (part kind s) : held (armSpeed part kind s) = held s := (rfl)
@[simp] theorem held_setStep (n s) : held (setStep n s) = held s := by simp [setStep]

@[simp] theorem held_speedBoundary (part kind half b s) : held (speedBoundary part kind half b s) = held s := by
  simp [speedBoundary]

@[simp] theorem held_modPass (f s) : held (modPass f s) = held s := (rfl)
@[simp] theorem held_passCount (key n s) : held (passCount key n s) = held s := by simp [passCount]
@[simp] theorem held_wlkCount (off key s) : held (wlkCount off key s) = held s := by simp [wlkCount]

@[simp] theorem held_setAppend (part p s) : held (setAppend part p s) = held s := by
  unfold setAppend
  (repeat' split) <;> simp

@[simp] theorem held_closeFullBand (part s) : held (closeFullBand part s) = held s := by
  unfold closeFullBand
  split <;> simp

@[simp] theorem held_recordQuality (p cause s) : held (recordQuality p cause s) = held s := by
  unfold recordQuality
  split <;> simp

@[simp] theorem held_closePass (p cause s) : held (closePass p cause s) = held s := by simp [closePass]

@[simp] theorem held_backAppend (p s) : held (backAppend p s) = held s := by
  unfold backAppend
  dsimp only
  (repeat' split) <;> simp

@[simp] theorem held_endPass (cause s) : held (endPass cause s) = held s := by
  unfold endPass
  (repeat' split) <;> simp

@[simp] theorem held_requestEnd (cause s) : held (requestEnd cause s) = held s := by simp [requestEnd]

@[simp] theorem held_releaseSlot (part i s) : held (releaseSlot part i s) = held s := by
  unfold releaseSlot
  dsimp only
  (repeat' split) <;> simp

@[simp] theorem held_releaseSlots (part n s) : held (releaseSlots part n s) = held s := by
  induction n generalizing s with
  | zero => rfl
  | succ n ih =>
    unfold releaseSlots
    dsimp only
    (repeat' split) <;> simp [ih]

@[simp] theorem held_loseFrom (part st l gone s) : held (loseFrom part st l gone s) = held s := by
  unfold loseFrom
  dsimp only
  split <;> simp

@[simp] theorem held_degradeChan (i c s) : held (degradeChan i c s) = held s := by
  unfold degradeChan
  split <;> simp

@[simp] theorem held_retryInst (i cause chans s) : held (retryInst i cause chans s) = held s := by
  unfold retryInst
  split <;> simp

@[simp] theorem held_judgeInst (dsn pos s) : held (judgeInst dsn pos s) = held s := by
  unfold judgeInst
  dsimp only
  (repeat' split) <;> simp

@[simp] theorem held_notePassed (s) : held (notePassed s) = held s := by
  unfold notePassed
  split <;> simp

@[simp] theorem held_judge (s) : held (judge s) = held s := by
  unfold judge
  split <;> simp

@[simp] theorem held_finishPass (p s) : held (finishPass p s) = held s := by
  unfold finishPass
  dsimp only
  (repeat' split) <;> simp

@[simp] theorem held_encode (part i s) : held (encode part i s) = held s := by simp [encode]

@[simp] theorem held_noteGran (part p g s) : held (noteGran part p g s) = held s := by
  unfold noteGran
  split <;> simp

@[simp] theorem held_cutGran (part p s) : held (cutGran part p s) = held s := by
  unfold cutGran
  split <;> simp

@[simp] theorem held_granFed (part i s) : held (granFed part i s) = held s := by
  unfold granFed
  split <;> simp

@[simp] theorem held_feedInst (i s) : held (feedInst i s) = held s := by
  unfold feedInst
  split
  · rfl
  · extract_lets part wp half s1 s2 pos i' far s3 s4 s5 s6 s7 s8 hwl s9
    have h1 : held s1 = held s := by simp [s1]
    have h2 : held s2 = held s := by
      simp only [s2]
      split <;> simp [h1]
    simp [s9, s8, s7, s6, s5, s4, s3, h2]

@[simp] theorem held_takeDsn (part s) : held (takeDsn part s).2 = held s := by simp [takeDsn]
@[simp] theorem held_copyBGen (part s) : held (copyBGen part s) = held s := by simp [copyBGen]

@[simp] theorem held_beginClosing (closeB s) : held (beginClosing closeB s) = held s := by
  unfold beginClosing
  dsimp only
  (repeat' split) <;> simp

@[simp] theorem held_partFull (jump s) : held (partFull jump s) = held s := by
  unfold partFull
  split <;> simp

@[simp] theorem held_partEnd (s) : held (partEnd s) = held s := by
  unfold partEnd
  split <;> simp

@[simp] theorem held_feedClosing (dead s) : held (feedClosing dead s) = held s := by
  unfold feedClosing
  dsimp only
  (repeat' split) <;> simp

@[simp] theorem held_settlePass (s) : held (settlePass s) = held s := by
  unfold settlePass
  (repeat' split) <;> simp

@[simp] theorem held_poisonSlot (i s) : held (poisonSlot i s) = held s := by simp [poisonSlot]

@[simp] theorem held_reclose (closeB s) : held (reclose closeB s) = held s := by
  unfold reclose
  split <;> simp

@[simp] theorem held_feedRetry (d s) : held (feedRetry d s) = held s := by
  unfold feedRetry
  (repeat' split) <;> simp

@[simp] theorem held_feedFresh (dead s) : held (feedFresh dead s).2 = held s := by
  unfold feedFresh
  dsimp only
  (repeat' split) <;> simp

@[simp] theorem held_encodeAhead (s) : held (encodeAhead s) = held s := by
  unfold encodeAhead
  (repeat' split) <;> simp

@[simp] theorem held_closeHere (dead closeB s) : held (closeHere dead closeB s) = held s := by simp [closeHere]

@[simp] theorem held_feedNext (dead s) : held (feedNext dead s) = held s := by
  unfold feedNext
  dsimp only
  (repeat' split) <;> simp

@[simp] theorem held_beginPass (part kind p0 s) : held (beginPass part kind p0 s) = held s := by simp [beginPass]

theorem held_of_takeEntry {part kind p s t} (h : takeEntry part kind p s = some t) : held t = held s := by
  unfold takeEntry at h
  split at h
  · cases h
    rfl
  · split at h
    · split at h
      · cases h
        rfl
      · cases h
    · cases h

@[simp] theorem held_loadZones (s) : held (loadZones s) = held s := by
  unfold loadZones
  split <;> simp

@[simp] theorem held_fetchRow (g s) : held (fetchRow g s) = held s := by
  unfold fetchRow
  split <;> simp

@[simp] theorem held_seekPass (part kind p m s) : held (seekPass part kind p m s) = held s := by
  unfold seekPass
  split
  · rfl
  · split
    · rfl
    · next t ht =>
      have h := held_of_takeEntry ht
      dsimp only
      split <;> simp [h]

@[simp] theorem held_stretchTurn (x s) : held (stretchTurn x s) = held s := by
  unfold stretchTurn
  dsimp only
  (repeat' split) <;> simp

@[simp] theorem held_stretchStep (x s) : held (stretchStep x s) = held s := by
  unfold stretchStep
  split <;> simp

@[simp] theorem held_stretchEnd (s) : held (stretchEnd s) = held s := by
  unfold stretchEnd
  split <;> simp

@[simp] theorem held_modInst (p f s) : held (modInst p f s) = held s := by
  unfold modInst
  (repeat' split) <;> simp

@[simp] theorem held_noteVerdict (ph r m s) : held (noteVerdict ph r m s) = held s := by simp [noteVerdict]

@[simp] theorem held_lateVerdict (c r s) : held (lateVerdict c r s) = held s := by
  unfold lateVerdict
  split <;> simp

@[simp] theorem held_keepVerdict (i c slot r s) : held (keepVerdict i c slot r s) = held s := by
  unfold keepVerdict
  (repeat' split) <;> simp

@[simp] theorem held_hkVerdict (i c slot r s) : held (hkVerdict i c slot r s) = held s := by simp [hkVerdict]
@[simp] theorem held_issueVerdict (i c slot r m s) : held (issueVerdict i c slot r m s) = held s := by simp [issueVerdict]

/-! ### Fences -/

@[simp] theorem held_mceStops (endCause s) : held (mceStops endCause s) = held s := by simp [mceStops]
@[simp] theorem held_govEnter (cause s) : held (govEnter cause s) = held s := by simp [govEnter]
@[simp] theorem held_fenceMce (s) : held (fenceMce s) = held s := by simp [fenceMce]
@[simp] theorem held_brakePassive (s) : held (brakePassive s) = held s := by simp [brakePassive]
@[simp] theorem held_skewInvalid (k s) : held (skewInvalid k s) = held s := by simp [skewInvalid]
@[simp] theorem held_lgChange (k to_ s) : held (lgChange k to_ s) = held s := by simp [lgChange]
@[simp] theorem held_sourceLeft (k s) : held (sourceLeft k s) = held s := by simp [sourceLeft]
@[simp] theorem held_lgGo (k to_ s) : held (lgGo k to_ s) = held s := by simp [lgGo]
@[simp] theorem held_lgLose (k cause s) : held (lgLose k cause s) = held s := by simp [lgLose]

@[simp] theorem held_tidyCmds (s) : held (tidyCmds s) = held s := by
  unfold tidyCmds
  dsimp only
  (repeat' split) <;> simp

@[simp] theorem held_killReads (p s) : held (killReads p s) = held s := by
  refine held_foldl (fun s j => ?_) _ _
  split <;> simp

@[simp] theorem held_polderFull (p s) : held (polderFull p s) = held s := by simp [polderFull]

@[simp] theorem held_fencePolder (p cause s) : held (fencePolder p cause s) = held s := by
  unfold fencePolder
  dsimp only
  split
  · rfl
  · simp [-markFence_mem]

@[simp] theorem held_fenceCmp (i cause s) : held (fenceCmp i cause s) = held s := by
  unfold fenceCmp
  dsimp only
  split
  · rfl
  · simp only [held_mk, eq_held]
    refine (held_foldl (fun s p => ?_) _ _).trans (held_markFence _ _ s)
    split <;> simp

@[simp] theorem held_fenceDcp (i cause s) : held (fenceDcp i cause s) = held s := by simp [fenceDcp, -markFence_mem]
@[simp] theorem held_fenceCry (i cause s) : held (fenceCry i cause s) = held s := by simp [fenceCry]
@[simp] theorem held_fenceDma (n cause s) : held (fenceDma n cause s) = held s := by simp [fenceDma]
@[simp] theorem held_fenceAdc (n cause s) : held (fenceAdc n cause s) = held s := by simp [fenceAdc]
@[simp] theorem held_fenceNet (p cause s) : held (fenceNet p cause s) = held s := by simp [fenceNet]
@[simp] theorem held_fenceReq (r cause s) : held (fenceReq r cause s) = held s := by simp [fenceReq]
@[simp] theorem held_reqFault (r handle kind s) : held (reqFault r handle kind s) = held s := by simp [reqFault]
@[simp] theorem held_bufferFree (r handle s) : held (bufferFree r handle s) = held s := by simp [bufferFree]

@[simp] theorem held_snd_patchDump (cause s) : (held (patchDump cause s)).2 = (held s).2 := by
  unfold patchDump
  dsimp only
  (repeat' split) <;> simp [eq_held_snd]

@[simp] theorem held_snd_fatal (cause page s) : (held (fatal cause page s)).2 = (held s).2 := by
  unfold fatal
  dsimp only
  split <;> simp

/-! ### Tiles and detours -/

@[simp] theorem held_setTile (t x s) : held (setTile t x s) = held s := (rfl)
@[simp] theorem held_stageBank (t b s) : held (stageBank t b s) = held s := by simp [stageBank]

@[simp] theorem held_stageBanks (img s) : held (stageBanks img s) = held s := by
  obtain ⟨l, h⟩ := stageBanks_frame img s
  rw [h]
  rfl

@[simp] theorem held_markDue (ts s) : held (markDue ts s) = held s := by simp [markDue]

@[simp] theorem held_schedComplete (img waiting s) : held (schedComplete img waiting s) = held s := by
  unfold schedComplete
  split <;> simp

@[simp] theorem held_requestSwitch (s) : held (requestSwitch s) = held s := by
  unfold requestSwitch
  dsimp only
  split <;> simp

@[simp] theorem held_stageImage (s) : held (stageImage s) = held s := by
  unfold stageImage
  split <;> simp

@[simp] theorem held_rejectLoad (code tile s) : held (rejectLoad code tile s) = held s := by
  unfold rejectLoad
  dsimp only
  split <;> simp

@[simp] theorem held_failInst (chans i s) : held (failInst chans i s) = held s := by
  refine (held_modInst _ _ _).trans (held_foldl (fun s k => ?_) _ _)
  split <;> simp

@[simp] theorem held_failUnverified (chans s) : held (failUnverified chans s) = held s := by simp [failUnverified]

@[simp] theorem held_noDetour (role s) : held (noDetour role s) = held s := by
  unfold noDetour
  dsimp only
  (repeat' split) <;> simp

@[simp] theorem held_stageDetour (t s) : held (stageDetour t s) = held s := by
  unfold stageDetour
  split <;> simp

@[simp] theorem held_restageImage (t s) : held (restageImage t s) = held s := by simp [restageImage]

@[simp] theorem held_fenceTile (t reason s) : held (fenceTile t reason s) = held s := by
  unfold fenceTile
  extract_lets x s1 lat s2 s3 s4 lat' s5 s6
  have h4 : held s4 = held s := by simp [s4, s3, s2, s1]
  have h5 : held s5 = held s := by
    simp only [s5]
    (repeat' split) <;> simp [h4]
  split
  · rfl
  · simp [s6, h5]

@[simp] theorem held_activateDetour (d s) : held (activateDetour d s) = held s := by simp [activateDetour]
@[simp] theorem held_regenNext (s) : held (regenNext s) = held s := (rfl)

@[simp] theorem held_regenTick (s) : held (regenTick s) = held s := by
  unfold regenTick
  split <;> simp

@[simp] theorem held_landWord (d t cyc e w s) : held (landWord d t cyc e w s) = held s := by
  obtain ⟨l, h⟩ := landWord_frame d t cyc e w s
  rw [h]
  rfl

@[simp] theorem held_moveWord (d w n t inp cyc s) : held (moveWord d w n t inp cyc s) = held s := by
  obtain ⟨l, h⟩ := moveWord_frame d w n t inp cyc s
  rw [h]
  rfl

@[simp] theorem held_landFlights (d upto s) : held (landFlights d upto s) = held s := by
  obtain ⟨l, h⟩ := landFlights_frame d upto s
  rw [h]
  rfl

@[simp] theorem held_startDomain (d at_ switch word s) : held (startDomain d at_ switch word s) = held s := by simp [startDomain]

@[simp] theorem held_runAct (ds r a) : held (runAct ds r a).2 = held r.2 := by
  obtain ⟨l, h⟩ := runAct_frame ds r a
  rw [h]
  rfl

@[simp] theorem held_queueFlow (f s) : held (queueFlow f s) = held s := by
  obtain ⟨l, rf, out, h⟩ := queueFlow_frame f s
  rw [h]
  rfl

@[simp] theorem held_runProgs (ds prog s) : held (runProgs ds prog s) = held s := by
  have h := held_foldl_pair (held_runAct ds) prog.acts ([], prog.flows.foldl (fun s f => queueFlow f s) s)
  unfold runProgs
  dsimp only
  simpa using h

@[simp] theorem held_controlTick (kind period prog s) : held (controlTick kind period prog s) = held s := by simp [controlTick]

/-! ### Lane groups and slot ticks -/

@[simp] theorem held_bandSettled (s) : held (bandSettled s) = held s := by simp [bandSettled]
@[simp] theorem held_ownFramed (k s) : held (ownFramed k s) = held s := by simp [ownFramed]
@[simp] theorem held_stripeId (k s) : held (stripeId k s) = held s := by simp [stripeId]
@[simp] theorem held_counterCheck (k w s) : held (counterCheck k w s) = held s := by simp [counterCheck]

@[simp] theorem held_passingWord (k w s) : held (passingWord k w s) = held s := by
  unfold passingWord
  dsimp only
  split <;> simp

@[simp] theorem held_clockPositionWord (k w periods s) : held (clockPositionWord k w periods s) = held s := by
  simp [clockPositionWord]

@[simp] theorem held_phaseLock (k step s) : held (phaseLock k step s) = held s := by
  unfold phaseLock
  dsimp only
  (repeat' split) <;> simp

@[simp] theorem held_acqTimeout (k s) : held (acqTimeout k s) = held s := by simp [acqTimeout]
@[simp] theorem held_holdEnter (k s) : held (holdEnter k s) = held s := by simp [holdEnter]
@[simp] theorem held_reassign (k src s) : held (reassign k src s) = held s := by simp [reassign]
@[simp] theorem held_holdExpire (k s) : held (holdExpire k s) = held s := by simp [holdExpire]
@[simp] theorem held_skewMeasurement (k lo hi s) : held (skewMeasurement k lo hi s) = held s := by simp [skewMeasurement]
@[simp] theorem held_forceSrcWrite (k v s) : held (forceSrcWrite k v s) = held s := by simp [forceSrcWrite]

@[simp] theorem held_lgBoundary (k s) : held (lgBoundary k s) = held s := by
  unfold lgBoundary
  dsimp only
  split <;> simp

@[simp] theorem held_stopDetect (s) : held (stopDetect s) = held s := by simp [stopDetect]

@[simp] theorem held_syncLost (c s) : held (syncLost c s) = held s := by
  unfold syncLost
  dsimp only
  (repeat' split) <;> simp

@[simp] theorem held_wskewTrim (c s) : held (wskewTrim c s) = held s := by simp [wskewTrim]

@[simp] theorem held_lmsDeltaStep (c kind s) : held (lmsDeltaStep c kind s) = held s := by
  unfold lmsDeltaStep
  (repeat' split) <;> simp

@[simp] theorem held_countClips (c codes s) : held (countClips c codes s) = held s := by simp [countClips]
@[simp] theorem held_idleClips (rev x s) : held (idleClips rev x s) = held s := by simp [idleClips]

@[simp] theorem held_chanSlot (rev tone x s) : held (chanSlot rev tone x s) = held s := by
  unfold chanSlot
  extract_lets c codes s1
  have h1 : held s1 = held s := held_countClips _ _ s
  clear_value s1
  split
  · exact h1
  · extract_lets h ch rx s2 clk s3 s4 trk s5
    have h3 : held s3 = held s := by simp [s3, s2, h1]
    have h4 : held s4 = held s := by simp [s4, h3]
    have h5 : held s5 = held s := by
      simp only [s5]
      split <;> simp [h4]
    clear_value rx s5
    (repeat' split) <;> simp [h4, h5]

@[simp] theorem held_tickDomains (k rev idle pos obs s) : held (tickDomains k rev idle pos obs s) = held s := by
  simp [tickDomains]

@[simp] theorem held_finalRewrites (q s) : held (finalRewrites q s) = held s := by
  unfold finalRewrites
  dsimp only
  (repeat' split) <;> simp

@[simp] theorem held_sendData (rev lane bits s) : held (sendData rev lane bits s) = held s := by simp [sendData]

@[simp] theorem held_sendSlots (k rev tone s) : held (sendSlots k rev tone s) = held s := by
  unfold sendSlots
  split
  · rfl
  · dsimp only
    split
    · rfl
    · simp only [held_mk, eq_held, held_bump64, held_sendData]
      refine held_foldl (fun u c => ?_) _ _
      split <;> simp

@[simp] theorem held_markInh (k rev tone s) : held (markInh k rev tone s) = held s := by
  unfold markInh
  split <;> simp

@[simp] theorem held_mirrorIn (k s) : held (mirrorIn k s) = held s := by simp [mirrorIn]
@[simp] theorem held_mirrorOut (k s) : held (mirrorOut k s) = held s := (rfl)
@[simp] theorem held_slipsOver (k s) : held (slipsOver k s) = held s := (rfl)
@[simp] theorem held_endWriting (k rev was tone s) : held (endWriting k rev was tone s) = held s := by simp [endWriting]

@[simp] theorem held_tickTape (k rev was obs s) : held (tickTape k rev was obs s) = held s := by
  unfold tickTape
  dsimp only
  split <;> simp

@[simp] theorem held_slotTick (k obs s) : held (slotTick k obs s) = held s := by simp [slotTick]

/-! ### The servo and the motion engine -/

@[simp] theorem held_sendCw (lane word chan value s) : held (sendCw lane word chan value s) = held s := by simp [sendCw]
@[simp] theorem held_sendChan (word c value s) : held (sendChan word c value s) = held s := by simp [sendChan]
@[simp] theorem held_sendAll (word value s) : held (sendAll word value s) = held s := by simp [sendAll]
@[simp] theorem held_selectModule (rev s) : held (selectModule rev s) = held s := by simp [selectModule]
@[simp] theorem held_servoLock (ok s) : held (servoLock ok s) = held s := by simp [servoLock]
@[simp] theorem held_pesCompare (ys both s) : held (pesCompare ys both s) = held s := by simp [pesCompare]
@[simp] theorem held_lateralLoops (s) : held (lateralLoops s) = held s := by simp [lateralLoops]
@[simp] theorem held_blindSample (s) : held (blindSample s) = held s := by simp [blindSample]
@[simp] theorem held_frameTime (u l s) : held (frameTime u l s) = held s := (rfl)
@[simp] theorem held_servoRecord_settle (s) : held (servoRecord.settle s) = held s := by simp [servoRecord.settle]

@[simp] theorem held_servoRecord (upper lower leadUpper leadLower period prog s) :
    held (servoRecord upper lower leadUpper leadLower period prog s) = held s := by
  unfold servoRecord
  dsimp only
  split <;> simp

@[simp] theorem held_lockLost (s) : held (lockLost s) = held s := by simp [lockLost]
@[simp] theorem held_winhRelease (s) : held (winhRelease s) = held s := by simp [winhRelease]
@[simp] theorem held_shock (s) : held (shock s) = held s := by simp [shock]
@[simp] theorem held_shockNRise (s) : held (shockNRise s) = held s := (rfl)
@[simp] theorem held_shockHoldExpiry (s) : held (shockHoldExpiry s) = held s := by simp [shockHoldExpiry]
@[simp] theorem held_wforceWrite (v s) : held (wforceWrite v s) = held s := by simp [wforceWrite]
@[simp] theorem held_tickClocks (s) : held (tickClocks s) = held s := by simp [tickClocks]
@[simp] theorem held_sampleAux (aux s) : held (sampleAux aux s) = held s := (rfl)
@[simp] theorem held_feTimers (s) : held (feTimers s) = held s := by simp [feTimers]
@[simp] theorem held_gateCompare (s) : held (gateCompare s) = held s := by simp [gateCompare]

@[simp] theorem held_meterTape (s) : held (meterTape s) = held s := by
  unfold meterTape
  dsimp only
  split <;> simp

@[simp] theorem held_govStep (s) : held (govStep s) = held s := by simp [govStep]

@[simp] theorem held_hkSeek (s) : held (hkSeek s) = held s := by
  unfold hkSeek
  split <;> simp

@[simp] theorem held_reelTorque (sigma delta s) : held (reelTorque sigma delta s) = held s := (rfl)
@[simp] theorem held_commutate (s) : held (commutate s) = held s := by simp [commutate]
@[simp] theorem held_govTorque (s) : held (govTorque s) = held s := by simp [govTorque]
@[simp] theorem held_crestWatch (s) : held (crestWatch s) = held s := (rfl)
@[simp] theorem held_t25Tick (aux prog s) : held (t25Tick aux prog s) = held s := by simp [t25Tick]
@[simp] theorem held_t2kTick (prog s) : held (t2kTick prog s) = held s := by simp [t2kTick]
@[simp] theorem held_feTrip (n s) : held (feTrip n s) = held s := by simp [feTrip]

@[simp] theorem held_wrapEnd (s) : held (wrapEnd s) = held s := by
  unfold wrapEnd
  split <;> simp

@[simp] theorem held_turnAround (e r s) : held (turnAround e r s) = held s := by simp [turnAround]

@[simp] theorem held_entryMove (e r p step s) : held (entryMove e r p step s) = held s := by
  unfold entryMove
  dsimp only
  split <;> simp

@[simp] theorem held_turnCoastExpiry (s) : held (turnCoastExpiry s) = held s := by
  unfold turnCoastExpiry
  dsimp only
  (repeat' split) <;> simp

@[simp] theorem held_revDwellExpiry (s) : held (revDwellExpiry s) = held s := by simp [revDwellExpiry]
@[simp] theorem held_moveGo (s) : held (moveGo s) = held s := by simp [moveGo]
@[simp] theorem held_moveAbort (s) : held (moveAbort s) = held s := by simp [moveAbort]
@[simp] theorem held_hkReady (s) : held (hkReady s) = held s := (rfl)

@[simp] theorem held_moveDone (s) : held (moveDone s) = held s := by
  unfold moveDone
  dsimp only
  (repeat' split) <;> simp

@[simp] theorem held_bankSwap (n v s) : held (bankSwap n v s) = held s := by simp [bankSwap]
@[simp] theorem held_trimWrite (n reg v s) : held (trimWrite n reg v s) = held s := by simp [trimWrite]
@[simp] theorem held_speedPolicyWrite (fill v s) : held (speedPolicyWrite fill v s) = held s := by simp [speedPolicyWrite]
@[simp] theorem held_stop (s) : held (stop s) = held s := by simp [stop]
@[simp] theorem held_crestBreach (causes s) : held (crestBreach causes s) = held s := by simp [crestBreach]
@[simp] theorem held_govRest (s) : held (govRest s) = held s := by simp [govRest]
@[simp] theorem held_passiveBrake (s) : held (passiveBrake s) = held s := by simp [passiveBrake]
@[simp] theorem held_motorUvN (s) : held (motorUvN s) = held s := by simp [motorUvN]
@[simp] theorem held_passiveRest (s) : held (passiveRest s) = held s := by simp [passiveRest]
@[simp] theorem held_govRelease (v c s) : held (govRelease v c s) = held s := by simp [govRelease]
@[simp] theorem held_setArm (b on s) : held (setArm b on s) = held s := by simp [setArm]
@[simp] theorem held_traceArm (b s) : held (traceArm b s) = held s := by simp [traceArm]
@[simp] theorem held_traceDisarm (b s) : held (traceDisarm b s) = held s := by simp [traceDisarm]
@[simp] theorem held_traceFire (b s) : held (traceFire b s) = held s := by simp [traceFire]
@[simp] theorem held_traceCaptureEnd (b s) : held (traceCaptureEnd b s) = held s := by simp [traceCaptureEnd]

/-! ### Boundaries, plans and decoding -/

@[simp] theorem held_linkChan (rev c s) : held (linkChan rev c s) = held s := by simp [linkChan]
@[simp] theorem held_linkBoundary (rev s) : held (linkBoundary rev s) = held s := by simp [linkBoundary]

@[simp] theorem held_zoneBoundary (s) : held (zoneBoundary s) = held s := by
  unfold zoneBoundary
  dsimp only
  (repeat' split) <;> simp

@[simp] theorem held_trimBoundary (rev stepped s) : held (trimBoundary rev stepped s) = held s := (rfl)

@[simp] theorem held_chooseMaster (s) : held (chooseMaster s) = held s := by
  unfold chooseMaster
  split <;> simp

@[simp] theorem held_speedGate (s) : held (speedGate s) = held s := by simp [speedGate]

@[simp] theorem held_stopRead (s) : held (stopRead s) = held s := by
  unfold stopRead
  split <;> simp

@[simp] theorem held_feedHere (dead s) : held (feedHere dead s) = held s := by
  unfold feedHere
  (repeat' split) <;> simp

@[simp] theorem held_writeBoundary (dead s) : held (writeBoundary dead s) = held s := by
  unfold writeBoundary
  dsimp only
  (repeat' split) <;> simp

@[simp] theorem held_lateRetry (s) : held (lateRetry s) = held s := by
  unfold lateRetry
  split <;> simp

@[simp] theorem held_readBoundary (p s) : held (readBoundary p s) = held s := by
  unfold readBoundary
  dsimp only
  (repeat' split) <;> simp

@[simp] theorem held_hkLeave (s) : held (hkLeave s) = held s := by simp [hkLeave]

@[simp] theorem held_hkFeed (s) : held (hkFeed s) = held s := by
  unfold hkFeed
  (repeat' split) <;> simp

@[simp] theorem held_passBoundary (dead s) : held (passBoundary dead s) = held s := by
  unfold passBoundary
  dsimp only
  (repeat' split) <;> simp

@[simp] theorem held_nameCopies (s) : held (nameCopies s) = held s := by simp [nameCopies]
@[simp] theorem held_dataSetBoundary (s) : held (dataSetBoundary s) = held s := by simp [dataSetBoundary]

@[simp] theorem held_basinRestart (s) : held (basinRestart s) = held s := by
  unfold basinRestart
  (repeat' split) <;> simp

@[simp] theorem held_readResume (s) : held (readResume s) = held s := by
  unfold readResume
  (repeat' split) <;> simp

@[simp] theorem held_resumePlan (s) : held (resumePlan s) = held s := by
  unfold resumePlan
  split <;> simp

@[simp] theorem held_wrapPlanPost (e s) : held (wrapPlanPost e s) = held s := by
  unfold wrapPlanPost
  extract_lets w renews trk s1 trk' s2
  have h : held s2 = held s := by simp [s2, s1]
  split
  · simp
  · split
    · simp
    · clear_value s2
      (repeat' split) <;> simp [h]

@[simp] theorem held_verifyVerdict (pos c slot s) : held (verifyVerdict pos c slot s) = held s := by
  unfold verifyVerdict
  (repeat' split) <;> simp

theorem held_of_placeRead {p h stream s t} (ht : placeRead p h stream s = some t) : held t = held s := by
  unfold placeRead at ht
  dsimp only at ht
  split at ht
  · cases ht
    rfl
  · split at ht
    · cases ht
      rfl
    · split at ht
      · cases ht
        simp
      · obtain ⟨⟨i, u⟩, hu, rfl⟩ := Option.map_eq_some_iff.mp ht
        simpa using held_of_allocSlot hu

@[simp] theorem held_countC1 (ts s) : held (countC1 ts s) = held s := by simp [countC1]
@[simp] theorem held_modLost (part f s) : held (modLost part f s) = held s := (rfl)
@[simp] theorem held_endLoss (part h s) : held (endLoss part h s) = held s := by simp [endLoss]

@[simp] theorem held_learnGran (part h p s) : held (learnGran part h p s) = held s := by
  unfold learnGran
  split <;> simp

@[simp] theorem held_nextRead (dsn s) : held (nextRead dsn s) = held s := by
  unfold nextRead
  dsimp only
  split <;> simp

@[simp] theorem held_startReread (p dsn n w c2 c3 s) : held (startReread p dsn n w c2 c3 s) = held s := by
  unfold startReread
  dsimp only
  split <;> simp

@[simp] theorem held_unrecoverable (p dsn s) : held (unrecoverable p dsn s) = held s := by simp [unrecoverable]

@[simp] theorem held_deliver (p h stream c2 c3 s) : held (deliver p h stream c2 c3 s) = held s := by
  unfold deliver
  split
  · simp
  · next t ht =>
    have h := held_of_placeRead ht
    simp [h]

@[simp] theorem held_dataSetDecode (dsn s) : held (dataSetDecode dsn s) = held s := by
  unfold dataSetDecode
  split
  · rfl
  · split
    · rfl
    · extract_lets d use n ts u
      split
      · rfl
      · split
        split
        split
        · split <;> simp [u]
        · extract_lets pay
          split <;> simp [u]

/-! ### Schedule loads and switches -/

@[simp] theorem held_latFence (v s) : held (latFence v s) = held s := by simp [latFence]
@[simp] theorem held_tileOverrun (t s) : held (tileOverrun t s) = held s := by simp [tileOverrun]

@[simp] theorem held_detourActive (s) : held (detourActive s) = held s := by
  unfold detourActive
  split <;> simp

@[simp] theorem held_regenerationDone (dsn s) : held (regenerationDone dsn s) = held s := by
  unfold regenerationDone
  split <;> simp

@[simp] theorem held_startLoad (sram auto addr s) : held (startLoad sram auto addr s) = held s := by simp [startLoad]
@[simp] theorem held_schedLoadGo (v s) : held (schedLoadGo v s) = held s := by simp [schedLoadGo]

@[simp] theorem held_schedLoadCancel (s) : held (schedLoadCancel s) = held s := by
  unfold schedLoadCancel
  dsimp only
  split <;> simp

@[simp] theorem held_loadDone (copyOk s) : held (loadDone copyOk s) = held s := by
  unfold loadDone
  dsimp only
  (repeat' split) <;> simp

@[simp] theorem held_schedSwitchGo (s) : held (schedSwitchGo s) = held s := by simp [schedSwitchGo]
@[simp] theorem held_applyInit (img s) : held (applyInit img s) = held s := by simp [applyInit]
@[simp] theorem held_swapAll (s) : held (swapAll s) = held s := by simp [swapAll]
@[simp] theorem held_switchTo (img s) : held (switchTo img s) = held s := by simp [switchTo]

@[simp] theorem held_imageSwitch (s) : held (imageSwitch s) = held s := by
  unfold imageSwitch
  split <;> simp

/-! ### Scrubbing, sweeps and self-tests -/

@[simp] theorem held_rowRepair (mem addr s) : held (rowRepair mem addr s) = held s := by simp [rowRepair]
@[simp] theorem held_needTileReload (standby t s) : held (needTileReload standby t s) = held s := by simp [needTileReload]
@[simp] theorem held_needAreaReload (standby s) : held (needAreaReload standby s) = held s := by simp [needAreaReload]

@[simp] theorem held_repeatAct (mem addr place s) : held (repeatAct mem addr place s) = held s := by
  unfold repeatAct
  (repeat' split) <;> simp

@[simp] theorem held_noteRepeat (mem addr place s) : held (noteRepeat mem addr place s) = held s := by
  unfold noteRepeat
  (repeat' split) <;> simp

@[simp] theorem held_markLane (pc sym s) : held (markLane pc sym s) = held s := by simp [markLane]
@[simp] theorem held_noteLane (chunk pc sym s) : held (noteLane chunk pc sym s) = held s := (rfl)
@[simp] theorem held_basinCorrected (pc sym chunk s) : held (basinCorrected pc sym chunk s) = held s := by simp [basinCorrected]

@[simp] theorem held_wordCorrected (place sym s) : held (wordCorrected place sym s) = held s := by
  unfold wordCorrected
  (repeat' split) <;> simp

@[simp] theorem held_badWord (sp word s) : held (badWord sp word s) = held s := by simp [badWord]

@[simp] theorem held_ringUncorr (p a s) : held (ringUncorr p a s) = held s := by
  unfold ringUncorr
  split <;> simp

@[simp] theorem held_bufferUncorr (kb s) : held (bufferUncorr kb s) = held s := by
  unfold bufferUncorr
  dsimp only
  split <;> simp

@[simp] theorem held_stagingUncorr (a s) : held (stagingUncorr a s) = held s := by
  unfold stagingUncorr
  split <;> simp

@[simp] theorem held_slotUncorr (i s) : held (slotUncorr i s) = held s := by
  unfold slotUncorr
  dsimp only
  split <;> simp

@[simp] theorem held_snd_sysUncorr (a zone s) : (held (sysUncorr a zone s)).2 = (held s).2 := by
  unfold sysUncorr
  dsimp only
  (repeat' split) <;> simp [eq_held_snd]

@[simp] theorem held_engineUncorr (u s) : held (engineUncorr u s) = held s := by simp [engineUncorr]
@[simp] theorem held_lineLost (h s) : held (lineLost h s) = held s := (rfl)

@[simp] theorem held_uncorrOutcome_imageUncorr (standby s) : held (uncorrOutcome.imageUncorr standby s) = held s := by
  simp [uncorrOutcome.imageUncorr]

@[simp] theorem held_snd_uncorrOutcome (place s) : (held (uncorrOutcome place s)).2 = (held s).2 := by
  unfold uncorrOutcome
  dsimp only
  (repeat' split) <;> simp [eq_held_snd]

@[simp] theorem held_snd_wordUncorrectable (place s) : (held (wordUncorrectable place s)).2 = (held s).2 := by
  unfold wordUncorrectable
  exact (held_snd_uncorrOutcome _ _).trans (congrArg Prod.snd ((held_raise _ _ _).trans (held_bump _ _ _ _)))

@[simp] theorem held_scrubMove (place s) : held (scrubMove place s) = held s := by
  unfold scrubMove
  split <;> simp

@[simp] theorem held_snd_scrubRead (place errs s) : (held (scrubRead place errs s)).2 = (held s).2 := by
  unfold scrubRead
  dsimp only
  (repeat' split) <;> simp

@[simp] theorem held_repeatDecay (i s) : held (repeatDecay i s) = held s := by simp [repeatDecay]
@[simp] theorem held_spareRowRemap (bank row s) : held (spareRowRemap bank row s) = held s := by simp [spareRowRemap]
@[simp] theorem held_tileReload (t s) : held (tileReload t s) = held s := by simp [tileReload]

@[simp] theorem held_areaReload (s) : held (areaReload s) = held s := by
  unfold areaReload
  split <;> simp

@[simp] theorem held_setPsStat (st mem s) : held (setPsStat st mem s) = held s := by simp [setPsStat]

@[simp] theorem held_pscrubGo (s) : held (pscrubGo s) = held s := by
  unfold pscrubGo
  dsimp only
  split <;> simp

@[simp] theorem held_pscrubAbort (s) : held (pscrubAbort s) = held s := by
  unfold pscrubAbort
  dsimp only
  split <;> simp

@[simp] theorem held_vaultReset (s) : held (vaultReset s) = held s := by simp [vaultReset]

@[simp] theorem held_snd_passOutcome (place s) : (held (passOutcome place s)).2 = (held s).2 := by
  unfold passOutcome
  (repeat' split) <;> simp

@[simp] theorem held_snd_pscrubDone (rep s) : (held (pscrubDone rep s)).2 = (held s).2 := by
  unfold pscrubDone
  split <;> simp

@[simp] theorem held_disarmAll (s) : held (disarmAll s) = held s := (rfl)

@[simp] theorem held_snd_parityOutcome (page s) : (held (parityOutcome page s)).2 = (held s).2 := by
  unfold parityOutcome
  (repeat' split) <;> simp

@[simp] theorem held_snd_parityFault (w s) : (held (parityFault w s)).2 = (held s).2 := by
  unfold parityFault
  dsimp only
  split <;> simp

@[simp] theorem held_snd_paritySweep (bad s) : (held (paritySweep bad s)).2 = (held s).2 := by simp [paritySweep]
@[simp] theorem held_fenceDenied (polder s) : held (fenceDenied polder s) = held s := by simp [fenceDenied]

@[simp] theorem held_fence (r v s) : held (fence r v s) = held s := by
  unfold fence
  dsimp only
  (repeat' split) <;> simp

@[simp] theorem held_release (u s) : held (release u s) = held s := by simp [release]
@[simp] theorem held_setUnf (u st s) : held (setUnf u st s) = held s := by simp [setUnf]
@[simp] theorem held_unfenceUnit_test (u s) : held (unfenceUnit.test u s) = held s := by simp [unfenceUnit.test]

@[simp] theorem held_unfenceUnit (r u s) : held (unfenceUnit r u s) = held s := by
  unfold unfenceUnit
  (repeat' split) <;> simp

@[simp] theorem held_unfence (r v c s) : held (unfence r v c s) = held s := by simp [unfence]
@[simp] theorem held_selfTestDone (unit t s) : held (selfTestDone unit t s) = held s := by simp [selfTestDone]

@[simp] theorem held_snd_fenFatal (v s) : (held (fenFatal v s)).2 = (held s).2 := by
  unfold fenFatal
  split <;> simp

/-! ### Resets of functions and links -/

@[simp] theorem held_endCmds (pick s) : held (endCmds pick s) = held s := by
  have hf := fun p u => held_metered (held_flushRiq p false (fun _ => false) stABORTED_BY_RESET) u
  have he := held_metered (held_endSilently pick)
  unfold endCmds
  dsimp only
  rw [held_tidyCmds, held_mk, eq_held, he]
  refine (held_foldl (fun u j => ?_) _ _).trans ((held_foldNat (fun u p => hf p u) _ _).trans (by simp))
  split <;> simp

@[simp] theorem held_endOpens (pick s) : held (endOpens pick s) = held s := by simp [endOpens]
@[simp] theorem held_endFn (f s) : held (endFn f s) = held s := by simp [endFn]

@[simp] theorem held_snd_haltChannels (pick s) : (held (haltChannels pick s)).2 = (held s).2 := by
  refine held_snd_foldl (fun s n => ?_) _ _
  dsimp only
  split
  · simp
  · rfl

@[simp] theorem held_closeWindows (f s) : held (closeWindows f s) = held s := (rfl)
@[simp] theorem held_noteCause (b s) : held (noteCause b s) = held s := by simp [noteCause]
@[simp] theorem held_endNetwork (s) : held (endNetwork s) = held s := by simp [endNetwork]
@[simp] theorem held_liftPools (s) : held (liftPools s) = held s := by simp [liftPools]
@[simp] theorem held_snd_controllerReset (s) : (held (controllerReset s)).2 = (held s).2 := by simp [controllerReset]

@[simp] theorem held_snd_flr (f s) : (held (flr f s)).2 = (held s).2 := by
  unfold flr
  (repeat' split) <;> simp

@[simp] theorem held_snd_perstN (s) : (held (perstN s)).2 = (held s).2 := by simp [perstN]

@[simp] theorem held_snd_linkDown (s) : (held (linkDown s)).2 = (held s).2 := by
  unfold linkDown
  split <;> simp

@[simp] theorem held_linkUp (speed width s) : held (linkUp speed width s) = held s := by simp [linkUp]

@[simp] theorem held_snd_vfEnableClear (s) : (held (vfEnableClear s)).2 = (held s).2 := by
  unfold vfEnableClear
  split <;> simp

@[simp] theorem held_vfEnableSet (numVFs s) : held (vfEnableSet numVFs s) = held s := by simp [vfEnableSet]
@[simp] theorem held_resetDone (f s) : held (resetDone f s) = held s := by simp [resetDone]

@[simp] theorem held_activateBusy (s) : held (activateBusy s) = held s := by
  unfold activateBusy
  split <;> simp

/-! ### Boot, restarts and flash -/

@[simp] theorem held_supplyLoss (s) : held (supplyLoss s) = held s := (rfl)
@[simp] theorem held_sealCrest (c s) : held (sealCrest c s) = held s := by simp [sealCrest]
@[simp] theorem held_enterRecovery (s) : held (enterRecovery s) = held s := (rfl)

@[simp] theorem held_snd_bootCores (s) : (held (bootCores s)).2 = (held s).2 := by
  unfold bootCores
  split <;> simp

@[simp] theorem held_bootTrack_loadDefault (s) : held (bootTrack.loadDefault s) = held s := by
  unfold bootTrack.loadDefault
  dsimp only
  (repeat' split) <;> simp

@[simp] theorem held_bootTrack (s) : held (bootTrack s) = held s := by
  unfold bootTrack
  split <;> simp

@[simp] theorem held_snd_bootImages (s) : (held (bootImages s)).2 = (held s).2 := by
  unfold bootImages
  split <;> simp

@[simp] theorem held_takeDir (second d s) : held (takeDir second d s) = held s := (rfl)
@[simp] theorem held_setLint17 (v s) : held (setLint17 v s) = held s := (rfl)
@[simp] theorem held_wdkick (v s) : held (wdkick v s) = held s := by simp [wdkick]
@[simp] theorem held_watchdogWarning (s) : held (watchdogWarning s) = held s := by simp [watchdogWarning]
@[simp] theorem held_snd_restartCores (s) : (held (restartCores s)).2 = (held s).2 := by simp [restartCores, eq_held_snd]
@[simp] theorem held_snd_coreRestart (s) : (held (coreRestart s)).2 = (held s).2 := by simp [coreRestart]

@[simp] theorem held_snd_wdog (s) : (held (wdog s)).2 = (held s).2 := by
  unfold wdog
  split <;> simp

@[simp] theorem held_resetRecordPages (s) : held (resetRecordPages s) = held s := (rfl)
@[simp] theorem held_restartFences (s) : held (restartFences s) = held s := (rfl)
@[simp] theorem held_clearRecordSide (s) : held (clearRecordSide s) = held s := by simp [clearRecordSide]
@[simp] theorem held_snd_recordSideRestart (s) : (held (recordSideRestart s)).2 = (held s).2 := by simp [recordSideRestart]
@[simp] theorem held_fwready (s) : held (fwready s) = held s := by simp [fwready]
@[simp] theorem held_setFl (st code s) : held (setFl st code s) = held s := (rfl)
@[simp] theorem held_flashGo (op s) : held (flashGo op s) = held s := by simp [flashGo]
@[simp] theorem held_flashRead (s) : held (flashRead s) = held s := by simp [flashRead]
@[simp] theorem held_flashProgram (s) : held (flashProgram s) = held s := by simp [flashProgram]
@[simp] theorem held_flashErase (s) : held (flashErase s) = held s := by simp [flashErase]

@[simp] theorem held_snd_flashDone (s) : (held (flashDone s)).2 = (held s).2 := by
  unfold flashDone
  dsimp only
  (repeat' split) <;> simp [eq_held_snd]

@[simp] theorem held_snd_commitFw_commit (slotB img s) : (held (commitFw.commit slotB img s)).2 = (held s).2 := (rfl)

theorem held_snd_of_commitFw {slotB s img t} (h : commitFw slotB s = some (img, t)) : (held t).2 = (held s).2 := by
  obtain ⟨x, -, hx⟩ := Option.map_eq_some_iff.mp h
  cases hx
  exact held_snd_commitFw_commit _ _ _

@[simp] theorem held_snd_fwcommit (slotB s) : (held (fwcommit slotB s)).2 = (held s).2 := by
  unfold fwcommit
  dsimp only
  split
  · simp
  · split
    · simp
    · next e => simp [held_snd_of_commitFw e]

@[simp] theorem held_relock (page s) : held (relock page s) = held s := by simp [relock]
@[simp] theorem held_lctrans_fuseState (target s) : held (lctrans.fuseState target s) = held s := by simp [lctrans.fuseState]
@[simp] theorem held_lctrans (v s) : held (lctrans v s) = held s := by simp [lctrans]
@[simp] theorem held_pfw (s) : held (pfw s) = held s := by simp [pfw]
@[simp] theorem held_mramQuiescent (s) : held (mramQuiescent s) = held s := by simp [mramQuiescent]
@[simp] theorem held_mtimer (h s) : held (mtimer h s) = held s := by simp [mtimer]
@[simp] theorem held_msipWrite (h v s) : held (msipWrite h v s) = held s := (rfl)

/-! ### Admin commands -/

@[simp] theorem held_snd_adminCmd (h opc s) {f : Cmd → State → State} (hf : ∀ c u, (held (f c u)).2 = (held u).2) :
    (held (adminCmd h opc s f)).2 = (held s).2 := held_snd_onCmd h opc s fun c u => by split <;> simp [hf]

@[simp] theorem held_adminCmd (h opc s) {f : Cmd → State → State} (hf : ∀ c u, held (f c u) = held u) :
    held (adminCmd h opc s f) = held s := held_onCmd h opc s fun c u => by simp [hf]

@[simp] theorem held_load (h env s) : held (load h env s) = held s := by
  refine held_adminCmd _ _ _ fun c u => ?_
  dsimp only
  (repeat' split) <;> simp

@[simp] theorem held_closeForUnload (s part) : held (closeForUnload s part) = held s := by
  unfold closeForUnload
  split <;> simp

@[simp] theorem held_unload (h s) : held (unload h s) = held s := held_adminCmd _ _ _ fun c u => by simp

@[simp] theorem held_partitionCreate (h s) : held (partitionCreate h s) = held s := by
  refine held_adminCmd _ _ _ fun c u => ?_
  dsimp only
  (repeat' split) <;> simp

@[simp] theorem held_partitionDelete (h s) : held (partitionDelete h s) = held s := held_adminCmd _ _ _ fun c u => by simp
@[simp] theorem held_polderOff (p s) : held (polderOff p s) = held s := by simp [polderOff]
@[simp] theorem held_polderConfig (h s) : held (polderConfig h s) = held s := held_adminCmd _ _ _ fun c u => by simp

@[simp] theorem held_snd_fwDownload (h image s) : (held (fwDownload h image s)).2 = (held s).2 := by
  refine held_snd_adminCmd _ _ _ fun c u => ?_
  dsimp only
  (repeat' split) <;> simp [eq_held_snd]

@[simp] theorem held_snd_recoverActivate (h s) : (held (recoverActivate h s)).2 = (held s).2 := by simp [recoverActivate]

@[simp] theorem held_snd_fwActivate (h s) : (held (fwActivate h s)).2 = (held s).2 := by
  refine held_snd_adminCmd _ _ _ fun c u => ?_
  split
  · rfl
  · split
    · rw [held_done]
    · next e =>
      have hu := held_snd_of_commitFw e
      split
      · rw [held_snd_recoverActivate, hu]
      · split
        · rw [held_done, hu]
        · rw [held_snd_activateCheck, held_mk, eq_held_snd, held_startCmd, hu]

@[simp] theorem held_schedSelect (h s) : held (schedSelect h s) = held s := held_adminCmd _ _ _ fun c u => by simp

@[simp] theorem held_logPage (s c logId lsp) : held (logPage s c logId lsp).2 = held s := by
  unfold logPage
  dsimp only
  (repeat' split) <;> simp

@[simp] theorem held_getLog (h s) : held (getLog h s) = held s := held_adminCmd _ _ _ fun c u => by simp
@[simp] theorem held_setTime (h s) : held (setTime h s) = held s := held_adminCmd _ _ _ fun c u => by simp
@[simp] theorem held_probePins (s) : held (probePins s) = held s := by simp [probePins]

/-! ### The Head Write Link -/

@[simp] theorem held_linkFault (s) : held (linkFault s) = held s := by simp [linkFault]
@[simp] theorem held_align (s) : held (align s) = held s := by simp [align]
@[simp] theorem held_time (lane tstamp period s) : held (time lane tstamp period s) = held s := by simp [time]
@[simp] theorem held_mirrored (s) : held (mirrored s) = held s := (rfl)

/-! ### Enables and register writes -/

@[simp] theorem held_freshPools (s) : held (freshPools s) = held s := (rfl)

@[simp] theorem held_armMce (s) : held (armMce s) = held s := by
  unfold armMce
  dsimp only
  split <;> simp

@[simp] theorem held_armLink (s) : held (armLink s) = held s := by simp [armLink]
@[simp] theorem held_selfTest (ns s) : held (selfTest ns s) = held s := (rfl)

@[simp] theorem held_onEnable (b i s) : held (onEnable b i s) = held s := by
  unfold onEnable
  split <;> simp

@[simp] theorem held_enRefuse (page b code s) : held (enRefuse page b code s) = held s := by simp [enRefuse]

@[simp] theorem held_ctlEnSet (page s) : held (ctlEnSet page s) = held s := by
  unfold ctlEnSet
  dsimp only
  (repeat' split) <;> simp

@[simp] theorem held_evack (page v s) : held (evack page v s) = held s := by simp [evack]

@[simp] theorem held_snap (page s) : held (snap page s) = held s := by
  unfold snap
  split <;> simp

@[simp] theorem held_cntclr (page s) : held (cntclr page s) = held s := by
  unfold cntclr
  split <;> simp

@[simp] theorem held_snd_busError (r off write s) : (held (busError r off write s)).2 = (held s).2 := by
  unfold busError
  split <;> simp

@[simp] theorem held_afterPut (s0 page b i o s) : held (afterPut s0 page b i o s) = held s := by
  unfold afterPut
  dsimp only
  (repeat' split) <;> simp

@[simp] theorem held_codedWrite (page b i o row v s) : held (codedWrite page b i o row v s) = held s := by
  unfold codedWrite
  (repeat' split) <;> simp

@[simp] theorem held_maskWrite (page v s) : held (maskWrite page v s) = held s := by simp [maskWrite]
@[simp] theorem held_msixWrite (key a s) : held (msixWrite key a s) = held s := by simp [msixWrite]

@[simp] theorem held_snd_timeoutEnd (r k off write s) : (held (timeoutEnd r k off write s)).2 = (held s).2 := by
  unfold timeoutEnd
  dsimp only
  (repeat' split) <;> simp [eq_held_snd]

@[simp] theorem held_snd_xdomTimeout (r k write s) : (held (xdomTimeout r k write s)).2 = (held s).2 := by
  unfold xdomTimeout
  split <;> simp

/-! ### The dump -/

@[simp] theorem held_snd_startDump (auto s) : (held (startDump auto s)).2 = (held s).2 := by
  unfold startDump
  dsimp only
  (repeat' split) <;> simp [eq_held_snd]

@[simp] theorem held_snd_dumpGo (s) : (held (dumpGo s)).2 = (held s).2 := by
  unfold dumpGo
  dsimp only
  split <;> simp

@[simp] theorem held_snd_dumpWaitExpiry (s) : (held (dumpWaitExpiry s)).2 = (held s).2 := by
  unfold dumpWaitExpiry
  split <;> simp

@[simp] theorem held_snd_dumpDone (s) : (held (dumpDone s)).2 = (held s).2 := by
  unfold dumpDone
  dsimp only
  (repeat' split) <;> simp [eq_held_snd]

@[simp] theorem held_dumpClear (s) : held (dumpClear s) = held s := by simp [dumpClear]

/-! ### The probe port, resets and register writes -/

/-- A power-on reset keeps the variant (R584). -/
@[simp] theorem held_snd_snd_powerOn (s) : (held (powerOn s)).2.2 = (held s).2.2 := (rfl)

@[simp] theorem held_snd_snd_boot (env s) : (held (boot env s)).2.2 = (held s).2.2 := by
  unfold boot
  dsimp only
  split
  · rfl
  · split <;> simp [eq_held_snd_snd]

@[simp] theorem held_snd_snd_sysrstNRise (env s) : (held (sysrstNRise env s)).2.2 = (held s).2.2 := by
  unfold sysrstNRise
  split <;> simp [eq_held_snd_snd]

@[simp] theorem held_but_prb_drawChallenge (nonce s) :
    (held (drawChallenge nonce s)).1 = (held s).1 ∧ (held (drawChallenge nonce s)).2.2 = (held s).2.2 := ⟨rfl, rfl⟩

@[simp] theorem held_but_prb_lockProbe (nonce s) :
    (held (lockProbe nonce s)).1 = (held s).1 ∧ (held (lockProbe nonce s)).2.2 = (held s).2.2 := by
  simp [lockProbe, mem_eq_held, eq_held_snd_snd]

@[simp] theorem held_but_prb_verifyUnlock (nonce s) :
    (held (verifyUnlock nonce s)).1 = (held s).1 ∧ (held (verifyUnlock nonce s)).2.2 = (held s).2.2 := by
  unfold verifyUnlock
  dsimp only
  split <;> simp [mem_eq_held, eq_held_snd_snd]

@[simp] theorem held_but_prb_wordWritten (n s) :
    (held (wordWritten n s)).1 = (held s).1 ∧ (held (wordWritten n s)).2.2 = (held s).2.2 := by
  unfold wordWritten
  split <;> exact ⟨rfl, rfl⟩

@[simp] theorem held_but_prb_unlock (v c nonce s) :
    (held (unlock v c nonce s)).1 = (held s).1 ∧ (held (unlock v c nonce s)).2.2 = (held s).2.2 := by
  unfold unlock guardedWrite
  dsimp only
  (repeat' split) <;> simp

@[simp] theorem held_but_prb_jtagGo (j s) :
    (held (jtagGo j s)).1 = (held s).1 ∧ (held (jtagGo j s)).2.2 = (held s).2.2 := ⟨rfl, rfl⟩

@[simp] theorem held_but_prb_ctlEnClear (page nonce s) :
    (held (ctlEnClear page nonce s)).1 = (held s).1 ∧ (held (ctlEnClear page nonce s)).2.2 = (held s).2.2 := by
  unfold ctlEnClear
  dsimp only
  (repeat' split) <;> simp

theorem held_of_refusedWrite {r b i o v f} (h : refusedWrite r b i o v = some f) (s : State) : held (f s) = held s := by
  unfold refusedWrite at h
  (repeat' split at h) <;> cases h <;> simp

@[simp] theorem held_snd_snd_guardedTake (r page b i o v s) : (held (guardedTake r page b i o v s)).2.2 = (held s).2.2 := by
  unfold guardedTake
  dsimp only
  split <;> simp

@[simp] theorem held_snd_snd_guardedHalf (r page b i o v s) : (held (guardedHalf r page b i o v s)).2.2 = (held s).2.2 := by
  unfold guardedHalf
  (repeat' split) <;> simp

@[simp] theorem held_snd_snd_regWrite (r page b i o v s) : (held (regWrite r page b i o v s)).2.2 = (held s).2.2 := by
  unfold regWrite
  (repeat' split) <;> simp

@[simp] theorem held_snd_snd_write32 (r page off v s) : (held (write32 r page off v s)).2.2 = (held s).2.2 := by
  unfold write32
  split
  · simp
  · split
    · simp
    · split
      · next h => rw [held_of_refusedWrite h]
      · simp

@[simp] theorem held_snd_snd_pageWrite (r a page off s) : (held (pageWrite r a page off s)).2.2 = (held s).2.2 := by
  unfold pageWrite
  dsimp only
  (repeat' split) <;> simp

@[simp] theorem held_snd_snd_write64 (r a s) : (held (write64 r a s)).2.2 = (held s).2.2 := by
  unfold write64
  split <;> simp

@[simp] theorem held_snd_snd_writeMore (r o ws s) : (held (writeMore r o ws s)).2.2 = (held s).2.2 := by
  induction ws generalizing o s with
  | nil => rfl
  | cons w ws ih => rw [writeMore, ih, held_snd_snd_write64]

/-! ### A GO or a doorbell that is no core's write -/

theorem dmaOf_setDma_self {n c} (s) (h : c ≠ {}) : dmaOf (setDma n c s) n = c := sget_sset_eq _ _ _ _ h

/-- A channel with no descriptor begun has no bytes to leave undefined (R438). -/
theorem dmaSpoil_of_len_eq_zero {n s} (h : (dmaOf s n).len = 0) : dmaSpoil n s = s := by
  simp [dmaSpoil, h]

theorem held_dmaHalt_of_len_eq_zero (code addr sp wr) {n s} (h : (dmaOf s n).len = 0) :
    held (dmaHalt n code addr sp wr s) = held s := by
  simp [dmaHalt, dmaSpoil_of_len_eq_zero h]

theorem held_accessHalt_of_len_eq_zero (code a sp wr) {n s} (h : (dmaOf s n).len = 0) :
    held (accessHalt n code a sp wr s) = held s := by
  unfold accessHalt
  split
  · exact (held_dmaHalt_of_len_eq_zero _ _ _ _ (by exact h)).trans (held_winRefused _ _ _ _ _ s)
  · exact held_dmaHalt_of_len_eq_zero _ _ _ _ h

theorem held_beginDesc_of_len_eq_zero (bs) {n s} (h : (dmaOf s n).len = 0) : held (beginDesc n bs s) = held s := by
  unfold beginDesc
  dsimp only
  split
  · exact held_dmaHalt_of_len_eq_zero _ _ _ _ h
  · simp

/-- A read may draw a free value and does nothing else to the state. -/
theorem dmaOf_spaceRead (sp a k s n) : dmaOf (spaceRead sp a k s).2 n = dmaOf s n := by
  unfold spaceRead
  split
  · dsimp only
    split <;> rfl
  · rfl
  · rfl
  · rfl

/-- A channel that takes its first descriptor changes no byte, whatever halts it (R428 to R431, R438). -/
theorem held_takeDesc_of_len_eq_zero (a sp hostDesc) {n s} (h : (dmaOf s n).len = 0) :
    held (takeDesc n a sp hostDesc s) = held s := by
  unfold takeDesc
  extract_lets c u w
  split
  · exact held_dmaHalt_of_len_eq_zero _ _ _ _ h
  · have hc : held u = held s := held_setDma _ _ s
    have hl : (dmaOf u n).len = 0 := by
      rw [dmaOf_setDma_self s fun e => Nat.succ_ne_zero _ (congrArg DmaChan.taken e)]
    rw [← hc]
    split
    · exact held_dmaHalt_of_len_eq_zero _ _ _ _ hl
    · split
      · exact held_accessHalt_of_len_eq_zero _ _ _ _ hl
      · split
        · exact held_dmaHalt_of_len_eq_zero _ _ _ _ hl
        · split
          · rw [held_beginDesc_of_len_eq_zero, held_spaceRead]
            rw [dmaOf_spaceRead, hl]
          · split
            · exact held_beginDesc_of_len_eq_zero _ hl
            · simp [w]

theorem held_dmaGo_none (n hostDesc s) : held (dmaGo n hostDesc none s) = held s := by
  unfold dmaGo
  dsimp only [drainStores]
  split
  · simp
  · rw [held_takeDesc_of_len_eq_zero, held_setDma, held_touchPage]
    rw [dmaOf_setDma_self _ fun e => absurd (congrArg DmaChan.st e) (by simp)]

theorem held_sqTailDoorbell_none (f q v s) : held (sqTailDoorbell f q v none s) = held s := by
  unfold sqTailDoorbell
  dsimp only [drainStores]
  (repeat' split) <;> simp

/-! ### The frame of a command -/

/-- A command that is not the probe port's own, a reset or an access of its page leaves the port, the
variant and the queue. -/
theorem held_snd_exec {i s t} (h : exec i s = .next t) (hp : movesProbe i = false) : (held t).2 = (held s).2 := by
  cases i with
  | powerOnReset | sysrstNRise | unlock | bypass | idcode | samplePreload | extest | clamp | highz | ctlEnClear
  | registerWrite => cases hp
  | _ =>
    obtain rfl := Host.Outcome.next.inj h
    simp

/-- The probe port's commands, resets and register writes leave the variant and the queue too. -/
theorem held_snd_snd_exec {i s t} (h : exec i s = .next t) : (held t).2.2 = (held s).2.2 := by
  cases hp : movesProbe i with
  | false => rw [held_snd_exec h hp]
  | true =>
    cases i with
    | powerOnReset | sysrstNRise | unlock | ctlEnClear =>
      obtain rfl := Host.Outcome.next.inj h
      simp [powerOnReset]
    | bypass | idcode | samplePreload | extest | clamp | highz =>
      obtain rfl := Host.Outcome.next.inj h
      exact (held_but_prb_jtagGo _ s).2
    | registerWrite r a =>
      obtain rfl := Host.Outcome.next.inj h
      simp [registerWrite]
    | _ => cases hp

/-- A command that is not among those that move data, boot, dump or repair leaves the memories. -/
theorem held_fst_exec {i s t} (h : exec i s = .next t) (hm : writesMemory i = false) : (held t).1 = (held s).1 := by
  cases i with
  | fwDownload | fwActivate | serviceSlot | pcieCompletion | dmaStop | dmaBurst | ringFlushTimeout | flr | perstN | linkDown
  | vfEnableClear | cplTimeout | descriptorDone | registerWrite | reqAttest | scrubRead | pscrubDone | paritySweep | fenFatal
  | dumpGo | dumpWaitExpiry | dumpDone | powerOnReset | sysrstNRise | wdog | coreRestart | recordSideRestart | flashDone
  | fwcommit | xdomTimeout => cases hm
  | dmaGo n hostDesc core =>
    obtain rfl := Host.Outcome.next.inj h
    cases core with
    | none => rw [held_dmaGo_none]
    | some w => cases hm
  | sqTailDoorbell f q v core =>
    obtain rfl := Host.Outcome.next.inj h
    cases core with
    | none => rw [held_sqTailDoorbell_none]
    | some w => cases hm
  | bypass | idcode | samplePreload | extest | clamp | highz =>
    obtain rfl := Host.Outcome.next.inj h
    exact (held_but_prb_jtagGo _ s).1
  | _ =>
    obtain rfl := Host.Outcome.next.inj h
    simp

/-- Settles O3, by the frame of each operation and a case split over the commands. -/
theorem framesOfMemoriesAndProbe : Obligations.FramesOfMemoriesAndProbe := by
  intro s t i h
  exact ⟨fun hm => held_fst_exec h hm, fun hp => congrArg Prod.fst (held_snd_exec h hp), congrArg Prod.fst (held_snd_snd_exec h)⟩

end Sys2Proof.Machine
end

section
/-! SUPPORT. What the operations of moves, passes and wrap ends make of the state, and the statement on them (O44). -/

namespace Sys2Proof.Machine

/-! ### The planner, the lateral move and the start of a move -/

/-- The planner's course toward rest has target 0, whatever the crest's cap. -/
@[simp] theorem planTo_zero_target (s : State) : (planTo 0 s).mot.plan.target = 0 := by
  simp only [planTo, clampInt]
  split_ifs <;> omega

@[simp] theorem planTo_trk (v : Int) (s : State) : (planTo v s).trk = s.trk := rfl
@[simp] theorem planTo_hwl (v : Int) (s : State) : (planTo v s).hwl = s.hwl := rfl
@[simp] theorem planTo_move (v : Int) (s : State) : (planTo v s).mot.move = s.mot.move := rfl

theorem latTo_frame (track : Nat) (band : BitVec 2) (half : Bool) (s : State) :
    ∃ lat lgs, latTo track band half s = { s with mot.lat := lat, tim.lgs := lgs } := by
  unfold latTo
  dsimp only
  split
  · exact ⟨s.mot.lat, s.tim.lgs, rfl⟩
  · exact ⟨_, _, rfl⟩

/-- A move begins as it is named, with the coast over; besides it the planners and the lane groups' band marks change (R237). -/
theorem startMove_frame (cpos : Nat) (band : BitVec 2) (half : Bool) (track : Nat) (rev : Bool) (step : Nat)
    (polder : Option (Fin 64)) (s : State) :
    ∃ lat lgs plan stop, startMove cpos band half track rev step polder s =
      { s with mot.lat := lat, tim.lgs := lgs, mot.plan := plan, mot.coast := false,
               mot.move := { status := 1, cpos := cpos, band := band, track := track, rev := rev, step := step, arriving := false,
                             stopAt := stop, polder := polder } } := by
  obtain ⟨lat, lgs, h⟩ := latTo_frame track band half s
  unfold startMove
  rw [h]
  exact ⟨lat, lgs, _, _, rfl⟩

section StartMove
variable (cpos : Nat) (band : BitVec 2) (half : Bool) (track : Nat) (rev : Bool) (step : Nat) (polder : Option (Fin 64)) (s : State)

@[simp] theorem startMove_trk : (startMove cpos band half track rev step polder s).trk = s.trk := by
  obtain ⟨_, _, _, _, h⟩ := startMove_frame cpos band half track rev step polder s; rw [h]
@[simp] theorem startMove_coast : (startMove cpos band half track rev step polder s).mot.coast = false := by
  obtain ⟨_, _, _, _, h⟩ := startMove_frame cpos band half track rev step polder s; rw [h]
@[simp] theorem startMove_status : (startMove cpos band half track rev step polder s).mot.move.status = 1 := by
  obtain ⟨_, _, _, _, h⟩ := startMove_frame cpos band half track rev step polder s; rw [h]
@[simp] theorem startMove_cpos : (startMove cpos band half track rev step polder s).mot.move.cpos = cpos := by
  obtain ⟨_, _, _, _, h⟩ := startMove_frame cpos band half track rev step polder s; rw [h]
@[simp] theorem startMove_track : (startMove cpos band half track rev step polder s).mot.move.track = track := by
  obtain ⟨_, _, _, _, h⟩ := startMove_frame cpos band half track rev step polder s; rw [h]
@[simp] theorem startMove_rev : (startMove cpos band half track rev step polder s).mot.move.rev = rev := by
  obtain ⟨_, _, _, _, h⟩ := startMove_frame cpos band half track rev step polder s; rw [h]
@[simp] theorem startMove_step : (startMove cpos band half track rev step polder s).mot.move.step = step := by
  obtain ⟨_, _, _, _, h⟩ := startMove_frame cpos band half track rev step polder s; rw [h]

end StartMove

/-! ### What a position and a wrap's order depend on -/

/-- The geometry of a wrap pair is that of the cartridge and the variant (R99). -/
theorem wpHalf_congr {s t : State} (hc : t.cart = s.cart) (hv : t.variant = s.variant) (wp : Nat) : wpHalf t wp = wpHalf s wp := by
  unfold wpHalf wpOf partEntry
  rw [hc, hv]

/-- So is the place of a partition position (R110). -/
theorem pposAt_congr {s t : State} (hc : t.cart = s.cart) (hv : t.variant = s.variant) (part p : Nat) :
    pposAt t part p = pposAt s part p := by
  simp only [pposAt, partWps, hc, wpHalf_congr hc hv]

/-- Fetching a zone table touches the zone cache alone (R151). -/
theorem loadZones_frame (s : State) :
    ∃ pair seg cache, loadZones s = { s with trk.zonePair := pair, trk.zoneSeg := seg, trk.zoneCache := cache } := by
  unfold loadZones
  split
  · exact ⟨s.trk.zonePair, s.trk.zoneSeg, s.trk.zoneCache, rfl⟩
  · exact ⟨_, _, _, rfl⟩

/-! ### The write gate and the end of a pass -/

theorem traceTrig_frame (b : Nat) (s : State) : ∃ trc rf out, traceTrig b s = { s with trc := trc, rf := rf, out := out } := by
  unfold traceTrig
  dsimp only
  split
  · exact ⟨s.trc, s.rf, s.out, rfl⟩
  · obtain ⟨rf, out, h⟩ := raise_frame pgTRC b (setTrc b { trcOf s b with
      trig := true, trigPos := (trcOf s b).kept % 16384, post := 16384 - rfld s pgTRC (0x10C + 0x20 * b) 13 0 } s)
    exact ⟨_, rf, out, h⟩

theorem traceEvent_frame (src : Nat) (s : State) : ∃ trc rf out, traceEvent src s = { s with trc := trc, rf := rf, out := out } := by
  unfold traceEvent
  induction List.range 4 generalizing s with
  | nil => exact ⟨s.trc, s.rf, s.out, rfl⟩
  | cons b r ih =>
    rw [List.foldl_cons]
    split
    · obtain ⟨_, _, _, h⟩ := traceTrig_frame b s
      obtain ⟨_, _, _, h'⟩ := ih (traceTrig b s)
      exact ⟨_, _, _, by rw [h', h]⟩
    · exact ih s

@[simp] theorem traceEvent_trk (src : Nat) (s : State) : (traceEvent src s).trk = s.trk := by
  obtain ⟨_, _, _, h⟩ := traceEvent_frame src s; rw [h]
@[simp] theorem traceEvent_hwl (src : Nat) (s : State) : (traceEvent src s).hwl = s.hwl := by
  obtain ⟨_, _, _, h⟩ := traceEvent_frame src s; rw [h]

@[simp] theorem drive_trk (f : Pins → Pins) (s : State) : (drive f s).trk = s.trk := by unfold drive; split <;> rfl
@[simp] theorem drive_hwl (f : Pins → Pins) (s : State) : (drive f s).hwl = s.hwl := by unfold drive; split <;> rfl

/-- The write gate is no part of the track's state, nor of the lanes' (R246). -/
@[simp] theorem setGate_trk (i : Nat) (on : Bool) (s : State) : (setGate i on s).trk = s.trk := by
  unfold setGate
  dsimp only
  (repeat' split) <;> simp
@[simp] theorem setGate_hwl (i : Nat) (on : Bool) (s : State) : (setGate i on s).hwl = s.hwl := by
  unfold setGate
  dsimp only
  (repeat' split) <;> simp

@[simp] theorem closePass_pass (p : Pass) (cause : Nat) (s : State) : (closePass p cause s).trk.pass = none := by simp [closePass]
@[simp] theorem closePass_sending (p : Pass) (cause : Nat) (s : State) : (closePass p cause s).hwl.sending = false := by
  simp [closePass]

/-- A pass that ends is over, for whatever cause (R52). -/
@[simp] theorem endPass_pass (cause : Nat) (s : State) : (endPass cause s).trk.pass = none := by
  unfold endPass
  split
  · assumption
  · dsimp only
    (repeat' split) <;> simp

theorem endPass_sending (cause : Nat) {s : State} (h : s.hwl.sending = false) : (endPass cause s).hwl.sending = false := by
  unfold endPass
  split
  · exact h
  · dsimp only
    (repeat' split) <;> simp

/-! ### The start of a pass -/

/-- The tape's course, the plan with its pass and the registers are the same, and no event is lost. -/
structure KeepsCourse (s t : State) : Prop where
  mot : t.mot = s.mot
  trk : t.trk = s.trk
  regs : t.rf.regs = s.rf.regs
  events : ∀ page b, evPending s page b = true → evPending t page b = true

namespace KeepsCourse

theorem refl (s : State) : KeepsCourse s s := ⟨rfl, rfl, rfl, fun _ _ h => h⟩

theorem trans {s t u : State} (h : KeepsCourse s t) (h' : KeepsCourse t u) : KeepsCourse s u :=
  ⟨h'.mot.trans h.mot, h'.trk.trans h.trk, h'.regs.trans h.regs, fun page b hb => h'.events page b (h.events page b hb)⟩

theorem of_foldl {α : Type} {f : State → α → State} (h : ∀ s a, KeepsCourse s (f s a)) (l : List α) (s : State) :
    KeepsCourse s (l.foldl f s) := by
  induction l generalizing s with
  | nil => exact refl s
  | cons a r ih => exact (h s a).trans (ih (f s a))

theorem raise (page b : Nat) (hb : b < 16) (s : State) : KeepsCourse s (raise page b s) :=
  ⟨raise_mot page b s, raise_trk page b s, raise_regs page b s, fun q c h => evPending_raise_keep page b q c hb s h⟩

theorem setCh (c : Nat) (x : Chan) (s : State) : KeepsCourse s (setCh c x s) := ⟨rfl, rfl, rfl, fun _ _ h => h⟩

theorem freeNext (s : State) : KeepsCourse s (freeNext s) := ⟨rfl, rfl, rfl, fun _ _ h => h⟩

theorem setPart (p : Nat) (f : PartEntry → PartEntry) (s : State) : KeepsCourse s (setPart p f s) := by
  unfold Machine.setPart
  split
  · exact refl s
  · exact ⟨rfl, rfl, rfl, fun _ _ h => h⟩

theorem setWp (wp : Nat) (f : WpEntry → WpEntry) (s : State) : KeepsCourse s (setWp wp f s) := by
  unfold Machine.setWp
  split
  · exact refl s
  · exact ⟨rfl, rfl, rfl, fun _ _ h => h⟩

theorem setAppend (part p : Nat) (s : State) : KeepsCourse s (setAppend part p s) := by
  unfold Machine.setAppend
  split
  · exact setPart _ _ s
  · split
    · exact setPart _ _ s
    · exact refl s

theorem closeFullBand (part : Nat) (s : State) : KeepsCourse s (closeFullBand part s) := by
  unfold Machine.closeFullBand
  split
  · exact refl s
  · exact (setWp _ _ s).trans (setAppend _ _ _)

theorem cutGran (part p : Nat) (s : State) : KeepsCourse s (cutGran part p s) := by
  unfold Machine.cutGran
  split
  · exact refl s
  · exact ⟨rfl, rfl, rfl, fun _ _ h => h⟩

theorem rget {s t : State} (h : KeepsCourse s t) (page off : Nat) : rget t page off = rget s page off := by
  rw [Machine.rget, Machine.rget, h.regs]

theorem rfld {s t : State} (h : KeepsCourse s t) (page off hi lo : Nat) : rfld t page off hi lo = rfld s page off hi lo := by
  rw [Machine.rfld, Machine.rfld, h.rget]

theorem degMask {s t : State} (h : KeepsCourse s t) : degMask t = degMask s := by
  simp only [Machine.degMask, rbit, h.rget]

end KeepsCourse

/-- No more channels than WLK allows are marked, or nothing is to be written: the pass begins at its position (R207, R242). -/
theorem beginPass_of_room {kind : PassKind} {s : State} (part : Fin 64) (p : Nat)
    (h : kind = .write → (degMask s).length ≤ rfld s pgWLK 0x100 7 4) :
    ∃ u q, KeepsCourse s u ∧ beginPass part kind p s = { u with trk.pass := some q } ∧ q.part = part ∧ q.kind = kind ∧ q.nextP = p := by
  have hcut : KeepsCourse s (if kind = .write then cutGran part.val p (closeFullBand part.val s) else s) := by
    split
    · exact (KeepsCourse.closeFullBand _ s).trans (KeepsCourse.cutGran _ _ _)
    · exact KeepsCourse.refl s
  unfold beginPass
  generalize (if kind = .write then cutGran part.val p (closeFullBand part.val s) else s) = v at hcut
  have hfree : ∀ (c : Prop) [Decidable c], KeepsCourse s (if c then freeNext v else v) := fun c _ => by
    split
    · exact hcut.trans (KeepsCourse.freeNext v)
    · exact hcut
  have hroom : ∀ (c : Prop) [Decidable c], ¬ (kind = .write ∧ rfld (if c then freeNext v else v) pgWLK 0x100 7 4 <
      (if kind = .write then degMask v else []).length) := fun c _ ⟨hk, hlt⟩ => by
    rw [(hfree c).rfld, if_pos hk, hcut.degMask] at hlt
    exact absurd (h hk) (by omega)
  dsimp only
  rw [if_neg (hroom _)]
  refine ⟨_, _, ?_, rfl, rfl, rfl, rfl⟩
  refine (hfree _).trans (KeepsCourse.of_foldl (fun t c => ?_) _ _)
  exact ((KeepsCourse.setCh _ _ t).trans (KeepsCourse.raise _ _ (by decide) _)).trans (KeepsCourse.raise _ _ (by decide) _)

/-! ### Moves: GO, ABORT and DONE -/

/-- A GO without a possible target only raises its event (R263). -/
theorem moveGo_of_rejected {s : State} (hg : sget none s.rf.guard pgMCE = none) (h : moveRejected s = true) :
    moveGo s = raise pgMCE 5 s := by
  simp [moveGo, touchPage_none hg, h]

/-- A GO with a possible target begins the move its registers name (R237). -/
theorem moveGo_of_accepted {s : State} (hg : sget none s.rf.guard pgMCE = none) (h : moveRejected s = false)
    (hon : mceOn s = true) :
    moveGo s = startMove (rfld s pgMCE 0x3C0 23 0) (BitVec.ofNat 2 (rfld s pgMCE 0x3C0 25 24)) (headHalf s)
      (rfld s pgMCE 0x3C4 6 0) (rbit s pgMCE 0x3C4 8) (rfld s pgMCE 0x3C4 20 16) s.mot.seekFor
      { s with mot.seekFor := none, trk.starting := none } := by
  simp [moveGo, touchPage_none hg, h, hon, rfld, rbit]

/-- An abort of a running move has the tape come to rest (R262). -/
theorem moveAbort_of_running {s : State} (hg : sget none s.rf.guard pgMCE = none) (h : s.mot.move.status = 1) :
    moveAbort s = planTo 0 { s with mot.move.status := 3, trk.starting := none } := by
  simp [moveAbort, touchPage_none hg, abortMove, h]

theorem moveDone_of_away {s : State} (h : moveThere s = false) : moveDone s = s := by
  simp [moveDone, h]

/-- A move made for no pass ends with its event (R237), and copy A may be written where the tape has come to its area (R102). -/
theorem moveDone_of_no_pass {s : State} (hst : s.mot.move.status = 1) (h : moveThere s = true) (hs : s.trk.starting = none) :
    moveDone s = hkReady (raise pgMCE 2 { s with mot.move.status := 2 }) := by
  simp [moveDone, h, hst, hs]

/-- A move made for a pass ends with its event and begins the pass (R242, R244). -/
theorem moveDone_of_pass {s : State} {part : Fin 64} {kind : PassKind} {p : Nat} (hst : s.mot.move.status = 1)
    (h : moveThere s = true) (hs : s.trk.starting = some (part, kind, p)) :
    moveDone s = beginPass part kind p { raise pgMCE 2 { s with mot.move.status := 2 } with
      trk := { s.trk with starting := none } } := by
  simp [moveDone, h, hst, hs]

theorem moveDone_begins_pass {s : State} {part : Fin 64} {kind : PassKind} {p : Nat} (hst : s.mot.move.status = 1)
    (h : moveThere s = true) (hs : s.trk.starting = some (part, kind, p))
    (hroom : kind = .write → (degMask s).length ≤ rfld s pgWLK 0x100 7 4) :
    ∃ q, (moveDone s).mot.move.status = 2 ∧ (moveDone s).trk.starting = none ∧ evPending (moveDone s) pgMCE 2 = true ∧
      (moveDone s).trk.pass = some q ∧ q.part = part ∧ q.kind = kind ∧ q.nextP = p := by
  have hraise := KeepsCourse.raise pgMCE 2 (by decide) { s with mot.move.status := 2 }
  obtain ⟨u, q, hu, heq, hpart, hkind, hp⟩ := beginPass_of_room (kind := kind)
    (s := { raise pgMCE 2 { s with mot.move.status := 2 } with trk := { s.trk with starting := none } }) part p (fun hk =>
      calc (degMask (raise pgMCE 2 { s with mot.move.status := 2 })).length
        _ = (degMask s).length := congrArg List.length hraise.degMask
        _ ≤ rfld s pgWLK 0x100 7 4 := hroom hk
        _ = rfld (raise pgMCE 2 { s with mot.move.status := 2 }) pgWLK 0x100 7 4 := (hraise.rfld _ _ _ _).symm)
  rw [moveDone_of_pass hst h hs, heq]
  refine ⟨q, ?_, ?_, ?_, rfl, hpart, hkind, hp⟩
  · simp [hu.mot]
  · simp [hu.trk]
  · exact hu.events _ _ (evPending_raise_self pgMCE 2 (by decide) _)

/-! ### Wrap ends -/

/-- The next entry breaks the pass. -/
def nextBreaks (s : State) (p : Pass) : Bool := match s.trk.plan with | e :: _ => breaksPass p e | [] => false

/-- The gate closes, and a pass that the next entry breaks ends with ENDCAUSE 8 (R35, R236). -/
def closeForCoast (p : Pass) (s : State) : State :=
  let u := setGate 7 true { s with hwl.sending := false }
  if nextBreaks s p then endPass 8 u else u

theorem closeForCoast_sending (p : Pass) (s : State) : (closeForCoast p s).hwl.sending = false := by
  unfold closeForCoast
  dsimp only
  split
  · exact endPass_sending 8 (by simp)
  · simp

theorem closeForCoast_pass_of_broken {p : Pass} {s : State} (h : nextBreaks s p = true) : (closeForCoast p s).trk.pass = none := by
  simp [closeForCoast, h]

theorem closeForCoast_pass_of_unbroken {p : Pass} {s : State} (hp : s.trk.pass = some p) (h : nextBreaks s p = false) :
    (closeForCoast p s).trk.pass = some p := by
  simp [closeForCoast, h, hp]

/-- A pass that reads no stretches has none to end (R101). -/
theorem stretchEnd_of_unstretched {s : State} {p : Pass} (hp : s.trk.pass = some p) (h : stretched s p = false) : stretchEnd s = s := by
  cases he : s.trk.cur <;> simp [stretchEnd, hp, he, h]

theorem modPass_of_fixed {f : Pass → Pass} {s : State} {p : Pass} (hp : s.trk.pass = some p) (hf : f p = p) : modPass f s = s := by
  have hsame : s.trk.pass.map f = s.trk.pass := by rw [hp, Option.map_some, hf]
  unfold modPass
  rw [hsame]

section FirstHalf
variable {s : State} {p : Pass} {e : PlanEntry} {y : Nat} (hp : s.trk.pass = some p) (h1 : p.h1 = false)
  (he : s.trk.cur = some e) (hy : pposAt s p.part.val p.strP = some (e.wrap.val, y))
include hp h1 he hy

/-- After the first half of a stretch the tape goes back to the stretch's start, for the H1 channels (R101). -/
theorem stretchTurn_of_first_half (x : Nat) :
    (stretchTurn x s).mot.move.status = 1 ∧
      (stretchTurn x s).trk.pass = some { p with h1 := true, strN := x - p.strP, strK := 0 } := by
  have hy' : ∀ trk, pposAt { s with trk := trk } p.part.val p.strP = some (e.wrap.val, y) :=
    fun trk => (pposAt_congr rfl rfl _ _).trans hy
  simp [stretchTurn, hp, he, h1, hy']

/-- A stretch's first half ends with its wrap. -/
theorem stretchEnd_of_first_half (hs : stretched s p = true) :
    stretchEnd s = stretchTurn ((p.strP / wrapLen + 1) * wrapLen) s := by
  have hsame := modPass_of_fixed (f := fun p => if p.h1 then { p with strK := p.strN } else p) hp (by simp [h1])
  simp [stretchEnd, hp, he, hs, hy, hsame]

end FirstHalf

section WrapEnd
variable {s : State} {p : Pass} (hp : s.trk.pass = some p) (hc : s.mot.coast = false) (hon : mceOn s = true)
  (hm : s.mot.move.status ≠ 1) (hw : p.kind = .write → inEntry s p = false)
include hp hc hon hm hw

/-- The stage of a stretch ends with the wrap; where that makes no move the gate closes and the coast begins, on the planner's
course (R35, R101, R236). -/
theorem wrapEnd_of_pass :
    wrapEnd s = if (stretchEnd s).mot.move.status = 1 then stretchEnd s
      else { closeForCoast p (stretchEnd s) with mot.plan := s.mot.plan, mot.coast := true } := by
  have hgo : ¬ (s.mot.coast = true ∨ (!mceOn s) = true ∨ s.mot.move.status = 1 ∨ p.kind = .write ∧ inEntry s p = true) := by
    rintro (h | h | h | ⟨hk, h⟩)
    · simp [hc] at h
    · simp [hon] at h
    · exact hm h
    · simp [hw hk] at h
  simp only [wrapEnd, hp, if_neg hgo]
  rfl

theorem wrapEnd_of_unstretched (h : stretched s p = false) :
    wrapEnd s = { closeForCoast p s with mot.plan := s.mot.plan, mot.coast := true } := by
  rw [wrapEnd_of_pass hp hc hon hm hw, stretchEnd_of_unstretched hp h, if_neg hm]

theorem wrapEnd_of_first_half {e : PlanEntry} {y : Nat} (h : stretched s p = true) (h1 : p.h1 = false) (he : s.trk.cur = some e)
    (hy : pposAt s p.part.val p.strP = some (e.wrap.val, y)) :
    wrapEnd s = stretchTurn ((p.strP / wrapLen + 1) * wrapLen) s := by
  rw [wrapEnd_of_pass hp hc hon hm hw, stretchEnd_of_first_half hp h1 he hy h, if_pos (stretchTurn_of_first_half hp h1 he hy _).1]

end WrapEnd

/-! ### After the coast -/

section TurnCoast
variable {s : State} {e : PlanEntry} {r : List PlanEntry} (hc : s.mot.coast = true) (hon : mceOn s = true)
include hc hon

/-- Without a next entry the tape stops (R236). -/
theorem turnCoastExpiry_of_no_entry (hr : s.trk.plan = []) : turnCoastExpiry s = planTo 0 { s with mot.coast := false } := by
  simp [turnCoastExpiry, hc, hon, hr]

/-- A pass goes on in the next wrap of its band by the reversal (R236). -/
theorem turnCoastExpiry_of_next_wrap {p : Pass} {c : PlanEntry} (hr : s.trk.plan = e :: r) (hp : s.trk.pass = some p)
    (hcur : s.trk.cur = some c) (hn : nextWrap s c e = true) :
    turnCoastExpiry s = turnAround e r { s with mot.coast := false } := by
  have hn' : nextWrap { s with mot.coast := false } c e = true := hn
  simp [turnCoastExpiry, hc, hon, hr, hp, hcur, hn']

/-- A pass goes on elsewhere by a positioning move to the entry's start (R236). -/
theorem turnCoastExpiry_of_other_wrap {p : Pass} {u : State} (hr : s.trk.plan = e :: r) (hp : s.trk.pass = some p)
    (hn : ∀ c, s.trk.cur = some c → nextWrap s c e = false)
    (hu : u = loadZones { s with mot.coast := false, trk.plan := r, trk.cur := some e }) :
    turnCoastExpiry s = startMove (posCpos e.rev (wpHalf s (wrapPair e.wrap.val)) 0) e.band (planHalf u) (wrapTrack e.wrap.val)
      e.rev u.mot.spd.nreq none u := by
  subst hu
  have hhalf : wpHalf { s with mot.coast := false } (wrapPair e.wrap.val) = wpHalf s (wrapPair e.wrap.val) := wpHalf_congr rfl rfl _
  cases hcur : s.trk.cur with
  | none => simp [turnCoastExpiry, hc, hon, hr, hp, hcur, hhalf]
  | some c =>
    have hn' : nextWrap { s with mot.coast := false } c e = false := hn c hcur
    simp [turnCoastExpiry, hc, hon, hr, hp, hcur, hn', hhalf]

/-- Where no write pass may start the tape stops (R310). -/
theorem turnCoastExpiry_of_noPass {p : Nat} (hr : s.trk.plan = e :: r) (hp : s.trk.pass = none) (hw : e.write = true)
    (hstart : passStart s e = some p) (hno : s.trk.noPass = true) :
    turnCoastExpiry s = planTo 0 { s with mot.coast := false } := by
  have hstart' : passStart { s with mot.coast := false } e = some p := hstart
  simp [turnCoastExpiry, hc, hon, hr, hp, hw, hstart', hno]

/-- Where writing has no cause yet the tape goes to rest at the entry's first position (log 122). -/
theorem turnCoastExpiry_of_not_due {p : Nat} (hr : s.trk.plan = e :: r) (hp : s.trk.pass = none) (hw : e.write = true)
    (hstart : passStart s e = some p) (hno : s.trk.noPass = false) (hdue : writeDue s e.part = false) :
    turnCoastExpiry s = entryMove e r p 0 { s with mot.coast := false } := by
  have hstart' : passStart { s with mot.coast := false } e = some p := hstart
  have hdue' : writeDue { s with mot.coast := false } e.part = false := hdue
  simp [turnCoastExpiry, hc, hon, hr, hp, hw, hstart', hno, hdue']

end TurnCoast

/-- The entry goes into force, and a pass that is to start is left alone. -/
theorem entryMove_trk (e : PlanEntry) (r : List PlanEntry) (p step : Nat) (s : State) :
    (entryMove e r p step s).trk.cur = some e ∧ (entryMove e r p step s).trk.plan = r ∧
      (entryMove e r p step s).trk.starting = s.trk.starting := by
  obtain ⟨_, _, _, hz⟩ := loadZones_frame { s with trk.plan := r, trk.cur := some e }
  unfold entryMove
  rw [hz]
  dsimp only
  split <;> simp

/-- Where the partition has the position, the move to it begins. -/
theorem entryMove_move {e : PlanEntry} {p w x : Nat} {s : State} (r : List PlanEntry) (step : Nat)
    (h : pposAt s e.part.val p = some (w, x)) :
    (entryMove e r p step s).mot.move.status = 1 ∧ (entryMove e r p step s).mot.move.step = step := by
  obtain ⟨_, _, _, hz⟩ := loadZones_frame { s with trk.plan := r, trk.cur := some e }
  have h' : pposAt (loadZones { s with trk.plan := r, trk.cur := some e }) e.part.val p = some (w, x) := by
    rw [hz]; exact (pposAt_congr rfl rfl _ _).trans h
  simp [entryMove, h']

/-! ### The statement -/

theorem exec_moveGo (s : State) : exec .moveGo s = .next (moveGo s) := rfl
theorem exec_moveAbort (s : State) : exec .moveAbort s = .next (moveAbort s) := rfl
theorem exec_moveDone (s : State) : exec .moveDone s = .next (moveDone s) := rfl
theorem exec_wrapEnd (s : State) : exec .wrapEnd s = .next (wrapEnd s) := rfl
theorem exec_turnCoastExpiry (s : State) : exec .turnCoastExpiry s = .next (turnCoastExpiry s) := rfl

/-- Settles O44: each clause is what one lemma above says of its command. -/
theorem movesAndTurnarounds : Obligations.MovesAndTurnarounds := by
  intro s
  simp only [exec_moveGo, exec_moveAbort, exec_moveDone, exec_wrapEnd, exec_turnCoastExpiry, Host.Outcome.next.injEq,
    exists_eq_left']
  refine ⟨?go, ?done, ?wrap, ?coast⟩
  case go =>
    refine fun hg => ⟨moveGo_of_rejected hg, fun hr hon => ?_, fun hst => ?_⟩
    · rw [moveGo_of_accepted hg hr hon]
      simp
    · rw [moveAbort_of_running hg hst]
      simp
  case done =>
    refine fun hst => ⟨moveDone_of_away, moveDone_of_no_pass hst, fun part kind p hs ht hroom => ?_⟩
    obtain ⟨q, h⟩ := moveDone_begins_pass hst ht hs hroom
    exact ⟨_, q, rfl, h⟩
  case wrap =>
    refine fun p hp hc hon hm hw => ⟨fun hs h1 e y he hy => ?_, fun hs => ?_⟩
    · obtain ⟨hmove, hpass⟩ := stretchTurn_of_first_half hp h1 he hy ((p.strP / wrapLen + 1) * wrapLen)
      rw [wrapEnd_of_first_half hp hc hon hm hw hs h1 he hy]
      exact ⟨_, _, rfl, hmove, hpass, rfl, rfl, rfl⟩
    · rw [wrapEnd_of_unstretched hp hc hon hm hw hs]
      refine ⟨rfl, rfl, closeForCoast_sending p s, fun hgoes => ?_, fun e r hr hb => ?_⟩
      · refine closeForCoast_pass_of_unbroken hp ?_
        cases hr : s.trk.plan with
        | nil => simp [nextBreaks, hr]
        | cons e r => simp [nextBreaks, hr, hgoes e r hr]
      · exact closeForCoast_pass_of_broken (by simp [nextBreaks, hr, hb])
  case coast =>
    refine fun hc hon => ⟨turnCoastExpiry_of_no_entry hc hon, fun p e r hr hp => ⟨fun c hcur hn => ?_, fun hn => ?_⟩,
      fun e r p hr hp hw hstart => ⟨turnCoastExpiry_of_noPass hc hon hr hp hw hstart, fun hno hdue => ?_⟩⟩
    · exact turnCoastExpiry_of_next_wrap hc hon hr hp hcur hn
    · obtain ⟨_, _, _, hz⟩ := loadZones_frame { s with mot.coast := false, trk.plan := r, trk.cur := some e }
      rw [turnCoastExpiry_of_other_wrap hc hon hr hp hn rfl, hz]
      simp
    · rw [turnCoastExpiry_of_not_due hc hon hr hp hw hstart hno hdue]
      obtain ⟨hcur, hplan, hstarting⟩ := entryMove_trk e r p 0 { s with mot.coast := false }
      exact ⟨hcur, hplan, hstarting, fun w x hwx => entryMove_move r 0 ((pposAt_congr rfl rfl _ _).trans hwx)⟩

end Sys2Proof.Machine
end

section
/-! SUPPORT. What LOAD makes of the copies of the index and of the label, and the statement on it (O12). -/

namespace Sys2Proof.Machine

/-! ### The command whose turn it is -/

/-- A command whose turn it is runs (R406, R417). -/
theorem onCmd_of_ready {s : State} {h : Nat} {opc : Byte} {c : Cmd} (f : Cmd → State → State) (hr : Ready s h opc c) :
    onCmd h opc s f = f c s := by
  obtain ⟨hcmd, hopc, hfin, hst, hturn, hfatal, hfw⟩ := hr
  have hfw' : byFirmware c.e.opc.toNat = false ∨ fwTakes s = true := by
    cases hb : byFirmware c.e.opc.toNat with
    | false => exact .inl rfl
    | true => rcases hfw (hopc ▸ hb) with h | ⟨hhold, hact⟩ <;> simp [fwTakes, *]
  simp [onCmd, hcmd, hopc, hfin, hst, hturn, hfatal, hopc ▸ hfw']

/-- So does an admin command where no other of its kind runs (R419). -/
theorem adminCmd_of_ready {s : State} {h : Nat} {opc : Byte} {c : Cmd} (f : Cmd → State → State) (hr : Ready s h opc c)
    (hn : NoneAlike s c) : adminCmd h opc s f = f c s := by
  have hn' : sameRunning s c = false := hn
  simp [adminCmd, onCmd_of_ready _ hr, hn']

/-! ### Intact copies -/

/-- The tests of R115 on a copy. -/
theorem copyCore_eq_some_iff (table : Bool) (img : List Byte) (decodes chainOk : Bool) (certId : BitVec 32) (core : IndexCore) :
    copyCore table (.copy img decodes chainOk certId) = some core ↔
      core = readCore img ∧ decodes = true ∧ chainOk = true ∧ core.writer = certId ∧ imageWhole img table = true := by
  simp only [copyCore, Option.ite_none_right_eq_some, Option.some.injEq]
  constructor
  · rintro ⟨⟨hd, hc, hw, hi⟩, rfl⟩
    exact ⟨rfl, hd, hc, hw, hi⟩
  · rintro ⟨rfl, hd, hc, hw, hi⟩
    exact ⟨⟨hd, hc, hw, hi⟩, rfl⟩

/-- A whole image's digest is that of its core, and its signature verifies (R106, R115). -/
theorem signed_and_digest_of_imageWhole {img : List Byte} {table : Bool} (h : imageWhole img table = true) :
    imageSigned img = true ∧ (img.drop 0x26B0).take 48 = sha384 (img.take 0x26B0) := by
  simp only [imageWhole, Bool.and_eq_true, decide_eq_true_eq] at h
  obtain ⟨⟨⟨_, hdigest⟩, hsigned⟩, _⟩ := h
  exact ⟨hsigned, hdigest⟩

/-- The image of an intact copy has its core. -/
theorem wholeOf_of_copyCore {table : Bool} {c : CopyRead} {core : IndexCore} (h : copyCore table c = some core) :
    ∃ img, wholeOf table c = some ⟨table, img⟩ ∧ readCore img = core := by
  cases c with
  | absent => simp [copyCore] at h
  | copy img decodes chainOk certId =>
    refine ⟨img, by simp [wholeOf, h], ?_⟩
    obtain ⟨hcore, _⟩ := (copyCore_eq_some_iff ..).1 h
    exact hcore.symm

theorem copyBad_of_copyCore {table : Bool} {c : CopyRead} {core : IndexCore} (h : copyCore table c = some core) :
    copyBad table c = false := by
  simp [copyBad, h]

/-! ### The copies of the highest generation (R116) -/

/-- The highest GEN of the copies of a list, or `m` where that is higher. -/
def topGen (m : Nat) (xs : List Whole) : Nat := xs.foldl (fun m c => max m c.gen) m

theorem topCopies_eq (x : Copies) : topCopies x = (intactCopies x).filter (fun c => c.gen = topGen 0 (intactCopies x)) := rfl

theorem le_topGen (m : Nat) (xs : List Whole) : m ≤ topGen m xs ∧ ∀ y ∈ xs, y.gen ≤ topGen m xs := by
  induction xs generalizing m with
  | nil => simp [topGen]
  | cons c r ih =>
    obtain ⟨hm, hr⟩ := ih (max m c.gen)
    have hmax : max m c.gen ≤ topGen m (c :: r) := hm
    exact ⟨by omega, List.forall_mem_cons.2 ⟨by omega, hr⟩⟩

theorem topGen_attained (m : Nat) (xs : List Whole) : topGen m xs = m ∨ ∃ y ∈ xs, y.gen = topGen m xs := by
  induction xs generalizing m with
  | nil => exact .inl rfl
  | cons c r ih =>
    rcases ih (max m c.gen) with h | ⟨y, hy, h⟩
    · have h' : topGen m (c :: r) = max m c.gen := h
      rcases Nat.le_total m c.gen with hle | hle
      · exact .inr ⟨c, List.mem_cons_self, by omega⟩
      · exact .inl (by omega)
    · exact .inr ⟨y, List.mem_cons_of_mem c hy, h⟩

/-- No intact copy has a higher GEN than those on top. -/
theorem gen_le_of_mem_topCopies {x : Copies} {a y : Whole} (ha : a ∈ topCopies x) (hy : y ∈ intactCopies x) : y.gen ≤ a.gen := by
  rw [topCopies_eq, List.mem_filter, decide_eq_true_eq] at ha
  rw [ha.2]
  exact (le_topGen 0 _).2 y hy

/-- Of intact copies one is on top. -/
theorem topCopies_ne_nil {x : Copies} (h : intactCopies x ≠ []) : topCopies x ≠ [] := by
  obtain ⟨y, hy, hgen⟩ : ∃ y ∈ intactCopies x, y.gen = topGen 0 (intactCopies x) := by
    rcases topGen_attained 0 (intactCopies x) with h0 | hy
    · obtain ⟨y, hy⟩ := List.exists_mem_of_ne_nil _ h
      have hle := (le_topGen 0 (intactCopies x)).2 y hy
      exact ⟨y, hy, by omega⟩
    · exact hy
  refine List.ne_nil_of_mem (a := y) ?_
  rw [topCopies_eq, List.mem_filter]
  exact ⟨hy, by simp [hgen]⟩

/-- Three intact copies with one core are all on top. -/
theorem topCopies_of_equal_cores {x : Copies} {core : IndexCore} (ha : copyCore true x.a = some core)
    (hb : copyCore true x.b = some core) (hc : copyCore false x.c = some core) :
    ∃ a b c, topCopies x = [⟨true, a⟩, ⟨true, b⟩, ⟨false, c⟩] ∧ readCore a = core := by
  obtain ⟨a, hwa, hca⟩ := wholeOf_of_copyCore ha
  obtain ⟨b, hwb, hcb⟩ := wholeOf_of_copyCore hb
  obtain ⟨c, hwc, hcc⟩ := wholeOf_of_copyCore hc
  exact ⟨a, b, c, by simp [topCopies, intactCopies, hwa, hwb, hwc, Whole.gen, hca, hcb, hcc], hca⟩

/-! ### The mount -/

/-- The newest copies differ in their cores (R117). -/
def copiesConflict (x : Copies) : Bool := (topCopies x).any fun a => (topCopies x).any (coresDiffer a)

theorem copiesConflict_of_mem {x : Copies} {a b : Whole} (ha : a ∈ topCopies x) (hb : b ∈ topCopies x) (h : coresDiffer a b = true) :
    copiesConflict x = true :=
  List.any_eq_true.2 ⟨a, ha, List.any_eq_true.2 ⟨b, hb, h⟩⟩

/-- What the mount decides of a cartridge: whether it is read-only, its label, and the conflict. -/
def mounted (s : State) : Option (Bool × Option Label × Bool) := s.cart.map fun k => (k.readOnly, k.label, k.conflict)

theorem mounted_foundGran (part p : Nat) (g : Gran) (s : State) : mounted (foundGran part p g s) = mounted s := by
  unfold foundGran
  split
  · rfl
  · next h =>
    dsimp only
    split
    · rfl
    · simp [mounted, h]

/-- The tail scan adds granules alone (R110, R591). -/
theorem mounted_tailGran (part : Nat) (run : List TailDs) (s : State) : mounted (tailGran part run s) = mounted s := by
  unfold tailGran
  induction run.dropLast generalizing s with
  | nil => rfl
  | cons t r ih =>
    rw [List.foldl_cons, ih]
    split
    · exact mounted_foundGran _ _ _ s
    · rfl

theorem mounted_mountEnds (s : State) : mounted (mountEnds s) = mounted s := by
  cases h : s.cart <;> simp [mountEnds, mounted, h]

/-- The status of LOAD (R102, R117, R390). -/
def mountStatus (label : Label) (x : Copies) : BitVec 16 :=
  if label.lclass ≠ 1 then stUNSUPPORTED_RO else if copiesConflict x then stINDEX_CONFLICT else stSUCCESS

theorem mount_status (label : Label) (ro : Bool) (env : LoadEnv) (s : State) :
    (mount label ro env s).1 = mountStatus label (copiesOf s env) := rfl

/-- A cartridge of another class, or one whose newest copies conflict, is mounted read-only, with its label (R102, R117). -/
theorem mount_of_readOnly {label : Label} {env : LoadEnv} {s : State} (ro : Bool)
    (h : label.lclass ≠ 1 ∨ copiesConflict (copiesOf s env) = true) :
    mounted (mount label ro env s).2.2 = some (true, some label, copiesConflict (copiesOf s env)) := by
  have hro : (ro || decide (label.lclass ≠ 1) || copiesConflict (copiesOf s env)) = true := by
    simp only [Bool.or_eq_true, decide_eq_true_eq]
    exact h.imp .inr id
  unfold copiesConflict at hro ⊢
  unfold mount
  simp only [hro, Bool.not_true, Bool.and_false, Bool.false_eq_true, false_and, if_false, mounted_mountEnds, mounted_tailGran]
  rfl

/-- A supported cartridge with three intact copies of equal cores, and no partition written last, is mounted with their index (R589, R590):
no new generation begins and no copy is written. -/
theorem mount_of_equal_cores {label : Label} {env : LoadEnv} {s : State} {core : IndexCore} (hl : label.lclass = 1)
    (ha : copyCore true (copiesOf s env).a = some core) (hb : copyCore true (copiesOf s env).b = some core)
    (hc : copyCore false (copiesOf s env).c = some core) (hsame : copiesConflict (copiesOf s env) = false)
    (hlast : core.lastP = 0xFF) :
    mount label false env s = (stSUCCESS, pcount core + 65536 * (core.gen.toNat % 2 ^ 48),
      mountEnds { s with cart := some (mountCart core label env (copiesOf s env) false false),
                         host.loadCopies := [(copiesOf s env).a, (copiesOf s env).b, (copiesOf s env).c].map copyImage }) := by
  obtain ⟨a, b, c, htop, hcore⟩ := topCopies_of_equal_cores ha hb hc
  have hlost : ∀ gran, tableLost (topCopies (copiesOf s env)) gran = false := by simp [htop, tableLost]
  have hhead : (topCopies (copiesOf s env)).head? = some ⟨true, a⟩ := by simp [htop]
  have hne : topCopies (copiesOf s env) ≠ [] := by simp [htop]
  unfold copiesConflict at hsame
  unfold mount
  simp [hsame, hl, hlost, hhead, hcore, hne, hlast, tailApply, tailGran, mountEnds, mountCart, loadResult, copyBad_of_copyCore ha,
    copyBad_of_copyCore hb, copyBad_of_copyCore hc, ha, b2n]

/-! ### LOAD -/

section Load
variable {s : State} {h : Nat} {c : Cmd} (env : LoadEnv) (hr : Ready s h 0x81 c) (hn : NoneAlike s c)
include hr hn

theorem load_of_loaded (hk : s.cart.isSome = true) : load h env s = done h stALREADY_LOADED 0 s := by
  rw [load, adminCmd_of_ready _ hr hn, if_pos hk]

theorem load_of_unreadable (hk : s.cart = none) (hl : env.label.bind readLabel = none) : load h env s = done h stLOAD_FAIL 0 s := by
  rw [load, adminCmd_of_ready _ hr hn]
  simp [hk, hl]

/-- LOAD of a cartridge whose label reads ends as the mount does. -/
theorem load_of_label {label : Label} (hk : s.cart = none) (hl : env.label.bind readLabel = some label) :
    load h env s = done h (mount label (csp c.e 0x20 1 % 2 = 1) env s).1 (mount label (csp c.e 0x20 1 % 2 = 1) env s).2.1
      (mount label (csp c.e 0x20 1 % 2 = 1) env s).2.2 := by
  rw [load, adminCmd_of_ready _ hr hn]
  simp [hk, hl]

/-- Where the cartridge can be read alone, LOAD ends with the status that says why, and mounts it read-only (R102, R117). -/
theorem load_of_readOnly {label : Label} (hk : s.cart = none) (hl : env.label.bind readLabel = some label)
    (hro : label.lclass ≠ 1 ∨ copiesConflict (copiesOf s env) = true) :
    ∃ res u k, load h env s = done h (mountStatus label (copiesOf s env)) res u ∧ u.cart = some k ∧ k.readOnly = true ∧
      k.label = some label ∧ k.conflict = copiesConflict (copiesOf s env) := by
  obtain ⟨k, hcart, hfields⟩ := Option.map_eq_some_iff.1 (mount_of_readOnly (csp c.e 0x20 1 % 2 = 1) hro)
  simp only [Prod.mk.injEq] at hfields
  exact ⟨_, _, k, by rw [load_of_label env hr hn hk hl, mount_status], hcart, hfields⟩

end Load

theorem exec_load (h : Nat) (env : LoadEnv) (s : State) : exec (.load h env) s = .next (load h env s) := rfl

/-- Settles O12: each clause is what one lemma above says of LOAD, of the copies on top, or of an intact copy. -/
theorem loadMountsTheIndex : Obligations.LoadMountsTheIndex := by
  refine ⟨fun s h c env hr hn => ?_, fun x => ⟨fun a ha y hy => gen_le_of_mem_topCopies ha hy, topCopies_ne_nil⟩,
    copyCore_eq_some_iff, fun table img => signed_and_digest_of_imageWhole⟩
  simp only [exec_load, Host.Outcome.next.injEq]
  refine ⟨load_of_loaded env hr hn, load_of_unreadable env hr hn, fun label hk hl => ⟨?same, fun hclass => ?otherClass, ?conflict⟩⟩
  case same =>
    intro core hclass ha hb hc hsame hlast hcsp
    have hro : decide (csp c.e 0x20 1 % 2 = 1) = false := by simp [hcsp]
    rw [load_of_label env hr hn hk hl, hro, mount_of_equal_cores hclass ha hb hc hsame hlast]
  case otherClass =>
    obtain ⟨res, u, k, hload, hcart, hro, hlabel, _⟩ := load_of_readOnly env hr hn hk hl (.inl hclass)
    have hst : mountStatus label (copiesOf s env) = stUNSUPPORTED_RO := if_pos hclass
    exact ⟨res, u, k, hst ▸ hload, hcart, hro, hlabel⟩
  case conflict =>
    intro a ha b hb hab hclass
    have hcon := copiesConflict_of_mem ha hb hab
    obtain ⟨res, u, k, hload, hcart, hro, _, hconflict⟩ := load_of_readOnly env hr hn hk hl (.inr hcon)
    have hst : mountStatus label (copiesOf s env) = stINDEX_CONFLICT := by simp [mountStatus, hclass, hcon]
    exact ⟨res, u, k, hst ▸ hload, hcart, hro, hconflict.trans hcon⟩

end Sys2Proof.Machine
end

section
/-! SUPPORT. What a frame tick leaves of the lane groups. -/

namespace Sys2Proof.Machine

/-! ### What a command leaves of the lane groups

Each operation that a frame tick runs has one lemma `lanes_f`: `f` leaves every lane group, but for the mark that the write gate sets
in all of them (R188). -/

/-- A lane group but for the mark that its slot has met WINH (R188). -/
def LaneGroup.unmarked (g : LaneGroup) : LaneGroup := { g with inh := false }

/-- The lane groups of a table, without their marks. -/
def lanesOf (m : Sparse LaneGroup) (k : Nat) : LaneGroup := (sget {} m k).unmarked

/-- The lane groups of a state, without their marks. -/
def lanes (s : State) : Nat → LaneGroup := lanesOf s.tim.lgs

@[simp] theorem lanes_mk (v rf clk pins host dma m net ts vlt rcd bas cart trk tim mot trc lat itg top p hwl out q) :
    lanes ⟨v, rf, clk, pins, host, dma, m, net, ts, vlt, rcd, bas, cart, trk, tim, mot, trc, lat, itg, top, p, hwl, out, q⟩ =
      lanesOf tim.lgs := (rfl)

@[simp] theorem lanesOf_lgs (s : State) : lanesOf s.tim.lgs = lanes s := (rfl)

/-- Marking what a slot has met leaves the groups (R188). -/
@[simp] theorem lanesOf_map_inh (m : Sparse LaneGroup) (b : Bool) :
    lanesOf (m.map fun x => (x.1, { x.2 with inh := b })) = lanesOf m := by
  funext k
  induction m with
  | nil => rfl
  | cons x r ih =>
    simp only [lanesOf, List.map_cons, sget] at ih ⊢
    (repeat' split)
    · rfl
    · rfl
    · exact ih

@[simp] theorem lanes_ite (c : Prop) [Decidable c] (a b : State) : lanes (if c then a else b) = if c then lanes a else lanes b :=
  apply_ite lanes c a b

@[simp] theorem lanes_foldl {α : Type} {f : State → α → State} (h : ∀ s a, lanes (f s a) = lanes s) (l : List α) (s : State) :
    lanes (l.foldl f s) = lanes s := by
  induction l generalizing s with
  | nil => rfl
  | cons x r ih => rw [List.foldl_cons, ih, h]

@[simp] theorem lanes_foldNat {α : Type} {f : State → α → State} (h : ∀ s a, lanes (f s a) = lanes s) (l : List α) (s : State) :
    lanes (foldNat f s l) = lanes s := by
  induction l generalizing s with
  | nil => rfl
  | cons x r ih => rw [foldNat, ih, h]

theorem lanes_foldl_pair {α β : Type} {f : β × State → α → β × State} (h : ∀ r a, lanes (f r a).2 = lanes r.2) (l : List α)
    (r : β × State) : lanes (l.foldl f r).2 = lanes r.2 := by
  induction l generalizing r with
  | nil => rfl
  | cons x l ih => rw [List.foldl_cons, ih, h]

/-! ### Registers, events and outputs -/

@[simp] theorem lanes_rset (s page off v) : lanes (rset s page off v) = lanes s := (rfl)
@[simp] theorem lanes_emit (o s) : lanes (emit o s) = lanes s := (rfl)
@[simp] theorem lanes_drive (f s) : lanes (drive f s) = lanes s := by simp [drive]
@[simp] theorem lanes_freeNext (s) : lanes (freeNext s) = lanes s := (rfl)
@[simp] theorem lanes_bump (page off n s) : lanes (bump page off n s) = lanes s := (rfl)
@[simp] theorem lanes_bump64 (page off n s) : lanes (bump64 page off n s) = lanes s := (rfl)
@[simp] theorem lanes_signal (f vec s) : lanes (signal f vec s) = lanes s := by simp [signal]

@[simp] theorem lanes_raise (page bitNo s) : lanes (raise page bitNo s) = lanes s := by
  obtain ⟨_, _, h⟩ := raise_frame page bitNo s
  rw [h]
  rfl

@[simp] theorem lanes_sendBlocks (lane head ps s) : lanes (sendBlocks lane head ps s) = lanes s := by simp [sendBlocks]

/-! ### Queues, packets and completions -/

@[simp] theorem lanes_setPair (f q p s) : lanes (setPair f q p s) = lanes s := (rfl)
@[simp] theorem lanes_winRefused (f a wr kind chan s) : lanes (winRefused f a wr kind chan s) = lanes s := by simp [winRefused]
@[simp] theorem lanes_haltPair (f q s) : lanes (haltPair f q s) = lanes s := by simp [haltPair]
@[simp] theorem lanes_winFaultPair (f q a wr kind s) : lanes (winFaultPair f q a wr kind s) = lanes s := by simp [winFaultPair]
@[simp] theorem lanes_setQp (q x s) : lanes (setQp q x s) = lanes s := (rfl)
@[simp] theorem lanes_setPort (p x s) : lanes (setPort p x s) = lanes s := (rfl)
@[simp] theorem lanes_sendPacket (k hp s) : lanes (sendPacket k hp s) = lanes s := by simp [sendPacket]
@[simp] theorem lanes_txFrame (q p s) : lanes (txFrame q p s) = lanes s := by simp [txFrame]
@[simp] theorem lanes_sendCapsule (q s) : lanes (sendCapsule q s) = lanes s := by simp [sendCapsule]
@[simp] theorem lanes_netPost (q c s) : lanes (netPost q c s) = lanes s := by simp [netPost]
@[simp] theorem lanes_modCmd (h f s) : lanes (modCmd h f s) = lanes s := (rfl)
@[simp] theorem lanes_dropCmd (h s) : lanes (dropCmd h s) = lanes s := (rfl)
@[simp] theorem lanes_logError (s c st res) : lanes (logError s c st res) = lanes s := by simp [logError]
@[simp] theorem lanes_signalPair (f q s) : lanes (signalPair f q s) = lanes s := by simp [signalPair]
@[simp] theorem lanes_postPcie (f q c st res s) : lanes (postPcie f q c st res s) = lanes s := by simp [postPcie]
@[simp] theorem lanes_postNet (q c st res s) : lanes (postNet q c st res s) = lanes s := by simp [postNet]
@[simp] theorem lanes_qpres (q busy code s) : lanes (qpres q busy code s) = lanes s := by simp [qpres]

@[simp] theorem lanes_drainCheck (src s) : lanes (drainCheck src s) = lanes s := by
  unfold drainCheck
  split <;> simp

@[simp] theorem lanes_postOne (c st res s) : lanes (postOne c st res s) = lanes s := by
  unfold postOne
  (repeat' split) <;> simp

@[simp] theorem lanes_postScan (l blk s) : lanes (postScan l blk s) = lanes s := by
  induction l generalizing blk s with
  | nil => rfl
  | cons c r ih =>
    unfold postScan
    split
    · exact ih _ _
    · split <;> simp [ih]

@[simp] theorem lanes_postReady (s) : lanes (postReady s) = lanes s := by simp [postReady]
@[simp] theorem lanes_decideCmd (h st res s) : lanes (decideCmd h st res s) = lanes s := by simp [decideCmd]
@[simp] theorem lanes_finish (h st res s) : lanes (finish h st res s) = lanes s := by simp [finish]

/-! ### Slots, fences and meters -/

@[simp] theorem lanes_setPart (p f s) : lanes (setPart p f s) = lanes s := by
  unfold setPart
  split <;> simp

@[simp] theorem lanes_setSlot (i x s) : lanes (setSlot i x s) = lanes s := (rfl)
@[simp] theorem lanes_setQuota (p v s) : lanes (setQuota p v s) = lanes s := by simp [setQuota]

@[simp] theorem lanes_quotaCut (s) : lanes (quotaCut s) = lanes s := by
  unfold quotaCut
  (repeat' split) <;> simp

@[simp] theorem lanes_retireNow (i s) : lanes (retireNow i s) = lanes s := by simp [retireNow]
@[simp] theorem lanes_freeSlot (i s) : lanes (freeSlot i s) = lanes s := by simp [freeSlot]
@[simp] theorem lanes_freeSlots (p s) : lanes (freeSlots p s) = lanes s := by simp [freeSlots]
@[simp] theorem lanes_noteFence (code cause s) : lanes (noteFence code cause s) = lanes s := by simp [noteFence]
@[simp] theorem lanes_markFence (code cause s) : lanes (markFence code cause s) = lanes s := by simp [markFence]
@[simp] theorem lanes_meter (p f s) : lanes (meter p f s) = lanes s := by simp [meter]

@[simp] theorem lanes_meterPart (part f s) : lanes (meterPart part f s) = lanes s := by
  unfold meterPart
  split <;> simp

@[simp] theorem lanes_meterCmds (before s) : lanes (meterCmds before s) = lanes s := by simp [meterCmds]

@[simp] theorem lanes_metered {f : State → State} (hf : ∀ u, lanes (f u) = lanes u) (s) : lanes (metered f s) = lanes s := by
  simp [metered, hf]

@[simp] theorem lanes_done (h st res s) : lanes (done h st res s) = lanes s := by simp [done]

/-! ### Moves, generations and the write gate -/

@[simp] theorem lanes_planTo (target s) : lanes (planTo target s) = lanes s := (rfl)
@[simp] theorem lanes_abortMove (s) : lanes (abortMove s) = lanes s := by simp [abortMove]
@[simp] theorem lanes_restMove (s) : lanes (restMove s) = lanes s := by simp [restMove]

@[simp] theorem lanes_newGenAs (f s) : lanes (newGenAs f s) = lanes s := by
  unfold newGenAs
  split <;> simp

@[simp] theorem lanes_newGen (s) : lanes (newGen s) = lanes s := by simp [newGen]

@[simp] theorem lanes_writeCopyA (unl s) : lanes (writeCopyA unl s) = lanes s := by
  unfold writeCopyA
  split <;> simp

@[simp] theorem lanes_hkSettle (s) : lanes (hkSettle s) = lanes s := by
  unfold hkSettle
  (repeat' split) <;> simp

@[simp] theorem lanes_dismount (s) : lanes (dismount s) = lanes s := by simp [dismount]

@[simp] theorem lanes_unloadCheck (s) : lanes (unloadCheck s) = lanes s := by
  unfold unloadCheck
  (repeat' split) <;> simp

@[simp] theorem lanes_traceEvent (src s) : lanes (traceEvent src s) = lanes s := by
  obtain ⟨_, _, _, h⟩ := traceEvent_frame src s
  rw [h]
  rfl

/-- The write gate only notes that WINH is asserted (R188). -/
@[simp] theorem lanes_setGate (i on s) : lanes (setGate i on s) = lanes s := by simp [setGate]

/-! ### Passes and verdicts -/

@[simp] theorem lanes_setCh (c x s) : lanes (setCh c x s) = lanes s := (rfl)
@[simp] theorem lanes_modPass (f s) : lanes (modPass f s) = lanes s := (rfl)
@[simp] theorem lanes_passCount (key n s) : lanes (passCount key n s) = lanes s := by simp [passCount]
@[simp] theorem lanes_wlkCount (off key s) : lanes (wlkCount off key s) = lanes s := by simp [wlkCount]

@[simp] theorem lanes_setAppend (part p s) : lanes (setAppend part p s) = lanes s := by
  unfold setAppend
  (repeat' split) <;> simp

@[simp] theorem lanes_recordQuality (p cause s) : lanes (recordQuality p cause s) = lanes s := by
  unfold recordQuality
  split <;> simp

@[simp] theorem lanes_closePass (p cause s) : lanes (closePass p cause s) = lanes s := by simp [closePass]

@[simp] theorem lanes_backAppend (p s) : lanes (backAppend p s) = lanes s := by
  unfold backAppend
  dsimp only
  (repeat' split) <;> simp

@[simp] theorem lanes_endPass (cause s) : lanes (endPass cause s) = lanes s := by
  unfold endPass
  (repeat' split) <;> simp

@[simp] theorem lanes_requestEnd (cause s) : lanes (requestEnd cause s) = lanes s := by simp [requestEnd]

@[simp] theorem lanes_releaseSlot (part i s) : lanes (releaseSlot part i s) = lanes s := by
  unfold releaseSlot
  dsimp only
  (repeat' split) <;> simp

@[simp] theorem lanes_releaseSlots (part n s) : lanes (releaseSlots part n s) = lanes s := by
  induction n generalizing s with
  | zero => rfl
  | succ n ih =>
    unfold releaseSlots
    dsimp only
    (repeat' split) <;> simp [ih]

@[simp] theorem lanes_degradeChan (i c s) : lanes (degradeChan i c s) = lanes s := by
  unfold degradeChan
  split <;> simp

@[simp] theorem lanes_retryInst (i cause chans s) : lanes (retryInst i cause chans s) = lanes s := by
  unfold retryInst
  split <;> simp

@[simp] theorem lanes_judgeInst (dsn pos s) : lanes (judgeInst dsn pos s) = lanes s := by
  unfold judgeInst
  dsimp only
  (repeat' split) <;> simp

@[simp] theorem lanes_notePassed (s) : lanes (notePassed s) = lanes s := by
  unfold notePassed
  split <;> simp

@[simp] theorem lanes_judge (s) : lanes (judge s) = lanes s := by
  unfold judge
  split <;> simp

@[simp] theorem lanes_modInst (p f s) : lanes (modInst p f s) = lanes s := by
  unfold modInst
  (repeat' split) <;> simp

@[simp] theorem lanes_noteVerdict (ph r m s) : lanes (noteVerdict ph r m s) = lanes s := by simp [noteVerdict]

@[simp] theorem lanes_lateVerdict (c r s) : lanes (lateVerdict c r s) = lanes s := by
  unfold lateVerdict
  split <;> simp

@[simp] theorem lanes_keepVerdict (i c slot r s) : lanes (keepVerdict i c slot r s) = lanes s := by
  unfold keepVerdict
  (repeat' split) <;> simp

@[simp] theorem lanes_hkVerdict (i c slot r s) : lanes (hkVerdict i c slot r s) = lanes s := by simp [hkVerdict]
@[simp] theorem lanes_issueVerdict (i c slot r m s) : lanes (issueVerdict i c slot r m s) = lanes s := by simp [issueVerdict]

/-! ### Tiles and detours -/

@[simp] theorem lanes_mceStops (endCause s) : lanes (mceStops endCause s) = lanes s := by simp [mceStops]
@[simp] theorem lanes_govEnter (cause s) : lanes (govEnter cause s) = lanes s := by simp [govEnter]
@[simp] theorem lanes_fenceMce (s) : lanes (fenceMce s) = lanes s := by simp [fenceMce]
@[simp] theorem lanes_setTile (t x s) : lanes (setTile t x s) = lanes s := (rfl)
@[simp] theorem lanes_stageBank (t b s) : lanes (stageBank t b s) = lanes s := by simp [stageBank]

@[simp] theorem lanes_stageBanks (img s) : lanes (stageBanks img s) = lanes s := by
  obtain ⟨l, h⟩ := stageBanks_frame img s
  rw [h]
  rfl

@[simp] theorem lanes_schedComplete (img waiting s) : lanes (schedComplete img waiting s) = lanes s := by
  unfold schedComplete
  split <;> simp

@[simp] theorem lanes_requestSwitch (s) : lanes (requestSwitch s) = lanes s := by
  unfold requestSwitch
  dsimp only
  split <;> simp

@[simp] theorem lanes_stageImage (s) : lanes (stageImage s) = lanes s := by
  unfold stageImage
  split <;> simp

@[simp] theorem lanes_rejectLoad (code tile s) : lanes (rejectLoad code tile s) = lanes s := by
  unfold rejectLoad
  dsimp only
  split <;> simp

@[simp] theorem lanes_failInst (chans i s) : lanes (failInst chans i s) = lanes s := by
  refine (lanes_modInst _ _ _).trans (lanes_foldl (fun s k => ?_) _ _)
  split <;> simp

@[simp] theorem lanes_failUnverified (chans s) : lanes (failUnverified chans s) = lanes s := by simp [failUnverified]

@[simp] theorem lanes_noDetour (role s) : lanes (noDetour role s) = lanes s := by
  unfold noDetour
  dsimp only
  (repeat' split) <;> simp

@[simp] theorem lanes_stageDetour (t s) : lanes (stageDetour t s) = lanes s := by
  unfold stageDetour
  split <;> simp

@[simp] theorem lanes_restageImage (t s) : lanes (restageImage t s) = lanes s := by simp [restageImage]

@[simp] theorem lanes_fenceTile (t reason s) : lanes (fenceTile t reason s) = lanes s := by
  unfold fenceTile
  extract_lets x s1 lat s2 s3 s4 lat' s5 s6
  have h4 : lanes s4 = lanes s := by simp [s4, s3, s2, s1]
  have h5 : lanes s5 = lanes s := by
    simp only [s5]
    (repeat' split) <;> simp [h4]
  split
  · rfl
  · simp [s6, h5]

@[simp] theorem lanes_regenNext (s) : lanes (regenNext s) = lanes s := (rfl)

@[simp] theorem lanes_regenTick (s) : lanes (regenTick s) = lanes s := by
  unfold regenTick
  split <;> simp

@[simp] theorem lanes_landFlights (d upto s) : lanes (landFlights d upto s) = lanes s := by
  obtain ⟨l, h⟩ := landFlights_frame d upto s
  rw [h]
  rfl

@[simp] theorem lanes_startDomain (d at_ switch word s) : lanes (startDomain d at_ switch word s) = lanes s := by simp [startDomain]

@[simp] theorem lanes_runAct (ds r a) : lanes (runAct ds r a).2 = lanes r.2 := by
  obtain ⟨l, h⟩ := runAct_frame ds r a
  rw [h]
  rfl

@[simp] theorem lanes_queueFlow (f s) : lanes (queueFlow f s) = lanes s := by
  obtain ⟨l, rf, out, h⟩ := queueFlow_frame f s
  rw [h]
  rfl

@[simp] theorem lanes_runProgs (ds prog s) : lanes (runProgs ds prog s) = lanes s := by
  have h := lanes_foldl_pair (lanes_runAct ds) prog.acts ([], prog.flows.foldl (fun s f => queueFlow f s) s)
  unfold runProgs
  dsimp only
  simpa using h

/-! ### Slots of a tick -/

@[simp] theorem lanes_countClips (c codes s) : lanes (countClips c codes s) = lanes s := by simp [countClips]
@[simp] theorem lanes_idleClips (rev x s) : lanes (idleClips rev x s) = lanes s := by simp [idleClips]

@[simp] theorem lanes_chanSlot (rev tone x s) : lanes (chanSlot rev tone x s) = lanes s := by
  unfold chanSlot
  extract_lets c codes s1
  have h1 : lanes s1 = lanes s := lanes_countClips _ _ s
  clear_value s1
  split
  · exact h1
  · extract_lets h ch rx s2 clk s3 s4 trk s5
    have h3 : lanes s3 = lanes s := by simp [s3, s2, h1]
    have h4 : lanes s4 = lanes s := by simp [s4, h3]
    have h5 : lanes s5 = lanes s := by
      simp only [s5]
      split <;> simp [h4]
    clear_value rx s5
    (repeat' split) <;> simp [h4, h5]

@[simp] theorem lanes_tickDomains (k rev idle pos obs s) : lanes (tickDomains k rev idle pos obs s) = lanes s := by
  simp [tickDomains]

@[simp] theorem lanes_finalRewrites (q s) : lanes (finalRewrites q s) = lanes s := by
  unfold finalRewrites
  dsimp only
  (repeat' split) <;> simp

@[simp] theorem lanes_sendData (rev lane bits s) : lanes (sendData rev lane bits s) = lanes s := by simp [sendData]

@[simp] theorem lanes_sendSlots (k rev tone s) : lanes (sendSlots k rev tone s) = lanes s := by
  unfold sendSlots
  split
  · rfl
  · dsimp only
    split
    · rfl
    · simp only [lanes_mk, lanesOf_lgs, lanes_bump64, lanes_sendData]
      refine lanes_foldl (fun u c => ?_) _ _
      split <;> simp

@[simp] theorem lanes_mirrorOut (k s) : lanes (mirrorOut k s) = lanes s := (rfl)
@[simp] theorem lanes_slipsOver (k s) : lanes (slipsOver k s) = lanes s := (rfl)
@[simp] theorem lanes_endWriting (k rev was tone s) : lanes (endWriting k rev was tone s) = lanes s := by simp [endWriting]

end Sys2Proof.Machine
end

section
/-! SUPPORT. What the read channel's own rows and a frame tick do, and the statement on them (O41). -/

namespace Sys2Proof.Machine

/-! ### The read channel's own rows -/

/-- A counter that is counted holds what it held and what is added, as far as it goes (R172). -/
theorem count_bump_self (page off : Nat) {n : Nat} (hn : 0 < n) (s : State) :
    count (bump page off n s) page off = min (count s page off + n) 0xFFFFFFFF :=
  sget_sset_eq _ _ _ _ (by dsimp only; omega)

theorem count_bump_other {page off q o n : Nat} (hn : 0 < n) (h : rkey q o ≠ rkey page off) (s : State) :
    count (bump page off n s) q o = count s q o :=
  sget_sset_ne _ _ _ _ _ (by dsimp only; omega) h

/-- An event counts at most what the log has dropped (R558). -/
theorem count_raise {q o : Nat} (h : rkey q o ≠ rkey pgMEM 0xA24) (page b : Nat) (s : State) :
    count (raise page b s) q o = count s q o := by
  have hnew : ∀ p b seq u, count (logEv.logNew p b seq u) q o = count u q o := by
    intro p b seq u
    unfold logEv.logNew
    dsimp only
    split
    · rfl
    · exact count_bump_other (by decide) h _
  have hlog : ∀ p b seq u, count (logEv p b seq u) q o = count u q o := by
    intro p b seq u
    unfold logEv
    split
    · split
      · rfl
      · exact hnew ..
    · exact hnew ..
  simp only [raise, count, msixOnRise_rf]
  exact hlog ..

theorem chOf_setCh_self {x : Chan} (h : x ≠ {}) (c : Nat) (s : State) : chOf (setCh c x s) c = x :=
  sget_sset_eq _ _ _ _ h

/-- A channel whose run of flywheel slots is long enough loses its sync, and the pass takes note of it (R162). -/
theorem syncLost_of_run {c : Fin 256} {s : State} (hc : c.val < channels s.variant) (hs : (chOf s c.val).syncLost = false)
    (hlim : tapeFld s (pgRCH c.val) 0x114 15 12 ≤ (chOf s c.val).flyRun) (hrun : (chOf s c.val).flyRun ≠ 0) :
    ∃ trk, syncLost c s = raise (pgCST (c.val / 32)) 6 (bump (pgRCH c.val) 0xA1C 1
      { setCh c.val { chOf s c.val with syncLost := true, erase := true } s with trk := trk }) := by
  have hgo : ¬ (channels s.variant ≤ c.val ∨ (chOf s c.val).syncLost = true ∨
      (chOf s c.val).flyRun < tapeFld s (pgRCH c.val) 0x114 15 12 ∨ (chOf s c.val).flyRun = 0) := by
    simp only [hs, Bool.false_eq_true, false_or]
    omega
  simp only [syncLost, if_neg hgo]
  split
  · split <;> exact ⟨_, rfl⟩
  · exact ⟨s.trk, rfl⟩

theorem syncLost_effect {c : Fin 256} {s : State} (hc : c.val < channels s.variant) (hs : (chOf s c.val).syncLost = false)
    (hlim : tapeFld s (pgRCH c.val) 0x114 15 12 ≤ (chOf s c.val).flyRun) (hrun : (chOf s c.val).flyRun ≠ 0) :
    chOf (syncLost c s) c.val = { chOf s c.val with syncLost := true, erase := true } ∧
      evPending (syncLost c s) (pgCST (c.val / 32)) 6 = true ∧
      count (syncLost c s) (pgRCH c.val) 0xA1C = min (count s (pgRCH c.val) 0xA1C + 1) 0xFFFFFFFF := by
  obtain ⟨trk, h⟩ := syncLost_of_run hc hs hlim hrun
  have hne : ({ chOf s c.val with syncLost := true, erase := true } : Chan) ≠ {} := fun h => by simpa using congrArg Chan.syncLost h
  rw [h]
  refine ⟨?_, evPending_raise_self _ 6 (by decide) _, ?_⟩
  · simp only [chOf, raise_tim, bump_tim]
    exact chOf_setCh_self hne c.val s
  · rw [count_raise (by simp only [rkey, pgRCH, pgMEM]; omega), count_bump_self _ _ (by decide)]
    rfl

/-- Enough placement errors end their count, and trim the write skew where their mean is too large (R138). -/
theorem wskewTrim_of_enough {c : Fin 256} {s : State} (h : 64 ≤ (chOf s c.val).errN) :
    wskewTrim c s = setCh c.val { chOf s c.val with errSum := 0, errN := 0, trim := (chOf s c.val).trim +
      (if tapeBit s (pgCST (c.val / 32)) 0x10C 8 = true ∧ 128 * (chOf s c.val).errN < (chOf s c.val).errSum.natAbs then
        (if 0 < (chOf s c.val).errSum then 64 else -64) else 0) } s :=
  if_neg (by omega)

/-- One unit in the direction of a number. -/
theorem unit_toward (x st : Int) : (if 0 < st then x + 1 else if st < 0 then x - 1 else x) = x + st.sign := by
  rcases lt_trichotomy st 0 with h | rfl | h
  · rw [if_neg (by omega), if_pos h, Int.sign_eq_neg_one_of_neg h]; rfl
  · simp
  · rw [if_pos h, Int.sign_eq_one_of_pos h]

section Lms
variable {c : Fin 256} {s : State} (hon : lmsOn s c.val = true)
include hon

/-- A delta whose codewords are enough moves as its statistics show (R153). -/
theorem lmsDeltaStep_gain (h : 2 ^ tapeFld s (pgRCH c.val) 0x108 3 0 ≤ (chOf s c.val).nG) :
    lmsDeltaStep c .gain s = setCh c.val { chOf s c.val with
      dg := clampInt (-64) 64 ((chOf s c.val).dg + (chOf s c.val).stG.sign), nG := 0, stG := 0 } s := by
  simp [lmsDeltaStep, hon, Nat.not_lt.2 h, unit_toward]

theorem lmsDeltaStep_offset (h : 2 ^ tapeFld s (pgRCH c.val) 0x108 7 4 ≤ (chOf s c.val).nO) :
    lmsDeltaStep c .offset s = setCh c.val { chOf s c.val with
      dOff := clampInt (-32) 32 ((chOf s c.val).dOff + (chOf s c.val).stO.sign), nO := 0, stO := 0 } s := by
  simp [lmsDeltaStep, hon, Nat.not_lt.2 h, unit_toward]

theorem lmsDeltaStep_asym (h : 2 ^ tapeFld s (pgRCH c.val) 0x108 11 8 ≤ (chOf s c.val).nA) :
    lmsDeltaStep c .asym s = setCh c.val { chOf s c.val with
      da := clampInt (-32) 32 ((chOf s c.val).da + (chOf s c.val).stA.sign), nA := 0, stA := 0 } s := by
  simp [lmsDeltaStep, hon, Nat.not_lt.2 h, unit_toward]

end Lms

/-! ### The frame tick -/

/-- Groups alike but for the mark have the same state, tick count, slot, tone and frequency. -/
theorem LaneGroup.fields_of_unmarked {g g' : LaneGroup} (h : g.unmarked = g'.unmarked) :
    g.st = g'.st ∧ g.seq = g'.seq ∧ g.slot = g'.slot ∧ g.tone = g'.tone ∧ g.freq = g'.freq := by
  simp only [LaneGroup.unmarked, LaneGroup.mk.injEq] at h
  simp only [h, and_self]

/-- A lane group that is not as reset reads back, on any table. -/
theorem lanes_setLg_of_ne {g : LaneGroup} (h : g ≠ {}) (k : Nat) (s : State) :
    lanes (setLg k g s) = Function.update (lanes s) k g.unmarked := by
  funext j
  rcases eq_or_ne j k with rfl | hj
  · rw [Function.update_self]
    exact congrArg LaneGroup.unmarked (sget_sset_eq _ _ _ _ h)
  · rw [Function.update_of_ne hj]
    exact congrArg LaneGroup.unmarked (sget_sset_ne _ _ _ _ _ h hj)

/-- On a canonical table every one does. -/
theorem lanes_setLg_of_swf {s : State} (h : swf (fun _ => {}) s.tim.lgs = true) (k : Nat) (g : LaneGroup) :
    lanes (setLg k g s) = Function.update (lanes s) k g.unmarked := by
  funext j
  rcases eq_or_ne j k with rfl | hj
  · rw [Function.update_self]
    exact congrArg LaneGroup.unmarked (sget_sset_self (fun _ => {}) h j g)
  · rw [Function.update_of_ne hj]
    exact congrArg LaneGroup.unmarked (sget_sset_other (fun _ => ({} : LaneGroup)) h k j g hj {})

/-- A group that reads and writes is marked anew with its slot, and stays as it is (R188). -/
theorem lanes_markInh {k : Nat} {s : State} (h : (lgOf s k).st.usable = true) (rev : Bool) (tone : Int) :
    lanes (markInh k rev tone s) = lanes s := by
  unfold markInh
  dsimp only
  generalize hu : (if !(lgOf s k).inh then s else _) = u
  have hsame : lanes u = lanes s := by
    rw [← hu]
    split
    · rfl
    · split <;> simp
  have hst : (lgOf u k).st = (lgOf s k).st := (LaneGroup.fields_of_unmarked (congrFun hsame k)).1
  have hne : ({ lgOf u k with inh := u.pins.winh } : LaneGroup) ≠ {} := fun heq => by
    have hstop : (lgOf u k).st = .stopped := congrArg LaneGroup.st heq
    rw [hst] at hstop
    simp [hstop, LgState.usable] at h
  rw [lanes_setLg_of_ne hne]
  exact (Function.update_eq_self k (lanes u)).trans hsame

theorem lanes_tickTape {k : Fin 8} {s : State} (h : (lgOf s k.val).st.usable = true) (rev : Bool) (was : Int) (obs : TickObs) :
    lanes (tickTape k rev was obs s) = lanes s := by
  unfold tickTape
  dsimp only
  split <;> simp [lanes_markInh h]

/-- Register writes through the mirrors reach channels alone (R142). -/
theorem mirrorIn_frame (k : Nat) (s : State) : ∃ chs old, mirrorIn k s = { s with tim.chs := chs, tim.old := old } := by
  unfold mirrorIn
  extract_lets mine load due
  have hload : ∀ (l : List (Nat × Option Word)) (u : State), ∃ chs, l.foldl load u = { u with tim.chs := chs } := by
    intro l
    induction l with
    | nil => exact fun u => ⟨u.tim.chs, rfl⟩
    | cons x r ih =>
      intro u
      obtain ⟨chs, h⟩ := ih (load u x)
      obtain ⟨chs', h'⟩ : ∃ chs', load u x = { u with tim.chs := chs' } := by
        simp only [load]
        (repeat' split)
        · exact ⟨u.tim.chs, rfl⟩
        · exact ⟨_, rfl⟩
        · exact ⟨_, rfl⟩
        · exact ⟨u.tim.chs, rfl⟩
      exact ⟨chs, by rw [List.foldl_cons, h, h']⟩
  obtain ⟨chs, h⟩ := hload due { s with tim.old := s.tim.old.filter (fun x => !mine x) }
  exact ⟨chs, _, h⟩

@[simp] theorem mirrorIn_lgs (k : Nat) (s : State) : (mirrorIn k s).tim.lgs = s.tim.lgs := by
  obtain ⟨_, _, h⟩ := mirrorIn_frame k s; rw [h]
theorem lanes_mirrorIn (k : Nat) (s : State) : lanes (mirrorIn k s) = lanes s := congrArg lanesOf (mirrorIn_lgs k s)
@[simp] theorem travelRev_mirrorIn (k : Nat) (s : State) : travelRev (mirrorIn k s) = travelRev s := by
  obtain ⟨_, _, h⟩ := mirrorIn_frame k s; rw [h]; rfl
@[simp] theorem lgOf_mirrorIn (k j : Nat) (s : State) : lgOf (mirrorIn k s) j = lgOf s j := by simp only [lgOf, mirrorIn_lgs]
@[simp] theorem tickTone_mirrorIn (k j : Nat) (rev : Bool) (s : State) : tickTone (mirrorIn k s) j rev = tickTone s j rev := by
  simp only [tickTone, lgOf_mirrorIn]

section TickGroup
variable (k : Nat) (rev : Bool) (period : Nat) (s : State)

theorem tickGroup_seq : (tickGroup k rev period s).seq = (lgOf s k).seq + 1 := rfl
theorem tickGroup_st : (tickGroup k rev period s).st = (lgOf s k).st := rfl

/-- A group that may read and write goes on to its tone's next slot start (R275); an idle one keeps its tone (R276). -/
theorem tickGroup_tone :
    (tickGroup k rev period s).tone = if (lgOf s k).st.usable then tickTone s k rev else (lgOf s k).tone := by
  cases h : (lgOf s k).st.usable <;> simp [tickGroup, h]

theorem tickGroup_slot : (tickGroup k rev period s).slot =
    if (lgOf s k).st.usable then slotIndex rev (tickGroup k rev period s).tone else ((lgOf s k).slot + 1) % 68 := by
  cases h : (lgOf s k).st.usable <;> simp [tickGroup, h]

/-- A group on its own tone has its frequency (R120, R126). -/
theorem tickGroup_freq (h : (lgOf s k).st = .acquire ∨ (lgOf s k).st = .locked ∨ (lgOf s k).st = .framed) :
    (tickGroup k rev period s).freq = meanFreq [period] := by
  rcases h with h | h | h <;> simp [tickGroup, tickFreq, h]

end TickGroup

/-- A tick takes its own group on, and leaves every group otherwise as it stands (R275 to R277). -/
theorem lanes_slotTick {k : Fin 8} {s : State} (hk : k.val < laneGroups s.variant) (hwf : swf (fun _ => {}) s.tim.lgs = true)
    (obs : TickObs) :
    lanes (slotTick k obs s) = Function.update (lanes s) k.val
      (tickGroup k.val (travelRev s) obs.period (mirrorIn k.val s)).unmarked := by
  have hset : lanes (setLg k.val (tickGroup k.val (travelRev s) obs.period (mirrorIn k.val s)) (mirrorIn k.val s)) =
      Function.update (lanes s) k.val (tickGroup k.val (travelRev s) obs.period (mirrorIn k.val s)).unmarked := by
    rw [lanes_setLg_of_swf (by rw [mirrorIn_lgs]; exact hwf), lanes_mirrorIn]
  unfold slotTick
  rw [if_neg (by omega)]
  dsimp only
  rw [lanes_mirrorOut, lanes_slipsOver, travelRev_mirrorIn, lgOf_mirrorIn]
  generalize hv : tickDomains _ _ _ _ _ _ = v
  have hlanes := (congrArg lanes hv).symm.trans ((lanes_tickDomains ..).trans hset)
  cases hu : (lgOf s k.val).st.usable with
  | false => simpa using hlanes
  | true =>
    have hown : (lgOf v k.val).unmarked = (tickGroup k.val (travelRev s) obs.period (mirrorIn k.val s)).unmarked :=
      (congrFun hlanes k.val).trans (Function.update_self ..)
    have hst : (lgOf v k.val).st = (lgOf s k.val).st := by
      rw [(LaneGroup.fields_of_unmarked hown).1, tickGroup_st, lgOf_mirrorIn]
    rw [if_neg (by simp), lanes_tickTape (by rw [hst]; exact hu), hlanes]

/-! ### The statement -/

theorem exec_syncLost (c : Fin 256) (s : State) : exec (.syncLost c) s = .next (syncLost c s) := rfl
theorem exec_wskewTrim (c : Fin 256) (s : State) : exec (.wskewTrim c) s = .next (wskewTrim c s) := rfl
theorem exec_lmsDeltaStep (c : Fin 256) (kind : LmsKind) (s : State) : exec (.lmsDeltaStep c kind) s = .next (lmsDeltaStep c kind s) := rfl
theorem exec_slotTick (k : Fin 8) (obs : TickObs) (s : State) : exec (.slotTick k obs) s = .next (slotTick k obs s) := rfl

/-- Settles O41: each clause is what one lemma above says of its command. -/
theorem channelsTrackTheirSignals : Obligations.ChannelsTrackTheirSignals := by
  simp only [Obligations.ChannelsTrackTheirSignals, exec_syncLost, exec_wskewTrim, exec_lmsDeltaStep, exec_slotTick,
    Host.Outcome.next.injEq, exists_eq_left']
  refine ⟨fun s c => ⟨fun hc hs hlim hrun => ?sync, wskewTrim_of_enough,
    fun hon => ⟨lmsDeltaStep_gain hon, lmsDeltaStep_offset hon, lmsDeltaStep_asym hon⟩⟩, fun s k obs hk hwf => ?tick⟩
  case sync =>
    obtain ⟨hch, hev, hcount⟩ := syncLost_effect hc hs hlim hrun
    exact ⟨by rw [hch], by rw [hch], hev, hcount⟩
  case tick =>
    have hlanes := lanes_slotTick hk hwf obs
    have hown : (lgOf (slotTick k obs s) k.val).unmarked = (tickGroup k.val (travelRev s) obs.period (mirrorIn k.val s)).unmarked :=
      (congrFun hlanes k.val).trans (Function.update_self ..)
    obtain ⟨hst, hseq, hslot, htone, hfreq⟩ := LaneGroup.fields_of_unmarked hown
    rw [tickGroup_st, lgOf_mirrorIn] at hst
    rw [tickGroup_seq, lgOf_mirrorIn] at hseq
    rw [tickGroup_tone, lgOf_mirrorIn, tickTone_mirrorIn] at htone
    rw [tickGroup_slot, tickGroup_tone, lgOf_mirrorIn, tickTone_mirrorIn] at hslot
    exact ⟨hseq, hst, htone, hslot, fun hacq => hfreq.trans (tickGroup_freq _ _ _ _ (by rwa [lgOf_mirrorIn])),
      fun j hj => LaneGroup.fields_of_unmarked ((congrFun hlanes j).trans (Function.update_of_ne hj ..))⟩

end Sys2Proof.Machine
end

section
/-! SUPPORT. What the rows of the lane groups do, and the statement on them (O37). -/

namespace Sys2Proof.Machine

/-! ### The table of lane groups -/

/-- The table of the lane groups is canonical: it lists no group that is as reset. -/
def LanesOk (s : State) : Prop := swf (fun _ => ({} : LaneGroup)) s.tim.lgs = true

theorem lanesOk_setLg {s : State} (h : LanesOk s) (k : Nat) (g : LaneGroup) : LanesOk (setLg k g s) :=
  swf_sset (fun _ => ({} : LaneGroup)) h k g

theorem lgOf_setLg {s : State} (h : LanesOk s) (k j : Nat) (g : LaneGroup) :
    lgOf (setLg k g s) j = if j = k then g else lgOf s j := by
  split
  next hj => subst hj; exact sget_sset_self (fun _ => ({} : LaneGroup)) h j g
  next hj => exact sget_sset_other (fun _ => ({} : LaneGroup)) h k j g hj {}

@[simp] theorem lgOf_raise (p b : Nat) (s : State) (j : Nat) : lgOf (raise p b s) j = lgOf s j := by simp [lgOf]
@[simp] theorem lgOf_bump (p o n : Nat) (s : State) (j : Nat) : lgOf (bump p o n s) j = lgOf s j := rfl
@[simp] theorem lgOf_requestEnd (c : Nat) (s : State) (j : Nat) : lgOf (requestEnd c s) j = lgOf s j := rfl

@[simp] theorem lgOf_markFence (code cause : Nat) (s : State) (j : Nat) : lgOf (markFence code cause s) j = lgOf s j := by
  obtain ⟨_, _, _, h⟩ := markFence_frame code cause s; rw [h]; rfl

@[simp] theorem lanesOk_bump (p o n : Nat) (s : State) : LanesOk (bump p o n s) ↔ LanesOk s := Iff.rfl

@[simp] theorem lanesOk_raise (p b : Nat) (s : State) : LanesOk (raise p b s) ↔ LanesOk s := by simp [LanesOk]

/-! ### Counters, events and fences -/

@[simp] theorem count_setLg (k : Nat) (g : LaneGroup) (s : State) (p o : Nat) : count (setLg k g s) p o = count s p o := rfl
@[simp] theorem evPending_setLg (k : Nat) (g : LaneGroup) (s : State) (p b : Nat) :
    evPending (setLg k g s) p b = evPending s p b := rfl
@[simp] theorem evPending_requestEnd (c : Nat) (s : State) (p b : Nat) : evPending (requestEnd c s) p b = evPending s p b := rfl

/-- A fence leaves what is pending pending. -/
theorem evPending_markFence_keep {s : State} {p b : Nat} (h : evPending s p b = true) (code cause : Nat) :
    evPending (markFence code cause s) p b = true :=
  evPending_raise_keep _ 0 p b (by decide) _ h

/-- A unit is fenced once it is marked with a cause. -/
theorem isFenced_markFence {cause : Nat} (h : cause ≠ 0) (code : Nat) (s : State) :
    isFenced (markFence code cause s) code = true := by
  have hcause : fenceCause (markFence code cause s) code = cause := by
    simp only [fenceCause, markFence, noteFence, raise_itg, bump_itg, rset_itg]
    exact sget_sset_eq _ _ _ _ h
  simp [isFenced, hcause, h]

/-- What the tape side has of a register is no event's to change. -/
@[simp] theorem tapeBit_raise (p b : Nat) (s : State) (page off i : Nat) :
    tapeBit (raise p b s) page off i = tapeBit s page off i := by
  simp [tapeBit, tapeReg]

@[simp] theorem qualifies_raise (p b : Nat) (s : State) (k src : Nat) : qualifies (raise p b s) k src = qualifies s k src := by
  simp [qualifies]

/-! ### A group that changes state -/

/-- What a group is on entering a state: its holdover count is 0, and neither a disagreement nor a word is remembered. -/
def LaneGroup.entered (g : LaneGroup) (st : LgState) : LaneGroup :=
  { g with st := st, holdCnt := 0, toneDis := none, prevOk := false }

section Changes
variable {k : Nat} {s : State}

theorem lgGo_of_not_framed (h : (lgOf s k).st ≠ .framed) (st : LgState) : lgGo k st s = lgChange k st s := by
  simp [lgGo, h]

theorem lgGo_locked_of_acquire (h : (lgOf s k).st = .acquire) :
    lgGo k .locked s = setLg k ((lgOf s k).entered .locked) s := by
  rw [lgGo_of_not_framed (by simp [h])]
  simp [lgChange, h, LaneGroup.entered]

theorem lgGo_lost_of_holdover (h : (lgOf s k).st = .holdover) :
    lgGo k .lost s = raise (pgCST k) 3 (setLg k ((lgOf s k).entered .lost) s) := by
  rw [lgGo_of_not_framed (by simp [h])]
  simp [lgChange, h, LaneGroup.entered]

theorem lgGo_reassigned_of_holdover (h : (lgOf s k).st = .holdover) :
    lgGo k .reassigned s = raise (pgCST k) 2 (bump (pgCST k) 0xA0C 1 (setLg k ((lgOf s k).entered .reassigned) s)) := by
  rw [lgGo_of_not_framed (by simp [h])]
  simp [lgChange, h, LaneGroup.entered]

/-- Leaving FRAMED drops the offsets measured against the group, and counts an exit and the entry (R127, R130). -/
theorem lgChange_holdover_of_framed (h : (lgOf s k).st = .framed) :
    lgChange k .holdover s = bump (pgCST k) 0xA04 1 (setLg k
      ((lgOf (skewInvalid k (bump (pgCST k) 0xA00 1 s)) k).entered .holdover) (skewInvalid k (bump (pgCST k) 0xA00 1 s))) := by
  simp [lgChange, h, LaneGroup.entered]

theorem lgChange_holdover_of_reassigned (h : (lgOf s k).st = .reassigned) :
    lgChange k .holdover s = bump (pgCST k) 0xA04 1 (setLg k ((lgOf s k).entered .holdover) (bump (pgCST k) 0xA00 1 s)) := by
  simp [lgChange, h, LaneGroup.entered]

/-- A LOCKED group that frames its stripe is FRAMED, and a fence that LOST left on it is lifted (R133). -/
theorem lgGo_framed_of_locked (h : (lgOf s k).st = .locked) :
    ∃ itg, lgGo k .framed s = { setLg k ((lgOf s k).entered .framed) s with itg := itg } := by
  have hgo : lgGo k .framed s = if fenceCause (setLg k ((lgOf s k).entered .framed) s) (0x8000 + k) = 8 then
      { setLg k ((lgOf s k).entered .framed) s with itg.fences := sset 0 s.itg.fences (0x8000 + k) 0 }
      else setLg k ((lgOf s k).entered .framed) s := by
    rw [lgGo_of_not_framed (by simp [h])]
    simp only [lgChange, h, reduceCtorEq, or_self, false_and, true_and, if_false]
    rfl
  rw [hgo]
  split <;> exact ⟨_, rfl⟩

theorem st_lgGo_framed_of_locked (h : (lgOf s k).st = .locked) : (lgOf (lgGo k .framed s) k).st = .framed := by
  have hne : (lgOf s k).entered .framed ≠ {} := fun heq => by simpa [LaneGroup.entered] using congrArg LaneGroup.st heq
  obtain ⟨_, hgo⟩ := lgGo_framed_of_locked h
  rw [hgo]
  exact congrArg LaneGroup.st (sget_sset_eq _ _ _ _ hne)

end Changes

/-! ### A group that leaves FRAMED, and what it clocked -/

/-- The state of a group and the stripe that clocks it. -/
def LaneGroup.source (g : LaneGroup) : LgState × Nat := (g.st, g.src)

/-- `u` has the sources of `s`, on a canonical table. -/
structure SameSources (s u : State) : Prop where
  ok : LanesOk u
  same : ∀ j, (lgOf u j).source = (lgOf s j).source

/-- A write that leaves its own group's state and source leaves those of every group. -/
theorem SameSources.setLg {s u : State} (h : SameSources s u) (k : Nat) {g : LaneGroup} (hg : g.source = (lgOf u k).source) :
    SameSources s (setLg k g u) where
  ok := lanesOk_setLg h.ok k g
  same j := by
    rw [lgOf_setLg h.ok]
    split
    next hj => rw [hj, hg, h.same]
    next => exact h.same j

/-- Offsets that lose their valid bits change no group's state or source (R130). -/
theorem sameSources_skewInvalid {s : State} (h : LanesOk s) (k : Nat) : SameSources s (skewInvalid k s) := by
  have h0 : SameSources s s := ⟨h, fun _ => rfl⟩
  unfold skewInvalid
  dsimp only
  split <;> split
  · refine .setLg (.setLg h0 _ ?_) _ ?_ <;> rfl
  · refine .setLg h0 _ ?_; rfl
  · refine .setLg (.setLg (.setLg h0 _ ?_) _ ?_) _ ?_ <;> rfl
  · refine .setLg (.setLg h0 _ ?_) _ ?_ <;> rfl

theorem skewInvalid_frame (k : Nat) (s : State) : ∃ l, skewInvalid k s = { s with tim.lgs := l } := by
  unfold skewInvalid
  dsimp only
  split <;> split <;> exact ⟨_, rfl⟩

section LeavesFramed
variable {k : Nat} {s : State} (hok : LanesOk s) (h : (lgOf s k).st = .framed)
include h

theorem variant_lgChange_holdover : (lgChange k .holdover s).variant = s.variant := by
  obtain ⟨_, hskew⟩ := skewInvalid_frame k (bump (pgCST k) 0xA00 1 s)
  rw [lgChange_holdover_of_framed h, hskew]
  rfl

/-- The entry of HOLDOVER is counted (R172). -/
theorem count_lgChange_holdover : count (lgChange k .holdover s) (pgCST k) 0xA04 =
    min (count s (pgCST k) 0xA04 + 1) 0xFFFFFFFF := by
  obtain ⟨l, hskew⟩ := skewInvalid_frame k (bump (pgCST k) 0xA00 1 s)
  have hcount : count (skewInvalid k (bump (pgCST k) 0xA00 1 s)) (pgCST k) 0xA04 = count s (pgCST k) 0xA04 := by
    rw [hskew]
    exact count_bump_other (by decide) (by simp only [rkey]; omega) s
  rw [lgChange_holdover_of_framed h, count_bump_self _ _ (by decide), count_setLg, hcount]

include hok

theorem lanesOk_lgChange_holdover : LanesOk (lgChange k .holdover s) := by
  rw [lgChange_holdover_of_framed h]
  exact lanesOk_setLg (sameSources_skewInvalid (s := bump _ _ _ s) hok k).ok _ _

theorem st_lgChange_holdover : (lgOf (lgChange k .holdover s) k).st = .holdover := by
  rw [lgChange_holdover_of_framed h, lgOf_bump, lgOf_setLg (sameSources_skewInvalid (s := bump _ _ _ s) hok k).ok, if_pos rfl]
  rfl

theorem source_lgChange_holdover {j : Nat} (hj : j ≠ k) :
    (lgOf (lgChange k .holdover s) j).source = (lgOf s j).source := by
  have hskew := sameSources_skewInvalid (s := bump (pgCST k) 0xA00 1 s) hok k
  rw [lgChange_holdover_of_framed h, lgOf_bump, lgOf_setLg hskew.ok, if_neg hj]
  exact hskew.same j

end LeavesFramed

/-- Group `j` runs on the stripe of its neighbour `k` (R131). -/
def LaneGroup.ClockedBy (g : LaneGroup) (j k : Nat) : Prop :=
  g.st = .reassigned ∧ ((g.src = 1 ∧ j = k + 1) ∨ (g.src = 2 ∧ j + 1 = k))

theorem LaneGroup.ClockedBy.ne {g : LaneGroup} {j k : Nat} (h : g.ClockedBy j k) : j ≠ k := by
  obtain ⟨_, ⟨_, _⟩ | ⟨_, _⟩⟩ := h <;> omega

theorem LaneGroup.ClockedBy.of_source {g g' : LaneGroup} {j k : Nat} (h : g.ClockedBy j k) (hs : g'.source = g.source) :
    g'.ClockedBy j k := by
  obtain ⟨hst, hsrc⟩ := Prod.mk.inj hs
  rw [LaneGroup.ClockedBy, hst, hsrc]
  exact h

/-- What becomes of one group when stripe `k` is no longer framed: the body of `sourceLeft`. -/
def sourceLeftAt (k : Nat) (s : State) (j : Nat) : State :=
  let g := lgOf s j
  if g.st = .reassigned ∧ ((g.src = 1 ∧ j = k + 1) ∨ (g.src = 2 ∧ j + 1 = k)) then
    setLg j { lgOf (lgChange j .holdover s) j with src := 0, ownLock := false, ownFramed := false } (lgChange j .holdover s)
  else s

theorem sourceLeft_eq_foldl (k : Nat) (s : State) :
    sourceLeft k s = (List.range (laneGroups s.variant)).foldl (sourceLeftAt k) s := rfl

section SourceLeft
variable {k : Nat} {s : State} {j : Nat}

theorem sourceLeftAt_of_not_clocked (h : ¬ (lgOf s j).ClockedBy j k) : sourceLeftAt k s j = s := if_neg h

theorem sourceLeftAt_of_clocked (h : (lgOf s j).ClockedBy j k) : ∃ g : LaneGroup, g.st = .holdover ∧
    sourceLeftAt k s j = setLg j g (bump (pgCST j) 0xA04 1 (setLg j ((lgOf s j).entered .holdover) (bump (pgCST j) 0xA00 1 s))) := by
  have hne : (lgOf s j).entered .holdover ≠ {} := fun heq => by
    simpa [LaneGroup.entered] using congrArg LaneGroup.st heq
  have hst : (lgOf (lgChange j .holdover s) j).st = .holdover := by
    rw [lgChange_holdover_of_reassigned h.1, lgOf_bump]
    exact congrArg LaneGroup.st (sget_sset_eq _ _ _ _ hne)
  refine ⟨{ lgOf (lgChange j .holdover s) j with src := 0, ownLock := false, ownFramed := false }, hst, ?_⟩
  rw [← lgChange_holdover_of_reassigned h.1]
  exact if_pos h

theorem lanesOk_sourceLeftAt (hok : LanesOk s) : LanesOk (sourceLeftAt k s j) := by
  by_cases h : (lgOf s j).ClockedBy j k
  · obtain ⟨g, _, heq⟩ := sourceLeftAt_of_clocked h
    rw [heq]
    exact lanesOk_setLg (lanesOk_setLg hok _ _) _ _
  · rwa [sourceLeftAt_of_not_clocked h]

theorem lgOf_sourceLeftAt_other (hok : LanesOk s) {i : Nat} (hi : i ≠ j) : lgOf (sourceLeftAt k s j) i = lgOf s i := by
  by_cases h : (lgOf s j).ClockedBy j k
  · obtain ⟨g, _, heq⟩ := sourceLeftAt_of_clocked h
    have hok1 := lanesOk_setLg (s := bump (pgCST j) 0xA00 1 s) hok j ((lgOf s j).entered .holdover)
    rw [heq, lgOf_setLg ((lanesOk_bump ..).2 hok1), if_neg hi, lgOf_bump, lgOf_setLg (s := bump _ _ _ s) hok, if_neg hi, lgOf_bump]
  · rw [sourceLeftAt_of_not_clocked h]

theorem st_sourceLeftAt_of_clocked (hok : LanesOk s) (h : (lgOf s j).ClockedBy j k) :
    (lgOf (sourceLeftAt k s j) j).st = .holdover := by
  obtain ⟨g, hg, heq⟩ := sourceLeftAt_of_clocked h
  have hok1 := lanesOk_setLg (s := bump (pgCST j) 0xA00 1 s) hok j ((lgOf s j).entered .holdover)
  rw [heq, lgOf_setLg ((lanesOk_bump ..).2 hok1), if_pos rfl, hg]

/-- The entries of the group that has lost its own stripe are not those of the groups it clocked. -/
theorem count_sourceLeftAt (k : Nat) (s : State) (j : Nat) :
    count (sourceLeftAt k s j) (pgCST k) 0xA04 = count s (pgCST k) 0xA04 := by
  by_cases h : (lgOf s j).ClockedBy j k
  · obtain ⟨g, _, heq⟩ := sourceLeftAt_of_clocked h
    have hne := h.ne
    rw [heq, count_setLg, count_bump_other (by decide) (by simp only [rkey, pgCST]; omega), count_setLg,
      count_bump_other (by decide) (by simp only [rkey, pgCST]; omega)]
  · rw [sourceLeftAt_of_not_clocked h]

theorem lanesOk_foldl_sourceLeftAt (l : List Nat) (hok : LanesOk s) : LanesOk (l.foldl (sourceLeftAt k) s) := by
  induction l generalizing s with
  | nil => exact hok
  | cons j l ih => exact ih (lanesOk_sourceLeftAt hok)

/-- A group on another stripe stays as it is. -/
theorem lgOf_foldl_sourceLeftAt_of_not_clocked (l : List Nat) (hok : LanesOk s) {i : Nat} (h : ¬ (lgOf s i).ClockedBy i k) :
    lgOf (l.foldl (sourceLeftAt k) s) i = lgOf s i := by
  induction l generalizing s with
  | nil => rfl
  | cons j l ih =>
    have hstep : lgOf (sourceLeftAt k s j) i = lgOf s i := by
      by_cases hi : i = j
      · rw [← hi, sourceLeftAt_of_not_clocked h]
      · exact lgOf_sourceLeftAt_other hok hi
    rw [List.foldl_cons, ih (lanesOk_sourceLeftAt hok) (by rwa [hstep]), hstep]

/-- A group on the stripe goes to HOLDOVER once, at its own turn. -/
theorem st_foldl_sourceLeftAt_of_clocked (l : List Nat) (hok : LanesOk s) {i : Nat} (hi : i ∈ l) (h : (lgOf s i).ClockedBy i k) :
    (lgOf (l.foldl (sourceLeftAt k) s) i).st = .holdover := by
  induction l generalizing s with
  | nil => cases hi
  | cons j l ih =>
    rw [List.foldl_cons]
    by_cases hij : i = j
    · subst hij
      have hst := st_sourceLeftAt_of_clocked hok h
      have hdone : ¬ (lgOf (sourceLeftAt k s i) i).ClockedBy i k := fun hc => by simp [hc.1] at hst
      rw [lgOf_foldl_sourceLeftAt_of_not_clocked l (lanesOk_sourceLeftAt hok) hdone, hst]
    · have hstep := lgOf_sourceLeftAt_other (k := k) hok hij
      exact ih (lanesOk_sourceLeftAt hok) ((List.mem_cons.1 hi).resolve_left hij) (by rwa [hstep])

theorem count_foldl_sourceLeftAt (k : Nat) (l : List Nat) (s : State) :
    count (l.foldl (sourceLeftAt k) s) (pgCST k) 0xA04 = count s (pgCST k) 0xA04 := by
  induction l generalizing s with
  | nil => rfl
  | cons j l ih => rw [List.foldl_cons, ih, count_sourceLeftAt]

end SourceLeft

/-- FRAMED without its stripe is HOLDOVER, and the groups it clocked go there with it (R121, R127). -/
theorem lgGo_holdover_of_framed {k : Nat} {s : State} (h : (lgOf s k).st = .framed) :
    lgGo k .holdover s = (List.range (laneGroups s.variant)).foldl (sourceLeftAt k) (lgChange k .holdover s) := by
  rw [← variant_lgChange_holdover h, ← sourceLeft_eq_foldl]
  simp [lgGo, h]

theorem holdEnter_of_framed {k : Fin 8} {s : State} (hok : LanesOk s) (h : (lgOf s k.val).st = .framed) :
    (lgOf (holdEnter k s) k.val).st = .holdover ∧ evPending (holdEnter k s) (pgCST k.val) 0 = true ∧
      count (holdEnter k s) (pgCST k.val) 0xA04 = min (count s (pgCST k.val) 0xA04 + 1) 0xFFFFFFFF ∧
      ∀ j, j < laneGroups s.variant → (lgOf s j).ClockedBy j k.val → (lgOf (holdEnter k s) j).st = .holdover := by
  have hgo := lgGo_holdover_of_framed h
  have hok1 := lanesOk_lgChange_holdover hok h
  have hnot : ¬ (lgOf (lgChange k.val .holdover s) k.val).ClockedBy k.val k.val := fun hc => hc.ne rfl
  simp only [holdEnter, if_pos h, hgo]
  generalize hu : (List.range (laneGroups s.variant)).foldl (sourceLeftAt k.val) (lgChange k.val .holdover s) = u
  have hoku : LanesOk u := hu ▸ lanesOk_foldl_sourceLeftAt _ hok1
  have hself : (lgOf u k.val).st = .holdover := by
    rw [← hu, lgOf_foldl_sourceLeftAt_of_not_clocked _ hok1 hnot, st_lgChange_holdover hok h]
  have hcount : count u (pgCST k.val) 0xA04 = min (count s (pgCST k.val) 0xA04 + 1) 0xFFFFFFFF := by
    rw [← hu, count_foldl_sourceLeftAt, count_lgChange_holdover h]
  refine ⟨?_, evPending_raise_self _ 0 (by decide) _, ?_, fun j hj hc => ?_⟩
  · rw [lgOf_raise, lgOf_setLg hoku, if_pos rfl, hself]
  · rw [count_raise (by simp only [rkey, pgCST, pgMEM]; omega), count_setLg, hcount]
  · rw [lgOf_raise, lgOf_setLg hoku, if_neg hc.ne, ← hu]
    exact st_foldl_sourceLeftAt_of_clocked _ hok1 (List.mem_range.2 hj) (hc.of_source (source_lgChange_holdover hok h hc.ne))

/-! ### The end of HOLDOVER -/

section HoldExpires
variable {k : Nat} {s : State} (hok : LanesOk s) (h : (lgOf s k).st = .holdover)
include hok h

/-- A group that is LOST at the end of HOLDOVER is fenced with cause 8 and runs on no source (R133). -/
theorem lgLose_of_holdover : ∃ g : LaneGroup, g.st = .lost ∧ lgLose k 8 s = requestEnd 5 (markFence (0x8000 + k) 8
    (setLg k g (raise (pgCST k) 3 (setLg k ((lgOf s k).entered .lost) s)))) := by
  have hlg : lgOf (raise (pgCST k) 3 (setLg k ((lgOf s k).entered .lost) s)) k = (lgOf s k).entered .lost := by
    rw [lgOf_raise, lgOf_setLg hok, if_pos rfl]
  refine ⟨{ (lgOf s k).entered .lost with heldFence := false, src := 0, ownLock := false, ownFramed := false }, rfl, ?_⟩
  rw [lgLose, if_neg (by simp [h]), lgGo_lost_of_holdover h, hlg]
  rfl

theorem lgLose_of_holdover_effect (hev : evPending s (pgCST k) 1 = true) :
    (lgOf (lgLose k 8 s) k).st = .lost ∧ isFenced (lgLose k 8 s) (0x8000 + k) = true ∧
      evPending (lgLose k 8 s) (pgCST k) 1 = true ∧ evPending (lgLose k 8 s) (pgCST k) 3 = true := by
  obtain ⟨g, hg, heq⟩ := lgLose_of_holdover hok h
  have hok' : LanesOk (raise (pgCST k) 3 (setLg k ((lgOf s k).entered .lost) s)) := by simp [lanesOk_setLg, hok]
  rw [heq]
  refine ⟨?_, isFenced_markFence (by decide) _ _, ?_, ?_⟩
  · rw [lgOf_requestEnd, lgOf_markFence, lgOf_setLg hok', if_pos rfl, hg]
  · rw [evPending_requestEnd]
    refine evPending_markFence_keep ?_ _ _
    rw [evPending_setLg]
    exact evPending_raise_keep _ 3 _ 1 (by decide) _ hev
  · rw [evPending_requestEnd]
    refine evPending_markFence_keep ?_ _ _
    rw [evPending_setLg]
    exact evPending_raise_self _ 3 (by decide) _

/-- A group that leaves HOLDOVER for a neighbour's stripe has it as its source (R131). -/
theorem reassign_of_holdover (src : Nat) : (lgOf (reassign k src s) k).st = .reassigned ∧ (lgOf (reassign k src s) k).src = src ∧
    evPending (reassign k src s) (pgCST k) 2 = true := by
  have hgo := lgGo_reassigned_of_holdover h
  have hok' : LanesOk (lgGo k .reassigned s) := by rw [hgo]; simp [lanesOk_setLg, hok]
  have hst : (lgOf (lgGo k .reassigned s) k).st = .reassigned := by
    rw [hgo, lgOf_raise, lgOf_bump, lgOf_setLg hok, if_pos rfl]
    rfl
  have hev : evPending (lgGo k .reassigned s) (pgCST k) 2 = true := by rw [hgo]; exact evPending_raise_self _ 2 (by decide) _
  rw [reassign]
  extract_lets framed
  simp only [lgOf_setLg hok', if_true]
  exact ⟨hst, trivial, hev⟩

end HoldExpires

theorem holdExpire_of_due {k : Fin 8} {s : State} (h : (lgOf s k.val).st = .holdover) (hcnt : 64 ≤ (lgOf s k.val).holdCnt) :
    holdExpire k s =
      if tapeBit s (pgCST k.val) 0x100 0 = true ∧ qualifies s k.val 1 = true then reassign k.val 1 (raise (pgCST k.val) 1 s)
      else if tapeBit s (pgCST k.val) 0x100 0 = true ∧ qualifies s k.val 2 = true then reassign k.val 2 (raise (pgCST k.val) 1 s)
      else lgLose k.val 8 (raise (pgCST k.val) 1 s) := by
  rw [holdExpire, if_neg (not_or.2 ⟨not_not.2 h, Nat.not_lt.2 hcnt⟩)]
  simp only [tapeBit_raise, qualifies_raise]

/-! ### Clock position words -/

/-- The counter of a group stands `n` tone periods further in the direction of travel (R125). -/
def LaneGroup.advance (g : LaneGroup) (rev : Bool) (n : Nat) : LaneGroup :=
  { g with tone := if rev then g.tone - n else g.tone + n }

theorem clockPositionWord_of_fenced {k : Fin 8} {s : State} (h : isFenced s (0x7100 + k.val) = true) (w : Word) (n : Nat) :
    clockPositionWord k w n s = s := by
  simp [clockPositionWord, h]

section ReadsWord
variable {k : Fin 8} {s : State} (hk : k.val < laneGroups s.variant) (hf : isFenced s (0x7100 + k.val) = false)
  (hst : (lgOf s k.val).st = .locked ∨ (lgOf s k.val).st = .framed)
include hk hf hst

/-- A word that fails its check is counted, and the counter follows the tone all the same. -/
theorem clockPositionWord_of_bad {w : Word} (hw : clockOk w = false) (n : Nat) : clockPositionWord k w n s =
    bump (pgCST k.val) 0xA10 1 (setLg k.val { (lgOf s k.val).advance (travelRev s) n with prevOk := false } s) := by
  rcases hst with h | h <;> simp [clockPositionWord, hf, h, hw, Nat.not_le.2 hk, LaneGroup.advance]

theorem clockPositionWord_of_ok {w : Word} (hw : clockOk w = true) (n : Nat) : clockPositionWord k w n s =
    passingWord k.val w (setLg k.val ((lgOf s k.val).advance (travelRev s) n) s) := by
  rcases hst with h | h <;> simp [clockPositionWord, hf, h, hw, Nat.not_le.2 hk, LaneGroup.advance]

end ReadsWord

theorem bandSettled_frame (s : State) : ∃ b, bandSettled s = { s with mot.lat.newBand := b } := by
  unfold bandSettled
  split
  · exact ⟨false, rfl⟩
  · exact ⟨s.mot.lat.newBand, rfl⟩

@[simp] theorem lgOf_bandSettled (s : State) (j : Nat) : lgOf (bandSettled s) j = lgOf s j := by
  obtain ⟨_, h⟩ := bandSettled_frame s; rw [h]; rfl
@[simp] theorem count_bandSettled (s : State) (p o : Nat) : count (bandSettled s) p o = count s p o := by
  obtain ⟨_, h⟩ := bandSettled_frame s; rw [h]; rfl
@[simp] theorem travelRev_bandSettled (s : State) : travelRev (bandSettled s) = travelRev s := by
  obtain ⟨_, h⟩ := bandSettled_frame s; rw [h]; rfl
@[simp] theorem lanesOk_bandSettled (s : State) : LanesOk (bandSettled s) ↔ LanesOk s := by
  obtain ⟨_, h⟩ := bandSettled_frame s; rw [h]; rfl

/-- What is expected of a group, and which words are consecutive, hang on no counter (R121). -/
theorem expectedWord_setLg {s : State} (h : LanesOk s) {k : Nat} {g : LaneGroup} (hg : g.bandSeen = (lgOf s k).bandSeen) (w : Word) :
    expectedWord (setLg k g s) k w = expectedWord s k w := by
  have hseen : (lgOf (setLg k g s) k).bandSeen = (lgOf s k).bandSeen := by rw [lgOf_setLg h, if_pos rfl, hg]
  simp only [expectedWord, hseen]
  rfl

@[simp] theorem travelRev_setLg (k : Nat) (g : LaneGroup) (s : State) : travelRev (setLg k g s) = travelRev s := rfl
@[simp] theorem consecutive_setLg (k : Nat) (g : LaneGroup) (s : State) (v w : Word) :
    consecutive (setLg k g s) v w = consecutive s v w := rfl

/-- Two consecutive expected words frame a LOCKED group, which takes its tone index from the second (R121). -/
theorem passingWord_of_locked {k : Nat} {s : State} (hok : LanesOk s) {v w : Word} (hst : (lgOf s k).st = .locked)
    (hprev : (lgOf s k).prevOk = true) (hv : (lgOf s k).word = some v) (hw : expectedWord s k w = true)
    (hband : wBand v = wBand w) (hstripe : wStripe v = wStripe w) (hcons : consecutive s v w = true) :
    (lgOf (passingWord k w s) k).st = .framed ∧ (lgOf (passingWord k w s) k).tone = cposTone (wCpos w) := by
  have heq : ∃ u, (lgOf u k).st = .framed ∧
      passingWord k w s = setLg k { lgOf u k with tone := cposTone (wCpos w), word := some w, prevOk := true } u := by
    unfold passingWord
    extract_lets g prev named good bad seen u
    have hg : g.st = .locked := hst
    have hgood : good = true := by simp [good, named, prev, g, hprev, hv, hw, hband, hstripe, hcons]
    have hu : (lgOf u k).st = .locked := by simp [u, lgOf_setLg hok, hg]
    refine ⟨lgGo k .framed u, st_lgGo_framed_of_locked hu, ?_⟩
    simp only [hg, hgood, if_true]
    rfl
  obtain ⟨u, hu, heq⟩ := heq
  have hlg : lgOf (passingWord k w s) k = { lgOf u k with tone := cposTone (wCpos w), word := some w, prevOk := true } := by
    rw [heq]
    exact sget_sset_eq _ _ _ _ (fun heq => by simpa [hu] using congrArg LaneGroup.st heq)
  exact ⟨by rw [hlg, hu], by rw [hlg]⟩

/-- A FRAMED group holds an expected word against its counter (R125). -/
theorem passingWord_of_framed {k : Nat} {s : State} {w : Word} (hst : (lgOf s k).st = .framed) (hw : expectedWord s k w = true) :
    ∃ seen, passingWord k w s = counterCheck k w (bandSettled
      (setLg k { lgOf s k with word := some w, prevOk := true, bandSeen := seen } s)) := by
  unfold passingWord
  extract_lets g prev named good bad seen u
  have hg : g.st = .framed := hst
  have hbad : bad = false := by simp [bad, hw]
  refine ⟨seen, ?_⟩
  change _ = counterCheck k w u
  simp only [hg, hbad, Bool.false_eq_true, if_false]

section CounterCheck
variable {k : Nat} {s : State} (hok : LanesOk s) {w : Word}
include hok

/-- A word that agrees with the counter changes neither it nor the state, and is no jump. -/
theorem counterCheck_of_agrees (h : (wCpos w : Int) = (lgOf s k).tone / 2048 % 2 ^ 24) :
    (lgOf (counterCheck k w s) k).tone = (lgOf s k).tone ∧ (lgOf (counterCheck k w s) k).st = (lgOf s k).st ∧
      count (counterCheck k w s) (pgCST k) 0xA14 = count s (pgCST k) 0xA14 := by
  rw [counterCheck, if_pos h, lgOf_setLg hok, if_pos rfl]
  exact ⟨rfl, rfl, rfl⟩

/-- A word that disagrees is counted, and reloads the counter only where it follows another that did (R125). -/
theorem counterCheck_of_jump (h : (wCpos w : Int) ≠ (lgOf s k).tone / 2048 % 2 ^ 24) :
    (lgOf (counterCheck k w s) k).st = (lgOf s k).st ∧
      count (counterCheck k w s) (pgCST k) 0xA14 = min (count s (pgCST k) 0xA14 + 1) 0xFFFFFFFF ∧
      (∀ x, (lgOf s k).toneDis = some x → travelRev s = false → (x + 1) % 2 ^ 24 = wCpos w →
        (lgOf (counterCheck k w s) k).tone = cposTone (wCpos w)) ∧
      ((lgOf s k).toneDis = none → (lgOf (counterCheck k w s) k).tone = (lgOf s k).tone) := by
  have hset : ∀ g : LaneGroup, lgOf (setLg k g (bump (pgCST k) 0xA14 1 s)) k = g := fun g => by
    rw [lgOf_setLg ((lanesOk_bump ..).2 hok), if_pos rfl]
  have hcount : ∀ g : LaneGroup, count (setLg k g (bump (pgCST k) 0xA14 1 s)) (pgCST k) 0xA14 =
      min (count s (pgCST k) 0xA14 + 1) 0xFFFFFFFF := fun g => count_bump_self _ _ (by decide) s
  have hrev : travelRev (bump (pgCST k) 0xA14 1 s) = travelRev s := rfl
  rw [counterCheck, if_neg h]
  extract_lets u agrees
  split
  next hag =>
    refine ⟨by rw [hset], hcount _, fun x _ _ _ => by rw [hset], fun hx => ?_⟩
    simp [agrees, hx] at hag
  next hag =>
    refine ⟨by rw [hset], hcount _, fun x hx hr hn => ?_, fun _ => by rw [hset]⟩
    exact absurd (by simp only [agrees, u, hx, hrev, hr, hn, decide_true, Bool.false_eq_true, if_false]) hag

end CounterCheck

section FramedReads
variable {k : Fin 8} {s : State} (hk : k.val < laneGroups s.variant) (hok : LanesOk s)
  (hf : isFenced s (0x7100 + k.val) = false) {w : Word} (hw : clockOk w = true) (he : expectedWord s k.val w = true) (n : Nat)
include hk hok hf hw he

/-- A FRAMED group holds an expected word against its counter as it then stands (R125). -/
theorem clockPositionWord_of_framed (hst : (lgOf s k.val).st = .framed) : ∃ u, LanesOk u ∧
    clockPositionWord k w n s = counterCheck k.val w u ∧ (lgOf u k.val).st = .framed ∧
    (lgOf u k.val).tone = ((lgOf s k.val).advance (travelRev s) n).tone ∧ (lgOf u k.val).toneDis = (lgOf s k.val).toneDis ∧
    travelRev u = travelRev s ∧ ∀ p o, count u p o = count s p o := by
  have hok1 := lanesOk_setLg hok k.val ((lgOf s k.val).advance (travelRev s) n)
  have hlg : lgOf (setLg k.val ((lgOf s k.val).advance (travelRev s) n) s) k.val = (lgOf s k.val).advance (travelRev s) n := by
    rw [lgOf_setLg hok, if_pos rfl]
  obtain ⟨seen, heq⟩ := passingWord_of_framed (k := k.val) (s := setLg k.val ((lgOf s k.val).advance (travelRev s) n) s)
    (by rw [hlg]; exact hst) ((expectedWord_setLg (g := (lgOf s k.val).advance _ n) hok rfl w).trans he)
  refine ⟨_, ?_, (clockPositionWord_of_ok hk hf (.inr hst) hw n).trans heq, ?_⟩
  · simp [lanesOk_setLg, hok]
  · simp only [lgOf_bandSettled, lgOf_setLg hok1, if_true, travelRev_bandSettled, travelRev_setLg, count_bandSettled, count_setLg,
      implies_true, and_true, hlg]
    exact ⟨hst, trivial, rfl⟩

theorem clockPositionWord_frames (hst : (lgOf s k.val).st = .locked) {v : Word} (hprev : (lgOf s k.val).prevOk = true)
    (hv : (lgOf s k.val).word = some v) (hband : wBand v = wBand w) (hstripe : wStripe v = wStripe w)
    (hcons : consecutive s v w = true) : (lgOf (clockPositionWord k w n s) k.val).st = .framed ∧
      (lgOf (clockPositionWord k w n s) k.val).tone = cposTone (wCpos w) := by
  have hlg : lgOf (setLg k.val ((lgOf s k.val).advance (travelRev s) n) s) k.val = (lgOf s k.val).advance (travelRev s) n := by
    rw [lgOf_setLg hok, if_pos rfl]
  rw [clockPositionWord_of_ok hk hf (.inl hst) hw]
  refine passingWord_of_locked (v := v) (lanesOk_setLg hok _ _) ?_ ?_ ?_ ?_ hband hstripe ?_
  · rw [hlg]; exact hst
  · rw [hlg]; exact hprev
  · rw [hlg]; exact hv
  · exact (expectedWord_setLg (g := (lgOf s k.val).advance _ n) hok rfl w).trans he
  · rwa [consecutive_setLg]

end FramedReads

/-! ### Locks and offsets -/

section Rows
variable {k : Fin 8} {s : State}

/-- A group that runs without its stripe notes a lock on it (R129). -/
theorem phaseLock_of_away (step : Int) (hf : isFenced s (0x7100 + k.val) = false)
    (h : (lgOf s k.val).st = .holdover ∨ (lgOf s k.val).st = .reassigned ∨ (lgOf s k.val).st = .lost) :
    phaseLock k step s =
      setLg k.val { lgOf s k.val with ownLock := true, ownFramed := false, step := step, prevOk := false } s := by
  rcases h with h | h | h <;> simp [phaseLock, hf, h]

theorem phaseLock_of_acquire (step : Int) (hf : isFenced s (0x7100 + k.val) = false) (h : (lgOf s k.val).st = .acquire) :
    phaseLock k step s = setLg k.val ((lgOf s k.val).entered .locked) s := by
  rw [← lgGo_locked_of_acquire h]
  simp [phaseLock, hf, h]

theorem acqTimeout_of_acquire (h : (lgOf s k.val).st = .acquire) : acqTimeout k s = raise (pgCST k.val) 5 s := if_pos h

/-- A measurement between FRAMED neighbours holds as it comes, within its 12 bits, and is the group's own (R130). -/
theorem skewMeasurement_of_framed (hk : k.val < laneGroups s.variant) (hok : LanesOk s) (lo hi : Int)
    (h : (lgOf s k.val).st = .framed) (h0 : k.val ≠ 0) (hlow : (lgOf s (k.val - 1)).st = .framed) :
    (lgOf (skewMeasurement k lo hi s) k.val).skewLo = clampInt (-2048) 2047 lo ∧
      (lgOf (skewMeasurement k lo hi s) k.val).loV = true ∧
      ∀ j, j ≠ k.val → lgOf (skewMeasurement k lo hi s) j = lgOf s j := by
  have heq : ∃ g : LaneGroup, g.skewLo = clampInt (-2048) 2047 lo ∧ g.loV = true ∧ skewMeasurement k lo hi s = setLg k.val g s := by
    rw [skewMeasurement, if_neg (not_or.2 ⟨not_not.2 h, Nat.not_le.2 hk⟩)]
    extract_lets lim isLo isHi g1 g2
    have hlo : g1 = { lgOf s k.val with skewLo := clampInt (-2048) 2047 lo, loV := true } := if_pos ⟨h0, hlow⟩
    refine ⟨g2, ?_, ?_, rfl⟩ <;> simp only [g2, hlo] <;> split <;> rfl
  obtain ⟨g, hlo, hv, heq⟩ := heq
  rw [heq]
  refine ⟨?_, ?_, fun j hj => ?_⟩
  · rw [lgOf_setLg hok, if_pos rfl, hlo]
  · rw [lgOf_setLg hok, if_pos rfl, hv]
  · rw [lgOf_setLg hok, if_neg hj]

theorem forceSrcWrite_of_good (hk : k.val < laneGroups s.variant) {v : Word} (h : forceBad s k.val (bits v 9 8) = false) :
    forceSrcWrite k v s = ownWrite (pgCST k.val) 0x100 v s := by
  simp [forceSrcWrite, Nat.not_le.2 hk, h]

theorem forceSrcWrite_of_bad (hk : k.val < laneGroups s.variant) {v : Word} (h : forceBad s k.val (bits v 9 8) = true) :
    forceSrcWrite k v s = raise (pgCST k.val) 7
      (ownWrite (pgCST k.val) 0x100 ((v &&& ~~~0x300#32) ||| (rget s (pgCST k.val) 0x100 &&& 0x300#32)) s) := by
  simp [forceSrcWrite, Nat.not_le.2 hk, h]

end Rows

/-! ### The statement -/

theorem exec_phaseLock (k : Fin 8) (step : Int) (s : State) : exec (.phaseLock k step) s = .next (phaseLock k step s) := rfl
theorem exec_acqTimeout (k : Fin 8) (s : State) : exec (.acqTimeout k) s = .next (acqTimeout k s) := rfl
theorem exec_clockPositionWord (k : Fin 8) (w : Word) (n : Nat) (s : State) :
    exec (.clockPositionWord k w n) s = .next (clockPositionWord k w n s) := rfl
theorem exec_holdEnter (k : Fin 8) (s : State) : exec (.holdEnter k) s = .next (holdEnter k s) := rfl
theorem exec_holdExpire (k : Fin 8) (s : State) : exec (.holdExpire k) s = .next (holdExpire k s) := rfl
theorem exec_skewMeasurement (k : Fin 8) (lo hi : Int) (s : State) :
    exec (.skewMeasurement k lo hi) s = .next (skewMeasurement k lo hi s) := rfl
theorem exec_forceSrcWrite (k : Fin 8) (v : Word) (s : State) : exec (.forceSrcWrite k v) s = .next (forceSrcWrite k v s) := rfl

/-- Settles O37: each clause is what one lemma above says of its command. -/
theorem laneGroupsFollowTheirRows : Obligations.LaneGroupsFollowTheirRows := by
  simp only [Obligations.LaneGroupsFollowTheirRows, exec_phaseLock, exec_acqTimeout, exec_clockPositionWord, exec_holdEnter,
    exec_holdExpire, exec_skewMeasurement, exec_forceSrcWrite, Host.Outcome.next.injEq, exists_eq_left']
  intro s k hk hok
  refine ⟨fun step hf => ⟨phaseLock_of_acquire step hf, phaseLock_of_away step hf⟩, acqTimeout_of_acquire,
    fun w v n hf hst hprev hv hw he => clockPositionWord_frames hk hok hf hw he n hst hprev hv,
    fun w n hf => clockPositionWord_of_fenced hf w n,
    fun w n hf hst => ⟨fun hw => clockPositionWord_of_bad hk hf hst hw n, fun hst hw he _ => ?counter⟩,
    fun hst => ?holdover, fun hst hcnt => ⟨fun hauto => ?lost, fun hauto hq => ?reassigned⟩,
    skewMeasurement_of_framed hk hok, fun v => ⟨forceSrcWrite_of_good hk, forceSrcWrite_of_bad hk⟩⟩
  case counter =>
    obtain ⟨u, hoku, heq, hu, htone, hdis, hrev, hcount⟩ := clockPositionWord_of_framed hk hok hf hw he n hst
    rw [heq]
    refine ⟨fun h => ?_, fun h => ?_⟩
    · obtain ⟨htone', hst', hcount'⟩ := counterCheck_of_agrees hoku (h.trans (by rw [htone]; rfl))
      exact ⟨htone'.trans htone, hst'.trans hu, by rw [hcount', hcount]⟩
    · obtain ⟨hst', hcount', hreload, hkeep⟩ := counterCheck_of_jump hoku (by rw [htone]; exact h)
      exact ⟨hst'.trans hu, by rw [hcount', hcount], fun x hx hr => hreload x (hdis.trans hx) (hrev.trans hr),
        fun hx => (hkeep (hdis.trans hx)).trans htone⟩
  case holdover =>
    obtain ⟨hown, hev, hcount, hclocked⟩ := holdEnter_of_framed hok hst
    exact ⟨hown, hev, hcount, fun j hj hre hsrc => hclocked j hj ⟨hre, hsrc⟩⟩
  case lost =>
    rw [holdExpire_of_due hst hcnt, if_neg (by simp [hauto]), if_neg (by simp [hauto])]
    exact lgLose_of_holdover_effect ((lanesOk_raise ..).2 hok) (by rwa [lgOf_raise]) (evPending_raise_self _ 1 (by decide) s)
  case reassigned =>
    rw [holdExpire_of_due hst hcnt, if_pos ⟨hauto, hq⟩]
    exact reassign_of_holdover ((lanesOk_raise ..).2 hok) (by rwa [lgOf_raise]) 1

end Sys2Proof.Machine
end

section
/-! SUPPORT. What an attempt at a data set does, and the statement on it (O40). -/

namespace Sys2Proof.Machine

/-! ### The copies that an attempt tries -/

theorem mem_of_mem_triedOf {w : RxWord} {l : List RxWord} (h : w ∈ triedOf l) : w ∈ l := by
  induction l with
  | nil => exact h
  | cons x r ih =>
    rw [triedOf] at h
    split at h
    · exact List.mem_singleton.1 h ▸ List.mem_cons_self
    · exact List.mem_cons.2 ((List.mem_cons.1 h).imp_right ih)

theorem place_of_mem_copiesAt {w : RxWord} {rx : List RxWord} {d k c : Nat} (h : w ∈ copiesAt rx d k c) : w.row = k ∧ w.chan = c := by
  have hw := (List.mem_filter.1 h).2
  simp only [Bool.and_eq_true, decide_eq_true_eq] at hw
  exact ⟨hw.1.2, hw.2⟩

/-- What is resolved is not tried again (R210, R212). -/
theorem unresolved_of_mem_attempt {w : RxWord} {rx : List RxWord} {d : Nat} {kept : Words} (h : w ∈ attempt rx d kept) :
    sget none kept (256 * w.row + w.chan) = none := by
  obtain ⟨n, hn, hw⟩ := List.mem_flatMap.1 h
  obtain ⟨hrow, hchan⟩ := place_of_mem_copiesAt (mem_of_mem_triedOf hw)
  rw [hrow, hchan, Nat.div_add_mod]
  exact Option.isNone_iff_eq_none.1 (List.mem_filter.1 hn).2

/-! ### Delivery -/

@[simp] theorem count_modPass (f : Pass → Pass) (s : State) (q o : Nat) : count (modPass f s) q o = count s q o := rfl
@[simp] theorem count_passCount (key n : Nat) (s : State) (q o : Nat) : count (passCount key n s) q o = count s q o := rfl

@[simp] theorem count_endLoss (part : Nat) (h : DsHeader) (s : State) (q o : Nat) : count (endLoss part h s) q o = count s q o := by
  unfold endLoss
  dsimp only
  split <;> rfl

@[simp] theorem count_foundGran (part p : Nat) (g : Gran) (s : State) (q o : Nat) :
    count (foundGran part p g s) q o = count s q o := by
  unfold foundGran
  split
  · rfl
  · dsimp only
    split <;> rfl

@[simp] theorem count_learnGran (part : Nat) (h : DsHeader) (p : Nat) (s : State) (q o : Nat) :
    count (learnGran part h p s) q o = count s q o := by
  unfold learnGran
  split
  · split
    · rfl
    · exact count_foundGran ..
  · rfl

theorem count_wlkCount_self (off key : Nat) (s : State) :
    count (wlkCount off key s) pgWLK off = min (count s pgWLK off + 1) 0xFFFFFFFF :=
  count_bump_self pgWLK off (by decide) s

theorem count_wlkCount_other {off o : Nat} (h : o ≠ off) (key : Nat) (s : State) :
    count (wlkCount off key s) pgWLK o = count s pgWLK o :=
  count_bump_other (by decide) (by simp only [rkey]; omega) s

theorem count_ite_wlkCount_other {off o : Nat} (h : o ≠ off) (b : Bool) (key : Nat) (s : State) :
    count (if b then wlkCount off key s else s) pgWLK o = count s pgWLK o := by
  split
  · exact count_wlkCount_other h key s
  · rfl

/-- The counts of decoded data sets, of those that needed C2, and of those that needed C3 (R218). -/
def countDecoded (c2 c3 : Bool) (s : State) : State :=
  let s := wlkCount 0xA20 0 s
  let s := if c2 then wlkCount 0xA24 1 s else s
  if c3 then wlkCount 0xA28 2 s else s

section CountDecoded
variable {c2 c3 : Bool} (s : State)

theorem count_countDecoded_sets : count (countDecoded c2 c3 s) pgWLK 0xA20 = min (count s pgWLK 0xA20 + 1) 0xFFFFFFFF := by
  rw [countDecoded, count_ite_wlkCount_other (by decide), count_ite_wlkCount_other (by decide), count_wlkCount_self]

theorem count_countDecoded_of_not_c2 (h : c2 = false) : count (countDecoded c2 c3 s) pgWLK 0xA24 = count s pgWLK 0xA24 := by
  rw [countDecoded, count_ite_wlkCount_other (by decide), h]
  exact count_wlkCount_other (by decide) 0 s

theorem count_countDecoded_of_c3 (h : c3 = true) :
    count (countDecoded c2 c3 s) pgWLK 0xA28 = min (count s pgWLK 0xA28 + 1) 0xFFFFFFFF := by
  rw [countDecoded, if_pos h, count_wlkCount_self, count_ite_wlkCount_other (by decide), count_wlkCount_other (by decide)]

end CountDecoded

section Deliver
variable {p : Pass} {h : DsHeader} {stream : List Byte} {s : State}

/-- With no slot to be had the pass stops where it stands (R245). -/
theorem deliver_of_no_slot (hnone : placeRead p h stream s = none) (c2 c3 : Bool) : deliver p h stream c2 c3 s = stopRead s := by
  simp only [deliver, hnone]

/-- A data set that is placed is counted, and the pass goes on from a state with those counts (R210). -/
theorem deliver_of_placed {w : State} (hw : placeRead p h stream s = some w) (c2 c3 : Bool) :
    ∃ x, deliver p h stream c2 c3 s = nextRead h.dsn x ∧ ∀ q o, count x q o = count (countDecoded c2 c3 w) q o := by
  simp only [deliver, hw]
  refine ⟨_, rfl, fun q o => ?_⟩
  split <;> simp only [count_modPass, count_learnGran, count_endLoss] <;> rfl

end Deliver

/-! ### One attempt -/

/-- An attempt's C1 results are counted (R218). -/
def attemptCounted (s : State) (p : Pass) (d : Nat) : State :=
  countC1 (attempt p.rx d p.kept ++ suppTried (rbit s pgWLK 0x104 8) p.rx d) s

/-- The codewords that an attempt ends with, and whether C2 and C3 resolved any of them (R210). -/
def attemptDecoded (s : State) (p : Pass) (d : Nat) : Words × Bool × Bool :=
  outerDecode (leadSupp (rbit s pgWLK 0x104 8) p.rx d) (resolve (attempt p.rx d p.kept) p.kept)

section Attempt
variable {s : State} {dsn : BitVec 29} {p : Pass} (hp : s.trk.pass = some p) (hdec : decodable s p = true)
include hp hdec

/-- While one data set is read again the others wait (R212). -/
theorem dataSetDecode_of_other (hre : p.rereading = true) (hd : p.rereadDsn ≠ some dsn.toNat) : dataSetDecode dsn s = s := by
  simp [dataSetDecode, hp, hdec, hre, hd]

/-- What follows an attempt: unresolved data are read again while RRMAX permits, and are then unrecoverable; a data set that is whole,
with a header that holds, is delivered (R210, R212, R213). -/
theorem dataSetDecode_of_turn (hturn : p.rereading = true → p.rereadDsn = some dsn.toNat) {o : Words × Bool × Bool}
    (ho : attemptDecoded s p dsn.toNat = o) :
    let v := attemptCounted s p dsn.toNat
    let gone := wholeDsn v p.part.val dsn.toNat
    let pay := payloadRead dsn.toNat o.1
    (dataWhole o.1 = false → p.rereads < rfld v pgWLK 0x104 3 0 →
      dataSetDecode dsn s = startReread p dsn.toNat p.rereads o.1 (o.2.1 || p.c2) (o.2.2 || p.c3) v) ∧
    (dataWhole o.1 = false → rfld v pgWLK 0x104 3 0 ≤ p.rereads → dataSetDecode dsn s = nextRead gone (unrecoverable p gone v)) ∧
    ∀ h, dataWhole o.1 = true → readDsHeader pay = some h →
      dataSetDecode dsn s = deliver p h ((pay.drop 512).take h.streamLen) (o.2.1 || p.c2) (o.2.2 || p.c3) v := by
  have hgo : ¬ (p.rereading = true ∧ p.rereadDsn ≠ some dsn.toNat) := fun h => h.2 (hturn h.1)
  obtain ⟨w, c2, c3⟩ := o
  intro v gone pay
  unfold dataSetDecode
  split
  next hnone => simp [hp] at hnone
  next q hq =>
    obtain rfl := Option.some.inj (hp.symm.trans hq)
    rw [if_neg (by simp [hdec])]
    extract_lets d use n ts u
    rw [if_neg hgo]
    split
    next w' c2' c3' ho' =>
    obtain ⟨rfl, rfl, rfl⟩ : w' = w ∧ c2' = c2 ∧ c3' = c3 := by simpa only [Prod.mk.injEq] using ho'.symm.trans ho
    rw [show u = v from rfl]
    clear_value v
    dsimp only
    refine ⟨fun hw hn => ?_, fun hw hn => ?_, fun h hw hh => ?_⟩
    · rw [if_pos (by simp [hw]), if_pos hn]
    · rw [if_pos (by simp [hw]), if_neg (Nat.not_lt.2 hn)]
    · rw [if_neg (by simp [hw])]
      simp only [d, pay, hh]

end Attempt

/-! ### The statement -/

theorem exec_dataSetDecode (dsn : BitVec 29) (s : State) : exec (.dataSetDecode dsn) s = .next (dataSetDecode dsn s) := rfl

/-- Settles O40: each clause is what one lemma above says of an attempt, of its copies, or of the delivery. -/
theorem dataSetsAreDecodedOrReadAgain : Obligations.DataSetsAreDecodedOrReadAgain := by
  simp only [Obligations.DataSetsAreDecodedOrReadAgain, exec_dataSetDecode, Host.Outcome.next.injEq]
  intro s dsn p hp hdec
  refine ⟨dataSetDecode_of_other hp hdec, fun _ => unresolved_of_mem_attempt, fun hturn => ?_⟩
  obtain ⟨hmore, hlast, hwhole⟩ := dataSetDecode_of_turn hp hdec hturn rfl
  refine ⟨hmore, hlast, fun h hw hh => ⟨fun hnone => (hwhole h hw hh).trans (deliver_of_no_slot hnone _ _), fun w hplaced => ?_⟩⟩
  obtain ⟨x, heq, hcount⟩ := deliver_of_placed hplaced _ _
  exact ⟨x, (hwhole h hw hh).trans heq, (hcount ..).trans (count_countDecoded_sets w),
    fun hc2 => (hcount ..).trans (count_countDecoded_of_not_c2 w hc2), fun hc3 => (hcount ..).trans (count_countDecoded_of_c3 w hc3)⟩

end Sys2Proof.Machine
end

section
/-! SUPPORT. What VFYSTAT shows of a verdict, and the statement on verdicts (O39). -/

namespace Sys2Proof.Machine

/-! ### The margin that VFYSTAT shows -/

/-- On a canonical table of channels VFYSTAT shows the margin of a verdict that has one (R187, R217). -/
theorem margin_noteVerdict {s : State} (hs : swf (fun _ => ({} : Chan)) s.tim.chs = true) (ph r : Nat) (x : BitVec 7) :
    (chOf (noteVerdict ph r (some x) s) ph).margin = x :=
  congrArg Chan.margin (sget_sset_self (fun _ => ({} : Chan)) hs ph _)

/-! ### A table that lists a channel twice

A channel whose margin becomes 0 may then be as reset, and a write of that takes its entry out of the table. What is read next is as
reset in a canonical table only: where the channel is listed a second time, the second entry shows. -/

/-- A slot that passes with margin 0. -/
def passedAtZero : SlotRead := { row := 0, conv := true, margin := 0, same := true }

/-- What a pass has written at position 0; of its channel 0 slot 0 has been read. -/
def readInst : Inst := { p := 0, dsn := 0, kind := .data, got := [(0, some passedAtZero)] }

/-- A device in a write pass that has written that, whose table lists channel 0 twice, with margin 1. -/
def channelTwice : State :=
  { State.reset with trk.pass := some { kind := .write, part := 0, wrap := 0, half := false, nextP := 0, insts := [readInst] },
                     tim.lgs := [(0, { st := .framed })], tim.chs := [(0, { margin := 1 }), (0, { margin := 1 })] }

theorem instAt_channelTwice : instAt channelTwice 0 = some readInst := by decide

theorem verdictOf_channelTwice : verdictOf channelTwice readInst 0 0 = some (0, some 0) := by decide

theorem margin_noteVerdict_channelTwice :
    (chOf (noteVerdict (instChan channelTwice readInst 0) 0 (some 0) channelTwice) (instChan channelTwice readInst 0)).margin = 1 := by
  decide

/-! ### The statement -/

/-- Refutes O39: it asks for no canonical table of channels. Where channel 0 is listed twice with margin 1 (`channelTwice`), a slot of it
that passes with margin 0 leaves the second entry, and VFYSTAT shows 1. `margin_noteVerdict` is the clause on a canonical table. -/
theorem not_verdictsAreEnteredAndJudged : ¬ Obligations.VerdictsAreEnteredAndJudged := by
  intro h
  obtain ⟨-, hverdict⟩ := h channelTwice 0 0 0 readInst instAt_channelTwice (by decide) (by decide)
  obtain ⟨-, hmargin, -⟩ := hverdict 0 (some 0) verdictOf_channelTwice
  exact absurd ((hmargin 0 rfl).symm.trans margin_noteVerdict_channelTwice) (by decide)

end Sys2Proof.Machine
end

section
/-! SUPPORT. What writes of loop and policy registers and the rows of the trace buffers do, and the statement on them (O45). -/

namespace Sys2Proof.Machine

/-! ### Writes of a page's registers -/

@[simp] theorem parClear_mot (page off : Nat) (s : State) : (parClear page off s).mot = s.mot := by
  unfold parClear; split <;> rfl

@[simp] theorem holdOld_mot (page off : Nat) (s : State) : (holdOld page off s).mot = s.mot := by
  unfold holdOld; split <;> rfl

@[simp] theorem putReg_mot (page off : Nat) (row : RegRow) (v : Word) (s : State) : (putReg page off row v s).mot = s.mot := by
  unfold putReg
  dsimp only
  split_ifs <;> simp

/-- A register's own row writes nothing of the loops, the planners and the gate (R605). -/
@[simp] theorem ownWrite_mot (page off : Nat) (v : Word) (s : State) : (ownWrite page off v s).mot = s.mot := by simp [ownWrite]

/-! ### What a trigger leaves as it stands -/

namespace KeepsCourse

theorem of_foldl_mem {α : Type} {f : State → α → State} (l : List α) (h : ∀ s, ∀ a ∈ l, KeepsCourse s (f s a)) (s : State) :
    KeepsCourse s (l.foldl f s) := by
  induction l generalizing s with
  | nil => exact refl s
  | cons a r ih => exact (h s a List.mem_cons_self).trans (ih (fun u b hb => h u b (List.mem_cons_of_mem a hb)) (f s a))

theorem setTrc (b : Nat) (t : TraceBuf) (s : State) : KeepsCourse s (setTrc b t s) := ⟨rfl, rfl, rfl, fun _ _ h => h⟩

theorem traceTrig {b : Nat} (hb : b < 16) (s : State) : KeepsCourse s (traceTrig b s) := by
  unfold Machine.traceTrig
  dsimp only
  split
  · exact refl s
  · exact (setTrc ..).trans (raise _ _ hb _)

/-- The triggers of a class of buffers, where each is one of the four (R257, R259). -/
theorem triggers {f : State → Nat → State} (h : ∀ s b, f s b = Machine.traceTrig b s ∨ f s b = s) (s : State) :
    KeepsCourse s ((List.range 4).foldl f s) :=
  of_foldl_mem _ (fun u b hb => by
    have hlt : b < 4 := List.mem_range.mp hb
    rcases h u b with heq | heq <;> rw [heq]
    · exact traceTrig (by omega) u
    · exact refl u) s

theorem traceEvent (src : Nat) (s : State) : KeepsCourse s (traceEvent src s) :=
  triggers (fun u b => by split <;> simp) s

end KeepsCourse

/-! ### Loop registers -/

/-- A loop that is marked for its new bank reads back on any table. -/
theorem loopOf_setLoop_of_swapped {l : Loop} (h : l.swapped = true) (n : Nat) (s : State) : loopOf (setLoop n l s) n = l :=
  sget_sset_eq _ _ _ _ (fun he => by simp [he] at h)

theorem bankSwap_of_same_bank {n : Fin 5} {v : Word} {s : State}
    (h : rbit (ownWrite pgMCE (loopBase n.val + 0x40) v s) pgMCE (loopBase n.val + 0x40) 0 = rbit s pgMCE (loopBase n.val + 0x40) 0) :
    bankSwap n v s = ownWrite pgMCE (loopBase n.val + 0x40) v s := by
  simp [bankSwap, h]

/-- A write that selects the other bank marks the loop, and triggers trace buffers (R227, R259). -/
theorem bankSwap_of_other_bank {n : Fin 5} {v : Word} {s u : State} (hu : u = ownWrite pgMCE (loopBase n.val + 0x40) v s)
    (h : rbit u pgMCE (loopBase n.val + 0x40) 0 ≠ rbit s pgMCE (loopBase n.val + 0x40) 0) :
    KeepsCourse (setLoop n.val { loopOf s n.val with swapped := true } u) (bankSwap n v s) := by
  have hloop : loopOf u n.val = loopOf s n.val := by rw [hu, loopOf, ownWrite_mot, loopOf]
  unfold bankSwap
  rw [← hu, ← hloop]
  dsimp only
  rw [if_neg h]
  exact KeepsCourse.triggers (fun w b => by split <;> simp) _

/-- The bank of a loop depends on the registers alone (R227). -/
theorem bankBase_of_keepsCourse {s t : State} (h : KeepsCourse s t) (n : Nat) : bankBase t n = bankBase s n := by
  rw [bankBase, bankBase, rbit, rbit, h.rget]

/-- A trim that would leave a bank's limits in disorder raises TRIM_REJECT alone; another is written (R228, R229, R263). -/
theorem trimWrite_eq {s : State} (hg : sget none s.rf.guard pgMCE = none) {n : Fin 5} {reg : Fin 16} (hr : reg.val % 8 ≠ 7) (v : Word) :
    trimWrite n reg v s =
      if pageEn s pgMCE = true ∧ bankBad (ownWrite pgMCE (loopBase n.val + 4 * reg.val) v s) (loopBase n.val + 0x20 * (reg.val / 8)) = true
      then raise pgMCE 1 s else ownWrite pgMCE (loopBase n.val + 4 * reg.val) v s := by
  simp [trimWrite, hr, touchPage_none hg]

/-- So does an SMPOL value that breaks a rule (R263). -/
theorem speedPolicyWrite_smpol {s : State} (hg : sget none s.rf.guard pgMCE = none) (v : Word) :
    speedPolicyWrite false v s =
      if pageEn s pgMCE = true ∧ smpolBad s v ≠ none then raise pgMCE 1 s else ownWrite pgMCE 0x3A0 v s := by
  simp [speedPolicyWrite, touchPage_none hg, Option.isSome_iff_ne_none]

/-- So does an SMFILL value that breaks its rule (R263). -/
theorem speedPolicyWrite_smfill {s : State} (hg : sget none s.rf.guard pgMCE = none) (v : Word) :
    speedPolicyWrite true v s =
      if pageEn s pgMCE = true ∧ smfillBad v = true then raise pgMCE 1 s else ownWrite pgMCE 0x3A4 v s := by
  simp [speedPolicyWrite, touchPage_none hg]

/-! ### Trace buffers -/

section Trace
variable {s : State} (hg : sget none s.rf.guard pgTRC = none) {b : Fin 4}

include hg in
/-- ARM starts a capture, with the entries not yet taken and the buffer's content kept (R258). -/
theorem traceArm_of_idle (h : (trcOf s b.val).armed = false) :
    traceArm b s = setTrc b.val { armed := true, entries := (trcOf s b.val).entries, mem := (trcOf s b.val).mem } (setArm b.val true s) := by
  have hkeep : trcOf (setArm b.val true s) b.val = trcOf s b.val := rfl
  simp [traceArm, touchPage_none hg, hkeep, h]

include hg in
theorem traceArm_of_armed (h : (trcOf s b.val).armed = true) : traceArm b s = setArm b.val true s := by
  have hkeep : trcOf (setArm b.val true s) b.val = trcOf s b.val := rfl
  simp [traceArm, touchPage_none hg, hkeep, h]

include hg in
theorem traceDisarm_eq : traceDisarm b s = setTrc b.val { trcOf s b.val with armed := false } (setArm b.val false s) := by
  have hkeep : trcOf (setArm b.val false s) b.val = trcOf s b.val := rfl
  simp [traceDisarm, touchPage_none hg, hkeep]

/-- A buffer that has triggered reads back on any table. -/
theorem trcOf_raise_setTrc_of_trig {t : TraceBuf} (h : t.trig = true) (page e n : Nat) (u : State) :
    trcOf (raise page e (setTrc n t u)) n = t := by
  rw [trcOf, raise_trc]
  exact sget_sset_eq _ _ _ _ (fun he => by simp [he] at h)

/-- An armed buffer triggers: 16,384 − PRE entries follow those recorded (R258). -/
theorem traceTrig_of_armed (ha : (trcOf s b.val).armed = true) (ht : (trcOf s b.val).trig = false) :
    (trcOf (traceTrig b.val s) b.val).trig = true ∧
      (trcOf (traceTrig b.val s) b.val).post = 16384 - rfld s pgTRC (0x10C + 0x20 * b.val) 13 0 ∧
      (trcOf (traceTrig b.val s) b.val).entries = (trcOf s b.val).entries ∧ evPending (traceTrig b.val s) pgTRC b.val = true := by
  simp only [traceTrig, ha, ht, Bool.not_true, Bool.false_eq_true, or_self, if_false]
  rw [trcOf_raise_setTrc_of_trig rfl]
  exact ⟨rfl, rfl, rfl, evPending_raise_self _ _ (by omega) _⟩

include hg in
theorem traceFire_of_software (h : rfld s pgTRC (0x104 + 0x20 * b.val) 2 0 = 0) : traceFire b s = traceTrig b.val s := by
  simp [traceFire, touchPage_none hg, h]

include hg in
theorem traceFire_of_other_source (h : rfld s pgTRC (0x104 + 0x20 * b.val) 2 0 ≠ 0) : traceFire b s = s := by
  simp [traceFire, touchPage_none hg, h]

/-- A one-shot buffer stops once the entries after its trigger are recorded (R258). -/
theorem traceCaptureEnd_of_recorded (ha : (trcOf s b.val).armed = true) (ht : (trcOf s b.val).trig = true)
    (hp : (trcOf s b.val).post = 0) (h : rbit s pgTRC (0x100 + 0x20 * b.val) 16 = false) :
    traceCaptureEnd b s = setArm b.val false (setTrc b.val { trcOf s b.val with armed := false } s) := by
  simp [traceCaptureEnd, ha, ht, hp, h]

end Trace

/-! ### The statement -/

theorem exec_bankSwap (n : Fin 5) (v : Word) (s : State) : exec (.bankSwap n v) s = .next (bankSwap n v s) := rfl
theorem exec_trimWrite (n : Fin 5) (reg : Fin 16) (v : Word) (s : State) : exec (.trimWrite n reg v) s = .next (trimWrite n reg v s) := rfl
theorem exec_speedPolicyWrite (fill : Bool) (v : Word) (s : State) :
    exec (.speedPolicyWrite fill v) s = .next (speedPolicyWrite fill v s) := rfl
theorem exec_traceArm (b : Fin 4) (s : State) : exec (.traceArm b) s = .next (traceArm b s) := rfl
theorem exec_traceDisarm (b : Fin 4) (s : State) : exec (.traceDisarm b) s = .next (traceDisarm b s) := rfl
theorem exec_traceFire (b : Fin 4) (s : State) : exec (.traceFire b) s = .next (traceFire b s) := rfl
theorem exec_traceCaptureEnd (b : Fin 4) (s : State) : exec (.traceCaptureEnd b) s = .next (traceCaptureEnd b s) := rfl

/-- Settles O45: each clause is what one lemma above says of its command. -/
theorem loopAndTraceRegisters : Obligations.LoopAndTraceRegisters := by
  simp only [Obligations.LoopAndTraceRegisters, exec_bankSwap, exec_trimWrite, exec_speedPolicyWrite, exec_traceArm, exec_traceDisarm,
    exec_traceFire, exec_traceCaptureEnd, Host.Outcome.next.injEq, exists_eq_left']
  refine ⟨fun s v hg => ⟨fun n => ⟨bankSwap_of_same_bank, fun hne => ?_⟩, fun n reg hr => trimWrite_eq hg hr v,
    speedPolicyWrite_smpol hg v, speedPolicyWrite_smfill hg v⟩,
    fun s b => ⟨fun hg => ⟨traceArm_of_idle hg, traceArm_of_armed hg, traceDisarm_eq hg, fun hsrc ha ht => ?_,
      traceFire_of_other_source hg⟩, traceCaptureEnd_of_recorded⟩⟩
  · have hkeep := bankSwap_of_other_bank rfl hne
    constructor
    · rw [loopOf, hkeep.mot]
      exact loopOf_setLoop_of_swapped rfl _ _
    · exact bankBase_of_keepsCourse hkeep n.val
  · rw [traceFire_of_software hg hsrc]
    exact traceTrig_of_armed ha ht

end Sys2Proof.Machine
end

section
/-! SUPPORT. What the write gate's sources and the entry of the stop governor do, and the statement on the governor (O46). -/

namespace Sys2Proof.Machine

/-! ### The write gate's sources -/

/-- The sources of the gate once source i holds or is released. -/
def gateSrc (i : Nat) (on : Bool) (src : BitVec 7) : BitVec 7 :=
  if bit src (i - 1) = on then src else if on then src ||| BitVec.ofNat 7 (2 ^ (i - 1)) else src &&& ~~~BitVec.ofNat 7 (2 ^ (i - 1))

/-- One source changes, and every other stays (R246). -/
theorem bit_gateSrc {i j : Nat} (hi : 1 ≤ i) (hj : j < 7) (on : Bool) (src : BitVec 7) :
    bit (gateSrc i on src) j = if j + 1 = i then on else bit src j := by
  have hpow : (BitVec.ofNat 7 (2 ^ (i - 1))).getLsbD j = decide (j + 1 = i) := by
    rw [BitVec.getLsbD_ofNat, Nat.testBit_two_pow]
    have hiff : i - 1 = j ↔ j + 1 = i := by omega
    simp [hj, hiff]
  unfold gateSrc
  split
  · next hsame =>
    split
    · next h => rw [← hsame, ← h, Nat.add_sub_cancel]
    · rfl
  · cases on
    · simp only [Bool.false_eq_true, if_false, bit, BitVec.getLsbD_and, BitVec.getLsbD_not, hpow, hj, decide_true, Bool.true_and]
      by_cases h : j + 1 = i <;> simp [h]
    · simp only [if_true, bit, BitVec.getLsbD_or, hpow]
      by_cases h : j + 1 = i <;> simp [h]

theorem drive_frame (f : Pins → Pins) (s : State) : ∃ pins, drive f s = { s with pins := pins } := by
  unfold drive
  split
  · exact ⟨_, rfl⟩
  · exact ⟨s.pins, rfl⟩

@[simp] theorem drive_mot (f : Pins → Pins) (s : State) : (drive f s).mot = s.mot := by
  obtain ⟨_, h⟩ := drive_frame f s; rw [h]

/-- Of the motion control engine's state the gate alone changes, and of it the sources alone. -/
theorem setGate_mot (i : Nat) (on : Bool) (s : State) :
    (setGate i on s).mot = { s.mot with gate := { s.mot.gate with src := gateSrc i on s.mot.gate.src } } := by
  unfold setGate gateSrc
  dsimp only
  split
  · rfl
  · cases on
    · simp
    · simp only [Bool.not_true, Bool.false_eq_true, if_false, if_true]
      split <;> simp [(KeepsCourse.traceEvent _ _).mot]

theorem bit_setGate {i j : Nat} (hi : 1 ≤ i) (hj : j < 7) (on : Bool) (s : State) :
    bit (setGate i on s).mot.gate.src j = if j + 1 = i then on else bit s.mot.gate.src j := by
  rw [setGate_mot]
  exact bit_gateSrc hi hj on _

/-! ### What leaves the crest's limits and the governor as they stand -/

/-- The times for which the crest limits have been passed, and must be, are the same, and no event is lost. -/
structure KeepsCrest (s t : State) : Prop where
  past : t.mot.past = s.mot.past
  times : rget t pgGOV 0x10C = rget s pgGOV 0x10C
  events : ∀ page b, evPending s page b = true → evPending t page b = true

/-- So are the governor, the planner, the move and the fences. -/
structure KeepsGovernor (s t : State) : Prop extends KeepsCrest s t where
  gov : t.mot.gov = s.mot.gov
  plan : t.mot.plan = s.mot.plan
  move : t.mot.move = s.mot.move
  itg : t.itg = s.itg

namespace KeepsCrest

theorem refl (s : State) : KeepsCrest s s := ⟨rfl, rfl, fun _ _ h => h⟩

theorem trans {s t u : State} (h : KeepsCrest s t) (h' : KeepsCrest t u) : KeepsCrest s u :=
  ⟨h'.past.trans h.past, h'.times.trans h.times, fun page b hb => h'.events page b (h.events page b hb)⟩

theorem crestHeld {s t : State} (h : KeepsCrest s t) (i : Nat) : crestHeld t i = crestHeld s i := by
  rw [Machine.crestHeld, Machine.crestHeld, crestTimes, crestTimes, rfld, rfld, h.times, h.past]

end KeepsCrest

namespace KeepsGovernor

theorem refl (s : State) : KeepsGovernor s s := ⟨KeepsCrest.refl s, rfl, rfl, rfl, rfl⟩

theorem trans {s t u : State} (h : KeepsGovernor s t) (h' : KeepsGovernor t u) : KeepsGovernor s u :=
  ⟨h.toKeepsCrest.trans h'.toKeepsCrest, h'.gov.trans h.gov, h'.plan.trans h.plan, h'.move.trans h.move, h'.itg.trans h.itg⟩

theorem after {s t u : State} (h' : KeepsGovernor t u) (h : KeepsGovernor s t) : KeepsGovernor s u := h.trans h'

theorem of_course {s t : State} (h : KeepsCourse s t) (hi : t.itg = s.itg) : KeepsGovernor s t :=
  ⟨⟨by rw [h.mot], h.rget _ _, h.events⟩, by rw [h.mot], by rw [h.mot], by rw [h.mot], hi⟩

theorem raise (page : Nat) {b : Nat} (hb : b < 16) (s : State) : KeepsGovernor s (raise page b s) :=
  of_course (KeepsCourse.raise page b hb s) (raise_itg page b s)

theorem drive (f : Pins → Pins) (s : State) : KeepsGovernor s (drive f s) := by
  obtain ⟨_, h⟩ := drive_frame f s
  rw [h]
  exact ⟨⟨rfl, rfl, fun _ _ h => h⟩, rfl, rfl, rfl, rfl⟩

theorem traceEvent (src : Nat) (s : State) : KeepsGovernor s (traceEvent src s) :=
  of_course (KeepsCourse.traceEvent src s) (by obtain ⟨_, _, _, h⟩ := traceEvent_frame src s; rw [h])

/-- The gate's own source, what a slot meets and its counters are beside the governor (R246). -/
theorem setGate (i : Nat) (on : Bool) (s : State) : KeepsGovernor s (setGate i on s) := by
  have hopen : ∀ src : BitVec 7, KeepsGovernor s (Machine.drive (fun p => { p with winh := decide (src ≠ 0) }) { s with mot.gate.src := src }) :=
    fun src => (drive ..).after ⟨⟨rfl, rfl, fun _ _ h => h⟩, rfl, rfl, rfl, rfl⟩
  have hcount : ∀ {u : State} lgs, KeepsGovernor s u →
      KeepsGovernor s (bump pgSRV (0xA00 + 4 * (i - 1)) 1 { u with tim.lgs := lgs }) :=
    fun lgs h => h.trans ⟨⟨rfl, rfl, fun _ _ h => h⟩, rfl, rfl, rfl, rfl⟩
  unfold Machine.setGate
  dsimp only
  split
  · exact refl s
  · split
    · exact hopen _
    · split
      · exact (hcount _ (hopen _)).trans ((raise _ (by decide) _).trans (traceEvent _ _))
      · exact hcount _ (hopen _)

theorem setPart (p : Nat) (f : PartEntry → PartEntry) (s : State) : KeepsGovernor s (setPart p f s) :=
  of_course (KeepsCourse.setPart p f s) (by unfold Machine.setPart; split <;> rfl)

theorem setAppend (part p : Nat) (s : State) : KeepsGovernor s (setAppend part p s) := by
  unfold Machine.setAppend
  split
  · exact setPart _ _ s
  · split
    · exact setPart _ _ s
    · exact refl s

theorem backAppend (p : Pass) (s : State) : KeepsGovernor s (backAppend p s) := by
  unfold Machine.backAppend
  dsimp only
  split
  · exact refl s
  · split
    · exact (setAppend ..).trans (setPart ..)
    · exact setAppend ..

theorem recordQuality (p : Pass) (cause : Nat) (s : State) : KeepsGovernor s (recordQuality p cause s) := by
  unfold Machine.recordQuality
  dsimp only
  split <;> exact ⟨⟨rfl, rfl, fun _ _ h => h⟩, rfl, rfl, rfl, rfl⟩

theorem closePass (p : Pass) (cause : Nat) (s : State) : KeepsGovernor s (closePass p cause s) :=
  (recordQuality p cause s).trans ((setGate 7 true _).after ⟨⟨rfl, rfl, fun _ _ h => h⟩, rfl, rfl, rfl, rfl⟩)

/-- Under the governor nothing is sent on (R251). -/
theorem of_active {s u : State} (hs : s.mot.gov.active = true) (h : KeepsGovernor s u) :
    KeepsGovernor s (if u.mot.gov.active = true then u else planTo 0 u) := by
  rwa [if_pos (h.gov ▸ hs)]

/-- A pass that ends under the governor sends the tape nowhere (R251). -/
theorem endPass (cause : Nat) {s : State} (h : s.mot.gov.active = true) : KeepsGovernor s (endPass cause s) := by
  have hclose : ∀ (p : Pass) (u : State) wait no, KeepsGovernor s u →
      KeepsGovernor s (Machine.closePass p cause { u with trk.waitPost := wait, trk.noPass := no }) :=
    fun p u wait no hu => hu.trans ((closePass ..).after ⟨⟨rfl, rfl, fun _ _ h => h⟩, rfl, rfl, rfl, rfl⟩)
  unfold Machine.endPass
  split
  · exact refl s
  · next p _ =>
    refine of_active h (hclose p _ _ _ ?_)
    split
    · exact (backAppend ..).after ⟨⟨rfl, rfl, fun _ _ h => h⟩, rfl, rfl, rfl, rfl⟩
    · exact refl s

end KeepsGovernor

/-! ### The entry of the governor -/

/-- Writing a value that is neither of two defaults makes the same table under both. -/
theorem sset_default_irrel {α : Type} [DecidableEq α] {d d' v : α} (h : v ≠ d) (h' : v ≠ d') (m : Sparse α) (k : Nat) :
    sset d m k v = sset d' m k v := by
  induction m with
  | nil => simp [sset, h, h']
  | cons x r ih => simp only [sset, h, h', if_false, ih]

/-- The record of a fence leaves the crest's times. -/
theorem rget_markFence_mce (s : State) : rget (markFence 0xC000 9 s) pgGOV 0x10C = rget s pgGOV 0x10C := by
  simp only [rget, markFence, noteFence, raise_regs, bump_rf, rset_rf]
  rw [sset_default_irrel (d' := regReset (rkey pgGOV 0x10C)) (by decide) (by decide)]
  exact sget_sset_ne _ _ _ _ _ (by decide) (by decide)

/-- The governor notes a cause, and a crest's cause that is new with its event (R250). -/
def noteGovCause (cause : Nat) (s : State) : State :=
  let t : State := { s with mot.gov.causes := s.mot.gov.causes ||| BitVec.ofNat 8 (2 ^ (cause - 4)) }
  if (!bit s.mot.gov.causes (cause - 4)) = true ∧ 5 ≤ cause ∧ cause ≤ 9 then raise pgGOV 2 t else t

/-- The governor takes the tape, passive at once where there is nothing to brake with (R251, R252). -/
def govTakes (s : State) : State :=
  let s := raise pgGOV 0 s
  let brake := !s.mot.sealed || !s.pins.motorUvN
  let s := { s with mot.gov := { s.mot.gov with active := true, rest := false, atRest := false, passive := brake,
                                                ref := s.mot.meas.speed } }
  let s := drive (fun p => { p with pwm := if brake then .passive else .governor }) s
  if brake then raise pgGOV 6 s else s

/-- The MCE is fenced, once (R249). -/
def mceFenced (s : State) : State := if isFenced s 0xC000 then s else markFence 0xC000 9 s

/-- Under the governor a cause is only noted; else the governor takes the tape, and the move and the pass end (R249 to R251). -/
theorem govEnter_eq (cause : Nat) (s : State) :
    govEnter cause s = if s.mot.gov.active = true then noteGovCause cause s
      else traceEvent 5 (setGate 4 true (mceStops (if cause = 10 then 6 else 1) (mceFenced (govTakes (noteGovCause cause s))))) := rfl

theorem noteGovCause_mot (cause : Nat) (s : State) :
    (noteGovCause cause s).mot =
      { s.mot with gov := { s.mot.gov with causes := s.mot.gov.causes ||| BitVec.ofNat 8 (2 ^ (cause - 4)) } } := by
  unfold noteGovCause
  dsimp only
  split <;> simp

theorem keepsCrest_noteGovCause (cause : Nat) (s : State) : KeepsCrest s (noteGovCause cause s) := by
  have hset : KeepsCrest s { s with mot.gov.causes := s.mot.gov.causes ||| BitVec.ofNat 8 (2 ^ (cause - 4)) } :=
    ⟨rfl, rfl, fun _ _ h => h⟩
  unfold noteGovCause
  dsimp only
  split
  · exact hset.trans (KeepsGovernor.raise pgGOV (by decide) _).toKeepsCrest
  · exact hset

/-- A crest's cause that is new has its event (R250). -/
theorem evPending_noteGovCause {cause : Nat} {s : State} (hnew : bit s.mot.gov.causes (cause - 4) = false) (hlo : 5 ≤ cause)
    (hhi : cause ≤ 9) : evPending (noteGovCause cause s) pgGOV 2 = true := by
  simp only [noteGovCause, hnew, hlo, hhi, Bool.not_false, and_self, if_true]
  exact evPending_raise_self _ _ (by decide) _

theorem noteGovCause_pins (cause : Nat) (s : State) : (noteGovCause cause s).pins = s.pins := by
  unfold noteGovCause
  dsimp only
  split <;> simp

section GovTakes
variable (s : State)

theorem govTakes_mot : (govTakes s).mot = { s.mot with gov := { s.mot.gov with
    active := true, rest := false, atRest := false, passive := !s.mot.sealed || !s.pins.motorUvN, ref := s.mot.meas.speed } } := by
  simp only [govTakes, raise_mot, raise_pins]
  split <;> simp

/-- The governor's own fields and its drive of the motors cost no event. -/
theorem evPending_govTakes_of_raise {page b : Nat} (h : evPending (raise pgGOV 0 s) page b = true) :
    evPending (govTakes s) page b = true := by
  unfold govTakes
  dsimp only
  have hdrive := fun f gov => ((KeepsGovernor.drive f { raise pgGOV 0 s with mot.gov := gov }).events page b) h
  split
  · exact (KeepsGovernor.raise pgGOV (by decide) _).events _ _ (hdrive _ _)
  · exact hdrive _ _

theorem keepsCrest_govTakes : KeepsCrest s (govTakes s) where
  past := by rw [govTakes_mot]
  times := by
    have hdrive : ∀ f u, rget (drive f u) pgGOV 0x10C = rget u pgGOV 0x10C := fun f u => (KeepsGovernor.drive f u).times
    unfold govTakes
    dsimp only
    split
    · rw [rget_raise, hdrive]
      exact rget_raise ..
    · rw [hdrive]
      exact rget_raise ..
  events _ _ h := evPending_govTakes_of_raise s ((KeepsGovernor.raise pgGOV (by decide) s).events _ _ h)

theorem evPending_govTakes : evPending (govTakes s) pgGOV 0 = true :=
  evPending_govTakes_of_raise s (evPending_raise_self _ _ (by decide) s)

theorem evPending_govTakes_of_passive (h : (govTakes s).mot.gov.passive = true) : evPending (govTakes s) pgGOV 6 = true := by
  rw [govTakes_mot] at h
  simp only [govTakes, raise_mot, raise_pins, show (!s.mot.sealed || !s.pins.motorUvN) = true from h, if_true]
  exact evPending_raise_self _ _ (by decide) _

theorem mceFenced_mot : (mceFenced s).mot = s.mot := by
  unfold mceFenced
  split
  · rfl
  · obtain ⟨_, _, _, h⟩ := markFence_frame 0xC000 9 s; rw [h]

theorem keepsCrest_mceFenced : KeepsCrest s (mceFenced s) where
  past := by rw [mceFenced_mot]
  times := by
    unfold mceFenced
    split
    · rfl
    · exact rget_markFence_mce s
  events _ _ h := by
    unfold mceFenced
    split
    · exact h
    · exact evPending_markFence_keep h _ _

theorem isFenced_mceFenced : isFenced (mceFenced s) 0xC000 = true := by
  unfold mceFenced
  split
  · assumption
  · exact isFenced_markFence (by decide) _ s

end GovTakes

/-- The planners stand and the move is over; the pass is to end (R249, R261). -/
def mceIdle (s : State) : State :=
  { abortMove s with mot.plan := {}, mot.lat := { (abortMove s).mot.lat with v := 0, a := 0, moving := false, blind := false },
                     mot.coast := false, trk.starting := none }

theorem mceStops_eq (cause : Nat) (s : State) : mceStops cause s = endPass cause (mceIdle s) := rfl

theorem mceIdle_gov (s : State) : (mceIdle s).mot.gov = s.mot.gov := by
  unfold mceIdle abortMove
  split <;> rfl

theorem mceIdle_itg (s : State) : (mceIdle s).itg = s.itg := by
  unfold mceIdle abortMove
  split <;> rfl

theorem mceIdle_plan (s : State) : (mceIdle s).mot.plan = {} := rfl

theorem mceIdle_move (s : State) : (mceIdle s).mot.move.status ≠ 1 := by
  unfold mceIdle abortMove
  split
  · exact (by decide : (3 : Nat) ≠ 1)
  · assumption

theorem keepsCrest_mceIdle (s : State) : KeepsCrest s (mceIdle s) := by
  unfold mceIdle abortMove
  split <;> exact ⟨rfl, rfl, fun _ _ h => h⟩

/-- The end of the pass, the gate's source 4 and the triggers of the entry leave the governor as it is. -/
theorem keepsGovernor_mceStops (c : Nat) {s : State} (h : s.mot.gov.active = true) :
    KeepsGovernor (mceIdle s) (traceEvent 5 (setGate 4 true (mceStops c s))) := by
  rw [mceStops_eq]
  exact ((KeepsGovernor.endPass c ((mceIdle_gov s).symm ▸ h)).trans (KeepsGovernor.setGate 4 true _)).trans (KeepsGovernor.traceEvent 5 _)

/-- The entry on a cause, or its noting, leaves the crest's times, and loses no event. -/
theorem keepsCrest_govEnter (cause : Nat) (s : State) : KeepsCrest s (govEnter cause s) := by
  have hnote := keepsCrest_noteGovCause cause s
  rw [govEnter_eq]
  split
  · exact hnote
  · have htakes := (hnote.trans (keepsCrest_govTakes _)).trans (keepsCrest_mceFenced _)
    exact (htakes.trans (keepsCrest_mceIdle _)).trans
      (keepsGovernor_mceStops _ (by rw [mceFenced_mot, govTakes_mot])).toKeepsCrest

section Enters
variable (cause : Nat) {s : State} (h : s.mot.gov.active = false)
include h

/-- What the entry makes of the state before the pass ends, and what follows leaves it so. -/
theorem keepsGovernor_govEnter :
    KeepsGovernor (mceIdle (mceFenced (govTakes (noteGovCause cause s)))) (govEnter cause s) := by
  rw [govEnter_eq, if_neg (by simp [h])]
  exact keepsGovernor_mceStops _ (by rw [mceFenced_mot, govTakes_mot])

/-- The governor is entered with its cause, on the present speed, passive where there is nothing to brake with (R250 to R252). -/
theorem govEnter_gov : (govEnter cause s).mot.gov = { s.mot.gov with
    active := true, rest := false, atRest := false, passive := !s.mot.sealed || !s.pins.motorUvN, ref := s.mot.meas.speed,
    causes := s.mot.gov.causes ||| BitVec.ofNat 8 (2 ^ (cause - 4)) } := by
  rw [(keepsGovernor_govEnter cause h).gov, mceIdle_gov, mceFenced_mot, govTakes_mot, noteGovCause_mot, noteGovCause_pins]

theorem evPending_govEnter : evPending (govEnter cause s) pgGOV 0 = true := by
  refine (keepsGovernor_govEnter cause h).events _ _ ((keepsCrest_mceIdle _).events _ _ ?_)
  exact (keepsCrest_mceFenced _).events _ _ (evPending_govTakes _)

theorem evPending_govEnter_of_passive (hp : (govEnter cause s).mot.gov.passive = true) : evPending (govEnter cause s) pgGOV 6 = true := by
  rw [(keepsGovernor_govEnter cause h).gov, mceIdle_gov, mceFenced_mot] at hp
  refine (keepsGovernor_govEnter cause h).events _ _ ((keepsCrest_mceIdle _).events _ _ ?_)
  exact (keepsCrest_mceFenced _).events _ _ (evPending_govTakes_of_passive _ hp)

theorem govEnter_move : (govEnter cause s).mot.move.status ≠ 1 := by
  rw [(keepsGovernor_govEnter cause h).move]
  exact mceIdle_move _

theorem govEnter_plan : (govEnter cause s).mot.plan = {} := by
  rw [(keepsGovernor_govEnter cause h).plan, mceIdle_plan]

theorem isFenced_govEnter : isFenced (govEnter cause s) 0xC000 = true := by
  rw [isFenced, fenceCause, (keepsGovernor_govEnter cause h).itg, mceIdle_itg]
  exact isFenced_mceFenced _

theorem govEnter_pass : (govEnter cause s).trk.pass = none := by
  rw [govEnter_eq, if_neg (by simp [h]), traceEvent_trk, setGate_trk, mceStops_eq, endPass_pass]

theorem govEnter_gate : bit (govEnter cause s).mot.gate.src 3 = true := by
  rw [govEnter_eq, if_neg (by simp [h]), (KeepsCourse.traceEvent 5 _).mot, bit_setGate (by decide) (by decide), if_pos rfl]

end Enters

/-- Entered or already active, the governor is active (R250). -/
theorem govEnter_active (cause : Nat) (s : State) : (govEnter cause s).mot.gov.active = true := by
  cases h : s.mot.gov.active with
  | false => rw [govEnter_gov cause h]
  | true => rw [govEnter_eq, if_pos h, noteGovCause_mot, h]

/-- Its cause joins those it has (R250). -/
theorem govEnter_causes (cause : Nat) (s : State) :
    (govEnter cause s).mot.gov.causes = s.mot.gov.causes ||| BitVec.ofNat 8 (2 ^ (cause - 4)) := by
  cases h : s.mot.gov.active with
  | false => rw [govEnter_gov cause h]
  | true => rw [govEnter_eq, if_pos h, noteGovCause_mot]

theorem evPending_govEnter_of_new {cause : Nat} {s : State} (hnew : bit s.mot.gov.causes (cause - 4) = false) (hlo : 5 ≤ cause)
    (hhi : cause ≤ 9) : evPending (govEnter cause s) pgGOV 2 = true := by
  have hev := evPending_noteGovCause hnew hlo hhi
  cases h : s.mot.gov.active with
  | true => rwa [govEnter_eq, if_pos h]
  | false =>
    refine (keepsGovernor_govEnter cause h).events _ _ ((keepsCrest_mceIdle _).events _ _ ?_)
    exact (keepsCrest_mceFenced _).events _ _ ((keepsCrest_govTakes _).events _ _ hev)

/-! ### A breach of the crest -/

/-- The governor may be entered, and its causes only grow, each new one of the crest with its event. -/
structure AddsCrestCauses (s t : State) : Prop extends KeepsCrest s t where
  active : s.mot.gov.active = true → t.mot.gov.active = true
  causes : ∀ k, bit s.mot.gov.causes k = true → bit t.mot.gov.causes k = true
  fresh : ∀ k, bit s.mot.gov.causes k = false → bit t.mot.gov.causes k = true → evPending t pgGOV 2 = true

namespace AddsCrestCauses

theorem refl (s : State) : AddsCrestCauses s s := ⟨KeepsCrest.refl s, id, fun _ h => h, fun k h h' => by simp [h] at h'⟩

theorem trans {s t u : State} (h : AddsCrestCauses s t) (h' : AddsCrestCauses t u) : AddsCrestCauses s u where
  toKeepsCrest := h.toKeepsCrest.trans h'.toKeepsCrest
  active ha := h'.active (h.active ha)
  causes k hk := h'.causes k (h.causes k hk)
  fresh k hs hu := by
    cases ht : bit t.mot.gov.causes k with
    | true => exact h'.events _ _ (h.fresh k hs ht)
    | false => exact h'.fresh k ht hu

end AddsCrestCauses

/-- Cause 5 + i of the crest sets its own bit, i + 1, and leaves every other (R250). -/
theorem bit_govEnter_causes {i : Nat} (hi : i < 5) (s : State) (k : Nat) :
    bit (govEnter (5 + i) s).mot.gov.causes k = (bit s.mot.gov.causes k || decide (k = i + 1)) := by
  have hpow : (BitVec.ofNat 8 (2 ^ (5 + i - 4))).getLsbD k = decide (k = i + 1) := by
    have hexp : 5 + i - 4 = i + 1 := by omega
    rw [BitVec.getLsbD_ofNat, Nat.testBit_two_pow, hexp]
    by_cases h : i + 1 = k
    · have hk : k < 8 := by omega
      simp [← h]; omega
    · simp [h, Ne.symm h]
  rw [govEnter_causes, bit, BitVec.getLsbD_or, hpow, bit]

/-- A cause of the crest enters the governor, or joins its causes (R250). -/
theorem addsCrestCauses_govEnter {i : Nat} (hi : i < 5) (s : State) : AddsCrestCauses s (govEnter (5 + i) s) where
  toKeepsCrest := keepsCrest_govEnter (5 + i) s
  active _ := govEnter_active (5 + i) s
  causes k hk := by rw [bit_govEnter_causes hi, hk, Bool.true_or]
  fresh k hs ht := by
    rw [bit_govEnter_causes hi, hs, Bool.false_or, decide_eq_true_eq] at ht
    subst ht
    exact evPending_govEnter_of_new (by rwa [show 5 + i - 4 = i + 1 by omega]) (by omega) (by omega)

/-- The causes of a breach are taken one after the other. -/
def crestCause (causes : BitVec 5) (s : State) (i : Nat) : State :=
  if bit causes i && crestHeld s i then govEnter (5 + i) s else s

theorem crestBreach_eq (causes : BitVec 5) (s : State) : crestBreach causes s = (List.range 5).foldl (crestCause causes) s := rfl

theorem addsCrestCauses_foldl (causes : BitVec 5) (l : List Nat) (hl : ∀ i ∈ l, i < 5) (s : State) :
    AddsCrestCauses s (l.foldl (crestCause causes) s) := by
  induction l generalizing s with
  | nil => exact AddsCrestCauses.refl s
  | cons i r ih =>
    have hstep : AddsCrestCauses s (crestCause causes s i) := by
      unfold crestCause
      split
      · exact addsCrestCauses_govEnter (hl i List.mem_cons_self) s
      · exact AddsCrestCauses.refl s
    exact hstep.trans (ih (fun j hj => hl j (List.mem_cons_of_mem i hj)) _)

/-- A limit that has been passed for its time enters the governor with its cause, whatever causes come with it (R250). -/
theorem crestBreach_of_held {causes : BitVec 5} {i : Nat} {s : State} (hi : i < 5) (hbit : bit causes i = true)
    (hheld : crestHeld s i = true) :
    AddsCrestCauses s (crestBreach causes s) ∧ (crestBreach causes s).mot.gov.active = true ∧
      bit (crestBreach causes s).mot.gov.causes (i + 1) = true := by
  have hlt : ∀ j ∈ List.range 5, j < 5 := fun j => List.mem_range.mp
  obtain ⟨before, after, hsplit⟩ := List.append_of_mem (List.mem_range.mpr hi)
  rw [crestBreach_eq]
  refine ⟨addsCrestCauses_foldl causes _ hlt s, ?_⟩
  rw [hsplit] at hlt
  rw [hsplit, List.foldl_append, List.foldl_cons]
  have hbefore := addsCrestCauses_foldl causes before (fun j hj => hlt j (List.mem_append_left _ hj)) s
  generalize before.foldl (crestCause causes) s = u at hbefore
  have hstep : crestCause causes u i = govEnter (5 + i) u := by
    rw [crestCause, hbefore.crestHeld, hbit, hheld, Bool.and_self, if_pos rfl]
  rw [hstep]
  have hafter := addsCrestCauses_foldl causes after (fun j hj => hlt j (by simp [hj])) (govEnter (5 + i) u)
  exact ⟨hafter.active (govEnter_active _ u), hafter.causes _ (by rw [bit_govEnter_causes hi]; simp)⟩

/-! ### Rest, passive braking and release -/

theorem govRest_of_low {s : State} (ha : s.mot.gov.active = true) (hp : s.mot.gov.passive = false) (hr : s.mot.gov.rest = false)
    (hlow : 500 ≤ s.mot.low) : govRest s = raise pgGOV 1 { s with mot.gov.rest := true, mot.gov.atRest := true } := by
  simp [govRest, ha, hp, hr, Nat.not_lt.mpr hlow]

theorem passiveRest_of_quiet {s : State} (ha : s.mot.gov.active = true) (hp : s.mot.gov.passive = true) (hq : 2500 ≤ s.mot.quiet) :
    passiveRest s = { s with mot.gov.atRest := true } := by
  simp [passiveRest, ha, hp, Nat.not_lt.mpr hq]

section Brake
variable {s : State} (ha : s.mot.gov.active = true) (hp : s.mot.gov.passive = false)
include ha hp

/-- The governor turns to passive braking: its event, and the motors' terminals (R252). -/
theorem brakePassive_eq :
    brakePassive s = raise pgGOV 6 (drive (fun p => { p with pwm := .passive }) { s with mot.gov.passive := true }) := by
  simp [brakePassive, ha, hp]

theorem brakePassive_passive : (brakePassive s).mot.gov.passive = true := by
  rw [brakePassive_eq ha hp, raise_mot, drive_mot]

theorem evPending_brakePassive : evPending (brakePassive s) pgGOV 6 = true := by
  rw [brakePassive_eq ha hp]
  exact evPending_raise_self _ _ (by decide) _

theorem brakePassive_pins :
    (brakePassive s).pins = if driving s = true then { s.pins with pwm := .passive } else s.pins := by
  have hdriving : driving { s with mot.gov.passive := true } = driving s := rfl
  rw [brakePassive_eq ha hp, raise_pins, drive, hdriving]
  split <;> rfl

end Brake

theorem passiveBrake_of_no_frame {s : State} (hf : 250 ≤ s.mot.meas.noFrame) (hv : s.mot.meas.speed ≠ 0) :
    passiveBrake s = brakePassive s := by
  simp [passiveBrake, Nat.not_lt.mpr hf, hv]

/-- A guarded write of the page that fails has the page's event (R268, R617). -/
theorem guardFail_gov (s : State) : guardFail pgGOV s = raise pgGOV 5 s := by
  have hblock : (blockOf s pgGOV).bind guardFailBit = some 5 := rfl
  rw [guardFail, hblock, raiseOpt]

section Release
variable {s : State} {v c : Word} (hg : sget none s.rf.guard pgGOV = none)
include hg

theorem govRelease_of_allowed (hc : c = ~~~v) (hv : v = 1) (hm : mayRelease s = true) :
    govRelease v c s = setGate 4 false (drive (fun p => { p with pwm := .off }) { s with mot.gov := { locked := s.mot.gov.locked } }) := by
  simp [govRelease, guardedWrite, hg, hc, hv, hm]

/-- A pair that does not match, another value, or a governor that may not be left: the write fails (R253, R616). -/
theorem govRelease_of_refused (h : c ≠ ~~~v ∨ v ≠ 1 ∨ mayRelease s = false) : govRelease v c s = raise pgGOV 5 s := by
  rw [← guardFail_gov, govRelease, guardedWrite, hg]
  by_cases hc : c = ~~~v
  · have hno : v ≠ 1 ∨ (!mayRelease s) = true := (h.resolve_left (not_not_intro hc)).imp id (by simp)
    dsimp only
    rw [if_pos hc, if_pos hno]
  · dsimp only
    rw [if_neg hc]

end Release

/-! ### The statement -/

theorem exec_stop (s : State) : exec .stop s = .next (stop s) := rfl
theorem exec_crestBreach (causes : BitVec 5) (s : State) : exec (.crestBreach causes) s = .next (crestBreach causes s) := rfl
theorem exec_govRest (s : State) : exec .govRest s = .next (govRest s) := rfl
theorem exec_passiveBrake (s : State) : exec .passiveBrake s = .next (passiveBrake s) := rfl
theorem exec_motorUvN (s : State) : exec .motorUvN s = .next (motorUvN s) := rfl
theorem exec_passiveRest (s : State) : exec .passiveRest s = .next (passiveRest s) := rfl
theorem exec_govRelease (v c : Word) (s : State) : exec (.govRelease v c) s = .next (govRelease v c s) := rfl

/-- Settles O46: each clause is what the lemmas above say of its command. -/
theorem governorEntersAndLeaves : Obligations.GovernorEntersAndLeaves := by
  intro s
  simp only [exec_stop, exec_crestBreach, exec_govRest, exec_passiveBrake, exec_motorUvN, exec_passiveRest, exec_govRelease,
    Host.Outcome.next.injEq, exists_eq_left']
  refine ⟨?stop, ?crest, ?brakes, passiveRest_of_quiet, ?release⟩
  case stop =>
    intro hg
    rw [stop, touchPage_none hg]
    refine ⟨govEnter_active 11 s, govEnter_causes 11 s, fun h => ⟨evPending_govEnter 11 h, govEnter_move 11 h, govEnter_pass 11 h,
      govEnter_plan 11 h, govEnter_gate 11 h, isFenced_govEnter 11 h, ?_, ?_, evPending_govEnter_of_passive 11 h⟩⟩
    · rw [govEnter_gov 11 h]
    · rw [govEnter_gov 11 h]
  case crest =>
    intro causes i hi hbit hheld
    obtain ⟨hadds, hactive, hcause⟩ := crestBreach_of_held hi hbit hheld
    exact ⟨hactive, hcause, fun hnew => hadds.fresh _ hnew hcause⟩
  case brakes =>
    refine fun ha hp => ⟨govRest_of_low ha hp, fun hf hv => ?_, ?_⟩
    · rw [passiveBrake_of_no_frame hf hv]
      refine ⟨brakePassive_passive ha hp, evPending_brakePassive ha hp, fun hd => ?_⟩
      rw [brakePassive_pins ha hp, if_pos hd]
    · refine ⟨brakePassive_passive ha hp, ?_, evPending_brakePassive ha hp⟩
      refine (congrArg Pins.motorUvN (brakePassive_pins (s := { s with pins.motorUvN := false }) ha hp)).trans ?_
      split <;> rfl
  case release =>
    refine fun v c hg => ⟨fun hc hv hm => ?_, govRelease_of_refused hg⟩
    rw [govRelease_of_allowed hg hc hv hm, setGate_mot, drive_mot]
    exact ⟨rfl, rfl, (bit_gateSrc (by decide) (by decide) _ _).trans (if_pos rfl), rfl⟩

end Sys2Proof.Machine
end

section
/-! SUPPORT. What a counter holds, and the statement on the write gate (O42). -/

namespace Sys2Proof.Machine

/-! ### Counters

A servo frame without a valid record counts 0 valid ones. A counter of 0 is listed in no canonical table, and the write of 0 takes its
entry out; where the table lists the counter a second time, the second entry shows. -/

/-- On a canonical table a counter holds what it held and what is added, be that 0, as far as it goes (R172). -/
theorem count_bump_of_swf {s : State} (h : swf (fun _ => (0 : Nat)) s.rf.cnt = true) (page off n : Nat) :
    count (bump page off n s) page off = min (count s page off + n) 0xFFFFFFFF :=
  sget_sset_self (fun _ => 0) h (rkey page off) _

/-- A device whose table lists the counter of valid servo records twice, first with 0. -/
def validsListedTwice : State := { State.reset with rf.cnt := [(rkey pgSRV 0xA1C, 0), (rkey pgSRV 0xA1C, 1)] }

theorem count_validsListedTwice : count validsListedTwice pgSRV 0xA1C = 0 := by decide

/-- A frame without any record counts no valid one, and the counter shows 1. -/
theorem count_servoRecord_validsListedTwice :
    count (servoRecord none none none none 0 {} validsListedTwice) pgSRV 0xA1C = 1 := by decide

/-! ### The statement -/

theorem exec_servoRecord (upper lower leadUpper leadLower : Option ServoRec) (period : Nat) (prog : ProgObs) (s : State) :
    exec (.servoRecord upper lower leadUpper leadLower period prog) s =
      .next (servoRecord upper lower leadUpper leadLower period prog s) := rfl

/-- Refutes O42: it asks for no canonical table of counters. Where the counter of valid servo records is listed twice, with 0 and with 1
(`validsListedTwice`), a frame without any record takes the first entry out, and the counter shows 1, not 0 + 0. `count_bump_of_swf` is
the rule on a canonical table. -/
theorem not_writeGateSources : ¬ Obligations.WriteGateSources := by
  intro h
  obtain ⟨-, -, -, -, -, -, -, hframe⟩ := h validsListedTwice
  obtain ⟨⟨t, ht, -, hcount, -⟩, -, -⟩ := hframe none none none none 0 {}
  rw [exec_servoRecord, Host.Outcome.next.injEq] at ht
  subst ht
  rw [count_servoRecord_validsListedTwice, count_validsListedTwice] at hcount
  exact absurd hcount (by decide)

end Sys2Proof.Machine
end

section
/-! SUPPORT. What the following-error timers leave of a loop, and the statement on the ticks and the control law (O43). -/

namespace Sys2Proof.Machine

/-! ### The timers and the loops' outputs

A loop whose registers come to be as reset is listed in no canonical table, and a write of that takes its entry out. Where the table lists
the loop again, the next entry shows: after the reel torques are formed the timers may so bring up another output. -/

theorem loopOf_setLoop {s : State} (h : swf (fun _ => ({} : Loop)) s.mot.loops = true) (n m : Nat) (l : Loop) :
    loopOf (setLoop n l s) m = if m = n then l else loopOf s m := by
  split
  · next heq => subst heq; exact sget_sset_self (fun _ => {}) h m l
  · next hne => exact sget_sset_other (fun _ => {}) h n m l hne {}

/-- One loop's timer (R248). -/
def feTimer (s : State) (n : Nat) : State :=
  let l := loopOf s n
  let far := decide ((rget s pgMCE (loopBase n + 0x48)).toNat < (l.sp - l.meas).natAbs)
  let held := (n = 2 || n = 3) && latHeld s
  setLoop n { l with fe := if far && !held then min (l.fe + 4) 65535 else 0 } s

theorem feTimers_eq (s : State) : feTimers s = if (!mceOn s) = true then s else (List.range 5).foldl feTimer s := rfl

/-- On a canonical table the timers leave every loop's output as it is (R248). -/
theorem loopOf_feTimers_u {s : State} (h : swf (fun _ => ({} : Loop)) s.mot.loops = true) (m : Nat) :
    (loopOf (feTimers s) m).u = (loopOf s m).u := by
  have hone : ∀ (t : State) (n : Nat), swf (fun _ => ({} : Loop)) t.mot.loops = true →
      swf (fun _ => ({} : Loop)) (feTimer t n).mot.loops = true ∧ (loopOf (feTimer t n) m).u = (loopOf t m).u := by
    refine fun t n ht => ⟨swf_sset (fun _ => ({} : Loop)) ht n _, ?_⟩
    rw [feTimer, loopOf_setLoop ht]
    split
    · next heq => rw [heq]
    · rfl
  have hall : ∀ (l : List Nat) (t : State), swf (fun _ => ({} : Loop)) t.mot.loops = true →
      (loopOf (l.foldl feTimer t) m).u = (loopOf t m).u := by
    intro l
    induction l with
    | nil => exact fun _ _ => rfl
    | cons n r ih =>
      intro t ht
      obtain ⟨hswf, hu⟩ := hone t n ht
      exact (ih _ hswf).trans hu
  rw [feTimers_eq]
  split
  · rfl
  · exact hall _ s h

/-- A device with its motion control engine on, whose table lists loop 0 three times: the first two have a timer that runs, the third
has an output of 2. -/
def loopListedThrice : State :=
  { rset State.reset pgMCE 0x004 1 with mot.loops := [(0, { fe := 1 }), (0, { fe := 1 }), (0, { u := 2 })] }

theorem quietTick_loopListedThrice : QuietTick loopListedThrice 10 64000 {} := ⟨rfl, fun _ h => by cases h⟩

/-- Its tick forms the torques of outputs of 0. -/
theorem torA_loopListedThrice : (t25Tick [] {} loopListedThrice).mot.torA = 0 := by decide +kernel

/-- The sample of loop 0 takes the first entry out, and its timer the second. -/
theorem loops_loopListedThrice :
    (loopOf (t25Tick [] {} loopListedThrice) 0).u = 2 ∧ (loopOf (t25Tick [] {} loopListedThrice) 1).u = 0 := by decide +kernel

/-! ### The statement -/

theorem exec_t25Tick (aux : List (BitVec 16)) (prog : ProgObs) (s : State) : exec (.t25Tick aux prog) s = .next (t25Tick aux prog s) := rfl

/-- Refutes O43: its clause on the T25 tick asks for no canonical table of loops. Where loop 0 is listed three times
(`loopListedThrice`), the torques are formed of outputs of 0, and after the tick loop 0 shows the third entry's output, 2, of which T_A
would be −1. On a canonical table the timers leave the outputs (`loopOf_feTimers_u`). -/
theorem not_loopsSampleAndTrip : ¬ Obligations.LoopsSampleAndTrip := by
  intro h
  obtain ⟨htick, -⟩ := h
  obtain ⟨t, ht, -, -, -, -, htorque⟩ := htick loopListedThrice [] {}
  rw [exec_t25Tick, Host.Outcome.next.injEq] at ht
  subst ht
  obtain ⟨hA, -⟩ := htorque (by decide) quietTick_loopListedThrice
  obtain ⟨h0, h1⟩ := loops_loopListedThrice
  rw [torA_loopListedThrice, h0, h1] at hA
  exact absurd hA (by decide)

end Sys2Proof.Machine
end

section
/-! SUPPORT. What leaves the lattice's tiles, fences, detour and schedules as they stand. -/

namespace Sys2Proof

/-- A listed key reads the same after a write of another, whatever is written, on any list. -/
theorem sget_sset_of_listed {α : Type} [DecidableEq α] {d : α} {m : Sparse α} {k j : Nat} (h : sget d m j ≠ d) (hj : j ≠ k)
    (v : α) : sget d (sset d m k v) j = sget d m j := by
  by_cases hv : v = d
  · induction m with
    | nil => exact absurd rfl h
    | cons x r ih =>
      obtain ⟨i, w⟩ := x
      simp only [sget] at h
      simp only [sset, hv, if_true]
      split
      · rfl
      · split
        · next hki =>
          subst hki
          have hlt : ¬ j < k := fun hlt => by simp [hj, hlt] at h
          simp only [sget, if_neg hj, if_neg hlt]
        · simp only [sget]
          split
          · rfl
          · next hji =>
            split
            · rfl
            · next hlt =>
              rw [if_neg hji, if_neg hlt] at h
              exact hv ▸ ih h
  · exact sget_sset_ne d m k j v hv hj

end Sys2Proof

namespace Sys2Proof.Machine

/-! ### The relation -/

/-- The pages behind LAT have their counters behind those of fences and detours. -/
theorem rkey_high {page : Nat} (h : 9 < page) (off : Nat) : rkey pgLAT 0xA04 < rkey page off := by
  simp only [rkey, pgLAT]
  omega

/-- What the register side, the lattice and the quote keys may become beside the lattice's work: its tiles, fences, detour and schedules
and the quote keys are the same, no event is lost, and a counter of fences or detours that has counted stands. -/
structure BesideIn (s : State) (rf : RegState) (lat : LatticeSt) (quotes : List QuoteKey) : Prop where
  tiles : lat.tiles = s.lat.tiles
  lastFence : lat.lastFence = s.lat.lastFence
  detour : lat.detour = s.lat.detour
  sched : lat.sched = s.lat.sched
  quotes : quotes = s.vlt.quotes
  events : ∀ page b, evPending s page b = true → (sget {} rf.ev page).pend.getLsbD b = true
  counts : ∀ off, off ≤ 0xA04 → count s pgLAT off ≠ 0 → sget 0 rf.cnt (rkey pgLAT off) = count s pgLAT off

/-- A state differs from another only beside the lattice's work. It is said of those parts alone, so that after an update of any other
part it is the same statement. -/
def Beside (s t : State) : Prop := BesideIn s t.rf t.lat t.vlt.quotes

namespace Beside

theorem refl (s : State) : Beside s s := ⟨rfl, rfl, rfl, rfl, rfl, fun _ _ h => h, fun _ _ _ => rfl⟩

theorem trans {s t u : State} (h : Beside s t) (h' : Beside t u) : Beside s u where
  tiles := h'.tiles.trans h.tiles
  lastFence := h'.lastFence.trans h.lastFence
  detour := h'.detour.trans h.detour
  sched := h'.sched.trans h.sched
  quotes := h'.quotes.trans h.quotes
  events p b hb := h'.events p b (h.events p b hb)
  counts off hle hne := by
    have hst : count t pgLAT off = count s pgLAT off := h.counts off hle hne
    exact (h'.counts off hle (hst ▸ hne)).trans hst

section Steps
variable {s₀ s t : State} (h : Beside s₀ s)
include h

theorem ite {c : Prop} [Decidable c] (h' : Beside s₀ t) : Beside s₀ (if c then s else t) := by split <;> assumption

theorem foldl {α : Type} {f : State → α → State} (hf : ∀ u a, Beside s₀ u → Beside s₀ (f u a)) (l : List α) :
    Beside s₀ (l.foldl f s) := by
  induction l generalizing s with
  | nil => exact h
  | cons a r ih => exact ih (hf s a h)

theorem foldNat {α : Type} {f : State → α → State} (hf : ∀ u a, Beside s₀ u → Beside s₀ (f u a)) (l : List α) :
    Beside s₀ (foldNat f s l) := by
  induction l generalizing s with
  | nil => exact h
  | cons a r ih => exact ih (hf s a h)

/-! ### Registers, counters, events and outputs -/

theorem rset (page off : Nat) (v : Word) : Beside s₀ (rset s page off v) := { h with }

/-- A counter of another page, or behind those of fences and detours. -/
theorem setCounter {k : Nat} (hk : k < rkey pgLAT 0 ∨ rkey pgLAT 0xA04 < k) (x : Nat) : Beside s₀ { s with rf.cnt := sset 0 s.rf.cnt k x } :=
  { h with
    counts := fun off hle hne => by
      have hs : sget 0 s.rf.cnt (rkey pgLAT off) = count s₀ pgLAT off := h.counts off hle hne
      rw [← hs]
      exact sget_sset_of_listed (hs ▸ hne) (by simp only [rkey] at hk ⊢; omega) _ }

theorem bump {page off : Nat} (hk : rkey page off < rkey pgLAT 0 ∨ rkey pgLAT 0xA04 < rkey page off) (n : Nat) :
    Beside s₀ (bump page off n s) := h.setCounter hk _

theorem bump64 {page off : Nat} (hk : rkey page off < rkey pgLAT 0 ∨ rkey pgLAT 0xA04 < rkey page off) (n : Nat) :
    Beside s₀ (bump64 page off n s) := h.setCounter hk _

theorem logEv (page b : Nat) (seq : BitVec 16) : Beside s₀ (logEv page b seq s) := by
  have hnew : Beside s₀ (Machine.logEv.logNew page b seq s) := by
    unfold Machine.logEv.logNew
    extract_lets ent
    split
    · exact { h with }
    · have hlog : Beside s₀ { s with rf.evlog := (ent :: s.rf.evlog).take 16384, rf.evOver := s.rf.evOver + 1 } := { h with }
      exact hlog.bump (.inl (by decide)) 1
  unfold Machine.logEv
  split
  · split
    · exact { h with }
    · exact hnew
  · exact hnew

theorem raise (page b : Nat) : Beside s₀ (raise page b s) := by
  have hev : Beside s₀ { s with rf.ev := sset {} s.rf.ev page (setEv b (evOf s page)) } :=
    { h with
      events := fun q c hc => by
        have hs : (evOf s q).pend.getLsbD c = true := h.events q c hc
        have hne : ∀ e : EvPage, e.pend.getLsbD c = true → e ≠ {} := fun e he heq => by simp [heq] at he
        by_cases hq : q = page
        · subst hq
          have hset : (setEv b (evOf s q)).pend.getLsbD c = true := by simp [setEv, hs]
          exact (congrArg (·.pend.getLsbD c) (sget_sset_eq _ _ _ _ (hne _ hset))).trans hset
        · exact (congrArg (·.pend.getLsbD c) (sget_sset_of_listed (hne _ hs) hq _)).trans hs }
  unfold Machine.raise msixOnRise
  dsimp only
  split
  · exact hev.logEv ..
  · exact hev.logEv ..

theorem drive (f : Pins → Pins) : Beside s₀ (drive f s) := by
  obtain ⟨_, hd⟩ := drive_frame f s
  rw [hd]
  exact h

/-! ### Queues, packets and completions -/

theorem modCmd (c : Nat) (f : Cmd → Cmd) : Beside s₀ (modCmd c f s) := h

theorem haltPair (f : Fin 64) (q : Fin 16) : Beside s₀ (haltPair f q s) := h

theorem signalPair (f : Fin 64) (q : Fin 16) : Beside s₀ (signalPair f q s) := by
  unfold Machine.signalPair
  dsimp only
  split <;> exact h

theorem winFaultPair (f : Fin 64) (q : Fin 16) (a : Nat) (wr : Bool) (kind : Nat) : Beside s₀ (winFaultPair f q a wr kind s) := by
  have hwin : Beside s₀ (winRefused f.val a wr kind 0 s) :=
    bump (((h.rset ..).rset ..).rset ..) (.inr (rkey_high (by simp only [pgWIN]; omega) _)) 1
  exact (hwin.haltPair f q).raise ..

theorem postPcie (f : Fin 64) (q : Fin 16) (c : Cmd) (st : BitVec 16) (res : BitVec 64) : Beside s₀ (postPcie f q c st res s) := by
  unfold Machine.postPcie
  dsimp only
  split
  · exact h
  · split
    · exact h.winFaultPair ..
    · refine signalPair (ite ?_ (bump ?_ (.inr (rkey_high (by simp only [pgQMG]; omega) _)) 1)) f q <;> exact h

theorem txFrame (q : Fin 1024) (p : Packet) : Beside s₀ (txFrame q p s) := by
  unfold Machine.txFrame
  dsimp only
  split
  · exact h
  · split
    · exact h
    · exact h.bump64 (.inr (rkey_high (by simp only [pgNET]; omega) _)) 1

theorem sendCapsule (q : Fin 1024) : Beside s₀ (sendCapsule q s) := by
  unfold Machine.sendCapsule
  dsimp only
  split
  · exact h
  · exact bump (txFrame (s := setQp q _ s) h ..) (.inr (by decide)) 1

theorem postNet (q : Fin 1024) (c : Cmd) (st : BitVec 16) (res : BitVec 64) : Beside s₀ (postNet q c st res s) := by
  unfold Machine.postNet netPost
  dsimp only
  split
  · exact h
  · exact ite (sendCapsule (s := setQp q _ s) h q) h

theorem drainCheck (src : Src) : Beside s₀ (drainCheck src s) := by
  unfold Machine.drainCheck
  dsimp only
  split
  · exact h
  · next q =>
    have hfree : Beside s₀ (setQp q {} { Machine.sendCapsule q s with net.qopBusy := false }) := h.sendCapsule q
    split
    · exact ite ((hfree.rset ..).raise ..) h
    · exact h

theorem logError (c : Cmd) (st : BitVec 16) (res : BitVec 64) : Beside s₀ (logError s c st res) := by
  unfold Machine.logError
  dsimp only
  split <;> exact h

theorem postOne (c : Cmd) (st : BitVec 16) (res : BitVec 64) : Beside s₀ (postOne c st res s) := by
  have hdrop : Beside s₀ (dropCmd c.handle s) := h
  unfold Machine.postOne
  dsimp only
  refine drainCheck (ite hdrop (logError ?_ c st res)) c.src
  split
  · exact hdrop.postPcie ..
  · exact hdrop.postNet ..

theorem postScan (l : List Cmd) (blk : List Src) : Beside s₀ (postScan l blk s) := by
  induction l generalizing blk s with
  | nil => exact h
  | cons c r ih =>
    unfold Machine.postScan
    split
    · exact ih h _
    · exact ite (ih (h.postOne ..) _) (ih h _)

theorem postReady : Beside s₀ (postReady s) := ite h (h.postScan ..)

theorem meter (p : Nat) (f : Meter → Meter) : Beside s₀ (meter p f s) := by
  unfold Machine.meter
  split <;> exact h

theorem meterPart (part : Nat) (f : Meter → Meter) : Beside s₀ (meterPart part f s) := by
  unfold Machine.meterPart
  split
  · exact h.meter ..
  · exact h

theorem done (c : Nat) (st : BitVec 16) (res : Nat) : Beside s₀ (done c st res s) :=
  foldl (postReady (h.modCmd ..)) (fun _ _ hu => hu.meter ..) _

/-! ### Slots, fences and generations -/

theorem setPart (p : Nat) (f : PartEntry → PartEntry) : Beside s₀ (setPart p f s) := by
  unfold Machine.setPart
  split <;> exact h

theorem setSlot (i : Nat) (x : Slot) : Beside s₀ (setSlot i x s) := h

theorem quotaCut : Beside s₀ (quotaCut s) := by
  unfold Machine.quotaCut
  split
  · exact h
  · split
    · exact h
    · exact raise (h.rset ..) ..

theorem freeSlot (i : Nat) : Beside s₀ (freeSlot i s) :=
  ite (quotaCut (raise (bump (h.setSlot ..) (.inl (by decide)) 1) ..)) (h.setSlot ..)

theorem noteFence (code cause : Nat) : Beside s₀ (noteFence code cause s) := raise (bump (h.rset ..) (.inl (by decide)) 1) ..

theorem markFence (code cause : Nat) : Beside s₀ (markFence code cause s) :=
  have hmark : Beside s₀ { s with itg.fences := sset 0 s.itg.fences code cause } := h
  hmark.noteFence code cause

theorem newGen : Beside s₀ (newGen s) := by
  unfold Machine.newGen newGenAs
  split
  · exact h
  · exact ite h h

theorem writeCopyA (unl : Bool) : Beside s₀ (writeCopyA unl s) := by
  unfold Machine.writeCopyA
  split
  · exact h
  · exact ite h h

theorem hkSettle : Beside s₀ (hkSettle s) := by
  unfold Machine.hkSettle
  (repeat' split) <;> exact h

theorem freeSlots (p : Slot → Bool) : Beside s₀ (freeSlots p s) := h.foldNat (fun _ _ hu => hu.freeSlot _) _

theorem dismount : Beside s₀ (dismount s) := freeSlots (by exact { h with }) _

theorem unloadCheck : Beside s₀ (unloadCheck s) := by
  unfold Machine.unloadCheck
  split
  · exact h
  · split
    · exact h
    · split
      · exact h
      · split
        · exact writeCopyA (ite h h.newGen) true
        · exact h
        · exact h.dismount.done ..

/-! ### The planner, the gate and the end of a pass -/

theorem planTo (v : Int) : Beside s₀ (planTo v s) := h

theorem abortMove : Beside s₀ (abortMove s) := by
  unfold Machine.abortMove
  split <;> exact h

theorem restMove : Beside s₀ (restMove s) := ite (h.abortMove.planTo 0) h.abortMove

theorem traceTrig (b : Nat) : Beside s₀ (traceTrig b s) := by
  unfold Machine.traceTrig
  dsimp only
  split
  · exact h
  · exact raise (s := setTrc b _ s) h ..

theorem traceEvent (src : Nat) : Beside s₀ (traceEvent src s) := h.foldl (fun _ b hu => ite (hu.traceTrig b) hu) _

theorem setGate (i : Nat) (on : Bool) : Beside s₀ (setGate i on s) := by
  unfold Machine.setGate
  extract_lets g m was src mot gate u tim v w
  have hu : Beside s₀ u := drive (by exact h) _
  have hv : Beside s₀ v := hu
  have hw : Beside s₀ w := hv.bump (.inr (rkey_high (by decide) _)) 1
  exact ite h (ite hu (ite ((hw.raise ..).traceEvent 4) hw))

theorem setAppend (part p : Nat) : Beside s₀ (setAppend part p s) := by
  unfold Machine.setAppend
  split
  · exact h.setPart ..
  · split
    · exact h.setPart ..
    · exact h

theorem backAppend (p : Pass) : Beside s₀ (backAppend p s) := by
  unfold Machine.backAppend
  dsimp only
  split
  · exact h
  · split
    · exact (h.setAppend ..).setPart ..
    · exact h.setAppend ..

theorem recordQuality (p : Pass) (cause : Nat) : Beside s₀ (recordQuality p cause s) := by
  unfold Machine.recordQuality
  dsimp only
  split <;> exact h

theorem closePass (p : Pass) (cause : Nat) : Beside s₀ (closePass p cause s) :=
  setGate (by exact h.recordQuality p cause) 7 true

theorem endPass (cause : Nat) : Beside s₀ (endPass cause s) := by
  unfold Machine.endPass
  split
  · exact h
  · next p _ =>
    extract_lets again bas u trk waits v
    have hu : Beside s₀ u := by
      dsimp only [u]
      split
      · exact backAppend (by exact h) p
      · exact h
    have hv : Beside s₀ v := closePass (by exact hu) p cause
    exact ite hv (hv.planTo 0)

theorem modPass (f : Pass → Pass) : Beside s₀ (modPass f s) := h

theorem requestEnd (cause : Nat) : Beside s₀ (requestEnd cause s) := h

theorem wlkCount (off key : Nat) : Beside s₀ (wlkCount off key s) := h.bump (.inr (rkey_high (by decide) _)) 1

/-! ### Verdicts and retries -/

theorem setCh (c : Nat) (x : Chan) : Beside s₀ (setCh c x s) := h

theorem freeNext : Beside s₀ (freeNext s) := h

theorem releaseSlot (part i : Nat) : Beside s₀ (releaseSlot part i s) := by
  unfold Machine.releaseSlot
  extract_lets x u v w y
  have hu : Beside s₀ u := h.meterPart ..
  have hv : Beside s₀ v := by
    dsimp only [v]
    split <;> exact hu
  have hw : Beside s₀ w := hv.setPart ..
  have hy : Beside s₀ y := by
    dsimp only [y]
    split
    · split
      · exact (hw.setAppend ..).modPass _
      · exact hw
    · exact hw
  exact hy.freeSlot i

theorem releaseSlots (part n : Nat) : Beside s₀ (releaseSlots part n s) := by
  induction n generalizing s with
  | zero => exact h
  | succ n ih =>
    unfold Machine.releaseSlots
    dsimp only
    split
    · exact ite (ih (h.releaseSlot ..)) h
    · exact h

theorem degradeChan (i : Inst) (c : Nat) : Beside s₀ (degradeChan i c s) := by
  unfold Machine.degradeChan
  split
  · exact h
  · exact raise (raise ((h.modPass _).setCh ..) ..) ..

theorem retryInst (i : Inst) (cause : Nat) (chans : List Nat) : Beside s₀ (retryInst i cause chans s) := by
  unfold Machine.retryInst
  split
  · exact h
  · exact ite ((h.requestEnd 2).raise ..) (raise (wlkCount (rset (h.modPass _) ..) ..) ..)

theorem judgeInst (dsn pos : Nat) : Beside s₀ (judgeInst dsn pos s) := by
  have hdeg : ∀ i (l : List Nat), Beside s₀ (l.foldl (fun s c => Machine.degradeChan i c s) s) :=
    fun i => h.foldl (fun _ c hu => hu.degradeChan i c)
  unfold Machine.judgeInst
  dsimp only
  split
  · exact h
  · split
    · exact h
    · refine ite h (ite (((hdeg ..).requestEnd 3).raise ..) ?_)
      split
      · exact hdeg ..
      · refine ite ((hdeg ..).retryInst ..) ?_
        split
        · exact ((hdeg ..).modPass _).retryInst ..
        · exact (hdeg ..).modPass _

theorem notePassed : Beside s₀ (notePassed s) := by
  unfold Machine.notePassed
  split
  · exact h
  · exact releaseSlots (by exact h) ..

theorem judge : Beside s₀ (judge s) := by
  unfold Machine.judge
  split
  · exact h
  · exact notePassed (foldl (h.modPass _) (fun _ _ hu => hu.judgeInst ..) _)

theorem modInst (p : Nat) (f : Inst → Inst) : Beside s₀ (modInst p f s) := by
  unfold Machine.modInst
  dsimp only
  split
  · exact h
  · split
    · split <;> exact h
    · exact h

theorem noteVerdict (ph r : Nat) (m : Option (BitVec 7)) : Beside s₀ (noteVerdict ph r m s) :=
  bump (setCh (ite h h.freeNext) ..) (.inr (rkey_high (by simp only [pgRCH]; omega) _)) 1

theorem lateVerdict (c r : Nat) : Beside s₀ (lateVerdict c r s) := by
  unfold Machine.lateVerdict
  split <;> exact h

theorem keepVerdict (i : Inst) (c slot r : Nat) : Beside s₀ (keepVerdict i c slot r s) := by
  unfold Machine.keepVerdict
  dsimp only
  (repeat' split) <;> exact h

theorem hkVerdict (i : Inst) (c slot r : Nat) : Beside s₀ (hkVerdict i c slot r s) :=
  unloadCheck (hkSettle (by exact h.modInst ..))

theorem issueVerdict (i : Inst) (c slot r : Nat) (m : Option (BitVec 7)) : Beside s₀ (issueVerdict i c slot r m s) := by
  have hkeep : Beside s₀ (Machine.keepVerdict i c slot r (Machine.noteVerdict (instChan s i c) r m s)) :=
    (h.noteVerdict ..).keepVerdict ..
  exact ite (hkeep.hkVerdict ..) (ite ((hkeep.modInst ..).lateVerdict ..) hkeep)

theorem failInst (chans : List Nat) (i : Inst) : Beside s₀ (failInst chans i s) := by
  refine modInst (h.foldl (fun u k hu => ?_) _) ..
  split
  · exact hu.issueVerdict ..
  · exact hu

theorem failUnverified (chans : List Nat) : Beside s₀ (failUnverified chans s) :=
  ite h (judge (h.foldl (fun _ i hu => hu.failInst chans i) _))

/-! ### The governor and a fence without detour -/

theorem mceStops (cause : Nat) : Beside s₀ (mceStops cause s) := endPass (by exact h.abortMove) cause

theorem govEnter (cause : Nat) : Beside s₀ (govEnter cause s) := by
  have hnote : Beside s₀ (noteGovCause cause s) := by
    unfold noteGovCause
    exact ite (raise (by exact h) ..) h
  have htakes : Beside s₀ (govTakes (noteGovCause cause s)) := by
    have hdriven : ∀ gov f, Beside s₀ (Machine.drive f { Machine.raise pgGOV 0 (noteGovCause cause s) with mot.gov := gov }) :=
      fun gov f => drive (by exact hnote.raise ..) f
    exact ite ((hdriven ..).raise ..) (hdriven ..)
  have hmce : Beside s₀ (mceFenced (govTakes (noteGovCause cause s))) := ite htakes (htakes.markFence ..)
  rw [govEnter_eq]
  exact ite hnote (((hmce.mceStops _).setGate ..).traceEvent 5)

theorem noDetour (role : Nat) : Beside s₀ (noDetour role s) := by
  unfold Machine.noDetour
  extract_lets u trk v trk' w
  have hu : Beside s₀ u := raise (h.bump (.inr (by decide)) 1) ..
  have hv : Beside s₀ v := requestEnd (by exact hu) 7
  have hw : Beside s₀ w := by
    dsimp only [w]
    split
    · exact restMove (by exact hv)
    · exact hv
  exact ite hw (hw.modPass _)

end Steps

end Beside

end Sys2Proof.Machine
end

section
/-! SUPPORT. What the operations on tiles, fences, detours and staged images make of the lattice. -/

namespace Sys2Proof.Machine

/-! ### Operations that write tiles alone -/

theorem foldl_tiles {α : Type} {f : State → α → State} (h : ∀ s a, ∃ m, f s a = { s with lat.tiles := m }) (l : List α) (s : State) :
    ∃ m, l.foldl f s = { s with lat.tiles := m } := by
  induction l generalizing s with
  | nil => exact ⟨s.lat.tiles, rfl⟩
  | cons a r ih =>
    obtain ⟨m, hm⟩ := h s a
    obtain ⟨m', hm'⟩ := ih (f s a)
    exact ⟨m', hm'.trans (by rw [hm])⟩

theorem stageBanks_tiles (img : SchedImage) (s : State) : ∃ m, stageBanks img s = { s with lat.tiles := m } :=
  foldl_tiles (fun _ _ => ⟨_, rfl⟩) _ s

theorem markDue_tiles (ts : List Nat) (s : State) : ∃ m, markDue ts s = { s with lat.tiles := m } :=
  foldl_tiles (fun s t => by dsimp only; split <;> exact ⟨_, rfl⟩) ts s

theorem applyInit_tiles (img : SchedImage) (s : State) : ∃ m, applyInit img s = { s with lat.tiles := m } :=
  foldl_tiles (fun _ _ => ⟨_, rfl⟩) _ s

theorem swapAll_tiles (s : State) : ∃ m, swapAll s = { s with lat.tiles := m } :=
  foldl_tiles (fun _ _ => ⟨_, rfl⟩) _ s

/-! ### Single tiles -/

theorem Beside.tileOf {s t : State} (h : Beside s t) (n : Nat) : tileOf t n = tileOf s n :=
  congrArg (fun m => sget ({} : Tile) m n) h.tiles

theorem tileOf_withSched (s : State) (c : SchedSt) (n : Nat) : tileOf { s with lat.sched := c } n = tileOf s n := rfl

theorem tileOf_setTile_of_ne_reset {x : Tile} (h : x ≠ {}) (t : Nat) (s : State) : tileOf (setTile t x s) t = x :=
  sget_sset_eq _ _ _ _ h

theorem tileOf_setTile_of_listed {t u : Nat} {s : State} (h : tileOf s u ≠ {}) (hu : u ≠ t) (x : Tile) :
    tileOf (setTile t x s) u = tileOf s u := sget_sset_of_listed h hu x

theorem ne_reset_of_reason {x : Tile} (h : x.reason ≠ 0) : x ≠ {} := fun hx => h (by rw [hx])

theorem ne_reset_of_due {x : Tile} (h : x.due = true) : x ≠ {} := fun hx => by simp [hx] at h

/-- A tile that waits for its switch goes on waiting while others are marked (R299). -/
theorem tileOf_markDue_of_due {n : Nat} {l : List Nat} (hn : n ∉ l) {s : State} (h : (tileOf s n).due = true) :
    tileOf (markDue l s) n = tileOf s n := by
  induction l generalizing s with
  | nil => rfl
  | cons a r ih =>
    obtain ⟨hna, hnr⟩ : n ≠ a ∧ n ∉ r := by simpa using hn
    have hset : ∀ x, tileOf (setTile a x s) n = tileOf s n := tileOf_setTile_of_listed (ne_reset_of_due h) hna
    rw [markDue, List.foldl_cons]
    dsimp only
    split
    · exact (ih hnr (by rw [hset, h])).trans (hset _)
    · exact (ih hnr (by rw [hset, h])).trans (hset _)

/-- A tile without fence, with a standby bank that some tick reaches, waits for its switch from then on (R299, R307). -/
theorem tileOf_markDue_head {n : Nat} {l : List Nat} (hn : n ∉ l) {s : State} (hr : (tileOf s n).reason = 0)
    (hd : entDomain (tileOf s n).stby.ent ≠ none) : tileOf (markDue (n :: l) s) n = { tileOf s n with due := true } := by
  have hgo : ¬ ((tileOf s n).reason ≠ 0 ∨
      ((entDomain (tileOf s n).act.ent).isNone = true ∧ (entDomain (tileOf s n).stby.ent).isNone = true)) := by
    simp [hr, hd]
  have hset : tileOf (setTile n { tileOf s n with due := true } s) n = { tileOf s n with due := true } :=
    tileOf_setTile_of_ne_reset (ne_reset_of_due rfl) n s
  rw [markDue, List.foldl_cons]
  dsimp only
  rw [if_neg hgo]
  exact (tileOf_markDue_of_due hn (by rw [hset])).trans hset

theorem swf_stageBank {s : State} (h : swf (fun _ => ({} : Tile)) s.lat.tiles = true) (t : Nat) (b : TileBank) :
    swf (fun _ => ({} : Tile)) (stageBank t b s).lat.tiles = true := swf_sset (fun _ => ({} : Tile)) h t _

/-- An image is staged into every tile of a list, on a canonical table (R298). -/
theorem stby_foldl_stageBank {f : Nat → TileBank} {n : Nat} (l : List Nat) {s : State} (hs : swf (fun _ => ({} : Tile)) s.lat.tiles = true)
    (h : n ∈ l ∨ (tileOf s n).stby = f n) : (tileOf (l.foldl (fun s t => stageBank t (f t) s) s) n).stby = f n := by
  induction l generalizing s with
  | nil => exact h.resolve_left (by simp)
  | cons a r ih =>
    refine ih (swf_stageBank hs a (f a)) ?_
    by_cases hna : n = a
    · subst hna
      exact .inr (congrArg Tile.stby (tileOf_setTile_self n _ s hs))
    · rcases h with hmem | hstby
      · exact .inl (by simpa [hna] using hmem)
      · exact .inr ((congrArg Tile.stby (tileOf_setTile_other _ s hs hna)).trans hstby)

theorem stby_stageBanks {s : State} (hs : swf (fun _ => ({} : Tile)) s.lat.tiles = true) (img : SchedImage) (n : Fin 320) :
    (tileOf (stageBanks img s) n.val).stby = bankOf img n.val :=
  stby_foldl_stageBank _ hs (.inl (List.mem_range.mpr n.isLt))

/-! ### Requests and staging -/

theorem Beside.withSched {s t : State} (h : Beside s t) (c : SchedSt) : Beside { s with lat.sched := c } { t with lat.sched := c } :=
  { h with sched := rfl }

theorem Beside.of_sched_eq {s t : State} (h : Beside s t) {c : SchedSt} (hc : s.lat.sched = c) : Beside { s with lat.sched := c } t :=
  { h with sched := h.sched.trans hc }

/-- The command that waits, if any, is completed (R299, R300). -/
theorem Beside.schedComplete {s t : State} (h : Beside s t) (img : SchedImage) (waiting : Bool) :
    Beside { s with lat.sched.cmd := none } (schedComplete img waiting t) := by
  have hclear : Beside { s with lat.sched.cmd := none } { t with lat.sched.cmd := none } :=
    { h with sched := congrArg (fun c : SchedSt => { c with cmd := none }) h.sched }
  unfold Machine.schedComplete
  split
  · next hc => exact { hclear with sched := by rw [← hclear.sched, ← hc] }
  · exact hclear.done ..

/-- A request leaves what is staged and what runs, and an image with another STATECOMPAT waits (R299, R300). -/
theorem requestSwitch_beside (s : State) : ∃ c : SchedSt, Beside { s with lat.sched := c } (requestSwitch s) ∧ c.go = true ∧
    c.standby = s.lat.sched.standby ∧ c.running = s.lat.sched.running ∧
    (c.phase = s.lat.sched.phase ∨ s.lat.sched.phase = 4 ∧ c.phase = 5) := by
  unfold requestSwitch
  dsimp only
  split
  · exact ⟨{ s.lat.sched with go := true }, .refl _, rfl, rfl, rfl, .inl rfl⟩
  · next img _ =>
    split
    · exact ⟨{ s.lat.sched with go := true }, .refl _, rfl, rfl, rfl, .inl rfl⟩
    · next hwait =>
      have hphase : s.lat.sched.phase = 4 := by simpa using fun h => hwait (.inl h)
      have hwaits : Beside { s with lat.sched := { s.lat.sched with go := true, phase := 5, waitRaised := true } } _ := .refl _
      split
      · exact ⟨_, hwaits, rfl, rfl, rfl, .inr ⟨hphase, rfl⟩⟩
      · exact ⟨_, (hwaits.raise pgSCH 3).schedComplete img true, rfl, rfl, rfl, .inr ⟨hphase, rfl⟩⟩

/-- The state in which an image is in every standby bank, and LOAD_DONE noted (R298). -/
def imageStaged (img : SchedImage) (s : State) : State :=
  stageBanks img { s with lat.sched := { s.lat.sched with phase := 4, told := true } }

theorem stby_imageStaged {s : State} (hs : swf (fun _ => ({} : Tile)) s.lat.tiles = true) (img : SchedImage) (n : Fin 320) :
    (tileOf (imageStaged img s) n.val).stby = bankOf img n.val := stby_stageBanks (by exact hs) img n

theorem imageStaged_sched (img : SchedImage) (s : State) :
    (imageStaged img s).lat.sched = { s.lat.sched with phase := 4, told := true } := by
  obtain ⟨m, hm⟩ := stageBanks_tiles img { s with lat.sched := { s.lat.sched with phase := 4, told := true } }
  rw [imageStaged, hm]

/-- With a detour pending an image waits for it (R311). -/
theorem stageImage_of_pending {s : State} {img : SchedImage} (hs : s.lat.sched.standby = some img) (hd : detourPending s = true) :
    stageImage s = { s with lat.sched.phase := 3 } := by
  simp only [stageImage, hs, hd, if_true]

/-- Else it is staged, LOAD_DONE follows once, and a switch that was asked for is requested (R298, R299). -/
theorem stageImage_of_idle {s : State} {img : SchedImage} (hs : s.lat.sched.standby = some img) (hd : detourPending s = false) :
    ∃ c : SchedSt, Beside { imageStaged img s with lat.sched := c } (stageImage s) ∧ c.go = s.lat.sched.go ∧
      c.standby = some img ∧ c.running = s.lat.sched.running ∧ (c.phase = 4 ∨ c.phase = 5) ∧
      (s.lat.sched.told = false → evPending (stageImage s) pgSCH 0 = true) := by
  obtain ⟨v, hv, htold, heq⟩ : ∃ v, Beside (imageStaged img s) v ∧ (s.lat.sched.told = false → evPending v pgSCH 0 = true) ∧
      stageImage s = if v.lat.sched.go then requestSwitch v else v := by
    refine ⟨if s.lat.sched.told then imageStaged img s else raise pgSCH 0 (imageStaged img s),
      (Beside.refl _).ite ((Beside.refl _).raise pgSCH 0), fun h => ?_, ?_⟩
    · rw [h]
      exact evPending_raise_self pgSCH 0 (by decide) _
    · simp only [stageImage, hs, hd, imageStaged, Bool.false_eq_true, if_false]
  have hsched : v.lat.sched = { s.lat.sched with phase := 4, told := true } := hv.sched.trans (imageStaged_sched img s)
  rw [heq]
  split
  · next hgo =>
    obtain ⟨c, hc, hcgo, hcstandby, hcrun, hcphase⟩ := requestSwitch_beside v
    rw [hsched] at hcstandby hcrun hcphase hgo
    have hphase : c.phase = 4 ∨ c.phase = 5 := by simpa using hcphase
    exact ⟨c, (hv.withSched c).trans hc, hcgo.trans hgo.symm, hcstandby.trans hs, hcrun, hphase, fun h => hc.events _ _ (htold h)⟩
  · exact ⟨{ s.lat.sched with phase := 4, told := true }, hv.of_sched_eq (imageStaged_sched img s), rfl, hs, rfl, .inl rfl, htold⟩

/-- A refusal leaves the code, and no STANDBY, and is an event (R297). -/
theorem rejectLoad_beside (code n : Nat) (s : State) : ∃ c : SchedSt, Beside { s with lat.sched := c } (rejectLoad code n s) ∧
    c.phase = 6 ∧ c.reject = code ∧ c.standby = none ∧ c.running = s.lat.sched.running ∧
    evPending (rejectLoad code n s) pgSCH 1 = true := by
  unfold rejectLoad
  extract_lets lat h table sched u v lat' sched' w x
  have hv : Beside u v := (Beside.refl u).freeNext.ite (Beside.refl u)
  have hx : Beside { s with lat.sched := w.lat.sched } x :=
    ((hv.withSched w.lat.sched).bump (.inr (rkey_high (page := pgSCH) (by decide) _)) 1).raise pgSCH 1
  have hrun : v.lat.sched.running = u.lat.sched.running := congrArg SchedSt.running hv.sched
  have hev : evPending x pgSCH 1 = true := evPending_raise_self pgSCH 1 (by decide) _
  clear_value h
  cases h with
  | none => exact ⟨_, hx, rfl, rfl, rfl, hrun, hev⟩
  | some h =>
    have hdone : Beside x (done h stIMAGE_INVALID code x) := (Beside.refl x).done ..
    exact ⟨_, hx.trans hdone, rfl, rfl, rfl, hrun, hdone.events _ _ hev⟩

end Sys2Proof.Machine
end

section
/-! SUPPORT. What a fence records and keeps, and the statement on fenced tiles and their detours (O47). -/

namespace Sys2Proof.Machine

/-! ### What a fence has recorded stands -/

/-- Every tile stays fenced for its reason, the fence noted last is the same, no event is lost, and a counter of fences or detours that has
counted stands. -/
structure FenceStands (s t : State) : Prop where
  reasons : ∀ n, (tileOf s n).reason ≠ 0 → (tileOf t n).reason = (tileOf s n).reason
  lastFence : t.lat.lastFence = s.lat.lastFence
  events : ∀ page b, evPending s page b = true → evPending t page b = true
  counts : ∀ off, off ≤ 0xA04 → count s pgLAT off ≠ 0 → count t pgLAT off = count s pgLAT off

namespace FenceStands

theorem refl (s : State) : FenceStands s s := ⟨fun _ _ => rfl, rfl, fun _ _ h => h, fun _ _ _ => rfl⟩

section Steps
variable {s₀ s t : State} (h : FenceStands s₀ s)
include h

theorem beside (h' : Beside s t) : FenceStands s₀ t where
  reasons n hn := (congrArg Tile.reason (h'.tileOf n)).trans (h.reasons n hn)
  lastFence := h'.lastFence.trans h.lastFence
  events p b hb := h'.events p b (h.events p b hb)
  counts off hle hne := by
    have hs := h.counts off hle hne
    exact (h'.counts off hle (hs ▸ hne)).trans hs

theorem ite {c : Prop} [Decidable c] (h' : FenceStands s₀ t) : FenceStands s₀ (if c then s else t) := by split <;> assumption

theorem foldl {α : Type} {f : State → α → State} (hf : ∀ u a, FenceStands s₀ u → FenceStands s₀ (f u a)) (l : List α) :
    FenceStands s₀ (l.foldl f s) := by
  induction l generalizing s with
  | nil => exact h
  | cons a r ih => exact ih (hf s a h)

theorem withSched (c : SchedSt) : FenceStands s₀ { s with lat.sched := c } := { h with }

theorem withDetour (d : Option Detour) : FenceStands s₀ { s with lat.detour := d } := { h with }

/-- A tile may change in all but its fence. -/
theorem setTile {n : Nat} {x : Tile} (hx : x.reason = (tileOf s n).reason) : FenceStands s₀ (setTile n x s) :=
  { h with
    reasons := fun m hm => by
      have hs := h.reasons m hm
      by_cases hmn : m = n
      · subst hmn
        rw [tileOf_setTile_of_ne_reset (ne_reset_of_reason (by rwa [hx, hs])), hx, hs]
      · rw [tileOf_setTile_of_listed (ne_reset_of_reason (by rwa [hs])) hmn, hs] }

theorem stageBank (n : Nat) (b : TileBank) : FenceStands s₀ (stageBank n b s) := h.setTile (by dsimp only; split <;> rfl)

theorem imageStaged (img : SchedImage) : FenceStands s₀ (imageStaged img s) := (h.withSched _).foldl (fun _ _ hu => hu.stageBank ..) _

theorem stageImage : FenceStands s₀ (stageImage s) := by
  cases hs : s.lat.sched.standby with
  | none => simpa only [Machine.stageImage, hs] using h
  | some img =>
    cases hd : detourPending s with
    | true => exact stageImage_of_pending hs hd ▸ h.withSched _
    | false =>
      obtain ⟨c, hc, -⟩ := stageImage_of_idle hs hd
      exact ((h.imageStaged img).withSched c).beside hc

theorem rejectLoad (code n : Nat) : FenceStands s₀ (rejectLoad code n s) := by
  obtain ⟨c, hc, -⟩ := rejectLoad_beside code n s
  exact (h.withSched c).beside hc

theorem stageDetour (n : Nat) : FenceStands s₀ (stageDetour n s) := by
  have hno : ∀ role, FenceStands s₀ (noDetour role s) := fun role => h.beside ((Beside.refl s).noDetour role)
  unfold Machine.stageDetour
  dsimp only
  split
  · exact (hno _).ite (setTile (withDetour (h.foldl (fun _ _ hu => hu.stageBank ..) _) _) rfl)
  · exact hno _

theorem restageImage (n : Nat) : FenceStands s₀ (restageImage n s) := h.ite ((h.rejectLoad ..).ite (h.stageImage.ite h))

end Steps

end FenceStands

/-! ### Fences -/

/-- A tile that is fenced is recorded with its reason, counted and an event (R302, R313). -/
theorem fenceTile_records {n reason : Nat} {s : State} (h : (tileOf s n).reason = 0) (hr : reason ≠ 0) :
    (tileOf (fenceTile n reason s) n).reason = reason ∧ (fenceTile n reason s).lat.lastFence = (n, reason) ∧
      evPending (fenceTile n reason s) pgLAT 0 = true ∧
      count (fenceTile n reason s) pgLAT 0xA00 = min (count s pgLAT 0xA00 + 1) 0xFFFFFFFF := by
  unfold fenceTile
  extract_lets x u lat v w y lat' z a
  rw [if_neg (fun hx => hx h)]
  have htile : tileOf v n = { x with reason := reason, sram := [], mbox := [], recv := none } := by
    simp only [v, tileOf, raise_lat]
    exact sget_sset_eq _ _ _ _ (ne_reset_of_reason hr)
  have hlast : v.lat.lastFence = (n, reason) := by simp only [v, raise_lat]; rfl
  have hcount : count v pgLAT 0xA00 = min (count s pgLAT 0xA00 + 1) 0xFFFFFFFF := by
    rw [count_raise (by decide), count_bump_self _ _ (by decide)]
    rfl
  have hy : FenceStands v y := (FenceStands.refl v).beside (((Beside.refl v).noteFence ..).failUnverified _)
  have hz : FenceStands v z := by
    refine (hy.stageDetour n).ite ?_
    split
    · next d _ => exact ((hy.withDetour none).beside ((Beside.refl _).noDetour d.role)).ite hy
    · exact hy
  have ha : FenceStands v a := (hz.beside ((Beside.refl z).govEnter 4)).ite hz
  have hend : FenceStands v (restageImage n a) := ha.restageImage n
  refine ⟨?_, hend.lastFence.trans hlast, hend.events _ _ (evPending_raise_self pgLAT 0 (by decide) _), ?_⟩
  · exact (hend.reasons n (by rwa [htile])).trans (by rw [htile])
  · exact (hend.counts _ (by decide) (by rw [hcount]; omega)).trans hcount

theorem latFence_of_forced {v : Word} {s : State} (hg : sget none s.rf.guard pgLAT = none) (hv : bit v 15 = true) (hn : bits v 8 0 < 320) :
    latFence v s = fenceTile (bits v 8 0) 8 s := by
  simp [latFence, touchPage_none hg, hv, Nat.not_le.mpr hn]

theorem tileOverrun_of_allocated {n : Fin 320} {s : State} (h1 : 1 ≤ (tileOf s n.val).role) (h4 : (tileOf s n.val).role ≤ 4) :
    ∃ now, tileOverrun n s = fenceTile n.val 1 { s with lat.now := now } :=
  ⟨_, if_neg (by omega)⟩

/-! ### Detours -/

/-- An image that is staged leaves the detour (R311). -/
theorem stageImage_detour (s : State) : (stageImage s).lat.detour = s.lat.detour := by
  cases hs : s.lat.sched.standby with
  | none => simp only [stageImage, hs]
  | some img =>
    cases hd : detourPending s with
    | true => rw [stageImage_of_pending hs hd]
    | false =>
      obtain ⟨c, hc, -⟩ := stageImage_of_idle hs hd
      obtain ⟨m, hm⟩ := stageBanks_tiles img { s with lat.sched := { s.lat.sched with phase := 4, told := true } }
      rw [hc.detour, imageStaged, hm]

section Detours
variable {s : State} {d : Detour} (hd : s.lat.detour = some d)
include hd

theorem detourActive_of_ready (ha : d.active = false) (hready : d.ready = true) (hrole : d.role ≠ 4) (hbound : s.lat.bound = true)
    (hload : s.lat.sched.area ∉ s.lat.sched.reload) : detourActive s = activateDetour d s := by
  simp [detourActive, hd, ha, hready, hrole, hbound, hload]

theorem detourActive_of_waits (h : d.active = true ∨ d.ready = false ∨ d.role = 4 ∨ s.lat.bound = false ∨
    s.lat.sched.area ∈ s.lat.sched.reload) : detourActive s = s := by
  simp only [detourActive, hd, Bool.not_eq_true']
  exact if_pos h

theorem regenerationDone_of_head {part dsn : Nat} {rest : List (Nat × Nat)} (ha : d.active = true)
    (hregen : d.regen = (part, dsn) :: rest) : regenerationDone dsn s = { s with lat.detour := some { d with
      regen := rest.filter (fun x => decide (x.2 ∈ onTapeDsns s x.1)), ticks := 0 } } := by
  simp [regenerationDone, hd, ha, hregen, regenNext]

theorem regenerationDone_of_other {dsn : Nat} (h : d.active = false ∨ d.regen.head?.map (·.2) ≠ some dsn) : regenerationDone dsn s = s := by
  simp only [regenerationDone, hd]
  exact if_neg fun hgo => h.elim (by simp [hgo.1]) (· hgo.2)

end Detours

/-- A detour in use is counted and an event; its spare waits for the tick that switches (R307, R308). -/
theorem activateDetour_effect (d : Detour) (s : State) :
    (activateDetour d s).lat.detour = some { d with active := true, regen := if d.role = 1 then regenList s else [], ticks := 0 } ∧
      evPending (activateDetour d s) pgLAT 1 = true ∧
      count (activateDetour d s) pgLAT 0xA04 = min (count s pgLAT 0xA04 + 1) 0xFFFFFFFF ∧
      (s.lat.sched.phase ≠ 3 → (tileOf s d.spare).reason = 0 → entDomain (tileOf s d.spare).stby.ent ≠ none →
        tileOf (activateDetour d s) d.spare = { tileOf s d.spare with due := true }) := by
  unfold activateDetour
  extract_lets regen patched lat u v
  have hu : ∃ m, u = { s with lat.detour := some { d with active := true, regen := regen, ticks := 0 }, lat.tiles := m } :=
    markDue_tiles ..
  have htile : (tileOf s d.spare).reason = 0 → entDomain (tileOf s d.spare).stby.ent ≠ none →
      tileOf v d.spare = { tileOf s d.spare with due := true } := fun hr he => by
    simp only [v, tileOf, raise_lat]
    exact tileOf_markDue_head (by simp) hr he
  have hdetour : v.lat.detour = some { d with active := true, regen := regen, ticks := 0 } := by
    obtain ⟨m, hm⟩ := hu
    simp only [v, hm, raise_lat, bump_lat]
  have hphase : v.lat.sched.phase = s.lat.sched.phase := by
    obtain ⟨m, hm⟩ := hu
    simp only [v, hm, raise_lat, bump_lat]
  have hcount : count v pgLAT 0xA04 = min (count s pgLAT 0xA04 + 1) 0xFFFFFFFF := by
    obtain ⟨m, hm⟩ := hu
    rw [count_raise (by decide), count_bump_self _ _ (by decide), hm]
    rfl
  have hev : evPending v pgLAT 1 = true := evPending_raise_self pgLAT 1 (by decide) _
  clear_value v
  split
  · next h3 =>
    have hend : FenceStands v (stageImage v) := (FenceStands.refl v).stageImage
    exact ⟨(stageImage_detour v).trans hdetour, hend.events _ _ hev, (hend.counts _ (by decide) (by rw [hcount]; omega)).trans hcount,
      fun hne => absurd (hphase.symm.trans h3) hne⟩
  · exact ⟨hdetour, hev, hcount, fun _ => htile⟩

/-! ### The statement -/

theorem exec_latFence (v : Word) (s : State) : exec (.latFence v) s = .next (latFence v s) := rfl
theorem exec_tileOverrun (n : Fin 320) (s : State) : exec (.tileOverrun n) s = .next (tileOverrun n s) := rfl
theorem exec_detourActive (s : State) : exec .detourActive s = .next (detourActive s) := rfl
theorem exec_regenerationDone (dsn : Nat) (s : State) : exec (.regenerationDone dsn) s = .next (regenerationDone dsn s) := rfl

/-- Settles O47: a fence's record stands through all that follows it (`fenceTile_records`), and a detour in use leaves its spare to the
tick that switches (`activateDetour_effect`, `tileTick_act`). -/
theorem tileFencesAndDetours : Obligations.TileFencesAndDetours := by
  simp only [Obligations.TileFencesAndDetours, exec_latFence, exec_tileOverrun, exec_detourActive, exec_regenerationDone,
    Host.Outcome.next.injEq, exists_eq_left']
  refine ⟨fun s v hg hv hn => ?_, fun s n h1 h4 hr => ?_, fun s d hd => ⟨fun ha hready hrole hbound hload => ?_,
    detourActive_of_waits hd, fun _ _ _ => regenerationDone_of_head hd, fun _ => regenerationDone_of_other hd⟩⟩
  · rw [latFence_of_forced hg hv hn]
    exact ⟨fenceTile_fenced, fun hr => fenceTile_records hr (by decide)⟩
  · obtain ⟨now, heq⟩ := tileOverrun_of_allocated h1 h4
    have hrec := fenceTile_records (s := { s with lat.now := now }) hr (show 1 ≠ 0 by decide)
    obtain ⟨hreason, hlast, hev, -⟩ := hrec
    exact heq ▸ ⟨hreason, hlast, hev⟩
  · rw [detourActive_of_ready hd ha hready hrole hbound hload]
    obtain ⟨hdetour, hev, hcount, htile⟩ := activateDetour_effect d s
    refine ⟨hdetour, hev, hcount, fun hphase hr he => ?_⟩
    rw [htile hphase hr he]
    refine ⟨rfl, rfl, fun dm at_ w hdm => ?_⟩
    have hjoins : joins dm { tileOf s d.spare with due := true } = true := by simp [joins, hdm]
    exact tileTick_act hjoins at_ true w

end Sys2Proof.Machine
end

section
/-! SUPPORT. What the checks of a schedule image say of it, and the statement on loading and switching (O48). -/

namespace Sys2Proof.Machine

/-! ### The checks of an image -/

/-- A check whose code is in a range, before checks whose codes are. -/
theorem codes_of_check {lo hi code : Nat} {rest : Option Nat} {c : Prop} [Decidable c] (hcode : lo ≤ code ∧ code ≤ hi)
    (hrest : ∀ x ∈ rest, lo ≤ x ∧ x ≤ hi) : ∀ x ∈ (if c then some code else rest), lo ≤ x ∧ x ≤ hi := by
  split
  · simpa using hcode
  · exact hrest

/-- The codes of the checks (R297). -/
theorem imageCheck_code (s : State) (img : SchedImage) : ∀ code ∈ imageCheck s img, 1 ≤ code ∧ code ≤ 0x10 := by
  unfold imageCheck
  iterate 16 refine codes_of_check (by decide) ?_
  simp

theorem check_eq_none_iff {code : Nat} {rest : Option Nat} {c : Prop} [Decidable c] :
    (if c then some code else rest) = none ↔ ¬ c ∧ rest = none := by
  split <;> simp [*]

/-- An image that passes has passed the checks of the copy, the signature, the budgets, the routes, the detours and the fenced tiles. -/
theorem passes_of_imageCheck {s : State} {img : SchedImage} (h : imageCheck s img = none) :
    img.copyOk = true ∧ img.sigOk = true ∧ imgBudgets img = true ∧ imgRoutes img = true ∧ imgDetours img = true ∧
      fencedUses s img = [] := by
  simp only [imageCheck, check_eq_none_iff, Bool.not_eq_true', Bool.not_eq_false, not_not] at h
  obtain ⟨hcopy, -, -, -, -, hsig, -, -, -, -, hbudgets, hroutes, -, hdetours, hfenced, -⟩ := h
  exact ⟨hcopy, hsig, hbudgets, hroutes, hdetours, hfenced⟩

/-- No program of a frame domain is longer than a frame's budget (R283). -/
theorem len_le_of_imgBudgets {img : SchedImage} (h : imgBudgets img = true) {e : TileEnt} (he : e ∈ img.tiles)
    (hsrc : e.tickSrc.toNat ≤ 8) : e.len.toNat ≤ 8402 := by
  simp only [imgBudgets, Bool.and_eq_true] at h
  obtain ⟨⟨hlens, hmaxs⟩, -⟩ := h
  have hkind : ∀ src : Byte, src.toNat ≤ 8 → kindMax img src = some (img.lenMaxFrame.toNat, 8402) := fun src hs => if_pos hs
  have hlen : e.len.toNat ≤ img.lenMaxFrame.toNat := by simpa [hkind _ hsrc] using List.all_eq_true.mp hlens e he
  have hmax : img.lenMaxFrame.toNat ≤ 8402 := by
    simpa [hkind 8#8 (by decide)] using List.all_eq_true.mp hmaxs 8 (by decide)
  exact hlen.trans hmax

/-- Each allocated tile has a detour onto a spare (R293). -/
theorem detour_of_imgDetours {img : SchedImage} (h : imgDetours img = true) {t : Nat} (ht : t ∈ allocatedTiles img) :
    ∃ d ∈ img.detours, d.failed.toNat = t ∧ (imgTile img d.spare.toNat).role = 5 := by
  have hd := List.all_eq_true.mp h t ht
  split at hd
  · simp at hd
  · next d hfind =>
    simp only [Bool.and_eq_true, decide_eq_true_eq] at hd
    obtain ⟨⟨⟨hrole, -⟩, -⟩, -⟩ := hd
    exact ⟨d, List.mem_of_find?_eq_some hfind, by simpa using List.find?_some hfind, BitVec.eq_of_toNat_eq hrole⟩

theorem reason_of_fencedUses {s : State} {img : SchedImage} (h : fencedUses s img = []) {t : Nat} (ht : t ∈ allocatedTiles img) :
    (tileOf s t).reason = 0 := by
  simpa using List.filter_eq_nil_iff.mp h t ht

/-- A route entry comes before another in a sorted section (R292). -/
def RouteBefore (e f : RouteEnt) : Prop :=
  e.out.toNat < f.out.toNat ∨ e.out = f.out ∧ e.start.toNat + e.run.toNat ≤ f.start.toNat

theorem RouteBefore.trans {e f g : RouteEnt} (h : RouteBefore e f) (h' : RouteBefore f g) : RouteBefore e g := by
  rcases h with h | ⟨ho, h⟩ <;> rcases h' with h' | ⟨ho', h'⟩
  · exact .inl (by omega)
  · exact .inl (ho' ▸ h)
  · exact .inl (ho ▸ h')
  · exact .inr ⟨ho.trans ho', by omega⟩

/-- Each entry of a sorted section comes before all that follow it (R284, R292). -/
theorem pairwise_of_routeSorted {l : List RouteEnt} (h : routeSorted l = true) : l.Pairwise RouteBefore := by
  induction l with
  | nil => exact .nil
  | cons e r ih =>
    cases r with
    | nil => exact List.pairwise_singleton _ e
    | cons f r =>
      simp only [routeSorted, Bool.and_eq_true, Bool.or_eq_true, decide_eq_true_eq] at h
      obtain ⟨hef, hrest⟩ := h
      have hr := ih hrest
      refine List.pairwise_cons.mpr ⟨fun g hg => ?_, hr⟩
      rcases List.mem_cons.mp hg with rfl | hg
      · exact hef
      · exact RouteBefore.trans hef ((List.pairwise_cons.mp hr).1 g hg)

/-- No port of a route section is driven twice in a cycle (R284). -/
theorem apart_of_imgRoutes {img : SchedImage} (h : imgRoutes img = true) {x : SectEnt} (hx : x ∈ img.sects) (hk : x.kind = 2) :
    x.route.ents.Pairwise (fun e f => e.out = f.out →
      e.start.toNat + e.run.toNat ≤ f.start.toNat ∨ f.start.toNat + f.run.toNat ≤ e.start.toNat) := by
  simp only [imgRoutes, Bool.and_eq_true] at h
  obtain ⟨hsects, -⟩ := h
  have hsorted : routeSorted x.route.ents = true := by
    have hsect := List.all_eq_true.mp hsects x hx
    simp only [hk, ne_eq, not_true_eq_false, decide_false, Bool.false_or, Bool.and_eq_true] at hsect
    obtain ⟨-, hs⟩ := hsect
    exact hs
  refine (pairwise_of_routeSorted hsorted).imp fun hb hout => .inl ?_
  rcases hb with hlt | ⟨-, hle⟩
  · exact absurd (congrArg BitVec.toNat hout) (Nat.ne_of_lt hlt)
  · exact hle

/-! ### Loading -/

section Load
variable {s : State} (hg : sget none s.rf.guard pgSCH = none)
include hg

theorem schedLoadGo_of_go {v : Word} (hv : bit v 0 = true) (hen : pageEn s pgSCH = true) :
    schedLoadGo v s = startLoad (rbit s pgSCH 0x100 0) (bit v 1) (rfld s pgSCH 0x104 31 0) s := by
  simp [schedLoadGo, touchPage_none hg, hv, hen]

theorem schedLoadGo_of_other {v : Word} (h : bit v 0 = false ∨ pageEn s pgSCH = false) : schedLoadGo v s = s := by
  simp only [schedLoadGo, touchPage_none hg, Bool.not_eq_true']
  exact if_pos h

theorem schedLoadCancel_eq : schedLoadCancel s =
    let u : State := { s with lat.sched := { s.lat.sched with phase := 0, go := false, standby := none, cmd := none, waitRaised := false } }
    match s.lat.sched.cmd with | some h => done h stIMAGE_INVALID 0 u | none => u := by
  cases hc : s.lat.sched.cmd with
  | none => simp only [schedLoadCancel, touchPage_none hg, hc]
  | some c => simp only [schedLoadCancel, touchPage_none hg, hc]

theorem schedSwitchGo_of_staged (h : s.lat.sched.phase = 3 ∨ s.lat.sched.phase = 4) : schedSwitchGo s = requestSwitch s := by
  simp only [schedSwitchGo, touchPage_none hg]
  exact if_pos h

end Load

/-- A load whose image fails a check is refused (R297). -/
theorem loadDone_of_failed {s : State} {ok : Bool} {code : Nat} (hp : s.lat.sched.phase = 1)
    (hc : imageCheck s (loadedImage s ok) = some code) :
    loadDone ok s = rejectLoad code ((fencedUses s (loadedImage s ok)).headD 0) s := by
  simp only [loadDone, hp, hc, ne_eq, not_true_eq_false, if_false]

theorem loadDone_of_passed {s : State} {ok : Bool} (hp : s.lat.sched.phase = 1) (hc : imageCheck s (loadedImage s ok) = none) :
    loadDone ok s =
      stageImage { s with lat.sched := { s.lat.sched with standby := some (loadedImage s ok), go := s.lat.sched.auto } } := by
  simp only [loadDone, hp, hc, ne_eq, not_true_eq_false, if_false]

theorem loadDone_effect_of_failed {s : State} {ok : Bool} {code : Nat} (hp : s.lat.sched.phase = 1)
    (hc : imageCheck s (loadedImage s ok) = some code) :
    (loadDone ok s).lat.sched.phase = 6 ∧ (loadDone ok s).lat.sched.reject = code ∧ (loadDone ok s).lat.sched.standby = none ∧
      (loadDone ok s).lat.sched.running = s.lat.sched.running ∧ evPending (loadDone ok s) pgSCH 1 = true := by
  rw [loadDone_of_failed hp hc]
  obtain ⟨c, hb, hphase, hreject, hstandby, hrun, hev⟩ := rejectLoad_beside code ((fencedUses s (loadedImage s ok)).headD 0) s
  rw [hb.sched]
  exact ⟨hphase, hreject, hstandby, hrun, hev⟩

/-- A load whose image passes is staged, now or once no detour is pending (R298, R311). -/
theorem loadDone_effect_of_passed {s : State} {ok : Bool} (hp : s.lat.sched.phase = 1) (hc : imageCheck s (loadedImage s ok) = none) :
    (loadDone ok s).lat.sched.standby = some (loadedImage s ok) ∧ (loadDone ok s).lat.sched.running = s.lat.sched.running ∧
      (detourPending s = true → loadDone ok s =
        { s with lat.sched := { s.lat.sched with standby := some (loadedImage s ok), go := s.lat.sched.auto, phase := 3 } }) ∧
      (detourPending s = false → ((loadDone ok s).lat.sched.phase = 4 ∨ (loadDone ok s).lat.sched.phase = 5) ∧
        (loadDone ok s).lat.sched.go = s.lat.sched.auto ∧
        (s.lat.sched.told = false → evPending (loadDone ok s) pgSCH 0 = true) ∧
        (swf (fun _ => ({} : Tile)) s.lat.tiles = true → ∀ n : Fin 320,
          (tileOf (loadDone ok s) n.val).stby = bankOf (loadedImage s ok) n.val)) := by
  rw [loadDone_of_passed hp hc]
  generalize loadedImage s ok = img
  generalize hu : ({ s with lat.sched := { s.lat.sched with standby := some img, go := s.lat.sched.auto } } : State) = u
  have hs : u.lat.sched.standby = some img := hu ▸ rfl
  have hpend : detourPending u = detourPending s := hu ▸ rfl
  cases hd : detourPending s with
  | true =>
    rw [stageImage_of_pending hs (hpend.trans hd)]
    exact ⟨hs, hu ▸ rfl, fun _ => hu ▸ rfl, fun h => by simp at h⟩
  | false =>
    obtain ⟨c, hb, hgo, hstandby, hrun, hphase, hev⟩ := stageImage_of_idle hs (hpend.trans hd)
    rw [hb.sched]
    refine ⟨hstandby, hrun.trans (hu ▸ rfl), fun h => by simp at h, fun _ =>
      ⟨hphase, hgo.trans (hu ▸ rfl), fun h => hev (hu ▸ h), fun hw n => ?_⟩⟩
    rw [hb.tileOf, tileOf_withSched]
    exact stby_imageStaged (hu ▸ hw) img n

/-- What an image that passes was read from, and how its copy and its signature stand (R295, R297). -/
theorem loadedImage_signed {s : State} {ok : Bool} (hcopy : (loadedImage s ok).copyOk = true) (hsig : (loadedImage s ok).sigOk = true) :
    ok = true ∧ (loadedImage s ok).meas = measure ((loadBytes s).take (leField (loadBytes s) 0x10 4)) ∧
      ecdsaOk (signer s 1 (loadedImage s ok).keyId) (sha384 ((loadBytes s).take (leField (loadBytes s) 0x10 4)))
        (((loadBytes s).drop (leField (loadBytes s) 0x10 4)).take 96) = true := by
  simp only [loadedImage, readSched, Bool.and_eq_true] at hcopy hsig ⊢
  exact ⟨hcopy.1, trivial, hsig⟩

/-! ### Switching -/

/-- A switch that was requested and may come puts the image in use (R299 to R301). -/
theorem imageSwitch_of_due {s : State} {img : SchedImage} (hs : s.lat.sched.standby = some img) (hgo : s.lat.sched.go = true)
    (hp : s.lat.sched.phase = 4 ∨ s.lat.sched.phase = 5) (hgate : s.top.pfGate = false)
    (hmay : ∀ r, s.lat.sched.running = some r → (if r.stateCompat = img.stateCompat then s.lat.bound else trackIdle s) = true) :
    imageSwitch s = switchTo img s := by
  have hmay' : (s.lat.sched.running.isNone || (if compatible s img then s.lat.bound else trackIdle s)) = true := by
    cases hr : s.lat.sched.running with
    | none => rfl
    | some r => simpa [compatible, hr] using hmay r hr
  simp only [imageSwitch, hs, hgo, hgate, hmay']
  exact if_neg (by simp [hp])

/-- ACTIVE and STANDBY change places, any detour ends, and so does every quote key (R299, R494). -/
theorem switchTo_effect (img : SchedImage) (s : State) :
    (switchTo img s).lat.sched.running = some img ∧ (switchTo img s).lat.sched.standby = s.lat.sched.running ∧
      (switchTo img s).lat.sched.area = (!s.lat.sched.area) ∧ (switchTo img s).lat.sched.phase = 0 ∧ (switchTo img s).lat.detour = none ∧
      (switchTo img s).vlt.quotes = [] ∧ evPending (switchTo img s) pgSCH 2 = true := by
  unfold switchTo
  extract_lets c u lat trk v
  have hu : ∃ m, u = { s with lat.tiles := m } := by
    simp only [u]
    split
    · exact markDue_tiles ..
    · obtain ⟨m, hm⟩ := swapAll_tiles s
      obtain ⟨m', hm'⟩ := applyInit_tiles img (swapAll s)
      exact ⟨m', hm'.trans (by rw [hm])⟩
  have hend := (Beside.refl (dropQuotes (fun _ => true) (raise pgSCH 2 (bump pgSCH 0xA08 1 v)))).schedComplete img false
  have hsched : (schedComplete img false (dropQuotes (fun _ => true) (raise pgSCH 2 (bump pgSCH 0xA08 1 v)))).lat.sched =
      { v.lat.sched with cmd := none } := hend.sched.trans (by simp only [dropQuotes, raise_lat, bump_lat])
  rw [hsched]
  refine ⟨rfl, rfl, rfl, rfl, ?_, ?_, ?_⟩
  · exact hend.detour.trans (by simp only [dropQuotes, raise_lat, bump_lat, v])
  · exact hend.quotes.trans (by simp [dropQuotes])
  · exact hend.events _ _ (evPending_raise_self pgSCH 2 (by decide) _)

/-! ### The statement -/

theorem exec_schedLoadGo (v : Word) (s : State) : exec (.schedLoadGo v) s = .next (schedLoadGo v s) := rfl
theorem exec_schedLoadCancel (s : State) : exec .schedLoadCancel s = .next (schedLoadCancel s) := rfl
theorem exec_schedSwitchGo (s : State) : exec .schedSwitchGo s = .next (schedSwitchGo s) := rfl
theorem exec_loadDone (ok : Bool) (s : State) : exec (.loadDone ok) s = .next (loadDone ok s) := rfl
theorem exec_imageSwitch (s : State) : exec .imageSwitch s = .next (imageSwitch s) := rfl

/-- Settles O48: what each check of R297 says of an image that passes, what its staging (`stageImage_of_idle`) or its refusal
(`rejectLoad_beside`) leaves, and what a switch makes of the two areas (`switchTo_effect`). -/
theorem scheduleImagesLoadAndSwitch : Obligations.ScheduleImagesLoadAndSwitch := by
  simp only [Obligations.ScheduleImagesLoadAndSwitch, exec_schedLoadGo, exec_schedLoadCancel, exec_schedSwitchGo, exec_loadDone,
    exec_imageSwitch, Host.Outcome.next.injEq, exists_eq_left']
  refine ⟨fun s v hg => ⟨schedLoadGo_of_go hg, schedLoadGo_of_other hg, schedLoadCancel_eq hg, fun img _ hp => ?_⟩,
    fun s ok hp => ⟨fun code hc => ?_, fun hc => ?_⟩, fun s img hs hgo hp hgate hmay => ?_⟩
  · obtain ⟨c, hb, hgo, -⟩ := requestSwitch_beside s
    rw [schedSwitchGo_of_staged hg hp, hb.sched]
    exact ⟨rfl, hgo⟩
  · obtain ⟨hlo, hhi⟩ := imageCheck_code s (loadedImage s ok) code hc
    exact ⟨hlo, hhi, loadDone_effect_of_failed hp hc⟩
  · obtain ⟨hcopy, hsig, hbudgets, hroutes, hdetours, hfenced⟩ := passes_of_imageCheck hc
    obtain ⟨hok, hmeas, hecdsa⟩ := loadedImage_signed hcopy hsig
    exact ⟨loadDone_effect_of_passed hp hc, hok, hmeas, hecdsa, fun _ => len_le_of_imgBudgets hbudgets,
      fun _ ht => ⟨reason_of_fencedUses hfenced ht, detour_of_imgDetours hdetours ht⟩, fun _ => apart_of_imgRoutes hroutes⟩
  · rw [imageSwitch_of_due hs hgo hp hgate hmay]
    exact switchTo_effect img s

end Sys2Proof.Machine
end

section
/-! SUPPORT. What words, idle times, expired marks and flushes make of an intake queue, and the statements on them (O31, O32). -/

namespace Sys2Proof.Machine

/-! ### A queue read back

A queue that is not as it stands at reset reads back on any table (`Laws/Sparse`); the lemmas say so of a queue with an item or a
group. -/

theorem Riq.ne_reset_of_items {r : Riq} (h : r.items ≠ []) : r ≠ {} := fun hr => h (by rw [hr])
theorem Riq.ne_reset_of_grps {r : Riq} (h : r.grps ≠ []) : r ≠ {} := fun hr => h (by rw [hr])

theorem riqOf_setRiq_self {r : Riq} (h : r ≠ {}) (p : Nat) (s : State) : riqOf (setRiq p r s) p = r := sget_sset_eq _ _ _ _ h

theorem riqOf_setRiq_other {r : Riq} (h : r ≠ {}) {p q : Nat} (hq : q ≠ p) (s : State) : riqOf (setRiq p r s) q = riqOf s q :=
  sget_sset_ne _ _ _ _ _ h hq

theorem riqOf_setRiq_of_swf {s : State} (h : swf (fun _ => ({} : Riq)) s.rcd.riq = true) (p : Nat) (r : Riq) :
    riqOf (setRiq p r s) p = r := sget_sset_self (fun _ => ({} : Riq)) h p r

@[simp] theorem riqOf_bump (page off n : Nat) (s : State) (p : Nat) : riqOf (bump page off n s) p = riqOf s p := rfl
@[simp] theorem riqOf_bump64 (page off n : Nat) (s : State) (p : Nat) : riqOf (bump64 page off n s) p = riqOf s p := rfl
@[simp] theorem riqOf_raise (page b : Nat) (s : State) (p : Nat) : riqOf (raise page b s) p = riqOf s p := by simp only [riqOf, raise_rcd]

@[simp] theorem riqOf_meter (q : Nat) (f : Meter → Meter) (s : State) (p : Nat) : riqOf (meter q f s) p = riqOf s p := by
  unfold meter
  split <;> rfl

@[simp] theorem takeRead_zero (p : Fin 64) (s : State) : takeRead p 0 s = s := rfl

@[simp] theorem riqOf_takeRead (q : Fin 64) (n : Nat) (s : State) (p : Nat) : riqOf (takeRead q n s) p = riqOf s p := by
  unfold takeRead
  (repeat' split) <;> rfl

/-! ### Producer words (R319 to R327) -/

section IntakeWord
variable {s : State} {p : Fin 64} {tag : BitVec 3} {d : BitVec 64} {par : Byte} {nb : BitVec 3}
  (hen : pageEn s (pgRIQ p.val) = true) (hst : (riqOf s p.val).stalled = none)
include hen hst

theorem intakeWord_of_reserved (ht : 4 ≤ tag.toNat) : intakeWord p tag d par nb s = raise (pgRIQ p.val) 4 s := by
  simp [intakeWord, hen, hst, ht]

theorem intakeWord_of_swallowed (ht : tag.toNat < 3) (hw : (riqOf s p.val).swallow = true) : intakeWord p tag d par nb s = s := by
  have h3 : tag ≠ 3#3 := by
    rintro rfl
    exact absurd ht (by decide)
  simp [intakeWord, hen, hst, hw, h3, show ¬ 4 ≤ tag.toNat by omega]

theorem intakeWord_of_no_room (ht : tag.toNat < 4) (hw : (riqOf s p.val).swallow = false)
    (hroom : ¬ producerEnd (riqOf s p.val) tag nb - (riqOf s p.val).mark.getD (riqOf s p.val).cPos ≤ ringBytes s p.val) :
    intakeWord p tag d par nb s =
      bump (pgRIQ p.val) 0xA10 1 (setRiq p.val { riqOf s p.val with stalled := some (tag, d, par, nb) } s) := by
  simp [intakeWord, hen, hst, hw, Nat.not_le.mp hroom, show ¬ 4 ≤ tag.toNat by omega]

theorem intakeWord_of_room (ht : tag.toNat < 4) (hw : (riqOf s p.val).swallow = false)
    (hroom : producerEnd (riqOf s p.val) tag nb - (riqOf s p.val).mark.getD (riqOf s p.val).cPos ≤ ringBytes s p.val) :
    intakeWord p tag d par nb s = putWord p tag d par nb (takeRead p (recordBytes tag nb) s) := by
  simp [intakeWord, hen, hst, hw, Nat.not_lt.mpr hroom, show ¬ 4 ≤ tag.toNat by omega]

end IntakeWord

/-- The bytes that a DATA or EOI word appends: EOI names its own count, where 0 stands for 8 (R319). -/
def wordCount (tag nb : BitVec 3) : Nat := if tag = 2 ∧ nb ≠ 0 then nb.toNat else 8

/-- An item once a DATA or EOI word has been appended, with the bytes of it that failed their parity. -/
def Item.append (i : Item) (tag : BitVec 3) (d : BitVec 64) (par : Byte) (nb : BitVec 3) : Item :=
  { i with bytes := i.bytes ++ (leBytes d.toNat 8).take (wordCount tag nb),
           bad := i.bad ++ ((badParity d par).filter (· < wordCount tag nb)).map (· + i.bytes.length), eoi := i.eoi || tag = 2 }

/-- An item once its length slot is filled. -/
def Item.fill (i : Item) (d : BitVec 64) (par : Byte) : Item :=
  { i with len := some d, poison := lenErr d i.bytes.length, lenBad := decide (badParity d par ≠ []) }

theorem putWord_soi {p : Nat} {s : State} (h : (riqOf s p).inItem = false) (d : BitVec 64) (par : Byte) (nb : BitVec 3) :
    putWord p 1 d par nb s =
      setRiq p { riqOf s p with items := (riqOf s p).items ++ [{ start := (riqOf s p).pPos }], inItem := true,
                                pPos := (riqOf s p).pPos + 8 } s := by
  simp [putWord, h]

section InItem
variable {p : Nat} {s : State} {pre : List Item} {i : Item} (hitems : (riqOf s p).items = pre ++ [i])
  (hin : (riqOf s p).inItem = true)
include hitems hin

theorem riqOf_putWord_data {tag : BitVec 3} (ht : tag = 0 ∨ tag = 2) (d : BitVec 64) (par : Byte) (nb : BitVec 3) :
    riqOf (putWord p tag d par nb s) p =
      { riqOf s p with items := pre ++ [i.append tag d par nb], pPos := (riqOf s p).pPos + wordCount tag nb } := by
  have hnat : tag.toNat = 0 ∨ tag.toNat = 2 := ht.imp (congrArg BitVec.toNat) (congrArg BitVec.toNat)
  rcases hnat with h | h
  all_goals
    simp only [putWord, h, hitems, hin, List.getLast?_concat, List.dropLast_concat, riqOf_meter, riqOf_bump64]
    exact riqOf_setRiq_self (Riq.ne_reset_of_items (by simp)) ..

theorem putWord_lenfill (d : BitVec 64) (par : Byte) (nb : BitVec 3) :
    putWord p 3 d par nb s =
      let t := bump (pgRIQ p) 0xA00 1 (setRiq p { riqOf s p with items := pre ++ [i.fill d par], inItem := false,
                                                                 pPos := ((riqOf s p).pPos + 63) / 64 * 64 } s)
      if lenErr d i.bytes.length then raise (pgRIQ p) 4 t else t := by
  have h3 : (3 : BitVec 3).toNat = 3 := rfl
  simp only [putWord, h3, hitems, hin, List.getLast?_concat, List.dropLast_concat, Item.fill]

theorem riqOf_putWord_lenfill (d : BitVec 64) (par : Byte) (nb : BitVec 3) :
    riqOf (putWord p 3 d par nb s) p =
      { riqOf s p with items := pre ++ [i.fill d par], inItem := false, pPos := ((riqOf s p).pPos + 63) / 64 * 64 } := by
  rw [putWord_lenfill hitems hin]
  have hset := riqOf_setRiq_self (r := { riqOf s p with
    items := pre ++ [i.fill d par], inItem := false, pPos := ((riqOf s p).pPos + 63) / 64 * 64 })
    (Riq.ne_reset_of_items (by simp)) p s
  dsimp only
  split
  · rwa [riqOf_raise]
  · exact hset

theorem evPending_putWord_lenfill {d : BitVec 64} (herr : lenErr d i.bytes.length = true) (par : Byte) (nb : BitVec 3) :
    evPending (putWord p 3 d par nb s) (pgRIQ p) 4 = true := by
  rw [putWord_lenfill hitems hin]
  dsimp only
  rw [if_pos herr]
  exact evPending_raise_self _ 4 (by decide) _

end InItem

theorem exec_intakeWord (p : Fin 64) (tag : BitVec 3) (d : BitVec 64) (par : Byte) (nb : BitVec 3) (s : State) :
    exec (.intakeWord p tag d par nb) s = .next (intakeWord p tag d par nb s) := rfl

/-- Settles O31: what the intake makes of a word is one of `intakeWord`'s cases, and what stands in the ring after a word that fits is
said of `putWord`, word by word. -/
theorem producerWords : Obligations.ProducerWords := by
  simp only [Obligations.ProducerWords, exec_intakeWord, Host.Outcome.next.injEq, exists_eq_left']
  intro s p tag d par nb hen hst
  refine ⟨intakeWord_of_reserved hen hst, intakeWord_of_swallowed hen hst, intakeWord_of_no_room hen hst, fun hw hroom => ?_⟩
  have hput := fun ht => intakeWord_of_room (d := d) (par := par) hen hst ht hw hroom
  refine ⟨?_, fun pre i hitems hin => ⟨fun ht => ?_, ?_⟩⟩
  · rintro rfl hin
    exact (hput (by decide)).trans (putWord_soi hin d par nb)
  · have hlt : tag.toNat < 4 := by rcases ht with rfl | rfl <;> decide
    rw [hput hlt, riqOf_putWord_data (pre := pre) (i := i) (by rwa [riqOf_takeRead]) (by rwa [riqOf_takeRead]) ht, riqOf_takeRead]
    rfl
  · rintro rfl
    have hread : takeRead p (recordBytes 3 nb) s = s := takeRead_zero p s
    rw [hput (by decide), hread]
    exact ⟨riqOf_putWord_lenfill hitems hin d par nb, fun herr => evPending_putWord_lenfill hitems hin herr par nb⟩

/-! ### Stalls and the idle time (R326, R328, R334, R363) -/

theorem producerStallRelease_of_room {s : State} {p : Fin 64} {tag : BitVec 3} {d : BitVec 64} {par : Byte} {nb : BitVec 3}
    (hst : (riqOf s p.val).stalled = some (tag, d, par, nb))
    (hroom : producerEnd (riqOf s p.val) tag nb - (riqOf s p.val).mark.getD (riqOf s p.val).cPos ≤ ringBytes s p.val) :
    producerStallRelease p s =
      putWord p tag d par nb (setRiq p.val { riqOf s p.val with stalled := none } (takeRead p (recordBytes tag nb) s)) := by
  simp only [producerStallRelease, hst, hroom, if_true]

theorem idle_of_open {s : State} {p q : Fin 64} {g : Grp} (hocc : occupancy (riqOf s p.val) ≠ 0)
    (hopn : (riqOf s p.val).opn = some g) (hpart : (riqOf s p.val).part = some q) (hidle : (riqOf s p.val).idleUs ≠ 0) :
    idle p s = raise (pgRIQ p.val) 2 (bump (pgRIQ p.val) 0xA20 1 (setRiq p.val
      (if (riqOf s p.val).recut = [] then cutOpen (recLenOf s q.val ((riqOf s p.val).nextLrn - 1)) (riqOf s p.val) else riqOf s p.val)
      s)) := by
  simp [idle, hocc, hopn, hpart, hidle]

theorem cutOpen_opn (n : Nat) (r : Riq) : (cutOpen n r).opn = none := by
  unfold cutOpen
  extract_lets x
  split
  · next h => exact h
  · rfl

theorem cutOpen_grps {r : Riq} {g : Grp} (n : Nat) (hopn : r.opn = some g) (hfrag : r.fragOn = false) (hre : r.recut = []) :
    (cutOpen n r).grps = r.grps ++ [g] := by
  simp [cutOpen, moveMark, hopn, hfrag, hre]

/-! ### The mark's hold time (R331, R484) -/

/-- A group without rewind protection, where it is the one numbered `no`. -/
def Grp.unprotect (no : Nat) (g : Grp) : Grp := if g.no = no then { g with prot := false } else g

theorem markExpired_of_working {s : State} {p : Fin 64} {g : Grp} {rest : List Grp} (hgrps : (riqOf s p.val).grps = g :: rest)
    (hwork : g.stage.working = true) (hprot : g.prot = true) (hown : slotOwner s = some p) :
    markExpired p s = raise (pgRIQ p.val) 1 (bump (pgRIQ p.val) 0xA18 1 (setRiq p.val
      (moveMark { riqOf s p.val with grps := (riqOf s p.val).grps.map (Grp.unprotect g.no) }) s)) := by
  have hconf : g.stage ≠ .confirmed := fun h => by simp [h, GrpStage.working] at hwork
  have hfind : (riqOf s p.val).grps.find? (fun g => g.stage ≠ .confirmed ∧ g.prot) = some g := by
    rw [hgrps]
    exact List.find?_cons_of_pos (by simp [hconf, hprot])
  simp only [markExpired, hfind, hwork, hown, Bool.not_true, Bool.false_eq_true, ne_eq, not_true_eq_false, or_self, if_false]
  rfl

/-! ### What freeing buffers leaves -/

/-- A buffer given back changes the buffers, their lists and the use of the shares. -/
theorem giveBack_pools (k i : Nat) (s : State) :
    ∃ bufs use free, giveBack k i s = { s with rcd.bufs := bufs, rcd.use := use, rcd.freeList := free } := by
  unfold giveBack
  dsimp only
  split <;> split <;> exact ⟨_, _, _, rfl⟩

theorem freeBufs_pools (l : List Nat) (s : State) :
    ∃ bufs use free, freeBufs l s = { s with rcd.bufs := bufs, rcd.use := use, rcd.freeList := free } := by
  unfold freeBufs
  induction l generalizing s with
  | nil => exact ⟨s.rcd.bufs, s.rcd.use, s.rcd.freeList, rfl⟩
  | cons kb l ih =>
    simp only [foldNat]
    split
    · obtain ⟨_, _, _, hone⟩ := giveBack_pools (kb / 65536) (kb % 65536) s
      obtain ⟨_, _, _, hrest⟩ := ih (giveBack (kb / 65536) (kb % 65536) s)
      exact ⟨_, _, _, hrest.trans (by rw [hone])⟩
    · exact ih s

@[simp] theorem freeBufs_riq (l : List Nat) (s : State) : (freeBufs l s).rcd.riq = s.rcd.riq := by
  obtain ⟨_, _, _, h⟩ := freeBufs_pools l s; rw [h]

@[simp] theorem riqOf_freeBufs (l : List Nat) (s : State) (p : Nat) : riqOf (freeBufs l s) p = riqOf s p := by
  simp only [riqOf, freeBufs_riq]

@[simp] theorem count_freeBufs (l : List Nat) (s : State) (page off : Nat) : count (freeBufs l s) page off = count s page off := by
  obtain ⟨_, _, _, h⟩ := freeBufs_pools l s; rw [h]; rfl

@[simp] theorem freeBufs_host (l : List Nat) (s : State) : (freeBufs l s).host = s.host := by
  obtain ⟨_, _, _, h⟩ := freeBufs_pools l s; rw [h]

/-! ### Flushing a queue (R329) -/

/-- A queue without its groups. -/
def Riq.ungrouped (r : Riq) : Riq := { r with opn := none, grps := [], recut := [], mark := none, fragOn := false }

/-- A queue that a flush has emptied, its pointers at the producer's next item boundary. -/
def Riq.emptied (r : Riq) (report : Bool) : Riq :=
  { r.ungrouped with items := [], pPos := (r.pPos + 63) / 64 * 64, cPos := (r.pPos + 63) / 64 * 64, cIn := false, stalled := none,
                     inItem := midItem r, swallow := midItem r, swReport := report || (r.swallow && r.swReport), closeReq := [] }

theorem dropGroups_riq (p : Nat) (s : State) : (dropGroups p s).rcd.riq = sset {} s.rcd.riq p (riqOf s p).ungrouped := by
  simp only [dropGroups, freeFor, freeBufs_riq, setRiq_rcd]
  rfl

theorem riqOf_emptyRiq {s : State} (h : swf (fun _ => ({} : Riq)) s.rcd.riq = true) (p : Nat) (report : Bool) :
    riqOf (emptyRiq p report s) p = (riqOf s p).emptied report := by
  have hdrop : riqOf (dropGroups p s) p = (riqOf s p).ungrouped := by
    rw [riqOf, dropGroups_riq]
    exact sget_sset_self (fun _ => ({} : Riq)) h _ _
  have hswf : swf (fun _ => ({} : Riq)) (dropGroups p s).rcd.riq = true := by
    rw [dropGroups_riq]
    exact swf_sset (fun _ => ({} : Riq)) h _ _
  refine (riqOf_setRiq_of_swf hswf _ _).trans ?_
  rw [hdrop]
  rfl

theorem emptyRiq_host (p : Nat) (report : Bool) (s : State) : (emptyRiq p report s).host = s.host := by
  simp only [emptyRiq, dropGroups, freeFor, setRiq_host, freeBufs_host]

theorem flushRiq_of_unbound {s : State} {p : Nat} (hpart : (riqOf s p).part = none) (hmid : midItem (riqOf s p) = false)
    (holds : Cmd → Bool) (st : BitVec 16) :
    flushRiq p true holds st s = raise (pgRIQ p) 0 (emptyRiq p true (bump (pgRIQ p) 0xA24 1 s)) := by
  simp [flushRiq, hpart, hmid]

theorem flush_of_unbound {s : State} {p : Fin 64} (hguard : sget none s.rf.guard (pgRIQ p.val) = none)
    (hpart : (riqOf s p.val).part = none) (hmid : midItem (riqOf s p.val) = false) :
    flush p s = raise (pgRIQ p.val) 0 (emptyRiq p.val true (bump (pgRIQ p.val) 0xA24 1 s)) := by
  rw [flush, touchPage_none hguard, flushRiq_of_unbound hpart hmid]

theorem exec_producerStallRelease (p : Fin 64) (s : State) : exec (.producerStallRelease p) s = .next (producerStallRelease p s) := rfl
theorem exec_idle (p : Fin 64) (s : State) : exec (.idle p) s = .next (idle p s) := rfl
theorem exec_markExpired (p : Fin 64) (s : State) : exec (.markExpired p) s = .next (markExpired p s) := rfl
theorem exec_flush (p : Fin 64) (s : State) : exec (.flush p) s = .next (flush p s) := rfl

/-- Settles O32: each of the four events by what it makes of a queue in the state that the statement names; a queue whose groups stand
reads back as written on any table, the emptied one on a canonical table. -/
theorem intakeEvents : Obligations.IntakeEvents := by
  simp only [Obligations.IntakeEvents, exec_producerStallRelease, exec_idle, exec_markExpired, exec_flush, Host.Outcome.next.injEq,
    exists_eq_left']
  refine fun s p => ⟨fun tag d par nb => producerStallRelease_of_room, fun q g hocc hopn hpart hidle => ?_,
    fun g rest hgrps hwork hprot hown => ?_, fun hswf hguard hpart hmid => ?_⟩
  · have hrun := idle_of_open hocc hopn hpart hidle
    exact ⟨fun hre => by rw [hrun, if_pos hre], fun hre => by rw [hrun, if_neg hre],
      fun n => ⟨cutOpen_opn n _, cutOpen_grps n hopn⟩⟩
  · rw [markExpired_of_working hgrps hwork hprot hown]
    have hset := riqOf_setRiq_self (r := moveMark { riqOf s p.val with grps := (riqOf s p.val).grps.map (Grp.unprotect g.no) })
      (Riq.ne_reset_of_grps (by simp [moveMark, hgrps])) p.val s
    refine ⟨evPending_raise_self _ 1 (by decide) _, ?_, ?_⟩
    all_goals
      rw [riqOf_raise, riqOf_bump, hset]
      rfl
  · have hriq := riqOf_emptyRiq (s := bump (pgRIQ p.val) 0xA24 1 s) hswf p.val true
    rw [flush_of_unbound hguard hpart hmid, riqOf_raise, hriq, riqOf_bump, raise_host, emptyRiq_host, bump_host]
    exact ⟨rfl, rfl, rfl, rfl, rfl, rfl, evPending_raise_self _ 0 (by decide) _, rfl⟩

end Sys2Proof.Machine
end

section
/-! SUPPORT. What the engines of a service slot and the placer make of a group, and the statements on them (O33, O34). -/

namespace Sys2Proof.Machine

/-! ### One group among a queue's -/

section OneGroup
variable {pre post : List Grp} {g : Grp}

theorem find?_stage {st : GrpStage} (hst : g.stage = st) (hpre : ∀ x ∈ pre, x.stage ≠ g.stage) :
    (pre ++ g :: post).find? (·.stage = st) = some g := by
  subst hst
  rw [List.find?_append, List.find?_eq_none.mpr (by simpa using hpre), Option.none_or, List.find?_cons_of_pos (by simp)]

/-- A change of the group with a number leaves those with another. -/
theorem map_of_no (f : Grp → Grp) (hpre : ∀ x ∈ pre, x.no ≠ g.no) (hpost : ∀ x ∈ post, x.no ≠ g.no) :
    (pre ++ g :: post).map (fun x => if x.no = g.no then f x else x) = pre ++ f g :: post := by
  have hkeep : ∀ l : List Grp, (∀ x ∈ l, x.no ≠ g.no) → l.map (fun x => if x.no = g.no then f x else x) = l := fun l hl =>
    (List.map_congr_left fun x hx => if_neg (hl x hx)).trans (List.map_id' l)
  rw [List.map_append, List.map_cons, hkeep pre hpre, hkeep post hpost, if_pos rfl]

variable {s : State} {p : Nat} (hgrps : (riqOf s p).grps = pre ++ g :: post)
include hgrps

theorem modGrp_riq (f : Grp → Grp) (hpre : ∀ x ∈ pre, x.no ≠ g.no) (hpost : ∀ x ∈ post, x.no ≠ g.no) :
    riqOf (modGrp p g.no f s) p = { riqOf s p with grps := pre ++ f g :: post } := by
  rw [modGrp, hgrps, map_of_no f hpre hpost]
  exact riqOf_setRiq_self (Riq.ne_reset_of_grps (by simp)) _ _

theorem modGrp_riq_other (no : Nat) (f : Grp → Grp) {q : Nat} (hq : q ≠ p) : riqOf (modGrp p no f s) q = riqOf s q :=
  riqOf_setRiq_other (Riq.ne_reset_of_grps (by simp [hgrps])) hq s

end OneGroup

@[simp] theorem count_modGrp (p no : Nat) (f : Grp → Grp) (s : State) (page off : Nat) :
    count (modGrp p no f s) page off = count s page off := rfl

/-! ### Compressors (R336, R340, R366) -/

theorem zFrame_head (content : List Byte) (blocks : List ZBlock) :
    (zFrame content blocks).take 6 = [0x28, 0xB5, 0x2F, 0xFD, 0x04, 0x60] := rfl

/-- A counter that has counted stands while another of its page takes anything, be it 0. -/
theorem count_bump64_of_counted {page off q o : Nat} {s : State} (h : count s q o ≠ 0) (hk : rkey q o ≠ rkey page off) (n : Nat) :
    count (bump64 page off n s) q o = count s q o := sget_sset_of_listed h hk _

/-- A compressor's end, before the queue notes it: its context is idle, the frame and its bytes are counted (R366). -/
def frameCounted (i : Fin 32) (p : Fin 64) (content frame : Nat) (s : State) : State :=
  bump64 (pgCMP i.val) 0xA0C frame (bump64 (pgCMP i.val) 0xA04 content (bump (pgCMP i.val) 0xA00 1
    { s with rcd.cmp := sset {} s.rcd.cmp (engKey i.val p.val) {} }))

@[simp] theorem riqOf_frameCounted (i : Fin 32) (p : Fin 64) (m n : Nat) (s : State) (q : Nat) :
    riqOf (frameCounted i p m n s) q = riqOf s q := rfl

theorem count_frameCounted (i : Fin 32) (p : Fin 64) (m n : Nat) (s : State) :
    count (frameCounted i p m n s) (pgCMP i.val) 0xA00 = min (count s (pgCMP i.val) 0xA00 + 1) 0xFFFFFFFF := by
  have hone : ∀ u : State, count (bump (pgCMP i.val) 0xA00 1 u) (pgCMP i.val) 0xA00 = min (count u (pgCMP i.val) 0xA00 + 1) 0xFFFFFFFF :=
    count_bump_self _ _ (by decide)
  have hcontent : ∀ u : State, count (bump64 (pgCMP i.val) 0xA04 m (bump (pgCMP i.val) 0xA00 1 u)) (pgCMP i.val) 0xA00 =
      min (count u (pgCMP i.val) 0xA00 + 1) 0xFFFFFFFF := fun u => by
    rw [count_bump64_of_counted (by rw [hone]; omega) (by simp only [rkey]; omega), hone]
  rw [frameCounted, count_bump64_of_counted (by rw [hcontent]; omega) (by simp only [rkey]; omega), hcontent]
  rfl

theorem compressDone_of_owner {s : State} {p : Fin 64} {g : Grp} {i : Fin 32} (hown : slotOwner s = some p)
    (hfind : (riqOf s p.val).grps.find? (·.stage = .compressing i) = some g) (blocks : List ZBlock) :
    let frame := zFrame (groupContent g) blocks
    compressDone i blocks s =
      modGrp p.val g.no (fun x => { x with stage := .compressed, frame := frame, bufs := (chainCut frame.length g.bufs).1 })
        (freeBufs (chainCut frame.length g.bufs).2 (frameCounted i p (groupContent g).length frame.length s)) := by
  simp only [compressDone, hown, hfind]
  rfl

/-! ### Cipher pairs (R332, R511) -/

theorem encryptDone_of_match {s : State} {p : Fin 64} {g : Grp} {i : Fin 12} {res : EncObs} (hown : slotOwner s = some p)
    (hfind : (riqOf s p.val).grps.find? (·.stage = .encrypting i) = some g) (hdata : res.dataOk = true) (htag : res.tagOk = true) :
    let u := modGrp p.val g.no (fun x => { x with stage := .confirmed, mism := 0 }) (bump64 (pgCRY i.val) 0xA08 g.body.length
      (bump (pgCRY i.val) 0xA00 1 { s with rcd.cry := sset {} s.rcd.cry (engKey i.val p.val) {} }))
    encryptDone i res s = setRiq p.val (moveMark (riqOf u p.val)) u := by
  simp only [encryptDone, hown, hfind, hdata, htag, and_self, if_true]

theorem encryptDone_of_first_mismatch {s : State} {p : Fin 64} {g : Grp} {i : Fin 12} {res : EncObs} (hown : slotOwner s = some p)
    (hfind : (riqOf s p.val).grps.find? (·.stage = .encrypting i) = some g) (hdata : res.dataOk = false) (hprot : g.prot = true)
    (hmism : g.mism = 0) :
    encryptDone i res s = rewind p.val g.no (fun x => { x with pair := some i, mism := 1 }) (raise (pgCRY i.val) 0
      (bump (pgCRY i.val) 0xA10 1 (lastMis i.val p.val false 1 { s with rcd.cry := sset {} s.rcd.cry (engKey i.val p.val) {} }))) := by
  simp [encryptDone, hown, hfind, hdata, hprot, hmism]

/-- LASTMIS of a data mismatch reads back: it is never the register's reset value (R523). -/
theorem rget_lastMis (i : Fin 12) (p : Fin 64) (s : State) :
    rget (lastMis i.val p.val false 1 s) (pgCRY i.val) 0x604 = BitVec.ofNat 32 (p.val + 512) := by
  have hreset : regReset (rkey (pgCRY i.val) 0x604) = 0 := by revert i; decide
  have hne : BitVec.ofNat 32 (p.val + 512) ≠ regReset (rkey (pgCRY i.val) 0x604) := by
    rw [hreset]
    bv_omega
  exact sget_sset_eq _ _ _ _ hne

theorem exec_compressDone (i : Fin 32) (blocks : List ZBlock) (s : State) :
    exec (.compressDone i blocks) s = .next (compressDone i blocks s) := rfl
theorem exec_encryptDone (i : Fin 12) (res : EncObs) (s : State) : exec (.encryptDone i res) s = .next (encryptDone i res s) := rfl

/-- Settles O33: an engine's end changes the one group that it works on (`modGrp_riq`) and no other queue (`modGrp_riq_other`); what
the engines' counters and the pools take leaves every queue. -/
theorem enginesServeTheSlotOwner : Obligations.EnginesServeTheSlotOwner := by
  simp only [Obligations.EnginesServeTheSlotOwner, exec_compressDone, exec_encryptDone, Host.Outcome.next.injEq, exists_eq_left']
  intro s p g pre post hown hgrps hapart
  have hpre : ∀ x ∈ pre, x.no ≠ g.no ∧ x.stage ≠ g.stage := fun x hx => hapart x (List.mem_append_left _ hx)
  have hpost : ∀ x ∈ post, x.no ≠ g.no := fun x hx => (hapart x (List.mem_append_right _ hx)).1
  have hfind : ∀ st, g.stage = st → (riqOf s p.val).grps.find? (·.stage = st) = some g := fun st hst => by
    rw [hgrps]
    exact find?_stage hst fun x hx => (hpre x hx).2
  refine ⟨fun i blocks hst => ⟨zFrame_head _ _, ?_⟩, fun i res hst hdata htag => ?_, fun i res hst hdata hprot hmism => ?_⟩
  · rw [compressDone_of_owner hown (hfind _ hst)]
    have hgrps' : ∀ l, (riqOf (freeBufs l (frameCounted i p (groupContent g).length (zFrame (groupContent g) blocks).length s))
        p.val).grps = pre ++ g :: post := fun l => by rw [riqOf_freeBufs, riqOf_frameCounted, hgrps]
    refine ⟨?_, fun q hq => ?_, ?_⟩
    · rw [modGrp_riq (hgrps' _) _ (fun x hx => (hpre x hx).1) hpost]
    · rw [modGrp_riq_other (hgrps' _) _ _ (Fin.val_ne_of_ne hq), riqOf_freeBufs, riqOf_frameCounted]
    · rw [count_modGrp, count_freeBufs, count_frameCounted]
  · rw [encryptDone_of_match hown (hfind _ hst) hdata htag]
    generalize hu : bump64 (pgCRY i.val) 0xA08 g.body.length (bump (pgCRY i.val) 0xA00 1
      { s with rcd.cry := sset {} s.rcd.cry (engKey i.val p.val) {} }) = u
    have hriq : ∀ q, riqOf u q = riqOf s q := fun q => by rw [← hu]; rfl
    have hgrps' : (riqOf u p.val).grps = pre ++ g :: post := by rw [hriq, hgrps]
    have hmod := modGrp_riq hgrps' (fun x => { x with stage := .confirmed, mism := 0 }) (fun x hx => (hpre x hx).1) hpost
    rw [hmod]
    have hne : ∀ r : Riq, (moveMark { r with grps := pre ++ { g with stage := .confirmed, mism := 0 } :: post }) ≠ {} := fun r =>
      Riq.ne_reset_of_grps (by simp [moveMark])
    refine ⟨?_, fun q hq => ?_⟩
    · rw [riqOf_setRiq_self (hne _)]
      rfl
    · rw [riqOf_setRiq_other (hne _) (Fin.val_ne_of_ne hq), modGrp_riq_other hgrps' _ _ (Fin.val_ne_of_ne hq), hriq]
  · refine ⟨_, encryptDone_of_first_mismatch hown (hfind _ hst) hdata hprot hmism, evPending_raise_self _ 0 (by decide) _, ?_⟩
    rw [rget_raise]
    exact rget_lastMis i p _

/-! ### Placement (R342, R343) -/

theorem Slot.ne_reset_of_refs {x : Slot} (h : x.refs ≠ []) : x ≠ {} := fun hx => h (by rw [hx])

theorem slotOf_setSlot_self {x : Slot} (h : x ≠ {}) (i : Nat) (s : State) : slotOf (setSlot i x s) i = x := sget_sset_eq _ _ _ _ h

/-- A slot once a whole group stands in it from the next 16-byte boundary on. -/
def Slot.place (x : Slot) (g : Grp) : Slot :=
  let off := roundUp16 x.stream.length
  { x with stream := x.stream ++ List.replicate (off - x.stream.length) 0 ++ groupBytes g,
           refs := x.refs ++ [⟨off, g.firstLrn, g.endLrn, g.hi, g.contIn, grpMarks g⟩],
           firstGrp := x.firstGrp.orElse (fun _ => some off), endLrn := g.endLrn }

theorem putGroup_of_room {s : State} {g : Grp} {i : Nat} {x : Slot} (p : Fin 64) (fuel : Nat) (hput : g.put = 0)
    (hcur : curFilling s g.part.val = some (i, x)) (hhead : roundUp16 x.stream.length + 64 ≤ streamArea)
    (hroom : roundUp16 x.stream.length + (groupBytes g).length < streamArea) :
    putGroup p (fuel + 1) g s = (true, { g with put := (groupBytes g).length }, setSlot i (x.place g) s) := by
  have hmin : min (groupBytes g).length (streamArea - roundUp16 x.stream.length) = (groupBytes g).length := by omega
  simp only [putGroup, hcur, hput, if_true, Nat.not_lt.mpr hhead, if_false, hmin, List.take_length, Nat.ne_of_lt hroom]
  rfl

theorem groupPlace_of_unconfirmed {s : State} {p : Fin 64} {g : Grp} {rest : List Grp} (hgrps : (riqOf s p.val).grps = g :: rest)
    (hst : g.stage ≠ .confirmed) : groupPlace p s = s := by
  simp only [groupPlace, hgrps, hst, ne_eq, not_false_eq_true, if_true]

theorem groupPlace_of_put {s u : State} {p : Fin 64} {g g' : Grp} {rest : List Grp} (hgrps : (riqOf s p.val).grps = g :: rest)
    (hst : g.stage = .confirmed) (hnew : (riqOf s p.val).newDs = false) (hput : putGroup p 6 g s = (true, g', u)) :
    groupPlace p s = closeIfDrained p.val g'.part.val (groupPlaced p g' u) := by
  simp only [groupPlace, hgrps, hst, hnew, hput, ne_eq, not_true_eq_false, Bool.false_eq_true, false_and, if_false]

theorem exec_groupPlace (p : Fin 64) (s : State) : exec (.groupPlace p) s = .next (groupPlace p s) := rfl

/-- Settles O34: a group that fits goes into the slot in one step (`putGroup_of_room`), and the slot reads back with it. -/
theorem groupsArePlaced : Obligations.GroupsArePlaced := by
  simp only [Obligations.GroupsArePlaced, exec_groupPlace, Host.Outcome.next.injEq]
  refine fun s p g rest hgrps => ⟨groupPlace_of_unconfirmed hgrps, fun i x hst hput hnew hcur hhead hroom => ?_⟩
  have hone := putGroup_of_room p 5 hput hcur hhead hroom
  have hslot : slotOf (setSlot i (x.place g) s) i = x.place g :=
    slotOf_setSlot_self (Slot.ne_reset_of_refs (by simp [Slot.place])) i s
  have hplace := groupPlace_of_put hgrps hst hnew hone
  exact ⟨_, _, hone, rfl, congrArg Slot.stream hslot, congrArg Slot.endLrn hslot, hplace⟩

end Sys2Proof.Machine
end

section
/-! SUPPORT. What the engines make of a group that is read back, and the statement on it (O35). -/

namespace Sys2Proof.Machine

/-! ### Cipher pairs (R512) -/

/-- A cipher pair's context in the command's polder is idle again. -/
def pairIdle (i : Fin 12) (c : Cmd) (s : State) : State := { s with rcd.cry := sset {} s.rcd.cry (engKey i.val c.polder.val) {} }

/-- The pair once it has decrypted the group of a read: idle, the group counted, with the bytes of its body. -/
def pairRead (i : Fin 12) (c : Cmd) (j : ReadJob) (s : State) : State :=
  bump64 (pgCRY i.val) 0xA08 (ghField (groupStream s j.part.val j.slot j.off) 0x18 4) (bump (pgCRY i.val) 0xA04 1 (pairIdle i c s))

section DecryptDone
variable {s : State} {h : Nat} {c : Cmd} {j : ReadJob} {i : Fin 12} {res : DecObs}
  (hjob : jobOf s h = some j) (hcmd : cmdOf s h = some c) (hst : j.stage = .decrypting i)
include hjob hcmd hst

theorem decryptDone_of_match (hdata : res.dataOk = true) (htag : res.tagOk = true) :
    decryptDone i h res s =
      if !j.authOk then
        endRead j stAUTH_FAIL (readResult j) (raise (pgCRY i.val) 2 (bump (pgCRY i.val) 0xA14 1 (pairRead i c j s)))
      else setJob { j with stage := .decrypted, mism := 0, pair := none } (pairRead i c j s) := by
  simp only [decryptDone, hjob, hcmd, hst, hdata, htag, ne_eq, not_true_eq_false, and_self, decide_true, Bool.not_true,
    Bool.false_eq_true, if_false]
  rfl

theorem decryptDone_of_first_mismatch (hdata : res.dataOk = false) (hmism : j.mism = 0) :
    decryptDone i h res s = setJob { j with stage := .find, mism := 1, pair := some i, redo := true }
      (raise (pgCRY i.val) 0 (bump (pgCRY i.val) 0xA10 1 (lastMis i.val c.polder.val true 1 (pairIdle i c s)))) := by
  simp [decryptDone, hjob, hcmd, hst, hdata, hmism, pairIdle]

end DecryptDone

/-! ### Decompressors (R361) -/

/-- A decompressor's context in the command's polder is idle again. -/
def expanderIdle (i : Fin 32) (c : Cmd) (s : State) : State := { s with rcd.dcp := sset {} s.rcd.dcp (engKey i.val c.polder.val) {} }

/-- The decompressor once it has read the frame of the group with header `hdr`: idle, the frame counted with the `n` bytes of its content. -/
def expanderRead (i : Fin 32) (c : Cmd) (hdr : List Byte) (n : Nat) (s : State) : State :=
  bump64 (pgDCP i.val) 0xA0C n (bump64 (pgDCP i.val) 0xA04 (ghField hdr 0x18 4) (bump (pgDCP i.val) 0xA00 1 (expanderIdle i c s)))

/-- The check of the lengths index: against the group before it, and the data set's WGEN. -/
def indexOk (s : State) (j : ReadJob) (hdr bs : List Byte) : Bool :=
  lixOk hdr bs (j.expect.map (fun x => (x.1, decide (x.2 = (slotOf s j.slot).wgen))))

/-- The entries of a group's lengths index, behind its record bytes. -/
def indexOf (hdr bs : List Byte) : List LixEntry := parseLix (ghField hdr 0x10 4) (bs.drop (ghField hdr 0x1C 4))

/-- LRN at which a group ends. -/
def groupEnd (hdr : List Byte) (es : List LixEntry) : Nat :=
  ghField hdr 8 6 + (es.filter (fun e => e.kind = 0 ∨ e.kind = 1 ∨ e.kind = 4)).length

/-- A read whose group has been handed over stands before its next one. -/
def ReadJob.next (j : ReadJob) (hi : Nat) (gen : BitVec 64) : ReadJob :=
  { j with stage := .find, expect := some (hi, gen), frame := [], bufs := [] }

/-- A group's records `out` go to the command's buffer and its buffers are freed; the read, which is `k` from there on, has yet to end
or to go on. -/
def recordsDelivered (c : Cmd) (j k : ReadJob) (out : List Byte) (s : State) : State :=
  setJob k (freeBufs j.bufs (meter c.polder.val (fun m => { m with hostOut := m.hostOut + out.length })
    (deliverAt c (bufPieces c.e c.sgl) j.bytes out s)))

/-- The read ends where the records handed over, as `j'` has them, end it; else it looks for its next group as `k`. -/
def endOrGoOn (p : Fin 64) (j' k : ReadJob) (stop : Option (BitVec 16 × BitVec 64)) (s : State) : State :=
  match stop with
  | some (st, res) => endRead { j' with bufs := [] } st res s
  | none => readFind p k s

/-! The engines' contexts are no part of what stands in the basin. -/

theorem groupStream_withDcp (m : Sparse Engine) (s : State) (part slot off : Nat) :
    groupStream { s with rcd.dcp := m } part slot off = groupStream s part slot off := (rfl)

theorem slotOf_expanding (i : Fin 32) (m : Sparse Engine) (a b n : Nat) (s : State) (k : Nat) :
    slotOf (bump64 (pgDCP i.val) 0xA0C a (bump64 (pgDCP i.val) 0xA04 b (bump (pgDCP i.val) 0xA00 n { s with rcd.dcp := m }))) k =
      slotOf s k := (rfl)

section DecompressDone
variable {s : State} {h : Nat} {c : Cmd} {j : ReadJob} {i : Fin 32} {hdr bs : List Byte}
  (hjob : jobOf s h = some j) (hcmd : cmdOf s h = some c) (hst : j.stage = .expanding i)
  (hhdr : groupStream s j.part.val j.slot j.off = hdr)
include hjob hcmd hst hhdr

theorem decompressDone_of_rejected (hread : zRead (ghField hdr 0x14 4) j.frame = none) :
    decompressDone i h s = endRead j stFORMAT_ERR (readResult j)
      (raise (pgDCP i.val) 0 (bump (pgDCP i.val) 0xA14 1 (expanderIdle i c s))) := by
  simp only [decompressDone, hjob, hcmd, hst, groupStream_withDcp, hhdr, hread, ne_eq, not_true_eq_false, if_false]
  rfl

theorem decompressDone_of_bad_index (hread : zRead (ghField hdr 0x14 4) j.frame = some bs) (hok : indexOk s j hdr bs = false) :
    decompressDone i h s = endRead j stFORMAT_ERR (readResult j) (expanderRead i c hdr bs.length s) := by
  have hcheck : lixOk hdr bs (j.expect.map (fun x => (x.1, decide (x.2 = (slotOf s j.slot).wgen)))) = false := hok
  simp only [decompressDone, hjob, hcmd, hst, groupStream_withDcp, slotOf_expanding, hhdr, hread, hcheck, ne_eq, not_true_eq_false,
    Bool.not_false, if_true, if_false]
  rfl

theorem decompressDone_of_content {j' : ReadJob} {out : List Byte} {stop : Option (BitVec 16 × BitVec 64)}
    (hread : zRead (ghField hdr 0x14 4) j.frame = some bs) (hok : indexOk s j hdr bs = true)
    (hhand : handOver (expanderRead i c hdr bs.length s) c (bufLen c.e c.sgl) j.slot j.off (ghField hdr 8 6) (indexOf hdr bs)
      (bs.take (ghField hdr 0x1C 4)) j [] = (j', out, stop)) :
    let k := j'.next (groupEnd hdr (indexOf hdr bs)) (slotOf s j.slot).wgen
    let w := recordsDelivered c j k out (expanderRead i c hdr bs.length s)
    decompressDone i h s = releaseRead j.part.val (endOrGoOn c.polder j' k stop w) := by
  have hcheck : lixOk hdr bs (j.expect.map (fun x => (x.1, decide (x.2 = (slotOf s j.slot).wgen)))) = true := hok
  simp only [expanderRead, expanderIdle, indexOf] at hhand
  simp only [decompressDone, hjob, hcmd, hst, groupStream_withDcp, slotOf_expanding, hhdr, hread, hcheck, hhand, ne_eq,
    not_true_eq_false, Bool.not_true, Bool.false_eq_true, if_false]
  rfl

end DecompressDone

theorem exec_decryptDone (i : Fin 12) (h : Nat) (res : DecObs) (s : State) :
    exec (.decryptDone i h res) s = .next (decryptDone i h res s) := rfl
theorem exec_decompressDone (i : Fin 32) (h : Nat) (s : State) : exec (.decompressDone i h) s = .next (decompressDone i h s) := rfl

/-- Settles O35: what a pair and a decompressor make of the group, by what the lanes, the tag, the frame and the index say. -/
theorem readBackChecks : Obligations.ReadBackChecks := by
  simp only [Obligations.ReadBackChecks, exec_decryptDone, exec_decompressDone, Host.Outcome.next.injEq]
  refine fun s h c j hjob hcmd => ⟨fun i res hst => ⟨fun hdata htag hauth => ?_, fun hdata htag hauth => ?_, fun hdata hmism => ?_⟩,
    fun i hst => ⟨decompressDone_of_rejected hjob hcmd hst rfl, fun bs hread => ⟨decompressDone_of_bad_index hjob hcmd hst rfl hread,
      fun hok j' out stop hhand => decompressDone_of_content hjob hcmd hst rfl hread hok hhand⟩⟩⟩
  · rw [decryptDone_of_match hjob hcmd hst hdata htag, hauth]
    rfl
  · rw [decryptDone_of_match hjob hcmd hst hdata htag, hauth]
    rfl
  · exact ⟨_, decryptDone_of_first_mismatch hjob hcmd hst hdata hmism, evPending_raise_self _ 0 (by decide) _⟩

end Sys2Proof.Machine
end

section
/-! SUPPORT. What an allocation, a free and the write of a share or a quota do, and the statement on them (O36). -/

namespace Sys2Proof.Machine

/-! ### Allocation (R350, R352, R353) -/

/-- An allocation from pool `k` would take its owner past its staging share. -/
abbrev PastShare (s : State) (owner : Byte) (k : Nat) : Prop :=
  owner.toNat < 64 ∧ pshareBytes s owner.toNat < stagingUse s owner.toNat + poolBytes k

theorem checkHead_of_ok {s : State} {k i : Nat} {tail : List Nat} (r : Nat) (hhead : sget [] s.rcd.freeList k = i :: tail)
    (hok : (bufOf s k i).ok = true) : checkHead k r s = s := by
  simp [checkHead, hhead, hok]

section AllocOne
variable {s : State} {r k n i : Nat} {owner : Byte} {tail : List Nat} (hen : pageEn s pgBPM = true) (hopen : r ∉ s.rcd.reqClosed)
  (hpool : poolFor n = some k) (hhead : sget [] s.rcd.freeList k = i :: tail) (hok : (bufOf s k i).ok = true)
include hen hopen hpool hhead hok

theorem allocOne_of_past (hpast : PastShare s owner k) : allocOne r n owner false s = (none, bump pgBPM 0xA08 1 s) := by
  obtain ⟨hlt, hshare⟩ := hpast
  simp [allocOne, hen, hopen, hpool, checkHead_of_ok r hhead hok, hlt, hshare]

theorem allocOne_of_within {kb : Nat} {u : State} (hpast : ¬ PastShare s owner k) (htake : takeBuf k r owner s = some (kb, u)) :
    allocOne r n owner false s = (some kb, u) := by
  simp only [allocOne, hen, hopen, hpool, checkHead_of_ok r hhead hok, hpast, htake, Bool.not_true, Bool.false_eq_true, or_self,
    if_false]

end AllocOne

/-- A buffer held by requester `r` for an owner. -/
def Buf.held (b : Buf) (r : Nat) (owner : Byte) (seq : Nat) : Buf := { b with alloc := true, req := r, pol := owner, seq := seq }

/-- The head of a list has been taken. -/
def headTaken (k i r : Nat) (owner : Byte) (tail : List Nat) (s : State) : State :=
  let u := setBuf k i ((bufOf s k i).held r owner (s.rcd.bufSeq + 1))
    { s with rcd.freeList := sset [] s.rcd.freeList k tail, rcd.bufSeq := s.rcd.bufSeq + 1 }
  bump pgBPM 0xA00 1 (if owner = 0xFF then u else addUse owner.toNat (poolBytes k) u)

theorem takeBuf_of_ok {s : State} {k i : Nat} {tail : List Nat} (r : Nat) (owner : Byte) (hfen : k ∉ s.rcd.fenPool)
    (hhead : sget [] s.rcd.freeList k = i :: tail) (hok : (bufOf s k i).ok = true) :
    takeBuf k r owner s = some (bufKey k i, headTaken k i r owner tail s) := by
  simp only [takeBuf, hfen, hhead, if_false]
  rw [if_neg (by simp [hok])]
  rfl

section HeadTaken
variable {k i r : Nat} {owner : Byte} {tail : List Nat} {s : State}

theorem bufOf_headTaken : bufOf (headTaken k i r owner tail s) k i = (bufOf s k i).held r owner (s.rcd.bufSeq + 1) := by
  have hne : (bufOf s k i).held r owner (s.rcd.bufSeq + 1) ≠ {} := fun h => by simpa [Buf.held] using congrArg Buf.alloc h
  unfold headTaken
  dsimp only
  split <;> exact sget_sset_eq _ _ _ _ hne

theorem stagingUse_headTaken (hk : k < 5) (howner : owner ≠ 0xFF) :
    stagingUse (headTaken k i r owner tail s) owner.toNat = stagingUse s owner.toNat + poolBytes k := by
  have hpos : 0 < poolBytes k := by interval_cases k <;> decide
  rw [headTaken, if_neg howner]
  exact sget_sset_eq _ _ _ _ (Nat.ne_of_gt (Nat.add_pos_right _ hpos))

theorem freeList_headTaken (htail : tail ≠ []) : sget [] (headTaken k i r owner tail s).rcd.freeList k = tail := by
  unfold headTaken
  dsimp only
  split <;> exact sget_sset_eq _ _ _ _ htail

theorem count_headTaken : count (headTaken k i r owner tail s) pgBPM 0xA00 = min (count s pgBPM 0xA00 + 1) 0xFFFFFFFF := by
  rw [headTaken, count_bump_self _ _ (by decide)]
  split <;> rfl

end HeadTaken

theorem bufferAllocate_one (x : BufReq) (s : State) : bufferAllocate [x] s = (allocTurn x s).2 := rfl

theorem allocTurn_of_refused {x : BufReq} {s u : State} (h : allocOne x.r.val x.count x.owner x.spill s = (none, u)) :
    (allocTurn x s).2 = u := by
  rw [allocTurn, h]

theorem allocTurn_of_served {x : BufReq} {s u : State} {kb : Nat}
    (h : allocOne x.r.val x.count x.owner x.spill s = (some kb, u)) :
    (allocTurn x s).2 = { u with rcd.turn := sset 0 u.rcd.turn (reqClass x.r.val) ((x.r.val + 1) % 100) } := by
  rw [allocTurn, h]

/-! ### Handles and frees (R350, R355) -/

section Handle
variable {k i : Nat} (hk : k < 5) (hi : i < 65536) (gen : Byte)
include hk hi

theorem handleOf_toNat : (handleOf k i gen).toNat = gen.toNat + 256 * i + 2 ^ 24 * k := by
  have hgen := gen.isLt
  rw [handleOf, BitVec.toNat_ofNat]
  omega

theorem handleOf_pool : bits (handleOf k i gen) 26 24 = k := by
  have hgen := gen.isLt
  rw [bits, handleOf_toNat hk hi, Nat.shiftRight_eq_div_pow]
  omega

theorem handleOf_index : bits (handleOf k i gen) 23 8 = i := by
  have hgen := gen.isLt
  rw [bits, handleOf_toNat hk hi, Nat.shiftRight_eq_div_pow]
  omega

theorem handleOf_gen : (handleOf k i gen).setWidth 8 = gen := by
  have hgen := gen.isLt
  apply BitVec.eq_of_toNat_eq
  rw [BitVec.toNat_setWidth, handleOf_toNat hk hi]
  omega

variable {s : State} {r : Fin 100} (hen : pageEn s pgBPM = true) (hopen : r.val ∉ s.rcd.reqClosed)
include hen hopen

/-- A handle whose generation is past, or whose buffer is free, is a double free (R355). -/
theorem bufferFree_of_stale (h : (bufOf s k i).alloc = false ∨ (bufOf s k i).gen ≠ gen) :
    bufferFree r (handleOf k i gen) s = reqFault r.val (handleOf k i gen) 1 s := by
  have hstale : (bufOf s k i).gen ≠ gen ∨ (!(bufOf s k i).alloc) = true := h.symm.imp_right (by simp)
  simp only [bufferFree, hen, hopen, handleOf_pool hk hi, handleOf_index hk hi, handleOf_gen hk hi, hstale, Bool.not_true,
    Bool.false_eq_true, or_self, or_true, if_true, if_false]

theorem bufferFree_of_live (hidx : i < poolCount s k) (hgen : (bufOf s k i).gen = gen) (halloc : (bufOf s k i).alloc = true) :
    bufferFree r (handleOf k i gen) s =
      if (bufOf s k i).req ≠ r.val then reqFault r.val (handleOf k i gen) 2 s else giveBack k i s := by
  simp only [bufferFree, hen, hopen, handleOf_pool hk hi, handleOf_index hk hi, handleOf_gen hk hi, hgen, halloc, Nat.not_le.mpr hk,
    Nat.not_le.mpr hidx, Bool.not_true, Bool.false_eq_true, ne_eq, not_true_eq_false, or_self, if_false]

end Handle

/-! ### Staging shares and quotas (R32, R367, R368) -/

theorem pshareWrite_eq {s : State} (hguard : sget none s.rf.guard pgBPM = none) (p : Fin 64) (v : Word) :
    pshareWrite p v s = if pageEn s pgBPM = true ∧ 1024 < pshareSum s p.val (bits v 10 0) then raise pgBPM 4 s
      else rset s pgBPM (0x200 + 4 * p.val) (BitVec.ofNat 32 (bits v 10 0)) := by
  rw [pshareWrite, touchPage_none hguard]

theorem quotaWrite_eq {s : State} (hguard : sget none s.rf.guard pgBSN = none) (p : Fin 64) (v : Word) :
    quotaWrite p v s = if pageEn s pgBSN = true ∧ quotaFits s p.val (bits v 12 0) = false then raise pgBSN 0 s
      else rset s pgBSN (0x200 + 4 * p.val) (BitVec.ofNat 32 (bits v 12 0)) := by
  have hlt : bits v 12 0 < 8192 := Nat.mod_lt _ (by decide)
  simp only [quotaWrite, touchPage_none hguard, setQuota, Nat.mod_eq_of_lt hlt, Bool.not_eq_true']

theorem exec_bufferAllocate (reqs : List BufReq) (s : State) : exec (.bufferAllocate reqs) s = .next (bufferAllocate reqs s) := rfl
theorem exec_bufferFree (r : Fin 100) (handle : Word) (s : State) : exec (.bufferFree r handle) s = .next (bufferFree r handle s) := rfl
theorem exec_pshareWrite (p : Fin 64) (v : Word) (s : State) : exec (.pshareWrite p v) s = .next (pshareWrite p v s) := rfl
theorem exec_quotaWrite (p : Fin 64) (v : Word) (s : State) : exec (.quotaWrite p v) s = .next (quotaWrite p v s) := rfl

/-- Settles O36: an allocation is refused (`allocOne_of_past`) or takes its list's head (`headTaken`), a free finds in its handle the
buffer that it names, and a share or quota is written where the sum fits. -/
theorem poolBuffersAndShares : Obligations.PoolBuffersAndShares := by
  simp only [Obligations.PoolBuffersAndShares, exec_bufferAllocate, exec_bufferFree, exec_pshareWrite, exec_quotaWrite,
    Host.Outcome.next.injEq, exists_eq_left', bufferAllocate_one]
  refine ⟨fun s r k i hen hopen hk hi => ⟨fun n tail owner hpool hfen hhead hok => ⟨fun hpast => ?_, fun hpast => ?_⟩,
    fun gen hidx hgen halloc => ⟨fun hreq => ?_, fun hreq => ?_⟩, fun gen => bufferFree_of_stale hk hi gen hen hopen⟩,
    fun s p v => ⟨fun hguard => pshareWrite_eq hguard p v, fun hguard => quotaWrite_eq hguard p v⟩⟩
  · exact allocTurn_of_refused (allocOne_of_past hen hopen hpool hhead hok hpast)
  · rw [allocTurn_of_served (allocOne_of_within hen hopen hpool hhead hok hpast (takeBuf_of_ok r.val owner hfen hhead hok))]
    exact ⟨bufOf_headTaken, stagingUse_headTaken hk, freeList_headTaken, count_headTaken⟩
  · rw [bufferFree_of_live hk hi gen hen hopen hidx hgen halloc, if_neg (not_not.mpr hreq)]
  · rw [bufferFree_of_live hk hi gen hen hopen hidx hgen halloc, if_pos hreq]

end Sys2Proof.Machine
end

section
/-! SUPPORT. What slots freed and openings ended leave of the host side, and the statements on OPEN_PARTITION, the writes, the reads, SYNC,
the position commands, the vault's commands and ABORT (O6 to O11). -/

namespace Sys2Proof.Machine

/-- The live command of a handle has it. -/
theorem handle_of_cmdOf {s : State} {h : Nat} {c : Cmd} (hc : cmdOf s h = some c) : c.handle = h := by
  simpa using List.find?_some hc

theorem fin64_of_toNat {b : Byte} {part : Fin 64} (h : b.toNat = part.val) : Fin.ofNat 64 b.toNat = part := by
  rw [h]
  exact Fin.ofNat_val_eq_self part

/-! ### Slots that go to FREE -/

/-- What frees slots changes the slots, the register side and the outputs. -/
def SlotsOnly (s t : State) : Prop := ∃ bas rf out, t = { s with bas := bas, rf := rf, out := out }

theorem SlotsOnly.refl (s : State) : SlotsOnly s s := ⟨s.bas, s.rf, s.out, rfl⟩

theorem SlotsOnly.trans {s t u : State} (h : SlotsOnly s t) (h' : SlotsOnly t u) : SlotsOnly s u := by
  obtain ⟨_, _, _, rfl⟩ := h
  obtain ⟨_, _, _, rfl⟩ := h'
  exact ⟨_, _, _, rfl⟩

theorem SlotsOnly.host {s t : State} (h : SlotsOnly s t) : t.host = s.host := by
  obtain ⟨_, _, _, rfl⟩ := h
  rfl

theorem slotsOnly_raise (p b : Nat) (s : State) : SlotsOnly s (raise p b s) := by
  obtain ⟨_, _, h⟩ := raise_frame p b s
  exact ⟨_, _, _, h⟩

theorem slotsOnly_quotaCut (s : State) : SlotsOnly s (quotaCut s) := by
  have hset : ∀ p v, SlotsOnly s (setQuota p v s) := fun _ _ => ⟨_, _, _, rfl⟩
  unfold quotaCut
  split
  · exact .refl s
  · split
    · exact .refl s
    · exact (hset _ _).trans (slotsOnly_raise ..)

theorem slotsOnly_freeSlot (i : Nat) (s : State) : SlotsOnly s (freeSlot i s) := by
  have hset : ∀ x, SlotsOnly s (setSlot i x s) := fun _ => ⟨_, _, _, rfl⟩
  have hcount : SlotsOnly s (bump pgBSN 0xA08 1 (setSlot i { st := .retired } s)) := ⟨_, _, _, rfl⟩
  unfold freeSlot
  split
  · exact (hcount.trans (slotsOnly_raise ..)).trans (slotsOnly_quotaCut _)
  · exact hset _

theorem slotsOnly_freeSlots (p : Slot → Bool) (s : State) : SlotsOnly s (freeSlots p s) := by
  unfold freeSlots
  generalize (s.bas.slots.filter (fun x => p x.2)).map (·.1) = l
  induction l generalizing s with
  | nil => exact .refl s
  | cons i r ih => exact (slotsOnly_freeSlot i s).trans (ih _)

@[simp] theorem releaseRead_host (part : Nat) (s : State) : (releaseRead part s).host = s.host := by
  unfold releaseRead
  exact (slotsOnly_freeSlots _ _).host.trans (by split <;> split <;> rfl)

/-! ### OPEN_PARTITION (R399, R400) -/

/-- The queue's new opening of a partition stands in place of any it had. -/
def opened (c : Cmd) (part : Fin 64) (w : Bool) (s : State) : State :=
  { s with host.opens := s.host.opens.filter (fun o => !(o.src = c.src ∧ o.part = part)) ++
      [{ src := c.src, part := part, writer := w, read := 0 }] }

/-- The queue is the partition's writer. -/
def wasWriter (s : State) (c : Cmd) (part : Fin 64) : Bool := ((openingOf s c.src part.val).map (·.writer)).getD false

theorem openingOf_closeOpening (c : Cmd) (part : Fin 64) (s : State) : openingOf (closeOpening c part s) c.src part.val = none := by
  simp only [openingOf, closeOpening, releaseRead_host, List.find?_eq_none, List.mem_filter]
  rintro o ⟨-, ho⟩
  simpa [Fin.ext_iff, imp_iff_not_or] using ho

/-- A queue that binds a partition for writing writes that one alone (R400). -/
theorem writer_bindWriter {c : Cmd} {part : Fin 64} {s : State} {o : Opening} (ho : o ∈ (bindWriter c part s).host.opens)
    (hsrc : o.src = c.src) : o.writer = true ↔ o.part = part := by
  obtain ⟨a, -, rfl⟩ := List.mem_map.1 ho
  by_cases ha : a.src = c.src
  · simp [ha]
  · exact absurd hsrc (by rwa [if_neg ha])

theorem riqOf_bindWriter (c : Cmd) (part : Fin 64) (s : State) : (riqOf (bindWriter c part s) c.polder.val).part = some part := by
  have hset : ∀ (r : Riq) (u : State), r.part = some part → (riqOf (setRiq c.polder.val r u) c.polder.val).part = some part :=
    fun r u hr => by rwa [riqOf_setRiq_self (fun h0 => by simp [h0] at hr)]
  unfold bindWriter
  dsimp only
  split
  · next hp => exact hp
  · exact hset _ _ rfl

section OpenPartition
variable {s : State} {h : Nat} {c : Cmd} {part : Fin 64} (hr : Ready s h 0x01 c) (hpart : c.e.part.toNat = part.val)
  (hcheck : partCheck s c = none)
include hr hpart hcheck

theorem openPartition_of_close (hmode : csp c.e 0x20 1 = 2) (hopen : (openingOf s c.src part.val).isSome = true) :
    openPartition h s = done h stSUCCESS (openResult (closeOpening c part s) part.val) (closeOpening c part s) := by
  have hnot : (openingOf s c.src part.val).isNone = false := by simpa using hopen
  rw [openPartition, onCmd_of_ready _ hr]
  simp only [hcheck, fin64_of_toNat hpart, hmode, hnot, Bool.false_eq_true, if_true, if_false]

section Keyed
variable (hkey : keyHeld s (partEntry s part.val) c.polder = true)
include hkey

theorem openPartition_of_read (hmode : csp c.e 0x20 1 = 0) :
    openPartition h s =
      done h stSUCCESS (openResult (opened c part (wasWriter s c part) s) part.val) (opened c part (wasWriter s c part) s) := by
  rw [openPartition, onCmd_of_ready _ hr]
  simp only [hcheck, fin64_of_toNat hpart, hmode, hkey, Bool.not_true, Bool.false_eq_true, OfNat.zero_ne_ofNat, zero_ne_one, false_and,
    if_false]
  rfl

theorem openPartition_of_write (hmode : csp c.e 0x20 1 = 1) (hfree : writerBound s c = false)
    (hplaced : switchWaits s c.polder part.val = false) :
    openPartition h s = done h stSUCCESS (openResult (bindWriter c part (opened c part (wasWriter s c part) s)) part.val)
      (bindWriter c part (opened c part (wasWriter s c part) s)) := by
  rw [openPartition, onCmd_of_ready _ hr]
  simp only [hcheck, fin64_of_toNat hpart, hmode, hkey, hfree, hplaced, Bool.not_true, Bool.false_eq_true, and_false, OfNat.one_ne_ofNat,
    if_true, if_false]
  rfl

theorem openPartition_of_switch (hmode : csp c.e 0x20 1 = 1) (hfree : writerBound s c = false)
    (hwaits : switchWaits s c.polder part.val = true) :
    openPartition h s = requestClose c.polder.val (riqOf s c.polder.val).asgLrn s := by
  rw [openPartition, onCmd_of_ready _ hr]
  simp only [hcheck, fin64_of_toNat hpart, hmode, hkey, hfree, hwaits, Bool.not_true, Bool.false_eq_true, and_false, and_self,
    OfNat.one_ne_ofNat, if_true, if_false]

end Keyed

end OpenPartition

theorem exec_openPartition (h : Nat) (s : State) : exec (.openPartition h) s = .next (openPartition h s) := rfl

/-- Settles O6: each mode by what OPEN_PARTITION makes of it; a queue that writes a partition writes no other (`writer_bindWriter`). -/
theorem openPartitionByMode : Obligations.OpenPartitionByMode := by
  simp only [Obligations.OpenPartitionByMode, exec_openPartition, Host.Outcome.next.injEq, exists_eq_left]
  intro s h c part hr hpart hcheck
  exact ⟨fun hkey => ⟨openPartition_of_read hr hpart hcheck hkey,
      fun hmode hfree hplaced => ⟨fun o => writer_bindWriter, riqOf_bindWriter c part _,
        openPartition_of_write hr hpart hcheck hkey hmode hfree hplaced⟩,
      openPartition_of_switch hr hpart hcheck hkey⟩,
    fun hmode hopen => ⟨openingOf_closeOpening c part s, openPartition_of_close hr hpart hcheck hmode hopen⟩⟩

/-! ### WRITE_RECORDS and WRITE_MARK (R391, R392) -/

/-- The LRN at which a write is to begin. -/
def writeLrn (s : State) (c : Cmd) : Nat := if lrnOf c.e = lrnCurrent then eodLrn s c.e.part.toNat else lrnOf c.e

theorem writeLrn_of_atEnd {s : State} {c : Cmd} (h : lrnOf c.e = eodLrn s c.e.part.toNat ∨ lrnOf c.e = lrnCurrent) :
    writeLrn s c = eodLrn s c.e.part.toNat := by
  unfold writeLrn
  split
  · rfl
  · next hc => exact h.resolve_right hc

/-- A started write: its LRNs, and UBYTES once it is placed. -/
def begun (s : State) (part lrn n bytes : Nat) (x : Cmd) : Cmd :=
  { x with started := true, lrnA := lrn, lrnZ := lrn + n, ubEnd := ubytesPlanned s part + bytes }

section Write
variable {s : State} {c : Cmd} (n bytes : Nat)

theorem writeCmd_of_gap (habove : eodLrn s c.e.part.toNat < lrnOf c.e) (hnum : lrnOf c.e ≠ lrnCurrent) :
    writeCmd c n bytes s = done c.handle stLRN_GAP 0 s := by
  simp only [writeCmd, if_neg hnum, if_pos habove]

variable (hend : lrnOf c.e = eodLrn s c.e.part.toNat ∨ lrnOf c.e = lrnCurrent)
include hend

theorem writeCmd_of_logicalFull (hfull : 2 ^ 52 < ubytesSum s + bytes) : writeCmd c n bytes s = done c.handle stLOGICAL_FULL 0 s := by
  have hlrn := writeLrn_of_atEnd hend
  simp only [writeLrn] at hlrn
  simp only [writeCmd, hlrn, Nat.lt_irrefl, if_false, if_pos hfull]

theorem writeCmd_of_atEnd (hfits : ubytesSum s + bytes ≤ 2 ^ 52) (hroom : (partEntry s c.e.part.toNat).full = false)
    (hpairs : allPairsFenced s = false) :
    writeCmd c n bytes s = modCmd c.handle (begun s c.e.part.toNat (eodLrn s c.e.part.toNat) n bytes)
      (setRiq c.polder.val { riqOf s c.polder.val with asgLrn := eodLrn s c.e.part.toNat + n } s) := by
  have hlrn := writeLrn_of_atEnd hend
  simp only [writeLrn] at hlrn
  simp only [writeCmd, hlrn, Nat.lt_irrefl, false_and, if_false, if_neg (Nat.not_lt.mpr hfits), hroom, hpairs, Bool.false_eq_true]
  rfl

end Write

section WriteCommands
variable {s : State} {h : Nat} {c : Cmd} (hcheck : openCheck s c true = none) (hro : readOnly s = false)
include hcheck hro

theorem writeRecords_of_lengthsOk (hr : Ready s h 0x02 c) (hlen : lengthsOk c = true) :
    writeRecords h s = writeCmd c (csp c.e 0x20 4) (bufLen c.e c.sgl) s := by
  rw [writeRecords, onCmd_of_ready _ hr]
  simp [hcheck, hro, hlen]

theorem writeMark_of_ready (hr : Ready s h 0x04 c) : writeMark h s = writeCmd c (csp c.e 0x20 4) 0 s := by
  rw [writeMark, onCmd_of_ready _ hr]
  simp [hcheck, hro]

end WriteCommands

theorem exec_writeRecords (h : Nat) (s : State) : exec (.writeRecords h) s = .next (writeRecords h s) := rfl
theorem exec_writeMark (h : Nat) (s : State) : exec (.writeMark h) s = .next (writeMark h s) := rfl

/-- Settles O7: both commands run `writeCmd`, which takes the LRNs from EODLRN on or refuses. -/
theorem writesTakeTheirRecordNumbers : Obligations.WritesTakeTheirRecordNumbers := by
  simp only [Obligations.WritesTakeTheirRecordNumbers, exec_writeRecords, exec_writeMark, Host.Outcome.next.injEq]
  intro s h c hcheck hro
  refine ⟨fun hr hlen => ?records, fun hr => ?marks⟩
  case records =>
    have hc := handle_of_cmdOf hr.1
    rw [writeRecords_of_lengthsOk hcheck hro hr hlen]
    refine ⟨fun hend hfits hfree => ?_, fun hend hfull => ?_, fun habove => ?_⟩
    · rw [writeCmd_of_atEnd _ _ hend hfits hfree.1 hfree.2, hc]
      rfl
    · rw [writeCmd_of_logicalFull _ _ hend hfull, hc]
    · rw [writeCmd_of_gap _ _ habove.1 habove.2, hc]
  case marks =>
    have hc := handle_of_cmdOf hr.1
    rw [writeMark_of_ready hcheck hro hr]
    refine ⟨fun hend hfits hfree => ?_, fun habove => ?_⟩
    · rw [writeCmd_of_atEnd _ _ hend hfits hfree.1 hfree.2, hc]
      rfl
    · rw [writeCmd_of_gap _ _ habove.1 habove.2, hc]

/-! ### READ_RECORDS and SYNC (R36, R393, R408) -/

section Read
variable {s : State} {h : Nat} {c : Cmd} {part : Fin 64} (hpart : c.e.part.toNat = part.val) (hr : Ready s h 0x03 c)
  (hcheck : openCheck s c false = none)
include hpart hr hcheck

/-- Where a read begins: at its LRN, or at the queue's read point. -/
theorem readRecords_of_open : readRecords h s =
    (let lrn := if lrnOf c.e = lrnCurrent then ((openingOf s c.src part.val).map (·.read)).getD 0 else lrnOf c.e
     let u := modCmd h (fun x => { x with fw := readMoves s part.val lrn }) s
     if readMoves s part.val lrn = true ∧ fwTakes s = false then s
     else startCmd h { u with rcd.reads := u.rcd.reads ++ [{ h := h, part := part, lrn := lrn }] }) := by
  rw [readRecords, onCmd_of_ready _ hr]
  simp [hcheck, hpart]

end Read

section Sync
variable {s : State} {h : Nat} {c : Cmd} {part : Fin 64} (hpart : c.e.part.toNat = part.val) (hr : Ready s h 0x05 c)
  (hcheck : openCheck s c false = none) (hnone : ∀ w ∈ s.host.cmds, w.e.opc ≠ 0x02 ∧ w.e.opc ≠ 0x04)
include hnone

/-- Without writes a SYNC covers its partition up to EODLRN. -/
theorem syncPoint_of_no_writes : syncPoint s c = eodLrn s c.e.part.toNat := by
  have hbusy : busyWrites s c.e.part.toNat = [] := by
    rw [busyWrites, List.filter_eq_nil_iff]
    intro w hw hbusy
    have hw' := of_decide_eq_true hbusy
    exact hw'.1.elim (hnone w hw).1 (hnone w hw).2
  rw [syncPoint, hbusy]
  rfl

include hpart hr hcheck

theorem sync_of_covered (hcov : eodLrn s part.val ≤ syncLrnOf s part.val) (hunbound : (riqOf s c.polder.val).part = none) :
    sync h s = syncsDone part.val (closeIfDrained c.polder.val part.val
      (modCmd h (fun x => { x with started := true, lrnZ := eodLrn s part.val }) s)) := by
  have hwait : s.host.cmds.any (fun w => (w.e.opc = 0x02 ∨ w.e.opc = 0x04) ∧ w.no < c.no ∧ !w.started ∧ w.fin.isNone ∧
      ofPart c.e.part.toNat w) = false := by
    rw [List.any_eq_false]
    intro w hw hbusy
    have hw' := of_decide_eq_true hbusy
    exact hw'.1.elim (hnone w hw).1 (hnone w hw).2
  have hcov' : ∀ f, eodLrn s part.val ≤ syncLrnOf (modCmd h f s) part.val := fun _ => hcov
  have hunbound' : ∀ f, (riqOf (modCmd h f s) c.polder.val).part = none := fun _ => hunbound
  rw [sync, onCmd_of_ready _ hr]
  simp only [hcheck, hwait, syncPoint_of_no_writes hnone, Bool.false_eq_true, if_false]
  simp [hpart, hcov', hunbound']

end Sync

theorem exec_readRecords (h : Nat) (s : State) : exec (.readRecords h) s = .next (readRecords h s) := rfl
theorem exec_sync (h : Nat) (s : State) : exec (.sync h) s = .next (sync h s) := rfl

/-- Settles O8: READ_RECORDS starts where it begins (`readRecords_of_open`), or waits for firmware, and SYNC covers what is there. -/
theorem readAndSyncStart : Obligations.ReadAndSyncStart := by
  simp only [Obligations.ReadAndSyncStart, exec_readRecords, exec_sync, Host.Outcome.next.injEq]
  intro s h c part hpart
  refine ⟨fun hr hcheck => ⟨fun hgo => ?_, fun hmove hwait => ?_⟩, fun hr hcheck hnone => sync_of_covered hpart hr hcheck hnone⟩
  · rw [readRecords_of_open hpart hr hcheck]
    dsimp only
    rw [if_neg (by rcases hgo with hgo | hgo <;> simp [hgo])]
  · rw [readRecords_of_open hpart hr hcheck]
    dsimp only
    rw [if_pos ⟨hmove, hwait⟩]

/-! ### LOCATE, SPACE, REPORT_POSITION (R390, R395, R396) -/

/-- The read point of the issuing queue in the command's partition. -/
def readPoint (s : State) (c : Cmd) : Nat := ((openingOf s c.src c.e.part.toNat).map (·.read)).getD 0

/-- Over records alone SPACE ends its count further on (R395). -/
theorem spaceTo_forward {marks : List Nat} {eod rp k : Nat} (hk : 0 < k) (hclear : ∀ m ∈ marks, m < rp ∨ rp + k ≤ m)
    (hend : rp + k ≤ eod) : spaceTo marks eod rp k 0 = (rp + k, k, stSUCCESS) := by
  have hpos : (0 : Int) < k := by omega
  simp only [spaceTo, Int.natAbs_natCast, if_true, if_pos hpos]
  split
  · next m hm =>
    have hmem := List.mem_filter.1 (List.mem_of_mem_head? hm)
    have hrp : rp ≤ m ∧ m < eod := of_decide_eq_true hmem.2
    have hge : rp + k ≤ m := (hclear m hmem.1).resolve_left (Nat.not_lt.mpr hrp.1)
    rw [if_neg (Nat.not_lt.mpr hge)]
  · rw [if_neg (Nat.not_lt.mpr hend)]

theorem sgn_of_small {k : Nat} (h : k < 2 ^ 31) : sgn 32 k = k := by
  rw [sgn, Nat.mod_eq_of_lt (by omega), if_pos (by omega)]

section Position
variable {s : State} {h : Nat} {c : Cmd} (hcheck : openCheck s c false = none)
include hcheck

theorem locate_of_number (hr : Ready s h 0x06 c) (hle : lrnOf c.e ≤ eodLrn s c.e.part.toNat) (hnum : lrnOf c.e ≠ lrnCurrent) :
    locate h s = done h stSUCCESS (lrnOf c.e) (moveRead c (lrnOf c.e) s) := by
  rw [locate, onCmd_of_ready _ hr]
  simp only [hcheck, if_neg hnum, if_neg (Nat.not_lt.mpr hle)]

/-- To LOCATE, the current LRN is EODLRN (R390). -/
theorem locate_of_current (hr : Ready s h 0x06 c) (hcur : lrnOf c.e = lrnCurrent) :
    locate h s = done h stSUCCESS (eodLrn s c.e.part.toNat) (moveRead c (eodLrn s c.e.part.toNat) s) := by
  rw [locate, onCmd_of_ready _ hr]
  simp only [hcheck, if_pos hcur, Nat.lt_irrefl, if_false]

theorem space_of_forward {marks : List Nat} {k : Nat} (hr : Ready s h 0x07 c) (hunit : csp c.e 0x24 1 = 0) (hcount : csp c.e 0x20 4 = k)
    (hk : 0 < k) (hsmall : k < 2 ^ 31)
    (hclear : ∀ m ∈ allMarks s c.e.part.toNat marks, m < readPoint s c ∨ readPoint s c + k ≤ m)
    (hend : readPoint s c + k ≤ eodLrn s c.e.part.toNat) :
    space h marks s = done h stSUCCESS k (moveRead c (readPoint s c + k) s) := by
  have hto := spaceTo_forward hk hclear hend
  rw [readPoint] at hto ⊢
  rw [space, onCmd_of_ready _ hr]
  simp only [hcheck, hunit, hcount, sgn_of_small hsmall, hto]

theorem reportPosition_of_known {tape : Nat} (hr : Ready s h 0x08 c) (hbuf : 64 ≤ bufLen c.e c.sgl)
    (hbase : (s.cart.map (fun x => sget 0 x.baseLrn c.e.part.toNat)).getD 0 ≤ readPoint s c) :
    reportPosition h tape s = done h stSUCCESS (readPoint s c)
      (deliverAt c (bufPieces c.e c.sgl) 0 (positionRecord s c.e.part.toNat (readPoint s c)
        (marksBelow s c.e.part.toNat (readPoint s c)).1) (freeNext (freeNext s))) := by
  rw [reportPosition, onCmd_of_ready _ hr]
  rw [readPoint] at hbase ⊢
  simp only [hcheck, if_neg (Nat.not_lt.mpr hbuf)]
  cases hk : s.cart with
  | none => simp only [Nat.zero_le, if_true]
  | some k =>
    rw [hk] at hbase
    simp only [Option.map_some, Option.getD_some] at hbase
    simp only [hbase, if_true]

end Position

theorem exec_locate (h : Nat) (s : State) : exec (.locate h) s = .next (locate h s) := rfl
theorem exec_space (h : Nat) (marks : List Nat) (s : State) : exec (.space h marks) s = .next (space h marks s) := rfl
theorem exec_reportPosition (h tape : Nat) (s : State) : exec (.reportPosition h tape) s = .next (reportPosition h tape s) := rfl

/-- Settles O9: each command by what it leaves; over records alone SPACE counts them (`spaceTo_forward`). -/
theorem positionCommands : Obligations.PositionCommands := by
  simp only [Obligations.PositionCommands, exec_locate, exec_space, exec_reportPosition, Host.Outcome.next.injEq]
  exact fun s h c hcheck => ⟨locate_of_number hcheck, locate_of_current hcheck, fun marks k => space_of_forward hcheck,
    fun tape => reportPosition_of_known hcheck⟩

/-! ### KEY_IMPORT, ATTEST, GET_METER (R389, R519) -/

section Vault
variable {s : State} {h : Nat} {c : Cmd}

theorem keyImport_of_blob (hr : Ready s h 0x09 c) (hcheck : partCheck s c = none) (hsgl : usesSgl c.e = false) (hlen : c.e.dlen = 192) :
    keyImport h s = startCmd h s := by
  rw [keyImport, onCmd_of_ready _ hr]
  simp [hcheck, hsgl, hlen]

theorem attest_of_ready (hr : Ready s h 0x0A c) : attest h s = startCmd h s := by
  rw [attest, onCmd_of_ready _ hr]

theorem getMeter_of_room (hr : Ready s h 0x0B c) (hbuf : 336 ≤ bufLen c.e c.sgl) : getMeter h s = done h stSUCCESS 336
    (deliverAt c (bufPieces c.e c.sgl) 0 (meterSnapshot s (csp c.e 0x20 1)) (startCmd h s)) := by
  rw [getMeter, onCmd_of_ready _ hr, if_neg (Nat.not_lt.mpr hbuf)]

theorem getMeter_of_small (hr : Ready s h 0x0B c) (hbuf : bufLen c.e c.sgl < 336) : getMeter h s = done h stBUFFER_SMALL 0 s := by
  rw [getMeter, onCmd_of_ready _ hr, if_pos hbuf]

end Vault

theorem exec_keyImport (h : Nat) (s : State) : exec (.keyImport h) s = .next (keyImport h s) := rfl
theorem exec_attest (h : Nat) (s : State) : exec (.attest h) s = .next (attest h s) := rfl
theorem exec_getMeter (h : Nat) (s : State) : exec (.getMeter h) s = .next (getMeter h s) := rfl

/-- Settles O10: a command whose turn it is passes to firmware, or is answered by the size of its buffer. -/
theorem vaultCommandsStart : Obligations.VaultCommandsStart := by
  simp only [Obligations.VaultCommandsStart, exec_keyImport, exec_attest, exec_getMeter, Host.Outcome.next.injEq]
  exact fun s h c => ⟨keyImport_of_blob, attest_of_ready, getMeter_of_room, getMeter_of_small⟩

/-! ### ABORT (R397, R413) -/

/-- The command that ABORT names, if it is live and undecided. -/
def abortTarget (s : State) (h : Nat) (c : Cmd) : Option Cmd :=
  s.host.cmds.find? (fun t => t.src = abortSrc c ∧ t.e.cid.toNat = csp c.e 0x22 2 ∧ t.fin.isNone ∧ t.handle ≠ h ∧ !t.silent)

/-- What ABORT makes of a target that has started, by its opcode. -/
def abortStarted (h : Nat) (t : Cmd) (s : State) : State :=
  match t.e.opc.toNat with
  | 0x02 => done h stSUCCESS 2 (abortWrite t s)
  | 0x04 => done h stSUCCESS 2 (abortWrite t s)
  | 0x03 => done h stSUCCESS 2 (done t.handle stABORTED 0 (killRead t.handle s))
  | 0x06 => done h stSUCCESS 2 (abortSeek t s)
  | 0x07 => done h stSUCCESS 2 (abortSeek t s)
  | 0x05 => done h stSUCCESS 2 (syncsDone t.e.part.toNat (done t.handle stABORTED 0 s))
  | _ => done h stSUCCESS 8 s

section Abort
variable {s : State} {h : Nat} {c : Cmd} (hr : Ready s h 0x0C c)
include hr

theorem abort_of_none (hnone : abortTarget s h c = none) : abort h s = done h stSUCCESS 4 s := by
  rw [abortTarget] at hnone
  rw [abort, onCmd_of_ready _ hr]
  simp only [hnone]

variable {t : Cmd} (ht : abortTarget s h c = some t)
include ht

theorem abort_of_unstarted (hst : t.started = false) : abort h s = done h stSUCCESS 1 (done t.handle stABORTED 0 s) := by
  rw [abortTarget] at ht
  rw [abort, onCmd_of_ready _ hr]
  simp only [ht, hst, Bool.not_false, if_true]

variable (hst : t.started = true)
include hst

theorem abort_of_started : abort h s = abortStarted h t s := by
  rw [abortTarget] at ht
  rw [abort, onCmd_of_ready _ hr]
  simp only [ht, hst, Bool.not_true, Bool.false_eq_true, if_false]
  rfl

theorem abort_of_read (hopc : t.e.opc = 0x03) :
    abort h s = done h stSUCCESS 2 (done t.handle stABORTED 0 (killRead t.handle s)) := by
  rw [abort_of_started hr ht hst, abortStarted, hopc]
  rfl

theorem abort_of_write (hopc : t.e.opc = 0x02 ∨ t.e.opc = 0x04) : abort h s = done h stSUCCESS 2 (abortWrite t s) := by
  rw [abort_of_started hr ht hst, abortStarted]
  rcases hopc with hopc | hopc
  · rw [hopc]; rfl
  · rw [hopc]; rfl

theorem abort_of_sync (hopc : t.e.opc = 0x05) :
    abort h s = done h stSUCCESS 2 (syncsDone t.e.part.toNat (done t.handle stABORTED 0 s)) := by
  rw [abort_of_started hr ht hst, abortStarted, hopc]
  rfl

theorem abort_of_seek (hopc : t.e.opc = 0x06 ∨ t.e.opc = 0x07) : abort h s = done h stSUCCESS 2 (abortSeek t s) := by
  rw [abort_of_started hr ht hst, abortStarted]
  rcases hopc with hopc | hopc
  · rw [hopc]; rfl
  · rw [hopc]; rfl

theorem abort_of_other (hopc : t.e.opc.toNat < 2 ∨ 7 < t.e.opc.toNat) : abort h s = done h stSUCCESS 8 s := by
  rw [abort_of_started hr ht hst, abortStarted]
  split
  case h_7 => rfl
  all_goals omega

end Abort

theorem exec_abort (h : Nat) (s : State) : exec (.abort h) s = .next (abort h s) := rfl

/-- Settles O11: ABORT by the state of its target and, once that has started, by its opcode. -/
theorem abortActsOnItsTarget : Obligations.AbortActsOnItsTarget := by
  simp only [Obligations.AbortActsOnItsTarget, exec_abort, Host.Outcome.next.injEq]
  exact fun s h c hr => ⟨abort_of_none hr, fun t ht => ⟨abort_of_unstarted hr ht, abort_of_read hr ht, abort_of_write hr ht,
    abort_of_sync hr ht, abort_of_seek hr ht, abort_of_other hr ht⟩⟩

end Sys2Proof.Machine
end

section
/-! SUPPORT. What the admin commands make of the index, the polders and the images, and the statements on UNLOAD and the partitions,
POLDER_CONFIG, firmware, schedules, logs and time (O13 to O16). -/

namespace Sys2Proof.Machine

theorem foldNat_of_fixed {σ α : Type} {f : σ → α → σ} {s : σ} (h : ∀ a, f s a = s) (l : List α) : foldNat f s l = s := by
  induction l with
  | nil => rfl
  | cons a r ih => rw [foldNat, h, ih]

/-! ### UNLOAD of an empty basin (R418) -/

section Empty
variable {s : State} (hslots : s.bas.slots = []) (hqueues : ∀ p : Nat, (riqOf s p).part = none)

include hqueues in
theorem boundRiq_of_unbound (part : Nat) : boundRiq s part = none := by
  rw [boundRiq, List.find?_eq_none]
  intro p _
  simp [hqueues p]

include hslots in
theorem closeFilling_of_no_slots (part : Nat) : closeFilling part s = s := by
  simp [closeFilling, slotsIn, hslots, isort, foldNat]

include hslots hqueues

theorem closeForUnload_of_empty (part : Nat) : closeForUnload s part = s := by
  simp only [closeForUnload, boundRiq_of_unbound hqueues, closeFilling_of_no_slots hslots]

theorem unwritten_of_empty (part : Nat) : unwritten s part = false := by
  simp only [unwritten, hslots, boundRiq_of_unbound hqueues, List.any_nil, Bool.or_false]

end Empty

/-- The state of a device that unloads its cartridge for a command (R418). -/
def unloads (h : Nat) (c : Cmd) (s : State) : State :=
  { startCmd h s with cart := s.cart.map (fun k => { k with unloading := some c.no, noticed := false }) }

theorem notLoaded_of_unloading {s t : State} {c x : Cmd}
    (h : t.cart = s.cart.map (fun k => { k with unloading := some c.no, noticed := false })) (hlater : c.no < x.no) :
    notLoaded t x = true := by
  cases hk : s.cart <;> simp [notLoaded, h, hk, hlater]

section Admin
variable {s : State} {h : Nat} {c : Cmd} (hn : NoneAlike s c)
include hn

theorem unload_of_empty (hr : Ready s h 0x82 c) (hload : notLoaded s c = false) (hslots : s.bas.slots = [])
    (hqueues : ∀ p : Nat, (riqOf s p).part = none) :
    unload h s = { unloads h c s with trk.syncPend := (List.finRange 64).filter (fun p => decide (p ∈ s.trk.syncPend)) } := by
  have hslots' : (unloads h c s).bas.slots = [] := hslots
  have hqueues' : ∀ p : Nat, (riqOf (unloads h c s) p).part = none := hqueues
  have hclose : foldNat closeForUnload (unloads h c s) (List.range 64) = unloads h c s :=
    foldNat_of_fixed (closeForUnload_of_empty hslots' hqueues') _
  rw [unloads] at hclose
  rw [unload, adminCmd_of_ready _ hr hn]
  simp only [hload, Bool.false_eq_true, if_false]
  have hcart : (startCmd h s).cart = s.cart := rfl
  rw [hcart, hclose]
  have hunw : ∀ p, unwritten (unloads h c s) p = false := unwritten_of_empty hslots' hqueues'
  rw [unloads] at hunw
  simp only [hunw, Bool.or_false]
  rfl

section Delete
variable (hr : Ready s h 0x84 c) (hload : notLoaded s c = false) (hro : readOnly s = false)
  (huse : (partEntry s c.e.part.toNat).inUse = true)
include hr hload hro huse

theorem partitionDelete_of_closed (hopen : s.host.opens.any (fun o => o.part.val = c.e.part.toNat) = false) :
    partitionDelete h s = startCmd h s := by
  rw [partitionDelete, adminCmd_of_ready _ hr hn]
  simp only [hload, hro, huse, hopen, Bool.not_true, Bool.false_eq_true, if_false]

theorem partitionDelete_of_open (hopen : s.host.opens.any (fun o => o.part.val = c.e.part.toNat) = true) :
    partitionDelete h s = done h stPARTITION_OPEN 0 s := by
  rw [partitionDelete, adminCmd_of_ready _ hr hn]
  simp only [hload, hro, huse, hopen, Bool.not_true, Bool.false_eq_true, if_true, if_false]

end Delete

end Admin

theorem exec_unload (h : Nat) (s : State) : exec (.unload h) s = .next (unload h s) := rfl
theorem exec_partitionDelete (h : Nat) (s : State) : exec (.partitionDelete h) s = .next (partitionDelete h s) := rfl

/-- Settles O13: with nothing left to write UNLOAD changes its command and the cartridge alone, and PARTITION_DELETE is with the vault
unless a queue has the partition open. -/
theorem unloadAndDeleteBegin : Obligations.UnloadAndDeleteBegin := by
  simp only [Obligations.UnloadAndDeleteBegin, exec_unload, exec_partitionDelete, Host.Outcome.next.injEq]
  exact fun s h c hn hload => ⟨fun hr hslots hqueues => ⟨unload_of_empty hn hr hload hslots hqueues,
      fun x => notLoaded_of_unloading rfl⟩,
    fun hr hro huse => ⟨partitionDelete_of_closed hn hr hload hro huse, partitionDelete_of_open hn hr hload hro huse⟩⟩

/-! ### PARTITION_CREATE (R72, R402) -/

/-- A new generation leaves the entries of the partitions (R113). -/
theorem partEntry_newGen (s : State) (p : Nat) : partEntry (newGen s) p = partEntry s p := by
  unfold partEntry newGen newGenAs
  cases hk : s.cart with
  | none => simp only [hk]
  | some k =>
    cases hbad : k.indexBad with
    | true => simp only [hbad, hk, if_true]
    | false => simp only [hbad, Bool.false_eq_true, if_false, emit_cart, freeNext_cart]

/-- The wrap pairs put into a table read back. -/
theorem sget_foldl_sset {α : Type} [DecidableEq α] {d v : α} (hv : v ≠ d) {w : Nat} (l : List Nat) (m : Sparse α)
    (h : w ∈ l ∨ sget d m w = v) : sget d (l.foldl (fun m k => sset d m k v) m) w = v := by
  induction l generalizing m with
  | nil => exact h.resolve_left (by simp)
  | cons k r ih =>
    refine ih _ ?_
    by_cases hk : w = k
    · exact .inr (hk ▸ sget_sset_eq d m w v hv)
    · rcases h with h | h
      · exact .inl (by simpa [hk] using h)
      · exact .inr ((sget_sset_ne d m k w v hv hk).trans h)

/-- A pair that becomes a berm carries no data (R72). -/
theorem role_of_bermOn {core : IndexCore} {part wp b : Nat} {up : Bool} (h : bermOn core part wp up = some (some b)) :
    (sget {} core.wps b).role ≠ .data := by
  unfold bermOn at h
  extract_lets near stop own at h
  split at h
  · simp at h
  · next hgo =>
    split at h
    · simp at h
    · next x hx =>
      obtain rfl : x = b := by simpa using h
      have hown : own = false := by simpa using fun ho => hgo (.inr (.inl ho))
      have hb := List.any_eq_false.1 hown x (List.mem_of_mem_head? hx)
      simpa using hb

/-- The berms leave the pairs that carry data. -/
theorem sget_addBerms {part w : Nat} {l : List (Nat × Bool)} {core core' : IndexCore} (h : addBerms part core l = some core')
    (hw : (sget {} core.wps w).role = .data) : sget {} core'.wps w = sget {} core.wps w := by
  induction l generalizing core with
  | nil =>
    obtain rfl : core = core' := by simpa [addBerms] using h
    rfl
  | cons x r ih =>
    obtain ⟨wp, up⟩ := x
    rw [addBerms] at h
    cases hb : bermOn core part wp up with
    | none => simp [hb] at h
    | some o =>
      cases o with
      | none => exact ih (by simpa [hb] using h) hw
      | some b =>
        have hne : w ≠ b := fun he => role_of_bermOn hb (he ▸ hw)
        have hset : sget {} (sset {} core.wps b { role := .berm }) w = sget {} core.wps w := sget_sset_ne _ _ _ _ _ (by decide) hne
        have hrest := ih (core := { core with wps := sset {} core.wps b { role := .berm } }) (by simpa [hb] using h)
          (show (sget {} (sset {} core.wps b { role := .berm }) w).role = .data by rw [hset, hw])
        exact hrest.trans hset

/-- The new partition's wrap pairs are marked as its data (R402). -/
theorem sget_createWps {part w : Nat} {ws : List Nat} {core core' : IndexCore} (h : createWps part ws core = some core') (hw : w ∈ ws) :
    sget {} core'.wps w = { pnum := BitVec.ofNat 8 part, role := .data } := by
  unfold createWps at h
  split at h
  · simp at h
  · have hput : sget {} (ws.foldl (fun m k => sset {} m k { pnum := BitVec.ofNat 8 part, role := .data }) core.wps) w =
        ({ pnum := BitVec.ofNat 8 part, role := .data } : WpEntry) :=
      sget_foldl_sset (fun he => by simpa using congrArg WpEntry.role he) ws _ (.inl hw)
    exact (sget_addBerms h (congrArg WpEntry.role hput)).trans hput

/-- The entry of the new partition (R402). -/
def newEntry (s : State) (c : Cmd) : PartEntry :=
  { inUse := true, halfBand := csp c.e 0x3A 1 = 1, owner := (polderOf s (csp c.e 0x39 1)).tag,
    eodWrap := pairWrap ((wpmap c.e).headD 0) false }

/-- The device with the new partition in its index. -/
def created (s : State) (c : Cmd) (k : Cart) (core : IndexCore) : State :=
  newGen { s with cart := some { k with core := { core with parts := sset {} core.parts c.e.part.toNat (newEntry s c) } } }

section Create
variable {s : State} {h : Nat} {c : Cmd} {k : Cart} (hr : Ready s h 0x83 c) (hn : NoneAlike s c) (hload : notLoaded s c = false)
  (hro : readOnly s = false)
include hr hn hload hro

theorem partitionCreate_of_inUse (huse : (partEntry s c.e.part.toNat).inUse = true) :
    partitionCreate h s = done h stPARTITION_EXISTS 0 s := by
  rw [partitionCreate, adminCmd_of_ready _ hr hn]
  simp only [hload, hro, huse, Bool.false_eq_true, if_true, if_false]

variable (hk : s.cart = some k) (huse : (partEntry s c.e.part.toNat).inUse = false) (hws : wpmap c.e ≠ [])
include hk huse hws

theorem partitionCreate_of_unavailable (hnone : createWps c.e.part.toNat (wpmap c.e) k.core = none) :
    partitionCreate h s = done h stWRAP_UNAVAILABLE 0 s := by
  rw [partitionCreate, adminCmd_of_ready _ hr hn]
  simp only [hload, hro, huse, hws, hk, hnone, Bool.false_eq_true, if_false]

theorem partitionCreate_of_available {core : IndexCore} (hsome : createWps c.e.part.toNat (wpmap c.e) k.core = some core) :
    partitionCreate h s = done h stSUCCESS (((created s c k core).cart.map (·.core.gen.toNat)).getD 0) (created s c k core) := by
  rw [partitionCreate, adminCmd_of_ready _ hr hn]
  simp only [hload, hro, huse, hws, hk, hsome, Bool.false_eq_true, if_false]
  rfl

end Create

theorem partEntry_created (s : State) (c : Cmd) (k : Cart) (core : IndexCore) :
    partEntry (created s c k core) c.e.part.toNat = newEntry s c :=
  (partEntry_newGen ..).trans (sget_sset_eq _ _ _ _ (fun he => by simpa [newEntry] using congrArg PartEntry.inUse he))

theorem exec_partitionCreate (h : Nat) (s : State) : exec (.partitionCreate h) s = .next (partitionCreate h s) := rfl

/-- Settles O14: PARTITION_CREATE fails, or makes the entry, and the pairs it marks stay data while berms are had (`sget_addBerms`). -/
theorem partitionCreateMakesTheEntry : Obligations.PartitionCreateMakesTheEntry := by
  simp only [Obligations.PartitionCreateMakesTheEntry, exec_partitionCreate, Host.Outcome.next.injEq]
  refine fun s h c k hr hn hload hro hk => ⟨partitionCreate_of_inUse hr hn hload hro, fun huse hws =>
    ⟨partitionCreate_of_unavailable hr hn hload hro hk huse hws, fun core hsome =>
      ⟨partitionCreate_of_available hr hn hload hro hk huse hws hsome, partEntry_created s c k core, fun w hw => ?_⟩⟩⟩
  rw [sget_createWps hsome hw]
  exact ⟨rfl, rfl⟩

/-! ### POLDER_CONFIG (R405) -/

/-- Polder 0 is never disabled (R405). -/
theorem polderBad_of_disable_zero (s : State) (maxq : Nat) (tag : BitVec 64) : polderBad s 0 maxq false tag = true := by
  simp [polderBad]

/-- What an enabling makes of the polder (R405). -/
def configured (s : State) (c : Cmd) : PolderSt :=
  { polderOf s (csp c.e 0x20 1) with enabled := true, attach := BitVec.ofNat 2 (csp c.e 0x22 1), maxq := csp c.e 0x23 1,
                                     tag := BitVec.ofNat 64 (csp c.e 0x28 8) }

section Config
variable {s : State} {h : Nat} {c : Cmd} (hr : Ready s h 0x85 c) (hn : NoneAlike s c)
include hr hn

theorem polderConfig_of_enable (hon : csp c.e 0x21 1 = 1)
    (hok : polderBad s (csp c.e 0x20 1) (csp c.e 0x23 1) true (BitVec.ofNat 64 (csp c.e 0x28 8)) = false)
    (hfit : sharesFit s (csp c.e 0x20 1) (csp c.e 0x24 2) (csp c.e 0x26 2) = true) :
    polderConfig h s = done h stSUCCESS 0
      (rset (setQuota (csp c.e 0x20 1) (csp c.e 0x24 2) (setPolder (csp c.e 0x20 1) (configured s c) s)) pgBPM
        (0x200 + 4 * csp c.e 0x20 1) (BitVec.ofNat 32 (csp c.e 0x26 2))) := by
  rw [polderConfig, adminCmd_of_ready _ hr hn]
  simp only [hon, decide_true, hok, hfit, Bool.not_true, Bool.false_eq_true, if_true, if_false]
  rfl

theorem polderConfig_of_no_share
    (hok : polderBad s (csp c.e 0x20 1) (csp c.e 0x23 1) (decide (csp c.e 0x21 1 = 1)) (BitVec.ofNat 64 (csp c.e 0x28 8)) = false)
    (hfit : sharesFit s (csp c.e 0x20 1) (csp c.e 0x24 2) (csp c.e 0x26 2) = false) :
    polderConfig h s = done h stQUOTA_EXCEEDED 0 s := by
  rw [polderConfig, adminCmd_of_ready _ hr hn]
  simp only [hok, hfit, Bool.not_false, Bool.false_eq_true, if_true, if_false]

theorem polderConfig_of_disable_zero (hoff : decide (csp c.e 0x21 1 = 1) = false) (hp : csp c.e 0x20 1 = 0) :
    polderConfig h s = done h stINVALID_FIELD 0 s := by
  have hbad := polderBad_of_disable_zero s (csp c.e 0x23 1) (BitVec.ofNat 64 (csp c.e 0x28 8))
  rw [← hp, ← hoff] at hbad
  rw [polderConfig, adminCmd_of_ready _ hr hn]
  exact if_pos hbad

end Config

theorem exec_polderConfig (h : Nat) (s : State) : exec (.polderConfig h) s = .next (polderConfig h s) := rfl

/-- Settles O15: POLDER_CONFIG writes all its values or, where a rule refuses them, none. -/
theorem polderConfigWritesTheShares : Obligations.PolderConfigWritesTheShares := by
  simp only [Obligations.PolderConfigWritesTheShares, exec_polderConfig, Host.Outcome.next.injEq]
  exact fun s h c hr hn => ⟨fun hon => polderConfig_of_enable hr hn (of_decide_eq_true hon), polderConfig_of_no_share hr hn,
    polderConfig_of_disable_zero hr hn⟩

/-! ### Firmware, schedules, logs and time (R301, R390, R417, R420, R520, R575) -/

theorem commitFw_of_none {b : Bool} {s : State} (h : slotFw s b = none) : commitFw b s = none := by
  rw [commitFw, h, Option.map_none]

/-- A commit makes the image's SVN the least (R575). -/
theorem svnMin_of_commitFw {b : Bool} {s u : State} {img : FwImage} (h : commitFw b s = some (img, u)) : u.vlt.svnMin = img.svn := by
  obtain ⟨x, -, hx⟩ := Option.map_eq_some_iff.mp h
  cases hx
  rfl

/-- The error log's page (R420). -/
def errlogPage (s : State) (c : Cmd) : List Byte := ((sget [] s.host.errlog c.polder.val).map (·.bytes)).flatten

section Firmware
variable {s : State} {h : Nat} {c : Cmd} (hn : NoneAlike s c)
include hn

theorem fwDownload_of_room {image : List Byte} {a n : Nat} (hr : Ready s h 0x86 c) (hslot : idleSlot s = some (a, n))
    (hroom : csp c.e 0x20 4 + bufLen c.e c.sgl ≤ n) :
    fwDownload h image s = done h stSUCCESS 0
      { s with mem.flash := writeBytes 0xFF s.mem.flash (a + csp c.e 0x20 4) (image.take (bufLen c.e c.sgl)) } := by
  rw [fwDownload, adminCmd_of_ready _ hr hn]
  simp only [hslot, if_neg (Nat.not_lt.mpr hroom)]

theorem fwActivate_of_bad_image (hr : Ready s h 0x87 c) (hpf : s.top.pf = false) (hbad : slotFw s (!s.top.committed) = none) :
    fwActivate h s = done h stIMAGE_INVALID 0 s := by
  rw [fwActivate, adminCmd_of_ready _ hr hn]
  simp only [hpf, commitFw_of_none hbad, Bool.false_eq_true, if_false]

theorem fwActivate_of_commit {img : FwImage} {u : State} (hr : Ready s h 0x87 c) (hpf : s.top.pf = false)
    (hcommit : commitFw (!s.top.committed) s = some (img, u)) (hrec : u.top.recovery = false) (haction : csp c.e 0x20 1 = 0) :
    fwActivate h s = done h stSUCCESS u.top.fwVer.toNat u := by
  rw [fwActivate, adminCmd_of_ready _ hr hn]
  simp only [hpf, hcommit, hrec, haction, Bool.false_eq_true, if_true, if_false]

theorem schedSelect_of_sram (hr : Ready s h 0x88 c) (hsram : csp c.e 0x20 1 = 1) (halign : csp c.e 0x24 4 % 64 = 0) :
    schedSelect h s = startLoad true true (csp c.e 0x24 4)
      { rset (rset (rset (startCmd h s) pgSCH 0x004 (rget s pgSCH 0x004 ||| 1)) pgSCH 0x100 1) pgSCH 0x104
          (BitVec.ofNat 32 (csp c.e 0x24 4)) with lat.sched.cmd := some h } := by
  rw [schedSelect, adminCmd_of_ready _ hr hn]
  simp only [hsram, halign, decide_true, if_true, ne_eq, not_true_eq_false, if_false]
  rfl

/-- GET_LOG of the error log delivers from OFFSET on what the buffer takes. -/
theorem getLog_of_errlog (hr : Ready s h 0x89 c) (hid : csp c.e 0x20 1 = 1)
    (hsome : ((errlogPage s c).drop (csp c.e 0x24 4)).take (bufLen c.e c.sgl) ≠ [] ∨ (errlogPage s c).length ≤ csp c.e 0x24 4) :
    getLog h s = done h stSUCCESS
      ((((errlogPage s c).drop (csp c.e 0x24 4)).take (bufLen c.e c.sgl)).length + (errlogPage s c).length * 2 ^ 32)
      (deliverAt c (bufPieces c.e c.sgl) 0 (((errlogPage s c).drop (csp c.e 0x24 4)).take (bufLen c.e c.sgl)) s) := by
  have hgo : ¬ (((errlogPage s c).drop (csp c.e 0x24 4)).take (bufLen c.e c.sgl) = [] ∧ (errlogPage s c).drop (csp c.e 0x24 4) ≠ []) :=
    fun ⟨hnil, hrest⟩ => hsome.elim (· hnil) (fun hlen => hrest (List.drop_eq_nil_of_le hlen))
  rw [errlogPage] at hgo ⊢
  rw [getLog, adminCmd_of_ready _ hr hn]
  simp only [hid, lspOk, logPage, Bool.not_true, Bool.false_eq_true, if_false, if_neg hgo]

theorem setTime_of_ready (hr : Ready s h 0x8A c) : setTime h s = startCmd h s := by
  rw [setTime, adminCmd_of_ready _ hr hn]

end Firmware

theorem exec_fwDownload (h : Nat) (image : List Byte) (s : State) : exec (.fwDownload h image) s = .next (fwDownload h image s) := rfl
theorem exec_fwActivate (h : Nat) (s : State) : exec (.fwActivate h) s = .next (fwActivate h s) := rfl
theorem exec_schedSelect (h : Nat) (s : State) : exec (.schedSelect h) s = .next (schedSelect h s) := rfl
theorem exec_getLog (h : Nat) (s : State) : exec (.getLog h) s = .next (getLog h s) := rfl
theorem exec_setTime (h : Nat) (s : State) : exec (.setTime h) s = .next (setTime h s) := rfl

/-- Settles O16: each of the five commands by what it makes of the state that the statement names. -/
theorem imagesLogsAndTime : Obligations.ImagesLogsAndTime := by
  simp only [Obligations.ImagesLogsAndTime, exec_fwDownload, exec_fwActivate, exec_schedSelect, exec_getLog, exec_setTime,
    Host.Outcome.next.injEq]
  exact ⟨fun s h c hn => ⟨fun image a n => fwDownload_of_room hn,
      fun hr hpf => ⟨fwActivate_of_bad_image hn hr hpf, fun img u hcommit hrec haction =>
        ⟨fwActivate_of_commit hn hr hpf hcommit hrec haction, svnMin_of_commitFw hcommit⟩⟩, schedSelect_of_sram hn⟩,
    fun s h c hn => ⟨getLog_of_errlog hn, setTime_of_ready hn⟩⟩

end Sys2Proof.Machine
end

section
/-! SUPPORT. What the doorbells and the operations on queue pairs make of a pair and its commands, and the statements on them (O17, O18). -/

namespace Sys2Proof.Machine

theorem getPair_setPair_self {p : QPair} (h : p ≠ {}) (f : Fin 64) (q : Fin 16) (s : State) : getPair (setPair f q p s) f q = p :=
  sget_sset_eq _ _ _ _ h

@[simp] theorem getPair_raise (p b : Nat) (s : State) (f : Fin 64) (q : Fin 16) : getPair (raise p b s) f q = getPair s f q := by
  simp only [getPair, raise_host]

theorem ne_absent_of_halted {p : QPair} (h : p.halted = true) : p ≠ {} := fun hp => by simp [hp] at h

theorem ne_absent_of_deleting {p : QPair} (h : p.deleting = true) : p ≠ {} := fun hp => by simp [hp] at h

/-! ### Bits of a packed word -/

theorem packBits_lt (n : Nat) (f : Nat → Bool) : packBits n f < 2 ^ n := by
  induction n with
  | zero => simp [packBits]
  | succ n ih =>
    have hb : b2n (f n) ≤ 1 := by cases f n <;> simp [b2n]
    have hm : 2 ^ n * b2n (f n) ≤ 2 ^ n * 1 := Nat.mul_le_mul_left _ hb
    rw [packBits, Nat.pow_succ]
    omega

theorem testBit_packBits {n k : Nat} (f : Nat → Bool) (hk : k < n) : (packBits n f).testBit k = f k := by
  induction n with
  | zero => omega
  | succ n ih =>
    have hlt := packBits_lt n f
    rw [packBits, Nat.add_comm]
    rcases Nat.lt_succ_iff_lt_or_eq.1 hk with hk | rfl
    · rw [Nat.testBit_two_pow_mul_add _ hlt, if_pos hk, ih hk]
    · rw [Nat.testBit_two_pow_mul_add _ hlt, if_neg (Nat.lt_irrefl _), Nat.sub_self]
      cases f k <;> rfl

/-! ### Doorbells (R379, R380, R448) -/

section Doorbells
variable {s : State} {f : Fin 64} {q : Fin 16}

theorem halted_dbInvalid : (getPair (dbInvalid f q s) f q).halted = true := by
  rw [dbInvalid, getPair_raise]
  exact congrArg QPair.halted (getPair_setPair_self (p := { getPair s f q with halted := true }) (ne_absent_of_halted rfl) f q s)

theorem evPending_dbInvalid : evPending (dbInvalid f q s) (pgQMG f.val) 2 = true := evPending_raise_self _ 2 (by decide) _

/-- A halted pair fetches nothing and posts nothing more (R380). -/
theorem pairReady_of_halted (h : (getPair s f q).halted = true) : pairReady s f q = false := by
  simp [pairReady, h]

theorem postPcie_of_halted (h : (getPair s f q).halted = true) (c : Cmd) (st : BitVec 16) (res : BitVec 64) :
    postPcie f q c st res s = s := by
  rw [postPcie, if_pos (by simp [h])]

/-- QERR shows the pair's halt. -/
theorem qmgView_qerr (s : State) (f : Fin 64) (q : Fin 16) :
    ∃ w, qmgView s f.val 0x60C = some w ∧ w.testBit q.val = (getPair s f q).halted := by
  refine ⟨_, rfl, (testBit_packBits _ q.isLt).trans ?_⟩
  dsimp only
  rw [Fin.ofNat_val_eq_self, Fin.ofNat_val_eq_self]

variable (hguard : sget none s.rf.guard (pgQMG f.val) = none) (hp : (getPair s f q).present = true) (hh : (getPair s f q).halted = false)
include hguard hp hh

theorem sqTailDoorbell_of_running (v : Word) : sqTailDoorbell f q v none s =
    if bits v 11 0 < (getPair s f q).sqN then setPair f q { getPair s f q with sqTail := bits v 11 0 } s else dbInvalid f q s := by
  simp only [sqTailDoorbell, drainStores, touchPage_none hguard, hp, hh, Bool.not_true, Bool.false_eq_true, or_self, if_false, ← Nat.not_lt,
    ite_not]

theorem cqHeadDoorbell_of_running (v : Word) : cqHeadDoorbell f q v s =
    if bits v 11 0 < (getPair s f q).cqN ∧
        (bits v 11 0 + (getPair s f q).cqN - (getPair s f q).cqHead) % (getPair s f q).cqN ≤ cqHeld (getPair s f q)
      then setPair f q { getPair s f q with cqHead := bits v 11 0 } s else dbInvalid f q s := by
  have hbad : ∀ n held k m : Nat, n ≤ k ∨ held < m ↔ ¬ (k < n ∧ m ≤ held) := fun n held k m => by
    rw [not_and_or, Nat.not_lt, Nat.not_le]
  simp only [cqHeadDoorbell, touchPage_none hguard, hp, hh, Bool.not_true, Bool.false_eq_true, or_self, if_false, hbad, ite_not]

end Doorbells

theorem exec_sqTailDoorbell (f : Fin 64) (q : Fin 16) (v : Word) (core : Option CoreWrite) (s : State) :
    exec (.sqTailDoorbell f q v core) s = .next (sqTailDoorbell f q v core s) := rfl
theorem exec_cqHeadDoorbell (f : Fin 64) (q : Fin 16) (v : Word) (s : State) :
    exec (.cqHeadDoorbell f q v) s = .next (cqHeadDoorbell f q v s) := rfl

/-- Settles O17: a doorbell moves its pointer or is invalid, and what a halted pair does not do is read off `pairReady` and `postPcie`. -/
theorem doorbellsMoveOrHalt : Obligations.DoorbellsMoveOrHalt := by
  simp only [Obligations.DoorbellsMoveOrHalt, exec_sqTailDoorbell, exec_cqHeadDoorbell, Host.Outcome.next.injEq]
  exact fun s f q => ⟨fun v hguard hp hh => ⟨sqTailDoorbell_of_running hguard hp hh v, cqHeadDoorbell_of_running hguard hp hh v,
      halted_dbInvalid, evPending_dbInvalid⟩, qmgView_qerr s f q, fun h => ⟨pairReady_of_halted h, postPcie_of_halted h⟩, fun v w => rfl⟩

/-! ### Creating a pair (R376, R377) -/

theorem createCode_range {s : State} {f : Fin 64} {q : Fin 16} {x : QPair} {code : Nat} (h : createCode s f q x = some code) :
    1 ≤ code ∧ code ≤ 7 := by
  unfold createCode at h
  split_ifs at h
  all_goals cases h
  all_goals decide

section Create
variable {s : State} {f : Fin 64} (q : Fin 16) (hguard : sget none s.rf.guard (pgQMG f.val) = none)
include hguard

theorem queueCreate_of_busy (hbusy : rbit s (pgQMG f.val) 0x604 4 = true) :
    queueCreate f q s = raise (pgQMG f.val) 1 (qres f (rfld s (pgQMG f.val) 0x604 3 0) true 0x08 s) := by
  simp only [queueCreate, touchPage_none hguard, hbusy, if_true, qopReject]

variable {q} (hidle : rbit s (pgQMG f.val) 0x604 4 = false)
include hidle

theorem queueCreate_of_accepted (h : createCode s f q (stagedPair s f) = none) :
    queueCreate f q s = raise (pgQMG f.val) 0 (qres f q.val false 0 (setPair f q (stagedPair s f) s)) := by
  simp only [queueCreate, touchPage_none hguard, hidle, h, Bool.false_eq_true, if_false]

theorem queueCreate_of_refused {code : Nat} (h : createCode s f q (stagedPair s f) = some code) :
    queueCreate f q s = raise (pgQMG f.val) 1 (qres f q.val false code s) := by
  simp only [queueCreate, touchPage_none hguard, hidle, h, Bool.false_eq_true, if_false, qopReject]

end Create

/-! ### Deleting a pair (R378) -/

/-- Metering commands that leave changes the meters alone (R514). -/
theorem meterCmds_meters (before : List Cmd) (s : State) : ∃ m, meterCmds before s = { s with vlt.meters := m } := by
  unfold meterCmds
  generalize before.filter (fun c => !s.host.cmds.any (·.handle = c.handle)) = l
  induction l generalizing s with
  | nil => exact ⟨s.vlt.meters, rfl⟩
  | cons c r ih =>
    obtain ⟨m, hm⟩ : ∃ m, meter c.polder.val (fun m => { m with cmds := m.cmds + 1 }) s = { s with vlt.meters := m } := by
      unfold meter
      split <;> exact ⟨_, rfl⟩
    obtain ⟨m', hm'⟩ := ih (meter c.polder.val (fun m => { m with cmds := m.cmds + 1 }) s)
    exact ⟨m', hm'.trans (by rw [hm])⟩

@[simp] theorem meterCmds_host (before : List Cmd) (s : State) : (meterCmds before s).host = s.host := by
  obtain ⟨_, h⟩ := meterCmds_meters before s
  rw [h]

/-- The unstarted commands of a pair, which its deletion ends. -/
def unstartedOf (src : Src) (c : Cmd) : Bool := c.src = src ∧ !c.started ∧ c.fin.isNone

theorem unstartedOf_eq_false {src : Src} {c : Cmd} : unstartedOf src c = false ↔ c.src ≠ src ∨ c.started = true ∨ c.fin ≠ none := by
  unfold unstartedOf
  cases c.started <;> cases c.fin <;> simp

/-- A queue with nothing open leaves the intake queues as they stand. -/
theorem releaseQueue_of_unopened {src : Src} (pol : Nat) {s : State} (h : ∀ o ∈ s.host.opens, o.src ≠ src) : releaseQueue src pol s = s := by
  have hwrites : s.host.opens.any (fun o => o.src = src ∧ o.writer) = false := by
    rw [List.any_eq_false]
    intro o ho hw
    exact h o ho (of_decide_eq_true hw).1
  have hopens : s.host.opens.filter (fun o => o.src ≠ src) = s.host.opens := List.filter_eq_self.2 (by simpa using h)
  simp only [releaseQueue, hwrites, Bool.false_eq_true, if_false, hopens]

section Delete
variable {s : State} {f : Fin 64} {q : Fin 16} (hguard : sget none s.rf.guard (pgQMG f.val) = none)
  (hidle : rbit s (pgQMG f.val) 0x604 4 = false) (hp : (getPair s f q).present = true)
include hguard hidle hp

/-- Where the pair has nothing open, its deletion stops it and ends its unstarted commands. -/
theorem queueDelete_host (hopens : ∀ o ∈ s.host.opens, o.src ≠ .pcie f q) : (queueDelete f q s).host =
    (endSilently (unstartedOf (.pcie f q)) (setPair f q { getPair s f q with deleting := true } s)).host := by
  have hrelease : ∀ u : State, u.host.opens = s.host.opens → releaseQueue (.pcie f q) f.val u = u :=
    fun u hu => releaseQueue_of_unopened _ (hu ▸ hopens)
  simp only [queueDelete, touchPage_none hguard, hidle, hp, Bool.not_true, Bool.false_eq_true, if_false, metered, meterCmds_host]
  rw [hrelease _ (by rw [meterCmds_host]; rfl), meterCmds_host]
  rfl

theorem queueDelete_effect (hopens : ∀ o ∈ s.host.opens, o.src ≠ .pcie f q) :
    (getPair (queueDelete f q s) f q).deleting = true ∧ pairReady (queueDelete f q s) f q = false ∧
      ∀ c, c ∈ (queueDelete f q s).host.cmds ↔ c ∈ s.host.cmds ∧ (c.src ≠ .pcie f q ∨ c.started = true ∨ c.fin ≠ none) := by
  have hhost := queueDelete_host hguard hidle hp hopens
  have hdel : (getPair (queueDelete f q s) f q).deleting = true := by
    rw [getPair, hhost]
    exact congrArg QPair.deleting
      (getPair_setPair_self (p := { getPair s f q with deleting := true }) (ne_absent_of_deleting rfl) f q s)
  refine ⟨hdel, by simp [pairReady, hdel], fun c => ?_⟩
  rw [hhost, ← unstartedOf_eq_false]
  simp [endSilently, List.mem_filter]

end Delete

theorem qopDone_of_drained {s : State} {f : Fin 64} {q : Fin 16} (hdel : (getPair s f q).deleting = true)
    (hnone : ∀ c ∈ s.host.cmds, c.src ≠ .pcie f q) :
    qopDone f q s = raise (pgQMG f.val) 0 (qres f q.val false 0 (setPair f q {} s)) := by
  have hany : s.host.cmds.any (fun c => c.src = .pcie f q) = false := by simpa using hnone
  rw [qopDone, if_pos (by simp [hdel, hany])]

theorem exec_queueCreate (f : Fin 64) (q : Fin 16) (s : State) : exec (.queueCreate f q) s = .next (queueCreate f q s) := rfl
theorem exec_queueDelete (f : Fin 64) (q : Fin 16) (s : State) : exec (.queueDelete f q) s = .next (queueDelete f q s) := rfl
theorem exec_qopDone (f : Fin 64) (q : Fin 16) (s : State) : exec (.qopDone f q) s = .next (qopDone f q s) := rfl

/-- Settles O18: a creation by its code, a deletion by the pair and the commands it leaves, and its end. -/
theorem queuePairsAreMadeAndEnded : Obligations.QueuePairsAreMadeAndEnded := by
  simp only [Obligations.QueuePairsAreMadeAndEnded, exec_queueCreate, exec_queueDelete, exec_qopDone, Host.Outcome.next.injEq,
    exists_eq_left']
  refine fun s f q hguard => ⟨queueCreate_of_busy q hguard, fun hidle => ⟨queueCreate_of_accepted hguard hidle,
    fun code h => ⟨(createCode_range h).1, (createCode_range h).2, queueCreate_of_refused hguard hidle h⟩⟩,
    fun hidle hp hopens => ?_, qopDone_of_drained⟩
  obtain ⟨hdel, hready, hcmds⟩ := queueDelete_effect hguard hidle hp hopens
  exact ⟨hdel, hready, fun c hc hstays => (hcmds c).2 ⟨hc, hstays⟩, fun c hc => (hcmds c).1 hc⟩

end Sys2Proof.Machine
end

section
/-! SUPPORT. What ending commands, halting channels and freeing slots leave of the host side: commands, pairs, openings and window registers
only go, and no event is lost. -/

namespace Sys2Proof.Machine

/-! ### The relation -/

/-- The key of a register of a host window (R440). -/
def windowReg (key : Nat) : Prop := ∃ f : Fin 64, key / 4096 = pgWIN f.val ∧ 0xE00 ≤ key % 4096

theorem not_windowReg_of_low {off : Nat} (h : off < 0xE00) (page : Nat) : ¬ windowReg (rkey page off) := by
  rintro ⟨f, -, hoff⟩
  simp only [rkey] at hoff
  omega

/-- What the parts of the host side may become while commands end and functions are reset: commands, pairs, openings and window registers
only go, the openings of queues that `keep` picks stand, no event is lost, and the link, the pins and the time-slot table are the same. -/
structure DwindlesIn (keep : Src → Prop) (s : State) (rs : Sparse Word) (evs : Sparse EvPage) (cs : List Cmd) (prs : Sparse QPair)
    (ops : List Opening) (up : Bool) (pn : Pins) (tst : TimeSlots) : Prop where
  cmds : ∀ c ∈ cs, ∃ d ∈ s.host.cmds, d.src = c.src
  pairs : ∀ x ∈ prs, ∃ y ∈ s.host.pairs, y.1 = x.1
  opens : ∀ o ∈ ops, o ∈ s.host.opens
  kept : ∀ o ∈ s.host.opens, keep o.src → o ∈ ops
  windows : ∀ x ∈ rs, windowReg x.1 → ∃ y ∈ s.rf.regs, y.1 = x.1
  events : ∀ page b, evPending s page b = true → (sget {} evs page).pend.getLsbD b = true
  linkUp : up = s.host.linkUp
  pins : pn = s.pins
  ts : tst = s.ts

/-- The host side dwindles from one state to another. It is said of those parts alone, so that after an update of any other part it is the
same statement. -/
def Dwindles (keep : Src → Prop) (s t : State) : Prop :=
  DwindlesIn keep s t.rf.regs t.rf.ev t.host.cmds t.host.pairs t.host.opens t.host.linkUp t.pins t.ts

/-- A pair that is there is listed. -/
theorem pairKey_listed {s : State} {f : Fin 64} {q : Fin 16} (h : getPair s f q ≠ {}) : ∃ y ∈ s.host.pairs, y.1 = pairKey f q :=
  ⟨_, (sget_mem ({} : QPair) s.host.pairs (pairKey f q)).resolve_left h, rfl⟩

/-- The quota that a retirement cuts is a polder's (R359). -/
theorem cutChoice_lt {s : State} {p : Nat} (h : cutChoice s = some p) : p < 64 := by
  have hpick : ∀ (f : Nat → Nat) (l : List Nat) (b : Option Nat), (∀ q, b = some q → q < 64) → (∀ q ∈ l, q < 64) →
      ∀ q, l.foldl (fun (b : Option Nat) p => match b with
        | none => if 0 < f p then some p else none
        | some q => if f q < f p then some p else some q) b = some q → q < 64 := by
    intro f l
    induction l with
    | nil => exact fun b hb _ q hq => hb q hq
    | cons a r ih =>
      refine fun b hb hl => ih _ (fun q hq => ?_) (fun q hq => hl q (List.mem_cons_of_mem _ hq))
      have ha := hl a List.mem_cons_self
      dsimp only at hq
      split at hq
      · split at hq
        · exact Option.some.inj hq ▸ ha
        · cases hq
      · split at hq
        · exact Option.some.inj hq ▸ ha
        · exact hb _ hq
  have hrange : ∀ q ∈ List.range 64, q < 64 := fun q => List.mem_range.1
  unfold cutChoice at h
  extract_lets best at h
  split at h
  · next q hq =>
    exact Option.some.inj h ▸ hpick _ _ none (fun _ hb => by cases hb) hrange q hq
  · exact hpick _ _ none (fun _ hb => by cases hb) hrange p h

namespace Dwindles

theorem refl (keep : Src → Prop) (s : State) : Dwindles keep s s :=
  ⟨fun c hc => ⟨c, hc, rfl⟩, fun x hx => ⟨x, hx, rfl⟩, fun _ ho => ho, fun _ ho _ => ho, fun x hx _ => ⟨x, hx, rfl⟩, fun _ _ h => h,
    rfl, rfl, rfl⟩

section Steps
variable {keep : Src → Prop} {s₀ s t : State} (h : Dwindles keep s₀ s)
include h

theorem ite {c : Prop} [Decidable c] (h' : Dwindles keep s₀ t) : Dwindles keep s₀ (if c then s else t) := by split <;> assumption

theorem foldl {α : Type} {f : State → α → State} (hf : ∀ u a, Dwindles keep s₀ u → Dwindles keep s₀ (f u a)) (l : List α) :
    Dwindles keep s₀ (l.foldl f s) := by
  induction l generalizing s with
  | nil => exact h
  | cons a r ih => exact ih (hf s a h)

theorem foldNat {α : Type} {f : State → α → State} (hf : ∀ u a, Dwindles keep s₀ u → Dwindles keep s₀ (f u a)) (l : List α) :
    Dwindles keep s₀ (foldNat f s l) := by
  induction l generalizing s with
  | nil => exact h
  | cons a r ih => exact ih (hf s a h)

/-! ### Registers, events, pairs and commands -/

theorem rset {off : Nat} (hoff : off < 0xE00) (page : Nat) (v : Word) : Dwindles keep s₀ (rset s page off v) :=
  { h with
    windows := fun x hx hw => by
      rcases mem_sset hx with hx | rfl
      · exact h.windows x hx hw
      · exact absurd hw (not_windowReg_of_low hoff page) }

theorem bump (page off n : Nat) : Dwindles keep s₀ (bump page off n s) := h

theorem raise {b : Nat} (hb : b < 16) (page : Nat) : Dwindles keep s₀ (raise page b s) := by
  have hev : ∀ q c, evPending s₀ q c = true → evPending (Machine.raise page b s) q c = true :=
    fun q c hc => evPending_raise_keep page b q c hb s (h.events q c hc)
  obtain ⟨rf, out, hr⟩ := raise_frame page b s
  have hregs : rf.regs = s.rf.regs := by simpa only [hr] using raise_regs page b s
  rw [hr] at hev ⊢
  exact { h with windows := fun x hx => h.windows x (hregs ▸ hx), events := hev }

/-- Another state of a pair that is there. -/
theorem setPair {f : Fin 64} {q : Fin 16} (hp : getPair s f q ≠ {}) (p : QPair) : Dwindles keep s₀ (setPair f q p s) :=
  { h with
    pairs := fun x hx => by
      rcases mem_sset hx with hx | rfl
      · exact h.pairs x hx
      · obtain ⟨y, hy, hkey⟩ := pairKey_listed hp
        obtain ⟨z, hz, hzy⟩ := h.pairs y hy
        exact ⟨z, hz, hzy.trans hkey⟩ }

theorem filterCmds (p : Cmd → Bool) : Dwindles keep s₀ { s with host.cmds := s.host.cmds.filter p } :=
  { h with cmds := fun c hc => h.cmds c (List.mem_of_mem_filter hc) }

/-- Commands change in all but their queues. -/
theorem mapCmds {f : Cmd → Cmd} (hf : ∀ c, (f c).src = c.src) : Dwindles keep s₀ { s with host.cmds := s.host.cmds.map f } :=
  { h with
    cmds := fun c hc => by
      obtain ⟨d, hd, rfl⟩ := List.mem_map.1 hc
      rw [hf]
      exact h.cmds d hd }

/-- The openings of the queues that `pick` takes end. -/
theorem filterOpens {pick : Src → Bool} (hpick : ∀ x, keep x → pick x = false) :
    Dwindles keep s₀ { s with host.opens := s.host.opens.filter (fun o => !pick o.src) } :=
  { h with
    opens := fun o ho => h.opens o (List.mem_of_mem_filter ho)
    kept := fun o ho hk => List.mem_filter.2 ⟨h.kept o ho hk, by simp [hpick _ hk]⟩ }

theorem filterPairs (p : Nat × QPair → Bool) : Dwindles keep s₀ { s with host.pairs := s.host.pairs.filter p } :=
  { h with pairs := fun x hx => h.pairs x (List.mem_of_mem_filter hx) }

theorem closeWindows (f : Nat) : Dwindles keep s₀ (closeWindows f s) :=
  { h with windows := fun x hx => h.windows x (List.mem_of_mem_filter hx) }

/-! ### Completions -/

theorem signalPair (f : Fin 64) (q : Fin 16) : Dwindles keep s₀ (signalPair f q s) := by
  unfold Machine.signalPair
  dsimp only
  split
  · next hgo =>
    exact setPair h (f := f) (q := q) (fun hp => by simp [hp] at hgo) _
  · exact h

theorem winRefused (f a : Nat) (wr : Bool) (kind chan : Nat) : Dwindles keep s₀ (winRefused f a wr kind chan s) := by
  unfold Machine.winRefused
  have hlow := rset (off := 0x600) h (by decide) (pgWIN f) (BitVec.ofNat 32 a)
  have hhigh := rset (off := 0x604) hlow (by decide) (pgWIN f) (BitVec.ofNat 32 (a / 2 ^ 32))
  have hdir := rset (off := 0x608) hhigh (by decide) (pgWIN f) (BitVec.ofNat 32 (b2n wr + 2 * kind + 16 * chan))
  exact hdir.bump ..

theorem postPcie (f : Fin 64) (q : Fin 16) (c : Cmd) (st : BitVec 16) (res : BitVec 64) : Dwindles keep s₀ (postPcie f q c st res s) := by
  unfold Machine.postPcie
  dsimp only
  split
  · exact h
  · next hgo =>
    have hp : getPair s f q ≠ {} := fun hp => hgo (by simp [hp])
    split
    · exact ((h.winRefused ..).setPair hp _).raise (by decide) _
    · refine signalPair (ite ?_ ?_) f q
      · exact h.setPair hp _
      · exact h.setPair hp _

theorem txFrame (q : Fin 1024) (p : Packet) : Dwindles keep s₀ (txFrame q p s) := by
  unfold Machine.txFrame
  dsimp only
  split
  · exact h
  · split <;> exact h

theorem sendCapsule (q : Fin 1024) : Dwindles keep s₀ (sendCapsule q s) := by
  unfold Machine.sendCapsule
  dsimp only
  split
  · exact h
  · exact txFrame (s := setQp q _ s) h ..

theorem postNet (q : Fin 1024) (c : Cmd) (st : BitVec 16) (res : BitVec 64) : Dwindles keep s₀ (postNet q c st res s) := by
  unfold Machine.postNet netPost
  dsimp only
  split
  · exact h
  · exact ite (sendCapsule (s := setQp q _ s) h q) h

theorem drainCheck (src : Src) : Dwindles keep s₀ (drainCheck src s) := by
  unfold Machine.drainCheck
  dsimp only
  split
  · exact h
  · next q =>
    have hfree : Dwindles keep s₀ (setQp q {} { Machine.sendCapsule q s with net.qopBusy := false }) := h.sendCapsule q
    split
    · exact ite ((hfree.rset (by decide) ..).raise (by decide) _) h
    · exact h

theorem logError (c : Cmd) (st : BitVec 16) (res : BitVec 64) : Dwindles keep s₀ (logError s c st res) := by
  unfold Machine.logError
  dsimp only
  split <;> exact h

theorem postOne (c : Cmd) (st : BitVec 16) (res : BitVec 64) : Dwindles keep s₀ (postOne c st res s) := by
  have hdrop : Dwindles keep s₀ (dropCmd c.handle s) := h.filterCmds _
  unfold Machine.postOne
  dsimp only
  refine drainCheck (ite hdrop (logError ?_ c st res)) c.src
  split
  · exact hdrop.postPcie ..
  · exact hdrop.postNet ..

theorem postScan (l : List Cmd) (blk : List Src) : Dwindles keep s₀ (postScan l blk s) := by
  induction l generalizing blk s with
  | nil => exact h
  | cons c r ih =>
    unfold Machine.postScan
    split
    · exact ih h _
    · exact ite (ih (h.postOne ..) _) (ih h _)

theorem finishAll (p : Cmd → Bool) (st : BitVec 16) (res : BitVec 64) : Dwindles keep s₀ (finishAll p st res s) := by
  have hdec : Dwindles keep s₀
      { s with host.cmds := s.host.cmds.map fun c => if p c ∧ c.fin.isNone then { c with fin := some (st, res) } else c } :=
    h.mapCmds fun c => by split <;> rfl
  exact ite hdec (hdec.postScan ..)

omit h in
theorem metered {f : State → State} (hf : Dwindles keep s₀ (f s)) : Dwindles keep s₀ (metered f s) := by
  obtain ⟨m, hm⟩ := meterCmds_meters s.host.cmds (f s)
  rw [Machine.metered, hm]
  exact hf

/-! ### Buffers, slots and the flush of a queue (R329, R347) -/

theorem setRiq (p : Nat) (r : Riq) : Dwindles keep s₀ (setRiq p r s) := h

theorem freeBufs (l : List Nat) : Dwindles keep s₀ (freeBufs l s) := by
  obtain ⟨_, _, _, hb⟩ := freeBufs_pools l s
  rw [hb]
  exact h

theorem giveBack (k i : Nat) : Dwindles keep s₀ (giveBack k i s) := by
  obtain ⟨_, _, _, hb⟩ := giveBack_pools k i s
  rw [hb]
  exact h

theorem quotaCut : Dwindles keep s₀ (quotaCut s) := by
  unfold Machine.quotaCut
  split
  · exact h
  · split
    · exact h
    · next p hp =>
      have hlt := cutChoice_lt hp
      exact (h.rset (by omega) ..).raise (by decide) _

theorem setSlot (i : Nat) (x : Slot) : Dwindles keep s₀ (setSlot i x s) := h

theorem freeSlot (i : Nat) : Dwindles keep s₀ (freeSlot i s) := by
  have hretire : Dwindles keep s₀ (retireNow i s) :=
    quotaCut (raise (b := 1) ((h.setSlot i { st := .retired }).bump pgBSN 0xA08 1) (by decide) pgBSN)
  exact ite hretire (h.setSlot ..)

theorem freeSlots (p : Slot → Bool) : Dwindles keep s₀ (freeSlots p s) := h.foldNat (fun _ _ hu => hu.freeSlot _) _

theorem releaseRead (part : Nat) : Dwindles keep s₀ (releaseRead part s) := by
  unfold Machine.releaseRead
  dsimp only
  refine freeSlots (ite ?_ ?_) _
  · exact h
  · exact h

theorem closeFilling (part : Nat) : Dwindles keep s₀ (closeFilling part s) :=
  h.foldNat (fun u i hu => by
    unfold fillFull noteFull
    split
    · split <;> exact hu
    · exact hu) _

theorem setPart (p : Nat) (f : PartEntry → PartEntry) : Dwindles keep s₀ (setPart p f s) := by
  unfold Machine.setPart
  split <;> exact h

theorem truncatePart (part l : Nat) : Dwindles keep s₀ (truncatePart part l s) := by
  have hmarks : Dwindles keep s₀ (marksBelow s part l).2 := by
    unfold marksBelow
    split
    · exact h
    · split <;> exact h
  unfold Machine.truncatePart
  dsimp only
  refine closeFilling ?_ part
  split
  · exact hmarks.setPart ..
  · exact hmarks.setPart ..

theorem dropGroups (p : Nat) : Dwindles keep s₀ (dropGroups p s) := by
  unfold Machine.dropGroups freeFor
  exact freeBufs (by exact h) _

theorem rollback (p part l : Nat) : Dwindles keep s₀ (rollback p part l s) := by
  have hdrop := h.dropGroups p
  have hback : ∀ put, Dwindles keep s₀ (takeBack part put (Machine.dropGroups p s)).2 := fun put => by
    unfold takeBack
    split
    · split <;> exact hdrop
    · exact hdrop
  unfold Machine.rollback
  dsimp only
  refine setRiq ?_ p _
  exact ite ((hback _).truncatePart part l) (hback _)

theorem emptyRiq (p : Nat) (report : Bool) : Dwindles keep s₀ (emptyRiq p report s) := h.dropGroups p

theorem flushRiq (p : Nat) (report : Bool) (holds : Cmd → Bool) (st : BitVec 16) : Dwindles keep s₀ (flushRiq p report holds st s) := by
  have hbump : Dwindles keep s₀ (Machine.bump (pgRIQ p) 0xA24 1 s) := h
  unfold Machine.flushRiq
  dsimp only
  cases (riqOf (Machine.bump (pgRIQ p) 0xA24 1 s) p).part with
  | none =>
    have hempty := hbump.emptyRiq p report
    exact ite (hempty.raise (by decide) _) hempty
  | some q =>
    have hempty := (hbump.rollback p q.val (rollPoint (Machine.bump (pgRIQ p) 0xA24 1 s) p q.val)).emptyRiq p report
    exact ((ite (hempty.raise (by decide) _) hempty).finishAll ..).finishAll ..

theorem killRead (c : Nat) : Dwindles keep s₀ (killRead c s) := freeBufs (by exact h) _

theorem endSilently (p : Cmd → Bool) : Dwindles keep s₀ (endSilently p s) := h.filterCmds _

theorem tidyCmds : Dwindles keep s₀ (tidyCmds s) := by
  unfold Machine.tidyCmds
  dsimp only
  repeat' split
  all_goals exact h

/-! ### Channels, functions and the network -/

theorem setBuf (k i : Nat) (b : Buf) : Dwindles keep s₀ (setBuf k i b s) := h

theorem stagingWrite (a : Nat) (bs : List Byte) : Dwindles keep s₀ (stagingWrite a bs s) := by
  have hmem : Dwindles keep s₀ { s with mem.staging := writeBytes 0 s.mem.staging a bs } := h
  refine foldl (hmem.foldl (fun u pool hu => ?_) _) (fun u p hu => ite hu (hu.setRiq ..)) _
  exact hu.foldl (fun v j hv => ite (hv.setBuf ..) hv) _

theorem spaceWrite (sp : BitVec 3) (a : Nat) (bs : List Byte) : Dwindles keep s₀ (spaceWrite sp a bs s) := by
  unfold Machine.spaceWrite
  dsimp only
  split
  · exact stagingWrite (by exact h) ..
  all_goals exact h

theorem dmaHalt_reset (n addr : Nat) (sp : BitVec 3) (wr : Bool) : Dwindles keep s₀ (dmaHalt n 8 addr sp wr s) := by
  have hspoil : Dwindles keep s₀ (dmaSpoil n s) := by
    unfold dmaSpoil
    dsimp only
    split
    · exact h
    · exact h.spaceWrite ..
  have hevent : ∀ u, Dwindles keep s₀ u → Dwindles keep s₀ (dmaEvent n 3 u) := fun u hu => by
    have hraise := raise (b := 3) hu (by decide) (pgDMA n)
    unfold dmaEvent
    dsimp only
    split
    · exact hraise
    · exact hraise
  exact hevent _ (hspoil.bump ..)

theorem haltChannels (pick : Fin 64 → Bool) : Dwindles keep s₀ (haltChannels pick s) := by
  unfold Machine.haltChannels
  refine foldl h (fun u n hu => ?_) _
  dsimp only
  split
  · exact hu.dmaHalt_reset ..
  · exact hu

theorem endCmds (pick : Cmd → Bool) : Dwindles keep s₀ (endCmds pick s) := by
  have hsilent : Dwindles keep s₀ { s with host.cmds := s.host.cmds.map fun c => if pick c then { c with silent := true } else c } :=
    h.mapCmds fun c => by split <;> rfl
  unfold Machine.endCmds
  dsimp only
  refine tidyCmds (s := { Machine.metered (Machine.endSilently pick) _ with host.activate := _, host.fetchStop := _ }) ?_
  refine metered (endSilently ?_ pick)
  refine foldl (hsilent.foldNat (fun u p hu => metered (hu.flushRiq ..)) _) (fun u j hu => ?_) _
  split
  · exact ite (hu.killRead _) hu
  · exact hu

theorem endOpens {pick : Src → Bool} (hpick : ∀ x, keep x → pick x = false) : Dwindles keep s₀ (endOpens pick s) := by
  unfold Machine.endOpens
  dsimp only
  refine foldNat (filterOpens ?_ hpick) (fun u p hu => hu.releaseRead p) _
  exact h.foldl (fun u o hu => ite (hu.setRiq ..) hu) _

end Steps

end Dwindles

end Sys2Proof.Machine
end

section
/-! SUPPORT. What the resets of functions and of the controller clear, and the statement on them and on the link (O21). -/

namespace Sys2Proof.Machine

/-! ### What a reset of a function clears (R414, R440) -/

/-- The queue is one of a function's. -/
def fnSrc (f : Fin 64) (x : Src) : Bool := match x with | .pcie g _ => g = f | .net _ => false

/-- The queue is one of the network's. -/
def netSrc (x : Src) : Bool := match x with | .pcie _ _ => false | .net _ => true

theorem ofFn_eq (f : Fin 64) (c : Cmd) : ofFn f c = fnSrc f c.src := rfl
theorem ofNet_eq (c : Cmd) : ofNet c = netSrc c.src := rfl

theorem src_cases (x : Src) : (∃ f, fnSrc f x = true) ∨ netSrc x = true := by
  cases x with
  | pcie f q => exact .inl ⟨f, by simp [fnSrc]⟩
  | net q => exact .inr rfl

/-- Nothing of a function is left: no command, no queue pair, no opening, no window register. -/
structure FnGone (f : Fin 64) (s : State) : Prop where
  cmds : ∀ c ∈ s.host.cmds, fnSrc f c.src = false
  pairs : ∀ x ∈ s.host.pairs, x.1 / 16 ≠ f.val
  opens : ∀ o ∈ s.host.opens, fnSrc f o.src = false
  windows : ∀ x ∈ s.rf.regs, ¬ (x.1 / 4096 = pgWIN f.val ∧ 0xE00 ≤ x.1 % 4096)

theorem FnGone.dwindles {f : Fin 64} {keep : Src → Prop} {s t : State} (h : FnGone f s) (h' : Dwindles keep s t) : FnGone f t where
  cmds c hc := by
    obtain ⟨d, hd, hsrc⟩ := h'.cmds c hc
    exact hsrc ▸ h.cmds d hd
  pairs x hx := by
    obtain ⟨y, hy, hkey⟩ := h'.pairs x hx
    exact hkey ▸ h.pairs y hy
  opens o ho := h.opens o (h'.opens o ho)
  windows x hx hw := by
    obtain ⟨y, hy, hkey⟩ := h'.windows x hx ⟨f, hw⟩
    exact h.windows y hy (hkey ▸ hw)

theorem FnGone.getPair {f : Fin 64} {s : State} (h : FnGone f s) (q : Fin 16) : getPair s f q = {} := by
  refine (sget_mem ({} : QPair) s.host.pairs (pairKey f q)).resolve_right fun hmem => h.pairs _ hmem ?_
  have hq := q.isLt
  simp only [pairKey]
  omega

/-- The reset value of a window register is 0. -/
theorem regReset_window (f : Fin 64) {off : Nat} (hoff : off < 4096) : regReset (rkey (pgWIN f.val) off) = 0 := by
  have hf := f.isLt
  have hpage : rkey (pgWIN f.val) off / 4096 = 0x110 + f.val := by
    simp only [rkey, pgWIN]
    omega
  have hblock : ∀ f : Fin 64, pageBlock .ac (0x110 + f.val) = some (.win, f.val + 0x10) := by decide
  have hrows : ∀ r ∈ rowsOf .win, r.reset = 0 := by decide
  have hne : rkey (pgWIN f.val) off ≠ 0x608 := by
    simp only [rkey, pgWIN]
    omega
  simp only [regReset, if_neg hne, hpage, hblock f]
  cases hrow : rowAt .win (rkey (pgWIN f.val) off % 4096) with
  | none => rfl
  | some r => simp [hrows r (List.mem_of_find?_eq_some hrow)]

theorem FnGone.rget_window {f : Fin 64} {s : State} (h : FnGone f s) {off : Nat} (hlow : 0xE00 ≤ off) (hhigh : off < 4096) :
    rget s (pgWIN f.val) off = 0 := by
  have hunlisted : sget (regReset (rkey (pgWIN f.val) off)) s.rf.regs (rkey (pgWIN f.val) off) = regReset (rkey (pgWIN f.val) off) := by
    refine (sget_mem _ s.rf.regs (rkey (pgWIN f.val) off)).resolve_right fun hmem => h.windows _ hmem ?_
    simp only [rkey]
    omega
  rw [rget, hunlisted, regReset_window f hhigh]

/-! ### Ending commands and functions -/

theorem tidyCmds_cmds (s : State) : (tidyCmds s).host.cmds = s.host.cmds := by
  unfold tidyCmds
  dsimp only
  repeat' split
  all_goals rfl

/-- Of the commands that a reset picks none is left. -/
theorem endCmds_gone {pick : Cmd → Bool} {s : State} {c : Cmd} (hc : c ∈ (endCmds pick s).host.cmds) : pick c = false := by
  unfold endCmds at hc
  dsimp only at hc
  rw [tidyCmds_cmds] at hc
  simp only [metered, meterCmds_host, endSilently, List.mem_filter] at hc
  simpa using hc.2

theorem foldNat_releaseRead_host (l : List Nat) (s : State) : (foldNat (fun s p => releaseRead p s) s l).host = s.host := by
  induction l generalizing s with
  | nil => rfl
  | cons p r ih => rw [foldNat, ih, releaseRead_host]

/-- Nor of the openings. -/
theorem endOpens_gone {pick : Src → Bool} {s : State} {o : Opening} (ho : o ∈ (endOpens pick s).host.opens) : pick o.src = false := by
  unfold endOpens at ho
  dsimp only at ho
  rw [foldNat_releaseRead_host] at ho
  simpa using (List.mem_filter.1 ho).2

section Steps
variable {keep : Src → Prop} {s₀ s : State} (h : Dwindles keep s₀ s)
include h

theorem Dwindles.setPolder (p : Nat) (x : PolderSt) : Dwindles keep s₀ (setPolder p x s) := h

theorem Dwindles.withNet (net : NetSt) : Dwindles keep s₀ { s with net := net } := h

theorem Dwindles.withPools (rcd : RecSide) (fences : Sparse Nat) : Dwindles keep s₀ { s with rcd := rcd, itg.fences := fences } := h

theorem Dwindles.endFn {f : Fin 64} (hf : ∀ x, keep x → fnSrc f x = false) : Dwindles keep s₀ (endFn f s) := by
  unfold Machine.endFn
  extract_lets n part u v w eod y
  have hv : Dwindles keep s₀ v := (h.endCmds _).endOpens hf
  exact ((hv.filterPairs _).rset (by decide) _ _).setPolder _ _

theorem Dwindles.endNetwork (hnet : ∀ x, keep x → netSrc x = false) : Dwindles keep s₀ (endNetwork s) := by
  unfold Machine.endNetwork
  extract_lets u v
  have hv : Dwindles keep s₀ v := (h.endCmds _).endOpens hnet
  exact hv.withNet _

theorem Dwindles.liftPools : Dwindles keep s₀ (liftPools s) := by
  unfold Machine.liftPools
  extract_lets taken kept rcd itg u
  have hu : Dwindles keep s₀ u := h.withPools _ _
  exact hu.foldNat (fun u kb hu => hu.giveBack ..) _

end Steps

/-- After the queues that `pick` takes have ended, none of them has a command or an opening. -/
theorem endOpens_endCmds_gone {pick : Src → Bool} {s : State} :
    (∀ c ∈ (endOpens pick (endCmds (fun c => pick c.src) s)).host.cmds, pick c.src = false) ∧
      ∀ o ∈ (endOpens pick (endCmds (fun c => pick c.src) s)).host.opens, pick o.src = false := by
  refine ⟨fun c hc => ?_, fun o ho => endOpens_gone ho⟩
  obtain ⟨d, hd, hsrc⟩ := ((Dwindles.refl (fun x => pick x = false) (endCmds (fun c => pick c.src) s)).endOpens (fun x hx => hx)).cmds c hc
  have hgone := endCmds_gone hd
  exact hsrc ▸ hgone

/-- A function that has been reset, and its windows disabled, is gone. -/
theorem fnGone_endFn (f : Fin 64) (s : State) : FnGone f (closeWindows f.val (endFn f s)) := by
  unfold endFn
  extract_lets n part u v w eod y
  obtain ⟨hcmds, hopens⟩ : (∀ c ∈ v.host.cmds, fnSrc f c.src = false) ∧ ∀ o ∈ v.host.opens, fnSrc f o.src = false :=
    endOpens_endCmds_gone (pick := fnSrc f)
  clear_value v
  exact
    { cmds := hcmds
      pairs := fun x hx => by simpa using (List.mem_filter.1 hx).2
      opens := hopens
      windows := fun x hx hw => by
        have hkept := (List.mem_filter.1 hx).2
        simp [hw.1, hw.2] at hkept }

/-- Functions that are reset one after another are all gone. -/
theorem fnGone_foldl {keep : Src → Prop} {g : State → Fin 64 → State} {p : Fin 64 → Prop}
    (hg : ∀ u v f, Dwindles keep u v → Dwindles keep u (g v f)) (hgone : ∀ u f, p f → FnGone f (g u f)) {l : List (Fin 64)} {f : Fin 64}
    (hf : f ∈ l) (hp : p f) (s : State) : FnGone f (l.foldl g s) := by
  induction l generalizing s with
  | nil => cases hf
  | cons a r ih =>
    rcases List.mem_cons.1 hf with rfl | hr
    · exact (hgone s f hp).dwindles ((Dwindles.refl keep _).foldl (fun v a hv => hg _ v a hv) r)
    · exact ih hr _

/-! ### The network and the pools (R352, R356, R474) -/

theorem endNetwork_gone (s : State) : (endNetwork s).net.qps = [] ∧ (∀ c ∈ (endNetwork s).host.cmds, netSrc c.src = false) ∧
    ∀ o ∈ (endNetwork s).host.opens, netSrc o.src = false := by
  unfold endNetwork
  extract_lets u v
  have hv : (∀ c ∈ v.host.cmds, netSrc c.src = false) ∧ ∀ o ∈ v.host.opens, netSrc o.src = false :=
    endOpens_endCmds_gone (pick := netSrc)
  exact ⟨rfl, hv⟩

theorem liftPools_net (s : State) : (liftPools s).net = s.net := by
  have hgive : ∀ (l : List Nat) (u : State), (foldNat (fun s kb => giveBack (kb / 65536) (kb % 65536) s) u l).net = u.net := by
    intro l
    induction l with
    | nil => exact fun _ => rfl
    | cons kb r ih =>
      intro u
      obtain ⟨_, _, _, hb⟩ := giveBack_pools (kb / 65536) (kb % 65536) u
      rw [foldNat, ih, hb]
  exact hgive _ _

/-! ### The controller reset (R414, R440, R474, R488) -/

/-- Nothing of any queue is left. -/
structure AllGone (s : State) : Prop where
  fns : ∀ f, FnGone f s
  cmds : s.host.cmds = []
  opens : s.host.opens = []
  qps : s.net.qps = []

/-- When every function and the network have been reset, nothing of any queue is left. -/
theorem allGone_of_resets {s : State} (hfns : ∀ f, FnGone f s) : AllGone (liftPools (endNetwork s)) := by
  have hdw := ((Dwindles.refl (fun _ => False) s).endNetwork fun _ hx => hx.elim).liftPools
  have hlift := (Dwindles.refl (fun _ => False) (endNetwork s)).liftPools
  obtain ⟨hqps, hcmds, hopens⟩ := endNetwork_gone s
  have hgone : ∀ f, FnGone f (liftPools (endNetwork s)) := fun f => (hfns f).dwindles hdw
  refine ⟨hgone, List.eq_nil_iff_forall_not_mem.2 fun c hc => ?_, List.eq_nil_iff_forall_not_mem.2 fun o ho => ?_,
    by rw [liftPools_net, hqps]⟩
  · obtain ⟨d, hd, hsrc⟩ := hlift.cmds c hc
    rcases src_cases c.src with ⟨f, hf⟩ | hnet
    · simp [(hgone f).cmds c hc] at hf
    · simp [← hsrc, hcmds d hd] at hnet
  · rcases src_cases o.src with ⟨f, hf⟩ | hnet
    · simp [(hgone f).opens o ho] at hf
    · simp [hopens o (hlift.opens o ho)] at hnet

/-- Both time-slot banks empty and VF Enable clear. -/
def banksCleared (u : State) : State :=
  { u with ts.bank0 := [], ts.bank1 := [], ts.swap := false, host.vfEnable := false, host.numVFs := 0 }

/-- A controller reset: once nothing of any queue is left, both time-slot banks are emptied, VF Enable is clear, and the reset is noted. -/
theorem controllerReset_eq (s : State) : ∃ u, Dwindles (fun _ => False) s u ∧ AllGone u ∧
    controllerReset s = raise pgHIF 3 (noteCause 1 (banksCleared u)) := by
  have hstep : ∀ u v f, Dwindles (fun _ => False) u v → Dwindles (fun _ => False) u (closeWindows f.val (endFn f v)) :=
    fun u v f hv => (hv.endFn fun _ hx => hx.elim).closeWindows _
  unfold controllerReset
  extract_lets a b u
  have hb : Dwindles (fun _ => False) s b := ((Dwindles.refl _ s).haltChannels _).foldl (fun v f hv => hstep s v f hv) _
  have hgone : ∀ f, FnGone f b := fun f =>
    fnGone_foldl (p := fun _ => True) hstep (fun u g _ => fnGone_endFn g u) (List.mem_finRange f) trivial a
  have hu : Dwindles (fun _ => False) s u := (hb.endNetwork fun _ hx => hx.elim).liftPools
  have hall : AllGone u := allGone_of_resets hgone
  clear_value u
  exact ⟨u, hu, hall, rfl⟩

/-- No queue has anything left, the windows and both banks are empty, and the reset is an event. -/
def ControllerCleared (t : State) : Prop :=
  t.host.cmds = [] ∧ (∀ f q, getPair t f q = {}) ∧ t.host.opens = [] ∧ t.net.qps = [] ∧ t.host.vfEnable = false ∧
    t.host.linkUp = false ∧ t.ts.bank0 = [] ∧ t.ts.bank1 = [] ∧ evPending t pgHIF 3 = true ∧
    ∀ (f : Fin 64) (k : Nat), k < 32 → rget t (pgWIN f.val) (0xE00 + 4 * k) = 0

theorem controllerReset_cleared {s : State} (hlink : s.host.linkUp = false) : ControllerCleared (controllerReset s) := by
  obtain ⟨u, hu, ⟨hfns, hcmds, hopens, hqps⟩, heq⟩ := controllerReset_eq s
  rw [heq]
  have hv : ∀ f, FnGone f (raise pgHIF 3 (noteCause 1 (banksCleared u))) := fun f =>
    have hfv : FnGone f (banksCleared u) := { hfns f with }
    hfv.dwindles (((Dwindles.refl (fun _ => False) (banksCleared u)).rset (by decide) ..).raise (by decide) _)
  refine ⟨?_, fun f q => (hv f).getPair q, ?_, ?_, ?_, ?_, ?_, ?_, evPending_raise_self pgHIF 3 (by decide) _,
    fun f k hk => (hv f).rget_window (by omega) (by omega)⟩
  all_goals simp only [raise_host, raise_net, raise_ts, noteCause_host, noteCause_net, noteCause_ts]
  · exact hcmds
  · exact hopens
  · exact hqps
  · rfl
  · exact hu.linkUp.trans hlink
  · rfl
  · rfl

/-- A controller reset loses no event. -/
theorem evPending_controllerReset {s : State} {page b : Nat} (h : evPending s page b = true) :
    evPending (controllerReset s) page b = true := by
  obtain ⟨u, hu, -, heq⟩ := controllerReset_eq s
  rw [heq]
  exact evPending_raise_keep pgHIF 3 page b (by decide) _ (hu.events page b h)

theorem pins_controllerReset (s : State) : (controllerReset s).pins = s.pins := by
  obtain ⟨u, hu, -, heq⟩ := controllerReset_eq s
  rw [heq, raise_pins, noteCause_pins]
  exact hu.pins

/-! ### VF Enable (R372, R416) -/

/-- The queues that the write of 0 to VF Enable leaves: those of function 0 and of the network. -/
def staysAtVfClear (x : Src) : Prop := ∀ f : Fin 64, f.val ≠ 0 → ∀ q, x ≠ .pcie f q

theorem fnSrc_of_staysAtVfClear {x : Src} (h : staysAtVfClear x) {f : Fin 64} (hf : f.val ≠ 0) : fnSrc f x = false := by
  cases x with
  | pcie g q =>
    have hg : g ≠ f := fun hg => h f hf q (hg ▸ rfl)
    simpa [fnSrc] using hg
  | net q => rfl

/-- The reset of a function other than 0. -/
def resetVf (s : State) (f : Fin 64) : State := if f.val = 0 then s else closeWindows f.val (endFn f s)

theorem dwindles_resetVf (u v : State) (f : Fin 64) (h : Dwindles staysAtVfClear u v) : Dwindles staysAtVfClear u (resetVf v f) := by
  unfold resetVf
  split
  · exact h
  · next hf => exact (h.endFn fun x hx => fnSrc_of_staysAtVfClear hx hf).closeWindows _

theorem fnGone_resetVf (u : State) (f : Fin 64) (hf : f.val ≠ 0) : FnGone f (resetVf u f) := by
  rw [resetVf, if_neg hf]
  exact fnGone_endFn f u

/-- The write of 0 to VF Enable: functions 1 to 63 are reset, one after another (R416). -/
theorem vfEnableClear_of_set {s : State} (h : s.host.vfEnable = true) : ∃ u, Dwindles staysAtVfClear s u ∧
    (∀ f : Fin 64, f.val ≠ 0 → FnGone f u) ∧ vfEnableClear s = raise pgHIF 3 (noteCause 1 { u with host.vfEnable := false }) := by
  unfold vfEnableClear
  rw [if_neg (by simp [h])]
  extract_lets a u
  have hu : Dwindles staysAtVfClear s u := ((Dwindles.refl _ s).haltChannels _).foldl (fun v f hv => dwindles_resetVf s v f hv) _
  have hgone : ∀ f : Fin 64, f.val ≠ 0 → FnGone f u := fun f hf =>
    fnGone_foldl (p := fun f => f.val ≠ 0) dwindles_resetVf fnGone_resetVf (List.mem_finRange f) hf a
  clear_value u
  exact ⟨u, hu, hgone, rfl⟩

theorem vfEnableClear_effect {s : State} (h : s.host.vfEnable = true) : (vfEnableClear s).host.vfEnable = false ∧
    (∀ f : Fin 64, f.val ≠ 0 → ∀ q, getPair (vfEnableClear s) f q = {}) ∧
    (∀ c ∈ (vfEnableClear s).host.cmds, ∀ f : Fin 64, f.val ≠ 0 → ofFn f c = false) ∧
    (∀ o ∈ s.host.opens, staysAtVfClear o.src → o ∈ (vfEnableClear s).host.opens) ∧ (vfEnableClear s).ts = s.ts := by
  obtain ⟨u, hu, hgone, heq⟩ := vfEnableClear_of_set h
  simp only [heq, getPair, raise_host, raise_ts, noteCause_host, noteCause_ts]
  exact ⟨trivial, fun f hf q => (hgone f hf).getPair q, fun c hc f hf => (hgone f hf).cmds c hc, hu.kept, hu.ts⟩

/-! ### The statement -/

theorem perstN_eq (s : State) : perstN s = controllerReset
    { s with pins.perstN := false, host.linkUp := false, host.linkSpeed := 0, host.linkWidth := 0, host.flr := [] } := rfl

theorem perstN_effect (s : State) : (perstN s).pins.perstN = false ∧ ControllerCleared (perstN s) := by
  rw [perstN_eq]
  exact ⟨congrArg Pins.perstN (pins_controllerReset _), controllerReset_cleared rfl⟩

theorem linkDown_of_up {s : State} (h : s.host.linkUp = true) : linkDown s = controllerReset (raise pgHIF 0
    { s with host.linkUp := false, host.linkSpeed := 0, host.linkWidth := 0, host.flr := [] }) := by
  rw [linkDown, if_neg (by simp [h])]

theorem linkDown_of_down {s : State} (h : s.host.linkUp = false) : linkDown s = s := by
  rw [linkDown, if_pos (by simp [h])]

theorem vfEnableClear_of_clear {s : State} (h : s.host.vfEnable = false) : vfEnableClear s = s := by
  rw [vfEnableClear, if_pos (by simp [h])]

theorem activateBusy_of_running {s : State} {h : Nat} {img : FwImage} (hact : s.host.activate = some (h, img))
    (hrun : ∃ c ∈ s.host.cmds, fwCmd c = true ∧ c.started = true ∧ c.fin = none ∧ c.handle ≠ h) :
    activateBusy s = done h stACTIVATE_BUSY 0 { s with host.activate := none, host.fetchStop := false } := by
  obtain ⟨c, hc, hfw, hst, hfin, hne⟩ := hrun
  have hany : s.host.cmds.any (fun c => fwCmd c && c.started && c.fin.isNone && c.handle ≠ h) = true :=
    List.any_eq_true.2 ⟨c, hc, by simp [hfw, hst, hfin, hne]⟩
  simp only [activateBusy, hact, hany, if_true]

theorem exec_perstN (s : State) : exec .perstN s = .next (perstN s) := rfl
theorem exec_linkDown (s : State) : exec .linkDown s = .next (linkDown s) := rfl
theorem exec_linkUp (sp : BitVec 3) (w : BitVec 5) (s : State) : exec (.linkUp sp w) s = .next (linkUp sp w s) := rfl
theorem exec_vfEnableClear (s : State) : exec .vfEnableClear s = .next (vfEnableClear s) := rfl
theorem exec_vfEnableSet (n : BitVec 6) (s : State) : exec (.vfEnableSet n) s = .next (vfEnableSet n s) := rfl
theorem exec_activateBusy (s : State) : exec .activateBusy s = .next (activateBusy s) := rfl

/-- Settles O21: what a reset ends stays away while it ends the rest (`Dwindles`, `fnGone_foldl`), so that after all functions and the
network nothing is left. -/
theorem controllerResetsAndLinks : Obligations.ControllerResetsAndLinks := by
  simp only [Obligations.ControllerResetsAndLinks, exec_perstN, exec_linkDown, exec_linkUp, exec_vfEnableClear, exec_vfEnableSet,
    exec_activateBusy, Host.Outcome.next.injEq, exists_eq_left']
  refine fun s => ⟨perstN_effect s, fun hup => ?down, linkDown_of_down, vfEnableClear_effect, vfEnableClear_of_clear,
    fun sp w => rfl, fun n hrec => ?set, fun n hrec => ?recovery, fun h img => activateBusy_of_running⟩
  case down =>
    rw [linkDown_of_up hup]
    exact ⟨evPending_controllerReset (evPending_raise_self pgHIF 0 (by decide) _), controllerReset_cleared (by rw [raise_host])⟩
  case set => rw [vfEnableSet, if_neg (by simp [hrec])]
  case recovery => rw [vfEnableSet, if_pos hrec]

end Sys2Proof.Machine
end

section
/-! SUPPORT. What the DMA channels make of a descriptor, a burst, a stop and a fault, and the statements on them and on the rings, the
sluice and the host windows (O22, O23, O24, O25). -/

namespace Sys2Proof.Machine

/-! ### A channel after an update -/

/-- A channel that is not idle reads back. -/
theorem dmaOf_setDma_of_st {c : DmaChan} (h : c.st ≠ .idle) (n : Nat) (s : State) : dmaOf (setDma n c s) n = c :=
  dmaOf_setDma_self s fun e => h (congrArg DmaChan.st e)

theorem st_ne_idle_of_running {c : DmaChan} (h : c.st = .running) : c.st ≠ .idle := by simp [h]

@[simp] theorem rget_setDma (n : Nat) (c : DmaChan) (s : State) (p o : Nat) : rget (setDma n c s) p o = rget s p o := rfl
@[simp] theorem rfld_setDma (n : Nat) (c : DmaChan) (s : State) (p o hi lo : Nat) : rfld (setDma n c s) p o hi lo = rfld s p o hi lo := rfl

/-- An event of a channel changes the registers' side and what is signalled, and nothing else (R436). -/
theorem dmaEvent_frame (n b : Nat) (s : State) : ∃ rf out, dmaEvent n b s = { s with rf := rf, out := out } := by
  obtain ⟨rf, out, h⟩ := raise_frame (pgDMA n) b s
  unfold dmaEvent
  dsimp only
  rw [h]
  split <;> exact ⟨_, _, rfl⟩

@[simp] theorem dmaOf_dmaEvent (n b : Nat) (s : State) (m : Nat) : dmaOf (dmaEvent n b s) m = dmaOf s m := by
  obtain ⟨_, _, h⟩ := dmaEvent_frame n b s; rw [h]; rfl

@[simp] theorem dmaOf_markFence (code cause : Nat) (s : State) (n : Nat) : dmaOf (markFence code cause s) n = dmaOf s n := by
  obtain ⟨_, _, _, h⟩ := markFence_frame code cause s; rw [h]; rfl

/-- An event of a channel counts at most what the log has dropped (R558). -/
theorem count_dmaEvent {q o : Nat} (h : rkey q o ≠ rkey pgMEM 0xA24) (n b : Nat) (s : State) :
    count (dmaEvent n b s) q o = count s q o := by
  have hraise := count_raise h (pgDMA n) b s
  unfold dmaEvent
  dsimp only
  split <;> exact hraise

/-- A unit that is marked with a cause has that cause. -/
theorem fenceCause_markFence {cause : Nat} (h : cause ≠ 0) (code : Nat) (s : State) :
    fenceCause (markFence code cause s) code = cause := by
  simp only [fenceCause, markFence, noteFence, raise_itg, bump_itg, rset_itg]
  exact sget_sset_eq _ _ _ _ h

/-! ### On-chip accesses (R425) -/

theorem foldl_rcd {α : Type} {f : State → α → State} (h : ∀ s a, ∃ r, f s a = { s with rcd := r }) (l : List α) (s : State) :
    ∃ r, l.foldl f s = { s with rcd := r } := by
  induction l generalizing s with
  | nil => exact ⟨_, rfl⟩
  | cons a l ih =>
    obtain ⟨r, hr⟩ := h s a
    obtain ⟨r', hr'⟩ := ih { s with rcd := r }
    exact ⟨r', by rw [List.foldl_cons, hr, hr']⟩

/-- A staging write reaches the bytes, the buffers' link headers and the items of the rings (R318, R351). -/
theorem stagingWrite_frame (a : Nat) (bs : List Byte) (s : State) : ∃ m r, stagingWrite a bs s = { s with mem := m, rcd := r } := by
  have hsmash : ∀ k u, ∃ r, smash a k u = { u with rcd := r } := fun k u =>
    foldl_rcd (fun v p => foldl_rcd (fun w j => by dsimp only; split <;> exact ⟨_, rfl⟩) _ v) _ u
  have hstore : ∀ u, ∃ r, ringStore a bs u = { u with rcd := r } := fun u =>
    foldl_rcd (fun v p => by dsimp only; split <;> exact ⟨_, rfl⟩) _ u
  obtain ⟨r, hr⟩ := hsmash bs.length { s with mem.staging := writeBytes 0 s.mem.staging a bs }
  obtain ⟨r', hr'⟩ := hstore { s with mem.staging := writeBytes 0 s.mem.staging a bs, rcd := r }
  exact ⟨_, r', by rw [stagingWrite, hr, hr']⟩

/-- A write of on-chip bytes changes them, what stands in staging, and which words are bad. -/
theorem spaceWrite_frame (sp : BitVec 3) (a : Nat) (bs : List Byte) (s : State) :
    ∃ m r i, spaceWrite sp a bs s = { s with mem := m, rcd := r, itg := i } := by
  unfold spaceWrite
  extract_lets whole itg u
  split
  · obtain ⟨m, r, h⟩ := stagingWrite_frame a bs u
    exact ⟨m, r, u.itg, h⟩
  all_goals exact ⟨_, _, _, rfl⟩

@[simp] theorem dmaOf_spaceWrite (sp : BitVec 3) (a : Nat) (bs : List Byte) (s : State) (n : Nat) :
    dmaOf (spaceWrite sp a bs s) n = dmaOf s n := by
  obtain ⟨_, _, _, h⟩ := spaceWrite_frame sp a bs s; rw [h]; rfl

/-- A write of control-core memory inside its space may go, and a read of it where no word is bad (R438, R545). -/
theorem accessCode_of_coreWrite {s : State} {a k : Nat} (hsp : spaceOk 2 a k = true) (n : Nat) : accessCode s n 2 true a k = none := by
  rw [accessCode, if_neg (by decide), hsp]
  rfl

theorem accessCode_of_coreRead {s : State} {a k : Nat} (hsp : spaceOk 2 a k = true) (hbad : badRead s 2 a k = false) (n : Nat) :
    accessCode s n 2 false a k = none := by
  rw [accessCode, if_neg (by decide), hsp, hbad]
  rfl

theorem spaceRead_coreMem (a k : Nat) (s : State) : spaceRead 2 a k s = (readBytes 0 s.mem.coreMem (a - 0x80000000) k, s) := rfl

theorem spaceWrite_coreMem_mem (a : Nat) (bs : List Byte) (s : State) :
    (spaceWrite 2 a bs s).mem = { s.mem with coreMem := writeBytes 0 s.mem.coreMem (a - 0x80000000) bs } := rfl

/-! ### GO and the descriptor it takes (R427 to R431) -/

/-- A channel that a GO has set running, before it takes a descriptor. -/
def DmaChan.started (ring : Bool) : DmaChan := { st := .running, ring := ring }

/-- The channel has come to the descriptor at `a`, and has moved none of its bytes. -/
def DmaChan.atDesc (c : DmaChan) (a : Nat) (sp : BitVec 3) : DmaChan :=
  { c with taken := c.taken + 1, cur := BitVec.ofNat 64 a, curSp := sp, done := 0, len := 0 }

/-- The channel runs with the fields of a descriptor. -/
def DmaChan.withDesc (c : DmaChan) (d : Desc) : DmaChan :=
  { c with src := BitVec.ofNat 64 d.src, dst := BitVec.ofNat 64 d.dst, srcSp := BitVec.ofNat 3 d.srcSp, dstSp := BitVec.ofNat 3 d.dstSp,
           len := d.len, next := BitVec.ofNat 64 d.next, nextSp := BitVec.ofNat 3 d.nextSp, last := d.last, irq := d.irq, rdOut := none,
           descRd := false }

theorem beginDesc_of_ok {n : Nat} {bs : List Byte} {s : State} (h : descOk (dmaOf s n).ring (parseDesc bs) = true) :
    beginDesc n bs s = setDma n ((dmaOf s n).withDesc (parseDesc bs)) s := by
  simp only [beginDesc, h, Bool.not_true, Bool.false_eq_true, if_false]
  rfl

/-- A running channel takes a well-formed descriptor that it can read in control-core memory. -/
theorem takeDesc_of_coreMem {n a : Nat} {s : State} (hrun : (dmaOf s n).st = .running)
    (hops : (dmaOf s n).taken + 1 ≤ rfld s (pgDMA n) 0x104 15 0)
    (halign : a % 32 = 0) (hsp : spaceOk 2 a 32 = true) (hbad : badRead s 2 a 32 = false)
    (hok : descOk (dmaOf s n).ring (parseDesc (readBytes 0 s.mem.coreMem (a - 0x80000000) 32)) = true) (hostDesc : List Byte) :
    takeDesc n a 2 hostDesc s = setDma n (((dmaOf s n).atDesc a 2).withDesc (parseDesc (readBytes 0 s.mem.coreMem (a - 0x80000000) 32)))
      (setDma n ((dmaOf s n).atDesc a 2) s) := by
  have hat : dmaOf (setDma n ((dmaOf s n).atDesc a 2) s) n = (dmaOf s n).atDesc a 2 :=
    dmaOf_setDma_of_st (c := (dmaOf s n).atDesc a 2) (st_ne_idle_of_running hrun) n s
  have hbegin := beginDesc_of_ok (n := n) (s := setDma n ((dmaOf s n).atDesc a 2) s)
    (bs := readBytes 0 s.mem.coreMem (a - 0x80000000) 32) (by rw [hat]; exact hok)
  rw [hat] at hbegin
  have hcode : accessCode (setDma n ((dmaOf s n).atDesc a 2) s) n 2 false a 32 = none := accessCode_of_coreRead hsp hbad n
  unfold takeDesc
  rw [if_neg (Nat.not_lt.2 hops)]
  simp only [DmaChan.atDesc] at hcode hbegin ⊢
  simp only [hcode, spaceRead_coreMem, halign]
  exact hbegin

section Go
variable {s : State} {n : Fin 16} (hguard : sget none s.rf.guard (pgDMA n.val) = none)
include hguard

theorem dmaGo_of_busy (h : goBusy s n.val = true) (bs : List Byte) : dmaGo n bs none s = raise (pgDMA n.val) 6 s := by
  simp only [dmaGo, drainStores, touchPage_none hguard, h, if_true]

/-- A GO that is not refused sets a chain running with the descriptor that DESC names. -/
theorem dmaGo_of_chain (hfree : goBusy s n.val = false) (hchain : rbit s (pgDMA n.val) 0x100 16 = false)
    (hspace : rfld s (pgDMA n.val) 0x114 2 0 = 2) (bs : List Byte) : dmaGo n bs none s =
      takeDesc n.val (rget s (pgDMA n.val) 0x110 ++ rget s (pgDMA n.val) 0x10C).toNat 2 bs (setDma n.val (.started false) s) := by
  simp only [dmaGo, drainStores, touchPage_none hguard, hfree, hchain, rget_setDma, rfld_setDma, hspace, Bool.false_eq_true, if_false]
  rfl

end Go

theorem exec_dmaGo (n : Fin 16) (bs : List Byte) (core : Option CoreWrite) (s : State) :
    exec (.dmaGo n bs core) s = .next (dmaGo n bs core s) := rfl

/-- Settles O22: a GO is refused (`dmaGo_of_busy`), or takes the descriptor that DESC names (`dmaGo_of_chain`), which is begun where it is
well formed (`takeDesc_of_coreMem`). -/
theorem dmaGoTakesTheDescriptor : Obligations.DmaGoTakesTheDescriptor := by
  simp only [Obligations.DmaGoTakesTheDescriptor, exec_dmaGo, Host.Outcome.next.injEq, exists_eq_left']
  refine fun s n bs hguard => ⟨fun hbusy => dmaGo_of_busy hguard hbusy bs, fun hfree hchain hops hspace halign hsp hbad hok => ?_,
    fun w => rfl⟩
  have hgo : dmaOf (setDma n.val (.started false) s) n.val = .started false := dmaOf_setDma_of_st (by decide) n.val s
  rw [dmaGo_of_chain hguard hfree hchain hspace, takeDesc_of_coreMem (s := setDma n.val (.started false) s) (by rw [hgo]; rfl)
    (by rw [hgo]; exact hops) halign hsp hbad (by rw [hgo]; exact hok), hgo,
    dmaOf_setDma_of_st ChanSt.noConfusion]
  exact ⟨rfl, rfl, rfl, rfl, rfl, rfl, rfl⟩

/-! ### Bursts (R428, R443) -/

/-- Bytes that are counted are done; the channel stays as it is in all else. -/
theorem dmaOf_moved {n : Nat} {s : State} (h : (dmaOf s n).st = .running) (k : Nat) :
    dmaOf (moved n k s) n = { dmaOf s n with done := (dmaOf s n).done + k } :=
  dmaOf_setDma_of_st (st_ne_idle_of_running (c := { dmaOf s n with done := (dmaOf s n).done + k }) h) n _

/-- Where the channel's next byte comes from. -/
def DmaChan.srcAt (c : DmaChan) : Nat := c.src.toNat + c.done

/-- Where the channel's next byte goes. -/
def DmaChan.dstAt (c : DmaChan) : Nat := c.dst.toNat + c.done

/-- Bytes for control-core memory are written there and counted. -/
theorem dmaPut_of_coreMem {n : Nat} {bs : List Byte} {s : State} (hdst : (dmaOf s n).dstSp = 2)
    (hsp : spaceOk 2 (dmaOf s n).dstAt bs.length = true) :
    dmaPut n bs s = moved n bs.length (spaceWrite 2 (dmaOf s n).dstAt bs s) := by
  simp only [DmaChan.dstAt] at hsp ⊢
  simp only [dmaPut, hdst, accessCode_of_coreWrite hsp]
  rfl

/-- The bytes of a burst that touches no host memory (R443). -/
def coreBurst (s : State) (n : Nat) : Nat :=
  min (min (burstMax s n) 4096)
    (min ((dmaOf s n).len - (dmaOf s n).done) (min (4096 - (dmaOf s n).srcAt % 4096) (4096 - (dmaOf s n).dstAt % 4096)))

/-- A burst between two places of control-core memory puts the bytes that it reads. -/
theorem chainBurst_of_coreMem {n : Nat} {s : State} (hrd : (dmaOf s n).rdOut = none) (hsrc : (dmaOf s n).srcSp = 2)
    (hdst : (dmaOf s n).dstSp = 2) (hpos : 0 < coreBurst s n) (hread : spaceOk 2 (dmaOf s n).srcAt (coreBurst s n) = true)
    (hwrite : spaceOk 2 (dmaOf s n).dstAt (coreBurst s n) = true) (hbad : badRead s 2 (dmaOf s n).srcAt (coreBurst s n) = false)
    (tlp : Nat) :
    chainBurst n tlp s = dmaPut n (readBytes 0 s.mem.coreMem ((dmaOf s n).srcAt - 0x80000000) (coreBurst s n)) s := by
  have hhost : hostBurst 2 2 tlp = 4096 := rfl
  have hk : coreBurst s n ≠ 0 := Nat.pos_iff_ne_zero.1 hpos
  have hsa := accessCode_of_coreRead hread hbad n
  have hda := accessCode_of_coreWrite (s := s) hwrite n
  simp only [coreBurst, DmaChan.srcAt, DmaChan.dstAt] at hk hsa hda ⊢
  simp only [chainBurst, hrd, hsrc, hdst, hhost, hk, hsa, hda, spaceRead_coreMem, Option.isSome_none, Bool.false_eq_true, or_self, if_false]
  rfl

theorem dmaBurst_of_chain {n : Fin 16} {s : State} (hrun : (dmaOf s n.val).st = .running) (hring : (dmaOf s n.val).ring = false)
    (hshare : rfld s (pgDMA n.val) 0x108 8 0 ≠ 0) (tlp : Fin 6) :
    dmaBurst n tlp false s = chainBurst n.val (128 * 2 ^ tlp.val) s := by
  simp [dmaBurst, hrun, hring, hshare]

theorem exec_dmaBurst (n : Fin 16) (tlp : Fin 6) (waited : Bool) (s : State) :
    exec (.dmaBurst n tlp waited) s = .next (dmaBurst n tlp waited s) := rfl

/-- Settles O23: the burst is a put of the bytes read (`chainBurst_of_coreMem`), which are written and counted (`dmaPut_of_coreMem`), and
a write of bytes leaves those outside it (`sget_writeBytes`). -/
theorem dmaBurstCopies : Obligations.DmaBurstCopies := by
  intro s n tlp hrun hring hshare hrd hsrc hdst c sa da k hpos hread hwrite hbad bs
  have hlen : bs.length = k := length_readBytes ..
  have hburst : chainBurst n.val (128 * 2 ^ tlp.val) s = dmaPut n.val bs s :=
    chainBurst_of_coreMem hrd hsrc hdst hpos hread hwrite hbad _
  have hput : dmaPut n.val bs s = moved n.val k (spaceWrite 2 da bs s) :=
    hlen ▸ dmaPut_of_coreMem hdst (hlen.symm ▸ hwrite)
  refine ⟨moved n.val k (spaceWrite 2 da bs s), ?_, ?_, ?_, spaceWrite_coreMem_mem da bs s, fun hwf a ha => ?_⟩
  · rw [exec_dmaBurst, dmaBurst_of_chain hrun hring hshare, hburst, hput]
  · rw [dmaOf_moved (by rw [dmaOf_spaceWrite]; exact hrun), dmaOf_spaceWrite]
  · rw [dmaOf_moved (by rw [dmaOf_spaceWrite]; exact hrun), dmaOf_spaceWrite]
    exact hrun
  · obtain ⟨-, hcore, -⟩ := (wf_iff s.mem).1 hwf
    exact (sget_writeBytes hcore _ bs a).trans (if_neg (by rw [hlen]; omega))

/-! ### Faults (R438) -/

/-- What a fault leaves undefined at the destination is no channel's record and no counter. -/
theorem dmaSpoil_frame (n : Nat) (s : State) : ∃ m r i k, dmaSpoil n s = { s with mem := m, rcd := r, itg := i, clk := k } := by
  unfold dmaSpoil
  extract_lets c a k
  split
  · exact ⟨_, _, _, _, rfl⟩
  · obtain ⟨m, r, i, h⟩ := spaceWrite_frame c.dstSp a (leBytes (freeVal s) k) s
    exact ⟨m, r, i, _, by rw [h]; rfl⟩

@[simp] theorem dmaOf_dmaSpoil (n : Nat) (s : State) (m : Nat) : dmaOf (dmaSpoil n s) m = dmaOf s m := by
  obtain ⟨_, _, _, _, h⟩ := dmaSpoil_frame n s; rw [h]; rfl

@[simp] theorem count_dmaSpoil (n : Nat) (s : State) (q o : Nat) : count (dmaSpoil n s) q o = count s q o := by
  obtain ⟨_, _, _, _, h⟩ := dmaSpoil_frame n s; rw [h]; rfl

/-- The channel as a fault leaves it, with what it records. -/
def DmaChan.haltedBy (c : DmaChan) (code addr : Nat) (sp : BitVec 3) (wr : Bool) : DmaChan :=
  { c with st := .halted, halt := BitVec.ofNat 4 code, failAddr := BitVec.ofNat 64 addr, failSp := sp, failWr := wr, rdOut := none,
           descRd := false }

section Halt
variable {n code : Nat} (hcode : code ≠ 8) (addr : Nat) (sp : BitVec 3) (wr : Bool) (s : State)
include hcode

/-- A fault other than FUNC_RESET halts the channel, is counted and an event, and fences it. -/
theorem dmaHalt_eq : dmaHalt n code addr sp wr s = markFence (0x2000 + n) 5
    (dmaEvent n 3 (bump (pgDMA n) 0xA0C 1 (setDma n ((dmaOf s n).haltedBy code addr sp wr) (dmaSpoil n s)))) := by
  simp only [dmaHalt, if_neg hcode, dmaOf_dmaSpoil]
  rfl

theorem dmaOf_dmaHalt : dmaOf (dmaHalt n code addr sp wr s) n = (dmaOf s n).haltedBy code addr sp wr := by
  rw [dmaHalt_eq hcode, dmaOf_markFence, dmaOf_dmaEvent]
  exact dmaOf_setDma_of_st (c := (dmaOf s n).haltedBy code addr sp wr) ChanSt.noConfusion n _

theorem fenceCause_dmaHalt : fenceCause (dmaHalt n code addr sp wr s) (0x2000 + n) = 5 := by
  rw [dmaHalt_eq hcode, fenceCause_markFence (by decide)]

/-- A fault counts on its channel's page, the fence page and, where the event log drops an entry, in memory's. -/
theorem count_dmaHalt {q o : Nat} (hmem : rkey q o ≠ rkey pgMEM 0xA24) (hfen : rkey q o ≠ rkey pgFEN 0xA00)
    (hdma : rkey q o ≠ rkey (pgDMA n) 0xA0C) : count (dmaHalt n code addr sp wr s) q o = count s q o := by
  rw [dmaHalt_eq hcode, markFence, noteFence, count_raise hmem, count_bump_other (by decide) hfen]
  refine (count_dmaEvent hmem n 3 _).trans ((count_bump_other (by decide) hdma _).trans ?_)
  exact count_dmaSpoil n s q o

end Halt

/-! ### How chains end (R428, R436, R438) -/

section Ends
variable {s : State} {n : Fin 16}

section Running
variable (hrun : (dmaOf s n.val).st = .running) (hring : (dmaOf s n.val).ring = false)
include hrun hring

theorem descriptorDone_of_last (hrd : (dmaOf s n.val).rdOut = none) (hlen : (dmaOf s n.val).len ≠ 0)
    (hdone : (dmaOf s n.val).done = (dmaOf s n.val).len) (hlast : (dmaOf s n.val).last = true) (bs : List Byte) :
    descriptorDone n bs s = dmaEvent n.val 0 (setDma n.val { dmaOf s n.val with st := .idle } (bump (pgDMA n.val) 0xA08 1 s)) := by
  simp [descriptorDone, hrun, hring, hrd, hlen, hdone, hlast]

theorem dmaStop_of_chain (hguard : sget none s.rf.guard (pgDMA n.val) = none) : dmaStop n s = dmaEvent n.val 4
    (setDma n.val { dmaOf s n.val with st := .stopped, rdOut := none, descRd := false, partials := [] } s) := by
  simp [dmaStop, touchPage_none hguard, hrun, hring]

end Running

theorem readAddr_of_data {c : DmaChan} (h : c.descRd = false) : readAddr c = (c.src.toNat + c.done, c.srcSp) := by
  simp [readAddr, h]

section Read
variable {k : Nat} (hrd : (dmaOf s n.val).rdOut = some k)
include hrd

theorem pcieCompletion_of_error :
    pcieCompletion n .error s = dmaHalt n.val 3 (readAddr (dmaOf s n.val)).1 (readAddr (dmaOf s n.val)).2 false s := by
  simp only [pcieCompletion, hrd]

theorem cplTimeout_of_read :
    cplTimeout n s = dmaHalt n.val 2 (readAddr (dmaOf s n.val)).1 (readAddr (dmaOf s n.val)).2 false (bump pgHIF 0xA00 1 s) := by
  simp only [cplTimeout, hrd]

/-- A completion with all the bytes of a read puts them at the destination. -/
theorem pcieCompletion_of_data (hdesc : (dmaOf s n.val).descRd = false) {bs : List Byte} (hlen : bs.length = k) :
    pcieCompletion n (.data bs) s = dmaPut n.val bs (setDma n.val { dmaOf s n.val with rdOut := none } s) := by
  simp [pcieCompletion, hrd, hdesc, ← hlen]

end Read

end Ends

theorem exec_descriptorDone (n : Fin 16) (bs : List Byte) (s : State) :
    exec (.descriptorDone n bs) s = .next (descriptorDone n bs s) := rfl
theorem exec_dmaStop (n : Fin 16) (s : State) : exec (.dmaStop n) s = .next (dmaStop n s) := rfl
theorem exec_pcieCompletion (n : Fin 16) (res : CplResult) (s : State) :
    exec (.pcieCompletion n res) s = .next (pcieCompletion n res s) := rfl
theorem exec_cplTimeout (n : Fin 16) (s : State) : exec (.cplTimeout n) s = .next (cplTimeout n s) := rfl

/-- Settles O24: the end and the stop of a chain by what they make of the channel, and a read's error or timeout by what a fault records
(`dmaOf_dmaHalt`), fences (`fenceCause_dmaHalt`) and leaves counted (`count_dmaHalt`). -/
theorem dmaChannelsEnd : Obligations.DmaChannelsEnd := by
  simp only [Obligations.DmaChannelsEnd, exec_descriptorDone, exec_dmaStop, exec_pcieCompletion, exec_cplTimeout, Host.Outcome.next.injEq,
    exists_eq_left']
  refine ⟨fun s n hrun hring => ⟨fun bs hrd hlen hdone hlast => descriptorDone_of_last hrun hring hrd hlen hdone hlast bs,
    dmaStop_of_chain hrun hring⟩, fun s n k hrd hdesc => ⟨fun bs => pcieCompletion_of_data hrd hdesc, ?error, ?timeout⟩⟩
  case error =>
    rw [pcieCompletion_of_error hrd, readAddr_of_data hdesc, dmaOf_dmaHalt (by decide)]
    exact ⟨rfl, rfl, rfl, fenceCause_dmaHalt (by decide) ..⟩
  case timeout =>
    have hpage : rkey pgHIF 0xA00 ≠ rkey (pgDMA n.val) 0xA0C := by
      simp only [rkey, pgHIF, pgDMA]
      omega
    rw [cplTimeout_of_read hrd, dmaOf_dmaHalt (by decide), count_dmaHalt (by decide) _ _ _ _ (by decide) (by decide) hpage,
      count_bump_self _ _ (by decide)]
    exact ⟨rfl, rfl, fenceCause_dmaHalt (by decide) .., rfl⟩

/-! ### Ring and sluice registers (R433, R434, R444) -/

section Registers
variable {s : State} {n : Fin 16}

section Touched
variable (hguard : sget none s.rf.guard (pgDMA n.val) = none)
include hguard

theorem rdptrWrite_of_unguarded (v : Word) : rdptrWrite n v s = rset s (pgDMA n.val) 0x11C (v &&& 0xFFFFFF) := by
  rw [rdptrWrite, touchPage_none hguard]

theorem sluiceWrite_of_unguarded (v : Word) : sluiceWrite n v s =
    if pageEn s (pgDMA n.val) = true ∧ 256 < shareSum s n.val (bits v 8 0) then raise (pgDMA n.val) 5 s
    else rset s (pgDMA n.val) 0x108 (v &&& 0x701FF) := by
  rw [sluiceWrite, touchPage_none hguard]

end Touched

/-- What a running ring has in hand at the flush time is written as far as the ring has room. -/
theorem ringFlushTimeout_of_held {k : Nat} (hrun : (dmaOf s n.val).st = .running) (hring : (dmaOf s n.val).ring = true)
    (hlen : (dmaOf s n.val).len ≠ 0) (hpull : pull n.val 63 s = s)
    (hk : k = min (ringMax s n.val 4096) (min (ringFree s n.val) (dmaOf s n.val).partials.length)) (hne : k ≠ 0) :
    ringFlushTimeout n s = ringPut n.val k s := by
  simp only [ringFlushTimeout, hpull, ← hk, if_neg hne]
  rw [if_neg (by simp [hrun, hring, hlen])]

end Registers

/-! ### Host windows (R440, R441, R628) -/

theorem guardedWrite_of_pair {page : Nat} {s : State} (hguard : sget none s.rf.guard page = none) {v c : Word} (hc : c = ~~~v)
    (f : State → State) : guardedWrite page v c f s = f s := by
  simp only [guardedWrite, hguard, if_pos hc]

theorem windowWrite_of_pf0 (f : Fin 64) (k : Fin 32) (v c : Word) (s : State) : windowWrite .pf0 f k v c s =
    guardedWrite (pgWIN f.val) v c (fun s => rset s (pgWIN f.val) (0xE00 + 4 * k.val) (v &&& winMask k.val)) s := rfl

theorem windowWrite_of_other {r : Requester} (h : r ≠ .pf0) (f : Fin 64) (k : Fin 32) (v c : Word) (s : State) :
    windowWrite r f k v c s = winDenied f.val (winDenied f.val s) := by
  simp [windowWrite, isPf0, h]

theorem regs_winDenied (f : Nat) (s : State) : (winDenied f s).rf.regs = s.rf.regs := by
  simp only [winDenied, secEvent, raise_regs, bump_rf]

theorem evPending_winDenied (f : Nat) (s : State) : evPending (winDenied f s) (pgWIN f) 1 = true :=
  evPending_raise_keep pgVLT 3 (pgWIN f) 1 (by decide) _ (evPending_raise_self (pgWIN f) 1 (by decide) _)

/-- Each refused write is one security event (R441). -/
theorem count_winDenied (f : Nat) (s : State) :
    count (winDenied f s) pgVLT 0xA1C = min (count s pgVLT 0xA1C + 1) 0xFFFFFFFF := by
  have hpage : rkey pgVLT 0xA1C ≠ rkey (pgWIN f) 0xA04 := by
    simp only [rkey, pgVLT, pgWIN]
    omega
  rw [winDenied, secEvent, count_raise (by decide), count_bump_self _ _ (by decide), count_raise (by decide),
    count_bump_other (by decide) hpage]

theorem exec_rdptrWrite (n : Fin 16) (v : Word) (s : State) : exec (.rdptrWrite n v) s = .next (rdptrWrite n v s) := rfl
theorem exec_sluiceWrite (n : Fin 16) (v : Word) (s : State) : exec (.sluiceWrite n v) s = .next (sluiceWrite n v s) := rfl
theorem exec_ringFlushTimeout (n : Fin 16) (s : State) : exec (.ringFlushTimeout n) s = .next (ringFlushTimeout n s) := rfl
theorem exec_windowWrite (r : Requester) (f : Fin 64) (k : Fin 32) (v c : Word) (s : State) :
    exec (.windowWrite r f k v c) s = .next (windowWrite r f k v c s) := rfl

/-- Settles O25: the registers by what their writes make of them, and a window's guarded word by its requester: PF0's pair sets it, the
two writes of any other are refused one after the other (`count_winDenied`). -/
theorem ringSluiceAndWindows : Obligations.RingSluiceAndWindows := by
  simp only [Obligations.RingSluiceAndWindows, exec_rdptrWrite, exec_sluiceWrite, exec_ringFlushTimeout, exec_windowWrite,
    Host.Outcome.next.injEq, exists_eq_left']
  refine ⟨fun s n v hguard => ⟨rdptrWrite_of_unguarded hguard v, sluiceWrite_of_unguarded hguard v, fun hrun hring hlen hpull hne =>
    ringFlushTimeout_of_held hrun hring hlen hpull rfl hne⟩, fun s r f k v c => ⟨fun hr hguard hc => ?pair, fun hr => ?denied⟩⟩
  case pair => rw [hr, windowWrite_of_pf0, guardedWrite_of_pair hguard hc]
  case denied =>
    rw [windowWrite_of_other hr]
    refine ⟨(regs_winDenied ..).trans (regs_winDenied ..), evPending_winDenied .., ?_⟩
    rw [count_winDenied, count_winDenied]
    omega

end Sys2Proof.Machine
end

section
/-! SUPPORT. What the network's operations leave of a queue pair and of a port, and the statements on the rates, on queue pairs made and
destroyed, and on capsules (O26, O27, O29). -/

namespace Sys2Proof.Machine

/-! ### A queue pair and a port after an update -/

/-- A queue pair that is not free reads back. -/
theorem qpOf_setQp_of_live {x : Qp} (h : x.st ≠ .free) (q : Fin 1024) (s : State) : qpOf (setQp q x s) q = x :=
  sget_sset_eq _ _ _ _ fun hx => h (congrArg Qp.st hx)

theorem live_of_rts {x : Qp} (h : x.st = .rts) : x.st ≠ .free := by simp [h]

@[simp] theorem qpOf_bump (p o n : Nat) (s : State) (q : Fin 1024) : qpOf (bump p o n s) q = qpOf s q := rfl
@[simp] theorem rbit_bump (p o n : Nat) (s : State) (page off i : Nat) : rbit (bump p o n s) page off i = rbit s page off i := rfl

/-- A packet, sent, held back or lost, leaves every queue pair as it is. -/
@[simp] theorem qps_txFrame (q : Fin 1024) (p : Packet) (s : State) : (txFrame q p s).net.qps = s.net.qps := by
  unfold txFrame
  dsimp only
  split
  · rfl
  · split <;> rfl

@[simp] theorem qpOf_txFrame (q : Fin 1024) (p : Packet) (s : State) (r : Fin 1024) : qpOf (txFrame q p s) r = qpOf s r := by
  simp only [qpOf, qps_txFrame]

/-! ### Congestion control (R472) -/

section Rates
variable {s : State} {q : Fin 1024} (hrts : (qpOf s q).st = .rts) (hpace : rbit s (pgNET (qpOf s q).port.val) 0x114 0 = true)
include hrts hpace

theorem cnpReceived_of_paced : cnpReceived q s = setQp q
    { qpOf s q with rt := (qpOf s q).rc, rc := max ((qpOf s q).rc * (1 - (qpOf s q).alpha / 2)) (rmin s (qpOf s q).port.val),
                    alpha := (qpOf s q).alpha * 255 / 256 + 1 / 256, n := 0 } (bump (pgNET (qpOf s q).port.val) 0xA20 1 s) := by
  have hgo : ¬ ((qpOf s q).st ≠ .rts ∨
      (!rbit (bump (pgNET (qpOf s q).port.val) 0xA20 1 s) (pgNET (qpOf s q).port.val) 0x114 0) = true) := by
    simpa [hrts] using hpace
  simp only [cnpReceived, if_neg (live_of_rts hrts), if_neg hgo]
  rfl

theorem rateIncreaseTimer_of_paced {rt : Rat}
    (hrt : rt = if 5 ≤ (qpOf s q).n then min ((qpOf s q).rt + rai s (qpOf s q).port.val) 100000 else (qpOf s q).rt) :
    rateIncreaseTimer q s = setQp q { qpOf s q with alpha := (qpOf s q).alpha * 255 / 256, n := (qpOf s q).n + 1, rt := rt,
                                                    rc := ((qpOf s q).rc + rt) / 2 } s := by
  simp only [rateIncreaseTimer, hrts, hpace, Nat.lt_succ_iff, ← hrt]
  simp

end Rates

theorem exec_cnpReceived (q : Fin 1024) (s : State) : exec (.cnpReceived q) s = .next (cnpReceived q s) := rfl
theorem exec_rateIncreaseTimer (q : Fin 1024) (s : State) : exec (.rateIncreaseTimer q) s = .next (rateIncreaseTimer q s) := rfl

/-- Settles O29: a CNP and a timer period by what they make of the context of a QP that is paced. -/
theorem ratesFollowCnps : Obligations.RatesFollowCnps := by
  simp only [Obligations.RatesFollowCnps, exec_cnpReceived, exec_rateIncreaseTimer, Host.Outcome.next.injEq]
  exact fun s q hrts hpace => ⟨cnpReceived_of_paced hrts hpace, rateIncreaseTimer_of_paced hrts hpace rfl⟩

/-! ### Creating and freeing queue pairs (R459, R460, R462) -/

section Create
variable {s : State} {q : Fin 1024} (hguard : sget none s.rf.guard pgQP = none)
include hguard

theorem qpCreate_of_accepted (h : qpCode s q (stagedQp s) = none) :
    qpCreate .pf0 q s = raise pgQP 0 (qpres q.val false 0 (setQp q (stagedQp s) s)) := by
  simp [qpCreate, isPf0, touchPage_none hguard, h]

variable (hidle : s.net.qopBusy = false)
include hidle

theorem qpCreate_of_refused {code : Nat} (h : qpCode s q (stagedQp s) = some code) :
    qpCreate .pf0 q s = raise pgQP 1 (qpres q.val false code s) := by
  simp [qpCreate, isPf0, touchPage_none hguard, h, qpReject, hidle]

theorem qpFree_of_error (h : (qpOf s q).st = .error) : qpFree .pf0 q s = raise pgQP 0 (qpres q.val false 0 (setQp q {} s)) := by
  simp [qpFree, isPf0, touchPage_none hguard, hidle, h]

end Create

theorem exec_qpCreate (r : Requester) (q : Fin 1024) (s : State) : exec (.qpCreate r q) s = .next (qpCreate r q s) := rfl
theorem exec_qpDestroy (r : Requester) (q : Fin 1024) (s : State) : exec (.qpDestroy r q) s = .next (qpDestroy r q s) := rfl
theorem exec_qpFree (r : Requester) (q : Fin 1024) (s : State) : exec (.qpFree r q) s = .next (qpFree r q s) := rfl

/-- No requester but PF0 operates on a QP (R459, R628). -/
theorem exec_qpOperation_of_other {r : Requester} (hr : r ≠ .pf0) {q : Fin 1024} {i : Instr}
    (hi : i = .qpCreate r q ∨ i = .qpDestroy r q ∨ i = .qpFree r q) (s : State) : exec i s = .next (secEvent (raise pgQP 3 s)) := by
  have hpf0 : (!isPf0 r) = true := by simp [isPf0, hr]
  rcases hi with rfl | rfl | rfl
  · rw [exec_qpCreate, qpCreate, if_pos hpf0, qpDenied]
  · rw [exec_qpDestroy, qpDestroy, if_pos hpf0, qpDenied]
  · rw [exec_qpFree, qpFree, if_pos hpf0, qpDenied]

/-! ### Destroying a queue pair (R378, R462) -/

/-- An event of another page than a function's signals nothing (R613). -/
theorem raise_out {page : Nat} (h : page < 0x040) (b : Nat) (s : State) : (raise page b s).out = s.out := by
  have hnew : ∀ seq u, (logEv.logNew page b seq u).out = u.out := by
    intro seq u
    unfold logEv.logNew
    dsimp only
    split <;> rfl
  have hlog : ∀ seq u, (logEv page b seq u).out = u.out := by
    intro seq u
    unfold logEv
    split
    · split
      · rfl
      · exact hnew seq u
    · exact hnew seq u
  rw [raise, msixOnRise, if_neg (by omega), hlog]

theorem postReady_of_none {s : State} (h : s.host.cmds = []) : postReady s = s := by
  rw [postReady, h, postScan, ite_self]

/-- A QP that is being destroyed is free once none of its commands is left, here with no completion to send first. -/
theorem drainCheck_of_drained {s : State} {q : Fin 1024} (hdest : (qpOf s q).dest = true) (hcmds : s.host.cmds = [])
    (hheld : (qpOf s q).heldCpl = []) :
    drainCheck (.net q) s = raise pgQP 0 (qpres q.val false 0 (setQp q {} { s with net.qopBusy := false })) := by
  have hsend : sendCapsule q s = s := by rw [sendCapsule, if_pos (.inl hheld)]
  simp only [drainCheck, hdest, hcmds, hsend, List.any_nil, Bool.not_false, or_true, and_self, if_true]

/-- A QP that has just been told to end: no capsule of it waits, and the operation is busy. -/
def qpStopped (q : Fin 1024) (s : State) : State :=
  setQp q { qpOf s q with dest := true, caps := [] } { qpres q.val true 0 s with net.qopBusy := true }

theorem qpDestroy_of_live {s : State} {q : Fin 1024} (hguard : sget none s.rf.guard pgQP = none) (hidle : s.net.qopBusy = false)
    (hlive : (qpOf s q).st ≠ .free) : qpDestroy .pf0 q s = drainCheck (.net q)
      (metered (fun u => postReady (releaseQueue (.net q) (qpOf s q).polder.val u))
        (metered (endSilently (unstartedOf (.net q))) (qpStopped q s))) := by
  have hpf0 : ¬ (!isPf0 .pf0) = true := by decide
  have hbusy : ¬ s.net.qopBusy = true := by simp [hidle]
  rw [qpDestroy, if_neg hpf0]
  simp only [touchPage_none hguard, if_neg hbusy, if_neg hlive]
  rfl

/-- Where all commands are a queue's unstarted ones, and it holds no opening, their end leaves no command. -/
theorem end_of_unstarted {src : Src} {s : State} (hcmds : ∀ c ∈ s.host.cmds, unstartedOf src c = true)
    (hopens : ∀ o ∈ s.host.opens, o.src ≠ src) (pol : Nat) : ∃ m,
      metered (fun u => postReady (releaseQueue src pol u)) (metered (endSilently (unstartedOf src)) s) =
        { s with host.cmds := [], vlt.meters := m } := by
  have hend : endSilently (unstartedOf src) s = { s with host.cmds := [] } := by
    rw [endSilently, List.filter_eq_nil_iff.2 fun c hc => by simp [hcmds c hc]]
  obtain ⟨m, hm⟩ := meterCmds_meters s.host.cmds (endSilently (unstartedOf src) s)
  have hu : metered (endSilently (unstartedOf src)) s = { s with host.cmds := [], vlt.meters := m } := by rw [metered, hm, hend]
  have hrelease := releaseQueue_of_unopened (s := { s with host.cmds := [], vlt.meters := m }) pol hopens
  obtain ⟨m', hm'⟩ := meterCmds_meters [] { s with host.cmds := [], vlt.meters := m }
  exact ⟨m', by rw [hu, metered, hrelease, postReady_of_none rfl, hm']⟩

theorem qpDestroy_effect {s : State} {q : Fin 1024} (hguard : sget none s.rf.guard pgQP = none) (hidle : s.net.qopBusy = false)
    (hlive : (qpOf s q).st ≠ .free) (hcmds : ∀ c ∈ s.host.cmds, unstartedOf (.net q) c = true)
    (hopens : ∀ o ∈ s.host.opens, o.src ≠ .net q) (hheld : (qpOf s q).heldCpl = [])
    (hqps : swf (fun _ => ({} : Qp)) s.net.qps = true) :
    (qpDestroy .pf0 q s).host.cmds = [] ∧ (qpDestroy .pf0 q s).net.qopBusy = false ∧ qpOf (qpDestroy .pf0 q s) q = {} ∧
      evPending (qpDestroy .pf0 q s) pgQP 0 = true ∧ (qpDestroy .pf0 q s).out = s.out := by
  have hstop : qpOf (qpStopped q s) q = { qpOf s q with dest := true, caps := [] } :=
    qpOf_setQp_of_live (x := { qpOf s q with dest := true, caps := [] }) hlive _ _
  obtain ⟨m, hm⟩ := end_of_unstarted (s := qpStopped q s) hcmds hopens (qpOf s q).polder.val
  have hdrain := drainCheck_of_drained (s := { qpStopped q s with host.cmds := [], vlt.meters := m }) (q := q)
    (congrArg Qp.dest hstop) rfl ((congrArg Qp.heldCpl hstop).trans hheld)
  rw [qpDestroy_of_live hguard hidle hlive, hm, hdrain]
  refine ⟨by rw [raise_host]; rfl, by rw [raise_net]; rfl, ?_, evPending_raise_self pgQP 0 (by decide) _,
    by rw [raise_out (by decide)]; rfl⟩
  rw [qpOf, raise_net]
  exact sget_sset_self (fun _ => ({} : Qp)) (swf_sset (fun _ => ({} : Qp)) hqps q.val _) q.val {}

theorem st_stagedQp (s : State) : (stagedQp s).st = .rts := rfl

/-- Settles O26: an operation by the code it meets, or by the first check for a requester other than PF0; a destruction ends the commands
(`end_of_unstarted`), and a QP with no command left is free (`drainCheck_of_drained`). -/
theorem qpOperations : Obligations.QpOperations := by
  simp only [Obligations.QpOperations, exec_qpCreate, exec_qpDestroy, exec_qpFree, Host.Outcome.next.injEq, exists_eq_left']
  refine ⟨fun s r q hguard => ⟨?create, ?refuse, ?free, fun hr i hi => exec_qpOperation_of_other hr hi s⟩, ?destroy⟩
  case create => exact fun hr h => ⟨hr ▸ qpCreate_of_accepted hguard h, st_stagedQp s⟩
  case refuse => exact fun hr hidle code h => hr ▸ qpCreate_of_refused hguard hidle h
  case free => exact fun hr hidle h => hr ▸ qpFree_of_error hguard hidle h
  case destroy =>
    intro s q hguard hidle hrts hown hnew hopens hheld hqps
    refine qpDestroy_effect hguard hidle (live_of_rts hrts) (fun c hc => ?_) hopens hheld hqps
    obtain ⟨hst, hfin⟩ := hnew c hc
    simp [unstartedOf, hown c hc, hst, hfin]

/-! ### Command capsules (R378, R462, R466, R468, R474) -/

section Capsule
variable {s : State} {q : Fin 1024} {cap : Capsule} (hrts : (qpOf s q).st = .rts)

theorem commandCapsule_of_destroyed (hdest : (qpOf s q).dest = true) : commandCapsule q cap s = s := by
  rw [commandCapsule, if_pos (.inr hdest)]

/-- A QP's context when it has accepted a capsule. -/
def Qp.accept (x : Qp) : Qp := { x with accepted := x.accepted + 1, outst := x.outst + 1, rpsn := x.rpsn + 1 }

/-- A capsule is acknowledged, and the QP has the context `y`. -/
def ackCapsule (q : Fin 1024) (y : Qp) (s : State) : State :=
  bump pgQP 0xA00 1 (txFrame q (.ack q (qpOf s q).rpsn) (setQp q y s))

variable (hlen : cap.len = 80) (hdest : (qpOf s q).dest = false)
include hrts hlen hdest

theorem commandCapsule_of_full (hfull : (qpOf s q).qdepth ≤ (qpOf s q).outst) :
    commandCapsule q cap s = bump pgQP 0xA0C 1 (txFrame q (.nak q .rnrNak (qpOf s q).minRnr) s) := by
  rw [commandCapsule, if_neg (by simp [hrts, hdest]), if_neg (by simp [hlen]), if_pos hfull, sendNak]

variable (hroom : (qpOf s q).outst < (qpOf s q).qdepth)
include hroom

theorem commandCapsule_of_room : commandCapsule q cap s =
    if cap.body.sqe.opc = 0x0C ∧ !fetchHalted s then takeCapsule q (qpOf s q).polder cap (ackCapsule q (qpOf s q).accept s)
    else ackCapsule q { (qpOf s q).accept with caps := (qpOf s q).caps ++ [cap] } s := by
  rw [commandCapsule, if_neg (by simp [hrts, hdest]), if_neg (by simp [hlen]), if_neg (Nat.not_le.2 hroom)]
  by_cases hnow : cap.body.sqe.opc = 0x0C ∧ (!fetchHalted s) = true
  · simp only [if_pos hnow]
    rfl
  · simp only [if_neg hnow]
    rfl

theorem commandCapsule_of_waiting (hwait : cap.body.sqe.opc ≠ 0x0C ∨ fetchHalted s = true) :
    commandCapsule q cap s = ackCapsule q { (qpOf s q).accept with caps := (qpOf s q).caps ++ [cap] } s := by
  have hnow : ¬ (cap.body.sqe.opc = 0x0C ∧ (!fetchHalted s) = true) := by
    rw [not_and_or]
    exact hwait.imp_right (by simp)
  rw [commandCapsule_of_room hrts hlen hdest hroom, if_neg hnow]

theorem commandCapsule_of_abort (hopc : cap.body.sqe.opc = 0x0C) (hrun : fetchHalted s = false) :
    commandCapsule q cap s = takeCapsule q (qpOf s q).polder cap (ackCapsule q (qpOf s q).accept s) := by
  rw [commandCapsule_of_room hrts hlen hdest hroom, if_pos ⟨hopc, by simp [hrun]⟩]

end Capsule

/-! ### Completion capsules (R455, R470) -/

/-- A QP's context when its held completions have gone out (R470). -/
def Qp.sentHeld (x : Qp) : Qp := { x with heldCpl := [], sentCpl := x.sentCpl ++ [(x.psn, x.heldCpl)], psn := x.psn + 1 }

section Send
variable {s : State} {q : Fin 1024} (hrts : (qpOf s q).st = .rts) (hheld : (qpOf s q).heldCpl ≠ [])
include hrts hheld

theorem sendCapsule_of_held : sendCapsule q s =
    bump pgQP 0xA04 1 (txFrame q (.capsule q (capsuleBytes (qpOf s q).heldCpl)) (setQp q (qpOf s q).sentHeld s)) := by
  rw [sendCapsule, if_neg (by simp [hrts, hheld])]
  rfl

theorem qpOf_sendCapsule_of_held : qpOf (sendCapsule q s) q = (qpOf s q).sentHeld := by
  rw [sendCapsule_of_held hrts hheld, qpOf_bump, qpOf_txFrame]
  exact qpOf_setQp_of_live (x := (qpOf s q).sentHeld) (live_of_rts hrts) q s

end Send

/-- A packet leaves at once over a port that may send (R473, R474, R456). -/
theorem txFrame_of_open {s : State} {q : Fin 1024} (hfence : portFenced s (qpOf s q).port = false)
    (hup : (portOf s (qpOf s q).port).linkUp = true) (hgo : (portOf s (qpOf s q).port).held = false) (p : Packet) :
    txFrame q p s = sendPacket (qpOf s q).port (packetHead s q p, p) s := by
  have hopen : ¬ (isFenced s (0x9000 + (qpOf s q).port.val) = true ∨ (!(portOf s (qpOf s q).port).linkUp) = true) := by
    rw [portFenced] at hfence
    simp [hfence, hup]
  simp only [txFrame, if_neg hopen, hgo, Bool.false_eq_true, if_false]

/-- The headers of a QP's packets that are the device's own (R455). -/
theorem packetHead_fields (s : State) (q : Fin 1024) (p : Packet) : (packetHead s q p).dport = 4791 ∧ (packetHead s q p).ecn = 2 ∧
    (packetHead s q p).sport.toNat = 0xC000 + q.val ∧ (packetHead s q p).dqpn = (qpOf s q).dqpn := by
  refine ⟨rfl, rfl, ?_, rfl⟩
  exact (BitVec.toNat_ofNat ..).trans (Nat.mod_eq_of_lt (by omega))

/-- A packet counts on the page of its port alone. -/
theorem count_txFrame (q : Fin 1024) (p : Packet) (s : State) (off : Nat) : count (txFrame q p s) pgQP off = count s pgQP off := by
  have hpage : ∀ k : Fin 2, rkey pgQP off ≠ rkey (pgNET k.val) 0xA08 := by
    intro k
    simp only [rkey, pgQP, pgNET]
    omega
  unfold txFrame
  dsimp only
  split
  · rfl
  · split
    · rfl
    · exact sget_sset_ne _ _ _ _ _ (by dsimp only; omega) (hpage _)

section Timeout
variable {s : State} {q : Fin 1024} (hrts : (qpOf s q).st = .rts) (hheld : (qpOf s q).heldCpl ≠ [])
include hrts hheld

/-- Over a port that may send, the held completions leave in one capsule. -/
theorem sendCapsule_out (hfence : portFenced s (qpOf s q).port = false) (hup : (portOf s (qpOf s q).port).linkUp = true)
    (hgo : (portOf s (qpOf s q).port).held = false) :
    ∃ head, (sendCapsule q s).out = .packet (qpOf s q).port head (.capsule q (capsuleBytes (qpOf s q).heldCpl)) :: s.out ∧
      head.dport = 4791 ∧ head.ecn = 2 ∧ head.sport.toNat = 0xC000 + q.val ∧ head.dqpn = (qpOf s q).dqpn := by
  have hq : qpOf (setQp q (qpOf s q).sentHeld s) q = (qpOf s q).sentHeld :=
    qpOf_setQp_of_live (x := (qpOf s q).sentHeld) (live_of_rts hrts) q s
  have hport : (qpOf (setQp q (qpOf s q).sentHeld s) q).port = (qpOf s q).port := by rw [hq]; rfl
  have hdqpn : (qpOf (setQp q (qpOf s q).sentHeld s) q).dqpn = (qpOf s q).dqpn := by rw [hq]; rfl
  obtain ⟨hdport, hecn, hsport, hhead⟩ :=
    packetHead_fields (setQp q (qpOf s q).sentHeld s) q (.capsule q (capsuleBytes (qpOf s q).heldCpl))
  refine ⟨_, ?_, hdport, hecn, hsport, hhead.trans hdqpn⟩
  have hsend := txFrame_of_open (s := setQp q (qpOf s q).sentHeld s) (q := q) (by rw [hport]; exact hfence) (by rw [hport]; exact hup)
    (by rw [hport]; exact hgo)
  rw [sendCapsule_of_held hrts hheld, hsend, hport]
  rfl

theorem count_sendCapsule : count (sendCapsule q s) pgQP 0xA04 = min (count s pgQP 0xA04 + 1) 0xFFFFFFFF := by
  rw [sendCapsule_of_held hrts hheld, count_bump_self _ _ (by decide), count_txFrame]
  rfl

end Timeout

theorem exec_commandCapsule (q : Fin 1024) (cap : Capsule) (s : State) :
    exec (.commandCapsule q cap) s = .next (commandCapsule q cap s) := rfl
theorem exec_completionCapsuleTimeout (q : Fin 1024) (s : State) :
    exec (.completionCapsuleTimeout q) s = .next (sendCapsule q s) := rfl

/-- Settles O27: a capsule by the state of its QP and its opcode, and the timeout by the capsule that it sends. -/
theorem capsulesAndCompletions : Obligations.CapsulesAndCompletions := by
  simp only [Obligations.CapsulesAndCompletions, exec_commandCapsule, exec_completionCapsuleTimeout, Host.Outcome.next.injEq,
    exists_eq_left']
  exact ⟨fun s q cap hrts hlen => ⟨commandCapsule_of_destroyed, fun hdest hroom =>
      ⟨commandCapsule_of_waiting hrts hlen hdest hroom, commandCapsule_of_abort hrts hlen hdest hroom⟩,
      commandCapsule_of_full hrts hlen⟩,
    fun s q hrts hheld => ⟨sendCapsule_out hrts hheld, qpOf_sendCapsule_of_held hrts hheld, count_sendCapsule hrts hheld⟩⟩

end Sys2Proof.Machine
end

section
/-! SUPPORT. What loss recovery makes of a queue pair, what one that has entered error keeps while its commands end, and the statement on
them (O28). -/

namespace Sys2Proof.Machine

/-! ### Acknowledgements, timeouts and READ responses (R464, R465) -/

section Recovery
variable {s : State} {q : Fin 1024}

/-- An acknowledgement of outstanding packets. -/
theorem retire_of_outstanding {p : BitVec 24} (hnear : (p - (qpOf s q).una).toNat < 2 ^ 23)
    (hsent : (p - (qpOf s q).una).toNat < ((qpOf s q).psn - (qpOf s q).una).toNat) {y : Qp}
    (hy : y = { qpOf s q with una := p + 1, retries := 0, rnrs := 0 }) :
    retire q p s = metered postReady (setQp q { y with sentCpl := (qpOf s q).sentCpl.filter (fun e => !psnAcked y e.1) } s) := by
  rw [retire, if_neg (by omega), hy]

variable (hrts : (qpOf s q).st = .rts)
include hrts

theorem acknowledge_ack (p : BitVec 24) : acknowledge q .ack p s = retire q p s := by
  rw [acknowledge, if_neg (by simp [hrts])]

theorem ackTimeout_of_outstanding (hout : (qpOf s q).una ≠ (qpOf s q).psn) : ackTimeout q s =
    if (qpOf s q).retryMax ≤ (qpOf s q).retries then qpError q 1 s
    else goBack q (setQp q { qpOf s q with retries := (qpOf s q).retries + 1 } s) := by
  rw [ackTimeout, if_neg (by simp [hrts, hout])]

theorem rnrRetry_of_waiting (hwait : (qpOf s q).rnrWait = true) (hleft : (qpOf s q).rnrs < (qpOf s q).rnrMax) :
    rnrRetry q s = goBack q (setQp q { qpOf s q with rnrs := (qpOf s q).rnrs + 1, rnrWait := false } s) := by
  rw [rnrRetry, if_neg (by simp [hrts, hwait]), if_neg (by omega)]

/-- A response in PSN order that leaves more of the oldest READ to come. -/
theorem rdmaReadResponse_of_part {p : BitVec 24} {n : Nat} {record : Bool} {rest : List (BitVec 24 × Nat × Bool)} {bs : List Byte}
    (hreq : (qpOf s q).rdReqs = (p, n, record) :: rest) (hpart : bs.length < n) : rdmaReadResponse q p bs s =
      retire q p (setQp q { qpOf s q with rdReqs := (p + 1, n - bs.length, record) :: rest,
                                          rdData := if record then (qpOf s q).rdData ++ bs else (qpOf s q).rdData } s) := by
  have hmore : ¬ n - bs.length = 0 := by omega
  rw [rdmaReadResponse]
  simp only [hreq]
  rw [if_neg (by simp [hrts]; omega)]
  simp only [if_neg hmore]

end Recovery

/-! ### What leaves the queue pairs and the commands as they are

Each operation of the model has one lemma: `qpsCmds_f` says that `f` leaves both lists. -/

/-- The queue pairs' contexts and the commands. -/
def qpsCmds (s : State) : Sparse Qp × List Cmd := (s.net.qps, s.host.cmds)

@[simp] theorem qpsCmds_mk (v rf clk pins host dma m net ts vlt rcd bas cart trk tim mot trc lat itg top p hwl out q) :
    qpsCmds ⟨v, rf, clk, pins, host, dma, m, net, ts, vlt, rcd, bas, cart, trk, tim, mot, trc, lat, itg, top, p, hwl, out, q⟩ =
      (net.qps, host.cmds) := (rfl)

@[simp] theorem eq_qpsCmds (s : State) : (s.net.qps, s.host.cmds) = qpsCmds s := (rfl)

@[simp] theorem qpsCmds_raise (p b : Nat) (s : State) : qpsCmds (raise p b s) = qpsCmds s := by
  simp only [qpsCmds, raise_net, raise_host]

@[simp] theorem qpsCmds_meterCmds (before : List Cmd) (s : State) : qpsCmds (meterCmds before s) = qpsCmds s := by
  obtain ⟨_, hm⟩ := meterCmds_meters before s
  rw [hm]
  rfl

@[simp] theorem qpsCmds_txFrame (q : Fin 1024) (p : Packet) (s : State) : qpsCmds (txFrame q p s) = qpsCmds s := by
  unfold txFrame
  dsimp only
  split
  · rfl
  · split <;> rfl

@[simp] theorem qpsCmds_signalPair (f : Fin 64) (q : Fin 16) (s : State) : qpsCmds (signalPair f q s) = qpsCmds s := by
  unfold signalPair
  dsimp only
  split <;> rfl

@[simp] theorem qpsCmds_winFaultPair (f : Fin 64) (q : Fin 16) (a : Nat) (wr : Bool) (kind : Nat) (s : State) :
    qpsCmds (winFaultPair f q a wr kind s) = qpsCmds s := qpsCmds_raise ..

@[simp] theorem qpsCmds_postPcie (f : Fin 64) (q : Fin 16) (c : Cmd) (st : BitVec 16) (res : BitVec 64) (s : State) :
    qpsCmds (postPcie f q c st res s) = qpsCmds s := by
  unfold postPcie
  dsimp only
  split
  · rfl
  · split
    · exact qpsCmds_winFaultPair ..
    · rw [qpsCmds_signalPair]
      split <;> rfl

@[simp] theorem qpsCmds_logError (s : State) (c : Cmd) (st : BitVec 16) (res : BitVec 64) : qpsCmds (logError s c st res) = qpsCmds s := by
  unfold logError
  dsimp only
  split <;> rfl

@[simp] theorem qpsCmds_setRiq (p : Nat) (r : Riq) (s : State) : qpsCmds (setRiq p r s) = qpsCmds s := (rfl)

@[simp] theorem qpsCmds_setPart (p : Nat) (f : PartEntry → PartEntry) (s : State) : qpsCmds (setPart p f s) = qpsCmds s := by
  unfold setPart
  split <;> rfl

@[simp] theorem qpsCmds_closeFilling (part : Nat) (s : State) : qpsCmds (closeFilling part s) = qpsCmds s := by
  have hone : ∀ i u, qpsCmds (fillFull part i u) = qpsCmds u := by
    intro i u
    unfold fillFull noteFull
    split
    · split <;> rfl
    · rfl
  unfold closeFilling
  generalize (slotsIn s part .filling).map (·.1) = l
  induction l generalizing s with
  | nil => rfl
  | cons i r ih => rw [foldNat, ih, hone]

@[simp] theorem qpsCmds_marksBelow (s : State) (part lrn : Nat) : qpsCmds (marksBelow s part lrn).2 = qpsCmds s := by
  unfold marksBelow
  split
  · rfl
  · dsimp only
    split <;> rfl

@[simp] theorem qpsCmds_truncatePart (part l : Nat) (s : State) : qpsCmds (truncatePart part l s) = qpsCmds s := by
  unfold truncatePart
  dsimp only
  split <;> simp

@[simp] theorem qpsCmds_takeBack (part put : Nat) (s : State) : qpsCmds (takeBack part put s).2 = qpsCmds s := by
  unfold takeBack
  split
  · split <;> rfl
  · rfl

@[simp] theorem qpsCmds_dropGroups (p : Nat) (s : State) : qpsCmds (dropGroups p s) = qpsCmds s := by
  unfold dropGroups freeFor
  obtain ⟨_, _, _, hfree⟩ := freeBufs_pools _ _
  rw [hfree]
  rfl

@[simp] theorem qpsCmds_rollback (p part l : Nat) (s : State) : qpsCmds (rollback p part l s) = qpsCmds s := by
  unfold rollback
  dsimp only
  split <;> simp

@[simp] theorem qpsCmds_emptyRiq (p : Nat) (report : Bool) (s : State) : qpsCmds (emptyRiq p report s) = qpsCmds s := by
  simp [emptyRiq]

/-! ### A queue pair that has entered error (R461, R462)

While its commands end, and while a flush ends others, it stays in DRAINING or ERROR: a completion of its own is not sent any more, and
what another QP of the list becomes leaves its context. -/

/-- A context after the entry into error, before it is free again. -/
structure Qp.Failed (cause : BitVec 4) (x : Qp) : Prop where
  cause : x.cause = cause
  ended : x.st = .draining ∨ x.st = .error
  caps : x.caps = []
  dest : x.dest = false

theorem Qp.Failed.st_ne_rts {cause : BitVec 4} {x : Qp} (h : x.Failed cause) : x.st ≠ .rts := by
  rcases h.ended with hst | hst <;> simp [hst]

theorem Qp.Failed.listed {cause : BitVec 4} {x : Qp} (h : x.Failed cause) : x ≠ {} := by
  rintro rfl
  rcases h.ended with hst | hst <;> cases hst

/-- QP `q` has failed with a cause, and no unstarted command of it is left. -/
structure QpFailed (q : Fin 1024) (cause : BitVec 4) (s : State) : Prop where
  context : (qpOf s q).Failed cause
  cmds : ∀ c ∈ s.host.cmds, unstartedOf (.net q) c = false

namespace QpFailed

section Steps
variable {q : Fin 1024} {cause : BitVec 4} {s t : State} (h : QpFailed q cause s)
include h

theorem of_eq (ht : qpsCmds t = qpsCmds s) : QpFailed q cause t := by
  obtain ⟨hqps, hcmds⟩ := Prod.mk.inj ht
  exact ⟨by rw [qpOf, hqps]; exact h.context, hcmds ▸ h.cmds⟩

theorem ite {c : Prop} [Decidable c] (h' : QpFailed q cause t) : QpFailed q cause (if c then s else t) := by split <;> assumption

/-- Another QP takes any context, the failed one another failed one. -/
theorem setQp {r : Fin 1024} {x : Qp} (hx : r = q → x.Failed cause) : QpFailed q cause (setQp r x s) := by
  refine ⟨?_, h.cmds⟩
  by_cases hr : r = q
  · subst hr
    rw [qpOf, setQp_net, sget_sset_eq _ _ _ _ (hx rfl).listed]
    exact hx rfl
  · have hother : qpOf (Machine.setQp r x s) q = qpOf s q :=
      sget_sset_of_listed h.context.listed (fun hq => hr (Fin.ext hq.symm)) _
    rw [hother]
    exact h.context

theorem filterCmds (p : Cmd → Bool) : QpFailed q cause { s with host.cmds := s.host.cmds.filter p } :=
  ⟨h.context, fun c hc => h.cmds c (List.mem_of_mem_filter hc)⟩

/-- Commands change, and none comes to be an unstarted one of the QP. -/
theorem mapCmds {f : Cmd → Cmd} (hf : ∀ c, unstartedOf (.net q) c = false → unstartedOf (.net q) (f c) = false) :
    QpFailed q cause { s with host.cmds := s.host.cmds.map f } := by
  refine ⟨h.context, fun c hc => ?_⟩
  obtain ⟨d, hd, rfl⟩ := List.mem_map.1 hc
  exact hf d (h.cmds d hd)

theorem ne_of_rts {r : Fin 1024} (hr : (qpOf s r).st = .rts) : r ≠ q := fun hrq => h.context.st_ne_rts (hrq ▸ hr)

theorem sendCapsule (r : Fin 1024) : QpFailed q cause (sendCapsule r s) := by
  unfold Machine.sendCapsule
  dsimp only
  split
  · exact h
  · next hgo =>
    have hrts : (qpOf s r).st = .rts := by simpa using fun hst => hgo (.inr hst)
    refine of_eq (h.setQp (r := r) fun hr => absurd hr (h.ne_of_rts hrts)) (qpsCmds_txFrame ..)

theorem postNet (r : Fin 1024) (c : Cmd) (st : BitVec 16) (res : BitVec 64) : QpFailed q cause (postNet r c st res s) := by
  unfold Machine.postNet netPost
  dsimp only
  split
  · exact h.setQp fun hr => hr ▸ { h.context with }
  · next hrts =>
    have hset : ∀ x, QpFailed q cause (Machine.setQp r x s) := fun x =>
      h.setQp fun hr => absurd hr (h.ne_of_rts (not_not.1 hrts))
    exact ite ((hset _).sendCapsule r) (hset _)

theorem drainCheck (src : Src) : QpFailed q cause (drainCheck src s) := by
  unfold Machine.drainCheck
  dsimp only
  split
  · exact h
  · next r =>
    split
    · split
      · next hdest =>
        have hr : r ≠ q := fun hr => by simp [hr, h.context.dest] at hdest
        have hidle : QpFailed q cause { Machine.sendCapsule r s with net.qopBusy := false } := (h.sendCapsule r).of_eq rfl
        exact of_eq (hidle.setQp (x := {}) fun he => absurd he hr) (qpsCmds_raise ..)
      · exact h.setQp fun hr => hr ▸ { h.context with ended := .inr rfl }
    · exact h

theorem postOne (c : Cmd) (st : BitVec 16) (res : BitVec 64) : QpFailed q cause (postOne c st res s) := by
  have hdrop : QpFailed q cause (dropCmd c.handle s) := h.filterCmds _
  unfold Machine.postOne
  dsimp only
  refine drainCheck (ite hdrop (of_eq ?_ (qpsCmds_logError ..))) c.src
  split
  · exact hdrop.of_eq (qpsCmds_postPcie ..)
  · exact hdrop.postNet ..

theorem postScan (l : List Cmd) (blk : List Src) : QpFailed q cause (postScan l blk s) := by
  induction l generalizing blk s with
  | nil => exact h
  | cons c r ih =>
    unfold Machine.postScan
    split
    · exact ih h _
    · exact ite (ih (h.postOne ..) _) (ih h _)

theorem postReady : QpFailed q cause (postReady s) := ite h (h.postScan ..)

theorem finishAll (p : Cmd → Bool) (st : BitVec 16) (res : BitVec 64) : QpFailed q cause (finishAll p st res s) := by
  refine postReady (h.mapCmds fun c hc => ?_)
  rw [unstartedOf_eq_false] at hc ⊢
  split
  · exact .inr (.inr (by simp))
  · exact hc

theorem flushRiq (p : Nat) (report : Bool) (holds : Cmd → Bool) (st : BitVec 16) : QpFailed q cause (flushRiq p report holds st s) := by
  have hbump : QpFailed q cause (bump (pgRIQ p) 0xA24 1 s) := h.of_eq rfl
  have hraise : ∀ (c : Prop) [Decidable c] (b : Nat) {u : State}, QpFailed q cause u →
      QpFailed q cause (if c then raise (pgRIQ p) b u else u) := fun c _ b u hu => ite (hu.of_eq (qpsCmds_raise ..)) hu
  unfold Machine.flushRiq
  dsimp only
  cases (riqOf (bump (pgRIQ p) 0xA24 1 s) p).part with
  | none => exact hraise _ _ (hbump.of_eq (qpsCmds_emptyRiq ..))
  | some r =>
    have hempty : ∀ l, QpFailed q cause (emptyRiq p report (rollback p r.val l (bump (pgRIQ p) 0xA24 1 s))) :=
      fun l => hbump.of_eq (by rw [qpsCmds_emptyRiq, qpsCmds_rollback])
    exact ((hraise _ _ (hempty _)).finishAll ..).finishAll ..

theorem releaseQueue (src : Src) (pol : Nat) : QpFailed q cause (releaseQueue src pol s) := by
  have hflush : QpFailed q cause (Machine.flushRiq pol false (fun _ => false) stABORTED s) := h.flushRiq ..
  unfold Machine.releaseQueue
  dsimp only
  split
  · exact hflush.of_eq rfl
  · exact h.of_eq rfl

omit h in
theorem metered {f : State → State} (hf : QpFailed q cause (f s)) : QpFailed q cause (metered f s) := hf.of_eq (qpsCmds_meterCmds ..)

end Steps

end QpFailed

/-! ### The entry into error -/

/-- The context with which a QP enters error. -/
def Qp.failing (cause : Nat) (x : Qp) : Qp :=
  { x with st := .draining, cause := BitVec.ofNat 4 cause, caps := [], heldCpl := [], rdReqs := [], rdData := [], rnrWait := false }

theorem failed_failing {x : Qp} (hdest : x.dest = false) (cause : Nat) : (x.failing cause).Failed (BitVec.ofNat 4 cause) :=
  ⟨rfl, .inl rfl, rfl, hdest⟩

/-- Where the unstarted commands of a QP that has failed end, none is left. -/
theorem qpFailed_endSilently {s : State} {q : Fin 1024} {cause : BitVec 4} (h : (qpOf s q).Failed cause) :
    QpFailed q cause (endSilently (unstartedOf (.net q)) s) :=
  ⟨h, fun c hc => by simpa using (List.mem_filter.1 hc).2⟩

/-- The started commands of a queue go on, and end without a completion. -/
def silence (src : Src) (s : State) : State :=
  { s with host.cmds := s.host.cmds.map (fun c => if c.src = src then { c with silent := true } else c) }

theorem QpFailed.silence {s : State} {q : Fin 1024} {cause : BitVec 4} (h : QpFailed q cause s) (src : Src) :
    QpFailed q cause (silence src s) := by
  refine h.mapCmds fun c hc => ?_
  rw [unstartedOf_eq_false] at hc ⊢
  split <;> exact hc

theorem qpError_of_rts {s : State} {q : Fin 1024} (hrts : (qpOf s q).st = .rts) (cause : Nat) : qpError q cause s =
    drainCheck (.net q) (metered (fun u => postReady (releaseQueue (.net q) (qpOf s q).polder.val u))
      (silence (.net q) (metered (endSilently (unstartedOf (.net q)))
        (raise pgQP 2 (bump pgQP 0xA18 1 (setQp q ((qpOf s q).failing cause) s)))))) := by
  rw [qpError, if_neg (by simp [hrts])]
  rfl

theorem qpFailed_qpError {s : State} {q : Fin 1024} (hrts : (qpOf s q).st = .rts) (hdest : (qpOf s q).dest = false) (cause : Nat) :
    QpFailed q (BitVec.ofNat 4 cause) (qpError q cause s) := by
  have hfail := failed_failing hdest cause
  have hentry : (qpOf (raise pgQP 2 (bump pgQP 0xA18 1 (setQp q ((qpOf s q).failing cause) s))) q).Failed (BitVec.ofNat 4 cause) := by
    rw [qpOf, raise_net]
    have hq : sget {} (bump pgQP 0xA18 1 (setQp q ((qpOf s q).failing cause) s)).net.qps q.val = (qpOf s q).failing cause :=
      sget_sset_eq _ _ _ _ hfail.listed
    rw [hq]
    exact hfail
  rw [qpError_of_rts hrts]
  have hsilent := (QpFailed.metered (qpFailed_endSilently hentry)).silence (.net q)
  have hposted := QpFailed.metered (f := fun u => postReady (releaseQueue (.net q) (qpOf s q).polder.val u))
    (hsilent.releaseQueue ..).postReady
  exact hposted.drainCheck _

theorem exec_acknowledge (q : Fin 1024) (k : AckKind) (p : BitVec 24) (s : State) :
    exec (.acknowledge q k p) s = .next (acknowledge q k p s) := rfl
theorem exec_ackTimeout (q : Fin 1024) (s : State) : exec (.ackTimeout q) s = .next (ackTimeout q s) := rfl
theorem exec_rnrRetry (q : Fin 1024) (s : State) : exec (.rnrRetry q) s = .next (rnrRetry q s) := rfl
theorem exec_rdmaReadResponse (q : Fin 1024) (p : BitVec 24) (bs : List Byte) (s : State) :
    exec (.rdmaReadResponse q p bs) s = .next (rdmaReadResponse q p bs s) := rfl

/-- Settles O28: each event of loss recovery by what it makes of a QP in the state that the statement names; what a QP has become when it
enters error (`failed_failing`) stands while its commands and those of the flush end (`QpFailed`). -/
theorem lossRecoveryAndErrors : Obligations.LossRecoveryAndErrors := by
  simp only [Obligations.LossRecoveryAndErrors, exec_acknowledge, exec_ackTimeout, exec_rnrRetry, exec_rdmaReadResponse,
    Host.Outcome.next.injEq]
  refine ⟨fun s q hrts => ⟨fun p hnear hsent => ?ack, ackTimeout_of_outstanding hrts, rnrRetry_of_waiting hrts,
    fun p n record rest bs => rdmaReadResponse_of_part hrts⟩, fun s q cause hrts hdest hcause => ?error⟩
  case ack => exact (acknowledge_ack hrts p).trans (retire_of_outstanding hnear hsent rfl)
  case error =>
    obtain ⟨⟨hqp, hended, hcaps, -⟩, hcmds⟩ := qpFailed_qpError hrts hdest cause
    refine ⟨?_, hended, hcaps, fun c hc hsrc => ?_⟩
    · rw [hqp, BitVec.toNat_ofNat, Nat.mod_eq_of_lt hcause]
    · exact (unstartedOf_eq_false.1 (hcmds c hc)).resolve_left (not_not.2 hsrc)

end Sys2Proof.Machine
end

section
/-! SUPPORT. What frames, PFC and the link make of a port, and the statement on them (O30). -/

namespace Sys2Proof.Machine

/-! ### A release of a port that PFC held (R456) -/

/-- Packets that leave a port are issued in order, and change no port. -/
theorem foldl_sendPacket (p : Fin 2) (l : List (PktHead × Packet)) (s : State) :
    (l.foldl (fun s hp => sendPacket p hp s) s).net = s.net ∧
      (l.foldl (fun s hp => sendPacket p hp s) s).out = (l.map (fun hp => Out.packet p hp.1 hp.2)).reverse ++ s.out := by
  induction l generalizing s with
  | nil => exact ⟨rfl, rfl⟩
  | cons hp r ih =>
    obtain ⟨hnet, hout⟩ := ih (sendPacket p hp s)
    refine ⟨hnet, hout.trans ?_⟩
    simp [sendPacket]

theorem releasePort_out (p : Fin 2) (s : State) :
    (releasePort p s).out = ((portOf s p).waiting.map (fun hp => Out.packet p hp.1 hp.2)).reverse ++ s.out :=
  (foldl_sendPacket ..).2

/-- On a canonical table of ports a release leaves nothing held or waiting. -/
theorem portOf_releasePort {s : State} (h : swf (fun _ => ({} : PortSt)) s.net.ports = true) (p : Fin 2) :
    portOf (releasePort p s) p = { portOf s p with held := false, waiting := [] } := by
  have hnet : (releasePort p s).net = (setPort p { portOf s p with held := false, waiting := [] } s).net := (foldl_sendPacket ..).1
  rw [portOf, hnet]
  exact sget_sset_self (fun _ => ({} : PortSt)) h p.val _

/-! ### A table that lists a port twice

A port that comes to be as reset is listed in no canonical table, and a write of that takes its entry out; where the table lists the port a
second time, the second entry shows. -/

/-- A device with port 0 enabled and PFCEN 1, whose table lists port 0 twice, each time held by PFC. -/
def portListedTwice : State :=
  { rset (rset State.reset (pgNET 0) 0x004 1) (pgNET 0) 0x100 0x100 with net.ports := [(0, { held := true }), (0, { held := true })] }

/-- A release takes the first entry out, and the port shows held. -/
theorem held_pfcReceived_portListedTwice : (portOf (pfcReceived 0 false portListedTwice) 0).held = true := by decide

theorem exec_pfcReceived (p : Fin 2) (pause : Bool) (s : State) : exec (.pfcReceived p pause) s = .next (pfcReceived p pause s) := rfl

/-- Refutes O30: it asks for no canonical table of ports. Where port 0 is listed twice, held by PFC (`portListedTwice`), a release takes
the first entry out, and the port is held still. On a canonical table a release leaves nothing held (`portOf_releasePort`), and on any
table what waited leaves in order (`releasePort_out`). -/
theorem not_portEvents : ¬ Obligations.PortEvents := by
  intro h
  obtain ⟨-, hpfc, -⟩ := h portListedTwice 0
  obtain ⟨-, -, hon, -⟩ := hpfc
  obtain ⟨-, t, ht, hheld, -⟩ := hon (by decide) (by decide) (by decide)
  rw [exec_pfcReceived, Host.Outcome.next.injEq] at ht
  subst ht
  rw [held_pfcReceived_portListedTwice] at hheld
  cases hheld

end Sys2Proof.Machine
end

section
/-! SUPPORT. What keeps the byte memories in their canonical form, and the statements over every step (O1, O2, O4, O5). -/

namespace Sys2Proof.Machine

/-! ### The form of the memories -/

/-- The byte memories among what `held` names stand in their canonical form. -/
def formed (x : Mems × ProbeSt × Variant × List Instr) : Prop := Memory.wf x.1 = true

theorem formed_held_iff {s : State} : formed (held s) ↔ Memory.wf s.mem = true := Iff.rfl

/-- The form depends on the memories alone. -/
theorem formed_congr {x y : Mems × ProbeSt × Variant × List Instr} (h : x.1 = y.1) (hy : formed y) : formed x := by
  rw [formed, h]
  exact hy

theorem formed_of_eq {s t : State} (h : held t = held s) (hs : formed (held s)) : formed (held t) := h ▸ hs

theorem formed_foldl {α : Type} {f : State → α → State} (h : ∀ u a, formed (held u) → formed (held (f u a))) (l : List α) {s : State}
    (hs : formed (held s)) : formed (held (l.foldl f s)) := foldl_wf f h l hs

section Steps
variable {s : State} (w : formed (held s))
include w

/-! ### Commands and stores -/

theorem formed_onCmd (h opc) {f : Cmd → State → State} (hf : ∀ c u, formed (held u) → formed (held (f c u))) :
    formed (held (onCmd h opc s f)) := by
  unfold onCmd
  split
  · exact w
  · split
    · exact hf _ _ w
    · exact w

theorem formed_adminCmd (h opc) {f : Cmd → State → State} (hf : ∀ c u, formed (held u) → formed (held (f c u))) :
    formed (held (adminCmd h opc s f)) := by
  refine formed_onCmd w h opc fun c u hu => ?_
  split
  · simpa using hu
  · exact hf c u hu

theorem formed_vaultReq (op opc) {f : Cmd → State → State} (hf : ∀ c u, formed (held u) → formed (held (f c u))) :
    formed (held (vaultReq op opc f s)) := by
  unfold vaultReq
  dsimp only
  split
  · simpa using w
  · split
    · simpa using w
    · exact hf _ _ (by simpa using w)

@[simp] theorem formed_spaceWrite (sp a bs) : formed (held (spaceWrite sp a bs s)) := spaceWrite_wf sp a bs w

theorem formed_drainStores (core) : formed (held (drainStores core s)) := by
  unfold drainStores
  split
  · exact formed_foldl (fun u x hu => coreStore_wf _ x hu) _ w
  · exact w

@[simp] theorem formed_sqTailDoorbell (f q v core) : formed (held (sqTailDoorbell f q v core s)) := by
  unfold sqTailDoorbell
  have hu := formed_drainStores w core
  simpa using hu

@[simp] theorem formed_bootFirmware (img) : formed (held (bootFirmware img s)) := bootFirmware_wf img w

theorem formed_activateCheck : formed (held (activateCheck s)) := by
  unfold activateCheck
  split
  · exact w
  · split
    · exact w
    · simp [w]

@[simp] theorem formed_serviceSlot (fetch words) : formed (held (serviceSlot fetch words s)) := by
  have ha : ∀ u : State, held u = held s → formed (held (activateCheck u)) := fun u hu => formed_activateCheck (formed_of_eq hu w)
  unfold serviceSlot
  dsimp only
  split <;> simp [ha]

/-! ### DMA channels -/

theorem formed_dmaSpoil (n) : formed (held (dmaSpoil n s)) := by
  unfold dmaSpoil
  dsimp only
  split
  · exact w
  · exact formed_spaceWrite w _ _ _

@[simp] theorem formed_dmaHalt (n code addr sp wr) : formed (held (dmaHalt n code addr sp wr s)) := dmaHalt_wf n code addr sp wr w

@[simp] theorem formed_accessHalt (n code a sp wr) : formed (held (accessHalt n code a sp wr s)) :=
  formed_dmaHalt (by split <;> simpa using w) n code a sp wr

theorem formed_beginDesc (n bs) : formed (held (beginDesc n bs s)) := by
  unfold beginDesc
  dsimp only
  split <;> simp [w]

theorem formed_takeDesc (n a sp hostDesc) : formed (held (takeDesc n a sp hostDesc s)) := by
  unfold takeDesc
  extract_lets c u v
  have hu : formed (held u) := by simpa [u] using w
  have hv : formed (held v) := by simpa [v] using hu
  split
  · simp [w]
  · split
    · simp [hu]
    · split
      · simp [hu]
      · split
        · simp [hu]
        · split
          · exact formed_beginDesc (formed_of_eq (held_spaceRead _ _ _ _) hu) _ _
          · split
            · exact formed_beginDesc hv _ _
            · simpa using hv

@[simp] theorem formed_dmaGo (n hostDesc core) : formed (held (dmaGo n hostDesc core s)) := by
  have hu := formed_drainStores w core
  unfold dmaGo
  dsimp only
  split
  · simpa using hu
  · exact formed_takeDesc (by simpa using hu) _ _ _ _

theorem formed_dmaPut (n bs) : formed (held (dmaPut n bs s)) := by
  unfold dmaPut
  dsimp only
  split
  · simp [w]
  · split <;> simp [w]

theorem formed_chainBurst (n tlp) : formed (held (chainBurst n tlp s)) := by
  unfold chainBurst
  extract_lets c sa da host k
  split
  · exact w
  · split
    · split <;> simp [w]
    · simp [w]
    · simp [w]
    · split
      · simpa using w
      · exact formed_dmaPut (formed_of_eq (held_spaceRead _ _ _ _) w) _ _

theorem formed_ringPut (n k) : formed (held (ringPut n k s)) := by
  unfold ringPut
  dsimp only
  split
  · simp [w]
  · have hw : formed (held (if (dmaOf s n).dstSp = 0 then
        emit (.hostWrite (dmaFunc s n) (BitVec.ofNat 64 ((dmaOf s n).dst.toNat + (dmaOf s n).wrptr)) ((dmaOf s n).partials.take k) (dmaRelaxed s n)) s
      else spaceWrite (dmaOf s n).dstSp ((dmaOf s n).dst.toNat + (dmaOf s n).wrptr) ((dmaOf s n).partials.take k) s)) := by
      split <;> simp [w]
    simpa using hw

theorem formed_ringBurst (n tlp) : formed (held (ringBurst n tlp s)) := by
  unfold ringBurst
  dsimp only
  split
  · exact w
  · split
    · exact formed_ringPut (by simpa using w) _ _
    · simpa using w

@[simp] theorem formed_dmaBurst (n tlp waited) : formed (held (dmaBurst n tlp waited s)) := by
  unfold dmaBurst
  extract_lets c u
  have hu : formed (held u) := by dsimp only [u]; split <;> simpa using w
  split
  · exact w
  · split
    · exact formed_ringBurst hu _ _
    · exact formed_chainBurst hu _ _

@[simp] theorem formed_ringFlushTimeout (n) : formed (held (ringFlushTimeout n s)) := by
  unfold ringFlushTimeout
  dsimp only
  split
  · exact w
  · split
    · simpa using w
    · exact formed_ringPut (by simpa using w) _ _

theorem formed_ringDrain (n k) : formed (held (ringDrain n k s)) := by
  induction k generalizing s with
  | zero => exact w
  | succ k ih =>
    unfold ringDrain
    dsimp only
    split
    · exact w
    · exact ih (formed_ringPut w _ _)

@[simp] theorem formed_dmaStop (n) : formed (held (dmaStop n s)) := by
  unfold dmaStop
  extract_lets u v
  have hu : formed (held u) := by simpa [u] using w
  have hv : formed (held v) := by
    dsimp only [v]
    split
    · exact formed_ringDrain hu _ _
    · exact hu
  split
  · exact hu
  · split
    · exact hv
    · simpa using hv

@[simp] theorem formed_descriptorDone (n hostDesc) : formed (held (descriptorDone n hostDesc s)) := by
  unfold descriptorDone
  extract_lets c u v x
  have hu : formed (held u) := by simpa [u] using w
  have hv : formed (held v) := by dsimp only [v]; split <;> simpa using hu
  have hx : formed (held x) := by dsimp only [x]; split <;> simpa using hv
  split
  · exact w
  · split
    · exact hx
    · exact formed_takeDesc hx _ _ _ _

@[simp] theorem formed_pcieCompletion (n res) : formed (held (pcieCompletion n res s)) := by
  unfold pcieCompletion
  extract_lets c
  split
  · exact w
  · simp [w]
  · split
    · split
      · exact formed_beginDesc w _ _
      · exact w
    · exact formed_dmaPut (by simpa using w) _ _

@[simp] theorem formed_cplTimeout (n) : formed (held (cplTimeout n s)) := by
  unfold cplTimeout
  dsimp only
  split <;> simp [w]

/-! ### Fatal errors, words that cannot be read, and parity -/

@[simp] theorem formed_reqAttest (obs) : formed (held (reqAttest obs s)) := by
  refine formed_vaultReq w _ _ fun c u hu => ?_
  dsimp only
  split <;> simp [hu]

@[simp] theorem formed_patchDump (cause) : formed (held (patchDump cause s)) := patchDump_wf cause w

@[simp] theorem formed_fatal (cause page) : formed (held (fatal cause page s)) := by
  have hp : ∀ u : State, held u = held s → formed (held (patchDump cause u)) := fun u hu => formed_patchDump (formed_of_eq hu w) cause
  unfold fatal
  dsimp only
  (repeat' split) <;> simp [w, hp]

@[simp] theorem formed_sysUncorr (a zone) : formed (held (sysUncorr a zone s)) := sysUncorr_wf a zone w

@[simp] theorem formed_uncorrOutcome (place) : formed (held (uncorrOutcome place s)) := by
  unfold uncorrOutcome
  cases place with
  | dump x => exact withDump_wf w (swf_writeBytes (wf_dump w) _ _)
  | _ => dsimp only; (repeat' split) <;> simp [w]

@[simp] theorem formed_scrubRead (place errs) : formed (held (scrubRead place errs s)) := by
  unfold scrubRead wordUncorrectable
  dsimp only
  (repeat' split) <;> simp [w]

theorem formed_passOutcome (place) : formed (held (passOutcome place s)) := by
  unfold passOutcome
  (repeat' split) <;> simp [w]

@[simp] theorem formed_pscrubDone (rep) : formed (held (pscrubDone rep s)) := by
  unfold pscrubDone
  split
  · exact w
  · dsimp only
    rw [held_raise]
    refine formed_foldl (fun u x hu => formed_passOutcome hu _) _ (formed_of_eq ?_ w)
    simp

theorem formed_parityFault (x) : formed (held (parityFault x s)) := by
  unfold parityFault parityOutcome
  dsimp only
  (repeat' split) <;> simp [w]

@[simp] theorem formed_paritySweep (bad) : formed (held (paritySweep bad s)) :=
  formed_foldl (fun _ x hu => formed_parityFault hu x) bad w

@[simp] theorem formed_fenFatal (v) : formed (held (fenFatal v s)) := by
  unfold fenFatal
  dsimp only
  split <;> simp [w]

/-! ### Resets of functions and of the controller -/

theorem formed_haltChannels (pick) : formed (held (haltChannels pick s)) := by
  refine formed_foldl (fun u n hu => ?_) _ w
  dsimp only
  split <;> simp [hu]

@[simp] theorem formed_controllerReset : formed (held (controllerReset s)) := by
  simpa [controllerReset] using formed_haltChannels w _

@[simp] theorem formed_flr (f) : formed (held (flr f s)) := by
  unfold flr
  dsimp only
  split
  · exact w
  · split
    · simp [w]
    · simpa using formed_haltChannels (s := raise pgHIF 2 { s with host.flr := s.host.flr.filter (· ≠ f) ++ [f] }) (by simpa using w) _

@[simp] theorem formed_linkDown : formed (held (linkDown s)) := by
  unfold linkDown
  split <;> simp [w]

@[simp] theorem formed_vfEnableClear : formed (held (vfEnableClear s)) := by
  unfold vfEnableClear
  dsimp only
  split
  · exact w
  · simpa using formed_haltChannels w _

/-! ### Boot, restarts and flash -/

@[simp] theorem formed_bootCores : formed (held (bootCores s)) := by
  unfold bootCores
  split
  · simpa using w
  · refine formed_bootFirmware ?_ _
    simp [w]

theorem formed_bootImages : formed (held (bootImages s)) := by
  unfold bootImages
  split <;> simp [w]

theorem formed_boot (env) : formed (held (boot env s)) := by
  unfold boot
  dsimp only
  split
  · exact w
  · split
    · exact w
    · exact formed_bootImages w

@[simp] theorem formed_sysrstNRise (env) : formed (held (sysrstNRise env s)) := by
  unfold sysrstNRise
  split
  · exact w
  · exact formed_boot (s := { s with pins.sysrstN := true }) w env

/-- A restart of the cores empties their memory before it loads the image (R585). -/
theorem formed_without_coreMem {t : State} (h : held t = held s) : formed (held { t with mem.coreMem := [] }) := by
  have hw := formed_of_eq h w
  rw [formed_held_iff, wf_iff] at hw ⊢
  obtain ⟨h1, _, h3, h4, h5, h6⟩ := hw
  exact ⟨h1, rfl, h3, h4, h5, h6⟩

theorem formed_restartCores : formed (held (restartCores s)) := by
  refine formed_bootCores ?_
  rw [held_tidyCmds]
  refine formed_without_coreMem w ?_
  simp

@[simp] theorem formed_coreRestart : formed (held (coreRestart s)) := formed_restartCores (by simpa using w)

@[simp] theorem formed_wdog : formed (held (wdog s)) := by
  unfold wdog
  split
  · exact w
  · exact formed_restartCores (by simpa using w)

@[simp] theorem formed_recordSideRestart : formed (held (recordSideRestart s)) := formed_restartCores (by simpa using w)

@[simp] theorem formed_flashDone : formed (held (flashDone s)) := flashDone_wf w

@[simp] theorem formed_fwcommit (slotB) : formed (held (fwcommit slotB s)) := by
  unfold fwcommit
  dsimp only
  split
  · simpa using w
  · split
    · simpa using w
    · next e =>
      have hu : formed (held (touchPage pgTOP s)) := by simpa using w
      simpa using formed_held_iff.mpr (commitFw_wf hu e)

/-! ### Firmware commands -/

@[simp] theorem formed_fwDownload (h image) : formed (held (fwDownload h image s)) := by
  have hf : ∀ u, formed (held u) → ∀ a bs, formed (held { u with mem.flash := writeBytes 0xFF u.mem.flash a bs }) :=
    fun u hu a bs => withFlash_wf hu (swf_writeBytes (wf_flash hu) a bs)
  refine formed_adminCmd w _ _ fun c u hu => ?_
  dsimp only
  split
  · split
    · simpa using hu
    · rw [held_done]
      exact hf u hu _ _
  · rw [held_done, held_freeNext]
    exact hf u hu _ _

theorem formed_recoverActivate (h) : formed (held (recoverActivate h s)) := by
  have hb := formed_bootImages (s := startCmd h s) (by simpa using w)
  unfold recoverActivate
  dsimp only
  split
  · exact hb
  · simpa using hb

@[simp] theorem formed_fwActivate (h) : formed (held (fwActivate h s)) := by
  refine formed_adminCmd w _ _ fun c u hu => ?_
  split
  · exact hu
  · split
    · simpa using hu
    · next e =>
      have ht := formed_held_iff.mpr (commitFw_wf hu e)
      split
      · exact formed_recoverActivate ht _
      · split
        · simpa using ht
        · exact formed_activateCheck (by simpa using ht)

/-! ### Accesses to registers, and the dump -/

@[simp] theorem formed_busError (r off write) : formed (held (busError r off write s)) := busError_wf r off write w

@[simp] theorem formed_xdomTimeout (r k write) : formed (held (xdomTimeout r k write s)) := xdomTimeout_wf r k write w

theorem formed_startDump (auto) : formed (held (startDump auto s)) := startDump_wf auto w

@[simp] theorem formed_dumpGo : formed (held (dumpGo s)) := by
  unfold dumpGo
  dsimp only
  split
  · simpa using w
  · exact formed_startDump (by simpa using w) _

@[simp] theorem formed_dumpWaitExpiry : formed (held (dumpWaitExpiry s)) := by
  unfold dumpWaitExpiry
  split
  · exact w
  · exact formed_startDump w _

@[simp] theorem formed_dumpDone : formed (held (dumpDone s)) := dumpDone_wf w

theorem formed_guardedTake (r page b i o v) : formed (held (guardedTake r page b i o v s)) := by
  unfold guardedTake
  dsimp only
  split
  case h_4 => exact formed_congr (held_but_prb_wordWritten _ _).1 (by simpa using w)
  all_goals simpa using w

theorem formed_guardedHalf (r page b i o v) : formed (held (guardedHalf r page b i o v s)) := by
  unfold guardedHalf
  split
  · split <;> simpa using w
  · split
    · split
      · exact w
      · exact formed_guardedTake w _ _ _ _ _ _
    · simpa using w

theorem formed_regWrite (r page b i o v) : formed (held (regWrite r page b i o v s)) := by
  unfold regWrite
  split
  · exact formed_guardedHalf w _ _ _ _ _ _
  · (repeat' split) <;> simpa using w

theorem formed_write32 (r page off v) : formed (held (write32 r page off v s)) := by
  unfold write32
  split
  · simpa using w
  · split
    · simpa using w
    · split
      · next h => exact formed_of_eq (held_of_refusedWrite h s) w
      · exact formed_regWrite w _ _ _ _ _ _

theorem formed_pageWrite (r a page off) : formed (held (pageWrite r a page off s)) := by
  have h1 := fun v => formed_write32 w r page off v
  unfold pageWrite
  dsimp only
  split
  · simp [w]
  · split
    · simpa using w
    · split
      · simpa using w
      · split
        · exact formed_write32 (h1 _) _ _ _ _
        · exact h1 _

theorem formed_write64 (r a) : formed (held (write64 r a s)) := by
  unfold write64
  split
  · exact formed_pageWrite w _ _ _ _
  all_goals simpa using w

theorem formed_writeMore (r o ws) : formed (held (writeMore r o ws s)) := by
  induction ws generalizing o s with
  | nil => exact w
  | cons x ws ih => exact ih (formed_write64 w _ _) _

@[simp] theorem formed_registerWrite (r a) : formed (held (registerWrite r a s)) := formed_writeMore (formed_write64 w r a) r _ _

/-! ### Every command -/

/-- A command that moves data, boots, dumps or repairs keeps the form. -/
theorem formed_exec_of_writesMemory {i : Instr} {t : State} (h : exec i s = .next t) (hi : writesMemory i = true) : formed (held t) := by
  cases i with
  | fwDownload | fwActivate | serviceSlot | pcieCompletion | dmaStop | dmaBurst | ringFlushTimeout | flr | linkDown
  | vfEnableClear | cplTimeout | descriptorDone | registerWrite | reqAttest | scrubRead | pscrubDone | paritySweep | fenFatal
  | dumpGo | dumpWaitExpiry | dumpDone | sysrstNRise | wdog | coreRestart | recordSideRestart | flashDone
  | fwcommit | xdomTimeout | dmaGo | sqTailDoorbell =>
    obtain rfl := Host.Outcome.next.inj h
    simp [w]
  | perstN =>
    obtain rfl := Host.Outcome.next.inj h
    exact formed_controllerReset w
  | powerOnReset =>
    obtain rfl := Host.Outcome.next.inj h
    exact powerOn_wf w
  | _ => cases hi

theorem formed_exec {i : Instr} {t : State} (h : exec i s = .next t) : formed (held t) := by
  cases hi : writesMemory i with
  | true => exact formed_exec_of_writesMemory w h hi
  | false => exact formed_congr (held_fst_exec h hi) w

end Steps

/-! ### The statements -/

/-- Settles O1: both are what `step` says of its queue. -/
theorem stepRunsTheFrontCommand : Obligations.StepRunsTheFrontCommand := by
  refine ⟨fun s c rest h => ?_, fun s h => ?_⟩
  · rw [step, h]
  · rw [step, h]

/-- Settles O2: a command leaves the queue it runs on (`held_snd_snd_exec`), which is the rest. -/
theorem queueLosesOnlyItsFront : Obligations.QueueLosesOnlyItsFront := by
  intro s t h
  cases hp : s.pending with
  | nil =>
    rw [step, hp] at h
    obtain rfl := Host.Outcome.next.inj h
    exact hp
  | cons c rest =>
    rw [step, hp] at h
    exact congrArg Prod.snd (held_snd_snd_exec h)

/-- Settles O5: every field is at its reset value. -/
theorem resetState : Obligations.ResetState := ⟨reset_wf, rfl, fun _ => rfl, rfl, rfl, rfl, rfl⟩

/-- Settles O4: the commands that write no memory leave it (`held_fst_exec`), and each operation of the others keeps the form. -/
theorem memoryStaysCanonical : Obligations.MemoryStaysCanonical := by
  intro s t w h
  cases hp : s.pending with
  | nil =>
    rw [step, hp] at h
    obtain rfl := Host.Outcome.next.inj h
    exact w
  | cons c rest =>
    rw [step, hp] at h
    exact formed_exec (s := { s with pending := rest }) w h

end Sys2Proof.Machine
end

section
/-! SUPPORT. What refutes the statements on enables and clears (O58) and on register writes (O60). -/

namespace Sys2Proof.Machine

/-! ### A full event log

The disabling of the probe port raises its event, and an event that finds the log full is counted as overwriting one (R558). -/

/-- A device whose event log is full of events of page 0. -/
def logFull : State := { State.reset with rf.evlog := List.replicate 16384 { ctr := 0, page := 0, bit := 0, coalesced := false, seq := 0, count := 1 } }

/-- An event of any other page overwrites an entry of the log, and MEM counts it. -/
theorem logEv_cnt_of_full {page b : Nat} (hp : page ≠ 0) (q : BitVec 16) {s : State} (h : s.rf.evlog = logFull.rf.evlog) :
    (logEv page b q s).rf.cnt = (bump pgMEM 0xA24 1 s).rf.cnt := by
  have hfind : s.rf.evlog.find? (fun e => e.page = page ∧ e.bit = b) = none := by
    rw [h, logFull, List.find?_replicate]
    simp [hp.symm]
  have hlen : ¬ s.rf.evlog.length < 16384 := by rw [h, logFull, List.length_replicate]; decide
  unfold logEv
  rw [hfind]
  simp [logEv.logNew, hlen]

theorem raise_cnt_of_full {page : Nat} (hp : page ≠ 0) (b : Nat) {s : State} (h : s.rf.evlog = logFull.rf.evlog) :
    (raise page b s).rf.cnt = (bump pgMEM 0xA24 1 s).rf.cnt := by
  rw [raise, msixOnRise_rf]
  exact logEv_cnt_of_full hp _ (s := { s with rf.ev := sset {} s.rf.ev page (setEv b (evOf s page)) }) h

theorem ctlEnClear_prb (nonce : List Byte) {s : State} (h : sget none s.rf.guard pgPRB = none) :
    ctlEnClear pgPRB nonce s = lockProbe nonce (parClear pgPRB 0x004 (rset s pgPRB 0x004 0)) := by
  have hb : pageBlock s.variant pgPRB = some (.prb, 0) := rfl
  simp [ctlEnClear, hb, touchPage_none h]

theorem cnt_lockProbe_of_full (nonce : List Byte) {s : State} (hlog : s.rf.evlog = logFull.rf.evlog) (hcnt : s.rf.cnt = []) :
    (lockProbe nonce s).rf.cnt = [(rkey pgMEM 0xA24, 1)] := by
  have hraise : ∀ u : State, u.rf.evlog = s.rf.evlog → u.rf.cnt = s.rf.cnt → (raise pgPRB 2 u).rf.cnt = [(rkey pgMEM 0xA24, 1)] :=
    fun u hlog' hcnt' => by simp [raise_cnt_of_full (by decide : pgPRB ≠ 0) 2 (hlog'.trans hlog), hcnt', hcnt, smod, sset]
  exact hraise _ rfl rfl

theorem cnt_ctlEnClear_logFull (nonce : List Byte) : (ctlEnClear pgPRB nonce logFull).rf.cnt = [(rkey pgMEM 0xA24, 1)] := by
  have hpar : parClear pgPRB 0x004 (rset logFull pgPRB 0x004 0) = rset logFull pgPRB 0x004 0 := if_neg (by decide)
  rw [ctlEnClear_prb nonce rfl, hpar]
  exact cnt_lockProbe_of_full nonce (by rw [rset_rf]) (by rw [rset_rf]; rfl)

/-- Refutes O58: where the event log is full (`logFull`), the write of 0 to CTL.EN of the probe port locks it with an event that overwrites
an entry of the log, and the counter of overwritten entries goes from 0 to 1 (R558): the counters are not those of before. -/
theorem not_enablesSnapshotsAndClears : ¬ Obligations.EnablesSnapshotsAndClears := by
  intro h
  obtain ⟨-, hclear, -⟩ := h logFull pgPRB .prb 0 rfl rfl rfl
  obtain ⟨t, ht, -, hcnt, -⟩ := hclear (by decide) []
  obtain rfl : ctlEnClear pgPRB [] logFull = t := Host.Outcome.next.inj ht
  rw [cnt_ctlEnClear_logFull] at hcnt
  cases hcnt

/-! ### A register of the probe port -/

/-- Refutes O60: a write of SEL[0] of the probe port is one of a plain register that no clause leaves out, and the port's outputs then carry
what it selects (R665, R666): the new state holds them, where `putReg` issues nothing to the outside. -/
theorem not_registerWritesAndFaults : ¬ Obligations.RegisterWritesAndFaults := by
  intro h
  obtain ⟨hwrite, -⟩ := h
  obtain ⟨-, hpage⟩ := hwrite State.reset pgPRB 0x100 { offset := 0x6100, bytes := 4, data := 0 } (by decide) (by decide) (by decide)
    (by decide) rfl rfl rfl
  obtain ⟨-, -, hplain⟩ := hpage .prb 0 rfl
  obtain ⟨t, ht, hput, -⟩ := hplain { first := 0x100, n := 16, live := 0xFFF, reset := 0xF00 } rfl rfl (by decide) (by decide) (by decide)
    (by decide) rfl rfl (by decide) rfl
  have hout : (putReg pgPRB 0x100 { first := 0x100, n := 16, live := 0xFFF, reset := 0xF00 } 0 State.reset).out = [] := by decide
  obtain rfl : registerWrite .pf0 { offset := 0x6100, bytes := 4, data := 0 } State.reset = t := Host.Outcome.next.inj ht
  have hne : (registerWrite .pf0 { offset := 0x6100, bytes := 4, data := 0 } State.reset).out ≠ [] := List.cons_ne_nil _ _
  exact hne ((congrArg State.out hput).trans hout)

end Sys2Proof.Machine
end

section
/-! SUPPORT. Setting and acknowledging the events of a page (O59). -/

namespace Sys2Proof.Machine

/-! ### One setting -/

/-- Keeping the stamps within the window touches each bit by itself. -/
theorem sget_restamp (seq pend : BitVec 16) (j : Nat) : ∀ (n : Nat) {m : Sparse (BitVec 16)}, swf (fun _ => 0) m = true →
    sget 0 (restamp seq m pend n) j =
      if j < n ∧ pend.getLsbD j = true ∧ 32767 < (seq - sget 0 m j).toNat then seq - 32767#16 else sget 0 m j
  | 0, m, _ => by simp [restamp]
  | n + 1, m, hm => by
    rw [restamp]
    by_cases hold : pend.getLsbD n = true ∧ (seq - sget 0 m n).toNat > 32767
    · rw [if_pos hold, sget_restamp seq pend j n (swf_sset _ hm n _)]
      by_cases hj : j = n
      · subst hj
        rw [if_neg (by omega), if_pos ⟨by omega, hold⟩]
        exact sget_sset_self (fun _ => 0) hm j _
      · rw [sget_sset_other (fun _ => 0) hm n j _ hj 0]
        exact if_congr (and_congr_left' (by omega)) rfl rfl
    · rw [if_neg hold, sget_restamp seq pend j n hm]
      refine if_congr (and_congr_left fun h => ?_) rfl rfl
      have hne : j ≠ n := fun hj => hold (hj ▸ h)
      omega

theorem getLsbD_two_pow_ne {n b : Nat} (h : b ≠ n) : (BitVec.ofNat 16 (2 ^ n)).getLsbD b = false := by
  rw [BitVec.getLsbD_ofNat, Nat.testBit_two_pow_of_ne h.symm, Bool.and_false]

/-- Setting a bit leaves every other bit of the page. -/
theorem setEv_pend_other {b n : Nat} (h : b ≠ n) (e : EvPage) : (setEv n e).pend.getLsbD b = e.pend.getLsbD b := by
  rw [setEv, BitVec.getLsbD_or, getLsbD_two_pow_ne h, Bool.or_false]

theorem setEv_stamp_self {n : Nat} {e : EvPage} (he : swf (fun _ => 0) e.stamps = true) :
    sget 0 (setEv n e).stamps n = e.seq + 1 := by
  have hs := sget_sset_self (fun _ => 0) he n (e.seq + 1)
  rw [setEv, sget_restamp _ _ _ _ (swf_sset _ he _ _), hs, if_neg (by rw [BitVec.sub_self]; simp)]

theorem setEv_stamp_other {n b : Nat} (hb : b < 16) (h : b ≠ n) {e : EvPage} (he : swf (fun _ => 0) e.stamps = true) :
    sget 0 (setEv n e).stamps b =
      if e.pend.getLsbD b = true ∧ 32767 < (e.seq + 1 - sget 0 e.stamps b).toNat then e.seq + 1 - 32767#16 else sget 0 e.stamps b := by
  have hpend := setEv_pend_other h e
  rw [setEv] at hpend ⊢
  rw [sget_restamp _ _ _ _ (swf_sset _ he _ _), hpend, sget_sset_other (fun _ => 0) he n b _ h 0]
  exact if_congr (and_iff_right hb) rfl rfl

/-! ### The interrupt of a core -/

theorem page_lt_of_pageBlock {v : Variant} {i : Nat} (h : (pageBlock v i).isSome = true) : i < 1024 := by
  by_contra hi
  have hl : laneGroups v ≤ 8 := by cases v <;> decide
  have hc : channels v ≤ 256 := by cases v <;> decide
  unfold pageBlock at h
  repeat rw [if_neg (by omega)] at h
  cases h

/-- A pending event whose mask bit is set is the page's interrupt condition (R613). -/
theorem irqOn_of_pending {s : State} {page n : Nat} (hn : n < 16) (hp : evPending s page n = true) (hm : rbit s page 0x014 n = true) :
    irqOn s page = true := by
  refine decide_eq_true fun h => ?_
  have hbit : ((evOf s page).pend &&& (rget s page 0x014).setWidth 16).getLsbD n = true := by
    rw [BitVec.getLsbD_and, BitVec.getLsbD_setWidth, decide_eq_true hn, Bool.true_and, Bool.and_eq_true]
    exact ⟨hp, hm⟩
  rw [h] at hbit
  simp at hbit

theorem coreIrq_of_irqOn {s : State} {page i : Nat} {b : Block} (hb : pageBlock s.variant page = some (b, i)) (hq : b ≠ .qmg)
    (h : irqOn s page = true) : coreIrq s (irqCore s b) = true :=
  List.any_eq_true.2 ⟨page, List.mem_range.2 (page_lt_of_pageBlock (v := s.variant) (by rw [hb]; rfl)), by simp [h, hb, hq]⟩

/-! ### The acknowledgement -/

theorem acked_pend {b : Nat} (hb : b < 16) (e : EvPage) (v : Word) :
    (acked e v).pend.getLsbD b =
      (e.pend.getLsbD b && !decide (((v >>> 16).setWidth 16 - sget 0 e.stamps b).toNat < 32768)) := by
  have hpack := testBit_packBits (fun b => e.pend.getLsbD b && !ackClears e v b) hb
  rw [acked, BitVec.getLsbD_ofNat, decide_eq_true hb, Bool.true_and, hpack, ackClears]
  cases e.pend.getLsbD b <;> rfl

theorem evack_of_old {s : State} {page : Nat} (hpg : (pageBlock s.variant page).isSome = true) (hg : sget none s.rf.guard page = none)
    {v : Word} (h : 32768 ≤ ((evOf s page).seq - (v >>> 16).setWidth 16).toNat) : evack page v s = s := by
  have hhon : ackHonoured (evOf s page) v = false := decide_eq_false (by omega)
  simp [evack, Option.isNone_eq_false_iff.2 hpg, touchPage_none hg, hhon]

/-- An honoured acknowledgement changes the events of its page alone. -/
theorem evack_ev {s : State} {page : Nat} (hpg : (pageBlock s.variant page).isSome = true) (hg : sget none s.rf.guard page = none)
    {v : Word} (h : ((evOf s page).seq - (v >>> 16).setWidth 16).toNat < 32768) :
    (evack page v s).rf.ev = sset {} s.rf.ev page (acked (evOf s page) v) := by
  have hhon : ackHonoured (evOf s page) v = true := decide_eq_true h
  simp only [evack, Option.isNone_eq_false_iff.2 hpg, touchPage_none hg, hhon]
  simp only [Bool.false_eq_true, if_false, Bool.not_true]
  split <;> rfl

/-- Settles O59: a setting is `setEv` on its page (`evOf_raise_self`), whose stamps `sget_restamp` gives bit by bit, and an acknowledgement
is `acked` on its page where the window admits it and nothing elsewhere. -/
theorem eventsAreAcknowledgedBySequence : Obligations.EventsAreAcknowledgedBySequence := by
  intro s page n hn hpg hg hev hst stamp t seq
  have hself : evOf t page = setEv n (evOf s page) := evOf_raise_self page n hn s
  refine ⟨evPending_raise_self page n hn s, by rw [hself]; rfl, ?_, fun b hb => ?_, fun p hp => evOf_raise_other page n p hn hp s,
    fun b hb16 hb => ?_, fun b i hb hq hm => ?_, fun v => ⟨fun h => congrArg _ (evack_of_old hpg hg h), fun h => ?_⟩⟩
  · exact (congrArg (fun e => sget 0 e.stamps n) hself).trans (setEv_stamp_self hst)
  · rw [evPending, hself]
    exact setEv_pend_other hb _
  · exact (congrArg (fun e => sget 0 e.stamps b) hself).trans (setEv_stamp_other hb16 hb hst)
  · have hbt : pageBlock t.variant page = some (b, i) := by rw [raise_variant]; exact hb
    have hmt : rbit t page 0x014 n = true := by rw [rbit, rget_raise]; exact hm
    have hcore : irqCore t b = irqCore s b := by rw [irqCore, rfld, rget_raise]; rfl
    exact hcore ▸ coreIrq_of_irqOn hbt hq (irqOn_of_pending hn (evPending_raise_self page n hn s) hmt)
  · have hack := evack_ev hpg hg h
    have hpage : evOf (evack page v s) page = acked (evOf s page) v := by
      rw [evOf, hack]; exact sget_sset_self (fun _ => ({} : EvPage)) hev page _
    refine ⟨_, rfl, by rw [hpage]; rfl, fun p hp => ?_, fun b hb => ?_⟩
    · rw [evOf, hack]
      exact sget_sset_other (fun _ => ({} : EvPage)) hev page p _ hp {}
    · rw [evPending, hpage]
      exact acked_pend hb _ v

end Sys2Proof.Machine
end

section
/-! SUPPORT. Fatal errors and the state dump (O54). -/

namespace Sys2Proof.Machine

/-! ### What a fatal error records -/

/-- The record of a fatal error (R551, R553, R555) and its event, before the tape is brought to rest. -/
def fatalRecord (cause page : Nat) (s : State) : State :=
  let s := if s.itg.fatal.isSome || s.itg.dumpSt ≠ 0 then patchDump cause { s with itg.dump.cause2 := cause, itg.dump.ctr2 := s.clk.ctr500 }
    else { s with itg.dumpGo := false,
                  itg.dump := { cause := cause, page := page, devTime := s.clk.devSec, ctr := s.clk.ctr500 } }
  raise pgMEM 10 { s with itg.fatal := some (cause, page) }

/-- The parts of the machine that the tape's coming to rest leaves alone. -/
def recordParts (s : State) : RegState × IntegritySt × Mems := (s.rf, s.itg, s.mem)

@[simp] theorem recordParts_planTo (v : Int) (s : State) : recordParts (planTo v s) = recordParts s := rfl

@[simp] theorem recordParts_abortMove (s : State) : recordParts (abortMove s) = recordParts s := by
  unfold abortMove; split <;> rfl

@[simp] theorem recordParts_modPass (f : Pass → Pass) (s : State) : recordParts (modPass f s) = recordParts s := rfl

@[simp] theorem recordParts_signal (f : Fin 64) (v : Nat) (s : State) : recordParts (signal f v s) = recordParts s := rfl

theorem recordParts_fatal (cause page : Nat) (s : State) : recordParts (fatal cause page s) = recordParts (fatalRecord cause page s) := by
  have hsig : ∀ u : State, recordParts (if rbit u pgMEM 0x110 8 then signal 0 (rfld u pgMEM 0x110 5 0) u else u) = recordParts u :=
    fun u => by split <;> simp
  have hstop : ∀ u : State, recordParts (if mceOn u ∧ u.trk.pass.isNone then planTo 0 u else u) = recordParts u :=
    fun u => by split <;> simp
  rw [fatal, hstop, recordParts_abortMove, recordParts_modPass, hsig]
  rfl

theorem fatal_rf (cause page : Nat) (s : State) : (fatal cause page s).rf = (fatalRecord cause page s).rf :=
  congrArg (·.1) (recordParts_fatal cause page s)

theorem fatal_itg (cause page : Nat) (s : State) : (fatal cause page s).itg = (fatalRecord cause page s).itg :=
  congrArg (·.2.1) (recordParts_fatal cause page s)

theorem fatal_mem (cause page : Nat) (s : State) : (fatal cause page s).mem = (fatalRecord cause page s).mem :=
  congrArg (·.2.2) (recordParts_fatal cause page s)

@[simp] theorem fatal_cause (cause page : Nat) (s : State) : (fatal cause page s).itg.fatal = some (cause, page) := by
  rw [fatal_itg, fatalRecord, raise_itg]

theorem evPending_fatal (cause page : Nat) (s : State) : evPending (fatal cause page s) pgMEM 10 = true := by
  rw [evPending, evOf, fatal_rf]
  exact evPending_raise_self pgMEM 10 (by decide) _

/-- The first fatal error, with no dump held, opens the dump's record. -/
theorem fatalRecord_of_first (cause page : Nat) {s : State} (hf : s.itg.fatal = none) (hd : s.itg.dumpSt = 0) :
    fatalRecord cause page s = raise pgMEM 10 { s with
      itg.fatal := some (cause, page), itg.dumpGo := false,
      itg.dump := { cause := cause, page := page, devTime := s.clk.devSec, ctr := s.clk.ctr500 } } := by
  have hnot : ¬ ((s.itg.fatal.isSome || decide (s.itg.dumpSt ≠ 0)) = true) := by simp [hf, hd]
  rw [fatalRecord, if_neg hnot]

theorem fenFatal_of_set {s : State} (hg : sget none s.rf.guard pgFEN = none) {v : Word} (hv : bit v 0 = true) :
    fenFatal v s = fatal 5 0xFFFF s := by
  rw [fenFatal, touchPage_none hg, if_pos hv]

/-! ### The capture -/

@[simp] theorem xdomTimeout_dumpEngine_itg (k : Fin 8) (s : State) : (xdomTimeout .dumpEngine k false s).itg = s.itg := by
  unfold xdomTimeout timeoutEnd
  split
  · rfl
  · dsimp only
    split <;> exact accessFault_itg ..

theorem xdomTimeout_fold_itg (s : State) : ∀ l : List (Fin 8), (l.foldl (fun s k => xdomTimeout .dumpEngine k false s) s).itg = s.itg
  | [] => rfl
  | k :: l => by rw [List.foldl_cons, xdomTimeout_fold_itg _ l, xdomTimeout_dumpEngine_itg]

/-- A capture that may start does so, and carries whether the wait's end started it. -/
theorem startDump_itg (auto : Bool) {s : State} (hf : s.itg.fatal ≠ none) (hd : s.itg.dumpSt = 0) :
    (startDump auto s).itg = { s.itg with dumpSt := 1, dump.auto := auto } := by
  have hgo : ¬ (s.itg.fatal.isNone = true ∨ s.itg.dumpSt ≠ 0) := by simp [hf, hd]
  rw [startDump, if_neg hgo]
  exact xdomTimeout_fold_itg _ _

theorem dumpGo_itg {s : State} (hg : sget none s.rf.guard pgMEM = none) (hf : s.itg.fatal ≠ none) (hd : s.itg.dumpSt = 0) :
    (dumpGo s).itg = { s.itg with dumpGo := true, dumpSt := 1, dump.auto := false } := by
  have hnot : ¬ s.itg.fatal.isNone = true := by simp [hf]
  rw [dumpGo, touchPage_none hg, if_neg hnot]
  exact startDump_itg false (s := { s with itg.dumpGo := true }) hf hd

/-- The header begins with its magic. -/
theorem dumpHead_magic (s : State) (m : Sparse Byte) : ∃ l, (dumpHead s m).take 0xFFC = 0x43 :: 0x4B :: 0x44 :: 0x4D :: l := by
  have hpre : [0x43, 0x4B, 0x44, 0x4D] <+: dumpHead s m := by
    delta dumpHead
    repeat refine List.IsPrefix.trans ?_ (List.prefix_append _ _)
    exact List.prefix_rfl
  obtain ⟨l, hl⟩ := hpre
  exact ⟨l.take 0xFF8, by rw [← hl]; rfl⟩

/-- What is laid down before the rest of the memory is read first. -/
theorem readBytes_magic (l : List Byte) (rest : Sparse Byte) :
    readBytes 0 (listCells 0 (0x43 :: 0x4B :: 0x44 :: 0x4D :: l) ++ rest) 0 4 = [0x43, 0x4B, 0x44, 0x4D] := rfl

theorem readBytes_dumpHead (s : State) (m : Sparse Byte) (l : List Byte) (rest : Sparse Byte) :
    readBytes 0 (listCells 0 ((dumpHead s m).take 0xFFC ++ l) ++ rest) 0 4 = [0x43, 0x4B, 0x44, 0x4D] := by
  obtain ⟨h, hh⟩ := dumpHead_magic s m
  rw [hh]
  exact readBytes_magic _ _

theorem dumpDone_mem {s : State} (hd : s.itg.dumpSt = 1) : readBytes 0 (dumpDone s).mem.dump 0 4 = [0x43, 0x4B, 0x44, 0x4D] := by
  rw [dumpDone, if_neg (not_not.2 hd), raise_mem]
  exact readBytes_dumpHead _ _ _ _

/-- Settles O54: what a fatal error records is `fatalRecord`, which bringing the tape to rest leaves alone; a capture's access faults leave
the dump's state, and its end lays the header down first. -/
theorem fatalErrorsAndTheDump : Obligations.FatalErrorsAndTheDump := by
  intro s
  refine ⟨fun v hg => ⟨fun hv => ?_, fun hv => ?_⟩, fun hf hd => ⟨fun hg => ?_, fun hgo => ?_⟩, fun hd => ?_, fun hg hd => ?_⟩
  · exact congrArg Host.Outcome.next (by rw [fenFatal, touchPage_none hg, hv]; rfl)
  · refine ⟨_, congrArg Host.Outcome.next (fenFatal_of_set hg hv), fatal_cause .., evPending_fatal .., fun hf hd => ?_⟩
    rw [fatal_itg, fatal_mem, fatalRecord_of_first _ _ hf hd, raise_itg, raise_mem]
    exact ⟨rfl, rfl, rfl⟩
  · exact ⟨_, rfl, by rw [dumpGo_itg hg hf hd], by rw [dumpGo_itg hg hf hd]⟩
  · have hstart : dumpWaitExpiry s = startDump true s := by rw [dumpWaitExpiry, hgo]; rfl
    exact ⟨_, congrArg Host.Outcome.next hstart, by rw [startDump_itg _ hf hd], by rw [startDump_itg _ hf hd]⟩
  · refine ⟨_, rfl, ?_, ?_, ?_, dumpDone_mem hd⟩ <;> rw [dumpDone, if_neg (not_not.2 hd)]
    · rw [raise_itg]
    · exact evPending_raise_self pgMEM 11 (by decide) _
    · rw [raise_itg]
  · exact congrArg Host.Outcome.next (by rw [dumpClear, touchPage_none hg, if_pos hd])

end Sys2Proof.Machine
end

section
/-! SUPPORT. The Head Write Link, the probe port's lock and JTAG (O57). -/

namespace Sys2Proof.Machine

/-! ### Guarded writes and security events -/

theorem guardedWrite_of_unfit {page : Nat} {v c : Word} {s : State} (hg : sget none s.rf.guard page = none) (hc : c ≠ ~~~v)
    (f : State → State) : guardedWrite page v c f s = guardFail page s := by
  simp [guardedWrite, hg, hc]

/-- A security event is pending on VLT. -/
theorem evPending_secEvent (s : State) : evPending (secEvent s) pgVLT 3 = true := evPending_raise_self pgVLT 3 (by decide) _

/-- A security event leaves what is pending pending. -/
theorem evPending_secEvent_keep {s : State} {p b : Nat} (h : evPending s p b = true) : evPending (secEvent s) p b = true :=
  evPending_raise_keep pgVLT 3 p b (by decide) _ h

/-! ### The Head Write Link -/

theorem linkFault_of_enabled {s : State} (h : rbit s pgWLK 0x140 28 = true) :
    linkFault s = requestEnd 9 (raise pgWLK 7 (bump pgWLK 0xA4C 1 { s with pins.hwlFltN := false })) := by
  have hnot : ¬ (!rbit { s with pins.hwlFltN := false } pgWLK 0x140 28) = true := by
    rw [show rbit { s with pins.hwlFltN := false } pgWLK 0x140 28 = true from h]; decide
  rw [linkFault, if_neg hnot]

theorem count_requestEnd (c : Nat) (s : State) (q o : Nat) : count (requestEnd c s) q o = count s q o := count_modPass _ s q o

/-- A requested end falls on a write pass that has none. -/
theorem requestEnd_pass_of_write {s : State} {p : Pass} (hp : s.trk.pass = some p) (hk : p.kind = .write) (hc : p.endCause = none) (c : Nat) :
    (requestEnd c s).trk.pass = some { p with endCause := some c } := by
  simp [requestEnd, hp, hk, hc]

/-- Lane `l` has been sent the ALIGN block of the count `t`, scrambled. -/
def Aligned (l : Nat) (t : Word) (s : State) : Prop :=
  ∃ n line, Out.blocks l 2 [alignBlock l t] line ∈ s.out ∧ descramble (Config.scramblerState n) line = payloadBits (alignBlock l t)

theorem aligned_sendBlocks_self (l : Nat) (t : Word) (s : State) : Aligned l t (sendBlocks l 2 [alignBlock l t] s) :=
  ⟨_, _, List.mem_cons_self, by rw [descramble_scramble]; simp⟩

theorem Aligned.sendBlocks {l : Nat} {t : Word} {s : State} (h : Aligned l t s) (k : Nat) (hd : BitVec 2) (ps : List (BitVec 64)) :
    Aligned l t (sendBlocks k hd ps s) := by
  obtain ⟨n, line, hmem, hline⟩ := h
  exact ⟨n, line, List.mem_cons_of_mem _ hmem, hline⟩

/-- Aligning further lanes keeps a lane aligned. -/
theorem Aligned.foldl {l : Nat} {t : Word} (ks : List Nat) : ∀ {s : State}, Aligned l t s →
    Aligned l t (ks.foldl (fun s k => Machine.sendBlocks k 2 [alignBlock k t] s) s) := by
  induction ks with
  | nil => exact id
  | cons k ks ih => exact fun h => ih (h.sendBlocks k 2 _)

theorem aligned_of_mem {l : Nat} {t : Word} {ks : List Nat} (hl : l ∈ ks) : ∀ s : State,
    Aligned l t (ks.foldl (fun s k => sendBlocks k 2 [alignBlock k t] s) s) := by
  induction ks with
  | nil => cases hl
  | cons k ks ih =>
    intro s
    rcases List.mem_cons.1 hl with rfl | hl
    · exact (aligned_sendBlocks_self l t s).foldl ks
    · exact ih hl _

theorem tcnt_foldl_sendBlocks (t : Word) (ks : List Nat) : ∀ s : State,
    (ks.foldl (fun s k => sendBlocks k 2 [alignBlock k t] s) s).hwl.tcnt = s.hwl.tcnt := by
  induction ks with
  | nil => exact fun _ => rfl
  | cons k ks ih => exact fun s => ih _

theorem align_of_enabled {s : State} (h : pageEn s pgWLK = true) :
    align s = (List.range (2 * laneGroups s.variant)).foldl (fun u l => sendBlocks l 2 [alignBlock l (s.hwl.tcnt + 4325376)] u)
      { s with hwl.tcnt := s.hwl.tcnt + 4325376 } := by
  rw [align, h]; rfl

theorem align_tcnt {s : State} (h : pageEn s pgWLK = true) : (align s).hwl.tcnt = s.hwl.tcnt + 4325376 := by
  rw [align_of_enabled h, tcnt_foldl_sendBlocks]

theorem aligned_align {s : State} (h : pageEn s pgWLK = true) {l : Nat} (hl : l < 2 * laneGroups s.variant) :
    Aligned l (align s).hwl.tcnt (align s) := by
  rw [align_tcnt h, align_of_enabled h]
  exact aligned_of_mem (List.mem_range.2 hl) _

/-! ### The probe port's lock -/

/-- Which words of a response have been written has no part in its verification. -/
theorem responseOk_wordWritten (n : Nat) (s : State) : responseOk (wordWritten n s) = responseOk s := by
  unfold wordWritten
  split
  · rfl
  · unfold responseOk authorityOk challenge response
    rfl

theorem wordWritten_prb (n : Nat) (s : State) :
    (wordWritten n s).prb = { s.prb with words := if n ∈ s.prb.words then s.prb.words else s.prb.words ++ [n] } := by
  unfold wordWritten
  split <;> rfl

/-- The last word makes a response whole where the other 23 have been written. -/
theorem all_words_wordWritten {s : State} :
    (List.range 24).all (fun n => decide (n ∈ (wordWritten 23 s).prb.words)) = true ↔ ∀ n, n < 23 → n ∈ s.prb.words := by
  have hmem : ∀ n, n ∈ (wordWritten 23 s).prb.words ↔ n ∈ s.prb.words ∨ n = 23 := by
    intro n
    rw [wordWritten_prb]
    dsimp only
    split
    · next h => exact ⟨Or.inl, fun h' => h'.elim id (· ▸ h)⟩
    · simp
  simp only [List.all_eq_true, List.mem_range, decide_eq_true_eq, hmem]
  refine ⟨fun h n hn => (h n (by omega)).resolve_right (by omega), fun h n hn => ?_⟩
  rcases Nat.lt_or_ge n 23 with hlt | hge
  · exact .inl (h n hlt)
  · exact .inr (by omega)

/-- A guarded write of RESPONSE[23] as it stands, before the port looks at its lock. -/
def lastWord (v : Word) (s : State) : State := wordWritten 23 (rset s pgPRB 0xE5C v)

theorem unlock_of_idle {s : State} (hg : sget none s.rf.guard pgPRB = none) {v c : Word} (hc : c = ~~~v) (nonce : List Byte)
    (h : (¬ ∀ n, n < 23 → n ∈ s.prb.words) ∨ s.prb.unlocked = true ∨ s.prb.lockedOut = true) :
    unlock v c nonce s = lastWord v s := by
  have hidle : (lastWord v s).prb.unlocked = true ∨ (lastWord v s).prb.lockedOut = true ∨
      (!(List.range 24).all (fun n => decide (n ∈ (lastWord v s).prb.words))) = true := by
    rw [Bool.not_eq_true', ← Bool.not_eq_true, lastWord, all_words_wordWritten, wordWritten_prb]
    exact or_assoc.1 (or_comm.1 h)
  rw [unlock, guardedWrite_of_pair hg hc]
  exact if_pos hidle

theorem unlock_of_whole {s : State} (hg : sget none s.rf.guard pgPRB = none) {v c : Word} (hc : c = ~~~v) (nonce : List Byte)
    (hw : ∀ n, n < 23 → n ∈ s.prb.words) (hu : s.prb.unlocked = false) (hl : s.prb.lockedOut = false) :
    unlock v c nonce s = verifyUnlock nonce (lastWord v s) := by
  have hgo : ¬ ((lastWord v s).prb.unlocked = true ∨ (lastWord v s).prb.lockedOut = true ∨
      (!(List.range 24).all (fun n => decide (n ∈ (lastWord v s).prb.words))) = true) := by
    rw [Bool.not_eq_true', ← Bool.not_eq_true, lastWord, all_words_wordWritten, wordWritten_prb]
    simpa [hu, hl] using hw
  rw [unlock, guardedWrite_of_pair hg hc]
  exact if_neg hgo

theorem verifyUnlock_of_ok (nonce : List Byte) {s : State} (h : responseOk s = true) :
    verifyUnlock nonce s = probePins (secEvent (raise pgPRB 0 (bump pgPRB 0xA00 1
      { s with prb.attempts := s.prb.attempts + 1, prb.unlocked := true }))) := by
  rw [verifyUnlock, h]; rfl

theorem verifyUnlock_of_bad (nonce : List Byte) {s : State} (h : responseOk s = false) :
    verifyUnlock nonce s = secEvent (raise pgPRB 1 (bump pgPRB 0xA04 1 (drawChallenge nonce
      { s with prb.attempts := s.prb.attempts + 1, prb.fails := s.prb.fails + 1, prb.lockedOut := decide (8 ≤ s.prb.fails + 1) }))) := by
  rw [verifyUnlock, h]; rfl

/-- What the verification of a whole response comes to (R667, R668). -/
theorem verifyUnlock_effect (nonce : List Byte) (s : State) :
    (verifyUnlock nonce s).prb.attempts = s.prb.attempts + 1 ∧ evPending (verifyUnlock nonce s) pgVLT 3 = true ∧
    (responseOk s = true → (verifyUnlock nonce s).prb.unlocked = true ∧ evPending (verifyUnlock nonce s) pgPRB 0 = true ∧
      (verifyUnlock nonce s).prb.fails = s.prb.fails) ∧
    (responseOk s = false → (verifyUnlock nonce s).prb.unlocked = s.prb.unlocked ∧ (verifyUnlock nonce s).prb.fails = s.prb.fails + 1 ∧
      (verifyUnlock nonce s).prb.lockedOut = decide (8 ≤ s.prb.fails + 1) ∧ (verifyUnlock nonce s).prb.nonce = nonce ∧
      (verifyUnlock nonce s).prb.words = [] ∧ evPending (verifyUnlock nonce s) pgPRB 1 = true) := by
  cases h : responseOk s with
  | true =>
    rw [verifyUnlock_of_ok nonce h]
    have hprb : ∀ u : State, (probePins (secEvent (raise pgPRB 0 (bump pgPRB 0xA00 1 u)))).prb = u.prb := fun u => by
      show (secEvent _).prb = _
      simp
    rw [hprb]
    exact ⟨rfl, evPending_secEvent _, fun _ => ⟨rfl, evPending_secEvent_keep (evPending_raise_self pgPRB 0 (by decide) _), rfl⟩, nofun⟩
  | false =>
    rw [verifyUnlock_of_bad nonce h]
    have hprb : ∀ u : State, (secEvent (raise pgPRB 1 (bump pgPRB 0xA04 1 u))).prb = u.prb := fun u => by simp
    rw [hprb]
    exact ⟨rfl, evPending_secEvent _, nofun,
      fun _ => ⟨rfl, rfl, rfl, rfl, rfl, evPending_secEvent_keep (evPending_raise_self pgPRB 1 (by decide) _)⟩⟩

/-! ### JTAG -/

theorem jtagGo_of_open {j : Jtag} (h : jtagGuarded j = false) (s : State) : jtagGo j s = { s with prb.jtag := j } := by
  simp [jtagGo, h]

theorem jtagGo_of_guarded {j : Jtag} (h : jtagGuarded j = true) (s : State) :
    jtagGo j s = { s with prb.jtag := if s.prb.unlocked then j else .bypass } := by
  cases hu : s.prb.unlocked <;> simp [jtagGo, h, hu]

/-- Settles O57: a reported fault ends a write pass through `requestEnd`; every lane is `Aligned` once the lanes' turn has come to it;
a whole response goes to `verifyUnlock`, whatever else keeps the lock as it is; and the guarded JTAG instructions ask the lock. -/
theorem linkProbeAndJtag : Obligations.LinkProbeAndJtag := by
  intro s
  refine ⟨fun hb => ?_, fun hen => ?_, fun lane w d hs hl => ?_, fun v c nonce hg => ⟨fun hc => ?_, fun hc hidle => ?_, fun hc hw hu hl => ?_⟩, congrArg Host.Outcome.next (jtagGo_of_open rfl s), congrArg Host.Outcome.next (jtagGo_of_open rfl s), ?_,
    congrArg Host.Outcome.next (jtagGo_of_guarded rfl s), congrArg Host.Outcome.next (jtagGo_of_guarded rfl s),
    congrArg Host.Outcome.next (jtagGo_of_guarded rfl s)⟩
  · refine ⟨_, congrArg Host.Outcome.next (linkFault_of_enabled hb), ?_, ?_, ?_, fun p hp hk hc => ?_⟩
    · show (raise _ _ _).pins.hwlFltN = false
      rw [raise_pins]; rfl
    · rw [evPending_requestEnd]
      exact evPending_raise_self pgWLK 7 (by decide) _
    · rw [count_requestEnd, count_raise (by decide), count_bump_self _ _ (by decide)]
      rfl
    · exact requestEnd_pass_of_write (by rw [raise_trk]; exact hp) hk hc 9
  · exact ⟨_, rfl, align_tcnt hen, fun l hl => aligned_align hen hl⟩
  · have hgo : ¬ ((!s.hwl.sending) = true ∨ 2 * laneGroups s.variant ≤ lane.val) := by simp [hs, hl]
    exact congrArg Host.Outcome.next (if_neg hgo)
  · exact congrArg Host.Outcome.next (guardedWrite_of_unfit hg hc _)
  · refine ⟨_, congrArg Host.Outcome.next (unlock_of_idle hg hc nonce hidle), ?_, ?_⟩ <;> rw [lastWord, wordWritten_prb] <;> rfl
  · have hprb : (lastWord v s).prb.unlocked = s.prb.unlocked ∧ (lastWord v s).prb.fails = s.prb.fails ∧
        (lastWord v s).prb.attempts = s.prb.attempts := by rw [lastWord, wordWritten_prb]; exact ⟨rfl, rfl, rfl⟩
    obtain ⟨hunl, hfails, hatt⟩ := hprb
    have hok : responseOk (rset s pgPRB 0xE5C v) = responseOk (lastWord v s) := (responseOk_wordWritten 23 _).symm
    have heff := verifyUnlock_effect nonce (lastWord v s)
    rw [hunl, hfails, hatt, hu, ← hok] at heff
    exact ⟨_, congrArg Host.Outcome.next (unlock_of_whole hg hc nonce hw hu hl), heff⟩
  · exact congrArg (fun u => Host.Outcome.next (emit (.tdo idcodeWord) u)) (jtagGo_of_open rfl s)

end Sys2Proof.Machine
end

section
/-! SUPPORT. A service slot of an idle owner, and the room of a completion queue (O19). -/

namespace Sys2Proof.Machine

/-- A fold whose every step leaves the state leaves it. -/
theorem foldl_fixed {α β : Type} {f : β → α → β} {b : β} (l : List α) (h : ∀ a, f b a = b) : l.foldl f b = b := by
  induction l with
  | nil => rfl
  | cons a l ih => rw [List.foldl_cons, h, ih]

/-! ### A polder with no work -/

/-- A polder without an intake queue in use has no group to compress. -/
theorem startCompress_of_idle {p : Nat} {s : State} (h : (riqOf s p).grps = []) : startCompress p s = s := by
  unfold startCompress
  refine foldl_fixed _ fun i => ?_
  simp only [h, List.find?_nil, ite_self]

/-- A polder without an intake queue in use has no group to encrypt. -/
theorem startEncrypt_of_idle {p : Fin 64} {s : State} (h : (riqOf s p.val).grps = []) : startEncrypt p s = s := by
  refine foldl_fixed _ fun i => ?_
  dsimp only
  rw [h]
  split <;> rfl

theorem issueReads_of_no_command (p : Fin 64) {s : State} (h : s.host.cmds = []) : issueReads p s = s := by
  rw [issueReads, h]
  split <;> rfl

theorem readsAdvance_of_no_read (p : Fin 64) {s : State} (h : s.rcd.reads = []) : readsAdvance p s = s := by
  rw [readsAdvance, h]; rfl

theorem fetchOne_of_no_source {p : Fin 64} {s : State} (h : pickSource s p = none) (fetch : Option Fetch) : fetchOne p fetch s = s := by
  rw [fetchOne, h]
  split <;> rfl

theorem slotUsed_of_idle (p : Fin 64) {s : State} (h : ∀ x ∈ s.rcd.cmp ++ s.rcd.cry ++ s.rcd.dcp, x.2.busy = false) :
    slotUsed p false 0 s = false := by
  rw [slotUsed, Bool.false_or, decide_eq_false (by decide), Bool.false_or, List.any_eq_false]
  intro x hx
  simp [h x hx]

/-- A polder that has no source, no intake words, no groups and no reads counts its slot and does nothing else (R482, R514). -/
theorem ownerSlot_of_idle {p : Fin 64} {s : State} (hsrc : pickSource s p = none) (hriq : s.rcd.riq = []) (hreads : s.rcd.reads = [])
    (hcmds : s.host.cmds = []) (hbusy : ∀ x ∈ s.rcd.cmp ++ s.rcd.cry ++ s.rcd.dcp, x.2.busy = false) :
    ownerSlot p none 0 s = meter p.val (fun m => { m with slotsOwn := m.slotsOwn + 1 }) s := by
  obtain ⟨vlt, hvlt⟩ : ∃ vlt, meter p.val (fun m => { m with slotsOwn := m.slotsOwn + 1 }) s = { s with vlt := vlt } := by
    unfold meter; split
    · exact ⟨_, rfl⟩
    · exact ⟨s.vlt, rfl⟩
  rw [hvlt]
  have hfetch : fetchOne p none { s with vlt := vlt } = { s with vlt := vlt } := fetchOne_of_no_source (s := { s with vlt := vlt }) hsrc none
  have hgrps : (riqOf { s with vlt := vlt } p.val).grps = [] := by
    show (sget {} s.rcd.riq p.val).grps = []
    rw [hriq]; rfl
  have hwork : readsAdvance p (issueReads p <| startEncrypt p (startCompress p.val (takeWords p.val 0 { s with vlt := vlt }))) =
      { s with vlt := vlt } := by
    rw [takeWords, startCompress_of_idle hgrps, startEncrypt_of_idle hgrps, issueReads_of_no_command p (by exact hcmds),
      readsAdvance_of_no_read p (by exact hreads)]
  rw [ownerSlot, hvlt, hfetch, hwork, ite_self, decide_eq_false (not_not.2 rfl), slotUsed_of_idle p (by exact hbusy)]
  rfl

theorem meter_of_on {p : Nat} {s : State} (h : polderOn s p = true) (f : Meter → Meter) :
    meter p f s = { s with vlt.meters := sset {} s.vlt.meters p (f (meterOf s p)) } := if_pos h

/-- Without a table swap waiting and without an activation a slot goes to its owner at once. -/
theorem serviceSlot_of_owner {p : Fin 64} {s : State} (hswap : s.ts.swap = false) (hact : s.host.activate = none)
    (hown : slotOwner { s with ts.idx := (s.ts.idx + 1) % 4096 } = some p) (fetch : Option Fetch) (words : Nat) :
    serviceSlot fetch words s = ownerSlot p fetch words { s with ts.idx := (s.ts.idx + 1) % 4096 } := by
  have hts : tsApply s = s := by rw [tsApply, hswap]; rfl
  have hgo : activateCheck { s with ts.idx := (s.ts.idx + 1) % 4096 } = { s with ts.idx := (s.ts.idx + 1) % 4096 } := by
    rw [activateCheck]
    dsimp only
    rw [hact]
  rw [serviceSlot, hts, ite_self]
  dsimp only
  rw [hgo, hown]

/-! ### The room of a completion queue -/

/-- A pair is served only where its completion queue has room for what is posted and what is fetched (R382). -/
theorem cqRoom_of_pairReady {s : State} {f : Fin 64} {q : Fin 16} (h : pairReady s f q = true) :
    cqHeld (getPair s f q) + (s.host.cmds.filter (fun c => c.src = .pcie f q)).length + 1 < (getPair s f q).cqN := by
  unfold pairReady at h
  simp only [Bool.and_eq_true] at h
  obtain ⟨-, hroom⟩ := h
  have := of_decide_eq_true hroom
  omega

/-- Settles O19: each engine of an idle owner finds nothing to start, so its slot is counted and nothing else is done; an aggregation
timeout of what is unsignalled signals; and a pair is ready only with room (`cqRoom_of_pairReady`). -/
theorem slotsFetchAndAggregate : Obligations.SlotsFetchAndAggregate := by
  refine ⟨⟨fun s p hswap hact hown hsrc hriq hreads hcmds hbusy hon => ?_, fun s f q hp hien hun => ?_⟩, fun s f q => cqRoom_of_pairReady⟩
  · refine congrArg Host.Outcome.next ?_
    rw [serviceSlot_of_owner hswap hact hown, ownerSlot_of_idle (by exact hsrc) (by exact hriq) (by exact hreads) (by exact hcmds)
      (by exact hbusy), meter_of_on (by exact hon)]
    rfl
  · exact congrArg Host.Outcome.next (if_pos ⟨hp, hien, hun⟩)

end Sys2Proof.Machine
end

section
/-! SUPPORT. What outlasts the ends of commands, reads, groups and passes: fences, pending events, the registers of TOP and MEM, and that
nothing is mounted, passing or fatal. -/

namespace Sys2Proof

/-- A listed key reads the same after a write of another, whatever is written and whatever the two keys read unlisted. -/
theorem sget_sset_of_listed_other {α : Type} [DecidableEq α] {d e : α} {k j : Nat} (hj : j ≠ k) (v : α) :
    ∀ {m : Sparse α}, sget d m j ≠ d → sget d (sset e m k v) j = sget d m j
  | [], h => absurd rfl h
  | (i, w) :: r, h => by
    simp only [sget] at h
    simp only [sset]
    split
    · next hki =>
      split
      · rfl
      · simp only [sget, if_neg hj]
        rw [if_neg fun hlt => ?_]
        rw [if_neg (by omega), if_pos (by omega)] at h
        exact h rfl
    · split
      · next hki =>
        subst hki
        have hlt : ¬ j < k := fun hlt => by simp [hj, hlt] at h
        split
        · simp only [sget, if_neg hj, if_neg hlt]
        · simp only [sget, if_neg hj, if_neg hlt]
      · simp only [sget]
        split
        · rfl
        · next hji =>
          split
          · rfl
          · next hlt =>
            rw [if_neg hji, if_neg hlt] at h
            exact sget_sset_of_listed_other hj v h

/-- A listed key that a filter keeps reads the same. -/
theorem sget_filter_of_listed {α : Type} {d : α} {j : Nat} {q : Nat → Bool} (hq : q j = true) :
    ∀ {m : Sparse α}, sget d m j ≠ d → sget d (m.filter (fun x => q x.1)) j = sget d m j
  | [], h => absurd rfl h
  | (i, w) :: r, h => by
    simp only [sget] at h ⊢
    by_cases hji : j = i
    · subst hji
      rw [List.filter_cons_of_pos (by exact hq)]
      simp only [sget, if_true]
    · rw [if_neg hji] at h ⊢
      have hlt : ¬ j < i := fun hlt => by simp [hlt] at h
      rw [if_neg hlt] at h ⊢
      have ih := sget_filter_of_listed hq h
      by_cases hi : q i = true
      · rw [List.filter_cons_of_pos (by exact hi)]
        simp only [sget, if_neg hji, if_neg hlt, ih]
      · rw [List.filter_cons_of_neg (by simpa using hi), ih]

end Sys2Proof

namespace Sys2Proof.Machine

/-! ### The relation -/

/-- The key of a register of TOP or MEM. -/
def coreReg (key : Nat) : Prop := key < 4096 ∨ 8192 ≤ key ∧ key < 12288

/-- What the parts of the machine may become while commands, reads, groups and passes end: a register of TOP or MEM reads the same where it
has been written or the registers are canonical, no event and no fence is lost, restarts that the watchdog has counted stand, a fatal error and a
software pass are the same, and what is not mounted or passing does not become so. -/
structure LastingIn (s : State) (rs : Sparse Word) (evs : Sparse EvPage) (cnt : Sparse Nat) (fences : Sparse Nat) (fatal : Option (Nat × Nat))
    (ps : Option (Nat × Nat × Nat)) (pass : Option Pass) (cart : Option Cart) (dma : Sparse DmaChan) : Prop where
  wf : swf regReset s.rf.regs = true → swf regReset rs = true
  regs : ∀ k, coreReg k → swf regReset s.rf.regs = true ∨ sget (regReset k) s.rf.regs k ≠ regReset k →
    sget (regReset k) rs k = sget (regReset k) s.rf.regs k
  events : ∀ page b, evPending s page b = true → (sget {} evs page).pend.getLsbD b = true
  counts : count s pgTOP 0xA04 ≠ 0 → sget 0 cnt (rkey pgTOP 0xA04) = count s pgTOP 0xA04
  fences : ∀ u, isFenced s u = true → sget 0 fences u ≠ 0
  fatal : fatal = s.itg.fatal
  ps : ps = s.itg.ps
  pass : s.trk.pass = none → pass = none
  cart : s.cart = none → cart = none
  dma : dma = s.dma

/-- One state outlasts another. It is said of those parts alone, so that after an update of any other part it is the same statement. -/
def Lasting (s t : State) : Prop :=
  LastingIn s t.rf.regs t.rf.ev t.rf.cnt t.itg.fences t.itg.fatal t.itg.ps t.trk.pass t.cart t.dma

namespace Lasting

theorem refl (s : State) : Lasting s s :=
  ⟨id, fun _ _ _ => rfl, fun _ _ => id, fun _ => rfl, fun _ hu => of_decide_eq_true hu, rfl, rfl, id, id, rfl⟩

theorem rget_eq {s t : State} (h : Lasting s t) {page off : Nat} (hk : coreReg (rkey page off))
    (hs : swf regReset s.rf.regs = true ∨ rget s page off ≠ regReset (rkey page off)) : rget t page off = rget s page off :=
  h.regs _ hk hs

theorem isFenced_of {s t : State} (h : Lasting s t) {u : Nat} (hu : isFenced s u = true) : isFenced t u = true :=
  decide_eq_true (h.fences u hu)

section Steps
variable {s₀ s t : State} (h : Lasting s₀ s)
include h

theorem ite {c : Prop} [Decidable c] (h' : Lasting s₀ t) : Lasting s₀ (if c then s else t) := by split <;> assumption

theorem foldl {α : Type} {f : State → α → State} (hf : ∀ u a, Lasting s₀ u → Lasting s₀ (f u a)) (l : List α) : Lasting s₀ (l.foldl f s) := by
  induction l generalizing s with
  | nil => exact h
  | cons a r ih => exact ih (hf s a h)

theorem foldNat {α : Type} {f : State → α → State} (hf : ∀ u a, Lasting s₀ u → Lasting s₀ (f u a)) (l : List α) :
    Lasting s₀ (foldNat f s l) := by
  induction l generalizing s with
  | nil => exact h
  | cons a r ih => exact ih (hf s a h)

/-! ### Registers, counters, events and fences -/

/-- A write of a register behind MEM's. -/
theorem rset {page : Nat} (hp : 3 ≤ page) (off : Nat) (v : Word) : Lasting s₀ (rset s page off v) :=
  { h with
    wf := fun hw => swf_sset regReset (h.wf hw) _ _
    regs := fun k hk hs => by
      have hst := h.regs k hk hs
      have hne : k ≠ rkey page off := by simp only [coreReg] at hk; simp only [rkey]; omega
      rw [← hst]
      rcases hs with hw | hl
      · exact sget_sset_other regReset (h.wf hw) _ k v hne _
      · exact sget_sset_of_listed_other hne v (hst ▸ hl) }

theorem bump {page off : Nat} (hk : rkey page off ≠ rkey pgTOP 0xA04) (n : Nat) : Lasting s₀ (bump page off n s) :=
  { h with
    counts := fun hc => by
      have hst := h.counts hc
      rw [← hst]
      exact sget_sset_of_listed_other hk.symm _ (hst ▸ hc) }

theorem raise {b : Nat} (hb : b < 16) (page : Nat) : Lasting s₀ (raise page b s) := by
  have hev : ∀ q c, evPending s₀ q c = true → evPending (Machine.raise page b s) q c = true :=
    fun q c hc => evPending_raise_keep page b q c hb s (h.events q c hc)
  have hcnt : count (Machine.raise page b s) pgTOP 0xA04 = count s pgTOP 0xA04 := count_raise (by decide) page b s
  obtain ⟨rf, out, hr⟩ := raise_frame page b s
  have hregs : rf.regs = s.rf.regs := by simpa only [hr] using raise_regs page b s
  rw [hr] at hev hcnt ⊢
  exact { h with
    wf := fun hw => hregs ▸ h.wf hw
    regs := fun k hk hs => hregs ▸ h.regs k hk hs
    events := hev
    counts := fun hc => hcnt.trans (h.counts hc) }

theorem noteFence (code cause : Nat) : Lasting s₀ (noteFence code cause s) :=
  raise (bump (h.rset (by decide) ..) (by decide) 1) (by decide) _

/-- A unit is fenced with a cause. -/
theorem markFence {cause : Nat} (hc : cause ≠ 0) (code : Nat) : Lasting s₀ (markFence code cause s) :=
  have hmark : Lasting s₀ { s with itg.fences := sset 0 s.itg.fences code cause } :=
    { h with
      fences := fun u hu => by
        by_cases hcode : u = code
        · subst hcode
          rw [sget_sset_eq _ _ _ _ hc]
          exact hc
        · rw [sget_sset_ne _ _ _ _ _ hc hcode]
          exact h.fences u hu }
  hmark.noteFence code cause

theorem setPart (p : Nat) (f : PartEntry → PartEntry) : Lasting s₀ (setPart p f s) := by
  unfold Machine.setPart
  split
  · exact h
  · next c hc => exact { h with cart := fun hn => by simpa [hc] using h.cart hn }

theorem modPass (f : Pass → Pass) : Lasting s₀ (modPass f s) :=
  { h with pass := fun hn => by simp [h.pass hn] }

/-! ### Completions -/

theorem signalPair (f : Fin 64) (q : Fin 16) : Lasting s₀ (signalPair f q s) := by
  unfold Machine.signalPair
  dsimp only
  split <;> exact h

theorem haltPair (f : Fin 64) (q : Fin 16) : Lasting s₀ (haltPair f q s) := h

theorem winFaultPair (f : Fin 64) (q : Fin 16) (a : Nat) (wr : Bool) (kind : Nat) : Lasting s₀ (winFaultPair f q a wr kind s) := by
  have hpage : 3 ≤ pgWIN f.val := by simp only [pgWIN]; omega
  have hwin : Lasting s₀ (winRefused f.val a wr kind 0 s) :=
    bump (((h.rset hpage ..).rset hpage ..).rset hpage ..) (by simp only [rkey, pgWIN, pgTOP]; omega) 1
  exact (hwin.haltPair f q).raise (by decide) _

theorem postPcie (f : Fin 64) (q : Fin 16) (c : Cmd) (st : BitVec 16) (res : BitVec 64) : Lasting s₀ (postPcie f q c st res s) := by
  unfold Machine.postPcie
  dsimp only
  split
  · exact h
  · split
    · exact h.winFaultPair ..
    · refine signalPair (ite ?_ (bump ?_ (by simp only [rkey, pgQMG, pgTOP]; omega) 1)) f q <;> exact h

theorem bump64 {page off : Nat} (hk : rkey page off ≠ rkey pgTOP 0xA04) (n : Nat) : Lasting s₀ (bump64 page off n s) :=
  { h with
    counts := fun hc => by
      have hst := h.counts hc
      rw [← hst]
      exact sget_sset_of_listed_other hk.symm _ (hst ▸ hc) }

theorem txFrame (q : Fin 1024) (p : Packet) : Lasting s₀ (txFrame q p s) := by
  unfold Machine.txFrame
  dsimp only
  split
  · exact h
  · split
    · exact h
    · exact h.bump64 (by simp only [rkey, pgNET, pgTOP]; omega) 1

theorem sendCapsule (q : Fin 1024) : Lasting s₀ (sendCapsule q s) := by
  unfold Machine.sendCapsule
  dsimp only
  split
  · exact h
  · exact bump (txFrame (s := setQp q _ s) h ..) (by decide) 1

theorem postNet (q : Fin 1024) (c : Cmd) (st : BitVec 16) (res : BitVec 64) : Lasting s₀ (postNet q c st res s) := by
  unfold Machine.postNet netPost
  dsimp only
  split
  · exact h
  · exact ite (sendCapsule (s := setQp q _ s) h q) h

theorem drainCheck (src : Src) : Lasting s₀ (drainCheck src s) := by
  unfold Machine.drainCheck
  dsimp only
  split
  · exact h
  · next q =>
    have hfree : Lasting s₀ (setQp q {} { Machine.sendCapsule q s with net.qopBusy := false }) := h.sendCapsule q
    split
    · exact ite ((hfree.rset (by decide) ..).raise (by decide) _) h
    · exact h

theorem logError (c : Cmd) (st : BitVec 16) (res : BitVec 64) : Lasting s₀ (logError s c st res) := by
  unfold Machine.logError
  dsimp only
  split <;> exact h

theorem postOne (c : Cmd) (st : BitVec 16) (res : BitVec 64) : Lasting s₀ (postOne c st res s) := by
  have hdrop : Lasting s₀ (dropCmd c.handle s) := h
  unfold Machine.postOne
  dsimp only
  refine drainCheck (ite hdrop (logError ?_ c st res)) c.src
  split
  · exact hdrop.postPcie ..
  · exact hdrop.postNet ..

theorem postScan (l : List Cmd) (blk : List Src) : Lasting s₀ (postScan l blk s) := by
  induction l generalizing blk s with
  | nil => exact h
  | cons c r ih =>
    unfold Machine.postScan
    split
    · exact ih h _
    · exact ite (ih (h.postOne ..) _) (ih h _)

theorem postReady : Lasting s₀ (postReady s) := ite h (h.postScan ..)

theorem finish (c : Nat) (st : BitVec 16) (res : BitVec 64) : Lasting s₀ (finish c st res s) := postReady (by exact h)

theorem finishAll (p : Cmd → Bool) (st : BitVec 16) (res : BitVec 64) : Lasting s₀ (finishAll p st res s) := by
  have hdec : Lasting s₀
      { s with host.cmds := s.host.cmds.map fun c => if p c ∧ c.fin.isNone then { c with fin := some (st, res) } else c } := h
  exact ite hdec (hdec.postScan ..)

omit h in
theorem metered {f : State → State} (hf : Lasting s₀ (f s)) : Lasting s₀ (metered f s) := by
  obtain ⟨m, hm⟩ := meterCmds_meters s.host.cmds (f s)
  rw [Machine.metered, hm]
  exact hf

/-! ### Buffers, slots and the flush of a queue -/

theorem setRiq (p : Nat) (r : Riq) : Lasting s₀ (setRiq p r s) := h

theorem freeBufs (l : List Nat) : Lasting s₀ (freeBufs l s) := by
  obtain ⟨_, _, _, hb⟩ := freeBufs_pools l s
  rw [hb]
  exact h

theorem quotaCut : Lasting s₀ (quotaCut s) := by
  unfold Machine.quotaCut
  split
  · exact h
  · split
    · exact h
    · exact (h.rset (by decide) ..).raise (by decide) _

theorem setSlot (i : Nat) (x : Slot) : Lasting s₀ (setSlot i x s) := h

theorem retireNow (i : Nat) : Lasting s₀ (retireNow i s) := quotaCut (raise (bump (h.setSlot ..) (by decide) 1) (by decide) _)

theorem freeSlot (i : Nat) : Lasting s₀ (freeSlot i s) := ite (h.retireNow i) (h.setSlot ..)

theorem freeSlots (p : Slot → Bool) : Lasting s₀ (freeSlots p s) := h.foldNat (fun _ _ hu => hu.freeSlot _) _

theorem closeFilling (part : Nat) : Lasting s₀ (closeFilling part s) :=
  h.foldNat (fun u i hu => by
    unfold fillFull noteFull
    split
    · split <;> exact hu
    · exact hu) _

theorem truncatePart (part l : Nat) : Lasting s₀ (truncatePart part l s) := by
  have hmarks : Lasting s₀ (marksBelow s part l).2 := by
    unfold marksBelow
    split
    · exact h
    · split <;> exact h
  unfold Machine.truncatePart
  dsimp only
  refine closeFilling ?_ part
  split
  · exact hmarks.setPart ..
  · next c hc =>
    have hset := hmarks.setPart part fun e => { e with wgen := e.wgen + 1, eodLrn := l, eodMarks := (marksBelow s part l).1 }
    exact { hset with cart := fun hn => absurd (hset.cart hn) (by rw [hc]; exact Option.some_ne_none c) }

theorem dropGroups (p : Nat) : Lasting s₀ (dropGroups p s) := by
  unfold Machine.dropGroups freeFor
  exact freeBufs (by exact h) _

theorem rollback (p part l : Nat) : Lasting s₀ (rollback p part l s) := by
  have hdrop := h.dropGroups p
  have hback : ∀ put, Lasting s₀ (takeBack part put (Machine.dropGroups p s)).2 := fun put => by
    unfold takeBack
    split
    · split <;> exact hdrop
    · exact hdrop
  unfold Machine.rollback
  dsimp only
  refine setRiq ?_ p _
  exact ite ((hback _).truncatePart part l) (hback _)

theorem emptyRiq (p : Nat) (report : Bool) : Lasting s₀ (emptyRiq p report s) := h.dropGroups p

theorem flushRiq (p : Nat) (report : Bool) (holds : Cmd → Bool) (st : BitVec 16) : Lasting s₀ (flushRiq p report holds st s) := by
  have hbump : Lasting s₀ (Machine.bump (pgRIQ p) 0xA24 1 s) := h.bump (by simp only [rkey, pgRIQ, pgTOP]; omega) 1
  unfold Machine.flushRiq
  dsimp only
  cases (riqOf (Machine.bump (pgRIQ p) 0xA24 1 s) p).part with
  | none =>
    have hempty := hbump.emptyRiq p report
    exact ite (hempty.raise (by decide) _) hempty
  | some q =>
    have hempty := (hbump.rollback p q.val (rollPoint (Machine.bump (pgRIQ p) 0xA24 1 s) p q.val)).emptyRiq p report
    exact ((ite (hempty.raise (by decide) _) hempty).finishAll ..).finishAll ..

theorem failGrp (p : Nat) (g : Grp) (st : BitVec 16) : Lasting s₀ (failGrp p g st s) := h.flushRiq ..

theorem rewind (p no : Nat) (f : Grp → Grp) : Lasting s₀ (rewind p no f s) := by
  unfold Machine.rewind
  dsimp only
  split
  · exact h
  · exact raise (bump (by exact freeBufs (by exact h) _) (by simp only [rkey, pgRIQ, pgTOP]; omega) 1) (by decide) _

theorem killRead (c : Nat) : Lasting s₀ (killRead c s) := freeBufs (by exact h) _

theorem tidyCmds : Lasting s₀ (tidyCmds s) := by
  unfold Machine.tidyCmds
  extract_lets live liveNo u lat sched v syncs unl
  have hu : Lasting s₀ u := by
    dsimp only [u]
    split
    · exact h
    · next c hc =>
      have hmounted : ∀ x : Option Cart, s₀.cart = none → x = none := fun _ hn => by simpa [hc] using h.cart hn
      split
      · exact h
      · split
        · exact h
        · exact { h with cart := hmounted _ }
  have hv : Lasting s₀ v := by
    dsimp only [v]
    split
    · exact hu
    · split <;> exact hu
  exact hv

end Steps

end Lasting

end Sys2Proof.Machine
end

section
/-! SUPPORT. Fences set by parity faults and by writes, and their release (O53). -/

namespace Sys2Proof.Machine

/-! ### What a fence sets in train leaves fenced (R548, R549) -/

namespace Lasting

section Steps
variable {s₀ s : State} (h : Lasting s₀ s)
include h

theorem killReads (p : Nat) : Lasting s₀ (killReads p s) :=
  h.foldl (fun u j hu => by
    split
    · exact ite (hu.killRead _) hu
    · exact hu) _

theorem polderFull (p : Nat) : Lasting s₀ (polderFull p s) := h.foldNat (fun _ _ hu => hu.closeFilling _) _

theorem rdmaWrite (q : Fin 1024) (c : Nat) (key : Word) (a : Nat) (bs : List Byte) : Lasting s₀ (rdmaWrite q c key a bs s) := by
  unfold Machine.rdmaWrite
  dsimp only
  split
  · exact h
  · exact txFrame (by exact h) ..

theorem deliverKey (key : Word) (c : Cmd) (pieces : List (Nat × Nat)) (off : Nat) (bs : List Byte) :
    Lasting s₀ (deliverKey key c pieces off bs s) :=
  h.foldl (fun u ab hu => by
    split
    · exact hu
    · exact hu.rdmaWrite ..) _

theorem endRead (j : ReadJob) (st : BitVec 16) (res : BitVec 64) : Lasting s₀ (endRead j st res s) := by
  unfold Machine.endRead
  split
  · exact h
  · next c _ =>
    have hgive := h.deliverKey c.rkeyl c [(csp c.e 0x28 8, 4 * csp c.e 0x20 4)] 0 ((j.lens.map (fun w => leBytes w.toNat 4)).flatten)
    extract_lets u v
    have hv : Lasting s₀ v := by
      dsimp only [v]
      split <;> exact hgive
    have hdrop : Lasting s₀ (dropJob j.h (Machine.freeBufs j.bufs v)) := hv.freeBufs j.bufs
    exact metered (hdrop.finish ..)

end Steps

end Lasting

/-- The unit that a fence marks stays marked through what outlasts it. -/
theorem isFenced_of_lasting {cause code : Nat} (hc : cause ≠ 0) {s t : State} (h : Lasting (markFence code cause s) t) : isFenced t code = true :=
  h.isFenced_of (isFenced_markFence hc code s)

theorem isFenced_fencePolder {cause : Nat} (hc : cause ≠ 0) (p : Nat) (s : State) : isFenced (fencePolder p cause s) (0x1000 + p) = true := by
  unfold fencePolder
  split
  · assumption
  · have hmark : Lasting (markFence (0x1000 + p) cause s) (raise pgFEN 3 (markFence (0x1000 + p) cause s)) := (Lasting.refl _).raise (by decide) _
    extract_lets u vlt v started w x y
    have hv : Lasting (markFence (0x1000 + p) cause s) v := hmark
    have hw : Lasting (markFence (0x1000 + p) cause s) w := by
      dsimp only [w]
      split
      · exact Lasting.metered (hv.flushRiq ..)
      · exact hv
    have hy : Lasting (markFence (0x1000 + p) cause s) y := Lasting.metered ((hw.killReads p).finishAll ..)
    exact isFenced_of_lasting hc (hy.tidyCmds.polderFull p)

theorem isFenced_fenceCmp {cause : Nat} (hc : cause ≠ 0) (i : Nat) (s : State) : isFenced (fenceCmp i cause s) (0x3000 + i) = true := by
  unfold fenceCmp
  split
  · assumption
  · extract_lets u v
    have hv : Lasting (markFence (0x3000 + i) cause s) v := (Lasting.refl u).foldl (fun w p hw => by
      split
      · exact hw
      · exact Lasting.ite (hw.rewind ..) (hw.failGrp ..)) _
    clear_value v
    exact isFenced_of_lasting hc (by exact hv)

theorem isFenced_fenceDcp {cause : Nat} (hc : cause ≠ 0) (i : Nat) (s : State) : isFenced (fenceDcp i cause s) (0x4000 + i) = true := by
  unfold fenceDcp
  split
  · assumption
  · exact isFenced_markFence hc _ s

theorem isFenced_fencePair {cause : Nat} (hc : cause ≠ 0) (i : Fin 12) (s : State) : isFenced (fencePair i cause s) (0x5000 + i.val) = true := by
  have hmark : Lasting (markFence (0x5000 + i.val) cause s) (raise (pgCRY i.val) 1 (markFence (0x5000 + i.val) cause s)) :=
    (Lasting.refl _).raise (by decide) _
  unfold fencePair
  extract_lets u v off rcd w again rcd' x
  have hv : Lasting (markFence (0x5000 + i.val) cause s) v := hmark.foldl (fun w p hw => by
    split
    · exact hw
    · exact Lasting.ite (hw.rewind ..) (hw.failGrp ..)) _
  clear_value v
  have hx : Lasting (markFence (0x5000 + i.val) cause s) x := hv
  exact isFenced_of_lasting hc (Lasting.ite (hx.foldl (fun _ j hu => hu.endRead j ..) _) hx)

theorem isFenced_fenceCry {cause : Nat} (hc : cause ≠ 0) (i : Fin 12) (s : State) : isFenced (fenceCry i.val cause s) (0x5000 + i.val) = true := by
  have hi : Fin.ofNat 12 i.val = i := Fin.ext (Nat.mod_eq_of_lt i.isLt)
  unfold fenceCry
  split
  · assumption
  · rw [hi]
    exact isFenced_fencePair hc i s

theorem isFenced_fenceAdc {cause : Nat} (hc : cause ≠ 0) (n : Nat) (s : State) : isFenced (fenceAdc n cause s) (0x7000 + n) = true := by
  unfold fenceAdc
  split
  · assumption
  · exact isFenced_markFence hc _ s

theorem isFenced_lgLose {cause : Nat} (hc : cause ≠ 0) (k : Nat) (s : State) : isFenced (lgLose k cause s) (0x8000 + k) = true :=
  isFenced_markFence hc _ _

/-! ### Parity faults (R544, R618) -/

theorem parityFault_of_faulty {page off : Nat} (ho : off < 4096) (h4 : off % 4 = 0) {s : State} (h : hasParity s page off = true) :
    parityFault (4096 * page + off) s = parityOutcome page (raise pgMEM 12 (bump pgMEM 0xA20 1
      (if rbit s page 0x018 0 then s else rset s page 0x018 (BitVec.ofNat 32 (1 + off))))) := by
  have hpage : (4096 * page + off) / 4096 = page := by omega
  have hoff : (4096 * page + off) % 4096 / 4 * 4 = off := by omega
  have hgo : ¬ (!hasParity s page off) = true := by simp [h]
  rw [parityFault]
  dsimp only
  rw [hpage, hoff, if_neg hgo]

/-- The state that a parity fault of a page leaves before its outcome. -/
def parityNoted (page off : Nat) (s : State) : State :=
  raise pgMEM 12 (bump pgMEM 0xA20 1 (if rbit s page 0x018 0 then s else rset s page 0x018 (BitVec.ofNat 32 (1 + off))))

theorem parityFault_top {off : Nat} (ho : off < 4096) (h4 : off % 4 = 0) {s : State} (h : hasParity s pgTOP off = true) :
    parityFault (4096 * pgTOP + off) s = fatal 1 pgTOP (parityNoted pgTOP off s) := by
  rw [parityFault_of_faulty ho h4 h]
  rfl

theorem pageBlock_riq (v : Variant) (p : Fin 64) : pageBlock v (pgRIQ p.val) = some (.riq, p.val) := by
  cases v <;> revert p <;> decide

theorem parityFault_riq {p : Fin 64} {off : Nat} (ho : off < 4096) (h4 : off % 4 = 0) {s : State} (h : hasParity s (pgRIQ p.val) off = true) :
    parityFault (4096 * pgRIQ p.val + off) s = fencePolder p.val 1 (parityNoted (pgRIQ p.val) off s) := by
  rw [parityFault_of_faulty ho h4 h, parityOutcome, pageBlock_riq]
  rfl

/-- A fatal error leaves every register. -/
theorem rget_fatal (cause page : Nat) (s : State) (q o : Nat) : rget (fatal cause page s) q o = rget s q o := by
  have hpatch : ∀ u : State, (patchDump cause u).rf = u.rf := fun u => by unfold patchDump; split <;> rfl
  rw [rget, fatal_rf, fatalRecord, raise_regs]
  dsimp only
  split
  · rw [hpatch]; rfl
  · rfl

theorem evPending_fatal_keep {s : State} {p b : Nat} (h : evPending s p b = true) (cause page : Nat) :
    evPending (fatal cause page s) p b = true := by
  have hpatch : ∀ u : State, (patchDump cause u).rf = u.rf := fun u => by unfold patchDump; split <;> rfl
  have hrf := fatal_rf cause page s
  rw [evPending, evOf, hrf]
  refine evPending_raise_keep pgMEM 10 p b (by decide) _ ?_
  rw [evPending, evOf]
  dsimp only
  split
  · rw [hpatch]; exact h
  · exact h

theorem parstat_parityNoted_top {off : Nat} (ho : off < 4096) {s : State} (h : rbit s pgTOP 0x018 0 = false) :
    rget (parityNoted pgTOP off s) pgTOP 0x018 = BitVec.ofNat 32 (1 + off) := by
  have hreset : regReset (rkey pgTOP 0x018) = 0 := by decide
  have hne : BitVec.ofNat 32 (1 + off) ≠ regReset (rkey pgTOP 0x018) := by
    rw [hreset]
    intro hz
    have := congrArg BitVec.toNat hz
    simp at this
    omega
  rw [parityNoted, rget_raise, h]
  exact sget_sset_eq _ _ _ _ hne

/-! ### FENCE (R548, R550) -/

/-- The units of the kind of cipher pairs. -/
theorem unit_lt_of_cipher {s : State} {u : Nat} (h : unitExists s u = true) (hk : u / 4096 = 5) : u % 4096 < 12 := by
  rw [unitExists, Bool.and_eq_true, hk] at h
  exact of_decide_eq_true h.1

section Fence
variable {s : State} {r : Requester} {v : Word} (hg : sget none s.rf.guard pgFEN = none)
include hg

theorem fence_of_absent (h : unitExists s (bits v 15 0) = false) : fence r v s = raise pgFEN 4 s := by
  rw [fence, touchPage_none hg, h]
  rfl

theorem fence_of_exists (h : unitExists s (bits v 15 0) = true) : fence r v s = match bits v 15 0 / 4096 with
    | 1 => if isPf0 r then fencePolder (bits v 15 0 % 4096) 6 s else fenceDenied true s
    | 3 => fenceCmp (bits v 15 0 % 4096) 6 s
    | 4 => fenceDcp (bits v 15 0 % 4096) 6 s
    | 5 => fenceCry (bits v 15 0 % 4096) 6 s
    | 6 => fenceTile (bits v 15 0 % 4096) 8 s
    | 7 => fenceAdc (bits v 15 0 % 4096) 6 s
    | 8 => if isFenced s (bits v 15 0) ∧ fenceCause s (bits v 15 0) ≠ 8 then s else lgLose (bits v 15 0 % 4096) 6 s
    | _ => fenceDenied false s := by
  rw [fence, touchPage_none hg, h]
  rfl

/-- What cannot be fenced is denied. -/
theorem fence_of_denied (h : unitExists s (bits v 15 0) = false ∨ bits v 15 0 / 4096 = 2 ∨ 9 ≤ bits v 15 0 / 4096) :
    fence r v s = raise pgFEN 4 s := by
  cases hex : unitExists s (bits v 15 0) with
  | false => exact fence_of_absent hg hex
  | true =>
    rw [fence_of_exists hg hex]
    rcases h with h | h | h
    · exact absurd (hex.symm.trans h) (by decide)
    · rw [h]; rfl
    · obtain ⟨k, hk⟩ := Nat.exists_eq_add_of_le' h
      rw [hk]; rfl

theorem fence_of_foreign (h : unitExists s (bits v 15 0) = true) (hk : bits v 15 0 / 4096 = 1) (hr : r ≠ .pf0) :
    fence r v s = secEvent (raise pgFEN 4 s) := by
  rw [fence_of_exists hg h, hk]
  exact if_neg (by simp [isPf0, hr])

/-- A unit of a kind that can be fenced is fenced. -/
theorem isFenced_fence (h : unitExists s (bits v 15 0) = true) (hk : (bits v 15 0 / 4096 = 1 ∧ r = .pf0) ∨ bits v 15 0 / 4096 = 3 ∨
    bits v 15 0 / 4096 = 4 ∨ bits v 15 0 / 4096 = 5 ∨ bits v 15 0 / 4096 = 7 ∨ bits v 15 0 / 4096 = 8) :
    isFenced (fence r v s) (bits v 15 0) = true := by
  have hu : bits v 15 0 = 4096 * (bits v 15 0 / 4096) + bits v 15 0 % 4096 := (Nat.div_add_mod _ _).symm
  rw [fence_of_exists hg h]
  rcases hk with ⟨hk, rfl⟩ | hk | hk | hk | hk | hk <;> rw [hk] at hu ⊢
  · exact (congrArg (isFenced _) hu).trans (isFenced_fencePolder (cause := 6) (by decide) _ s)
  · exact (congrArg (isFenced _) hu).trans (isFenced_fenceCmp (cause := 6) (by decide) _ s)
  · exact (congrArg (isFenced _) hu).trans (isFenced_fenceDcp (cause := 6) (by decide) _ s)
  · exact (congrArg (isFenced _) hu).trans (isFenced_fenceCry (cause := 6) (by decide) ⟨_, unit_lt_of_cipher h hk⟩ s)
  · exact (congrArg (isFenced _) hu).trans (isFenced_fenceAdc (cause := 6) (by decide) _ s)
  · show isFenced (if isFenced s (bits v 15 0) ∧ fenceCause s (bits v 15 0) ≠ 8 then s else lgLose (bits v 15 0 % 4096) 6 s) _ = true
    split
    · next hf => exact hf.1
    · exact (congrArg (isFenced _) hu).trans (isFenced_lgLose (cause := 6) (by decide) _ s)

/-- A tile that is fenced has reason 8, where it is not fenced already. -/
theorem reason_fence (h : unitExists s (bits v 15 0) = true) (hk : bits v 15 0 / 4096 = 6) :
    (tileOf (fence r v s) (bits v 15 0 % 4096)).reason =
      if (tileOf s (bits v 15 0 % 4096)).reason = 0 then 8 else (tileOf s (bits v 15 0 % 4096)).reason := by
  rw [fence_of_exists hg h, hk]
  show (tileOf (fenceTile (bits v 15 0 % 4096) 8 s) _).reason = _
  split
  · next h0 => exact (fenceTile_records h0 (by decide)).1
  · next h0 => rw [fenceTile, if_pos (by exact h0)]

end Fence

/-! ### UNFENCE and self-tests (R550, R560) -/

theorem guardFail_fen (s : State) : guardFail pgFEN s = raise pgFEN 5 s := by
  have hblock : (blockOf s pgFEN).bind guardFailBit = some 5 := rfl
  rw [guardFail, hblock, raiseOpt]

theorem isFenced_release_self {s : State} (hw : swf (fun _ => 0) s.itg.fences = true) (u : Nat) : isFenced (release u s) u = false := by
  rw [isFenced, fenceCause, release, raise_itg]
  exact decide_eq_false (not_not.2 (sget_sset_self (fun _ => 0) hw u 0))

theorem isFenced_release_other {s : State} (hw : swf (fun _ => 0) s.itg.fences = true) {u x : Nat} (hx : x ≠ u) :
    isFenced (release u s) x = isFenced s x := by
  rw [isFenced, fenceCause, release, raise_itg]
  exact congrArg (fun c => decide (c ≠ 0)) (sget_sset_other (fun _ => 0) hw u x 0 hx 0)

theorem evPending_release (u : Nat) (s : State) : evPending (release u s) pgFEN 1 = true := evPending_raise_self pgFEN 1 (by decide) _

section Unfence
variable {s : State} {r : Requester} {u : Nat}

theorem unfenceUnit_of_absent (h : unitExists s u = false) : unfenceUnit r u s = raise pgFEN 4 s := by
  rw [unfenceUnit, h]; rfl

theorem unfenceUnit_of_exists (h : unitExists s u = true) : unfenceUnit r u s = match u / 4096 with
    | 1 => if !isPf0 r then fenceDenied true s else if isFenced s u then release u s else s
    | 3 => unfenceUnit.test u s
    | 4 => unfenceUnit.test u s
    | 5 => unfenceUnit.test u s
    | 7 => unfenceUnit.test u s
    | 8 =>
      if !isFenced s u then s
      else if (lgOf s (u % 4096)).heldFence then release u (setLg (u % 4096) { lgOf s (u % 4096) with heldFence := false } s)
      else fenceDenied false s
    | _ => fenceDenied false s := by
  rw [unfenceUnit, h]; rfl

theorem unfenceUnit_of_denied (h : unitExists s u = false ∨ u / 4096 = 2 ∨ u / 4096 = 6 ∨ 9 ≤ u / 4096) :
    unfenceUnit r u s = raise pgFEN 4 s := by
  cases hex : unitExists s u with
  | false => exact unfenceUnit_of_absent hex
  | true =>
    rw [unfenceUnit_of_exists hex]
    rcases h with h | h | h | h
    · exact absurd (hex.symm.trans h) (by decide)
    · rw [h]; rfl
    · rw [h]; rfl
    · obtain ⟨k, hk⟩ := Nat.exists_eq_add_of_le' h
      rw [hk]; rfl

theorem unfenceUnit_of_foreign (h : unitExists s u = true) (hk : u / 4096 = 1) (hr : r ≠ .pf0) :
    unfenceUnit r u s = secEvent (raise pgFEN 4 s) := by
  rw [unfenceUnit_of_exists h, hk]
  exact if_pos (by simp [isPf0, hr])

/-- PF0 releases a polder, and a lane group is released where the fence holds it. -/
theorem unfenceUnit_released (h : unitExists s u = true) (hk : (u / 4096 = 1 ∧ r = .pf0) ∨ (u / 4096 = 8 ∧ (lgOf s (u % 4096)).heldFence = true))
    (hf : isFenced s u = true) (hw : swf (fun _ => 0) s.itg.fences = true) :
    isFenced (unfenceUnit r u s) u = false ∧ evPending (unfenceUnit r u s) pgFEN 1 = true := by
  rw [unfenceUnit_of_exists h]
  rcases hk with ⟨hk, rfl⟩ | ⟨hk, hheld⟩ <;> rw [hk, hf]
  · exact ⟨isFenced_release_self hw u, evPending_release u s⟩
  · rw [hheld]
    exact ⟨isFenced_release_self (by exact hw) u, evPending_release u _⟩

/-- A lane group that something else holds is not released. -/
theorem unfenceUnit_of_unheld (h : unitExists s u = true) (hk : u / 4096 = 8) (hf : isFenced s u = true)
    (hheld : (lgOf s (u % 4096)).heldFence = false) : unfenceUnit r u s = raise pgFEN 4 s := by
  rw [unfenceUnit_of_exists h, hk, hf, hheld]; rfl

theorem unfenceUnit_of_free (h : unitExists s u = true) (hk : (u / 4096 = 1 ∧ r = .pf0) ∨ u / 4096 = 8) (hf : isFenced s u = false) :
    unfenceUnit r u s = s := by
  rw [unfenceUnit_of_exists h]
  rcases hk with ⟨hk, rfl⟩ | hk <;> rw [hk, hf] <;> rfl

/-- The unfence of an engine or an ADC channel asks for its self-test. -/
theorem unfenceUnit_of_tested (h : unitExists s u = true) (hk : u / 4096 = 3 ∨ u / 4096 = 4 ∨ u / 4096 = 5 ∨ u / 4096 = 7) :
    unfenceUnit r u s = unfenceUnit.test u s := by
  rw [unfenceUnit_of_exists h]
  rcases hk with hk | hk | hk | hk <;> simp only [hk]

theorem test_of_running (h : BitVec.ofNat 16 u ∈ s.itg.unf ∨ u ∈ s.itg.tests) : unfenceUnit.test u s = raise pgFEN 4 s := if_pos h

theorem test_of_free (hunf : BitVec.ofNat 16 u ∉ s.itg.unf) (htests : u ∉ s.itg.tests) (h : isFenced s u = false) :
    unfenceUnit.test u s = s := by
  rw [unfenceUnit.test, if_neg (not_or.2 ⟨hunf, htests⟩), h]; rfl

theorem test_of_fenced (hunf : BitVec.ofNat 16 u ∉ s.itg.unf) (htests : u ∉ s.itg.tests) (h : isFenced s u = true) :
    unfenceUnit.test u s = setUnf u 1 { s with itg.unf := BitVec.ofNat 16 u :: s.itg.unf } := by
  rw [unfenceUnit.test, if_neg (not_or.2 ⟨hunf, htests⟩), h]; rfl

theorem rget_setUnf (hu : u < 65536) (s : State) : rget (setUnf u 1 s) pgFEN 0x664 = BitVec.ofNat 32 (u + 65536) := by
  have hreset : regReset (rkey pgFEN 0x664) = 0 := by decide
  have hne : BitVec.ofNat 32 (u + 65536 * 1) ≠ regReset (rkey pgFEN 0x664) := by
    rw [hreset]
    intro hz
    have := congrArg BitVec.toNat hz
    simp at this
    omega
  exact sget_sset_eq _ _ _ _ hne

end Unfence

theorem bits_15_lt (v : Word) : bits v 15 0 < 65536 := Nat.mod_lt _ (by decide)

/-- What the guarded write of UNFENCE does with the unit it names. -/
theorem unfence_of_fit {s : State} (hg : sget none s.rf.guard pgFEN = none) {v c : Word} (hc : c = ~~~v) (r : Requester) :
    unfence r v c s = unfenceUnit r (bits v 15 0) (rset s pgFEN 0xE00 (v &&& 0xFFFF)) := guardedWrite_of_pair hg hc _

theorem unfence_of_unfit {s : State} (hg : sget none s.rf.guard pgFEN = none) {v c : Word} (hc : c ≠ ~~~v) (r : Requester) :
    unfence r v c s = raise pgFEN 5 s := (guardedWrite_of_unfit hg hc _).trans (guardFail_fen s)

section SelfTest
variable {s : State} {u : BitVec 16} {m : SelfTest}

theorem selfTestDone_of_failed (hu : u ∈ s.itg.unf) (hm : testPasses u.toNat m = false) :
    selfTestDone u m s = raise pgFEN 2 (bump pgFEN 0xA08 1 (setUnf u.toNat 3 { s with itg.unf := s.itg.unf.filter (· ≠ u) })) := by
  rw [selfTestDone, if_pos hu, hm]; rfl

theorem selfTestDone_of_passed (hu : u ∈ s.itg.unf) (hm : testPasses u.toNat m = true) :
    selfTestDone u m s = release u.toNat (setUnf u.toNat 2 { s with itg.unf := s.itg.unf.filter (· ≠ u) }) := by
  rw [selfTestDone, if_pos hu, hm]; rfl

theorem selfTestDone_at_enable (hu : u ∉ s.itg.unf) (ht : u.toNat ∈ s.itg.tests) : selfTestDone u m s =
    if testPasses u.toNat m then { s with itg.tests := s.itg.tests.filter (· ≠ u.toNat) }
    else fenceAdc (u.toNat % 4096) 3 (raise pgFEN 2 (bump pgFEN 0xA08 1 { s with itg.tests := s.itg.tests.filter (· ≠ u.toNat) })) := by
  rw [selfTestDone, if_neg hu, if_pos ht]

theorem fenceAdc_keeps (n cause : Nat) (v : State) :
    (fenceAdc n cause v).itg.tests = v.itg.tests ∧ ∀ p b, evPending v p b = true → evPending (fenceAdc n cause v) p b = true := by
  unfold fenceAdc
  split
  · exact ⟨rfl, fun _ _ => id⟩
  · refine ⟨?_, fun p b h => evPending_markFence_keep h _ _⟩
    rw [markFence, noteFence, raise_itg]
    rfl

end SelfTest

/-- Settles O53: each write of FENCE and UNFENCE by the kind of the unit it names; what a fence sets in train keeps it (`Lasting`), and a
release clears it alone. -/
theorem fencesAreSetAndReleased : Obligations.FencesAreSetAndReleased := by
  refine ⟨fun s bad => rfl, fun s off ho h4 hpar => ?_, fun s p off ho h4 hpar => ?_, fun s r v hg => ?_, fun s r v c hg => ?_,
    fun s u m => ?_⟩
  · refine ⟨_, congrArg Host.Outcome.next (parityFault_top ho h4 hpar), fatal_cause .., ?_, fun hfree => ?_⟩
    · exact evPending_fatal_keep (evPending_raise_self pgMEM 12 (by decide) _) _ _
    · rw [rget_fatal, parstat_parityNoted_top ho hfree]
  · exact ⟨_, congrArg Host.Outcome.next (parityFault_riq ho h4 hpar), isFenced_fencePolder (by decide) _ _⟩
  · exact ⟨fun h => congrArg Host.Outcome.next (fence_of_denied hg h),
      fun h hk hr => congrArg Host.Outcome.next (fence_of_foreign hg h hk hr),
      fun h hk => ⟨_, rfl, isFenced_fence hg h hk⟩, fun h hk => ⟨_, rfl, reason_fence hg h hk⟩⟩
  · refine ⟨fun hc => congrArg Host.Outcome.next (unfence_of_unfit hg hc r), fun hc => ?_⟩
    have hfit : ∀ t, unfenceUnit r (bits v 15 0) (rset s pgFEN 0xE00 (v &&& 0xFFFF)) = t → exec (.unfence r v c) s = .next t :=
      fun t ht => congrArg Host.Outcome.next ((unfence_of_fit hg hc r).trans ht)
    refine ⟨fun h => hfit _ (unfenceUnit_of_denied h), fun h hk hr => hfit _ (unfenceUnit_of_foreign h hk hr),
      fun h hk hf hw => ⟨_, hfit _ rfl, unfenceUnit_released h hk hf hw⟩, fun h hk hf hh => hfit _ (unfenceUnit_of_unheld h hk hf hh),
      fun h hk hf => hfit _ (unfenceUnit_of_free h hk hf), fun h hk => ?_⟩
    have htest := unfenceUnit_of_tested (s := rset s pgFEN 0xE00 (v &&& 0xFFFF)) (r := r) h hk
    exact ⟨fun hrun => hfit _ (htest.trans (test_of_running hrun)), fun hunf htests =>
      ⟨fun hf => hfit _ (htest.trans (test_of_free hunf htests hf)), fun hf => ⟨_, hfit _ (htest.trans (test_of_fenced hunf htests hf)),
        rfl, hf, rget_setUnf (bits_15_lt v) _⟩⟩⟩
  · refine ⟨fun hu hf => ⟨fun hm => ?_, fun hm hw => ?_⟩, fun hu ht => ⟨fun hm => congrArg Host.Outcome.next ?_, fun hm => ?_⟩,
      fun hu ht => congrArg Host.Outcome.next ?_, fun hk => ?_⟩
    · refine ⟨_, congrArg Host.Outcome.next (selfTestDone_of_failed hu hm), ?_, ?_, evPending_raise_self pgFEN 2 (by decide) _⟩
      · rw [raise_itg]; rfl
      · rw [isFenced, fenceCause, raise_itg]; exact hf
    · refine ⟨_, congrArg Host.Outcome.next (selfTestDone_of_passed hu hm), ?_, isFenced_release_self (by exact hw) _, evPending_release _ _,
        fun x hx => isFenced_release_other (by exact hw) hx⟩
      rw [release, raise_itg]; rfl
    · rw [selfTestDone_at_enable hu ht, if_pos hm]
    · obtain ⟨htests, hev⟩ := fenceAdc_keeps (u.toNat % 4096) 3
        (raise pgFEN 2 (bump pgFEN 0xA08 1 { s with itg.tests := s.itg.tests.filter (· ≠ u.toNat) }))
      refine ⟨_, congrArg Host.Outcome.next ((selfTestDone_at_enable hu ht).trans (if_neg (by simp [hm]))), ?_,
        isFenced_fenceAdc (by decide) _ _, hev _ _ (evPending_raise_self pgFEN 2 (by decide) _)⟩
      rw [htests, raise_itg]; rfl
    · rw [selfTestDone, if_neg hu, if_neg ht]
    · rw [testPasses, hk]
      simp [and_assoc]

end Sys2Proof.Machine
end

section
/-! SUPPORT. The field of 256 elements and the basin chunk with one wrong symbol (R174, R529, R530). -/

namespace Sys2Proof

/-! ### Sums in the field -/

/-- The step of a product: a factor times x (R174). -/
def gf8Double (x : Nat) : Nat := if 128 ≤ x then (2 * x) ^^^ 0x11D else 2 * x

theorem gf8Go_succ (n x b : Nat) : gf8Go (n + 1) x b = (if b % 2 = 1 then x else 0) ^^^ gf8Go n (gf8Double x) (b / 2) := rfl

theorem gf8Double_lt {x : Nat} (h : x < 256) : gf8Double x < 256 := by
  have hall : ∀ x : Fin 256, gf8Double x.val < 256 := by decide +kernel
  exact hall ⟨x, h⟩

theorem gf8Go_lt (n : Nat) {x : Nat} (h : x < 256) (b : Nat) : gf8Go n x b < 256 := by
  induction n generalizing x b with
  | zero => simp [gf8Go]
  | succ n ih =>
    rw [gf8Go_succ]
    exact Nat.xor_lt_two_pow (n := 8) (by split <;> omega) (ih (gf8Double_lt h) _)

theorem gf8Mul_lt {a : Nat} (h : a < 256) (b : Nat) : gf8Mul a b < 256 := gf8Go_lt 8 h b

/-- Of two bits, the one of the sum picks what one of the two picks. -/
theorem xor_pick {p q r : Prop} [Decidable p] [Decidable q] [Decidable r] (h : r ↔ ¬(p ↔ q)) (x : Nat) :
    (if r then x else 0) = (if p then x else 0) ^^^ (if q then x else 0) := by
  by_cases hp : p <;> by_cases hq : q <;> simp [h, hp, hq]

/-- A product is linear in its second factor. -/
theorem gf8Go_xor_right (n x b c : Nat) : gf8Go n x (b ^^^ c) = gf8Go n x b ^^^ gf8Go n x c := by
  induction n generalizing x b c with
  | zero => simp [gf8Go]
  | succ n ih =>
    rw [gf8Go_succ, gf8Go_succ, gf8Go_succ, Nat.xor_div_two, ih, xor_pick Nat.xor_mod_two_eq_one]
    ac_rfl

theorem gf8Double_xor {x y : Nat} (hx : x < 256) (hy : y < 256) : gf8Double (x ^^^ y) = gf8Double x ^^^ gf8Double y := by
  have hdouble : ∀ z, z < 256 → gf8Double z = 2 * z ^^^ (if z / 128 % 2 = 1 then 0x11D else 0) := fun z hz => by
    unfold gf8Double
    by_cases h : 128 ≤ z
    · rw [if_pos h, if_pos (by omega)]
    · rw [if_neg h, if_neg (by omega), Nat.xor_zero]
  have hsum : x ^^^ y < 256 := Nat.xor_lt_two_pow (n := 8) hx hy
  have htwice : 2 * (x ^^^ y) = 2 * x ^^^ 2 * y := by
    simpa [Nat.shiftLeft_eq, Nat.mul_comm] using Nat.shiftLeft_xor_distrib (a := x) (b := y) (i := 1)
  have hhigh : (x ^^^ y) / 128 % 2 = 1 ↔ ¬(x / 128 % 2 = 1 ↔ y / 128 % 2 = 1) := by
    have hdiv : (x ^^^ y) / 2 ^ 7 = x / 2 ^ 7 ^^^ y / 2 ^ 7 := Nat.xor_div_two_pow
    rw [show (128 : Nat) = 2 ^ 7 from rfl, hdiv]
    exact Nat.xor_mod_two_eq_one
  rw [hdouble _ hsum, hdouble _ hx, hdouble _ hy, htwice, xor_pick hhigh]
  ac_rfl

/-- A product is linear in its first factor. -/
theorem gf8Go_xor_left (n : Nat) {x y : Nat} (hx : x < 256) (hy : y < 256) (b : Nat) :
    gf8Go n (x ^^^ y) b = gf8Go n x b ^^^ gf8Go n y b := by
  induction n generalizing x y b with
  | zero => simp [gf8Go]
  | succ n ih =>
    rw [gf8Go_succ, gf8Go_succ, gf8Go_succ, gf8Double_xor hx hy, ih (gf8Double_lt hx) (gf8Double_lt hy)]
    split
    · ac_rfl
    · simp

theorem gf8Mul_xor_right (a b c : Nat) : gf8Mul a (b ^^^ c) = gf8Mul a b ^^^ gf8Mul a c := gf8Go_xor_right 8 a b c

theorem gf8Mul_xor_left {a b : Nat} (ha : a < 256) (hb : b < 256) (c : Nat) : gf8Mul (a ^^^ b) c = gf8Mul a c ^^^ gf8Mul b c :=
  gf8Go_xor_left 8 ha hb c

/-! ### The laws of the product -/

/-- Two linear maps that agree on the bits of a byte agree on bytes. -/
theorem linear_ext {f g : Nat → Nat} (hf : ∀ a b, a < 256 → b < 256 → f (a ^^^ b) = f a ^^^ f b)
    (hg : ∀ a b, a < 256 → b < 256 → g (a ^^^ b) = g a ^^^ g b) (h : ∀ k : Fin 8, f (2 ^ k.val) = g (2 ^ k.val)) :
    ∀ v, v < 256 → f v = g v := by
  have hz : ∀ f : Nat → Nat, (∀ a b, a < 256 → b < 256 → f (a ^^^ b) = f a ^^^ f b) → f 0 = 0 := fun f hf => by
    have := hf 0 0 (by decide) (by decide)
    simpa using this
  have hstep : ∀ n, n ≤ 8 → ∀ v, v < 2 ^ n → f v = g v := by
    intro n
    induction n with
    | zero =>
      intro _ v hv
      obtain rfl : v = 0 := by omega
      rw [hz f hf, hz g hg]
    | succ n ih =>
      intro hn v hv
      by_cases hlow : v < 2 ^ n
      · exact ih (by omega) v hlow
      · have hbound : (2 : Nat) ^ (n + 1) ≤ 2 ^ 8 := Nat.pow_le_pow_right (by decide) hn
        have hbit : v.testBit n = true := Nat.testBit_of_two_pow_le_and_two_pow_add_one_gt (by omega) hv
        have hrest : v ^^^ 2 ^ n < 2 ^ n := Nat.lt_pow_two_of_testBit _ fun j hj => by
          rcases Nat.eq_or_lt_of_le hj with rfl | hj
          · simp [hbit]
          · have hv' : v.testBit j = false := Nat.testBit_lt_two_pow (Nat.lt_of_lt_of_le hv (Nat.pow_le_pow_right (by decide) hj))
            simp [hv', Nat.testBit_two_pow_of_ne (by omega : n ≠ j)]
        have hsplit : v = (v ^^^ 2 ^ n) ^^^ 2 ^ n := by rw [Nat.xor_assoc, Nat.xor_self, Nat.xor_zero]
        have hpow : (2 : Nat) ^ n < 256 := by omega
        have hlt : v ^^^ 2 ^ n < 256 := by omega
        rw [hsplit, hf _ _ hlt hpow, hg _ _ hlt hpow, ih (by omega) _ hrest, h ⟨n, by omega⟩]
  exact hstep 8 le_rfl

theorem gf8Mul_comm {a b : Nat} (ha : a < 256) (hb : b < 256) : gf8Mul a b = gf8Mul b a := by
  have hbits : ∀ i j : Fin 8, gf8Mul (2 ^ i.val) (2 ^ j.val) = gf8Mul (2 ^ j.val) (2 ^ i.val) := by decide +kernel
  have hpow : ∀ i : Fin 8, 2 ^ i.val < 256 := by decide
  refine linear_ext (f := (gf8Mul · b)) (g := gf8Mul b) (fun _ _ hx hy => gf8Mul_xor_left hx hy b) (fun _ _ _ _ => gf8Mul_xor_right b _ _)
    (fun i => ?_) a ha
  exact linear_ext (f := gf8Mul (2 ^ i.val)) (g := (gf8Mul · (2 ^ i.val))) (fun _ _ _ _ => gf8Mul_xor_right _ _ _)
    (fun _ _ hx hy => gf8Mul_xor_left hx hy _) (fun j => hbits i j) b hb

theorem gf8Mul_left_comm {a b c : Nat} (ha : a < 256) (hb : b < 256) (hc : c < 256) :
    gf8Mul a (gf8Mul b c) = gf8Mul b (gf8Mul a c) := by
  have hbits : ∀ i j k : Fin 8, gf8Mul (2 ^ i.val) (gf8Mul (2 ^ j.val) (2 ^ k.val)) = gf8Mul (2 ^ j.val) (gf8Mul (2 ^ i.val) (2 ^ k.val)) := by
    decide +kernel
  have hpow : ∀ i : Fin 8, 2 ^ i.val < 256 := by decide
  have houter : ∀ x y : Nat, ∀ u v, gf8Mul x (gf8Mul y (u ^^^ v)) = gf8Mul x (gf8Mul y u) ^^^ gf8Mul x (gf8Mul y v) := fun x y u v => by
    rw [gf8Mul_xor_right, gf8Mul_xor_right]
  have hinner : ∀ x z u v, u < 256 → v < 256 → gf8Mul x (gf8Mul (u ^^^ v) z) = gf8Mul x (gf8Mul u z) ^^^ gf8Mul x (gf8Mul v z) :=
    fun x z u v hu hv => by rw [gf8Mul_xor_left hu hv, gf8Mul_xor_right]
  refine linear_ext (f := fun a => gf8Mul a (gf8Mul b c)) (g := fun a => gf8Mul b (gf8Mul a c)) (fun _ _ hx hy => gf8Mul_xor_left hx hy _)
    (hinner b c) (fun i => ?_) a ha
  refine linear_ext (f := fun b => gf8Mul (2 ^ i.val) (gf8Mul b c)) (g := fun b => gf8Mul b (gf8Mul (2 ^ i.val) c)) (hinner _ c)
    (fun _ _ hx hy => gf8Mul_xor_left hx hy _) (fun j => ?_) b hb
  exact linear_ext (f := fun c => gf8Mul (2 ^ i.val) (gf8Mul (2 ^ j.val) c)) (g := fun c => gf8Mul (2 ^ j.val) (gf8Mul (2 ^ i.val) c))
    (fun _ _ _ _ => houter _ _ _ _) (fun _ _ _ _ => houter _ _ _ _) (fun k => hbits i j k) c hc

theorem gf8Mul_one {a : Nat} (ha : a < 256) : gf8Mul a 1 = a := by
  rw [gf8Mul_comm ha (by decide)]
  exact linear_ext (f := gf8Mul 1) (g := id) (fun _ _ _ _ => gf8Mul_xor_right _ _ _) (fun _ _ _ _ => rfl) (by decide +kernel) a ha

/-- Every byte but 0 has an inverse. -/
theorem gf8_inv {a : Nat} (ha : a < 256) (h0 : a ≠ 0) : gf8.inv a < 256 ∧ gf8Mul (gf8.inv a) a = 1 := by
  have hall : ∀ a : Fin 256, a.val ≠ 0 → gf8.inv a.val < 256 ∧ gf8Mul (gf8.inv a.val) a.val = 1 := by decide +kernel
  exact hall ⟨a, ha⟩ h0

theorem gf8Mul_cancel {a x y : Nat} (ha : a < 256) (h0 : a ≠ 0) (hx : x < 256) (hy : y < 256) (h : gf8Mul a x = gf8Mul a y) : x = y := by
  obtain ⟨hlt, hinv⟩ := gf8_inv ha h0
  have hback : ∀ z, z < 256 → gf8Mul (gf8.inv a) (gf8Mul a z) = z := fun z hz => by
    rw [gf8Mul_comm ha hz, gf8Mul_left_comm hlt hz ha, hinv, gf8Mul_one hz]
  rw [← hback x hx, h, hback y hy]

/-! ### A chunk with one wrong symbol -/

theorem gf8Pow_lt {a : Nat} (ha : a < 256) (n : Nat) : gf8Pow a n < 256 := by
  cases n with
  | zero => simp [gf8Pow]
  | succ n => exact gf8Mul_lt ha _

/-- The powers of 2 below the length of a chunk differ. -/
theorem gf8Pow_two_inj {m n : Nat} (hn : n < 36) (hmn : m < n) : gf8Pow 2 m ≠ gf8Pow 2 n := by
  induction m generalizing n with
  | zero =>
    have hall : ∀ n : Fin 36, 0 < n.val → gf8Pow 2 0 ≠ gf8Pow 2 n.val := by decide +kernel
    exact hall ⟨n, hn⟩ hmn
  | succ m ih =>
    obtain ⟨n, rfl⟩ : ∃ k, n = k + 1 := ⟨n - 1, by omega⟩
    intro h
    exact ih (by omega) (by omega) (gf8Mul_cancel (by decide) (by decide) (gf8Pow_lt (by decide) m) (gf8Pow_lt (by decide) n) h)

/-- The place of symbol `i` in the code (R530). -/
def chunkPlace (i : Fin 36) : Nat := gf8Pow 2 (35 - i.val)

theorem chunkPlace_lt (i : Fin 36) : chunkPlace i < 256 := gf8Pow_lt (by decide) _

theorem chunkPlace_inj {i j : Fin 36} (h : chunkPlace i = chunkPlace j) : i = j := by
  rcases Nat.lt_trichotomy i.val j.val with hij | hij | hij
  · exact absurd h.symm (gf8Pow_two_inj (by omega) (by omega))
  · exact Fin.ext hij
  · exact absurd h (gf8Pow_two_inj (by omega) (by omega))

section Single
variable {v : Byte} (hv : v ≠ 0) (i : Fin 36)

/-- Each syndrome of one wrong symbol is the one before times its place. -/
theorem chunkSyn_single : chunkSyn [(i, v)] = [v.toNat, gf8Mul (chunkPlace i) v.toNat,
    gf8Mul (chunkPlace i) (gf8Mul (chunkPlace i) v.toNat), gf8Mul (chunkPlace i) (gf8Mul (chunkPlace i) (gf8Mul (chunkPlace i) v.toNat))] := by
  have hsyn : chunkSyn [(i, v)] = [0 ^^^ gf8Mul v.toNat 1, 0 ^^^ gf8Mul v.toNat (gf8Mul (chunkPlace i) 1),
      0 ^^^ gf8Mul v.toNat (gf8Mul (chunkPlace i) (gf8Mul (chunkPlace i) 1)),
      0 ^^^ gf8Mul v.toNat (gf8Mul (chunkPlace i) (gf8Mul (chunkPlace i) (gf8Mul (chunkPlace i) 1)))] := rfl
  have hv := v.isLt
  have hx := chunkPlace_lt i
  have hpow : ∀ b, gf8Mul (chunkPlace i) b < 256 := fun b => gf8Mul_lt hx b
  rw [hsyn]
  simp only [Nat.zero_xor, gf8Mul_left_comm hv hx (hpow _), gf8Mul_left_comm hv hx (by decide : 1 < 256), gf8Mul_one hv]

/-- A wrong symbol leaves no syndrome once it is erased. -/
theorem eraseSyn_chunkSyn_single : (eraseSyn i (chunkSyn [(i, v)])).all (· = 0) = true := by
  rw [chunkSyn_single]
  simp [eraseSyn, chunkPlace]

include hv

theorem toNat_ne_zero : v.toNat ≠ 0 := fun h => hv (BitVec.eq_of_toNat_eq h)

/-- One wrong symbol is found by its place. -/
theorem oneError_chunkSyn_single : oneError (chunkSyn [(i, v)]) = some i := by
  have hne := toNat_ne_zero hv
  have hpick : ∀ j, ((chunkSyn [(i, v)]).dropLast.map (gf8Mul (gf8Pow 2 (35 - j.val))) = (chunkSyn [(i, v)]).drop 1) ↔ j = i := fun j => by
    rw [chunkSyn_single]
    refine ⟨fun h => chunkPlace_inj ?_, fun h => h ▸ rfl⟩
    have hfirst : gf8Mul (chunkPlace j) v.toNat = gf8Mul (chunkPlace i) v.toNat := (List.cons.inj h).1
    rw [gf8Mul_comm (chunkPlace_lt j) v.isLt, gf8Mul_comm (chunkPlace_lt i) v.isLt] at hfirst
    exact gf8Mul_cancel v.isLt hne (chunkPlace_lt j) (chunkPlace_lt i) hfirst
  have hhead : (chunkSyn [(i, v)]).headD 0 ≠ 0 := by rw [chunkSyn_single]; exact hne
  rw [oneError, if_neg hhead]
  simp only [hpick]
  cases hfind : (List.finRange 36).find? (fun j => decide (j = i)) with
  | none => exact absurd (List.find?_eq_none.1 hfind i (List.mem_finRange i)) (by simp)
  | some j => exact congrArg some (of_decide_eq_true (List.find?_some (p := fun j => decide (j = i)) hfind))

theorem chunkSyn_single_ne : (chunkSyn [(i, v)]).all (· = 0) = false := by
  rw [chunkSyn_single]
  simp [toNat_ne_zero hv]

/-- A wrong symbol of a chunk is corrected, whether its lane is marked or not. -/
theorem chunkDecode_single : chunkDecode none [(i, v)] = .corrected i ∧ chunkDecode (some i) [(i, v)] = .corrected i := by
  constructor
  · simp only [chunkDecode, chunkSyn_single_ne hv, oneError_chunkSyn_single hv]
    rfl
  · simp only [chunkDecode, chunkSyn_single_ne hv, eraseSyn_chunkSyn_single]
    rfl

end Single

end Sys2Proof
end

section
/-! SUPPORT. Reads of protected words, the repeat table and software passes (O52). -/

namespace Sys2Proof.Machine

/-! ### What a pass over a memory leaves -/

namespace Lasting

section Steps
variable {s₀ s : State} (h : Lasting s₀ s)
include h

theorem chooseRetire (i : Nat) : Lasting s₀ (chooseRetire i s) :=
  have hbump : Lasting s₀ (Machine.bump pgMEM 0xA14 1 s) := h.bump (by decide) 1
  ite h (ite (hbump.retireNow i) (hbump.setSlot ..))

theorem rowRepair (mem addr : Nat) : Lasting s₀ (rowRepair mem addr s) := ite h (ite (h.raise (by decide) _) (by exact h))

theorem needTileReload (standby : Bool) (t : Nat) : Lasting s₀ (needTileReload standby t s) := ite h (by exact h)

theorem needAreaReload (standby : Bool) : Lasting s₀ (needAreaReload standby s) := ite (h.raise (by decide) _) (ite h (by exact h))

theorem repeatAct (mem addr : Nat) (place : Option MemPlace) : Lasting s₀ (repeatAct mem addr place s) := by
  have hraise : Lasting s₀ (Machine.raise pgMEM 2 s) := h.raise (by decide) _
  unfold Machine.repeatAct
  dsimp only
  split
  · exact ite (hraise.chooseRetire _) (hraise.raise (by decide) _)
  · split
    · exact hraise.needTileReload ..
    · exact hraise
  · split
    · exact hraise.needTileReload ..
    · exact hraise
  · exact hraise.needAreaReload _
  · exact hraise
  · exact hraise
  · exact hraise
  · exact hraise.rowRepair ..

theorem noteRepeat (mem addr : Nat) (place : Option MemPlace) : Lasting s₀ (noteRepeat mem addr place s) := by
  unfold Machine.noteRepeat
  extract_lets th upd itg u new itg' v
  have hu : Lasting s₀ u := by
    dsimp only [u]
    split
    · exact h
    · split
      · exact h
      · exact bump (by exact h) (by decide) 1
  have hv : Lasting s₀ v := by
    dsimp only [v]
    split
    · exact h
    · exact hu
  exact ite (repeatAct (by exact hv) ..) hv

theorem dropQuotes (p : QuoteKey → Bool) : Lasting s₀ (dropQuotes p s) := h

theorem zeroise (p : KeySlot → Bool) : Lasting s₀ (zeroise p s) := bump (by exact h) (by decide) _

theorem vaultReset : Lasting s₀ (vaultReset s) := by
  have hgone : Lasting s₀ (Machine.zeroise (fun _ => true) { s with vlt.ivs := [] }) := zeroise (by exact h) _
  exact (hgone.dropQuotes _).raise (by decide) _

theorem done (c : Nat) (st : BitVec 16) (res : Nat) : Lasting s₀ (done c st res s) := metered (h.finish ..)

theorem rejectLoad (code tile : Nat) : Lasting s₀ (rejectLoad code tile s) := by
  unfold Machine.rejectLoad
  extract_lets cmd table lat sched u v lat' sched' w x
  have hv : Lasting s₀ v := ite (by exact h) (by exact h)
  have hx : Lasting s₀ x := raise (bump (by exact hv) (by decide) 1) (by decide) _
  clear_value cmd
  cases cmd with
  | none => exact hx
  | some c => exact hx.done ..

theorem imageUncorr (standby : Bool) : Lasting s₀ (uncorrOutcome.imageUncorr standby s) :=
  ite (h.needAreaReload false) (ite (h.rejectLoad 1 0) (by exact h))

theorem passOutcome (place : PassPlace) : Lasting s₀ (passOutcome place s) := by
  unfold Machine.passOutcome
  split
  · exact ite (h.imageUncorr true) h
  · exact h.vaultReset
  · exact h
  · exact h
  · exact h
  · split
    · exact h.zeroise _
    · exact h

end Steps

end Lasting

/-! ### Registers that are written -/

theorem swf_rset {s : State} (hw : swf regReset s.rf.regs = true) (page off : Nat) (v : Word) : swf regReset (rset s page off v).rf.regs = true :=
  swf_sset regReset hw _ _

theorem rget_rset_self {s : State} (hw : swf regReset s.rf.regs = true) (page off : Nat) (v : Word) : rget (rset s page off v) page off = v :=
  sget_sset_self regReset hw _ _

theorem rget_rset_other {s : State} (hw : swf regReset s.rf.regs = true) {page off q o : Nat} (h : rkey q o ≠ rkey page off) (v : Word) :
    rget (rset s page off v) q o = rget s q o :=
  sget_sset_other regReset hw _ _ v h _

/-! ### Reads (R528, R530, R545, R561) -/

section Read
variable {s : State} {place : MemPlace}

theorem scrubRead_of_off (h : scrubOn s (placeWord s place).1 = false) (e : WordErrs) : scrubRead place e s = s := by
  rw [scrubRead, h]; rfl

theorem scrubRead_of_on (h : scrubOn s (placeWord s place).1 = true) (e : WordErrs) : scrubRead place e s =
    match readOutcome (scrubMove place s) place e with
    | .clean => scrubMove place s
    | .corrected sym => wordCorrected place sym.val (scrubMove place s)
    | .uncorrectable => wordUncorrectable place (scrubMove place s) := by
  rw [scrubRead, h]; rfl

variable (hon : scrubOn s (placeWord s place).1 = true) {e : WordErrs}
include hon

theorem scrubRead_of_clean (h : readOutcome (scrubMove place s) place e = .clean) : scrubRead place e s = scrubMove place s := by
  rw [scrubRead_of_on hon, h]

theorem scrubRead_of_corrected {sym : Fin 36} (h : readOutcome (scrubMove place s) place e = .corrected sym) :
    scrubRead place e s = wordCorrected place sym.val (scrubMove place s) := by
  rw [scrubRead_of_on hon, h]

theorem scrubRead_of_uncorrectable (h : readOutcome (scrubMove place s) place e = .uncorrectable) :
    scrubRead place e s = wordUncorrectable place (scrubMove place s) := by
  rw [scrubRead_of_on hon, h]

end Read

/-- Only the basin's words have an order that the scrub follows (R532). -/
theorem scrubMove_of_not_basin {place : MemPlace} {s : State} (h : (placeWord s place).1 ≠ 8) : scrubMove place s = s := by
  cases place with
  | basin sl ch pc z => exact absurd rfl h
  | _ => rfl

/-- A corrected word outside the basin and the tiles is counted and noted. -/
theorem wordCorrected_of_plain {place : MemPlace} {s : State} (h : (placeWord s place).1 = 1 ∨ 5 ≤ (placeWord s place).1 ∧ (placeWord s place).1 ≠ 8)
    (sym : Nat) : wordCorrected place sym s =
      noteRepeat (placeWord s place).1 (placeWord s place).2 (some place) (raise pgMEM 0 (bump pgMEM 0xA08 1 s)) := by
  cases place with
  | basin sl ch pc z => simp [placeWord] at h
  | tileData t w => simp [placeWord] at h
  | tileInstr t w sb => simp [placeWord] at h
  | tileRoute t w sb => simp [placeWord] at h
  | _ => rfl

theorem readOutcome_bits {place : MemPlace} (s : State) (n : Nat) : readOutcome s place (.bits n) = secded (freeVal s) n := by
  cases place <;> rfl

/-! ### The repeat table and the repairs (R539 to R543) -/

/-- A word not yet listed takes an entry of the repeat table, and does nothing else below TH. -/
theorem noteRepeat_of_new {s : State} {mem addr : Nat} (hnew : s.itg.rep.find? (fun e => e.mem = mem ∧ e.addr = addr) = none)
    (hroom : s.itg.rep.length < 64) (hth : 1 < rfld s pgMEM 0x10C 7 0) (place : Option MemPlace) :
    noteRepeat mem addr place s = { s with itg.rep := s.itg.rep ++ [{ mem := mem, addr := addr, count := 1 }] } := by
  have hquiet : (s.itg.rep ++ [({ mem := mem, addr := addr, count := 1 } : RepEntry)]).any
      (fun e => decide (e.mem = mem) && decide (e.addr = addr) && decide (rfld s pgMEM 0x10C 7 0 ≤ e.count)) = false := by
    rw [List.any_eq_false]
    intro e he
    rcases List.mem_append.1 he with he | he
    · have := List.find?_eq_none.1 hnew e he
      simp only [decide_eq_true_eq] at this
      simp only [Bool.and_eq_true, decide_eq_true_eq]
      exact fun hc => this hc.1
    · obtain rfl := List.mem_singleton.1 he
      simpa using hth
  rw [noteRepeat]
  dsimp only
  rw [hnew]
  dsimp only
  rw [if_pos hroom, hquiet]
  rfl

/-! ### The end of a software pass (R537 to R540, R561) -/

/-- The registers that a pass's end reports in. -/
def passRegs (mem : Nat) (corr : List Nat) (bad : List (Nat × PassPlace)) (n : Nat) (s : State) : State :=
  let s := setPsStat 2 mem { s with itg.ps := none }
  let s := rset s pgMEM 0x608 (BitVec.ofNat 32 corr.length)
  let s := rset s pgMEM 0x60C (BitVec.ofNat 32 bad.length)
  let s := rset s pgMEM 0x610 (BitVec.ofNat 32 ((bad.map (·.1)).foldl min 0xFFFFFFFF))
  let s := rset s pgMEM 0x614 (BitVec.ofNat 32 corr.length)
  rset s pgMEM 0x618 (BitVec.ofNat 32 n)

/-- The events of what a pass found. -/
def passEvents (corr : List Nat) (bad : List (Nat × PassPlace)) (s : State) : State :=
  let s := if corr = [] then s else raise pgMEM 0 (bump pgMEM 0xA08 corr.length s)
  if bad = [] then s else raise pgMEM 1 (bump pgMEM 0xA0C bad.length s)

/-- What a pass found reaches the repeat table and has its outcome. -/
def passTells (mem : Nat) (corr : List Nat) (bad : List (Nat × PassPlace)) (s : State) : State :=
  raise pgMEM 6 (bad.foldl (fun s x => passOutcome x.2 s) (corr.foldl (fun s w => noteRepeat mem w none s) s))

/-- What of a report lies among the words that a pass covered. -/
def reported (a k : Nat) (w : Nat) : Bool := decide (a ≤ w) && decide (w < a + k)

theorem pscrubDone_of_running {s : State} {mem a n : Nat} (h : s.itg.ps = some (mem, a, n)) (rep : PassReport) :
    let k := if mem = 9 then passCovers mem a n else min rep.read n
    let corr := rep.corrected.filter (reported a k)
    let bad := rep.bad.filter (fun x => reported a k x.1)
    pscrubDone rep s = passTells mem corr bad (passEvents corr bad (passRegs mem corr bad k s)) := by
  rw [pscrubDone, h]
  rfl

section Pass
variable (mem : Nat) (corr : List Nat) (bad : List (Nat × PassPlace)) (n : Nat) (s : State)

theorem swf_passRegs (hw : swf regReset s.rf.regs = true) : swf regReset (passRegs mem corr bad n s).rf.regs = true :=
  swf_rset (swf_rset (swf_rset (swf_rset (swf_rset (swf_rset (by exact hw) ..) ..) ..) ..) ..) ..

theorem rget_passRegs (hw : swf regReset s.rf.regs = true) :
    rget (passRegs mem corr bad n s) pgMEM 0x608 = BitVec.ofNat 32 corr.length ∧
    rget (passRegs mem corr bad n s) pgMEM 0x60C = BitVec.ofNat 32 bad.length ∧
    rget (passRegs mem corr bad n s) pgMEM 0x618 = BitVec.ofNat 32 n := by
  have h0 : swf regReset (setPsStat 2 mem { s with itg.ps := none }).rf.regs = true := swf_rset (by exact hw) ..
  have h1 := swf_rset h0 pgMEM 0x608 (BitVec.ofNat 32 corr.length)
  have h2 := swf_rset h1 pgMEM 0x60C (BitVec.ofNat 32 bad.length)
  have h3 := swf_rset h2 pgMEM 0x610 (BitVec.ofNat 32 ((bad.map (·.1)).foldl min 0xFFFFFFFF))
  have h4 := swf_rset h3 pgMEM 0x614 (BitVec.ofNat 32 corr.length)
  refine ⟨?_, ?_, rget_rset_self h4 ..⟩ <;> unfold passRegs <;> dsimp only
  · rw [rget_rset_other h4 (by decide), rget_rset_other h3 (by decide), rget_rset_other h2 (by decide), rget_rset_other h1 (by decide),
      rget_rset_self h0]
  · rw [rget_rset_other h4 (by decide), rget_rset_other h3 (by decide), rget_rset_other h2 (by decide), rget_rset_self h1]

theorem lasting_passEvents {t : State} (h : Lasting t s) : Lasting t (passEvents corr bad s) := by
  have hcorr : Lasting t (if corr = [] then s else raise pgMEM 0 (bump pgMEM 0xA08 corr.length s)) :=
    Lasting.ite h ((h.bump (by decide) _).raise (by decide) _)
  exact Lasting.ite hcorr ((hcorr.bump (by decide) _).raise (by decide) _)

theorem lasting_passTells {t : State} (h : Lasting t s) : Lasting t (passTells mem corr bad s) :=
  Lasting.raise (Lasting.foldl (h.foldl (fun _ w hu => hu.noteRepeat mem w none) _) (fun _ x hu => hu.passOutcome x.2) _) (by decide) _

theorem evPending_passEvents : (corr ≠ [] → evPending (passEvents corr bad s) pgMEM 0 = true) ∧
    (bad ≠ [] → evPending (passEvents corr bad s) pgMEM 1 = true) := by
  unfold passEvents
  dsimp only
  refine ⟨fun hc => ?_, fun hb => ?_⟩
  · have hfirst : evPending (raise pgMEM 0 (bump pgMEM 0xA08 corr.length s)) pgMEM 0 = true := evPending_raise_self pgMEM 0 (by decide) _
    rw [if_neg hc]
    split
    · exact hfirst
    · exact evPending_raise_keep pgMEM 1 pgMEM 0 (by decide) _ hfirst
  · rw [if_neg hb]
    exact evPending_raise_self pgMEM 1 (by decide) _

end Pass

/-- What the end of a pass leaves of the registers and events (R561). -/
theorem passEnd_effect (mem : Nat) (corr : List Nat) (bad : List (Nat × PassPlace)) (n : Nat) (s : State) :
    let t := passTells mem corr bad (passEvents corr bad (passRegs mem corr bad n s))
    t.itg.ps = none ∧ evPending t pgMEM 6 = true ∧ (corr ≠ [] → evPending t pgMEM 0 = true) ∧ (bad ≠ [] → evPending t pgMEM 1 = true) ∧
      (swf regReset s.rf.regs = true → rget t pgMEM 0x608 = BitVec.ofNat 32 corr.length ∧ rget t pgMEM 0x60C = BitVec.ofNat 32 bad.length ∧
        rget t pgMEM 0x618 = BitVec.ofNat 32 n) := by
  intro t
  have hlast : Lasting (passEvents corr bad (passRegs mem corr bad n s)) t := lasting_passTells mem corr bad _ (Lasting.refl _)
  have hall : Lasting (passRegs mem corr bad n s) t := lasting_passTells mem corr bad _ (lasting_passEvents corr bad _ (Lasting.refl _))
  obtain ⟨hcorr, hbad⟩ := evPending_passEvents corr bad (passRegs mem corr bad n s)
  refine ⟨hall.ps, evPending_raise_self pgMEM 6 (by decide) _, fun hc => hlast.events _ _ (hcorr hc), fun hb => hlast.events _ _ (hbad hb),
    fun hw => ?_⟩
  have hswf := swf_passRegs mem corr bad n s hw
  obtain ⟨h608, h60C, h618⟩ := rget_passRegs mem corr bad n s hw
  have hreg : ∀ off, off < 4096 → rget t pgMEM off = rget (passRegs mem corr bad n s) pgMEM off := fun off ho =>
    hall.rget_eq (by simp only [coreReg, rkey, pgMEM]; omega) (.inl hswf)
  exact ⟨(hreg _ (by decide)).trans h608, (hreg _ (by decide)).trans h60C, (hreg _ (by decide)).trans h618⟩

/-- Settles O52: a read by what it delivers, a wrong symbol by the code's places (`chunkDecode_single`), the repeat table and the repairs by
their guards, and a pass by the registers and events that its further outcomes leave (`Lasting`). -/
theorem wordsRepeatsAndPasses : Obligations.WordsRepeatsAndPasses := by
  refine ⟨fun s place => ⟨fun e hoff => congrArg Host.Outcome.next (scrubRead_of_off hoff e), fun e hon => ⟨fun h => ?_, fun hmem sym h => ?_,
      fun w hp h => ?_, fun p w hp h => ?_, fun t w hp h => ?_, fun sl ch pc z hp hsl h => ?_⟩⟩,
    ⟨fun s place hmem => ?_, fun i v hv => chunkDecode_single hv i⟩,
    fun s mem addr place hnew hroom hth => noteRepeat_of_new hnew hroom hth place, fun s i => rfl, fun s bank row hc => ?_,
    fun s t hre hph hdet => ?_, fun s a r hre => ?_, fun s hg => ⟨fun hps hlo hhi => ?_, fun hps hout => ?_, fun m a n hps => ⟨?_, ?_⟩⟩,
    fun s rep mem a n hps => ?_⟩
  · exact congrArg Host.Outcome.next (scrubRead_of_clean hon h)
  · have hmove : scrubMove place s = s := scrubMove_of_not_basin (by omega)
    refine congrArg Host.Outcome.next ((scrubRead_of_corrected hon h).trans ?_)
    rw [hmove]
    exact wordCorrected_of_plain hmem _
  · subst hp
    exact congrArg Host.Outcome.next (scrubRead_of_uncorrectable hon h)
  · subst hp
    exact congrArg Host.Outcome.next (scrubRead_of_uncorrectable hon h)
  · subst hp
    exact congrArg Host.Outcome.next (scrubRead_of_uncorrectable hon h)
  · subst hp
    exact congrArg Host.Outcome.next ((scrubRead_of_uncorrectable hon h).trans (if_pos hsl))
  · exact ⟨readOutcome_bits s 0, readOutcome_bits s 1, readOutcome_bits s 2⟩
  · exact congrArg Host.Outcome.next (if_neg (not_not.2 hc))
  · refine congrArg Host.Outcome.next ?_
    have hstage : ¬ (3 ≤ s.lat.sched.phase ∧ s.lat.sched.phase ≤ 5) := by omega
    by_cases hdue : (tileOf s t.val).due = true <;> simp [tileReload, hre, hdet, hstage, hdue]
  · exact congrArg Host.Outcome.next (by rw [areaReload, hre])
  · refine congrArg Host.Outcome.next ?_
    rw [pscrubGo, touchPage_none hg]
    dsimp only
    rw [hps]
    exact if_neg (by omega)
  · refine congrArg Host.Outcome.next ?_
    rw [pscrubGo, touchPage_none hg]
    dsimp only
    rw [hps]
    exact if_pos hout
  · exact congrArg Host.Outcome.next (by rw [pscrubGo, touchPage_none hg, hps])
  · exact congrArg Host.Outcome.next (by rw [pscrubAbort, touchPage_none hg, hps])
  · intro k hit corr bad
    obtain ⟨hnone, hend, hcorr, hbad, hregs⟩ := passEnd_effect mem corr bad k s
    refine ⟨_, congrArg Host.Outcome.next (pscrubDone_of_running hps rep), hnone, hend, hcorr, hbad, fun hb hw => ?_⟩
    obtain ⟨h608, h60C, h618⟩ := hregs hw
    exact ⟨h608, h60C.trans (by rw [hb]; rfl), h618⟩

end Sys2Proof.Machine
end

section
/-! SUPPORT. What the restarts of the control cores and of the record side leave (O56). -/

namespace Sys2Proof.Machine

/-! ### Completions leave what has been decided (R387) -/

/-- The parts of the host side that completions only take commands from. -/
def liveParts (s : State) : List Cmd × Bool × Bool × TopSt := (s.host.cmds, s.host.fetchStop, s.host.fwHold, s.top)

@[simp] theorem liveParts_signalPair (f : Fin 64) (q : Fin 16) (s : State) : liveParts (signalPair f q s) = liveParts s := by
  unfold signalPair
  dsimp only
  split <;> rfl

@[simp] theorem liveParts_raise (page b : Nat) (s : State) : liveParts (raise page b s) = liveParts s := by simp [liveParts]

@[simp] theorem liveParts_winFaultPair (f : Fin 64) (q : Fin 16) (a : Nat) (wr : Bool) (kind : Nat) (s : State) :
    liveParts (winFaultPair f q a wr kind s) = liveParts s := liveParts_raise ..

@[simp] theorem liveParts_postPcie (f : Fin 64) (q : Fin 16) (c : Cmd) (st : BitVec 16) (res : BitVec 64) (s : State) :
    liveParts (postPcie f q c st res s) = liveParts s := by
  unfold postPcie
  dsimp only
  split
  · rfl
  · split
    · exact liveParts_winFaultPair ..
    · rw [liveParts_signalPair]
      split <;> rfl

@[simp] theorem liveParts_txFrame (q : Fin 1024) (p : Packet) (s : State) : liveParts (txFrame q p s) = liveParts s := by
  unfold txFrame
  dsimp only
  split
  · rfl
  · split <;> rfl

@[simp] theorem liveParts_sendCapsule (q : Fin 1024) (s : State) : liveParts (sendCapsule q s) = liveParts s := by
  unfold sendCapsule
  dsimp only
  split
  · rfl
  · exact liveParts_txFrame ..

@[simp] theorem liveParts_postNet (q : Fin 1024) (c : Cmd) (st : BitVec 16) (res : BitVec 64) (s : State) :
    liveParts (postNet q c st res s) = liveParts s := by
  unfold postNet netPost
  dsimp only
  split
  · rfl
  · split
    · exact liveParts_sendCapsule ..
    · rfl

@[simp] theorem liveParts_drainCheck (src : Src) (s : State) : liveParts (drainCheck src s) = liveParts s := by
  unfold drainCheck
  dsimp only
  split
  · rfl
  · split
    · split
      · rw [liveParts_raise]
        exact liveParts_sendCapsule ..
      · rfl
    · rfl

@[simp] theorem liveParts_logError (c : Cmd) (st : BitVec 16) (res : BitVec 64) (s : State) : liveParts (logError s c st res) = liveParts s := by
  unfold logError
  dsimp only
  split <;> rfl

theorem liveParts_postOne (c : Cmd) (st : BitVec 16) (res : BitVec 64) (s : State) : liveParts (postOne c st res s) = liveParts (dropCmd c.handle s) := by
  unfold postOne
  rw [liveParts_drainCheck]
  split
  · rfl
  · rw [liveParts_logError]
    split
    · exact liveParts_postPcie ..
    · exact liveParts_postNet ..

/-- Of one state's commands another has some, and it fetches and holds as that one does. -/
def PostedFrom (s t : State) : Prop :=
  (∀ c ∈ t.host.cmds, c ∈ s.host.cmds) ∧ t.host.fetchStop = s.host.fetchStop ∧ t.host.fwHold = s.host.fwHold ∧ t.top = s.top

theorem PostedFrom.of_eq {s t : State} (h : liveParts t = liveParts s) : PostedFrom s t := by
  simp only [liveParts, Prod.mk.injEq] at h
  obtain ⟨hcmds, hrest⟩ := h
  exact ⟨fun c hc => hcmds ▸ hc, hrest⟩

theorem PostedFrom.trans {s t u : State} (h : PostedFrom s t) (h' : PostedFrom t u) : PostedFrom s u :=
  ⟨fun c hc => h.1 c (h'.1 c hc), h'.2.1.trans h.2.1, h'.2.2.1.trans h.2.2.1, h'.2.2.2.trans h.2.2.2⟩

theorem postedFrom_postOne (c : Cmd) (st : BitVec 16) (res : BitVec 64) (s : State) : PostedFrom s (postOne c st res s) :=
  PostedFrom.trans (t := dropCmd c.handle s) ⟨fun _ hc => List.mem_of_mem_filter hc, rfl, rfl, rfl⟩
    (PostedFrom.of_eq (liveParts_postOne c st res s))

theorem postedFrom_postScan (l : List Cmd) : ∀ (blk : List Src) (s : State), PostedFrom s (postScan l blk s) := by
  induction l with
  | nil => exact fun _ _ => PostedFrom.of_eq rfl
  | cons c r ih =>
    intro blk s
    unfold postScan
    split
    · exact ih _ s
    · split
      · exact (postedFrom_postOne ..).trans (ih _ _)
      · exact ih _ s

/-- After all commands that `p` picks are to end, each that is left of them is decided. -/
theorem finishAll_decided (p : Cmd → Bool) (st : BitVec 16) (res : BitVec 64) (s : State) :
    (∀ c ∈ (finishAll p st res s).host.cmds, p c = true → c.fin ≠ none) ∧ (finishAll p st res s).host.fetchStop = s.host.fetchStop ∧
      (finishAll p st res s).host.fwHold = s.host.fwHold ∧ (finishAll p st res s).top = s.top := by
  have hdec : ∀ d ∈ s.host.cmds.map (fun c => if p c ∧ c.fin.isNone then { c with fin := some (st, res) } else c), p d = true → d.fin ≠ none := by
    intro d hd hpd
    obtain ⟨c, -, rfl⟩ := List.mem_map.1 hd
    by_cases hgo : p c ∧ c.fin.isNone
    · rw [if_pos hgo]
      exact Option.some_ne_none _
    · rw [if_neg hgo] at hpd ⊢
      exact fun hn => hgo ⟨hpd, by simp [hn]⟩
  have hposted : PostedFrom { s with host.cmds := s.host.cmds.map fun c => if p c ∧ c.fin.isNone then { c with fin := some (st, res) } else c }
      (finishAll p st res s) := by
    unfold finishAll postReady
    dsimp only
    split
    · exact PostedFrom.of_eq rfl
    · exact postedFrom_postScan ..
  exact ⟨fun c hc => hdec c (hposted.1 c hc), hposted.2⟩

/-! ### What outlasts a restart -/

namespace Lasting

section Steps
variable {s₀ s : State} (h : Lasting s₀ s)
include h

theorem planTo (v : Int) : Lasting s₀ (planTo v s) := h

theorem abortMove : Lasting s₀ (abortMove s) := by
  unfold Machine.abortMove
  split <;> exact h

theorem restMove : Lasting s₀ (restMove s) := ite (h.abortMove.planTo 0) h.abortMove

theorem drive (f : Pins → Pins) : Lasting s₀ (drive f s) := by
  obtain ⟨_, hd⟩ := drive_frame f s
  rw [hd]
  exact h

theorem foldl_of_mem {α : Type} {f : State → α → State} {l : List α} (hf : ∀ u, ∀ a ∈ l, Lasting s₀ u → Lasting s₀ (f u a)) :
    Lasting s₀ (l.foldl f s) := by
  induction l generalizing s with
  | nil => exact h
  | cons a r ih => exact ih (hf s a List.mem_cons_self h) fun u b hb => hf u b (List.mem_cons_of_mem _ hb)

theorem traceTrig {b : Nat} (hb : b < 16) : Lasting s₀ (traceTrig b s) := by
  unfold Machine.traceTrig
  dsimp only
  split
  · exact h
  · exact raise (by exact h) hb _

theorem traceEvent (src : Nat) : Lasting s₀ (traceEvent src s) :=
  h.foldl_of_mem fun _ b hb hu => ite (hu.traceTrig (Nat.lt_trans (List.mem_range.1 hb) (by decide))) hu

/-- The counters of the gate's sources lie behind those of TOP. -/
theorem setGate (i : Nat) (on : Bool) : Lasting s₀ (setGate i on s) := by
  unfold Machine.setGate
  extract_lets g m was src mot gate u tim v w
  have hu : Lasting s₀ u := drive (by exact h) _
  have hv : Lasting s₀ v := hu
  have hw : Lasting s₀ w := hv.bump (by simp only [rkey, pgSRV, pgTOP]; omega) 1
  exact ite h (ite hu (ite ((hw.raise (by decide) _).traceEvent 4) hw))

theorem setAppend (part p : Nat) : Lasting s₀ (setAppend part p s) := by
  unfold Machine.setAppend
  split
  · exact h.setPart ..
  · split
    · exact h.setPart ..
    · exact h

theorem backAppend (p : Pass) : Lasting s₀ (backAppend p s) := by
  unfold Machine.backAppend
  dsimp only
  split
  · exact h
  · split
    · exact (h.setAppend ..).setPart ..
    · exact h.setAppend ..

theorem recordQuality (p : Pass) (cause : Nat) : Lasting s₀ (recordQuality p cause s) := by
  unfold Machine.recordQuality
  dsimp only
  split <;> exact h

theorem closePass (p : Pass) (cause : Nat) : Lasting s₀ (closePass p cause s) :=
  have hq := h.recordQuality p cause
  setGate (by exact { hq with pass := fun _ => rfl }) 7 true

theorem endPass (cause : Nat) : Lasting s₀ (endPass cause s) := by
  unfold Machine.endPass
  split
  · exact h
  · next p _ =>
    extract_lets again bas u trk waits v
    have hu : Lasting s₀ u := by
      dsimp only [u]
      split
      · exact backAppend (by exact h) p
      · exact h
    have hv : Lasting s₀ v := closePass (by exact hu) p cause
    exact ite hv (hv.planTo 0)

theorem releaseRead (part : Nat) : Lasting s₀ (releaseRead part s) := by
  unfold Machine.releaseRead
  dsimp only
  exact freeSlots (ite (by exact h) (by exact h)) _

theorem endSilently (p : Cmd → Bool) : Lasting s₀ (endSilently p s) := h

theorem endCmds (pick : Cmd → Bool) : Lasting s₀ (endCmds pick s) := by
  unfold Machine.endCmds
  extract_lets polders host u v w x act
  have hv : Lasting s₀ v := foldNat (s := u) h (fun _ p hu => metered (hu.flushRiq ..)) _
  have hw : Lasting s₀ w := hv.foldl (fun _ j hu => by
    split
    · exact ite (hu.killRead _) hu
    · exact hu) _
  have hx : Lasting s₀ x := metered (hw.endSilently pick)
  clear_value x
  exact tidyCmds (by exact hx)

theorem endOpens (pick : Src → Bool) : Lasting s₀ (endOpens pick s) := by
  unfold Machine.endOpens
  dsimp only
  refine foldNat ?_ (fun u p hu => hu.releaseRead p) _
  exact h.foldl (fun u o hu => ite (hu.setRiq ..) hu) _

theorem endFn (f : Fin 64) : Lasting s₀ (endFn f s) := by
  unfold Machine.endFn
  extract_lets n part u v host w eod x
  have hv : Lasting s₀ v := (h.endCmds _).endOpens _
  clear_value v
  have hw : Lasting s₀ w := hv
  have hx : Lasting s₀ x := hw.rset (by simp only [pgQMG]; omega) ..
  clear_value x
  exact hx

theorem endNetwork : Lasting s₀ (endNetwork s) := by
  unfold Machine.endNetwork
  extract_lets u v
  have hv : Lasting s₀ v := (h.endCmds _).endOpens _
  clear_value v
  exact hv

theorem bootCores : Lasting s₀ (bootCores s) := by
  unfold Machine.bootCores
  split
  · exact h
  · next slot img _ =>
    extract_lets u
    have hu : Lasting s₀ u := ite h (raise (bump h (by decide) 1) (by decide) _)
    exact hu

theorem restartCores : Lasting s₀ (restartCores s) := by
  unfold Machine.restartCores
  extract_lets moving host u v
  have hu : Lasting s₀ u := metered (finishAll (by exact h) ..)
  have hv : Lasting s₀ v := ite hu.restMove hu
  clear_value v
  exact bootCores (tidyCmds (by exact hv))

end Steps

end Lasting

/-! ### A restart of the control cores (R584, R585) -/

theorem hostTop_restMove (s : State) : (restMove s).host = s.host ∧ (restMove s).top = s.top := by
  unfold restMove abortMove
  dsimp only
  repeat' split
  all_goals exact ⟨rfl, rfl⟩

theorem hostTop_metered (f : State → State) (s : State) : (metered f s).host = (f s).host ∧ (metered f s).top = (f s).top := by
  obtain ⟨m, hm⟩ := meterCmds_meters s.host.cmds (f s)
  rw [metered, hm]
  exact ⟨rfl, rfl⟩

theorem hostTop_tidyCmds (s : State) : (tidyCmds s).host = s.host ∧ (tidyCmds s).top = s.top := by
  unfold tidyCmds
  dsimp only
  repeat' split
  all_goals exact ⟨rfl, rfl⟩

/-- A boot of the cores takes no command and kicks no watchdog. -/
theorem bootCores_keeps (s : State) : (bootCores s).host.cmds = s.host.cmds ∧ (bootCores s).host.fetchStop = s.host.fetchStop ∧
    (bootCores s).host.fwHold = s.host.fwHold ∧ (bootCores s).top.wdKick = s.top.wdKick := by
  unfold bootCores
  split
  · exact ⟨rfl, rfl, rfl, rfl⟩
  · dsimp only
    split
    · exact ⟨rfl, rfl, rfl, rfl⟩
    · simp [bootFirmware]

/-- A restart ends the cores' commands and holds new ones until FWREADY (R585). -/
theorem restartCores_effect (s : State) : (restartCores s).host.fwHold = true ∧ (restartCores s).host.fetchStop = false ∧
    (restartCores s).top.wdKick = s.top.wdKick ∧ ∀ c ∈ (restartCores s).host.cmds, fwCmd c = true → c.fin ≠ none := by
  unfold restartCores
  extract_lets moving host u v
  obtain ⟨hdec, hstop, -, htop⟩ := finishAll_decided fwCmd stABORTED 0 { s with host.activate := none, host.fetchStop := false }
  have hu := hostTop_metered (finishAll fwCmd stABORTED 0) { s with host.activate := none, host.fetchStop := false }
  have hv : v.host = u.host ∧ v.top = u.top := by
    dsimp only [v]
    split
    · exact hostTop_restMove u
    · exact ⟨rfl, rfl⟩
  obtain ⟨hvh, hvt⟩ : v.host = _ ∧ v.top = _ := ⟨hv.1.trans hu.1, hv.2.trans hu.2⟩
  clear_value v
  obtain ⟨hcmds, hfs, hhold, hkick⟩ := bootCores_keeps (tidyCmds { v with host.fwHold := true, top.harts := [], mem.coreMem := [] })
  obtain ⟨hth, htt⟩ := hostTop_tidyCmds { v with host.fwHold := true, top.harts := [], mem.coreMem := [] }
  refine ⟨?_, ?_, ?_, fun c hc => ?_⟩
  · rw [hhold, hth]
  · rw [hfs, hth, hvh, hstop]
  · rw [hkick, htt, hvt, htop]
  · rw [hcmds, hth, hvh] at hc
    exact hdec c hc

section Steps
variable {keep : Src → Prop} {s₀ s : State} (h : Dwindles keep s₀ s)
include h

theorem Dwindles.restMove : Dwindles keep s₀ (restMove s) := by
  unfold Machine.restMove abortMove
  dsimp only
  repeat' split
  all_goals exact h

theorem Dwindles.bootCores : Dwindles keep s₀ (bootCores s) := by
  unfold Machine.bootCores
  split
  · exact h
  · next slot img _ =>
    extract_lets u
    have hu : Dwindles keep s₀ u := Dwindles.ite h (Dwindles.raise (b := 4) (h.bump ..) (by decide) pgTOP)
    clear_value u
    exact hu

theorem Dwindles.restartCores : Dwindles keep s₀ (restartCores s) := by
  unfold Machine.restartCores
  extract_lets moving host u v
  have hu : Dwindles keep s₀ u := Dwindles.metered (Dwindles.finishAll (by exact h) ..)
  clear_value u
  have hv : Dwindles keep s₀ v := Dwindles.ite hu.restMove hu
  clear_value v
  exact Dwindles.bootCores (Dwindles.tidyCmds (by exact hv))

end Steps

/-! ### A restart of the record side (R584, R586) -/

/-- No queue pair and no opening of a function is left. -/
def FnCut (f : Fin 64) (s : State) : Prop := (∀ x ∈ s.host.pairs, x.1 / 16 ≠ f.val) ∧ ∀ o ∈ s.host.opens, fnSrc f o.src = false

theorem FnCut.dwindles {f : Fin 64} {keep : Src → Prop} {s t : State} (h : FnCut f s) (h' : Dwindles keep s t) : FnCut f t := by
  refine ⟨fun x hx => ?_, fun o ho => h.2 o (h'.opens o ho)⟩
  obtain ⟨y, hy, hkey⟩ := h'.pairs x hx
  exact hkey ▸ h.1 y hy

theorem fnCut_endFn (f : Fin 64) (s : State) : FnCut f (endFn f s) := by
  unfold endFn
  extract_lets n part u v host w eod x
  have hopens : ∀ o ∈ v.host.opens, fnSrc f o.src = false := fun o => endOpens_gone (pick := fnSrc f)
  clear_value v
  exact ⟨fun x hx => by simpa using (List.mem_filter.1 hx).2, hopens⟩

theorem fnCut_foldl_endFn {l : List (Fin 64)} {f : Fin 64} (hf : f ∈ l) (s : State) : FnCut f (l.foldl (fun s f => endFn f s) s) := by
  induction l generalizing s with
  | nil => cases hf
  | cons a r ih =>
    rw [List.foldl_cons]
    rcases List.mem_cons.1 hf with rfl | hr
    · have hrest : Dwindles (fun _ => False) (endFn f s) (r.foldl (fun s f => endFn f s) (endFn f s)) :=
        Dwindles.foldl (f := fun s f => endFn f s) (Dwindles.refl _ (endFn f s)) (fun _ g hu => hu.endFn fun _ hx => hx.elim) r
      exact (fnCut_endFn f s).dwindles hrest
    · exact ih hr _

/-- With every function and the network ended, nothing of any queue is open, and no pair is left. -/
theorem endNetwork_cut {s : State} (h : ∀ f, FnCut f s) : (∀ f, FnCut f (endNetwork s)) ∧ (endNetwork s).host.opens = [] := by
  have hcut : ∀ f, FnCut f (endNetwork s) := fun f => (h f).dwindles ((Dwindles.refl (fun _ => False) s).endNetwork fun _ hx => hx.elim)
  obtain ⟨-, -, hopens⟩ := endNetwork_gone s
  refine ⟨hcut, List.eq_nil_iff_forall_not_mem.2 fun o ho => ?_⟩
  rcases src_cases o.src with ⟨f, hf⟩ | hnet
  · exact absurd ((hcut f).2 o ho) (by simp [hf])
  · exact absurd (hopens o ho) (by simp [hnet])

theorem FnCut.getPair {f : Fin 64} {s : State} (h : FnCut f s) (q : Fin 16) : getPair s f q = {} := by
  refine (sget_mem ({} : QPair) s.host.pairs (pairKey f q)).resolve_right fun hmem => h.1 _ hmem ?_
  have hq := q.isLt
  simp only [pairKey]
  omega

/-- The registers of TOP are none of the record side's. -/
theorem rget_resetRecordPages {s : State} {off : Nat} (ho : off < 4096) (h : rget s pgTOP off ≠ regReset (rkey pgTOP off)) :
    rget (resetRecordPages s) pgTOP off = rget s pgTOP off := by
  have hkey : rkey pgTOP off / 4096 = 0 := by simp only [rkey, pgTOP]; omega
  have hown : ((blockOf s (rkey pgTOP off / 4096)).map recordSideBlock).getD false = false := by rw [hkey]; rfl
  exact sget_filter_of_listed (q := fun k => !((blockOf s (k / 4096)).map recordSideBlock).getD false) (by simp [hown]) h

/-- After a restart of the record side nothing is mounted, passing, open or fatal (R584, R586). -/
structure RecordSideCleared (t : State) : Prop where
  cart : t.cart = none
  pass : t.trk.pass = none
  dma : t.dma = []
  opens : t.host.opens = []
  fatal : t.itg.fatal = none
  cut : ∀ f, FnCut f t

theorem RecordSideCleared.onwards {s t : State} (h : RecordSideCleared s) (hl : Lasting s t) (hd : Dwindles (fun _ => False) s t) :
    RecordSideCleared t where
  cart := hl.cart h.cart
  pass := hl.pass h.pass
  dma := hl.dma.trans h.dma
  opens := List.eq_nil_iff_forall_not_mem.2 fun o ho => by simpa [h.opens] using hd.opens o ho
  fatal := hl.fatal.trans h.fatal
  cut f := (h.cut f).dwindles hd

/-- What a restart of the record side clears once its pages and fences are reset. -/
def recordSideCleared (d : State) : State :=
  let off := fun (x : Nat × PolderSt) => if x.1 = 0 then x else (x.1, { x.2 with enabled := false })
  { d with rcd := {}, dma := [], ts := {}, cart := none, lat.enc := [], mot.spd.lastN := [],
           trk := { d.trk with last := none, plan := [], cur := none, syncPend := [], readAt := [], starting := none, waitPost := false },
           host.deferred := [], host.errlog := [], host.pol := d.host.pol.map off,
           itg := { d.itg with fatal := none, rep := [], laneSeen := [], ps := none, unf := [], tests := [],
                               scrubSlot := 0, scrubPass := 0, dumpGo := false } }

/-- The pass, the move, every function and the network have ended. -/
def sideEnded (s : State) : State :=
  let a := endPass 11 (abortMove s)
  endNetwork ((List.finRange 64).foldl (fun s f => endFn f s) (if mceOn a then planTo 0 a else a))

/-- The keys and quotes of polders other than 0 go, and every data slot not retired is free. -/
def recordSideFreed (s : State) : State :=
  freeSlots (fun x => x.st ≠ .retired) (dropQuotes (fun q => decide (q.polder ≠ 0)) (zeroise (fun k => decide (k.polder ≠ 0)) s))

theorem clearRecordSide_eq (s : State) : clearRecordSide s =
    recordSideFreed (recordSideCleared (restartFences (resetRecordPages (sideEnded s)))) := by
  unfold clearRecordSide
  extract_lets a b c d off host trk mot spd lat itg x y
  have hd : d = restartFences (resetRecordPages (sideEnded s)) := rfl
  clear_value d
  have hx : x = recordSideCleared d := rfl
  rw [← hd, ← hx]
  rfl

theorem lasting_recordSideFreed (s : State) : Lasting s (recordSideFreed s) := (((Lasting.refl s).zeroise _).dropQuotes _).freeSlots _

theorem dwindles_recordSideFreed (s : State) : Dwindles (fun _ => False) s (recordSideFreed s) := by
  have hkeys : Dwindles (fun _ => False) s (dropQuotes (fun q => decide (q.polder ≠ 0)) (zeroise (fun k => decide (k.polder ≠ 0)) s)) :=
    Dwindles.refl _ s
  exact hkeys.freeSlots _

theorem sideEnded_effect (s : State) : Lasting s (sideEnded s) ∧ (sideEnded s).trk.pass = none ∧ (∀ f, FnCut f (sideEnded s)) ∧
    (sideEnded s).host.opens = [] := by
  unfold sideEnded
  extract_lets a
  have hsa : Lasting s a := (Lasting.refl s).abortMove.endPass 11
  have hpass : a.trk.pass = none := endPass_pass ..
  clear_value a
  have hon : ∀ {s₀}, Lasting s₀ a →
      Lasting s₀ (endNetwork ((List.finRange 64).foldl (fun s f => endFn f s) (if mceOn a then planTo 0 a else a))) :=
    fun h => ((Lasting.ite (h.planTo 0) h).foldl (fun _ f hu => hu.endFn f) _).endNetwork
  exact ⟨hon hsa, (hon (Lasting.refl a)).pass hpass, endNetwork_cut fun f => fnCut_foldl_endFn (List.mem_finRange f) _⟩

theorem recordSideCleared_cleared {s : State} (hpass : s.trk.pass = none) (hcut : ∀ f, FnCut f s) (hopens : s.host.opens = []) :
    RecordSideCleared (recordSideCleared (restartFences (resetRecordPages s))) :=
  { cart := rfl, pass := hpass, dma := rfl, opens := hopens, fatal := rfl, cut := hcut }

theorem clearRecordSide_effect (s : State) : RecordSideCleared (clearRecordSide s) ∧
    ∀ off, off < 4096 → rget s pgTOP off ≠ regReset (rkey pgTOP off) → rget (clearRecordSide s) pgTOP off = rget s pgTOP off := by
  obtain ⟨hlast, hpass, hcut, hopens⟩ := sideEnded_effect s
  rw [clearRecordSide_eq]
  generalize sideEnded s = u at hlast hpass hcut hopens
  have hxl := lasting_recordSideFreed (recordSideCleared (restartFences (resetRecordPages u)))
  refine ⟨(recordSideCleared_cleared hpass hcut hopens).onwards hxl (dwindles_recordSideFreed _), fun off ho hl => ?_⟩
  have hkey : coreReg (rkey pgTOP off) := .inl (by simp only [rkey, pgTOP]; omega)
  have hnet : rget u pgTOP off = rget s pgTOP off := hlast.rget_eq hkey (.inr hl)
  have hres : rget (recordSideCleared (restartFences (resetRecordPages u))) pgTOP off = rget u pgTOP off := rget_resetRecordPages ho (hnet ▸ hl)
  rw [hxl.rget_eq hkey (.inr (by rw [hres, hnet]; exact hl)), hres, hnet]

/-! ### The cause of a restart (R586) -/

/-- A cause of a restart is noted in RSTCAUSE, which differs then from its reset value. -/
theorem rget_noteCause {b : Nat} (h1 : 1 ≤ b) (hb : b < 32) (s : State) :
    rbit (noteCause b s) pgTOP 0x608 b = true ∧ rget (noteCause b s) pgTOP 0x608 ≠ regReset (rkey pgTOP 0x608) := by
  have hbit : (rget s pgTOP 0x608 ||| BitVec.ofNat 32 (2 ^ b)).getLsbD b = true := by
    rw [BitVec.getLsbD_or, BitVec.getLsbD_ofNat, Nat.testBit_two_pow_self]
    simp [hb]
  have hreset : regReset (rkey pgTOP 0x608) = 1 := by decide
  have hne : ∀ v : Word, v.getLsbD b = true → v ≠ regReset (rkey pgTOP 0x608) := by
    intro v hv heq
    rw [heq, hreset] at hv
    simp [BitVec.getLsbD_one] at hv
    omega
  have hself : rget (noteCause b s) pgTOP 0x608 = rget s pgTOP 0x608 ||| BitVec.ofNat 32 (2 ^ b) := sget_sset_eq _ _ _ _ (hne _ hbit)
  rw [rbit, hself]
  exact ⟨hbit, hne _ hbit⟩

theorem rbit_of_lasting {b : Nat} {s t : State} (h : Lasting s t) (hb : rbit s pgTOP 0x608 b = true)
    (hl : rget s pgTOP 0x608 ≠ regReset (rkey pgTOP 0x608)) : rbit t pgTOP 0x608 b = true := by
  rw [rbit, h.rget_eq (.inl (by decide)) (.inr hl)]
  exact hb

end Sys2Proof.Machine
end

section
/-! SUPPORT. The watchdog, flash operations and timers of the control cores (O56). -/

namespace Sys2Proof.Machine

/-! ### Restarts (R569, R584 to R586) -/

/-- What the watchdog counts and raises before it restarts the cores. -/
def wdogNoted (s : State) : State := raise pgTOP 0 (bump pgTOP 0xA04 1 (bump pgTOP 0xA00 1 (noteCause 3 (noteCause 2 s))))

theorem wdog_of_due {s : State} (hen : wdEn s = true) (hms : wdTimeout s ≤ wdMs s) :
    wdog s = restartCores { wdogNoted s with top.wdKick := s.clk.mtime.toNat } := by
  have hgo : ¬ ((!wdEn s) = true ∨ wdMs s < wdTimeout s) := by simp [hen, hms]
  have hclk : (wdogNoted s).clk = s.clk := by rw [wdogNoted, raise_clk]; rfl
  rw [wdog, if_neg hgo, ← hclk]
  rfl

theorem count_wdogNoted (s : State) : count (wdogNoted s) pgTOP 0xA04 = min (count s pgTOP 0xA04 + 1) 0xFFFFFFFF := by
  rw [wdogNoted, count_raise (by decide), count_bump_self _ _ (by decide), count_bump_other (by decide) (by decide)]
  rfl

/-- The watchdog's restart is an event, is counted, and begins the watchdog's time anew (R569). -/
theorem wdog_effect {s : State} (hen : wdEn s = true) (hms : wdTimeout s ≤ wdMs s) :
    (wdog s).host.fwHold = true ∧ evPending (wdog s) pgTOP 0 = true ∧ (wdog s).top.wdKick = s.clk.mtime.toNat ∧
      count (wdog s) pgTOP 0xA04 = min (count s pgTOP 0xA04 + 1) 0xFFFFFFFF ∧ ∀ c ∈ (wdog s).host.cmds, fwCmd c = true → c.fin ≠ none := by
  rw [wdog_of_due hen hms]
  obtain ⟨hhold, -, hkick, hcmds⟩ := restartCores_effect { wdogNoted s with top.wdKick := s.clk.mtime.toNat }
  have hlast : Lasting (wdogNoted s) (restartCores { wdogNoted s with top.wdKick := s.clk.mtime.toNat }) :=
    Lasting.restartCores (s := { wdogNoted s with top.wdKick := s.clk.mtime.toNat }) (Lasting.refl (wdogNoted s))
  have hcount := count_wdogNoted s
  exact ⟨hhold, hlast.events _ _ (evPending_raise_self pgTOP 0 (by decide) _), hkick,
    (hlast.counts (by rw [hcount]; omega)).trans hcount, hcmds⟩

theorem coreRestart_effect {s : State} (hg : sget none s.rf.guard pgTOP = none) : (coreRestart s).host.fwHold = true ∧
    rbit (coreRestart s) pgTOP 0x608 2 = true ∧ (coreRestart s).host.fetchStop = false ∧
    ∀ c ∈ (coreRestart s).host.cmds, fwCmd c = true → c.fin ≠ none := by
  rw [coreRestart, touchPage_none hg]
  obtain ⟨hhold, hstop, -, hcmds⟩ := restartCores_effect (bump pgTOP 0xA00 1 (noteCause 2 s))
  obtain ⟨hbit, hlisted⟩ := rget_noteCause (b := 2) (by decide) (by decide) s
  have hlast : Lasting (bump pgTOP 0xA00 1 (noteCause 2 s)) (restartCores (bump pgTOP 0xA00 1 (noteCause 2 s))) := (Lasting.refl _).restartCores
  exact ⟨hhold, rbit_of_lasting hlast hbit hlisted, hstop, hcmds⟩

theorem recordSideRestart_effect {s : State} (hg : sget none s.rf.guard pgTOP = none) : (recordSideRestart s).host.fwHold = true ∧
    rbit (recordSideRestart s) pgTOP 0x608 4 = true ∧ RecordSideCleared (recordSideRestart s) := by
  rw [recordSideRestart, touchPage_none hg]
  obtain ⟨hbit, hlisted⟩ := rget_noteCause (b := 4) (by decide) (by decide) s
  obtain ⟨hcleared, hregs⟩ := clearRecordSide_effect (bump pgTOP 0xA08 1 (noteCause 4 s))
  have hreg : rget (clearRecordSide (bump pgTOP 0xA08 1 (noteCause 4 s))) pgTOP 0x608 = rget (noteCause 4 s) pgTOP 0x608 :=
    hregs _ (by decide) hlisted
  have hlast := (Lasting.refl (clearRecordSide (bump pgTOP 0xA08 1 (noteCause 4 s)))).restartCores
  refine ⟨(restartCores_effect _).1, rbit_of_lasting hlast (by rw [rbit, hreg]; exact hbit) (by rw [hreg]; exact hlisted),
    hcleared.onwards hlast (Dwindles.refl _ _).restartCores⟩

/-! ### Flash operations (R575, R595) -/

section Flash
variable {s : State} (hg : sget none s.rf.guard pgTOP = none) (hop : s.top.flOp = none)
include hg hop

/-- A read or a program of a length that fits takes the staged range. -/
theorem flashGo_of_range {op : Nat} (h3 : op ≠ 3) (hn : rfld s pgTOP 0x118 31 0 ≤ 1048576)
    (hm : rfld s pgTOP 0x114 31 0 + rfld s pgTOP 0x118 31 0 ≤ 33554432) : flashGo op s =
      if op ≠ 1 ∧ flProtected s (rfld s pgTOP 0x110 31 0) (rfld s pgTOP 0x118 31 0) then raise pgTOP 3 (setFl 3 1 s)
      else setFl 1 0 { s with top.flOp := some (op, rfld s pgTOP 0x110 31 0, rfld s pgTOP 0x114 31 0, rfld s pgTOP 0x118 31 0) } := by
  have hfree : ¬ (s.top.flOp.isSome = true ∨ (op ≠ 3 ∧ (1048576 < rfld s pgTOP 0x118 31 0 ∨
      33554432 < rfld s pgTOP 0x114 31 0 + rfld s pgTOP 0x118 31 0))) := by
    rw [hop]
    simp only [Option.isSome_none, Bool.false_eq_true, false_or]
    omega
  rw [flashGo, touchPage_none hg]
  dsimp only
  rw [if_neg hfree, if_neg h3]

/-- An erase takes the sector of the staged address. -/
theorem flashErase_eq : flashErase s =
    if flProtected s (rfld s pgTOP 0x110 31 0 / 65536 * 65536) 65536 then raise pgTOP 3 (setFl 3 1 s)
    else setFl 1 0 { s with top.flOp := some (3, rfld s pgTOP 0x110 31 0 / 65536 * 65536, rfld s pgTOP 0x114 31 0, 65536) } := by
  have hfree : ¬ (s.top.flOp.isSome = true ∨ (3 ≠ 3 ∧ (1048576 < rfld s pgTOP 0x118 31 0 ∨
      33554432 < rfld s pgTOP 0x114 31 0 + rfld s pgTOP 0x118 31 0))) := by simp [hop]
  rw [flashErase, flashGo, touchPage_none hg]
  dsimp only
  rw [if_neg hfree, if_pos rfl]
  simp only [ne_eq, OfNat.ofNat_ne_one, not_false_eq_true, true_and]

end Flash

section FlashDone
variable {s : State} {op a m n : Nat} (h : s.top.flOp = some (op, a, m, n))
include h

theorem flashDone_of_read (hop : op = 1) : flashDone s =
    spaceWrite 1 m (readBytes 0xFF s.mem.flash a n) (raise pgTOP 2 (setFl 2 0 { s with top.flOp := none })) := by
  subst hop
  rw [flashDone, h]
  dsimp only
  rw [raise_mem]
  rfl

theorem flashDone_of_program (hop : op = 2) : (flashDone s).mem.flash =
    progBytes s.mem.flash a (spaceRead 1 m n (raise pgTOP 2 (setFl 2 0 { s with top.flOp := none }))).1 := by
  subst hop
  have hmem : ∀ u : State, (spaceRead 1 m n u).2.mem = u.mem := fun u => by
    show (if _ then freeNext u else u).mem = u.mem
    split <;> rfl
  rw [flashDone, h]
  dsimp only
  rw [hmem, raise_mem]
  rfl

theorem flashDone_of_erase (hop : op = 3) : flashDone s = { raise pgTOP 2 (setFl 2 0 { s with top.flOp := none }) with
    mem.flash := eraseRange s.mem.flash a n } := by
  subst hop
  rw [flashDone, h]
  dsimp only
  rw [raise_mem]
  rfl

end FlashDone

/-- An erased range reads 0xFF, and every other byte as before. -/
theorem sget_eraseRange {m : Sparse Byte} (hw : swf (fun _ => 0xFF) m = true) (a n x : Nat) :
    sget 0xFF (eraseRange m a n) x = if a ≤ x ∧ x < a + n then 0xFF else sget 0xFF m x := by
  have hread := sget_filter hw (fun x => !(decide (a ≤ x) && decide (x < a + n))) x
  rw [eraseRange, hread]
  by_cases h : a ≤ x ∧ x < a + n
  · simp [h]
  · have hout : (!(decide (a ≤ x) && decide (x < a + n))) = true := by simpa using by omega
    rw [if_neg h, if_pos hout]

/-! ### A commit (R575) -/

section Commit
variable {s : State} {slotB : Bool} (hg : sget none s.rf.guard pgTOP = none) (hpf : s.top.pf = false)
include hg hpf

theorem fwcommit_of_unfit (h : slotFw s slotB = none) : fwcommit slotB s = setFl 3 2 s := by
  rw [fwcommit, touchPage_none hg, hpf, commitFw, h]
  rfl

theorem fwcommit_of_fit {img : FwImage} (h : slotFw s slotB = some img) : fwcommit slotB s = setFl 2 0 (commitFw.commit slotB img s) := by
  rw [fwcommit, touchPage_none hg, hpf, commitFw, h]
  rfl

end Commit

/-- Settles O56: a restart ends the cores' commands (`restartCores_effect`) and leaves what it notes (`Lasting`), one of the record side also
clears it (`RecordSideCleared`); the flash operations and the timers by their guards. -/
theorem coresAndFlash : Obligations.CoresAndFlash := by
  refine ⟨fun s v hg => ?_, fun s => rfl, fun s => ⟨fun hen hms => ⟨_, rfl, wdog_effect hen hms⟩, fun hg =>
    ⟨⟨_, rfl, coreRestart_effect hg⟩, ?_, ?_⟩⟩, fun s hg hop => ?_, fun s op a m n h => ⟨fun hop => ?_, fun hop => ?_, fun hop hw => ?_⟩,
    fun s slotB hg hpf => ⟨fun h => ?_, fun img h => ?_⟩, fun s h => ⟨fun hdue => ?_, fun v hw => ?_⟩⟩
  · exact congrArg Host.Outcome.next (by rw [wdkick, touchPage_none hg])
  · obtain ⟨hhold, hbit, hcleared⟩ := recordSideRestart_effect hg
    exact ⟨_, rfl, hhold, hbit, hcleared.cart, hcleared.pass, hcleared.dma, hcleared.opens, hcleared.fatal,
      fun f q => (hcleared.cut f).getPair q⟩
  · exact congrArg Host.Outcome.next (by rw [fwready, touchPage_none hg])
  · refine ⟨fun hn hm => ⟨congrArg Host.Outcome.next ?_, fun hpr => congrArg Host.Outcome.next ?_, fun hpr => congrArg Host.Outcome.next ?_⟩,
      fun hpr => congrArg Host.Outcome.next ?_, fun hpr => congrArg Host.Outcome.next ?_⟩
    · exact (flashGo_of_range hg hop (by decide) hn hm).trans (if_neg (by simp))
    · exact (flashGo_of_range hg hop (by decide) hn hm).trans (if_neg (by simp [hpr]))
    · exact (flashGo_of_range hg hop (by decide) hn hm).trans (if_pos ⟨by decide, hpr⟩)
    · exact (flashErase_eq hg hop).trans (if_neg (by simp [hpr]))
    · exact (flashErase_eq hg hop).trans (if_pos hpr)
  · exact congrArg Host.Outcome.next (flashDone_of_read h hop)
  · exact ⟨_, rfl, flashDone_of_program h hop⟩
  · refine ⟨_, congrArg Host.Outcome.next (flashDone_of_erase h hop), rfl, fun x => ?_⟩
    obtain ⟨-, -, -, -, -, hflash⟩ := (wf_iff s.mem).1 hw
    exact sget_eraseRange hflash a n x
  · exact congrArg Host.Outcome.next (fwcommit_of_unfit hg hpf h)
  · exact ⟨_, congrArg Host.Outcome.next (fwcommit_of_fit hg hpf h), rfl, rfl, rfl, rfl, rfl⟩
  · refine ⟨_, congrArg Host.Outcome.next (if_pos hdue), sget_sset_eq _ _ _ _ fun hz => ?_⟩
    have hmtip := congrArg Hart.mtip hz
    cases hmtip
  · exact ⟨_, rfl, sget_sset_self (fun _ => ({} : Hart)) hw h.val _, fun k hk => sget_sset_other (fun _ => ({} : Hart)) hw h.val k _ hk {}⟩

end Sys2Proof.Machine
end

section
/-! SUPPORT. Journalled bounds, closed minutes and the time-slot table (O50). -/

namespace Sys2Proof.Machine

/-! ### Journalled bounds (R505, R506, R508) -/

/-- A journal record takes the next slot, and no counter moves. -/
theorem journalWrite_effect (fp : BitVec 128) (b : Option Nat) (top : Nat) (s : State) :
    sget none (journalWrite fp b top s).vlt.journal (s.vlt.jseq % 256) = some { fp := fp, b := b, seq := s.vlt.jseq } ∧
      (journalWrite fp b top s).vlt.jseq = s.vlt.jseq + 1 ∧ (journalWrite fp b top s).vlt.ivs = s.vlt.ivs :=
  ⟨sget_sset_eq _ _ _ _ (by simp), rfl, rfl⟩

theorem ivOf_setIv (k : IvKey) (s : State) : ivOf (setIv k s) k.fp = some k :=
  List.find?_cons_of_pos (decide_eq_true rfl)

theorem fp_of_ivOf {s : State} {fp : BitVec 128} {k : IvKey} (h : ivOf s fp = some k) : k.fp = fp :=
  of_decide_eq_true (List.find?_some (p := fun k : IvKey => decide (k.fp = fp)) h)

/-- The last of two or more entries outlasts the first. -/
theorem mem_drop_one_append_singleton {α : Type} {l : List α} {a : α} (h : 1 < (l ++ [a]).length) : a ∈ (l ++ [a]).drop 1 := by
  cases l with
  | nil => simp at h
  | cons x r => simp

/-- A lost key has no counter, and is the last entry of the list. -/
theorem loseKey_effect (fp : BitVec 128) (s : State) :
    ivOf (loseKey fp s) fp = none ∧ fp ∈ (loseKey fp s).vlt.lost ∧ evPending (loseKey fp s) pgVLT 1 = true := by
  refine ⟨?_, ?_, evPending_raise_self pgVLT 1 (by decide) _⟩
  · rw [ivOf, loseKey, raise_vlt, List.find?_eq_none]
    intro k hk
    simpa using (List.mem_filter.1 hk).2
  · rw [loseKey, raise_vlt]
    dsimp only
    split
    · next hlong => exact mem_drop_one_append_singleton (by omega)
    · simp

section Checkpoint
variable {s : State} {fp : BitVec 128} {k : IvKey} {b : Nat} (hk : ivOf s fp = some k) (hb : k.recB = some b) (hq : s.top.pfQuiet = false)
include hk hb hq

theorem checkpointDurable_readBack : checkpointDurable fp true s = setIv { k with b := b, recB := none, fails := 0 } (journalWrite fp (some b) b s) := by
  simp only [checkpointDurable, hk, hb, hq, if_true, Bool.false_eq_true, if_false]

theorem checkpointDurable_failed : checkpointDurable fp false s =
    if 3 ≤ k.fails then loseKey fp (journalWrite 0 none b s) else setIv { k with fails := k.fails + 1 } (journalWrite 0 none b s) := by
  simp only [checkpointDurable, hk, hb, hq, Bool.false_eq_true, if_false]

theorem checkpointDurable_effect :
    (ivOf (checkpointDurable fp true s) fp = some { k with b := b, recB := none, fails := 0 } ∧
      sget none (checkpointDurable fp true s).vlt.journal (s.vlt.jseq % 256) = some { fp := fp, b := some b, seq := s.vlt.jseq } ∧
      (checkpointDurable fp true s).vlt.jseq = s.vlt.jseq + 1) ∧
    (k.fails < 3 → ivOf (checkpointDurable fp false s) fp = some { k with fails := k.fails + 1 }) ∧
    (3 ≤ k.fails → ivOf (checkpointDurable fp false s) fp = none ∧ fp ∈ (checkpointDurable fp false s).vlt.lost ∧
      evPending (checkpointDurable fp false s) pgVLT 1 = true) := by
  have hfp : k.fp = fp := fp_of_ivOf hk
  rw [checkpointDurable_readBack hk hb hq, checkpointDurable_failed hk hb hq]
  refine ⟨⟨hfp ▸ ivOf_setIv _ _, ?_⟩, fun h3 => ?_, fun h3 => ?_⟩
  · obtain ⟨hrec, hseq, -⟩ := journalWrite_effect fp (some b) b s
    exact ⟨hrec, hseq⟩
  · rw [if_neg (by omega)]
    exact hfp ▸ ivOf_setIv _ _
  · rw [if_pos h3]
    exact loseKey_effect _ _

end Checkpoint

/-! ### Closed minutes (R515 to R517) -/

/-- What the record of a polder rests on while the records of others are formed: the minute, its meter, its chain, its record and whether it
is enabled. -/
structure SameRecord (p : Nat) (s t : State) : Prop where
  minute : t.vlt.minute = s.vlt.minute
  meters : t.vlt.meters = s.vlt.meters
  devId : t.vlt.devId = s.vlt.devId
  on : polderOn t p = polderOn s p
  chain : sget none t.vlt.chain p = sget none s.vlt.chain p
  lastRec : sget none t.vlt.lastRec p = sget none s.vlt.lastRec p

theorem SameRecord.trans {p : Nat} {s t u : State} (h : SameRecord p s t) (h' : SameRecord p t u) : SameRecord p s u :=
  ⟨h'.minute.trans h.minute, h'.meters.trans h.meters, h'.devId.trans h.devId, h'.on.trans h.on, h'.chain.trans h.chain,
    h'.lastRec.trans h.lastRec⟩

/-- A record `r` of polder `p` that state `t` holds as its last, formed on the meter and the chain of state `s`. -/
def RecordFormed (p : Fin 64) (s t : State) (r : MeterRec) : Prop :=
  sget none t.vlt.lastRec p.val = some r ∧ r.polder = p ∧ r.minute = s.vlt.minute ∧ r.counts = meterOf s p.val ∧
    r.prev = (sget none s.vlt.chain p.val).getD 0 ∧
    sget none t.vlt.chain p.val = some (BitVec.ofNat 384 (beNat (sha384 (r.bytes s.vlt.devId))))

/-- A formed record waits; the oldest of 256 gives way (R515). -/
def queueRecord (r : MeterRec) (s : State) : State :=
  let s := bump pgVLT 0xA14 1 s
  if s.vlt.waiting.length < 256 then { s with vlt.waiting := s.vlt.waiting ++ [r] }
  else raise pgVLT 2 (bump pgVLT 0xA18 1 { s with vlt.waiting := s.vlt.waiting.drop 1 ++ [r] })

theorem queueRecord_frame (r : MeterRec) (s : State) : ∃ rf out w, queueRecord r s = { s with rf := rf, out := out, vlt.waiting := w } := by
  unfold queueRecord
  dsimp only
  split
  · exact ⟨_, s.out, _, rfl⟩
  · obtain ⟨rf, out, hr⟩ := raise_frame pgVLT 2 (bump pgVLT 0xA18 1 { bump pgVLT 0xA14 1 s with vlt.waiting := s.vlt.waiting.drop 1 ++ [r] })
    exact ⟨rf, out, _, hr⟩

/-- The record of one polder is formed on its meter and its chain; only that polder's chain and last record move. -/
theorem closePolder_of_on {step : Bool} {p : Fin 64} {s : State} (hon : polderOn s p.val = true) :
    (∃ r, RecordFormed p s (closePolder s.vlt.minute step p s) r) ∧
      ∀ q : Fin 64, q ≠ p → SameRecord q.val s (closePolder s.vlt.minute step p s) := by
  unfold closePolder
  rw [if_neg (by simp [hon])]
  extract_lets m prev fen r s₁ s₂ s₃
  have hmade : RecordFormed p s s₃ r :=
    ⟨sget_sset_eq _ _ _ _ (by simp), rfl, rfl, rfl, rfl, sget_sset_eq _ _ _ _ (by simp)⟩
  have hothers : ∀ q : Fin 64, q ≠ p → SameRecord q.val s s₃ := fun q hq =>
    have hne : q.val ≠ p.val := fun h => hq (Fin.ext h)
    ⟨rfl, rfl, rfl, rfl, sget_sset_ne _ _ _ _ _ (by simp) hne, sget_sset_ne _ _ _ _ _ (by simp) hne⟩
  clear_value r s₃
  obtain ⟨rf, out, w, hq⟩ := queueRecord_frame r s₃
  change (∃ r', RecordFormed p s (queueRecord r s₃) r') ∧ ∀ q : Fin 64, q ≠ p → SameRecord q.val s (queueRecord r s₃)
  rw [hq]
  exact ⟨⟨r, hmade⟩, fun q hqp => { hothers q hqp with }⟩

theorem closePolder_other {step : Bool} {p q : Fin 64} (hpq : p ≠ q) (s : State) :
    SameRecord p.val s (closePolder s.vlt.minute step q s) := by
  by_cases hon : polderOn s q.val = true
  · exact (closePolder_of_on hon).2 p hpq
  · rw [closePolder, if_pos (by simpa using hon)]
    exact ⟨rfl, rfl, rfl, rfl, rfl, rfl⟩

theorem foldl_closePolder_others {step : Bool} {p : Fin 64} :
    ∀ {l : List (Fin 64)}, p ∉ l → ∀ s : State, SameRecord p.val s (l.foldl (fun s q => closePolder s.vlt.minute step q s) s)
  | [], _, _ => ⟨rfl, rfl, rfl, rfl, rfl, rfl⟩
  | q :: l, h, s => by
    rw [List.mem_cons, not_or] at h
    exact (closePolder_other h.1 s).trans (foldl_closePolder_others h.2 _)

/-- At the close of a minute an enabled polder's record stands on its meter and chain as they were, whatever the other polders' records
took. -/
theorem recordFormed_closeMinute {step : Bool} {p : Fin 64} {s : State} (hdep : deployed s = true) (hon : polderOn s p.val = true) :
    ∃ r, RecordFormed p s (closeMinute step s) r := by
  obtain ⟨l₁, l₂, hl⟩ := List.append_of_mem (List.mem_finRange p)
  have hnodup : (l₁ ++ p :: l₂).Nodup := hl ▸ List.nodup_finRange 64
  rw [List.nodup_middle, List.nodup_cons, List.mem_append, not_or] at hnodup
  obtain ⟨⟨h₁, h₂⟩, -⟩ := hnodup
  have hbefore := foldl_closePolder_others (step := step) h₁ s
  rw [closeMinute, if_pos hdep, hl, List.foldl_append, List.foldl_cons]
  generalize l₁.foldl (fun s q => closePolder s.vlt.minute step q s) s = u at hbefore
  obtain ⟨r, hlast, hpol, hmin, hcounts, hprev, hchain⟩ := (closePolder_of_on (step := step) (hbefore.on.trans hon)).1
  have hafter := foldl_closePolder_others (step := step) h₂ (closePolder u.vlt.minute step p u)
  refine ⟨r, hafter.lastRec.trans hlast, hpol, hmin.trans hbefore.minute, ?_, ?_, ?_⟩
  · rw [hcounts, meterOf, hbefore.meters]; rfl
  · rw [hprev, hbefore.chain]
  · rw [← hbefore.devId]
    exact hafter.chain.trans hchain

theorem minute_closeMinute (step : Bool) (s : State) : (closeMinute step s).vlt.minute = s.vlt.minute := by
  have hfold : ∀ (l : List (Fin 64)) (s : State), (l.foldl (fun s q => closePolder s.vlt.minute step q s) s).vlt.minute = s.vlt.minute := by
    intro l
    induction l with
    | nil => exact fun _ => rfl
    | cons q l ih =>
      obtain ⟨p, hp⟩ : ∃ p : Fin 64, p ≠ q := exists_ne q
      exact fun s => (ih _).trans (closePolder_other hp s).minute
  rw [closeMinute]
  dsimp only
  split
  · exact hfold _ s
  · rfl

/-- A minute that has ended closes and the next begins, with every counter at zero. -/
theorem minuteEnd_effect {s : State} (hdue : 60 * (s.vlt.minute + 1) ≤ s.clk.devSec) (hpf : s.top.pf = false) :
    (minuteEnd s).vlt.minute = s.vlt.minute + 1 ∧ (minuteEnd s).vlt.meters = [] ∧ evPending (minuteEnd s) pgMTR 3 = true ∧
      ∀ p r, RecordFormed p s (closeMinute false s) r → RecordFormed p s (minuteEnd s) r := by
  rw [minuteEnd, if_neg (by simp [hpf]; omega)]
  refine ⟨?_, ?_, evPending_raise_self pgMTR 3 (by decide) _, fun p r h => ?_⟩
  · rw [raise_vlt]
    exact congrArg (· + 1) (minute_closeMinute false s)
  · rw [raise_vlt]; rfl
  · rw [RecordFormed, raise_vlt]; exact h

/-! ### The time-slot table (R486, R487) -/

/-- The bank of the time-slot table that is not in use. -/
def inactiveBank (s : State) : Sparse Byte := if s.ts.active then s.ts.bank0 else s.ts.bank1

/-- The bank in use. -/
def activeBank (s : State) : Sparse Byte := if s.ts.active then s.ts.bank1 else s.ts.bank0

/-- The four entries that a word fills, from entry `i`. -/
def fillEntries (i : Nat) (v : Word) (m : Sparse Byte) : Sparse Byte :=
  let put := fun (m : Sparse Byte) k => sset 0 m (i + k) (BitVec.ofNat 8 (bits v (8 * k + 7) (8 * k)))
  put (put (put (put m 0) 1) 2) 3

theorem sget_fillEntries {m : Sparse Byte} (hw : swf (fun _ => 0) m = true) (i : Nat) (v : Word) :
    (∀ k, k < 4 → sget 0 (fillEntries i v m) (i + k) = BitVec.ofNat 8 (bits v (8 * k + 7) (8 * k))) ∧
      ∀ j, j < i ∨ i + 4 ≤ j → sget 0 (fillEntries i v m) j = sget 0 m j := by
  have w0 := swf_sset (fun _ => (0 : Byte)) hw (i + 0) (BitVec.ofNat 8 (bits v (8 * 0 + 7) (8 * 0)))
  have w1 := swf_sset (fun _ => (0 : Byte)) w0 (i + 1) (BitVec.ofNat 8 (bits v (8 * 1 + 7) (8 * 1)))
  have w2 := swf_sset (fun _ => (0 : Byte)) w1 (i + 2) (BitVec.ofNat 8 (bits v (8 * 2 + 7) (8 * 2)))
  refine ⟨fun k hk => ?_, fun j hj => ?_⟩
  · unfold fillEntries
    interval_cases k
    · rw [sget_sset_other _ w2 _ _ _ (by omega), sget_sset_other _ w1 _ _ _ (by omega), sget_sset_other _ w0 _ _ _ (by omega),
        sget_sset_self _ hw]
    · rw [sget_sset_other _ w2 _ _ _ (by omega), sget_sset_other _ w1 _ _ _ (by omega), sget_sset_self _ w0]
    · rw [sget_sset_other _ w2 _ _ _ (by omega), sget_sset_self _ w1]
    · rw [sget_sset_self _ w2]
  · unfold fillEntries
    rw [sget_sset_other _ w2 _ _ _ (by omega), sget_sset_other _ w1 _ _ _ (by omega), sget_sset_other _ w0 _ _ _ (by omega),
      sget_sset_other _ hw _ _ _ (by omega)]

section Table
variable {s : State} (hg : sget none s.rf.guard pgMTR = none)
include hg

theorem tsdataWrite_of_swap (v : Word) (hswap : s.ts.swap = true) : tsdataWrite .pf0 v s = tsReject 2 s := by
  simp [tsdataWrite, isPf0, touchPage_none hg, hswap]

/-- A word of PF0 fills four entries of the inactive bank from TSIDX, which moves on. -/
theorem tsdataWrite_effect (v : Word) (hswap : s.ts.swap = false) (hw : swf regReset s.rf.regs = true) :
    (tsdataWrite .pf0 v s).ts.active = s.ts.active ∧ activeBank (tsdataWrite .pf0 v s) = activeBank s ∧
      inactiveBank (tsdataWrite .pf0 v s) = fillEntries (bits (rget s pgMTR 0x100) 11 2 * 4) v (inactiveBank s) ∧
      rget (tsdataWrite .pf0 v s) pgMTR 0x100 = BitVec.ofNat 32 ((bits (rget s pgMTR 0x100) 11 2 * 4 + 4) % 4096) := by
  simp only [tsdataWrite, touchPage_none hg, hswap]
  cases hact : s.ts.active <;> simp [isPf0, inactiveBank, activeBank, hact, fillEntries, rget_rset_self, hw]

theorem tsSwap_effect (hswap : s.ts.swap = false) :
    ((∀ x ∈ inactiveBank s, x.2.toNat < 64 ∨ x.2 = 0xFF) → tsSwap .pf0 s = { s with ts.swap := true }) ∧
      (¬ (∀ x ∈ inactiveBank s, x.2.toNat < 64 ∨ x.2 = 0xFF) → tsSwap .pf0 s = tsReject 1 s) := by
  have hall : (inactiveBank s).all (fun x => x.2.toNat < 64 || x.2 = 0xFF) = true ↔ ∀ x ∈ inactiveBank s, x.2.toNat < 64 ∨ x.2 = 0xFF := by
    simp
  have heq : tsSwap .pf0 s =
      if (inactiveBank s).all (fun x => x.2.toNat < 64 || x.2 = 0xFF) then { s with ts.swap := true } else tsReject 1 s := by
    rw [tsSwap, touchPage_none hg]
    dsimp only
    rw [hswap]; rfl
  rw [heq]
  exact ⟨fun h => if_pos (hall.2 h), fun h => if_neg (fun h' => h (hall.1 h'))⟩

end Table

/-- A list of polders whose meters note the swap have it noted, and noting others keeps it. -/
theorem foldl_tableSwap {p : Nat} {l : List Nat} {m : Sparse Meter} (h : p ∈ l ∨ (sget {} m p).tableSwap = true) :
    (sget {} (l.foldl (fun m p => smod {} m p (fun x => { x with tableSwap := true })) m) p).tableSwap = true := by
  induction l generalizing m with
  | nil => exact h.resolve_left List.not_mem_nil
  | cons q l ih =>
    refine ih ?_
    have hne : ({ sget {} m q with tableSwap := true } : Meter) ≠ {} := fun h => by simpa using congrArg Meter.tableSwap h
    by_cases hpq : p = q
    · subst hpq
      exact Or.inr (congrArg Meter.tableSwap (sget_sset_eq _ _ _ _ hne))
    · exact h.imp (fun hp => (List.mem_cons.1 hp).resolve_left hpq)
        (fun hp => (congrArg Meter.tableSwap (sget_sset_ne _ _ _ _ _ hne hpq)).trans hp)

theorem tsSwapped_effect {s : State} (hidx : s.ts.idx = 4095) (hswap : s.ts.swap = true) :
    (tsSwapped s).ts.active = !s.ts.active ∧ (tsSwapped s).ts.swap = false ∧ (tsSwapped s).ts.bank0 = s.ts.bank0 ∧
      (tsSwapped s).ts.bank1 = s.ts.bank1 ∧ evPending (tsSwapped s) pgMTR 0 = true ∧
      ∀ p, p < 64 → (meterOf (tsSwapped s) p).tableSwap = true := by
  have hmem : ∀ p, p < 64 → p ∈ List.range 64 := fun p hp => List.mem_range.2 hp
  rw [tsSwapped, if_pos hidx, tsApply, if_neg (by simp [hswap])]
  generalize List.range 64 = l at hmem ⊢
  dsimp only
  refine ⟨?_, ?_, ?_, ?_, evPending_raise_self pgMTR 0 (by decide) _, fun p hp => ?_⟩
  · rw [raise_ts]; rfl
  · rw [raise_ts]; rfl
  · rw [raise_ts]; rfl
  · rw [raise_ts]; rfl
  · rw [meterOf, raise_vlt]
    exact foldl_tableSwap (Or.inl (hmem p hp))

/-- Settles O50: a bound goes through the journal into the counter or, failing for the fourth time, to the lost list; the records of a minute
are formed one polder after another, none touching another's (`recordFormed_closeMinute`); and the table's two banks change only through
PF0's words and the swap. -/
theorem checkpointsMinutesAndTables : Obligations.CheckpointsMinutesAndTables := by
  refine ⟨fun s fp k b hk hb hq => ?_, fun s hdue hpf => ?_, fun s r v hr => ?_, fun s hg => ?_⟩
  · obtain ⟨hdurable, hfail, hlost⟩ := checkpointDurable_effect hk hb hq
    exact ⟨⟨_, rfl, hdurable⟩, fun h => ⟨_, rfl, hfail h⟩, fun h => ⟨_, rfl, hlost h⟩⟩
  · obtain ⟨hmin, hmeters, hev, hrec⟩ := minuteEnd_effect hdue hpf
    exact ⟨_, rfl, hmin, hmeters, hev, fun hdep p hon => (recordFormed_closeMinute hdep hon).imp fun r h => hrec p r h⟩
  · have hnot : (!isPf0 r) = true := by cases r <;> simp_all [isPf0]
    exact ⟨congrArg Host.Outcome.next (if_pos hnot), congrArg Host.Outcome.next (if_pos hnot)⟩
  · refine ⟨fun v hswap => congrArg Host.Outcome.next (tsdataWrite_of_swap hg v hswap), fun v hswap hbank hw => ?_, fun hswap => ?_,
      fun hidx hswap => ⟨_, rfl, tsSwapped_effect hidx hswap⟩⟩
    · obtain ⟨hactive, hact, hinact, hidx⟩ := tsdataWrite_effect hg v hswap hw
      obtain ⟨hfill, hrest⟩ := sget_fillEntries (m := inactiveBank s) hbank (bits (rget s pgMTR 0x100) 11 2 * 4) v
      exact ⟨_, rfl, hactive, hact, fun k hk => (congrArg (sget 0 · _) hinact).trans (hfill k hk),
        fun j hj => (congrArg (sget 0 · _) hinact).trans (hrest j hj), hidx⟩
    · obtain ⟨hgood, hbad⟩ := tsSwap_effect hg hswap
      exact ⟨fun h => congrArg Host.Outcome.next (hgood h), fun h => congrArg Host.Outcome.next (hbad h)⟩

end Sys2Proof.Machine
end

section
/-! SUPPORT. What stands in the vault while commands are answered and the volume index is written: its keys, its quote keys, device time and the
count of keys imported. -/

namespace Sys2Proof.Machine

/-- What the parts of the machine may become while a request is answered: the vault's keys and quote keys and device time are the same, and the
count of imported keys stands once it has counted. -/
structure VaultStandsIn (s : State) (cnt : Sparse Nat) (keys : List KeySlot) (quotes : List QuoteKey) (sec us : Nat) (set : Bool) : Prop where
  keys : keys = s.vlt.keys
  quotes : quotes = s.vlt.quotes
  sec : sec = s.clk.devSec
  us : us = s.clk.devUs
  set : set = s.clk.timeSet
  counts : count s pgVLT 0xA04 ≠ 0 → sget 0 cnt (rkey pgVLT 0xA04) = count s pgVLT 0xA04

/-- One state stands by another in the vault. It is said of those parts alone, so that after an update of any other part it is the same
statement. -/
def VaultStands (s t : State) : Prop := VaultStandsIn s t.rf.cnt t.vlt.keys t.vlt.quotes t.clk.devSec t.clk.devUs t.clk.timeSet

namespace VaultStands

theorem refl (s : State) : VaultStands s s := ⟨rfl, rfl, rfl, rfl, rfl, fun _ => rfl⟩

theorem count_eq {s t : State} (h : VaultStands s t) (hc : count s pgVLT 0xA04 ≠ 0) : count t pgVLT 0xA04 = count s pgVLT 0xA04 := h.counts hc

section Steps
variable {s₀ s t : State} (h : VaultStands s₀ s)
include h

theorem ite {c : Prop} [Decidable c] (h' : VaultStands s₀ t) : VaultStands s₀ (if c then s else t) := by split <;> assumption

theorem foldl {α : Type} {f : State → α → State} (hf : ∀ u a, VaultStands s₀ u → VaultStands s₀ (f u a)) (l : List α) :
    VaultStands s₀ (l.foldl f s) := by
  induction l generalizing s with
  | nil => exact h
  | cons a r ih => exact ih (hf s a h)

theorem foldNat {α : Type} {f : State → α → State} (hf : ∀ u a, VaultStands s₀ u → VaultStands s₀ (f u a)) (l : List α) :
    VaultStands s₀ (foldNat f s l) := by
  induction l generalizing s with
  | nil => exact h
  | cons a r ih => exact ih (hf s a h)

/-! ### Counters and events -/

/-- A counter other than that of imported keys. -/
theorem setCounter {k : Nat} (hk : k ≠ rkey pgVLT 0xA04) (x : Nat) : VaultStands s₀ { s with rf.cnt := sset 0 s.rf.cnt k x } :=
  { h with
    counts := fun hc => by
      have hst := h.counts hc
      rw [← hst]
      exact sget_sset_of_listed_other hk.symm x (hst ▸ hc) }

theorem bump {page off : Nat} (hk : rkey page off ≠ rkey pgVLT 0xA04) (n : Nat) : VaultStands s₀ (bump page off n s) := h.setCounter hk _

theorem bump64 {page off : Nat} (hk : rkey page off ≠ rkey pgVLT 0xA04) (n : Nat) : VaultStands s₀ (bump64 page off n s) := h.setCounter hk _

theorem rset (page off : Nat) (v : Word) : VaultStands s₀ (rset s page off v) := h

theorem raise (page b : Nat) : VaultStands s₀ (raise page b s) := by
  have hcnt : count (Machine.raise page b s) pgVLT 0xA04 = count s pgVLT 0xA04 := count_raise (by decide) page b s
  obtain ⟨rf, out, hr⟩ := raise_frame page b s
  rw [hr] at hcnt ⊢
  exact { h with counts := fun hc => hcnt.trans (h.counts hc) }

/-! ### Completions -/

theorem haltPair (f : Fin 64) (q : Fin 16) : VaultStands s₀ (haltPair f q s) := h

theorem signalPair (f : Fin 64) (q : Fin 16) : VaultStands s₀ (signalPair f q s) := by
  unfold Machine.signalPair
  dsimp only
  split <;> exact h

theorem winFaultPair (f : Fin 64) (q : Fin 16) (a : Nat) (wr : Bool) (kind : Nat) : VaultStands s₀ (winFaultPair f q a wr kind s) := by
  have hwin : VaultStands s₀ (winRefused f.val a wr kind 0 s) := bump (((h.rset ..).rset ..).rset ..) (by simp only [rkey, pgWIN, pgVLT]; omega) 1
  exact (hwin.haltPair f q).raise ..

theorem postPcie (f : Fin 64) (q : Fin 16) (c : Cmd) (st : BitVec 16) (res : BitVec 64) : VaultStands s₀ (postPcie f q c st res s) := by
  unfold Machine.postPcie
  dsimp only
  split
  · exact h
  · split
    · exact h.winFaultPair ..
    · refine signalPair (ite ?_ (bump ?_ (by simp only [rkey, pgQMG, pgVLT]; omega) 1)) f q <;> exact h

theorem txFrame (q : Fin 1024) (p : Packet) : VaultStands s₀ (txFrame q p s) := by
  unfold Machine.txFrame
  dsimp only
  split
  · exact h
  · split
    · exact h
    · exact h.bump64 (by simp only [rkey, pgNET, pgVLT]; omega) 1

theorem sendCapsule (q : Fin 1024) : VaultStands s₀ (sendCapsule q s) := by
  unfold Machine.sendCapsule
  dsimp only
  split
  · exact h
  · exact bump (txFrame (s := setQp q _ s) h ..) (by decide) 1

theorem postNet (q : Fin 1024) (c : Cmd) (st : BitVec 16) (res : BitVec 64) : VaultStands s₀ (postNet q c st res s) := by
  unfold Machine.postNet netPost
  dsimp only
  split
  · exact h
  · exact ite (sendCapsule (s := setQp q _ s) h q) h

theorem drainCheck (src : Src) : VaultStands s₀ (drainCheck src s) := by
  unfold Machine.drainCheck
  dsimp only
  split
  · exact h
  · next q =>
    have hfree : VaultStands s₀ (setQp q {} { Machine.sendCapsule q s with net.qopBusy := false }) := h.sendCapsule q
    split
    · exact ite (raise (by exact hfree) ..) h
    · exact h

theorem postOne (c : Cmd) (st : BitVec 16) (res : BitVec 64) : VaultStands s₀ (postOne c st res s) := by
  have hlog : ∀ u, VaultStands s₀ u → VaultStands s₀ (logError u c st res) := fun u hu => by
    unfold logError
    dsimp only
    split <;> exact hu
  have hdrop : VaultStands s₀ (dropCmd c.handle s) := h
  unfold Machine.postOne
  dsimp only
  refine drainCheck (ite hdrop (hlog _ ?_)) c.src
  split
  · exact hdrop.postPcie ..
  · exact hdrop.postNet ..

theorem postScan (l : List Cmd) (blk : List Src) : VaultStands s₀ (postScan l blk s) := by
  induction l generalizing blk s with
  | nil => exact h
  | cons c r ih =>
    unfold Machine.postScan
    split
    · exact ih h _
    · exact ite (ih (h.postOne ..) _) (ih h _)

theorem done (c : Nat) (st : BitVec 16) (res : Nat) : VaultStands s₀ (done c st res s) := by
  have hfin : VaultStands s₀ (finish c st (res64 res) s) := ite (by exact h) (postScan (by exact h) _ _)
  obtain ⟨m, hm⟩ := meterCmds_meters s.host.cmds (finish c st (res64 res) s)
  rw [Machine.done, metered, hm]
  exact hfin

theorem respond (st : BitVec 16) (reason len res : Nat) : VaultStands s₀ (respond st reason len res s) := raise (by exact h) _ _

theorem answer (c : Cmd) (st : BitVec 16) (reason len res : Nat) : VaultStands s₀ (answer c st reason len res s) := (h.respond ..).done ..

/-! ### Buffers, slots and generations -/

theorem deliverAt (c : Cmd) (pieces : List (Nat × Nat)) (off : Nat) (bs : List Byte) : VaultStands s₀ (deliverAt c pieces off bs s) := by
  refine h.foldl (fun u ab hu => ?_) _
  split
  · exact hu
  · unfold rdmaWrite
    dsimp only
    split
    · exact hu
    · exact txFrame (by exact hu) _ _

theorem spaceWrite (sp : BitVec 3) (a : Nat) (bs : List Byte) : VaultStands s₀ (spaceWrite sp a bs s) := by
  obtain ⟨m, r, i, hw⟩ := spaceWrite_frame sp a bs s
  rw [hw]
  exact h

theorem spaceRead (sp : BitVec 3) (a k : Nat) : VaultStands s₀ (spaceRead sp a k s).2 := by
  unfold Machine.spaceRead
  split
  · dsimp only
    split <;> exact h
  all_goals exact h

theorem setPart (p : Nat) (f : PartEntry → PartEntry) : VaultStands s₀ (setPart p f s) := by
  unfold Machine.setPart
  split <;> exact h

theorem newGen : VaultStands s₀ (newGen s) := by
  unfold Machine.newGen newGenAs
  split
  · exact h
  · exact ite h h

theorem writeCopyA (unl : Bool) : VaultStands s₀ (writeCopyA unl s) := by
  unfold Machine.writeCopyA
  split
  · exact h
  · exact ite h h

theorem retireNow (i : Nat) : VaultStands s₀ (retireNow i s) := by
  have hretired : VaultStands s₀ (Machine.raise pgBSN 1 (Machine.bump pgBSN 0xA08 1 (setSlot i { st := .retired } s))) :=
    raise (bump (by exact h) (by decide) 1) _ _
  unfold Machine.retireNow quotaCut
  split
  · exact hretired
  · split
    · exact hretired
    · exact (hretired.rset ..).raise ..

theorem freeSlot (i : Nat) : VaultStands s₀ (freeSlot i s) := ite (h.retireNow i) (by exact h)

theorem freeSlots (p : Slot → Bool) : VaultStands s₀ (freeSlots p s) := h.foldNat (fun _ _ hu => hu.freeSlot _) _

theorem unloadCheck : VaultStands s₀ (unloadCheck s) := by
  unfold Machine.unloadCheck
  split
  · exact h
  · split
    · exact h
    · refine ite h ?_
      split
      · exact writeCopyA (ite h h.newGen) true
      · exact h
      · exact done (freeSlots (by exact h) _) _ _ _

/-! ### Minutes -/

theorem closePolder (minute : Nat) (step : Bool) (p : Fin 64) : VaultStands s₀ (closePolder minute step p s) := by
  unfold Machine.closePolder
  extract_lets m prev fen r s₁ s₂ s₃ s₄
  have hformed : VaultStands s₀ s₄ := bump (by exact h) (by decide) 1
  exact ite h (ite (by exact hformed) (raise (bump (by exact hformed) (by decide) 1) _ _))

theorem closeMinute (step : Bool) : VaultStands s₀ (closeMinute step s) := by
  have hall : VaultStands s₀ ((List.finRange 64).foldl (fun s p => Machine.closePolder s.vlt.minute step p s) s) :=
    h.foldl (fun _ _ hu => hu.closePolder ..) _
  unfold Machine.closeMinute
  dsimp only
  split
  · generalize (List.finRange 64).foldl (fun s p => Machine.closePolder s.vlt.minute step p s) s = u at hall ⊢
    exact hall
  · exact h

theorem minuteEnd : VaultStands s₀ (minuteEnd s) := by
  have hclosed := h.closeMinute false
  unfold Machine.minuteEnd
  split
  · exact h
  · dsimp only
    generalize Machine.closeMinute false s = u at hclosed ⊢
    exact raise (by exact hclosed) _ _

end Steps

end VaultStands

end Sys2Proof.Machine
end

section
/-! SUPPORT. The requests of the vault's mailbox, and the statement on it (O49). -/

namespace Sys2Proof.Machine

/-! ### The mailbox (R491) -/

section Mailbox
variable {s : State} (hg : sget none s.rf.guard pgVLT = none) {op : Nat} {opc : Byte} {f : Cmd → State → State}
include hg

theorem vaultReq_of_other (h : rfld s pgVLT 0x100 7 0 ≠ op) : vaultReq op opc f s = s := by
  rw [vaultReq, touchPage_none hg]
  exact if_pos h

theorem vaultReq_of_no_command (h : rfld s pgVLT 0x100 7 0 = op) (hc : reqCmd s opc = none) : vaultReq op opc f s = secEvent s := by
  rw [vaultReq, touchPage_none hg, if_neg (not_not.2 h), hc]

theorem vaultReq_of_command (h : rfld s pgVLT 0x100 7 0 = op) {c : Cmd} (hc : reqCmd s opc = some c) :
    vaultReq op opc f s = f c (modCmd c.handle (fun c => { c with usedVault := true }) s) := by
  rw [vaultReq, touchPage_none hg, if_neg (not_not.2 h), hc]

end Mailbox

/-! ### Quotes (R494, R495) -/

theorem mem_addQuote (p : Fin 64) (obs : QuoteObs) (s : State) :
    ⟨obs.quoteId, p, s.clk.devSec, obs.priv, (polderOf s p.val).tag⟩ ∈ (addQuote p obs s).vlt.quotes :=
  List.mem_append_right _ (List.mem_singleton.2 rfl)

/-- Without its first element a list of at least one has fewer. -/
theorem length_filter_ne_head {α : Type} [DecidableEq α] {l : List α} (hl : l ≠ []) :
    (l.filter (fun q => some q ≠ l.head?)).length < l.length := by
  obtain ⟨a, r, rfl⟩ := List.exists_cons_of_ne_nil hl
  exact List.length_filter_lt_length_iff_exists.2 ⟨a, List.mem_cons_self, by simp⟩

/-- The fifth quote key of a polder drops its oldest (R494). -/
theorem length_addQuote_le (p : Fin 64) (obs : QuoteObs) (s : State) (h : (s.vlt.quotes.filter (·.polder = p)).length ≤ 4) :
    ((addQuote p obs s).vlt.quotes.filter (·.polder = p)).length ≤ 4 := by
  let live := (dropQuotes (fun q => decide (q.time + 600 ≤ s.clk.devSec)) s).vlt.quotes
  have hlive : (live.filter (·.polder = p)).length ≤ 4 :=
    le_trans (List.Sublist.length_le (List.Sublist.filter _ List.filter_sublist)) h
  have heq : (addQuote p obs s).vlt.quotes.filter (·.polder = p) =
      (live.filter (·.polder = p)).filter (fun q => some q ≠ if 4 ≤ (live.filter (·.polder = p)).length then (live.filter (·.polder = p)).head?
        else none) ++ [⟨obs.quoteId, p, s.clk.devSec, obs.priv, (polderOf s p.val).tag⟩] := by
    rw [addQuote, List.filter_append, List.filter_comm, List.filter_cons_of_pos (by simp)]
    rfl
  rw [heq, List.length_append, List.length_singleton]
  generalize live.filter (·.polder = p) = mine at hlive ⊢
  split
  · next hfull =>
    have := length_filter_ne_head (l := mine) (fun hn => by simp [hn] at hfull)
    omega
  · have := List.length_filter_le (fun q : QuoteKey => decide (some q ≠ none)) mine
    omega

theorem reqAttest_of_room {s : State} {c : Cmd} {obs : QuoteObs} (hg : sget none s.rf.guard pgVLT = none) (hop : rfld s pgVLT 0x100 7 0 = 1)
    (hc : reqCmd s 0x0A = some c)
    (hroom : (quoteBytes (modCmd c.handle (fun c => { c with usedVault := true }) s) c obs).length ≤ bufLen c.e c.sgl) :
    (reqAttest obs s).vlt.quotes = (addQuote c.polder obs s).vlt.quotes := by
  rw [reqAttest, vaultReq_of_command hg hop hc]
  dsimp only
  rw [if_neg (Nat.not_lt.2 hroom)]
  have hbump : VaultStands (addQuote c.polder obs s) (bump pgVLT 0xA00 1
      (addQuote c.polder obs (modCmd c.handle (fun c => { c with usedVault := true }) s))) :=
    VaultStands.bump (VaultStands.refl (addQuote c.polder obs s)) (by decide) 1
  exact (((hbump.spaceWrite ..).deliverAt ..).answer ..).quotes

/-! ### Key import (R496 to R500) -/

theorem length_blobKek (s : State) (q : QuoteKey) (b : KeyBlob) (pt : Nat × Nat) : (blobKek s q b pt).length = 32 := by
  rw [blobKek, hkdf384, hmac384, List.length_take, Laws.length_sha384]
  decide

/-- What a blob unwraps to has the fingerprint that the blob gives (R498). -/
theorem keyPrint_of_importKey {s : State} {c : Cmd} {b : KeyBlob} {key : List Byte} (h : importKey s c b = .inr key) : keyPrint key = b.keyFp := by
  unfold importKey at h
  split at h
  · cases h
  · unfold unwrapBlob at h
    split at h
    · cases h
    · split at h
      · cases h
      · split at h
        · cases h
        · next hfp => exact Sum.inr.inj h ▸ (not_not.1 hfp).symm

/-- A key wrapped for the quote key that the blob names unwraps (R497). -/
theorem importKey_of_wrapped {s : State} {c : Cmd} {b : KeyBlob} {q : QuoteKey} {pt : Nat × Nat} {key : List Byte}
    (hq : s.vlt.quotes.find? (liveQuote s c.polder b.quoteId) = some q) (hpt : Sys2Proof.readPoint b.tpub = some pt) (hlen : key.length = 32)
    (hwrap : b.wrapped = keyWrap b.kwalg (blobKek s q b pt) key) (hfp : b.keyFp = keyPrint key) : importKey s c b = .inr key := by
  simp only [importKey, hq, unwrapBlob, hpt, hwrap, keyUnwrap_keyWrap _ (length_blobKek ..) hlen, if_neg (not_not.2 hfp)]

theorem mem_storeKey (c : Cmd) (b : KeyBlob) (key : List Byte) (s : State) :
    ∃ k ∈ (storeKey c b key s).vlt.keys, k.fp = b.keyFp ∧ k.polder = c.polder := by
  unfold storeKey
  split
  · next hany =>
    obtain ⟨k, hk, hfit⟩ := List.any_eq_true.1 hany
    exact ⟨k, hk, of_decide_eq_true hfit⟩
  · exact ⟨_, List.mem_append_right _ (List.mem_singleton.2 rfl), rfl, rfl⟩

/-- An import that is done leaves its key in the store, the quote keys as they were, and is counted. -/
theorem importDone_effect (c : Cmd) (b : KeyBlob) (key : List Byte) (s : State) :
    (∃ k ∈ (importDone c b key s).vlt.keys, k.fp = b.keyFp ∧ k.polder = c.polder) ∧ (importDone c b key s).vlt.quotes = s.vlt.quotes ∧
      count (importDone c b key s) pgVLT 0xA04 = min (count s pgVLT 0xA04 + 1) 0xFFFFFFFF := by
  let v := bump pgVLT 0xA04 1 (storeKey c b key s)
  have hstored : (storeKey c b key s).vlt.quotes = s.vlt.quotes ∧ (storeKey c b key s).rf = s.rf := by
    unfold storeKey
    split
    · exact ⟨rfl, rfl⟩
    · dsimp only
      split <;> exact ⟨rfl, rfl⟩
  have hstands : VaultStands v (importDone c b key s) :=
    VaultStands.answer (VaultStands.ite (VaultStands.newGen (VaultStands.setPart (VaultStands.refl v) _ _)) (VaultStands.refl v)) _ _ _ _ _
  have hcount : count v pgVLT 0xA04 = min (count s pgVLT 0xA04 + 1) 0xFFFFFFFF := by
    rw [count_bump_self _ _ (by decide), count, hstored.2]; rfl
  refine ⟨?_, hstands.quotes.trans hstored.1, (hstands.count_eq (by rw [hcount]; omega)).trans hcount⟩
  rw [hstands.keys]
  exact mem_storeKey c b key s

/-- What R499 makes of a blob that has been read: the first row that applies, or the import. -/
def importRows (c : Cmd) (b : KeyBlob) (v : State) : State :=
  match importEarly v c b with
  | some x => importRefused c x v
  | none =>
    let w := dropQuotes (fun q => decide (q.id = b.quoteId) && decide (q.polder = c.polder)) v
    match importKey v c b with
    | .inl reason => importRefused c (stKEY_REFUSED, reason) w
    | .inr key =>
      match importLate w c b with
      | some x => importRefused c x (if x.1 = stNONCE_STATE_LOST then noteLost b.keyFp w else w)
      | none => importDone c b key w

theorem reqKeyImport_eq {s : State} {c : Cmd} (hg : sget none s.rf.guard pgVLT = none) (hop : rfld s pgVLT 0x100 7 0 = 2)
    (hc : reqCmd s 0x09 = some c) : reqKeyImport s =
      importRows c (requestBlob (modCmd c.handle (fun c => { c with usedVault := true }) s)).1
        (requestBlob (modCmd c.handle (fun c => { c with usedVault := true }) s)).2 := by
  rw [reqKeyImport, vaultReq_of_command hg hop hc]
  rfl

theorem rf_requestBlob (s : State) : (requestBlob s).2.rf = s.rf := by
  unfold requestBlob spaceRead
  split
  · dsimp only
    split <;> rfl
  all_goals rfl

section Rows
variable {c : Cmd} {b : KeyBlob} {v : State}

theorem importRows_of_early {x : BitVec 16 × Nat} (h : importEarly v c b = some x) : importRows c b v = importRefused c x v := by
  rw [importRows, h]

theorem importRows_of_no_key {reason : Nat} (he : importEarly v c b = none) (hk : importKey v c b = .inl reason) :
    importRows c b v = importRefused c (stKEY_REFUSED, reason) (dropQuotes (fun q => decide (q.id = b.quoteId) && decide (q.polder = c.polder)) v) := by
  rw [importRows, he, hk]

theorem importRows_of_key {key : List Byte} (he : importEarly v c b = none) (hk : importKey v c b = .inr key) :
    let w := dropQuotes (fun q => decide (q.id = b.quoteId) && decide (q.polder = c.polder)) v
    (∀ x, importLate w c b = some x → importRows c b v = importRefused c x (if x.1 = stNONCE_STATE_LOST then noteLost b.keyFp w else w)) ∧
      (importLate w c b = none → importRows c b v = importDone c b key w) := by
  simp only [importRows, he, hk]
  exact ⟨fun x hx => by rw [hx], fun hnone => by rw [hnone]⟩

/-- A blob that passes R499 leaves its key in the store, uses its quote key up and is counted. -/
theorem importRows_effect {key : List Byte} (he : importEarly v c b = none) (hk : importKey v c b = .inr key)
    (hlate : importLate (dropQuotes (fun q => decide (q.id = b.quoteId) && decide (q.polder = c.polder)) v) c b = none) :
    (∃ k ∈ (importRows c b v).vlt.keys, k.fp = b.keyFp ∧ k.polder = c.polder) ∧
      (∀ q ∈ (importRows c b v).vlt.quotes, ¬ (q.id = b.quoteId ∧ q.polder = c.polder)) ∧
      count (importRows c b v) pgVLT 0xA04 = min (count v pgVLT 0xA04 + 1) 0xFFFFFFFF := by
  rw [(importRows_of_key he hk).2 hlate]
  obtain ⟨hkey, hquotes, hcount⟩ := importDone_effect c b key (dropQuotes (fun q => decide (q.id = b.quoteId) && decide (q.polder = c.polder)) v)
  refine ⟨hkey, fun q hq => ?_, hcount⟩
  rw [hquotes] at hq
  simpa [not_and_or, Decidable.imp_iff_not_or] using (List.mem_filter.1 hq).2

end Rows

/-! ### Erasure (R403, R501) -/

/-- An erasure stands by the vault; where a cartridge is in, it ends with a new generation in which the partition's entry is as reset. -/
theorem erasePart_effect (part : Nat) (s : State) : ∃ u, VaultStands s u ∧ ((s.cart = none ∧ erasePart part s = u) ∨
    ∃ c d, s.cart = some c ∧ u.cart = some d ∧ d.core.parts = sset {} c.core.parts part {} ∧ erasePart part s = newGen u) := by
  have hstands := (VaultStands.refl s).freeSlots fun x => x.part.val = part
  have hcart : (freeSlots (fun x => x.part.val = part) s).cart = s.cart := by
    obtain ⟨bas, rf, out, hf⟩ := slotsOnly_freeSlots (fun x => x.part.val = part) s
    rw [hf]
  unfold erasePart
  dsimp only
  generalize freeSlots (fun x => x.part.val = part) s = v at hstands hcart ⊢
  rcases v.trk.pass with _ | p
  case' some => by_cases hpart : p.part.val = part <;> simp only [hpart, if_true, if_false]
  all_goals
    cases hc : v.cart with
    | none => exact ⟨_, by exact hstands, .inl ⟨hcart ▸ hc, rfl⟩⟩
    | some c => exact ⟨_, by exact hstands, .inr ⟨c, _, hcart ▸ hc, rfl, rfl, rfl⟩⟩

theorem keys_erasePart (part : Nat) (s : State) : (erasePart part s).vlt.keys = s.vlt.keys := by
  obtain ⟨u, hu, ⟨-, he⟩ | ⟨c, d, -, -, -, he⟩⟩ := erasePart_effect part s
  · rw [he, hu.keys]
  · rw [he, hu.newGen.keys]

theorem parts_newGen {s : State} {d : Cart} (hd : s.cart = some d) (part : Nat) : partEntry (newGen s) part = sget {} d.core.parts part := by
  unfold newGen newGenAs
  simp only [hd]
  split
  · rw [partEntry, hd]
  · rfl

/-- The entry of an erased partition is as reset. -/
theorem partEntry_erasePart {part : Nat} {s : State} {k : Cart} (hk : s.cart = some k) (hw : swf (fun _ => {}) k.core.parts = true) :
    partEntry (erasePart part s) part = {} := by
  obtain ⟨u, -, ⟨hc, -⟩ | ⟨c, d, hc, hd, hparts, he⟩⟩ := erasePart_effect part s
  · exact absurd (hc.symm.trans hk) (Option.some_ne_none k).symm
  · obtain rfl : c = k := Option.some.inj (hc.symm.trans hk)
    rw [he, parts_newGen hd, hparts, sget_sset_self _ hw]

theorem keys_zeroise (p : KeySlot → Bool) (s : State) : ∀ k ∈ (zeroise p s).vlt.keys, p k = false ∧ k ∈ s.vlt.keys := by
  intro k hk
  obtain ⟨hmem, hp⟩ := List.mem_filter.1 hk
  exact ⟨by simpa using hp, hmem⟩

/-- What the crypto-erase of a fingerprint leaves in the store is another fingerprint's key or another polder's. -/
theorem keys_reqPartErase {s : State} {part : Nat} {fp : BitVec 128} {owner : Option (Fin 64)} :
    ∀ k ∈ (erasePart part (zeroise (fun k => decide (k.fp = fp) && decide (some k.polder = owner)) s)).vlt.keys, k.fp = fp → some k.polder ≠ owner := by
  intro k hk hfp howner
  rw [keys_erasePart] at hk
  obtain ⟨hp, -⟩ := keys_zeroise _ _ k hk
  simp [hfp, howner] at hp

/-! ### Time (R520) -/

theorem nowNs_minuteEnd (s : State) : nowNs (minuteEnd s) = nowNs s := by
  have h := (VaultStands.refl s).minuteEnd
  rw [nowNs, h.sec, h.us, nowNs]

/-- The notice of an UNLOAD leaves no key that is flagged for it (R501). -/
theorem reqUnloadNotice_effect {s : State} {c : Cmd} (hg : sget none s.rf.guard pgVLT = none) (hop : rfld s pgVLT 0x100 7 0 = 5)
    (hc : reqCmd s 0x82 = some c) : ∀ k ∈ (reqUnloadNotice s).vlt.keys, k.unloadRelease = false ∧ k ∈ s.vlt.keys := by
  rw [reqUnloadNotice, vaultReq_of_command hg hop hc]
  have hgone := keys_zeroise (·.unloadRelease) (modCmd c.handle (fun c => { c with usedVault := true }) s)
  generalize zeroise (·.unloadRelease) (modCmd c.handle (fun c => { c with usedVault := true }) s) = v at hgone ⊢
  have hstands : ∀ w, VaultStands v w → ∀ k ∈ w.vlt.keys, k.unloadRelease = false ∧ k ∈ s.vlt.keys :=
    fun w hw k hk => hgone k (hw.keys ▸ hk)
  refine hstands _ (VaultStands.unloadCheck (VaultStands.respond ?_ _ _ _ _))
  split <;> exact VaultStands.refl v

/-- The erasure of a partition answers with the generation that it made. -/
theorem reqPartErase_eq {s : State} {c : Cmd} (hg : sget none s.rf.guard pgVLT = none) (hop : rfld s pgVLT 0x100 7 0 = 3)
    (hc : reqCmd s 0x84 = some c) :
    let u := modCmd c.handle (fun c => { c with usedVault := true }) s
    let part := c.e.part.toNat
    let fp := (partEntry s part).keyFp
    let v := erasePart part (if fp = 0 then u else zeroise (fun k => decide (k.fp = fp) && decide (some k.polder = ownerPolder u part)) u)
    reqPartErase s = answer c stSUCCESS 0 0 (match v.cart with | none => 0 | some k => k.core.gen.toNat) v := by
  rw [reqPartErase, vaultReq_of_command hg hop hc]
  rfl

/-- A time request sets device time forward, leaves it where it is, or is refused, once a minute that has ended is closed (R520, R521). -/
theorem reqSetTime_eq {s : State} {c : Cmd} (hg : sget none s.rf.guard pgVLT = none) (hop : rfld s pgVLT 0x100 7 0 = 4)
    (hc : reqCmd s 0x8A = some c) :
    let m := minuteEnd (modCmd c.handle (fun c => { c with usedVault := true }) s)
    let sec := csp c.e 0x20 8
    let nano := csp c.e 0x28 4
    reqSetTime s = if sec * 1000000000 + nano < nowNs s then answer c stTIME_BACKWARD 0 0 0 m
      else if sec * 1000000000 + nano = nowNs s then answer c stSUCCESS 0 0 0 { m with clk.timeSet := true }
      else answer c stSUCCESS 0 0 0 (stepTime sec nano m) := by
  have hnow : nowNs (minuteEnd (modCmd c.handle (fun c => { c with usedVault := true }) s)) = nowNs s := nowNs_minuteEnd _
  intro m sec nano
  rw [reqSetTime, vaultReq_of_command hg hop hc, ← hnow]

/-- Settles O49: what the mailbox holds picks the request (`vaultReq_of_command`), and of each request the lemma above says what it leaves;
that the answer and the new generation leave keys, quote keys, time and count alone is `VaultStands`. -/
theorem vaultServesItsMailbox : Obligations.VaultServesItsMailbox := by
  intro s hg
  refine ⟨fun q x hx => ?_, fun c => ?_⟩
  · simp only [List.mem_cons, List.not_mem_nil, or_false] at hx
    rcases hx with rfl | rfl | rfl | rfl | rfl <;>
      exact ⟨fun h => congrArg Host.Outcome.next (vaultReq_of_other hg h), fun h hc => congrArg Host.Outcome.next (vaultReq_of_no_command hg h hc)⟩
  · intro u
    refine ⟨fun obs hop hc => ?_, fun hop hc => ?_, fun hop hc => ?_, fun hop hc => ?_, fun hop hc => ?_, fun id => ?_⟩
    · refine ⟨fun hroom => congrArg Host.Outcome.next ?_, fun hroom => ?_⟩
      · rw [reqAttest, vaultReq_of_command hg hop hc]
        exact if_pos hroom
      · have hquotes := reqAttest_of_room hg hop hc hroom
        refine ⟨reqAttest obs s, rfl, ?_, fun hfew => ?_⟩
        · rw [hquotes]
          exact mem_addQuote ..
        · rw [hquotes]
          exact length_addQuote_le _ _ _ hfew
    · have heq := reqKeyImport_eq hg hop hc
      intro b v w
      refine ⟨fun x hx => congrArg Host.Outcome.next (heq.trans (importRows_of_early hx)), fun hearly => ⟨fun reason hkey => ?_, fun key hkey => ?_,
        fun q pt key hq hpt hlen hwrap hfp => importKey_of_wrapped hq hpt hlen hwrap hfp⟩⟩
      · exact congrArg Host.Outcome.next (heq.trans (importRows_of_no_key hearly hkey))
      · obtain ⟨hrefused, -⟩ := importRows_of_key hearly hkey
        refine ⟨keyPrint_of_importKey hkey, fun x hx => congrArg Host.Outcome.next (heq.trans (hrefused x hx)), fun hlate => ?_⟩
        obtain ⟨hstored, hused, hcount⟩ := importRows_effect hearly hkey hlate
        refine ⟨reqKeyImport s, rfl, heq ▸ hstored, heq ▸ hused, ?_⟩
        have hrf : v.rf = s.rf := rf_requestBlob u
        rw [heq]
        exact hcount.trans (by rw [count, hrf]; rfl)
    · intro part fp v
      refine ⟨congrArg Host.Outcome.next (reqPartErase_eq hg hop hc), fun hfp => ?_, fun k hk hw => ?_⟩
      · have hv : v = erasePart part (zeroise (fun k => decide (k.fp = fp) && decide (some k.polder = ownerPolder u part)) u) :=
          congrArg (erasePart part) (if_neg hfp)
        rw [hv]
        exact keys_reqPartErase
      · have hcart : (if fp = 0 then u else zeroise (fun k => decide (k.fp = fp) && decide (some k.polder = ownerPolder u part)) u).cart = some k := by
          split <;> exact hk
        exact congrArg PartEntry.inUse (partEntry_erasePart hcart hw)
    · have heq := reqSetTime_eq hg hop hc
      intro sec nano m
      refine ⟨nowNs_minuteEnd _, fun ht => congrArg Host.Outcome.next (heq.trans (if_pos ht)), fun ht => congrArg Host.Outcome.next (heq.trans ?_),
        fun ht => ⟨_, rfl, ?_⟩⟩
      · rw [if_neg (by omega), if_pos ht]
      · rw [heq, if_neg (by omega), if_neg (by omega)]
        have hstands := (VaultStands.refl (stepTime sec nano m)).answer c stSUCCESS 0 0 0
        exact ⟨hstands.sec, hstands.us, hstands.set⟩
    · exact ⟨reqUnloadNotice s, rfl, reqUnloadNotice_effect hg hop hc⟩
    · rfl

end Sys2Proof.Machine
end
